-- ==== Sys2Proof/Word.lean ====
section
/-!
DEFINITION. The data widths of the VK16-A: bytes, 32-bit instruction words, 64-bit registers and addresses
(00 R5, R6; 02 R37; 04 R99; 06 R180), vector registers and accumulator cells (08 R264; 10 R340).
-/

namespace Sys2Proof

/-- A byte of memory (00 R6). -/
abbrev Byte := BitVec 8

/-- An instruction word (00 R6: in this manual a word is the 32-bit instruction word). -/
abbrev Word := BitVec 32

/-- A 64-bit register, queue entry, address or control register. -/
abbrev Reg64 := BitVec 64

/-- A vector register of 4,096 bits (08 R264). -/
abbrev VecReg := BitVec 4096

/-- A predicate or scale register of 256 bits (08 R264), and a grain cell (03 R93). -/
abbrev Reg256 := BitVec 256

/-- An accumulator cell of 80 bits (03 R83, 10 R340). -/
abbrev AccCell := BitVec 80

end Sys2Proof
end

