-- ==== Sys2Proof/Syntax.lean ====
section
/-!
DEFINITION. The operations and events of the machine: one constructor of `Instr` for every row of the opcode table.
A row with an encoding carries its dependency bits (02 R37, R49) and its decoded operands; a row that is an event of the
machine (95_what_each_step_holds) carries what the event is about. Operand kinds are named types, so that nothing after
the decoder sees a raw field.
-/

namespace Sys2Proof

/-- The six engines in ring and tag order (01 R17, 02 R38, R39). -/
inductive Engine where
  | S | A | M | V | T | F
  deriving DecidableEq, Repr

/-- Address spaces (02 R69). -/
inductive Asp where
  | virt | sp0 | sp1 | sp2
  deriving DecidableEq, Repr

/-- The twelve scopes (02 R69, 07 R249). -/
inductive Scope where
  | self | core | engines | stage | cluster | die | package | launch | host | panel | fabric | system
  deriving DecidableEq, Repr

/-- Rounding modes (03 R86). -/
inductive RMode where
  | rne | rtz | rup | rdn | sr
  deriving DecidableEq, Repr

/-- Scalar conditions of `CMP` (04 R108). -/
inductive Cond where
  | eq | ne | lt | ge | ltu | geu | tst | tnz
  deriving DecidableEq, Repr

/-- Levels of the barrier tree (04 R123). -/
inductive Level where
  | core | cluster | die | package | launch
  deriving DecidableEq, Repr

/-- Vector element types (08 R266). -/
inductive VTy where
  | i16 | i32 | i64 | fp16 | bf16 | fp32 | fp64
  deriving DecidableEq, Repr

/-- Conversion types of `VCVT` (08 R286). -/
inductive CTy where
  | i16 | i32 | i64 | fp16 | bf16 | fp32 | fp64 | i8 | e5m2 | e4m3
  deriving DecidableEq, Repr

/-- Conditions of `VCMP` (08 R274). -/
inductive VCond where
  | eq | ne | lt | le | gt | ge | un | ord
  deriving DecidableEq, Repr

/-- Operations of `AMO` (07 R236). -/
inductive AmoOp where
  | add | and | or | xor | smin | smax | umin | umax | swap
  deriving DecidableEq, Repr

/-- The ord field of atomics (07 R233). -/
inductive Ord where
  | rlx | acq | rel | ar
  deriving DecidableEq, Repr

/-- Formats of the grain words (07 R239, R240). -/
inductive GFmt where
  | fp64 | fp32 | int
  deriving DecidableEq, Repr

/-- Rounding or saturation of an integer narrowing (03 R89). -/
inductive Ov where
  | sat | wrap
  deriving DecidableEq, Repr

/-- Element formats of tensor records (06 R203). -/
inductive TFmt where
  | i8 | i16 | i32 | i64 | fp16 | bf16 | fp32 | fp64 | e5m2 | e4m3 | vx4 | e80 | cf32 | cf64 | grain
  deriving DecidableEq, Repr

/-- Formats of an accumulator line moved by V (08 R294). -/
inductive AccTy where
  | fp64 | fp32 | bf16 | fp16 | i64 | i32
  deriving DecidableEq, Repr

/-- Producers and consumers of a ring (09 R305). -/
inductive RingEnd where
  | copy | m | t
  deriving DecidableEq, Repr

/-- The fabric class of a program word (02 R69). -/
inductive FCls where
  | bulk | urgent
  deriving DecidableEq, Repr

/-- Packet classes (01 R23, 13 R429). -/
inductive PCls where
  | bulk | urgent | critical
  deriving DecidableEq, Repr

/-- Multicast reductions (12 R412). -/
inductive Red where
  | sum | min | max
  deriving DecidableEq, Repr

/-- Subscription levels (12 R414). -/
inductive SubLevel where
  | none | cluster | die | package | launch
  deriving DecidableEq, Repr

/-- Dependency bits wp wn sp sn (bit 3 to bit 0) of a head word and of its extension words (02 R37, R49). -/
structure Dep where
  h  : BitVec 4 := 0
  x1 : BitVec 4 := 0
  x2 : BitVec 4 := 0
  x3 : BitVec 4 := 0
  deriving DecidableEq, Repr

/-- An S register (02 R67). -/
abbrev SReg := Fin 64

/-- A register of the A engine (02 R67: codes 0–39). -/
inductive AReg where
  | a (n : Fin 32)
  | b (n : Fin 8)
  deriving DecidableEq, Repr

/-- A source operand of the A engine: a register, or one entry of `da` (02 R67: code 40). -/
inductive ASrc where
  | reg (r : AReg)
  | da
  deriving DecidableEq, Repr

/-- A source operand of the V engine (08 R267). -/
inductive VSrc where
  | v (n : Fin 32)
  | q (n : Fin 8)
  | dv
  deriving DecidableEq, Repr

/-- A destination operand of the V engine (08 R267). -/
inductive VDst where
  | v (n : Fin 32)
  | q (n : Fin 8)
  deriving DecidableEq, Repr

/-- Address fields of a MEM word (02 R65, 06 R197). `xc` is kept so that every word has one term. -/
structure MemAddr where
  asp  : Asp
  base : Fin 32
  xc   : Fin 4
  off  : BitVec 25
  deriving DecidableEq, Repr

/-- Where an `LD` puts its data (06 R197). -/
inductive LdDst where
  | reg (r : AReg)
  | ds | dv | dt
  deriving DecidableEq, Repr

/-- The count of a `LOOP` (02 R65). -/
inductive LoopCount where
  | imm (n : BitVec 15)
  | reg (r : SReg)
  deriving DecidableEq, Repr

/-- Kinds of `CP` and `CPL` with their operands (09 R311). -/
inductive CpKind where
  | toRec (tdd : Fin 64) (rx : Fin 32)
  | toRing (g : Fin 16) (se : Bool) (sem : Fin 32)
  | toPeer (g : Fin 16) (se : Bool) (sem : Fin 32) (rx : Fin 32)
  | drain (g : Fin 16) (sem : Fin 32)
  deriving DecidableEq, Repr

/-- Modes of `CPRING` with their operands (09 R315). -/
inductive RingMode where
  | c (base : AReg) (nsm1 : Fin 64) (lines : BitVec 13)
  | r (j : Fin 8) (lc : Fin 4) (lines : BitVec 13)
  deriving DecidableEq, Repr

/-- The plain side of `SIFT.dec` (09 R326). -/
inductive SiftDst where
  | plain (pasp : Asp) (rp : Fin 32)
  | ring (g : Fin 16)
  deriving DecidableEq, Repr

/-- A semaphore number with a value less one, as `MX.MMA` carries it (10 R352). -/
structure SemUse (n : Nat) where
  sem : Fin 32
  vm1 : Fin n
  deriving DecidableEq, Repr

/-- Predicate, merge or zero of a vector word (08 R266). -/
structure VCtl where
  k  : Fin 8
  zm : Bool
  deriving DecidableEq, Repr

/-- Forms of `VMOV` (08 R281). -/
inductive VmovForm where
  | copy (ctl : VCtl) (ty : VTy) (d : VDst) (a : VSrc)
  | ds (a : VSrc) (lane : Fin 64)
  | da (a : VSrc) (lane : Fin 64)
  | fz (d : VDst) (z : Fin 8)
  | tz (z : Fin 8) (a : VSrc)
  | fk (d : VDst) (k : Fin 8)
  | tk (k : Fin 8) (a : VSrc)
  deriving DecidableEq, Repr

/-- Kinds of `VSHUF` (08 R285). -/
inductive ShufKind where
  | ilvlo (b : VSrc) | ilvhi (b : VSrc) | even (b : VSrc) | odd (b : VSrc)
  | xswap (t : Fin 8)
  | rev
  | slide (b : VSrc) (t : Fin 32)
  deriving DecidableEq, Repr

/-- Targets of `VPUSHC` (08 R291). -/
inductive PushDst where
  | cb (n : Fin 4)
  | q (n : Fin 8) (flush : Bool)
  deriving DecidableEq, Repr

/-- Forms of `VPOPC` (08 R292). -/
inductive PopcForm where
  | full
  | tail (kE : Fin 8)
  deriving DecidableEq, Repr

/-- Where the rounding of a conversion takes random bits (08 R286, R288). -/
inductive VRnd where
  | mode (rm : RMode)
  | sr (r : VSrc)
  deriving DecidableEq, Repr

/-- Image mode or ring mode of a T word (11 R368, R379). -/
inductive TForm where
  | image (td : Fin 64)
  | ring (gi go : Fin 16)
  deriving DecidableEq, Repr

/-- The constant of `TX.SCALE` (11 R383). -/
inductive TScale where
  | pow2 (e : BitVec 16)
  | dt
  deriving DecidableEq, Repr

/-- The radix source of `TX.PLAN` (11 R372). -/
structure PlanSpec where
  auto : Bool
  real : Bool
  f64  : Bool
  n    : BitVec 21
  deriving DecidableEq, Repr

/-- Target of `TX.TWID` (11 R385). -/
inductive TwidDst where
  | image (td : Fin 64)
  | ring (g : Fin 16)
  deriving DecidableEq, Repr

/-- The common fields of a FAB word that has a target (12 R401). -/
structure FabHead where
  scope : Scope
  cls   : FCls
  xc    : Fin 4
  oa    : Fin 32
  ob    : Fin 32
  slot  : Option (BitVec 8)
  deriving DecidableEq, Repr

/-- Operations of `FB.AMO` (12 R401, R404). -/
inductive FAmoOp where
  | amo (op : AmoOp)
  | cas
  deriving DecidableEq, Repr

/-- The place of a context bank (05 R164). -/
structure Loc where
  core : Nat
  bank : Fin 2
  deriving DecidableEq, Repr

/-- A die address on the panel: panel, package, die (13 R430). -/
structure NetAddr where
  panel : BitVec 6
  pkg   : BitVec 6
  die   : BitVec 4
  deriving DecidableEq, Repr

/-- Packet kinds (13 R431). `other` is every unassigned value. -/
inductive PKind where
  | write | read | resp | amo | gadd | mcwrite | mcread | granule | chunk | ack | nack
  | credit | flush | close | sync | drain | token | mode | advert | other (n : BitVec 8)
  deriving DecidableEq, Repr

/-- Operations of a collective (14 R461). -/
inductive CollOp where
  | pencil | all2all | allgather | grainred
  deriving DecidableEq, Repr

/-- What a posted parameter block says (14 R461 to R463), with its records as captured; a member is 1024·package + linear core. -/
structure CollBlock where
  op      : CollOp
  cid     : Nat
  members : List Nat
  src     : List (BitVec 64)
  dst     : List (BitVec 64)
  sdim    : Nat
  ddim    : Nat
  perm    : List Nat
  deriving DecidableEq, Repr

/-- A PTP message (13 R445) with its domain, the identity of the clock that sent it, and its sequence number; times are in ns. -/
inductive SyncMsg where
  /-- Announce, with the master's data set in the order in which the best master algorithm compares it -/
  | announce (domain src : Nat) (rank : List Nat)
  | sync (domain src seq : Nat)
  /-- Follow_Up, with the time at which its Sync was sent -/
  | followUp (domain src seq t : Nat)
  | delayReq (domain seq : Nat)
  /-- Delay_Resp, with the time at which its Delay_Req was received -/
  | delayResp (domain src seq t : Nat)
  /-- any other kind of message -/
  | unsupported
  deriving DecidableEq, Repr

/-- What a request packet asks of its home. The manual lays out the header (13 R430) and no payload layout for the
operation, so the request is carried as data (log entry 12). -/
inductive PReq where
  | none
  | write (data : List (BitVec 8))
  | read (n : Nat)
  | amo (op : FAmoOp) (w8 : Bool) (x y : BitVec 64)
  | gadd (fmt : GFmt) (x : BitVec 64)
  /-- a multicast store or load, with the export windows of its members (12 R410) and the number it has on the triple of each (13 R435) -/
  | mwrite (members seqs : List Nat) (data : List (BitVec 8))
  | mread (members seqs : List Nat) (n : Nat)
  /-- store data as Sift sectors: the mode and the sectors of each block (09 R323, R328) -/
  | sectors (blocks : List (Nat × List (BitVec 8)))
  /-- an access of the host on its way from die 0 to a stack (01 R16) -/
  | hostWrite (pa : Nat) (data : List (BitVec 8))
  | hostRead (pa n : Nat)
  /-- credits granted, by 4·vc + class (13 R436) -/
  | credit (l : List Nat)
  /-- what a link's end states of itself: Sift support, its vcs and its first credits (13 R444) -/
  | advert (sift : Bool) (vcs : Nat) (l : List Nat)
  | sync (m : SyncMsg)
  /-- the token of an Erg channel (14 R474) -/
  | token (ch : Fin 16) (epoch seq : Nat) (uw : Bool)
  /-- a scope, its mode, the mode's first window, and winlen in ns (13 R456) -/
  | mode (fabric windowed : Bool) (w winlen : Nat)
  /-- the merged reply of a multicast: each member's bytes, or none where it failed (12 R411, R412) -/
  | replies (l : List (Option (List (BitVec 8))))
  /-- an ACK or NACK: the class of the triple it acknowledges (13 R435), and for a NACK the cause (12 R400) -/
  | acked (cls : PCls) (cause : Option Nat)
  /-- a member's post, told to the Traverse of another package (14 R464) -/
  | collPost (who pid : Nat) (b : CollBlock)
  /-- a chunk from position `i` to position `j` of the instance that holds post `pid` (14 R470) -/
  | collChunk (pid i j chunk : Nat)
  /-- such a chunk has been written (14 R467) -/
  | collDid (pid i j chunk : Nat)
  /-- the launch of these members has ended (14 R472) -/
  | collStop (pid : Nat) (who : List Nat)
  deriving DecidableEq, Repr

/-- A packet: its header (13 R430) and what it carries (13 R431). -/
structure Packet where
  kind   : PKind
  cls    : PCls
  rel    : Bool
  wm     : Bool
  sift   : Bool
  ver    : Bool
  scope  : Scope
  len    : Nat
  seq    : BitVec 32
  src    : NetAddr
  dst    : NetAddr
  window : BitVec 48
  npath  : BitVec 16
  tag    : BitVec 32
  off    : BitVec 36
  req    : PReq
  data   : List (BitVec 8)
  badRes : Bool
  /-- the model's own: its head flit has entered an Omuno port, so it keeps its stamp (13 R449) -/
  sent   : Bool := false
  deriving DecidableEq, Repr

/-- A packet with the Datum time at which its head flit crossed a port. -/
structure Timed where
  time : Nat
  p    : Packet
  deriving DecidableEq, Repr

/-- A packet received whole, with the vc it came on. -/
structure OnVc extends Timed where
  vc : Fin 4
  deriving DecidableEq, Repr

/-- A packet received whole at a die, with the port it came by. -/
structure Landed extends OnVc where
  port : Fin 7
  deriving DecidableEq, Repr

/-- A packet that a die's port has received whole. -/
structure Arrived extends Landed where
  die : Fin 16
  deriving DecidableEq, Repr

/-- The packet that a die's port has received whole on a vc, its head flit at a time. -/
abbrev Packet.cameBy (p : Packet) (die : Fin 16) (port : Fin 7) (vc : Fin 4) (time : Nat) : Arrived := ⟨⟨⟨⟨time, p⟩, vc⟩, port⟩, die⟩

/-- A flit: its control field (13 R429) and, for a head flit, the header of its packet. -/
structure Flit where
  crcOk : Bool
  lseq  : BitVec 10
  lack  : Option (BitVec 10)
  abort : Bool
  tail  : Bool
  head  : Option Packet
  vc    : Fin 4
  cls   : Fin 4
  ctl   : BitVec 64
  deriving DecidableEq, Repr

/-- Accesses of the host and of PCIe and CXL requesters (15 R482). -/
inductive HostAcc where
  | write (pa : Nat) (data : List (BitVec 8))
  | read (pa : Nat) (n : Nat)
  | poison (pa : Nat) (n : Nat)
  deriving DecidableEq, Repr

/-- A request at its home: one of this package's cores, or one that arrived by packet (12 R400). -/
inductive ReqRef where
  | own (l : Loc) (id : Nat)
  | incoming (idx : Nat)
  deriving DecidableEq, Repr

/-- What a patrol scrub finds at a protected word (15 R500). -/
inductive Scrub where
  | clean | corrected | uncorrectable
  deriving DecidableEq, Repr

/-- The operations and events of the machine, one constructor for each row of the opcode table, in its order. -/
inductive Instr where
  -- Sequencer class (04)
  | nop (m : Dep)
  | add (m : Dep) (d a b : SReg)
  | sub (m : Dep) (d a b : SReg)
  | mul (m : Dep) (d a b : SReg)
  | and (m : Dep) (d a b : SReg)
  | or (m : Dep) (d a b : SReg)
  | xor (m : Dep) (d a b : SReg)
  | shl (m : Dep) (d a b : SReg)
  | shr (m : Dep) (d a b : SReg)
  | li (m : Dep) (xc : Fin 4) (d : SReg) (imm : BitVec 64)
  | mov (m : Dep) (d a : SReg)
  | movFromDs (m : Dep) (d : SReg)
  | movToDa (m : Dep) (a : SReg)
  | movToDv (m : Dep) (a : SReg)
  | movToDt (m : Dep) (a : SReg)
  | cmp (m : Dep) (cc : Cond) (nq : Bool) (d a b : SReg)
  | br (m : Dep) (off : BitVec 18)
  | brc (m : Dep) (off : BitVec 18)
  | call (m : Dep) (off : BitVec 18)
  | ret (m : Dep)
  | loop (m : Dep) (lc : Fin 4) (cnt : LoopCount) (off : BitVec 17)
  | endl (m : Dep) (lc : Fin 4) (rot : Bool)
  | lexit (m : Dep) (cancel : Bool) (off : BitVec 17)
  | semSigImm (m : Dep) (sem : Fin 32) (val : BitVec 12)
  | semSigReg (m : Dep) (sem : Fin 32) (r : SReg)
  | semWaitImm (m : Dep) (sem : Fin 32) (val : BitVec 12)
  | semWaitReg (m : Dep) (sem : Fin 32) (r : SReg)
  | drain (m : Dep)
  | cairn (m : Dep) (lvl : Level)
  | iter (m : Dep) (off : BitVec 18)
  | stagep (m : Dep)
  | exit (m : Dep)
  | trap (m : Dep) (code : BitVec 16)
  | csrRd (m : Dep) (r : SReg) (csr : BitVec 11)
  | csrWr (m : Dep) (r : SReg) (csr : BitVec 11)
  | scheduleEntryEnter (l : Loc)
  -- Access class (06)
  | ld (m : Dep) (ma : MemAddr) (sz : Fin 7) (z : Bool) (dst : LdDst)
  | st (m : Dep) (ma : MemAddr) (sz : Fin 7) (src : ASrc)
  | adda (m : Dep) (d : AReg) (a b : ASrc)
  | lia (m : Dep) (xc : Fin 4) (d : AReg) (imm : BitVec 64)
  | mova (m : Dep) (d : AReg) (a : ASrc)
  | movaToDs (m : Dep) (a : ASrc)
  | movaToDv (m : Dep) (a : ASrc)
  | movaToDt (m : Dep) (a : ASrc)
  | tdSet (m : Dep) (td : Fin 64) (i : Fin 12) (r : Fin 32)
  | tdGet (m : Dep) (td : Fin 64) (i : Fin 12) (r : Fin 32)
  | tmov (m : Dep) (td : Fin 64) (ch : Fin 8) (st : Bool) (oa ob : Fin 32)
  | qbind (m : Dep) (td : Fin 64) (q : Fin 8) (wr : Bool) (oa ob : Fin 32)
  | qend (m : Dep) (q : Fin 8)
  | streamFetch (l : Loc) (q : Fin 8)
  | streamDrain (l : Loc) (q : Fin 8)
  | segqState (m : Dep) (d : AReg) (a : ASrc)
  | segqProbe (m : Dep) (d : AReg) (a : ASrc)
  | tlbinvAll (m : Dep)
  | tlbinvPage (m : Dep) (a : ASrc)
  | tlbinvSeg (m : Dep) (a : ASrc)
  | astat (m : Dep) (d : AReg)
  | astatClr (m : Dep) (d : AReg) (a : ASrc)
  | astatMiss (m : Dep) (d : AReg)
  | accessPerform (l : Loc) (id : Nat)
  | pageFault (l : Loc)
  -- Ordering (07)
  | fenceAcq (m : Dep) (scope : Scope)
  | fenceRel (m : Dep) (scope : Scope)
  | fenceAr (m : Dep) (scope : Scope)
  | fenceSc (m : Dep) (scope : Scope)
  | fenceXp (m : Dep)
  | amo (m : Dep) (ma : MemAddr) (w8 : Bool) (op : AmoOp) (ord : Ord) (scope : Scope) (z nr : Bool) (d ra : Fin 32)
  | cas (m : Dep) (ma : MemAddr) (w8 : Bool) (ord : Ord) (scope : Scope) (z : Bool) (d ra : Fin 32)
  | gadd (m : Dep) (ma : MemAddr) (fmt : GFmt) (ord : Ord) (scope : Scope) (d : Fin 32)
  | grd (m : Dep) (ma : MemAddr) (fmt : GFmt) (rm : RMode) (ord : Ord) (scope : Scope) (d ra : Fin 32)
  | gclr (m : Dep) (ma : MemAddr) (ord : Ord) (scope : Scope) (d : Fin 32)
  | waita (m : Dep) (ma : MemAddr) (w8 : Bool) (scope : Scope) (d ra : Fin 32)
  | waitaTimeout (l : Loc)
  | wakea (m : Dep) (ma : MemAddr) (scope : Scope) (d : Fin 32)
  | convey (m : Dep) (ma : MemAddr) (d : Fin 32)
  | platQ (m : Dep) (ma : MemAddr) (d : Fin 32)
  | platWait (m : Dep) (ma : MemAddr) (d : Fin 32)
  | platWaitTimeout (l : Loc)
  | platShare (m : Dep) (ma : MemAddr) (d : Fin 32)
  -- Copy class (09)
  | cp (m : Dep) (td : Fin 64) (ch : Fin 8) (kind : CpKind) (oa ob : Fin 32)
  | cpl (m : Dep) (td : Fin 64) (ch : Fin 8) (kind : CpKind) (oa ob rc rs : Fin 32)
  | cpring (m : Dep) (g : Fin 16) (mode : RingMode) (prod cons : RingEnd)
  | cpwpRd (m : Dep) (a : Fin 32) (ch : Fin 8)
  | cpwpWait (m : Dep) (a : Fin 32) (ch : Fin 8)
  | cpwpDs (m : Dep) (ch : Fin 8)
  | cpcan (m : Dep) (ch : Fin 8)
  | cpcanAll (m : Dep)
  | siftEnc (m : Dep) (ch : Fin 8) (pasp sasp : Asp) (rp rmap rsec rn : Fin 32)
  | siftDec (m : Dep) (ch : Fin 8) (dst : SiftDst) (sasp : Asp) (rmap rsec rn : Fin 32)
  | accmov (m : Dep) (acc : Fin 1024) (ch : Fin 8) (st : Bool) (asp : Asp) (base : Fin 32)
  | chunkPublish (l : Loc) (ch : Fin 8)
  | copyComplete (l : Loc) (ch : Fin 8)
  | channelPageFault (l : Loc) (ch : Fin 8)
  | spillWriteback (l : Loc) (ch : Fin 8)
  -- Matrix class (10)
  | mxShape (m : Dep) (rm1 cm1 : Fin 32) (nq nd : Bool)
  | mxMma (m : Dep) (acc : Fin 1024) (ga gb : Fin 16) (ka kb : Bool) (w : Option (SemUse 16)) (s : Option (SemUse 8)) (set : Bool)
  | mxGer (m : Dep) (acc : Fin 1024) (ga gb : Fin 16) (ka kb : Bool) (w : Option (SemUse 16)) (s : Option (SemUse 8)) (set : Bool)
  | mxBatch (m : Dep) (acc : Fin 1024) (ga gb : Fin 16) (nm1 : Fin 16) (ka kb set : Bool)
  | mxZero (m : Dep) (acc : Fin 1024)
  | mxLdacc (m : Dep) (acc : Fin 1024) (g : Fin 16) (kp add z : Bool)
  | mxStacc (m : Dep) (acc : Fin 1024) (g : Fin 16) (rm : RMode) (ov : Ov) (z : Bool)
  | mxAccadd (m : Dep) (d s : Fin 1024) (int neg : Bool)
  | mxAccmov (m : Dep) (d s : Fin 1024) (swap : Bool)
  | mxCseq (m : Dep) (imm : BitVec 32)
  | mxRing (m : Dep) (td : Fin 64) (g : Fin 16)
  | mxPop (m : Dep) (g : Fin 16)
  | mxFmt (m : Dep) (g : Fin 16) (fmt : TFmt)
  | mxScale (m : Dep) (g : Fin 16) (val : Option (BitVec 16))
  | mxTrn (m : Dep) (acc : Fin 1024)
  | mxMode (m : Dep) (negp za zb : Bool)
  | mxSemWait (m : Dep) (sem : Fin 32) (val : BitVec 11)
  | mxSemSig (m : Dep) (sem : Fin 32) (val : BitVec 11)
  | mxStat (m : Dep) (clr : Bool)
  | matrixPassStart (l : Loc)
  -- Vector class (08)
  | vadd (m : Dep) (ctl : VCtl) (ty : VTy) (rm : RMode) (d : VDst) (a b : VSrc)
  | vsub (m : Dep) (ctl : VCtl) (ty : VTy) (rm : RMode) (d : VDst) (a b : VSrc)
  | vmul (m : Dep) (ctl : VCtl) (ty : VTy) (rm : RMode) (d : VDst) (a b : VSrc)
  | vfma (m : Dep) (ctl : VCtl) (ty : VTy) (rm : RMode) (np nc : Bool) (d : VDst) (a b c : VSrc)
  | vmin (m : Dep) (ctl : VCtl) (ty : VTy) (z : Bool) (d : VDst) (a b : VSrc)
  | vmax (m : Dep) (ctl : VCtl) (ty : VTy) (z : Bool) (d : VDst) (a b : VSrc)
  | vabs (m : Dep) (ctl : VCtl) (ty : VTy) (z : Bool) (d : VDst) (a : VSrc)
  | vneg (m : Dep) (ctl : VCtl) (ty : VTy) (z : Bool) (d : VDst) (a : VSrc)
  | viadd (m : Dep) (ctl : VCtl) (ty : VTy) (z sat : Bool) (d : VDst) (a b : VSrc)
  | visub (m : Dep) (ctl : VCtl) (ty : VTy) (z sat : Bool) (d : VDst) (a b : VSrc)
  | vimul (m : Dep) (ctl : VCtl) (ty : VTy) (z sat hi : Bool) (d : VDst) (a b : VSrc)
  | vand (m : Dep) (ctl : VCtl) (ty : VTy) (d : VDst) (a b : VSrc)
  | vor (m : Dep) (ctl : VCtl) (ty : VTy) (d : VDst) (a b : VSrc)
  | vxor (m : Dep) (ctl : VCtl) (ty : VTy) (d : VDst) (a b : VSrc)
  | vshl (m : Dep) (ctl : VCtl) (ty : VTy) (d : VDst) (a b : VSrc)
  | vshr (m : Dep) (ctl : VCtl) (ty : VTy) (z : Bool) (d : VDst) (a b : VSrc)
  | vcmp (m : Dep) (k : Fin 8) (ty : VTy) (z : Bool) (cc : VCond) (kd : Fin 8) (a b : VSrc)
  | vcmpq (m : Dep) (k : Fin 8) (ty : VTy) (z all : Bool) (cc : VCond) (kd : Fin 8) (a b : VSrc)
  | vsel (m : Dep) (k : Fin 8) (ty : VTy) (d : VDst) (a b : VSrc)
  | vrsum (m : Dep) (k : Fin 8) (ty : VTy) (z : Bool) (rm : RMode) (q sat : Bool) (d : VDst) (a : VSrc)
  | vrmax (m : Dep) (k : Fin 8) (ty : VTy) (z q : Bool) (d : VDst) (a : VSrc)
  | vcvt (m : Dep) (ctl : VCtl) (dst src : CTy) (sz dz : Bool) (ov : Ov) (part : Fin 8) (rnd : VRnd) (d : VDst) (a : VSrc)
  | vqmax (m : Dep) (ty : VTy) (zd : Fin 8) (a b : VSrc)
  | vqcvt (m : Dep) (ty : VTy) (rnd : VRnd) (part : Fin 16) (zs : Fin 8) (d : VDst) (a b : VSrc)
  | vdq (m : Dep) (ctl : VCtl) (ty : VTy) (rm : RMode) (part : Fin 16) (zs : Fin 8) (d : VDst) (a b : VSrc)
  | vperm (m : Dep) (ctl : VCtl) (ty : VTy) (d : VDst) (a b : VSrc)
  | vshuf (m : Dep) (ctl : VCtl) (ty : VTy) (kind : ShufKind) (d : VDst) (a : VSrc)
  | vrcpe (m : Dep) (ctl : VCtl) (ty : VTy) (d : VDst) (a : VSrc)
  | vrsqe (m : Dep) (ctl : VCtl) (ty : VTy) (d : VDst) (a : VSrc)
  | vpushc (m : Dep) (k : Fin 8) (ty : VTy) (d : PushDst) (a : VSrc)
  | vpopc (m : Dep) (ty : VTy) (form : PopcForm) (d : VDst) (cb : Fin 4)
  | vmov (m : Dep) (form : VmovForm)
  | vbcast (m : Dep) (xc : Fin 4) (d : VDst) (imm : BitVec 64)
  | vsetl (m : Dep) (xc : Fin 4) (kd : Fin 8) (imm : BitVec 64)
  | vaccRd (m : Dep) (acc : Fin 1024) (d : VDst) (line : Fin 32) (col : Bool) (h : Fin 8) (vt : AccTy) (rm : RMode) (ov : Ov)
  | vaccWr (m : Dep) (acc : Fin 1024) (a : VSrc) (line : Fin 32) (col : Bool) (h : Fin 8) (vt : AccTy) (rm : RMode) (add : Bool)
  | viota (m : Dep) (ctl : VCtl) (ty : VTy) (pfx : Bool) (d : VDst)
  | vcnt (m : Dep) (ty : VTy) (q : Bool) (d : VDst) (ka : Fin 8)
  | vpopq (m : Dep) (ctl : VCtl) (count : Fin 32) (d : VDst)
  | vstat (m : Dep) (clr : Bool)
  -- Transform class (11)
  | txPlan (m : Dep) (p : Fin 8) (spec : PlanSpec)
  | txFwd (m : Dep) (p : Fin 8) (td : Fin 64)
  | txFwdRing (m : Dep) (p : Fin 8) (gi go : Fin 16)
  | txInv (m : Dep) (p : Fin 8) (td : Fin 64)
  | txInvRing (m : Dep) (p : Fin 8) (gi go : Fin 16)
  | txStage (m : Dep) (p : Fin 8) (form : TForm) (st : Fin 32) (inv : Bool)
  | txTwid (m : Dep) (dst : TwidDst) (outer pos : Bool) (q : BitVec 21)
  | txRfwd (m : Dep) (p : Fin 8) (td : Fin 64)
  | txRfwdRing (m : Dep) (p : Fin 8) (gi go : Fin 16)
  | txRinv (m : Dep) (p : Fin 8) (td : Fin 64)
  | txRinvRing (m : Dep) (p : Fin 8) (gi go : Fin 16)
  | txLeg (m : Dep) (td : Fin 64) (g : Fin 16) (order : BitVec 12) (d0 : BitVec 13)
  | txScale (m : Dep) (form : TForm) (c : TScale) (rm : RMode)
  | txDigrev (m : Dep) (p : Fin 8) (td : Fin 64)
  | txDigrevRing (m : Dep) (p : Fin 8) (gi go : Fin 16)
  | txRing (m : Dep) (td : Fin 64) (g : Fin 16)
  | txSemWait (m : Dep) (sem : Fin 32) (val : BitVec 11)
  | txSemSig (m : Dep) (sem : Fin 32) (val : BitVec 11)
  | txStat (m : Dep) (clr : Bool)
  | txCplx (m : Dep) (td : Fin 64) (g : Fin 16) (conj kp bc : Bool)
  -- Fabric class (12)
  | fbLd (m : Dep) (td : Fin 64) (h : FabHead) (ds z acq : Bool)
  | fbSt (m : Dep) (td : Fin 64) (h : FabHead) (rel : Bool)
  | fbAmo (m : Dep) (td : Fin 64) (h : FabHead) (nr z : Bool) (ord : Ord) (op : FAmoOp) (ra rb : Fin 32)
  | fbGadd (m : Dep) (td : Fin 64) (h : FabHead) (fmt : GFmt) (rel : Bool) (ra : Fin 32)
  | fbFenceAcq (m : Dep) (scope : Scope)
  | fbFenceRel (m : Dep) (scope : Scope)
  | fbFenceAr (m : Dep) (scope : Scope)
  | fbFenceSc (m : Dep) (scope : Scope)
  | fbMcst (m : Dep) (td : Fin 64) (h : FabHead) (ack rel : Bool) (ap : Fin 64)
  | fbMcld (m : Dep) (td : Fin 64) (h : FabHead) (red : Red) (q z : Bool) (ap : Fin 64)
  | fbSub (m : Dep) (td : Fin 64) (n : Fin 16) (lvl : SubLevel) (rp : Fin 32)
  | fbUnsub (m : Dep) (n : Fin 16)
  | fbSflush (m : Dep)
  | fbColl (m : Dep) (fc : Fin 16) (scope : Scope) (xc : Fin 4) (oa : Fin 32) (slot : Option (BitVec 8))
  | fbCwait (m : Dep) (fc : Fin 16) (v : BitVec 14)
  | fbTimeNow (m : Dep)
  | fbTimeWin (m : Dep)
  | fbTimeUntil (m : Dep) (n : BitVec 16)
  | fbStat (m : Dep) (clr : Bool)
  -- Events of the fabric, subscriptions and collectives (12, 14)
  | slotTimeReached (l : Loc) (id : Nat)
  | remoteRequestArrival (r : ReqRef)
  | remoteReply (l : Loc) (id : Nat)
  | requestTimeout (l : Loc) (id : Nat)
  | subInstall (l : Loc) (n : Fin 16)
  | granuleSend (l : Loc) (entry : Nat)
  | granuleDeliver (idx : Nat)
  | collectiveStart (inst : Nat)
  | collectiveTimeout (inst : Nat)
  | collectiveChunk (inst i j chunk : Nat)
  | collectiveComplete (inst : Nat)
  | collectivePeerStop (inst : Nat)
  -- Launch machinery (05)
  | qwidxWrite (fn : Fin 17) (q : Fin 64) (v : BitVec 64)
  | packetCheck (q : Fin 64)
  | headerCheck (q : Fin 64)
  | deadlineReached
  | bankLoaded (l : Loc)
  | coreHalted (core : Nat)
  | evictionSaved (l : Loc)
  | barrierRelease (launch : Nat) (lvl : Level) (place : Nat)
  | barrierTimeout (launch : Nat) (lvl : Level) (place : Nat)
  | watchdogExpiry (core : Nat)
  | launchEnd (launch : Nat)
  | completionRecord (launch : Nat)
  | meridianGraphStart (q : Fin 64)
  | meridianNodeReady (g node : Nat)
  | meridianGraphStop (g : Nat)
  | migrationCopy (idx : Nat)
  | migrationRebind (idx : Nat)
  -- Host interface (15)
  | hcmdCtxCreate (fn : Fin 17)
  | hcmdCtxDestroy (fn : Fin 17)
  | hcmdTlbInv (fn : Fin 17)
  | hcmdPlatInv (fn : Fin 17)
  | hcmdMigrate (fn : Fin 17)
  | hcmdFaultReply (fn : Fin 17)
  | hcmdRouteLoad (fn : Fin 17)
  | hcmdRouteCommit (fn : Fin 17)
  | hcmdAttest (fn : Fin 17)
  | hcmdFwLoad (fn : Fin 17)
  | hcmdUnknown (fn : Fin 17) (op : BitVec 64)
  | hostCommandDone (fn : Fin 17)
  | qcfgWrite (fn : Fin 17) (q : Fin 64) (v : BitVec 64)
  | qcancel (fn : Fin 17) (q : Fin 64) (v : BitVec 64)
  | fqcfgWrite (fn : Fin 17) (v : BitVec 64)
  | fqtailWrite (fn : Fin 17) (v : BitVec 64)
  | evcfgWrite (v : BitVec 64)
  | evtailWrite (v : BitVec 64)
  | plumbtrigWrite (v : BitVec 64)
  | plumbCapture
  | ltrcfgWrite (die : Fin 16) (v : BitVec 64)
  | pwrlimWrite (v : BitVec 64)
  | powerThrottle (watts : BitVec 13)
  | registerWrite (fn : Fin 17) (off : Nat) (v : BitVec 64)
  | hostMemoryAccess (acc : HostAcc)
  | deviceReset
  | fwverify
  | hbmtrain (failed : BitVec 16)
  | linktrain (down : List (Nat × Nat))
  | selftest (ok : Bool)
  | patrolScrub (pa : Nat) (found : Scrub)
  -- Links, packets, clock and Erg (13, 14)
  | flitTransmit (die : Fin 16) (port : Fin 7)
  | flitReceive (die : Fin 16) (port : Fin 7) (f : Flit)
  | linkTrained (die : Fin 16) (port : Fin 7)
  | linkFailed (die : Fin 16) (port : Fin 7)
  | linkReset (die : Fin 16) (port : Fin 7)
  | pktWrite (die : Fin 16) (l : Landed)
  | pktRead (die : Fin 16) (l : Landed)
  | pktResp (die : Fin 16) (l : Landed)
  | pktAmo (die : Fin 16) (l : Landed)
  | pktGadd (die : Fin 16) (l : Landed)
  | pktMcwrite (die : Fin 16) (l : Landed)
  | pktMcread (die : Fin 16) (l : Landed)
  | pktGranule (die : Fin 16) (l : Landed)
  | pktChunk (die : Fin 16) (l : Landed)
  | pktAck (die : Fin 16) (l : Landed)
  | pktNack (die : Fin 16) (l : Landed)
  | pktCredit (die : Fin 16) (port : Fin 7) (vc : Fin 4) (time : Nat) (p : Packet)
  | pktFlush (die : Fin 16) (l : Landed)
  | pktClose (die : Fin 16) (port : Fin 7) (vc : Fin 4) (x : Timed)
  | pktSync (die : Fin 16) (l : Landed)
  | pktDrain (die : Fin 16) (l : Landed)
  | pktToken (die : Fin 16) (port : Fin 7) (vc : Fin 4) (time : Nat) (p : Packet)
  | pktMode (die : Fin 16) (port : Fin 7) (vc : Fin 4) (x : Timed)
  | pktAdvert (die : Fin 16) (port : Fin 7) (x : OnVc)
  | windowEnd
  | scopeModeChange (fabric : Bool)
  | syncMissed
  | ergTokenArrival (ch : Fin 16) (die : Fin 16) (epoch : BitVec 8) (seq : BitVec 16) (uw : Bool)
  | ergUrgentRequest (ch : Fin 16) (die : Fin 16)
  | ergTokenRegen (ch : Fin 16)
  | lossOfLaneLock (die : Fin 16) (port : Fin 7)
  | errExceedsGuard
  | timeUntilReached (l : Loc)
  deriving DecidableEq, Repr

end Sys2Proof
end

