-- ==== Sys2Proof/WellFormed.lean ====
section
/-!
DEFINITION. Which terms of `Instr` are instructions of the machine: the operand rules that 02 R48, R63 step 5, R66, R68 and
the entries of 04 to 12 state, beyond what the types already say. The decoder answers only such terms.
-/

namespace Sys2Proof

/-- What every encoded word has: its engine (02 R38), its dependency bits (02 R37, R49) and its extension count (02 R48). -/
structure Head where
  eng : Engine
  dep : Dep
  ext : Nat
  deriving DecidableEq, Repr

/-- Float element types (08 R266). -/
def VTy.isFloat : VTy → Bool
  | .fp16 | .bf16 | .fp32 | .fp64 => true
  | .i16 | .i32 | .i64 => false

/-- Element width in bits (08 R266). -/
def VTy.width : VTy → Nat
  | .i16 | .fp16 | .bf16 => 16
  | .i32 | .fp32 => 32
  | .i64 | .fp64 => 64

/-- Elements of a register (08 R266). -/
def VTy.elems (t : VTy) : Nat := 4096 / t.width

/-- Float conversion types (08 R286). -/
def CTy.isFloat : CTy → Bool
  | .fp16 | .bf16 | .fp32 | .fp64 | .e5m2 | .e4m3 => true
  | .i8 | .i16 | .i32 | .i64 => false

/-- Width of a conversion type (08 R286). -/
def CTy.width : CTy → Nat
  | .i8 | .e5m2 | .e4m3 => 8
  | .i16 | .fp16 | .bf16 => 16
  | .i32 | .fp32 => 32
  | .i64 | .fp64 => 64

/-- Elements of a register under a conversion type (08 R286). -/
def CTy.elems (t : CTy) : Nat := 4096 / t.width

/-- Width of an accumulator line's elements (08 R294). -/
def AccTy.width : AccTy → Nat
  | .fp64 | .i64 => 64
  | .fp32 | .i32 => 32
  | .bf16 | .fp16 => 16

/-- Float line formats (08 R294). -/
def AccTy.isFloat : AccTy → Bool
  | .fp64 | .fp32 | .bf16 | .fp16 => true
  | .i64 | .i32 => false

/-- The immediates that an RI word with `xc` extension words can hold (02 R68). -/
def immFits (xc : Fin 4) (imm : BitVec 64) : Bool :=
  match xc.val with
  | 0 => (imm.truncate 10).signExtend 64 == imm
  | 1 => (imm.truncate 35).signExtend 64 == imm
  | 2 => (imm.truncate 60).signExtend 64 == imm
  | _ => true

/-- A MEM word without an extension word has offset 0 (02 R68). -/
def MemAddr.wf (ma : MemAddr) : Bool := ma.xc != 0 || ma.off == 0

/-- Atomic and parcel words need their second extension word (07 R233). -/
def MemAddr.wfAtomic (ma : MemAddr) : Bool := 2 ≤ ma.xc.val

/-- A rounding mode other than stochastic (R86). -/
def RMode.direct (rm : RMode) : Bool := rm != .sr

/-- A conversion's rounding (08 R286). -/
def VRnd.wf : VRnd → Bool
  | .mode rm => rm.direct
  | .sr _ => true

/-- Two rings of a T word differ (11 R379). -/
def TForm.wf : TForm → Bool
  | .image _ => true
  | .ring gi go => gi != go

/-- Assigned CSR numbers (04 R133, 05 R144, 06 R220, 08 R297, 09 R334, 10 R364, 11 R391, 12 R425, 14 R479). -/
def csrAssigned (n : Nat) : Bool :=
  n ≤ 0x001 || (0x010 ≤ n && n ≤ 0x015) || (0x020 ≤ n && n ≤ 0x023) || (0x040 ≤ n && n ≤ 0x05F)
  || (0x100 ≤ n && n ≤ 0x104) || (0x180 ≤ n && n ≤ 0x18A) || (0x190 ≤ n && n ≤ 0x19F)
  || (0x200 ≤ n && n ≤ 0x204) || (0x210 ≤ n && n ≤ 0x21F) || (0x300 ≤ n && n ≤ 0x302)
  || (0x400 ≤ n && n ≤ 0x401) || (0x410 ≤ n && n ≤ 0x41F) || (0x500 ≤ n && n ≤ 0x505)
  || (0x510 ≤ n && n ≤ 0x51F) || (0x580 ≤ n && n ≤ 0x581) || (0x600 ≤ n && n ≤ 0x604) || (0x608 ≤ n && n ≤ 0x60F)

/-- Engine, dependency bits and extension count of an encoded word; none for an event. -/
def Instr.head : Instr → Option Head
  | .nop m => some ⟨.S, m, 0⟩
  | .add m _ _ _ => some ⟨.S, m, 0⟩
  | .sub m _ _ _ => some ⟨.S, m, 0⟩
  | .mul m _ _ _ => some ⟨.S, m, 0⟩
  | .and m _ _ _ => some ⟨.S, m, 0⟩
  | .or m _ _ _ => some ⟨.S, m, 0⟩
  | .xor m _ _ _ => some ⟨.S, m, 0⟩
  | .shl m _ _ _ => some ⟨.S, m, 0⟩
  | .shr m _ _ _ => some ⟨.S, m, 0⟩
  | .li m xc _ _ => some ⟨.S, m, xc.val⟩
  | .mov m _ _ => some ⟨.S, m, 0⟩
  | .movFromDs m _ => some ⟨.S, m, 0⟩
  | .movToDa m _ => some ⟨.S, m, 0⟩
  | .movToDv m _ => some ⟨.S, m, 0⟩
  | .movToDt m _ => some ⟨.S, m, 0⟩
  | .cmp m _ _ _ _ _ => some ⟨.S, m, 1⟩
  | .br m _ => some ⟨.S, m, 0⟩
  | .brc m _ => some ⟨.S, m, 0⟩
  | .call m _ => some ⟨.S, m, 0⟩
  | .ret m => some ⟨.S, m, 0⟩
  | .loop m _ _ _ => some ⟨.S, m, 1⟩
  | .endl m _ _ => some ⟨.S, m, 0⟩
  | .lexit m _ _ => some ⟨.S, m, 0⟩
  | .semSigImm m _ _ => some ⟨.S, m, 0⟩
  | .semSigReg m _ _ => some ⟨.S, m, 0⟩
  | .semWaitImm m _ _ => some ⟨.S, m, 0⟩
  | .semWaitReg m _ _ => some ⟨.S, m, 0⟩
  | .drain m => some ⟨.S, m, 0⟩
  | .cairn m _ => some ⟨.S, m, 0⟩
  | .iter m _ => some ⟨.S, m, 0⟩
  | .stagep m => some ⟨.S, m, 0⟩
  | .exit m => some ⟨.S, m, 0⟩
  | .trap m _ => some ⟨.S, m, 0⟩
  | .csrRd m _ _ => some ⟨.S, m, 0⟩
  | .csrWr m _ _ => some ⟨.S, m, 0⟩
  | .ld m ma _ _ _ => some ⟨.A, m, ma.xc.val⟩
  | .st m ma _ _ => some ⟨.A, m, ma.xc.val⟩
  | .adda m _ _ _ => some ⟨.A, m, 0⟩
  | .lia m xc _ _ => some ⟨.A, m, xc.val⟩
  | .mova m _ _ => some ⟨.A, m, 0⟩
  | .movaToDs m _ => some ⟨.A, m, 0⟩
  | .movaToDv m _ => some ⟨.A, m, 0⟩
  | .movaToDt m _ => some ⟨.A, m, 0⟩
  | .tdSet m _ _ _ => some ⟨.A, m, 1⟩
  | .tdGet m _ _ _ => some ⟨.A, m, 1⟩
  | .tmov m _ _ _ _ _ => some ⟨.A, m, 1⟩
  | .qbind m _ _ _ _ _ => some ⟨.A, m, 1⟩
  | .qend m _ => some ⟨.A, m, 0⟩
  | .segqState m _ _ => some ⟨.A, m, 0⟩
  | .segqProbe m _ _ => some ⟨.A, m, 0⟩
  | .tlbinvAll m => some ⟨.A, m, 0⟩
  | .tlbinvPage m _ => some ⟨.A, m, 0⟩
  | .tlbinvSeg m _ => some ⟨.A, m, 0⟩
  | .astat m _ => some ⟨.A, m, 0⟩
  | .astatClr m _ _ => some ⟨.A, m, 0⟩
  | .astatMiss m _ => some ⟨.A, m, 0⟩
  | .fenceAcq m _ => some ⟨.A, m, 0⟩
  | .fenceRel m _ => some ⟨.A, m, 0⟩
  | .fenceAr m _ => some ⟨.A, m, 0⟩
  | .fenceSc m _ => some ⟨.A, m, 0⟩
  | .fenceXp m => some ⟨.A, m, 0⟩
  | .amo m ma _ _ _ _ _ _ _ _ => some ⟨.A, m, ma.xc.val⟩
  | .cas m ma _ _ _ _ _ _ => some ⟨.A, m, ma.xc.val⟩
  | .gadd m ma _ _ _ _ => some ⟨.A, m, ma.xc.val⟩
  | .grd m ma _ _ _ _ _ _ => some ⟨.A, m, ma.xc.val⟩
  | .gclr m ma _ _ _ => some ⟨.A, m, ma.xc.val⟩
  | .waita m ma _ _ _ _ => some ⟨.A, m, ma.xc.val⟩
  | .wakea m ma _ _ => some ⟨.A, m, ma.xc.val⟩
  | .convey m ma _ => some ⟨.A, m, ma.xc.val⟩
  | .platQ m ma _ => some ⟨.A, m, ma.xc.val⟩
  | .platWait m ma _ => some ⟨.A, m, ma.xc.val⟩
  | .platShare m ma _ => some ⟨.A, m, ma.xc.val⟩
  | .cp m _ _ _ _ _ => some ⟨.A, m, 1⟩
  | .cpl m _ _ _ _ _ _ _ => some ⟨.A, m, 2⟩
  | .cpring m _ _ _ _ => some ⟨.A, m, 1⟩
  | .cpwpRd m _ _ => some ⟨.A, m, 0⟩
  | .cpwpWait m _ _ => some ⟨.A, m, 0⟩
  | .cpwpDs m _ => some ⟨.A, m, 0⟩
  | .cpcan m _ => some ⟨.A, m, 0⟩
  | .cpcanAll m => some ⟨.A, m, 0⟩
  | .siftEnc m _ _ _ _ _ _ _ => some ⟨.A, m, 1⟩
  | .siftDec m _ _ _ _ _ _ => some ⟨.A, m, 1⟩
  | .accmov m _ _ _ _ _ => some ⟨.A, m, 1⟩
  | .mxShape m _ _ _ _ => some ⟨.M, m, 0⟩
  | .mxMma m _ _ _ _ _ _ _ _ => some ⟨.M, m, 1⟩
  | .mxGer m _ _ _ _ _ _ _ _ => some ⟨.M, m, 1⟩
  | .mxBatch m _ _ _ _ _ _ _ => some ⟨.M, m, 1⟩
  | .mxZero m _ => some ⟨.M, m, 0⟩
  | .mxLdacc m _ _ _ _ _ => some ⟨.M, m, 1⟩
  | .mxStacc m _ _ _ _ _ => some ⟨.M, m, 1⟩
  | .mxAccadd m _ _ _ _ => some ⟨.M, m, 1⟩
  | .mxAccmov m _ _ _ => some ⟨.M, m, 1⟩
  | .mxCseq m _ => some ⟨.M, m, 1⟩
  | .mxRing m _ _ => some ⟨.M, m, 0⟩
  | .mxPop m _ => some ⟨.M, m, 0⟩
  | .mxFmt m _ _ => some ⟨.M, m, 0⟩
  | .mxScale m _ _ => some ⟨.M, m, 1⟩
  | .mxTrn m _ => some ⟨.M, m, 0⟩
  | .mxMode m _ _ _ => some ⟨.M, m, 0⟩
  | .mxSemWait m _ _ => some ⟨.M, m, 0⟩
  | .mxSemSig m _ _ => some ⟨.M, m, 0⟩
  | .mxStat m _ => some ⟨.M, m, 0⟩
  | .vadd m _ _ _ _ _ _ => some ⟨.V, m, 1⟩
  | .vsub m _ _ _ _ _ _ => some ⟨.V, m, 1⟩
  | .vmul m _ _ _ _ _ _ => some ⟨.V, m, 1⟩
  | .vfma m _ _ _ _ _ _ _ _ _ => some ⟨.V, m, 1⟩
  | .vmin m _ _ _ _ _ _ => some ⟨.V, m, 1⟩
  | .vmax m _ _ _ _ _ _ => some ⟨.V, m, 1⟩
  | .vabs m _ _ _ _ _ => some ⟨.V, m, 1⟩
  | .vneg m _ _ _ _ _ => some ⟨.V, m, 1⟩
  | .viadd m _ _ _ _ _ _ _ => some ⟨.V, m, 1⟩
  | .visub m _ _ _ _ _ _ _ => some ⟨.V, m, 1⟩
  | .vimul m _ _ _ _ _ _ _ _ => some ⟨.V, m, 1⟩
  | .vand m _ _ _ _ _ => some ⟨.V, m, 1⟩
  | .vor m _ _ _ _ _ => some ⟨.V, m, 1⟩
  | .vxor m _ _ _ _ _ => some ⟨.V, m, 1⟩
  | .vshl m _ _ _ _ _ => some ⟨.V, m, 1⟩
  | .vshr m _ _ _ _ _ _ => some ⟨.V, m, 1⟩
  | .vcmp m _ _ _ _ _ _ _ => some ⟨.V, m, 1⟩
  | .vcmpq m _ _ _ _ _ _ _ _ => some ⟨.V, m, 1⟩
  | .vsel m _ _ _ _ _ => some ⟨.V, m, 1⟩
  | .vrsum m _ _ _ _ _ _ _ _ => some ⟨.V, m, 1⟩
  | .vrmax m _ _ _ _ _ _ => some ⟨.V, m, 1⟩
  | .vcvt m _ _ _ _ _ _ _ _ _ _ => some ⟨.V, m, 1⟩
  | .vqmax m _ _ _ _ => some ⟨.V, m, 1⟩
  | .vqcvt m _ _ _ _ _ _ _ => some ⟨.V, m, 1⟩
  | .vdq m _ _ _ _ _ _ _ _ => some ⟨.V, m, 1⟩
  | .vperm m _ _ _ _ _ => some ⟨.V, m, 1⟩
  | .vshuf m _ _ _ _ _ => some ⟨.V, m, 1⟩
  | .vrcpe m _ _ _ _ => some ⟨.V, m, 1⟩
  | .vrsqe m _ _ _ _ => some ⟨.V, m, 1⟩
  | .vpushc m _ _ _ _ => some ⟨.V, m, 1⟩
  | .vpopc m _ _ _ _ => some ⟨.V, m, 1⟩
  | .vmov m _ => some ⟨.V, m, 1⟩
  | .vbcast m xc _ _ => some ⟨.V, m, xc.val⟩
  | .vsetl m xc _ _ => some ⟨.V, m, xc.val⟩
  | .vaccRd m _ _ _ _ _ _ _ _ => some ⟨.V, m, 1⟩
  | .vaccWr m _ _ _ _ _ _ _ _ => some ⟨.V, m, 1⟩
  | .viota m _ _ _ _ => some ⟨.V, m, 1⟩
  | .vcnt m _ _ _ _ => some ⟨.V, m, 1⟩
  | .vpopq m _ _ _ => some ⟨.V, m, 1⟩
  | .vstat m _ => some ⟨.V, m, 0⟩
  | .txPlan m _ _ => some ⟨.T, m, 1⟩
  | .txFwd m _ _ => some ⟨.T, m, 0⟩
  | .txFwdRing m _ _ _ => some ⟨.T, m, 0⟩
  | .txInv m _ _ => some ⟨.T, m, 0⟩
  | .txInvRing m _ _ _ => some ⟨.T, m, 0⟩
  | .txStage m _ _ _ _ => some ⟨.T, m, 1⟩
  | .txTwid m _ _ _ _ => some ⟨.T, m, 1⟩
  | .txRfwd m _ _ => some ⟨.T, m, 0⟩
  | .txRfwdRing m _ _ _ => some ⟨.T, m, 0⟩
  | .txRinv m _ _ => some ⟨.T, m, 0⟩
  | .txRinvRing m _ _ _ => some ⟨.T, m, 0⟩
  | .txLeg m _ _ _ _ => some ⟨.T, m, 1⟩
  | .txScale m _ _ _ => some ⟨.T, m, 1⟩
  | .txDigrev m _ _ => some ⟨.T, m, 0⟩
  | .txDigrevRing m _ _ _ => some ⟨.T, m, 0⟩
  | .txRing m _ _ => some ⟨.T, m, 0⟩
  | .txSemWait m _ _ => some ⟨.T, m, 0⟩
  | .txSemSig m _ _ => some ⟨.T, m, 0⟩
  | .txStat m _ => some ⟨.T, m, 0⟩
  | .txCplx m _ _ _ _ _ => some ⟨.T, m, 0⟩
  | .fbLd m _ h _ _ _ => some ⟨.F, m, h.xc.val⟩
  | .fbSt m _ h _ => some ⟨.F, m, h.xc.val⟩
  | .fbAmo m _ h _ _ _ _ _ _ => some ⟨.F, m, h.xc.val⟩
  | .fbGadd m _ h _ _ _ => some ⟨.F, m, h.xc.val⟩
  | .fbFenceAcq m _ => some ⟨.F, m, 0⟩
  | .fbFenceRel m _ => some ⟨.F, m, 0⟩
  | .fbFenceAr m _ => some ⟨.F, m, 0⟩
  | .fbFenceSc m _ => some ⟨.F, m, 0⟩
  | .fbMcst m _ h _ _ _ => some ⟨.F, m, h.xc.val⟩
  | .fbMcld m _ h _ _ _ _ => some ⟨.F, m, h.xc.val⟩
  | .fbSub m _ _ _ _ => some ⟨.F, m, 1⟩
  | .fbUnsub m _ => some ⟨.F, m, 0⟩
  | .fbSflush m => some ⟨.F, m, 0⟩
  | .fbColl m _ _ xc _ _ => some ⟨.F, m, xc.val⟩
  | .fbCwait m _ _ => some ⟨.F, m, 0⟩
  | .fbTimeNow m => some ⟨.F, m, 0⟩
  | .fbTimeWin m => some ⟨.F, m, 0⟩
  | .fbTimeUntil m _ => some ⟨.F, m, 0⟩
  | .fbStat m _ => some ⟨.F, m, 0⟩
  | _ => none

/-- Dependency bits stand only in the words the instruction has (02 R48, R49). -/
def Head.wf (h : Head) : Bool :=
  (1 ≤ h.ext || h.dep.x1 == 0) && (2 ≤ h.ext || h.dep.x2 == 0) && (3 ≤ h.ext || h.dep.x3 == 0)

/-- The operand rules of the entries. -/
def Instr.operandsOk : Instr → Bool
  | .li _ xc _ imm | .lia _ xc _ imm | .vbcast _ xc _ imm | .vsetl _ xc _ imm => immFits xc imm
  | .csrRd _ _ csr | .csrWr _ _ csr => csrAssigned csr.toNat
  -- 06 R197, R198
  | .ld _ ma sz z dst =>
    ma.wf && (match dst with | .reg _ => sz.val ≤ 3 | _ => true)
      && (2 ≤ ma.xc.val || (!z && (match dst with | .reg _ => true | _ => false)))
  | .st _ ma sz src => ma.wf && (match src with | .reg _ => sz.val ≤ 3 | .da => true)
  -- 07 R228, R230, R233, R234
  | .amo _ ma _ _ _ _ _ nr d _ => ma.wfAtomic && (!nr || d == 0)
  | .cas _ ma _ _ _ _ _ _ => ma.wfAtomic
  | .gadd _ ma _ _ _ _ => ma.wfAtomic && ma.asp != .sp0
  | .grd _ ma _ rm _ _ _ _ => ma.wfAtomic && ma.asp != .sp0 && rm.direct
  | .gclr _ ma _ _ _ => ma.wfAtomic && ma.asp != .sp0
  | .waita _ ma _ _ _ _ => ma.wfAtomic
  | .wakea _ ma _ _ => ma.wfAtomic
  | .convey _ ma _ => ma.wf && ma.asp == .virt
  | .platQ _ ma _ | .platWait _ ma _ | .platShare _ ma _ => ma.wfAtomic && ma.asp == .virt
  -- 09 R311, R315
  | .cpl _ _ _ kind _ _ _ _ => (match kind with | .toRec _ _ => false | _ => true)
  | .cpring _ _ mode prod cons =>
    prod != cons && (match mode with | .c _ _ lines => lines != 0 | .r _ _ lines => lines != 0)
  -- 10 R352, R359
  | .mxMma _ _ ga gb _ _ _ _ _ | .mxGer _ _ ga gb _ _ _ _ _ => ga != gb
  | .mxBatch _ _ ga gb _ _ _ _ => ga != gb
  | .mxStacc _ _ _ rm _ _ => rm.direct
  -- 08 R271 to R294
  | .vadd _ _ ty rm _ _ _ | .vsub _ _ ty rm _ _ _ | .vmul _ _ ty rm _ _ _ => ty.isFloat && rm.direct
  | .vfma _ _ ty rm _ _ _ _ _ _ => ty.isFloat && rm.direct
  | .vmin _ _ ty z _ _ _ | .vmax _ _ ty z _ _ _ => !z || !ty.isFloat
  | .vabs _ _ ty z _ _ | .vneg _ _ ty z _ _ => !z || !ty.isFloat
  | .viadd _ _ ty _ _ _ _ _ | .visub _ _ ty _ _ _ _ _ => !ty.isFloat
  | .vimul _ _ ty _ sat hi _ _ _ => !ty.isFloat && !(sat && hi)
  | .vshl _ _ ty _ _ _ => !ty.isFloat
  | .vshr _ _ ty _ _ _ _ => !ty.isFloat
  | .vcmp _ _ ty z cc _ _ _ => (!z || !ty.isFloat) && (ty.isFloat || (cc != .un && cc != .ord))
  | .vcmpq _ _ ty z _ cc _ _ _ => (!z || !ty.isFloat) && (ty.isFloat || (cc != .un && cc != .ord))
  | .vrsum _ _ ty z rm _ sat _ _ => rm.direct && (if ty.isFloat then !z && !sat else rm == .rne)
  | .vrmax _ _ ty z _ _ _ => !z || !ty.isFloat
  | .vcvt _ _ dst src sz dz _ part rnd _ _ =>
    !(dst.width == 8 && src.width == 8) && (!sz || !src.isFloat) && (!dz || !dst.isFloat)
      && part.val < max dst.elems src.elems / min dst.elems src.elems && rnd.wf
  | .vqmax _ ty _ _ _ => ty.isFloat
  | .vqcvt _ ty rnd part _ _ _ _ => ty.isFloat && rnd.wf && part.val < 1024 / ty.elems
  | .vdq _ _ ty rm part _ _ _ _ => ty.isFloat && rm.direct && part.val < 1024 / ty.elems
  | .vshuf _ _ ty kind _ _ => (match kind with | .xswap t => 2 ^ t.val < ty.elems | _ => true)
  | .vrcpe _ _ ty _ _ | .vrsqe _ _ ty _ _ => ty == .fp32 || ty == .fp64
  | .vaccRd _ _ _ _ _ h vt rm _ => h.val < 4096 / vt.width / 32 && rm.direct
  | .vaccWr _ _ _ _ _ h vt rm _ => h.val < 4096 / vt.width / 32 && rm.direct
  | .viota _ ctl ty pfx _ => !ty.isFloat && (!pfx || !ctl.zm)
  | .vcnt _ ty _ _ _ => !ty.isFloat
  | .vpopq _ _ count _ => 1 ≤ count.val && count.val ≤ 16
  -- 11 R379, R383
  | .txFwdRing _ _ gi go | .txInvRing _ _ gi go | .txRfwdRing _ _ gi go | .txRinvRing _ _ gi go
  | .txDigrevRing _ _ gi go => gi != go
  | .txStage _ _ form _ _ => form.wf
  | .txScale _ form _ rm => form.wf && rm.direct
  -- 12 R401
  | .fbLd _ _ h _ _ _ => 1 ≤ h.xc.val
  | .fbSt _ _ h _ => 1 ≤ h.xc.val
  | .fbAmo _ _ h _ _ _ _ _ _ => 2 ≤ h.xc.val
  | .fbGadd _ _ h _ _ _ => 2 ≤ h.xc.val
  | .fbMcst _ _ h _ _ _ => 2 ≤ h.xc.val
  | .fbMcld _ _ h _ _ _ _ => 2 ≤ h.xc.val
  | .fbColl _ _ _ xc _ _ => 1 ≤ xc.val
  | _ => true

/-- A well-formed instruction word: an encoded word whose operands the entries admit. -/
def Instr.wf (i : Instr) : Bool :=
  match i.head with
  | some h => h.wf && i.operandsOk
  | none => false

end Sys2Proof
end

