-- ==== Sys2Proof/Decode.lean ====
section
/-!
DEFINITION. The decoder of the text's words, in the order of checks of 02 R63 (steps 1 to 5; targets and resources, steps 6
and 7, need the text and the header and stand in Machine/Walk.lean), and the encoder. Words are natural numbers below 2^32.
-/

namespace Sys2Proof

/-- The field of `n` bits of `w` at bit `lo`. -/
def fld (w lo n : Nat) : Nat := w / 2 ^ lo % 2 ^ n

/-- What the decoder refuses a word with (02 R63): `F_ILLEGAL` or `F_RESERVED`. -/
inductive DErr where
  | illegal
  | reserved
  deriving DecidableEq, Repr

/-- R63 step 4: a nonzero reserved field. -/
def rsv {α : Type} (n : Nat) (k : Except DErr α) : Except DErr α := if n = 0 then k else .error .reserved

/-- R63 step 5: an unassigned value. -/
def ill {α : Type} : Option α → Except DErr α
  | some a => .ok a
  | none => .error .illegal

/-- A one-bit field as a flag. -/
def flag (n : Nat) : Bool := n != 0

/-- A flag as a one-bit field. -/
def bit (b : Bool) : Nat := if b then 1 else 0

/-! ## Enumerated fields -/

/-- `asp` (02 R69). -/
def aspOf : Nat → Asp
  | 0 => .virt | 1 => .sp0 | 2 => .sp1 | _ => .sp2

/-- Code of an address space. -/
def aspCode : Asp → Nat
  | .virt => 0 | .sp0 => 1 | .sp1 => 2 | .sp2 => 3

/-- `scope` (02 R69). -/
def scopeOf : Nat → Option Scope
  | 0 => some .self | 1 => some .core | 2 => some .engines | 3 => some .stage | 4 => some .cluster | 5 => some .die
  | 6 => some .package | 7 => some .launch | 8 => some .host | 9 => some .panel | 10 => some .fabric
  | 11 => some .system | _ => none

/-- Code of a scope. -/
def scopeCode : Scope → Nat
  | .self => 0 | .core => 1 | .engines => 2 | .stage => 3 | .cluster => 4 | .die => 5 | .package => 6 | .launch => 7
  | .host => 8 | .panel => 9 | .fabric => 10 | .system => 11

/-- `rm` (03 R86). -/
def rmOf : Nat → Option RMode
  | 0 => some .rne | 1 => some .rtz | 2 => some .rup | 3 => some .rdn | 4 => some .sr | _ => none

/-- Code of a rounding mode. -/
def rmCode : RMode → Nat
  | .rne => 0 | .rtz => 1 | .rup => 2 | .rdn => 3 | .sr => 4

/-- `cc` of `CMP` (04 R108). -/
def condOf : Nat → Option Cond
  | 0 => some .eq | 1 => some .ne | 2 => some .lt | 3 => some .ge | 4 => some .ltu | 5 => some .geu
  | 6 => some .tst | 7 => some .tnz | _ => none

/-- Code of a scalar condition. -/
def condCode : Cond → Nat
  | .eq => 0 | .ne => 1 | .lt => 2 | .ge => 3 | .ltu => 4 | .geu => 5 | .tst => 6 | .tnz => 7

/-- `level` of `CAIRN` (04 R123). -/
def levelOf : Nat → Option Level
  | 0 => some .core | 1 => some .cluster | 2 => some .die | 3 => some .package | 4 => some .launch | _ => none

/-- Code of a barrier level. -/
def levelCode : Level → Nat
  | .core => 0 | .cluster => 1 | .die => 2 | .package => 3 | .launch => 4

/-- `ty` of a V word (08 R266). -/
def vtyOf : Nat → Option VTy
  | 0 => some .i16 | 1 => some .i32 | 2 => some .i64 | 3 => some .fp16 | 4 => some .bf16 | 5 => some .fp32
  | 6 => some .fp64 | _ => none

/-- Code of a vector element type. -/
def vtyCode : VTy → Nat
  | .i16 => 0 | .i32 => 1 | .i64 => 2 | .fp16 => 3 | .bf16 => 4 | .fp32 => 5 | .fp64 => 6

/-- Conversion type (08 R286). -/
def ctyOf : Nat → Option CTy
  | 0 => some .i16 | 1 => some .i32 | 2 => some .i64 | 3 => some .fp16 | 4 => some .bf16 | 5 => some .fp32
  | 6 => some .fp64 | 7 => some .i8 | 8 => some .e5m2 | 9 => some .e4m3 | _ => none

/-- Code of a conversion type. -/
def ctyCode : CTy → Nat
  | .i16 => 0 | .i32 => 1 | .i64 => 2 | .fp16 => 3 | .bf16 => 4 | .fp32 => 5 | .fp64 => 6 | .i8 => 7 | .e5m2 => 8
  | .e4m3 => 9

/-- `cc` of `VCMP` (08 R274). -/
def vcondOf : Nat → Option VCond
  | 0 => some .eq | 1 => some .ne | 2 => some .lt | 3 => some .le | 4 => some .gt | 5 => some .ge | 6 => some .un
  | 7 => some .ord | _ => none

/-- Code of a vector condition. -/
def vcondCode : VCond → Nat
  | .eq => 0 | .ne => 1 | .lt => 2 | .le => 3 | .gt => 4 | .ge => 5 | .un => 6 | .ord => 7

/-- `op` of `AMO` (07 R236). -/
def amoOf : Nat → Option AmoOp
  | 0 => some .add | 1 => some .and | 2 => some .or | 3 => some .xor | 4 => some .smin | 5 => some .smax
  | 6 => some .umin | 7 => some .umax | 8 => some .swap | _ => none

/-- Code of an atomic operation. -/
def amoCode : AmoOp → Nat
  | .add => 0 | .and => 1 | .or => 2 | .xor => 3 | .smin => 4 | .smax => 5 | .umin => 6 | .umax => 7 | .swap => 8

/-- `op` of `FB.AMO` (12 R401, R404). -/
def famoOf (n : Nat) : Option FAmoOp := if n = 9 then some .cas else (amoOf n).map .amo

/-- Code of an `FB.AMO` operation. -/
def famoCode : FAmoOp → Nat
  | .amo op => amoCode op
  | .cas => 9

/-- `ord` (07 R233). -/
def ordOf : Nat → Ord
  | 0 => .rlx | 1 => .acq | 2 => .rel | _ => .ar

/-- Code of an ord. -/
def ordCode : Ord → Nat
  | .rlx => 0 | .acq => 1 | .rel => 2 | .ar => 3

/-- `op` of `GADD` and `GRD` (07 R239, R240). -/
def gfmtOf : Nat → Option GFmt
  | 0 => some .fp64 | 1 => some .fp32 | 2 => some .int | _ => none

/-- Code of a grain format. -/
def gfmtCode : GFmt → Nat
  | .fp64 => 0 | .fp32 => 1 | .int => 2

/-- `sz` of `AMO`, `CAS` and `WAITA`: 2 or 3 (07 R234); true for 8 bytes. -/
def w8Of : Nat → Option Bool
  | 2 => some false | 3 => some true | _ => none

/-- Code of the size of an atomic. -/
def w8Code (b : Bool) : Nat := if b then 3 else 2

/-- Element formats of records (06 R203). -/
def tfmtOf : Nat → Option TFmt
  | 0 => some .i8 | 1 => some .i16 | 2 => some .i32 | 3 => some .i64 | 4 => some .fp16 | 5 => some .bf16
  | 6 => some .fp32 | 7 => some .fp64 | 8 => some .e5m2 | 9 => some .e4m3 | 10 => some .vx4 | 11 => some .e80
  | 12 => some .cf32 | 13 => some .cf64 | 14 => some .grain | _ => none

/-- Code of an element format. -/
def tfmtCode : TFmt → Nat
  | .i8 => 0 | .i16 => 1 | .i32 => 2 | .i64 => 3 | .fp16 => 4 | .bf16 => 5 | .fp32 => 6 | .fp64 => 7 | .e5m2 => 8
  | .e4m3 => 9 | .vx4 => 10 | .e80 => 11 | .cf32 => 12 | .cf64 => 13 | .grain => 14

/-- `vt` of `VACC` (08 R294). -/
def acctyOf : Nat → Option AccTy
  | 0 => some .fp64 | 1 => some .fp32 | 2 => some .bf16 | 3 => some .fp16 | 4 => some .i64 | 5 => some .i32 | _ => none

/-- Code of a line format. -/
def acctyCode : AccTy → Nat
  | .fp64 => 0 | .fp32 => 1 | .bf16 => 2 | .fp16 => 3 | .i64 => 4 | .i32 => 5

/-- Producer or consumer of a ring (09 R315). -/
def ringEndOf : Nat → Option RingEnd
  | 0 => some .copy | 1 => some .m | 2 => some .t | _ => none

/-- Code of a ring end. -/
def ringEndCode : RingEnd → Nat
  | .copy => 0 | .m => 1 | .t => 2

/-- `cls` (02 R69). -/
def fclsOf : Nat → Option FCls
  | 0 => some .bulk | 1 => some .urgent | _ => none

/-- Code of a fabric class. -/
def fclsCode : FCls → Nat
  | .bulk => 0 | .urgent => 1

/-- `red` of `FB.MCLD` (12 R401). -/
def redOf : Nat → Option Red
  | 0 => some .sum | 1 => some .min | 2 => some .max | _ => none

/-- Code of a reduction. -/
def redCode : Red → Nat
  | .sum => 0 | .min => 1 | .max => 2

/-- `level` of `FB.SUB` (12 R414). -/
def subLevelOf : Nat → Option SubLevel
  | 0 => some .none | 1 => some .cluster | 2 => some .die | 3 => some .package | 4 => some .launch | _ => Option.none

/-- Code of a subscription level. -/
def subLevelCode : SubLevel → Nat
  | .none => 0 | .cluster => 1 | .die => 2 | .package => 3 | .launch => 4

/-- `ov` (03 R89). -/
def ovOf (n : Nat) : Ov := if n = 0 then .sat else .wrap

/-- Code of an overflow rule. -/
def ovCode : Ov → Nat
  | .sat => 0 | .wrap => 1

/-! ## Operand codes (02 R67, 08 R267) -/

/-- A register of the A engine, codes 0 to 39. -/
def aregOf (n : Nat) : Option AReg :=
  if n < 32 then some (.a (Fin.ofNat 32 n)) else if n < 40 then some (.b (Fin.ofNat 8 (n - 32))) else none

/-- Code of an A register. -/
def aregCode : AReg → Nat
  | .a n => n.val
  | .b n => 32 + n.val

/-- A source of the A engine, codes 0 to 40. -/
def asrcOf (n : Nat) : Option ASrc := if n = 40 then some .da else (aregOf n).map .reg

/-- Code of an A source. -/
def asrcCode : ASrc → Nat
  | .reg r => aregCode r
  | .da => 40

/-- `a0` to `a31` in a 6-bit field: 32 to 63 are unassigned (07 R234). -/
def a32Of (n : Nat) : Option (Fin 32) := if n < 32 then some (Fin.ofNat 32 n) else none

/-- A source of the V engine. -/
def vsrcOf (n : Nat) : Option VSrc :=
  if n < 32 then some (.v (Fin.ofNat 32 n)) else if n < 40 then some (.q (Fin.ofNat 8 (n - 32)))
  else if n = 40 then some .dv else none

/-- Code of a V source. -/
def vsrcCode : VSrc → Nat
  | .v n => n.val
  | .q n => 32 + n.val
  | .dv => 40

/-- A destination of the V engine. -/
def vdstOf (n : Nat) : Option VDst :=
  if n < 32 then some (.v (Fin.ofNat 32 n)) else if n < 40 then some (.q (Fin.ofNat 8 (n - 32))) else none

/-- Code of a V destination. -/
def vdstCode : VDst → Nat
  | .v n => n.val
  | .q n => 32 + n.val

/-- A `k`, `z` register in a 6-bit field (08 R267). -/
def reg8Of (n : Nat) : Option (Fin 8) := if n < 8 then some (Fin.ofNat 8 n) else none

/-- A compaction buffer in a 6-bit field (08 R267). -/
def cbOf (n : Nat) : Option (Fin 4) := if n < 4 then some (Fin.ofNat 4 n) else none

/-- The immediate of an RI word (02 R68). -/
def immOf (xc imm p1 p2 p3 : Nat) : BitVec 64 :=
  match xc with
  | 0 => (BitVec.ofNat 10 imm).signExtend 64
  | 1 => (BitVec.ofNat 35 (imm + 2 ^ 10 * p1)).signExtend 64
  | 2 => (BitVec.ofNat 60 (imm + 2 ^ 10 * p1 + 2 ^ 35 * p2)).signExtend 64
  | _ => BitVec.ofNat 64 (imm + 2 ^ 10 * p1 + 2 ^ 35 * p2 + 2 ^ 60 * fld p3 0 4)

/-- The payloads of an RI word (02 R68). -/
def immPayloads (xc : Fin 4) (imm : BitVec 64) : List Nat :=
  [fld imm.toNat 10 25, fld imm.toNat 35 25, fld imm.toNat 60 4].take xc.val

/-- The address fields of a MEM word (02 R65, 06 R197). -/
def memOf (h p1 : Nat) : MemAddr :=
  ⟨aspOf (fld h 10 2), Fin.ofNat 32 (fld h 5 5), Fin.ofNat 4 (fld h 0 2), BitVec.ofNat 25 p1⟩

/-- Bits [11:0] of a MEM word. -/
def memBits (ma : MemAddr) (sz : Nat) : Nat :=
  aspCode ma.asp * 2 ^ 10 + ma.base.val * 2 ^ 5 + sz * 2 ^ 2 + ma.xc.val

/-- The payloads of a MEM word whose second payload is `p2`. -/
def memPayloads (ma : MemAddr) (p2 : Nat) : List Nat := [ma.off.toNat, p2, 0].take ma.xc.val

/-! ## S words (04) -/

/-- Operands of an S word. -/
def decodeS (op h p1 p2 p3 : Nat) (m : Dep) : Except DErr Instr :=
  let d := Fin.ofNat 64 (fld h 12 6)
  let a := Fin.ofNat 64 (fld h 6 6)
  let b := Fin.ofNat 64 (fld h 0 6)
  let off := BitVec.ofNat 18 (fld h 0 18)
  let sem := Fin.ofNat 32 (fld h 13 5)
  match op with
  | 0x00 => rsv (fld h 0 18) (.ok (.nop m))
  | 0x01 => .ok (.add m d a b)
  | 0x02 => .ok (.sub m d a b)
  | 0x03 => .ok (.mul m d a b)
  | 0x04 => .ok (.and m d a b)
  | 0x05 => .ok (.or m d a b)
  | 0x06 => .ok (.xor m d a b)
  | 0x07 => .ok (.shl m d a b)
  | 0x08 => .ok (.shr m d a b)
  | 0x09 => rsv (if fld h 10 2 = 3 then fld p3 4 21 else 0)
      (.ok (.li m (Fin.ofNat 4 (fld h 10 2)) d (immOf (fld h 10 2) (fld h 0 10) p1 p2 p3)))
  | 0x0A =>
    match fld h 0 6 with
    | 0 => .ok (.mov m d a)
    | 1 => rsv (fld h 6 6) (.ok (.movFromDs m d))
    | 2 => rsv (fld h 12 6) (.ok (.movToDa m a))
    | 3 => rsv (fld h 12 6) (.ok (.movToDv m a))
    | 4 => rsv (fld h 12 6) (.ok (.movToDt m a))
    | _ => .error .illegal
  | 0x0B => rsv (fld p1 5 20) (do return .cmp m (← ill (condOf (fld p1 0 4))) (flag (fld p1 4 1)) d a b)
  | 0x0C => .ok (.br m off)
  | 0x0D => .ok (.brc m off)
  | 0x0E => .ok (.call m off)
  | 0x0F => rsv (fld h 0 18) (.ok (.ret m))
  | 0x10 =>
    rsv (fld p1 17 8 + (if fld h 15 1 = 1 then fld h 6 9 else 0))
      (.ok (.loop m (Fin.ofNat 4 (fld h 16 2))
        (if fld h 15 1 = 1 then .reg b else .imm (BitVec.ofNat 15 (fld h 0 15))) (BitVec.ofNat 17 (fld p1 0 17))))
  | 0x11 => rsv (fld h 0 15) (.ok (.endl m (Fin.ofNat 4 (fld h 16 2)) (flag (fld h 15 1))))
  | 0x12 => .ok (.lexit m (flag (fld h 17 1)) (BitVec.ofNat 17 (fld h 0 17)))
  | 0x13 =>
    if fld h 12 1 = 1 then rsv (fld h 6 6) (.ok (.semSigReg m sem b))
    else .ok (.semSigImm m sem (BitVec.ofNat 12 (fld h 0 12)))
  | 0x14 =>
    if fld h 12 1 = 1 then rsv (fld h 6 6) (.ok (.semWaitReg m sem b))
    else .ok (.semWaitImm m sem (BitVec.ofNat 12 (fld h 0 12)))
  | 0x15 => rsv (fld h 0 18) (.ok (.drain m))
  | 0x16 => rsv (fld h 0 15) (do return .cairn m (← ill (levelOf (fld h 15 3))))
  | 0x17 => .ok (.iter m off)
  | 0x18 => rsv (fld h 0 18) (.ok (.stagep m))
  | 0x19 => rsv (fld h 0 18) (.ok (.exit m))
  | 0x1A => rsv (fld h 16 2) (.ok (.trap m (BitVec.ofNat 16 (fld h 0 16))))
  | 0x1B =>
    if fld h 11 1 = 0 then .ok (.csrRd m d (BitVec.ofNat 11 (fld h 0 11)))
    else .ok (.csrWr m d (BitVec.ofNat 11 (fld h 0 11)))
  | _ => .error .illegal

/-! ## A words (06, 07, 09) -/

/-- The fields of the second extension word of atomic and parcel words (07 R233): ra, op, ord, scope, z, nr, rm and the
reserved bits, reserved where 07 R234 says so. -/
def decodeAtomic (op h p2 p3 : Nat) (ma : MemAddr) (m : Dep) : Except DErr Instr :=
  let d := fld h 12 6
  let sz := fld h 2 3
  let ra := fld p2 20 5
  let aop := fld p2 16 4
  let ord := fld p2 14 2
  let sc := fld p2 10 4
  let z := fld p2 9 1
  let nr := fld p2 8 1
  let rm := fld p2 5 3
  let always := fld p2 0 5 + p3
  let raF : Fin 32 := Fin.ofNat 32 ra
  match op with
  | 0x12 => rsv (always + rm + (if nr = 1 then d else 0))
      (do return .amo m ma (← ill (w8Of sz)) (← ill (amoOf aop)) (ordOf ord) (← ill (scopeOf sc)) (flag z) (flag nr)
            (← ill (a32Of d)) raF)
  | 0x13 => rsv (always + aop + nr + rm)
      (do return .cas m ma (← ill (w8Of sz)) (ordOf ord) (← ill (scopeOf sc)) (flag z) (← ill (a32Of d)) raF)
  | 0x14 => rsv (always + ra + z + nr + rm)
      (if sz = 5 then
        do return .gadd m ma (← ill (gfmtOf aop)) (ordOf ord) (← ill (scopeOf sc)) (← ill (a32Of d))
       else .error .illegal)
  | 0x15 => rsv (always + z + nr)
      (if sz = 5 then
        do return .grd m ma (← ill (gfmtOf aop)) (← ill (rmOf rm)) (ordOf ord) (← ill (scopeOf sc))
              (← ill (a32Of d)) raF
       else .error .illegal)
  | 0x16 => rsv (always + ra + aop + z + nr + rm)
      (if sz = 5 then do return .gclr m ma (ordOf ord) (← ill (scopeOf sc)) (← ill (a32Of d)) else .error .illegal)
  | 0x17 => rsv (always + aop + ord + z + nr + rm)
      (do return .waita m ma (← ill (w8Of sz)) (← ill (scopeOf sc)) (← ill (a32Of d)) raF)
  | 0x18 => rsv (always + sz + ra + aop + ord + z + nr + rm)
      (do return .wakea m ma (← ill (scopeOf sc)) (← ill (a32Of d)))
  | _ => rsv (always + sz + ra + ord + sc + z + nr + rm)
      (do
        let dr ← ill (a32Of d)
        match aop with
        | 0 => return .platQ m ma dr
        | 1 => return .platWait m ma dr
        | 2 => return .platShare m ma dr
        | _ => .error .illegal)

/-- `CP` and `CPL` (09 R311). -/
def decodeCopy (long : Bool) (h p1 p2 : Nat) (m : Dep) : Except DErr Instr :=
  let td : Fin 64 := Fin.ofNat 64 (fld h 12 6)
  let g : Fin 16 := Fin.ofNat 16 (fld h 8 4)
  let ch : Fin 8 := Fin.ofNat 8 (fld h 5 3)
  let oa : Fin 32 := Fin.ofNat 32 (fld p1 20 5)
  let ob : Fin 32 := Fin.ofNat 32 (fld p1 15 5)
  let se := flag (fld p1 14 1)
  let sem : Fin 32 := Fin.ofNat 32 (fld p1 9 5)
  let rx : Fin 32 := Fin.ofNat 32 (fld p1 4 5)
  let always := fld h 0 2 + fld p1 0 4 + (if long then fld p2 0 15 else 0)
  let put (k : CpKind) : Except DErr Instr :=
    .ok (if long then .cpl m td ch k oa ob (Fin.ofNat 32 (fld p2 20 5)) (Fin.ofNat 32 (fld p2 15 5))
         else .cp m td ch k oa ob)
  match fld h 2 3 with
  | 0 => rsv (always + fld h 8 4) (put (.toRec (Fin.ofNat 64 (fld p1 9 6)) rx))
  | 1 => rsv (always + fld p1 4 5) (put (.toRing g se sem))
  | 2 => rsv always (put (.toPeer g se sem rx))
  | 3 => rsv (always + fld p1 4 5) (if se then .error .illegal else put (.drain g sem))
  | _ => rsv always (.error .illegal)

/-- Operands of an A word. -/
def decodeA (op h p1 p2 p3 : Nat) (m : Dep) : Except DErr Instr :=
  let d := fld h 12 6
  let a := fld h 6 6
  let b := fld h 0 6
  let td : Fin 64 := Fin.ofNat 64 d
  let g : Fin 16 := Fin.ofNat 16 (fld h 8 4)
  let ch : Fin 8 := Fin.ofNat 8 (fld h 5 3)
  let oa : Fin 32 := Fin.ofNat 32 (fld p1 20 5)
  let ob : Fin 32 := Fin.ofNat 32 (fld p1 15 5)
  let ma := memOf h p1
  let sz := fld h 2 3
  match op with
  | 0x00 =>
    rsv (fld p2 8 17 + fld p2 0 5 + p3)
      (if 7 ≤ sz then .error .illegal else
        let szF : Fin 7 := Fin.ofNat 7 sz
        let z := flag (fld p2 5 1)
        match fld p2 6 2 with
        | 0 => do return .ld m ma szF z (.reg (← ill (aregOf d)))
        | 1 => if d = 0 then .ok (.ld m ma szF z .ds) else .error .illegal
        | 2 => if d = 0 then .ok (.ld m ma szF z .dv) else .error .illegal
        | _ => if d = 0 then .ok (.ld m ma szF z .dt) else .error .illegal)
  | 0x01 =>
    rsv (p2 + p3)
      (if 7 ≤ sz then .error .illegal else do return .st m ma (Fin.ofNat 7 sz) (← ill (asrcOf d)))
  | 0x02 => do return .adda m (← ill (aregOf d)) (← ill (asrcOf a)) (← ill (asrcOf b))
  | 0x03 => rsv (if fld h 10 2 = 3 then fld p3 4 21 else 0)
      (do return .lia m (Fin.ofNat 4 (fld h 10 2)) (← ill (aregOf d)) (immOf (fld h 10 2) (fld h 0 10) p1 p2 p3))
  | 0x04 =>
    match b with
    | 0 => do return .mova m (← ill (aregOf d)) (← ill (asrcOf a))
    | 1 => rsv d (do return .movaToDs m (← ill (asrcOf a)))
    | 2 => rsv d (do return .movaToDv m (← ill (asrcOf a)))
    | 3 => rsv d (do return .movaToDt m (← ill (asrcOf a)))
    | _ => .error .illegal
  | 0x05 => rsv (fld h 1 7 + fld p1 0 15)
      (do return .qbind m td (← ill (reg8Of (fld h 8 4))) (flag (fld h 0 1)) oa ob)
  | 0x06 => rsv (fld h 3 15) (.ok (.qend m (Fin.ofNat 8 (fld h 0 3))))
  | 0x07 => rsv (fld h 0 12 + fld p1 0 16)
      (if fld p1 16 4 < 12 then .ok (.tdSet m td (Fin.ofNat 12 (fld p1 16 4)) oa) else .error .illegal)
  | 0x08 => rsv (fld h 0 12 + fld p1 0 16)
      (if fld p1 16 4 < 12 then .ok (.tdGet m td (Fin.ofNat 12 (fld p1 16 4)) oa) else .error .illegal)
  | 0x09 => rsv (fld h 8 4 + fld h 1 4 + fld p1 0 15) (.ok (.tmov m td ch (flag (fld h 0 1)) oa ob))
  | 0x0A => decodeCopy false h p1 p2 m
  | 0x0B => decodeCopy true h p1 p2 m
  | 0x0C =>
    if fld h 4 1 = 0 then
      rsv (d + fld h 5 3)
        (do return .cpring m g (.c (← ill (aregOf (fld p1 19 6))) (Fin.ofNat 64 (fld p1 13 6)) (BitVec.ofNat 13 (fld p1 0 13)))
              (← ill (ringEndOf (fld h 2 2))) (← ill (ringEndOf (fld h 0 2))))
    else
      rsv (d + fld h 5 3 + fld p1 0 7)
        (do return .cpring m g (.r (Fin.ofNat 8 (fld p1 22 3)) (Fin.ofNat 4 (fld p1 20 2)) (BitVec.ofNat 13 (fld p1 7 13)))
              (← ill (ringEndOf (fld h 2 2))) (← ill (ringEndOf (fld h 0 2))))
  | 0x0D =>
    match fld h 0 2 with
    | 0 => rsv (fld h 8 4 + fld h 2 3) (do return .cpwpRd m (← ill (a32Of d)) ch)
    | 1 => rsv (fld h 8 4 + fld h 2 3) (do return .cpwpWait m (← ill (a32Of d)) ch)
    | 2 => rsv (fld h 8 4 + fld h 2 3 + d) (.ok (.cpwpDs m ch))
    | _ => rsv (fld h 8 4 + fld h 2 3) (.error .illegal)
  | 0x0E =>
    if fld h 0 1 = 0 then rsv (fld h 8 10 + fld h 1 4) (.ok (.cpcan m ch))
    else rsv (fld h 8 10 + fld h 1 4 + fld h 5 3) (.ok (.cpcanAll m))
  | 0x0F =>
    let rp : Fin 32 := oa
    let rmap : Fin 32 := ob
    let rsec : Fin 32 := Fin.ofNat 32 (fld p1 10 5)
    let rn : Fin 32 := Fin.ofNat 32 (fld p1 5 5)
    let sasp := aspOf (fld h 1 2)
    let pasp := aspOf (fld h 3 2)
    if fld h 17 1 = 0 then
      rsv (fld h 12 5 + fld h 8 4 + fld p1 0 5)
        (if fld h 0 1 = 0 then .ok (.siftEnc m ch pasp sasp rp rmap rsec rn)
         else .ok (.siftDec m ch (.plain pasp rp) sasp rmap rsec rn))
    else
      rsv (fld h 12 5 + fld h 3 2 + fld p1 20 5 + fld p1 0 5)
        (if fld h 0 1 = 0 then .error .illegal else .ok (.siftDec m ch (.ring g) sasp rmap rsec rn))
  | 0x10 => rsv (fld h 0 2 + fld p1 0 20)
      (.ok (.accmov m (Fin.ofNat 1024 (fld h 8 10)) ch (flag (fld h 4 1)) (aspOf (fld h 2 2)) oa))
  | 0x11 =>
    match fld h 15 3 with
    | 0 => rsv (fld h 0 11) (do return .fenceAcq m (← ill (scopeOf (fld h 11 4))))
    | 1 => rsv (fld h 0 11) (do return .fenceRel m (← ill (scopeOf (fld h 11 4))))
    | 2 => rsv (fld h 0 11) (do return .fenceAr m (← ill (scopeOf (fld h 11 4))))
    | 3 => rsv (fld h 0 11) (do return .fenceSc m (← ill (scopeOf (fld h 11 4))))
    | 4 => rsv (fld h 0 15) (.ok (.fenceXp m))
    | _ => rsv (fld h 0 11) (.error .illegal)
  | 0x19 => rsv (sz + p2 + p3) (do return .convey m ma (← ill (a32Of d)))
  | 0x1B =>
    match b with
    | 0 => do return .segqState m (← ill (aregOf d)) (← ill (asrcOf a))
    | 1 => do return .segqProbe m (← ill (aregOf d)) (← ill (asrcOf a))
    | _ => .error .illegal
  | 0x1C =>
    match b with
    | 0 => rsv (d + a) (.ok (.tlbinvAll m))
    | 1 => rsv d (do return .tlbinvPage m (← ill (asrcOf a)))
    | 2 => rsv d (do return .tlbinvSeg m (← ill (asrcOf a)))
    | _ => rsv d (.error .illegal)
  | 0x1D =>
    match b with
    | 0 => rsv a (do return .astat m (← ill (aregOf d)))
    | 1 => do return .astatClr m (← ill (aregOf d)) (← ill (asrcOf a))
    | 2 => rsv a (do return .astatMiss m (← ill (aregOf d)))
    | _ => .error .illegal
  | _ => decodeAtomic op h p2 p3 ma m

/-! ## M words (10) -/

/-- A semaphore field with its enable, reserved when the enable is 0 (10 R352). -/
def semUse (n : Nat) [NeZero n] (en sem v : Nat) : Option (SemUse n) :=
  if en = 1 then some ⟨Fin.ofNat 32 sem, Fin.ofNat n v⟩ else none

/-- Operands of an M word. -/
def decodeM (op h p1 : Nat) (m : Dep) : Except DErr Instr :=
  let td : Fin 64 := Fin.ofNat 64 (fld h 12 6)
  let g : Fin 16 := Fin.ofNat 16 (fld h 8 4)
  let acc : Fin 1024 := Fin.ofNat 1024 (fld h 8 10)
  let ga : Fin 16 := Fin.ofNat 16 (fld h 4 4)
  let gb : Fin 16 := Fin.ofNat 16 (fld h 0 4)
  let ka := flag (fld p1 24 1)
  let kb := flag (fld p1 23 1)
  let w := semUse 16 (fld p1 22 1) (fld p1 17 5) (fld p1 13 4)
  let s := semUse 8 (fld p1 12 1) (fld p1 7 5) (fld p1 4 3)
  let semRsv := fld p1 0 3 + (if fld p1 22 1 = 0 then fld p1 13 9 else 0) + (if fld p1 12 1 = 0 then fld p1 4 8 else 0)
  let src : Fin 1024 := Fin.ofNat 1024 (fld p1 15 10)
  match op with
  | 0x00 => rsv (fld h 0 6)
      (.ok (.mxShape m (Fin.ofNat 32 (fld h 13 5)) (Fin.ofNat 32 (fld h 8 5)) (flag (fld h 7 1)) (flag (fld h 6 1))))
  | 0x01 => rsv semRsv (.ok (.mxMma m acc ga gb ka kb w s (flag (fld p1 3 1))))
  | 0x02 => rsv semRsv (.ok (.mxGer m acc ga gb ka kb w s (flag (fld p1 3 1))))
  | 0x03 => rsv (fld p1 0 18)
      (.ok (.mxBatch m acc ga gb (Fin.ofNat 16 (fld p1 21 4)) (flag (fld p1 20 1)) (flag (fld p1 19 1)) (flag (fld p1 18 1))))
  | 0x04 => rsv (fld h 0 8) (.ok (.mxZero m acc))
  | 0x05 => rsv (fld h 0 4 + fld p1 21 4 + fld p1 0 18)
      (.ok (.mxLdacc m acc ga (flag (fld p1 20 1)) (flag (fld p1 19 1)) (flag (fld p1 18 1))))
  | 0x06 => rsv (fld h 0 4 + fld p1 19 2 + fld p1 0 18)
      (do return .mxStacc m acc ga (← ill (rmOf (fld p1 22 3))) (ovOf (fld p1 21 1)) (flag (fld p1 18 1)))
  | 0x07 => rsv (fld h 0 8 + fld p1 0 13) (.ok (.mxAccadd m acc src (flag (fld p1 14 1)) (flag (fld p1 13 1))))
  | 0x08 => rsv (fld h 0 8 + fld p1 0 14) (.ok (.mxAccmov m acc src (flag (fld p1 14 1))))
  | 0x09 => rsv (fld h 16 2 + fld p1 16 9) (.ok (.mxCseq m (BitVec.ofNat 32 (fld h 0 16 + 2 ^ 16 * fld p1 0 16))))
  | 0x0A => rsv (fld h 0 8) (.ok (.mxRing m td g))
  | 0x0B => rsv (fld h 12 6 + fld h 0 8) (.ok (.mxPop m g))
  | 0x0C => rsv (fld h 12 6 + fld h 5 3) (do return .mxFmt m g (← ill (tfmtOf (fld h 0 5))))
  | 0x0D => rsv (fld h 12 6 + fld h 0 8 + fld p1 16 8 + (if fld p1 24 1 = 0 then fld p1 0 16 else 0))
      (.ok (.mxScale m g (if fld p1 24 1 = 1 then some (BitVec.ofNat 16 (fld p1 0 16)) else none)))
  | 0x0E => rsv (fld h 0 8) (.ok (.mxTrn m acc))
  | 0x0F => rsv (fld h 0 15) (.ok (.mxMode m (flag (fld h 17 1)) (flag (fld h 16 1)) (flag (fld h 15 1))))
  | 0x10 =>
    if fld h 12 1 = 1 then .error .illegal
    else if fld h 11 1 = 0 then .ok (.mxSemWait m (Fin.ofNat 32 (fld h 13 5)) (BitVec.ofNat 11 (fld h 0 11)))
    else .ok (.mxSemSig m (Fin.ofNat 32 (fld h 13 5)) (BitVec.ofNat 11 (fld h 0 11)))
  | 0x11 => rsv (fld h 0 17) (.ok (.mxStat m (flag (fld h 17 1))))
  | _ => .error .illegal

/-! ## V words (08) -/

/-- A conversion's rounding: an explicit mode, or stochastic with its source (08 R286, R288). -/
def vrndOf (rm src : Nat) : Option VRnd :=
  if rm = 4 then (vsrcOf src).map .sr else (rmOf rm).map .mode

/-- `VMOV` (08 R281). -/
def decodeVmov (h p : Nat) (m : Dep) : Except DErr Instr :=
  let d := fld h 12 6
  let a := fld h 6 6
  let b := fld h 0 6
  let c := fld p 8 6
  let low := fld p 3 5
  -- every payload field above sub but c
  let kzt := fld p 14 11
  match fld p 0 3 with
  | 0 => rsv (low + b + c + fld p 14 4)
      (do return .vmov m (.copy ⟨Fin.ofNat 8 (fld p 22 3), flag (fld p 21 1)⟩ (← ill (vtyOf (fld p 18 3)))
            (← ill (vdstOf d)) (← ill (vsrcOf a))))
  | 1 => rsv (low + d + b + kzt) (do return .vmov m (.ds (← ill (vsrcOf a)) (Fin.ofNat 64 c)))
  | 2 => rsv (low + d + b + kzt) (do return .vmov m (.da (← ill (vsrcOf a)) (Fin.ofNat 64 c)))
  | 3 => rsv (low + b + c + kzt) (do return .vmov m (.fz (← ill (vdstOf d)) (← ill (reg8Of a))))
  | 4 => rsv (low + b + c + kzt) (do return .vmov m (.tz (← ill (reg8Of d)) (← ill (vsrcOf a))))
  | 5 => rsv (low + b + c + kzt) (do return .vmov m (.fk (← ill (vdstOf d)) (← ill (reg8Of a))))
  | 6 => rsv (low + b + c + kzt) (do return .vmov m (.tk (← ill (reg8Of d)) (← ill (vsrcOf a))))
  | _ => rsv low (.error .illegal)

/-- `VSHUF` (08 R285). -/
def shufOf (kind t b : Nat) : Option ShufKind :=
  match kind with
  | 0 => (vsrcOf b).map .ilvlo
  | 1 => (vsrcOf b).map .ilvhi
  | 2 => (vsrcOf b).map .even
  | 3 => (vsrcOf b).map .odd
  | 4 => if t < 8 then some (.xswap (Fin.ofNat 8 t)) else none
  | 5 => some .rev
  | 6 => (vsrcOf b).map (.slide · (Fin.ofNat 32 t))
  | _ => none

/-- A reserved rounding mode field of 08 R271, but for the value 4. -/
def notSr (rm : Nat) : Nat := if rm = 4 then 0 else rm

/-- The value 4 of such a field takes `F_ILLEGAL` (08 R271). -/
def exceptSr (rm : Nat) : Option Unit := if rm = 4 then none else some ()

/-- Operands of a V word. -/
def decodeV (op h p1 p2 p3 : Nat) (m : Dep) : Except DErr Instr :=
  let d := fld h 12 6
  let a := fld h 6 6
  let b := fld h 0 6
  let k : Fin 8 := Fin.ofNat 8 (fld p1 22 3)
  let kn := fld p1 22 3
  let zm := fld p1 21 1
  let ty := fld p1 18 3
  let z := fld p1 17 1
  let rm := fld p1 14 3
  let c := fld p1 8 6
  let sub := fld p1 0 8
  let ctl : VCtl := ⟨k, flag zm⟩
  -- z is reserved with a float ty (R266)
  let zf := if 3 ≤ ty ∧ ty ≤ 6 then z else 0
  match op with
  | 0x00 => rsv (z + c + sub)
      (do return .vadd m ctl (← ill (vtyOf ty)) (← ill (rmOf rm)) (← ill (vdstOf d)) (← ill (vsrcOf a)) (← ill (vsrcOf b)))
  | 0x01 => rsv (z + c + sub)
      (do return .vsub m ctl (← ill (vtyOf ty)) (← ill (rmOf rm)) (← ill (vdstOf d)) (← ill (vsrcOf a)) (← ill (vsrcOf b)))
  | 0x02 => rsv (z + c + sub)
      (do return .vmul m ctl (← ill (vtyOf ty)) (← ill (rmOf rm)) (← ill (vdstOf d)) (← ill (vsrcOf a)) (← ill (vsrcOf b)))
  | 0x03 => rsv (z + fld p1 2 6)
      (do return .vfma m ctl (← ill (vtyOf ty)) (← ill (rmOf rm)) (flag (fld p1 1 1)) (flag (fld p1 0 1))
            (← ill (vdstOf d)) (← ill (vsrcOf a)) (← ill (vsrcOf b)) (← ill (vsrcOf c)))
  | 0x04 => rsv (zf + notSr rm + c + sub)
      (do ill (exceptSr rm); return .vmin m ctl (← ill (vtyOf ty)) (flag z) (← ill (vdstOf d)) (← ill (vsrcOf a)) (← ill (vsrcOf b)))
  | 0x05 => rsv (zf + notSr rm + c + sub)
      (do ill (exceptSr rm); return .vmax m ctl (← ill (vtyOf ty)) (flag z) (← ill (vdstOf d)) (← ill (vsrcOf a)) (← ill (vsrcOf b)))
  | 0x06 => rsv (zf + notSr rm + c + sub + b)
      (do ill (exceptSr rm); return .vabs m ctl (← ill (vtyOf ty)) (flag z) (← ill (vdstOf d)) (← ill (vsrcOf a)))
  | 0x07 => rsv (zf + notSr rm + c + sub + b)
      (do ill (exceptSr rm); return .vneg m ctl (← ill (vtyOf ty)) (flag z) (← ill (vdstOf d)) (← ill (vsrcOf a)))
  | 0x08 => rsv (zf + rm + c + fld p1 1 7)
      (do return .viadd m ctl (← ill (vtyOf ty)) (flag z) (flag (fld p1 0 1)) (← ill (vdstOf d)) (← ill (vsrcOf a)) (← ill (vsrcOf b)))
  | 0x09 => rsv (zf + rm + c + fld p1 1 7)
      (do return .visub m ctl (← ill (vtyOf ty)) (flag z) (flag (fld p1 0 1)) (← ill (vdstOf d)) (← ill (vsrcOf a)) (← ill (vsrcOf b)))
  | 0x0A => rsv (zf + rm + c + fld p1 2 6)
      (do return .vimul m ctl (← ill (vtyOf ty)) (flag z) (flag (fld p1 0 1)) (flag (fld p1 1 1)) (← ill (vdstOf d))
            (← ill (vsrcOf a)) (← ill (vsrcOf b)))
  | 0x0B => rsv (z + rm + c + sub)
      (do return .vand m ctl (← ill (vtyOf ty)) (← ill (vdstOf d)) (← ill (vsrcOf a)) (← ill (vsrcOf b)))
  | 0x0C => rsv (z + rm + c + sub)
      (do return .vor m ctl (← ill (vtyOf ty)) (← ill (vdstOf d)) (← ill (vsrcOf a)) (← ill (vsrcOf b)))
  | 0x0D => rsv (z + rm + c + sub)
      (do return .vxor m ctl (← ill (vtyOf ty)) (← ill (vdstOf d)) (← ill (vsrcOf a)) (← ill (vsrcOf b)))
  | 0x0E => rsv (z + rm + c + sub)
      (do return .vshl m ctl (← ill (vtyOf ty)) (← ill (vdstOf d)) (← ill (vsrcOf a)) (← ill (vsrcOf b)))
  | 0x0F => rsv (zf + rm + c + sub)
      (do return .vshr m ctl (← ill (vtyOf ty)) (flag z) (← ill (vdstOf d)) (← ill (vsrcOf a)) (← ill (vsrcOf b)))
  | 0x10 => rsv (zf + zm + rm + c + fld p1 4 4)
      (do return .vcmp m k (← ill (vtyOf ty)) (flag z) (← ill (vcondOf (fld p1 0 4))) (← ill (reg8Of d))
            (← ill (vsrcOf a)) (← ill (vsrcOf b)))
  | 0x11 => rsv (zf + zm + rm + c + fld p1 5 3)
      (do return .vcmpq m k (← ill (vtyOf ty)) (flag z) (flag (fld p1 4 1)) (← ill (vcondOf (fld p1 0 4))) (← ill (reg8Of d))
            (← ill (vsrcOf a)) (← ill (vsrcOf b)))
  | 0x12 => rsv (zm + z + rm + c + sub)
      (do return .vsel m k (← ill (vtyOf ty)) (← ill (vdstOf d)) (← ill (vsrcOf a)) (← ill (vsrcOf b)))
  | 0x13 => rsv (zf + b + zm + c + fld p1 2 6 + (if ty ≤ 2 then rm else fld p1 1 1))
      (do return .vrsum m k (← ill (vtyOf ty)) (flag z) (← ill (rmOf rm)) (flag (fld p1 0 1)) (flag (fld p1 1 1))
            (← ill (vdstOf d)) (← ill (vsrcOf a)))
  | 0x14 => rsv (zf + b + zm + c + rm + fld p1 1 7)
      (do return .vrmax m k (← ill (vtyOf ty)) (flag z) (flag (fld p1 0 1)) (← ill (vdstOf d)) (← ill (vsrcOf a)))
  | 0x15 => rsv (ty + fld p1 8 1 + (if rm < 4 then b else 0))
      (do return .vcvt m ctl (← ill (ctyOf (fld p1 4 4))) (← ill (ctyOf (fld p1 0 4))) (flag z) (flag (fld p1 12 1))
            (ovOf (fld p1 13 1)) (Fin.ofNat 8 (fld p1 9 3)) (← ill (vrndOf rm b)) (← ill (vdstOf d)) (← ill (vsrcOf a)))
  | 0x16 => rsv (kn + zm + z + rm + c + sub)
      (do return .vqmax m (← ill (vtyOf ty)) (← ill (reg8Of d)) (← ill (vsrcOf a)) (← ill (vsrcOf b)))
  | 0x17 => rsv (kn + zm + z + fld p1 3 1 + (if rm < 4 then c else 0))
      (do return .vqcvt m (← ill (vtyOf ty)) (← ill (vrndOf rm c)) (Fin.ofNat 16 (fld p1 4 4)) (Fin.ofNat 8 (fld p1 0 3))
            (← ill (vdstOf d)) (← ill (vsrcOf a)) (← ill (vsrcOf b)))
  | 0x18 => rsv (z + c + fld p1 3 1)
      (do return .vdq m ctl (← ill (vtyOf ty)) (← ill (rmOf rm)) (Fin.ofNat 16 (fld p1 4 4)) (Fin.ofNat 8 (fld p1 0 3))
            (← ill (vdstOf d)) (← ill (vsrcOf a)) (← ill (vsrcOf b)))
  | 0x19 => rsv (z + rm + c + sub)
      (do return .vperm m ctl (← ill (vtyOf ty)) (← ill (vdstOf d)) (← ill (vsrcOf a)) (← ill (vsrcOf b)))
  | 0x1A =>
    let kind := fld p1 5 3
    let t := fld p1 0 5
    rsv (z + rm + c + (if kind ≤ 3 ∨ kind = 5 then t else 0) + (if kind = 4 ∨ kind = 5 then b else 0))
      (do return .vshuf m ctl (← ill (vtyOf ty)) (← ill (shufOf kind t b)) (← ill (vdstOf d)) (← ill (vsrcOf a)))
  | 0x1B => rsv (b + z + rm + c + sub)
      (do return .vrcpe m ctl (← ill (vtyOf ty)) (← ill (vdstOf d)) (← ill (vsrcOf a)))
  | 0x1C => rsv (b + z + rm + c + sub)
      (do return .vrsqe m ctl (← ill (vtyOf ty)) (← ill (vdstOf d)) (← ill (vsrcOf a)))
  | 0x1D => rsv (b + zm + z + rm + c + fld p1 1 7)
      (do
        let t ← ill (vtyOf ty)
        let s ← ill (vsrcOf a)
        if d < 4 then
          if fld p1 0 1 = 0 then return .vpushc m k t (.cb (Fin.ofNat 4 d)) s else .error .illegal
        else if 32 ≤ d ∧ d < 40 then return .vpushc m k t (.q (Fin.ofNat 8 (d - 32)) (flag (fld p1 0 1))) s
        else .error .illegal)
  | 0x1E => rsv (b + kn + zm + z + rm + fld p1 1 7 + (if fld p1 0 1 = 0 then c else 0))
      (do
        let t ← ill (vtyOf ty)
        let dd ← ill (vdstOf d)
        let cb ← ill (cbOf a)
        if fld p1 0 1 = 0 then return .vpopc m t .full dd cb
        else return .vpopc m t (.tail (← ill (reg8Of c))) dd cb)
  | 0x1F => decodeVmov h p1 m
  | 0x20 => rsv (if fld h 10 2 = 3 then fld p3 4 21 else 0)
      (do return .vbcast m (Fin.ofNat 4 (fld h 10 2)) (← ill (vdstOf d)) (immOf (fld h 10 2) (fld h 0 10) p1 p2 p3))
  | 0x21 => rsv (if fld h 10 2 = 3 then fld p3 4 21 else 0)
      (do return .vsetl m (Fin.ofNat 4 (fld h 10 2)) (← ill (reg8Of d)) (immOf (fld h 10 2) (fld h 0 10) p1 p2 p3))
  | 0x22 => rsv (fld h 0 2 + fld p1 0 8)
      (do return .vaccRd m (Fin.ofNat 1024 (fld h 8 10)) (← ill (vdstOf (fld h 2 6))) (Fin.ofNat 32 (fld p1 20 5))
            (flag (fld p1 19 1)) (Fin.ofNat 8 (fld p1 16 3)) (← ill (acctyOf (fld p1 12 4))) (← ill (rmOf (fld p1 9 3)))
            (ovOf (fld p1 8 1)))
  | 0x23 => rsv (fld h 0 2 + fld p1 0 8)
      (do return .vaccWr m (Fin.ofNat 1024 (fld h 8 10)) (← ill (vsrcOf (fld h 2 6))) (Fin.ofNat 32 (fld p1 20 5))
            (flag (fld p1 19 1)) (Fin.ofNat 8 (fld p1 16 3)) (← ill (acctyOf (fld p1 12 4))) (← ill (rmOf (fld p1 9 3)))
            (flag (fld p1 8 1)))
  | 0x24 => rsv (a + b + z + rm + c + fld p1 1 7 + (if fld p1 0 1 = 1 then zm else 0))
      (do return .viota m ctl (← ill (vtyOf ty)) (flag (fld p1 0 1)) (← ill (vdstOf d)))
  | 0x25 => rsv (b + kn + zm + z + rm + c + fld p1 1 7)
      (do return .vcnt m (← ill (vtyOf ty)) (flag (fld p1 0 1)) (← ill (vdstOf d)) (← ill (reg8Of a)))
  | 0x26 => rsv (a + b + ty + z + rm + c + fld p1 5 3)
      (do return .vpopq m ctl (Fin.ofNat 32 (fld p1 0 5)) (← ill (vdstOf d)))
  | 0x27 => rsv (fld h 0 17) (.ok (.vstat m (flag (fld h 17 1))))
  | _ => .error .illegal

/-! ## T words (11) -/

/-- The mode of a T word in the layout of 11 R379; the reserved bits of the mode not taken are checked by the caller. -/
def tformOf (h : Nat) : TForm :=
  if fld h 4 1 = 0 then .image (Fin.ofNat 64 (fld h 12 6)) else .ring (Fin.ofNat 16 (fld h 8 4)) (Fin.ofNat 16 (fld h 0 4))

/-- Reserved bits of the layout of 11 R379. -/
def tformRsv (h : Nat) : Nat := if fld h 4 1 = 0 then fld h 8 4 + fld h 0 4 else fld h 12 6

/-- Operands of a T word. -/
def decodeT (op h p1 : Nat) (m : Dep) : Except DErr Instr :=
  let td : Fin 64 := Fin.ofNat 64 (fld h 12 6)
  let g : Fin 16 := Fin.ofNat 16 (fld h 8 4)
  let go : Fin 16 := Fin.ofNat 16 (fld h 0 4)
  let p : Fin 8 := Fin.ofNat 8 (fld h 5 3)
  let ring := fld h 4 1 = 1
  match op with
  | 0x00 => rsv (fld h 8 10 + fld h 0 5 + fld p1 21 1)
      (.ok (.txPlan m p ⟨flag (fld p1 24 1), flag (fld p1 23 1), flag (fld p1 22 1), BitVec.ofNat 21 (fld p1 0 21)⟩))
  | 0x01 => rsv (tformRsv h) (.ok (if ring then .txFwdRing m p g go else .txFwd m p td))
  | 0x02 => rsv (tformRsv h) (.ok (if ring then .txInvRing m p g go else .txInv m p td))
  | 0x03 => rsv (tformRsv h + fld p1 0 19)
      (.ok (.txStage m p (tformOf h) (Fin.ofNat 32 (fld p1 20 5)) (flag (fld p1 19 1))))
  | 0x04 => rsv (fld h 5 3 + fld h 0 3 + fld p1 21 3 + (if ring then fld h 12 6 else fld h 8 4))
      (.ok (.txTwid m (if ring then .ring g else .image td) (flag (fld h 3 1)) (flag (fld p1 24 1)) (BitVec.ofNat 21 (fld p1 0 21))))
  | 0x05 => rsv (tformRsv h) (.ok (if ring then .txRfwdRing m p g go else .txRfwd m p td))
  | 0x06 => rsv (tformRsv h) (.ok (if ring then .txRinvRing m p g go else .txRinv m p td))
  | 0x07 => rsv (fld h 0 8) (.ok (.txLeg m td g (BitVec.ofNat 12 (fld p1 13 12)) (BitVec.ofNat 13 (fld p1 0 13))))
  | 0x08 => rsv (tformRsv h + fld h 5 3 + fld p1 16 5 + (if fld p1 24 1 = 1 then fld p1 0 16 else 0))
      (do return .txScale m (tformOf h) (if fld p1 24 1 = 1 then .dt else .pow2 (BitVec.ofNat 16 (fld p1 0 16)))
            (← ill (rmOf (fld p1 21 3))))
  | 0x09 => rsv (tformRsv h) (.ok (if ring then .txDigrevRing m p g go else .txDigrev m p td))
  | 0x0A => rsv (fld h 0 8) (.ok (.txRing m td g))
  | 0x0B =>
    if fld h 12 1 = 1 then .error .illegal
    else if fld h 11 1 = 0 then .ok (.txSemWait m (Fin.ofNat 32 (fld h 13 5)) (BitVec.ofNat 11 (fld h 0 11)))
    else .ok (.txSemSig m (Fin.ofNat 32 (fld h 13 5)) (BitVec.ofNat 11 (fld h 0 11)))
  | 0x0C => rsv (fld h 0 17) (.ok (.txStat m (flag (fld h 17 1))))
  | 0x0D => rsv (fld h 5 3 + fld h 0 2) (.ok (.txCplx m td g (flag (fld h 4 1)) (flag (fld h 3 1)) (flag (fld h 2 1))))
  | _ => .error .illegal

/-! ## F words (12) -/

/-- The slot of an F word (12 R401). -/
def slotOf (p1 : Nat) : Option (BitVec 8) := if fld p1 14 1 = 1 then some (BitVec.ofNat 8 (fld p1 6 8)) else none

/-- Reserved bits of the first extension word (12 R401). -/
def slotRsv (p1 : Nat) : Nat := fld p1 0 6 + (if fld p1 14 1 = 0 then fld p1 6 8 else 0)

/-- The common fields of a FAB word with a target (12 R401). -/
def fabOf (h p1 : Nat) : Option FabHead := do
  let sc ← scopeOf (fld h 8 4)
  let cl ← fclsOf (fld h 6 2)
  return ⟨sc, cl, Fin.ofNat 4 (fld h 0 2), Fin.ofNat 32 (fld p1 20 5), Fin.ofNat 32 (fld p1 15 5), slotOf p1⟩

/-- An ord that is `.rlx` or `.rel` (12 R401). -/
def relOf : Nat → Option Bool
  | 0 => some false | 2 => some true | _ => none

/-- Operands of an F word. -/
def decodeF (op h p1 p2 p3 : Nat) (m : Dep) : Except DErr Instr :=
  let td : Fin 64 := Fin.ofNat 64 (fld h 12 6)
  let ra : Fin 32 := Fin.ofNat 32 (fld p2 20 5)
  let rb : Fin 32 := Fin.ofNat 32 (fld p2 15 5)
  match op with
  | 0x00 => rsv (slotRsv p1 + p2 + p3)
      (do
        let hd ← ill (fabOf h p1)
        match fld h 2 2 with
        | 0 => return .fbLd m td hd (flag (fld h 5 1)) (flag (fld h 4 1)) false
        | 1 => return .fbLd m td hd (flag (fld h 5 1)) (flag (fld h 4 1)) true
        | _ => .error .illegal)
  | 0x01 => rsv (slotRsv p1 + p2 + p3 + fld h 4 2)
      (do return .fbSt m td (← ill (fabOf h p1)) (← ill (relOf (fld h 2 2))))
  | 0x02 => rsv (slotRsv p1 + fld p2 0 11 + p3)
      (do return .fbAmo m td (← ill (fabOf h p1)) (flag (fld h 5 1)) (flag (fld h 4 1)) (ordOf (fld h 2 2))
            (← ill (famoOf (fld p2 11 4))) ra rb)
  | 0x03 => rsv (slotRsv p1 + fld p2 0 20 + p3)
      (do return .fbGadd m td (← ill (fabOf h p1)) (← ill (gfmtOf (fld h 4 2))) (← ill (relOf (fld h 2 2))) ra)
  | 0x04 => rsv (fld h 12 6 + fld h 6 2 + p1 + p2 + p3)
      (if fld h 0 2 ≠ 0 then .error .illegal else do
        let sc ← ill (scopeOf (fld h 8 4))
        match fld h 2 4 with
        | 0 => return .fbFenceAcq m sc
        | 1 => return .fbFenceRel m sc
        | 2 => return .fbFenceAr m sc
        | 3 => return .fbFenceSc m sc
        | _ => .error .illegal)
  | 0x05 => rsv (slotRsv p1 + fld h 4 1 + fld p2 15 10 + fld p2 0 9 + p3)
      (do return .fbMcst m td (← ill (fabOf h p1)) (flag (fld h 5 1)) (← ill (relOf (fld h 2 2))) (Fin.ofNat 64 (fld p2 9 6)))
  | 0x06 => rsv (slotRsv p1 + fld p2 15 10 + fld p2 0 9 + p3)
      (do return .fbMcld m td (← ill (fabOf h p1)) (← ill (redOf (fld h 4 2))) (flag (fld h 3 1)) (flag (fld h 2 1))
            (Fin.ofNat 64 (fld p2 9 6)))
  | 0x07 => rsv (fld h 3 5 + fld p1 0 20)
      (do return .fbSub m td (Fin.ofNat 16 (fld h 8 4)) (← ill (subLevelOf (fld h 0 3))) (Fin.ofNat 32 (fld p1 20 5)))
  | 0x08 => rsv (fld h 12 6 + fld h 0 8) (.ok (.fbUnsub m (Fin.ofNat 16 (fld h 8 4))))
  | 0x09 => rsv (fld h 0 18) (.ok (.fbSflush m))
  | 0x0A => rsv (fld h 16 2 + fld h 2 4 + fld p1 15 5 + slotRsv p1 + p2 + p3)
      (do
        let sc ← ill (scopeOf (fld h 8 4))
        if fld h 6 2 ≠ 0 then .error .illegal
        else return .fbColl m (Fin.ofNat 16 (fld h 12 4)) sc (Fin.ofNat 4 (fld h 0 2)) (Fin.ofNat 32 (fld p1 20 5)) (slotOf p1))
  | 0x0B => .ok (.fbCwait m (Fin.ofNat 16 (fld h 14 4)) (BitVec.ofNat 14 (fld h 0 14)))
  | 0x0C =>
    match fld h 16 2 with
    | 0 => rsv (fld h 0 16) (.ok (.fbTimeNow m))
    | 1 => rsv (fld h 0 16) (.ok (.fbTimeWin m))
    | 2 => .ok (.fbTimeUntil m (BitVec.ofNat 16 (fld h 0 16)))
    | _ => rsv (fld h 0 16) (.error .illegal)
  | 0x0D => rsv (fld h 0 17) (.ok (.fbStat m (flag (fld h 17 1))))
  | _ => .error .illegal

/-! ## Whole words -/

/-- The extension count of an assigned opcode (02 R48, R70); none for an unassigned one. -/
def extCount (tag op h : Nat) : Option Nat :=
  match tag with
  | 0 => if 0x1C ≤ op then none else if op = 0x09 then some (fld h 10 2) else if op = 0x0B ∨ op = 0x10 then some 1 else some 0
  | 1 =>
    if 0x1E ≤ op then none
    else if op = 0 ∨ op = 1 ∨ (0x12 ≤ op ∧ op ≤ 0x1A) then some (fld h 0 2)
    else if op = 0x03 then some (fld h 10 2)
    else if op = 0x0B then some 2
    else if op = 0x05 ∨ (0x07 ≤ op ∧ op ≤ 0x0A) ∨ op = 0x0C ∨ op = 0x0F ∨ op = 0x10 then some 1
    else some 0
  | 2 =>
    if 0x12 ≤ op then none
    else if (1 ≤ op ∧ op ≤ 3) ∨ (5 ≤ op ∧ op ≤ 9) ∨ op = 0x0D then some 1 else some 0
  | 3 => if 0x28 ≤ op then none else if op = 0x20 ∨ op = 0x21 then some (fld h 10 2) else if op = 0x27 then some 0 else some 1
  | 4 => if 0x0E ≤ op then none else if op = 0 ∨ op = 3 ∨ op = 4 ∨ op = 7 ∨ op = 8 then some 1 else some 0
  | 5 => if 0x0E ≤ op then none else if op ≤ 6 ∨ op = 0x0A then some (fld h 0 2) else if op = 7 then some 1 else some 0
  | _ => none

/-- Dependency bits of a head word and its extension words (02 R37, R49). -/
def depOf (h : Nat) (xs : List Nat) : Dep :=
  ⟨BitVec.ofNat 4 (fld h 25 4), BitVec.ofNat 4 (fld (xs.getD 0 0) 25 4), BitVec.ofNat 4 (fld (xs.getD 1 0) 25 4),
   BitVec.ofNat 4 (fld (xs.getD 2 0) 25 4)⟩

/-- A head word is well formed when exactly its `e` following words have tag 6 (02 R48). -/
def extsOk (e : Nat) (rest : List Nat) : Bool :=
  e ≤ rest.length && (rest.take e).all (fun w => fld w 29 3 == 6)
    && (match rest[e]? with | some w => fld w 29 3 != 6 | none => true)

/-- Decoding the head word `h` with the words `rest` that follow it in the text: R63 steps 1 to 5. The answer carries the
extension count. -/
def decodeHead (h : Nat) (rest : List Nat) : Except DErr (Instr × Nat) :=
  let tag := fld h 29 3
  let op := fld h 18 7
  match extCount tag op h with
  | none => .error .illegal
  | some e =>
    if extsOk e rest then
      let xs := rest.take e
      let m := depOf h xs
      let p1 := fld (xs.getD 0 0) 0 25
      let p2 := fld (xs.getD 1 0) 0 25
      let p3 := fld (xs.getD 2 0) 0 25
      let r := match tag with
        | 0 => decodeS op h p1 p2 p3 m
        | 1 => decodeA op h p1 p2 p3 m
        | 2 => decodeM op h p1 m
        | 3 => decodeV op h p1 p2 p3 m
        | 4 => decodeT op h p1 m
        | _ => decodeF op h p1 p2 p3 m
      match r with
      | .ok i => if i.wf then .ok (i, e) else .error .illegal
      | .error err => .error err
    else .error .illegal

/-- The instruction at the head of a list of words, with the words after it. -/
def decode : List Nat → Except DErr (Instr × List Nat)
  | [] => .error .illegal
  | h :: rest =>
    match decodeHead h rest with
    | .ok (i, e) => .ok (i, rest.drop e)
    | .error err => .error err

/-- The instruction whose bits are `w`, numbered as the opcode table numbers them: the head word lowest, each later word
above it; every bit above `nbits` is 0. -/
def decodeTableWord (nbits w : Nat) : Option Instr :=
  let b := w % 2 ^ nbits
  match decode [fld b 0 32, fld b 32 32, fld b 64 32, fld b 96 32, 0] with
  | .ok (i, _) => some i
  | .error _ => none

/-! ## The encoder -/

/-- Words of an instruction from its tag, opcode, dependency bits, operand bits and payloads (02 R37, R48). -/
def assemble (tag op : Nat) (m : Dep) (operands : Nat) (payloads : List Nat) : List Nat :=
  (tag * 2 ^ 29 + m.h.toNat * 2 ^ 25 + op * 2 ^ 18 + operands) ::
    (payloads.zip [m.x1, m.x2, m.x3]).map (fun pd => 6 * 2 ^ 29 + pd.2.toNat * 2 ^ 25 + pd.1)

/-- Operand bits of format RRR (02 R65). -/
def rrr (d a b : Nat) : Nat := d * 2 ^ 12 + a * 2 ^ 6 + b

/-- Operand bits of format RI (02 R65). -/
def ri (d : Nat) (xc : Fin 4) (imm : BitVec 64) : Nat := d * 2 ^ 12 + xc.val * 2 ^ 10 + fld imm.toNat 0 10

/-- Operand bits of format TD (02 R65). -/
def tdBits (td g ch mod : Nat) : Nat := td * 2 ^ 12 + g * 2 ^ 8 + ch * 2 ^ 5 + mod

/-- The payload of an RRR V word (08 R266). -/
def vpay (k : Fin 8) (zm : Bool) (ty : Nat) (z : Bool) (rm c sub : Nat) : Nat :=
  k.val * 2 ^ 22 + bit zm * 2 ^ 21 + ty * 2 ^ 18 + bit z * 2 ^ 17 + rm * 2 ^ 14 + c * 2 ^ 8 + sub

/-- Payload 1 of a record word with two origin registers. -/
def origins (oa ob : Fin 32) : Nat := oa.val * 2 ^ 20 + ob.val * 2 ^ 15

/-- The rounding field and the code of its random source. -/
def vrndCode : VRnd → Nat
  | .mode rm => rmCode rm
  | .sr _ => 4

/-- The operand code of the random source, 0 where there is none. -/
def vrndSrc : VRnd → Nat
  | .mode _ => 0
  | .sr r => vsrcCode r

/-- Second payload of an atomic or parcel word (07 R233). -/
def atomicPay (ra op ord scope : Nat) (z nr : Bool) (rm : Nat) : Nat :=
  ra * 2 ^ 20 + op * 2 ^ 16 + ord * 2 ^ 14 + scope * 2 ^ 10 + bit z * 2 ^ 9 + bit nr * 2 ^ 8 + rm * 2 ^ 5

/-- Kind, head ring and first payload of a copy (09 R311): the parts without oa and ob. -/
def cpCode : CpKind → Nat × Nat × Nat
  | .toRec tdd rx => (0, 0, tdd.val * 2 ^ 9 + rx.val * 2 ^ 4)
  | .toRing g se sem => (1, g.val, bit se * 2 ^ 14 + sem.val * 2 ^ 9)
  | .toPeer g se sem rx => (2, g.val, bit se * 2 ^ 14 + sem.val * 2 ^ 9 + rx.val * 2 ^ 4)
  | .drain g sem => (3, g.val, sem.val * 2 ^ 9)

/-- Operand bits of a copy. -/
def cpBits (td : Fin 64) (ch : Fin 8) (k : CpKind) : Nat :=
  tdBits td.val (cpCode k).2.1 ch.val ((cpCode k).1 * 2 ^ 2)

/-- First payload of a copy. -/
def cpPay (oa ob : Fin 32) (k : CpKind) : Nat := origins oa ob + (cpCode k).2.2

/-- The semaphore fields of a pass (10 R352). -/
def semUseBits (w : Option (SemUse 16)) (s : Option (SemUse 8)) : Nat :=
  (match w with | some u => 2 ^ 22 + u.sem.val * 2 ^ 17 + u.vm1.val * 2 ^ 13 | none => 0)
    + (match s with | some u => 2 ^ 12 + u.sem.val * 2 ^ 7 + u.vm1.val * 2 ^ 4 | none => 0)

/-- The head bits of a T word (11 R379). -/
def tformBits (p : Nat) : TForm → Nat
  | .image td => td.val * 2 ^ 12 + p * 2 ^ 5
  | .ring gi go => gi.val * 2 ^ 8 + p * 2 ^ 5 + 2 ^ 4 + go.val

/-- The slot field (12 R401). -/
def slotBits : Option (BitVec 8) → Nat
  | some n => 2 ^ 14 + n.toNat * 2 ^ 6
  | none => 0

/-- Head bits of a FAB word (02 R65, 12 R401). -/
def fabBits (opnd : Nat) (h : FabHead) (mod : Nat) : Nat :=
  opnd * 2 ^ 12 + scopeCode h.scope * 2 ^ 8 + fclsCode h.cls * 2 ^ 6 + mod * 2 ^ 2 + h.xc.val

/-- Payloads of a FAB word whose second payload is `p2`. -/
def fabPayloads (h : FabHead) (p2 : Nat) : List Nat := [origins h.oa h.ob + slotBits h.slot, p2, 0].take h.xc.val

/-- The modes of `VMOV` (08 R281). -/
def vmovWords (m : Dep) : VmovForm → List Nat
  | .copy ctl ty d a => assemble 3 0x1F m (rrr (vdstCode d) (vsrcCode a) 0) [vpay ctl.k ctl.zm (vtyCode ty) false 0 0 0]
  | .ds a lane => assemble 3 0x1F m (rrr 0 (vsrcCode a) 0) [vpay 0 false 0 false 0 lane.val 1]
  | .da a lane => assemble 3 0x1F m (rrr 0 (vsrcCode a) 0) [vpay 0 false 0 false 0 lane.val 2]
  | .fz d z => assemble 3 0x1F m (rrr (vdstCode d) z.val 0) [vpay 0 false 0 false 0 0 3]
  | .tz z a => assemble 3 0x1F m (rrr z.val (vsrcCode a) 0) [vpay 0 false 0 false 0 0 4]
  | .fk d k => assemble 3 0x1F m (rrr (vdstCode d) k.val 0) [vpay 0 false 0 false 0 0 5]
  | .tk k a => assemble 3 0x1F m (rrr k.val (vsrcCode a) 0) [vpay 0 false 0 false 0 0 6]

/-- The b operand and sub field of a `VSHUF` (08 R285). -/
def shufCode : ShufKind → Nat × Nat
  | .ilvlo b => (vsrcCode b, 0 * 2 ^ 5)
  | .ilvhi b => (vsrcCode b, 1 * 2 ^ 5)
  | .even b => (vsrcCode b, 2 * 2 ^ 5)
  | .odd b => (vsrcCode b, 3 * 2 ^ 5)
  | .xswap t => (0, 4 * 2 ^ 5 + t.val)
  | .rev => (0, 5 * 2 ^ 5)
  | .slide b t => (vsrcCode b, 6 * 2 ^ 5 + t.val)

/-- The words of the S words (04). -/
def encodeS : Instr → List Nat
  | .nop m => assemble 0 0x00 m 0 []
  | .add m d a b => assemble 0 0x01 m (rrr d.val a.val b.val) []
  | .sub m d a b => assemble 0 0x02 m (rrr d.val a.val b.val) []
  | .mul m d a b => assemble 0 0x03 m (rrr d.val a.val b.val) []
  | .and m d a b => assemble 0 0x04 m (rrr d.val a.val b.val) []
  | .or m d a b => assemble 0 0x05 m (rrr d.val a.val b.val) []
  | .xor m d a b => assemble 0 0x06 m (rrr d.val a.val b.val) []
  | .shl m d a b => assemble 0 0x07 m (rrr d.val a.val b.val) []
  | .shr m d a b => assemble 0 0x08 m (rrr d.val a.val b.val) []
  | .li m xc d imm => assemble 0 0x09 m (ri d.val xc imm) (immPayloads xc imm)
  | .mov m d a => assemble 0 0x0A m (rrr d.val a.val 0) []
  | .movFromDs m d => assemble 0 0x0A m (rrr d.val 0 1) []
  | .movToDa m a => assemble 0 0x0A m (rrr 0 a.val 2) []
  | .movToDv m a => assemble 0 0x0A m (rrr 0 a.val 3) []
  | .movToDt m a => assemble 0 0x0A m (rrr 0 a.val 4) []
  | .cmp m cc nq d a b => assemble 0 0x0B m (rrr d.val a.val b.val) [bit nq * 2 ^ 4 + condCode cc]
  | .br m off => assemble 0 0x0C m off.toNat []
  | .brc m off => assemble 0 0x0D m off.toNat []
  | .call m off => assemble 0 0x0E m off.toNat []
  | .ret m => assemble 0 0x0F m 0 []
  | .loop m lc (.imm n) off => assemble 0 0x10 m (lc.val * 2 ^ 16 + n.toNat) [off.toNat]
  | .loop m lc (.reg r) off => assemble 0 0x10 m (lc.val * 2 ^ 16 + 2 ^ 15 + r.val) [off.toNat]
  | .endl m lc rot => assemble 0 0x11 m (lc.val * 2 ^ 16 + bit rot * 2 ^ 15) []
  | .lexit m c off => assemble 0 0x12 m (bit c * 2 ^ 17 + off.toNat) []
  | .semSigImm m s v => assemble 0 0x13 m (s.val * 2 ^ 13 + v.toNat) []
  | .semSigReg m s r => assemble 0 0x13 m (s.val * 2 ^ 13 + 2 ^ 12 + r.val) []
  | .semWaitImm m s v => assemble 0 0x14 m (s.val * 2 ^ 13 + v.toNat) []
  | .semWaitReg m s r => assemble 0 0x14 m (s.val * 2 ^ 13 + 2 ^ 12 + r.val) []
  | .drain m => assemble 0 0x15 m 0 []
  | .cairn m l => assemble 0 0x16 m (levelCode l * 2 ^ 15) []
  | .iter m off => assemble 0 0x17 m off.toNat []
  | .stagep m => assemble 0 0x18 m 0 []
  | .exit m => assemble 0 0x19 m 0 []
  | .trap m c => assemble 0 0x1A m c.toNat []
  | .csrRd m r c => assemble 0 0x1B m (r.val * 2 ^ 12 + c.toNat) []
  | .csrWr m r c => assemble 0 0x1B m (r.val * 2 ^ 12 + 2 ^ 11 + c.toNat) []
  | _ => []

/-- The words of the A words (06, 07, 09). -/
def encodeA : Instr → List Nat
  | .ld m ma sz z (.reg r) => assemble 1 0x00 m (aregCode r * 2 ^ 12 + memBits ma sz.val) (memPayloads ma (bit z * 2 ^ 5))
  | .ld m ma sz z .ds => assemble 1 0x00 m (memBits ma sz.val) (memPayloads ma (1 * 2 ^ 6 + bit z * 2 ^ 5))
  | .ld m ma sz z .dv => assemble 1 0x00 m (memBits ma sz.val) (memPayloads ma (2 * 2 ^ 6 + bit z * 2 ^ 5))
  | .ld m ma sz z .dt => assemble 1 0x00 m (memBits ma sz.val) (memPayloads ma (3 * 2 ^ 6 + bit z * 2 ^ 5))
  | .st m ma sz src => assemble 1 0x01 m (asrcCode src * 2 ^ 12 + memBits ma sz.val) (memPayloads ma 0)
  | .adda m d a b => assemble 1 0x02 m (rrr (aregCode d) (asrcCode a) (asrcCode b)) []
  | .lia m xc d imm => assemble 1 0x03 m (ri (aregCode d) xc imm) (immPayloads xc imm)
  | .mova m d a => assemble 1 0x04 m (rrr (aregCode d) (asrcCode a) 0) []
  | .movaToDs m a => assemble 1 0x04 m (rrr 0 (asrcCode a) 1) []
  | .movaToDv m a => assemble 1 0x04 m (rrr 0 (asrcCode a) 2) []
  | .movaToDt m a => assemble 1 0x04 m (rrr 0 (asrcCode a) 3) []
  | .qbind m td q wr oa ob => assemble 1 0x05 m (tdBits td.val q.val 0 (bit wr)) [origins oa ob]
  | .qend m q => assemble 1 0x06 m q.val []
  | .tdSet m td i r => assemble 1 0x07 m (tdBits td.val 0 0 0) [r.val * 2 ^ 20 + i.val * 2 ^ 16]
  | .tdGet m td i r => assemble 1 0x08 m (tdBits td.val 0 0 0) [r.val * 2 ^ 20 + i.val * 2 ^ 16]
  | .tmov m td ch st oa ob => assemble 1 0x09 m (tdBits td.val 0 ch.val (bit st)) [origins oa ob]
  | .cp m td ch k oa ob => assemble 1 0x0A m (cpBits td ch k) [cpPay oa ob k]
  | .cpl m td ch k oa ob rc rs => assemble 1 0x0B m (cpBits td ch k) [cpPay oa ob k, origins rc rs]
  | .cpring m g (.c base ns lines) p c =>
    assemble 1 0x0C m (tdBits 0 g.val 0 (ringEndCode p * 2 ^ 2 + ringEndCode c))
      [aregCode base * 2 ^ 19 + ns.val * 2 ^ 13 + lines.toNat]
  | .cpring m g (.r j lc lines) p c =>
    assemble 1 0x0C m (tdBits 0 g.val 0 (2 ^ 4 + ringEndCode p * 2 ^ 2 + ringEndCode c))
      [j.val * 2 ^ 22 + lc.val * 2 ^ 20 + lines.toNat * 2 ^ 7]
  | .cpwpRd m a ch => assemble 1 0x0D m (tdBits a.val 0 ch.val 0) []
  | .cpwpWait m a ch => assemble 1 0x0D m (tdBits a.val 0 ch.val 1) []
  | .cpwpDs m ch => assemble 1 0x0D m (tdBits 0 0 ch.val 2) []
  | .cpcan m ch => assemble 1 0x0E m (tdBits 0 0 ch.val 0) []
  | .cpcanAll m => assemble 1 0x0E m (tdBits 0 0 0 1) []
  | .siftEnc m ch pasp sasp rp rmap rsec rn =>
    assemble 1 0x0F m (ch.val * 2 ^ 5 + aspCode pasp * 2 ^ 3 + aspCode sasp * 2 ^ 1)
      [origins rp rmap + rsec.val * 2 ^ 10 + rn.val * 2 ^ 5]
  | .siftDec m ch (.plain pasp rp) sasp rmap rsec rn =>
    assemble 1 0x0F m (ch.val * 2 ^ 5 + aspCode pasp * 2 ^ 3 + aspCode sasp * 2 ^ 1 + 1)
      [origins rp rmap + rsec.val * 2 ^ 10 + rn.val * 2 ^ 5]
  | .siftDec m ch (.ring g) sasp rmap rsec rn =>
    assemble 1 0x0F m (2 ^ 17 + g.val * 2 ^ 8 + ch.val * 2 ^ 5 + aspCode sasp * 2 ^ 1 + 1)
      [origins 0 rmap + rsec.val * 2 ^ 10 + rn.val * 2 ^ 5]
  | .accmov m acc ch st asp base =>
    assemble 1 0x10 m (acc.val * 2 ^ 8 + ch.val * 2 ^ 5 + bit st * 2 ^ 4 + aspCode asp * 2 ^ 2) [base.val * 2 ^ 20]
  | .fenceAcq m s => assemble 1 0x11 m (scopeCode s * 2 ^ 11) []
  | .fenceRel m s => assemble 1 0x11 m (1 * 2 ^ 15 + scopeCode s * 2 ^ 11) []
  | .fenceAr m s => assemble 1 0x11 m (2 * 2 ^ 15 + scopeCode s * 2 ^ 11) []
  | .fenceSc m s => assemble 1 0x11 m (3 * 2 ^ 15 + scopeCode s * 2 ^ 11) []
  | .fenceXp m => assemble 1 0x11 m (4 * 2 ^ 15) []
  | .amo m ma w8 op ord sc z nr d ra =>
    assemble 1 0x12 m (d.val * 2 ^ 12 + memBits ma (w8Code w8))
      (memPayloads ma (atomicPay ra.val (amoCode op) (ordCode ord) (scopeCode sc) z nr 0))
  | .cas m ma w8 ord sc z d ra =>
    assemble 1 0x13 m (d.val * 2 ^ 12 + memBits ma (w8Code w8))
      (memPayloads ma (atomicPay ra.val 0 (ordCode ord) (scopeCode sc) z false 0))
  | .gadd m ma f ord sc d =>
    assemble 1 0x14 m (d.val * 2 ^ 12 + memBits ma 5)
      (memPayloads ma (atomicPay 0 (gfmtCode f) (ordCode ord) (scopeCode sc) false false 0))
  | .grd m ma f rm ord sc d ra =>
    assemble 1 0x15 m (d.val * 2 ^ 12 + memBits ma 5)
      (memPayloads ma (atomicPay ra.val (gfmtCode f) (ordCode ord) (scopeCode sc) false false (rmCode rm)))
  | .gclr m ma ord sc d =>
    assemble 1 0x16 m (d.val * 2 ^ 12 + memBits ma 5)
      (memPayloads ma (atomicPay 0 0 (ordCode ord) (scopeCode sc) false false 0))
  | .waita m ma w8 sc d ra =>
    assemble 1 0x17 m (d.val * 2 ^ 12 + memBits ma (w8Code w8))
      (memPayloads ma (atomicPay ra.val 0 0 (scopeCode sc) false false 0))
  | .wakea m ma sc d =>
    assemble 1 0x18 m (d.val * 2 ^ 12 + memBits ma 0) (memPayloads ma (atomicPay 0 0 0 (scopeCode sc) false false 0))
  | .convey m ma d => assemble 1 0x19 m (d.val * 2 ^ 12 + memBits ma 0) (memPayloads ma 0)
  | .platQ m ma d => assemble 1 0x1A m (d.val * 2 ^ 12 + memBits ma 0) (memPayloads ma (0 * 2 ^ 16))
  | .platWait m ma d => assemble 1 0x1A m (d.val * 2 ^ 12 + memBits ma 0) (memPayloads ma (1 * 2 ^ 16))
  | .platShare m ma d => assemble 1 0x1A m (d.val * 2 ^ 12 + memBits ma 0) (memPayloads ma (2 * 2 ^ 16))
  | .segqState m d a => assemble 1 0x1B m (rrr (aregCode d) (asrcCode a) 0) []
  | .segqProbe m d a => assemble 1 0x1B m (rrr (aregCode d) (asrcCode a) 1) []
  | .tlbinvAll m => assemble 1 0x1C m (rrr 0 0 0) []
  | .tlbinvPage m a => assemble 1 0x1C m (rrr 0 (asrcCode a) 1) []
  | .tlbinvSeg m a => assemble 1 0x1C m (rrr 0 (asrcCode a) 2) []
  | .astat m d => assemble 1 0x1D m (rrr (aregCode d) 0 0) []
  | .astatClr m d a => assemble 1 0x1D m (rrr (aregCode d) (asrcCode a) 1) []
  | .astatMiss m d => assemble 1 0x1D m (rrr (aregCode d) 0 2) []
  | _ => []

/-- The words of the M words (10). -/
def encodeM : Instr → List Nat
  | .mxShape m r c nq nd =>
    assemble 2 0x00 m (r.val * 2 ^ 13 + c.val * 2 ^ 8 + bit nq * 2 ^ 7 + bit nd * 2 ^ 6) []
  | .mxMma m acc ga gb ka kb w s set =>
    assemble 2 0x01 m (acc.val * 2 ^ 8 + ga.val * 2 ^ 4 + gb.val)
      [bit ka * 2 ^ 24 + bit kb * 2 ^ 23 + semUseBits w s + bit set * 2 ^ 3]
  | .mxGer m acc ga gb ka kb w s set =>
    assemble 2 0x02 m (acc.val * 2 ^ 8 + ga.val * 2 ^ 4 + gb.val)
      [bit ka * 2 ^ 24 + bit kb * 2 ^ 23 + semUseBits w s + bit set * 2 ^ 3]
  | .mxBatch m acc ga gb n ka kb set =>
    assemble 2 0x03 m (acc.val * 2 ^ 8 + ga.val * 2 ^ 4 + gb.val)
      [n.val * 2 ^ 21 + bit ka * 2 ^ 20 + bit kb * 2 ^ 19 + bit set * 2 ^ 18]
  | .mxZero m acc => assemble 2 0x04 m (acc.val * 2 ^ 8) []
  | .mxLdacc m acc g kp add z =>
    assemble 2 0x05 m (acc.val * 2 ^ 8 + g.val * 2 ^ 4) [bit kp * 2 ^ 20 + bit add * 2 ^ 19 + bit z * 2 ^ 18]
  | .mxStacc m acc g rm ov z =>
    assemble 2 0x06 m (acc.val * 2 ^ 8 + g.val * 2 ^ 4) [rmCode rm * 2 ^ 22 + ovCode ov * 2 ^ 21 + bit z * 2 ^ 18]
  | .mxAccadd m d s int neg =>
    assemble 2 0x07 m (d.val * 2 ^ 8) [s.val * 2 ^ 15 + bit int * 2 ^ 14 + bit neg * 2 ^ 13]
  | .mxAccmov m d s swap => assemble 2 0x08 m (d.val * 2 ^ 8) [s.val * 2 ^ 15 + bit swap * 2 ^ 14]
  | .mxCseq m imm => assemble 2 0x09 m (fld imm.toNat 0 16) [fld imm.toNat 16 16]
  | .mxRing m td g => assemble 2 0x0A m (tdBits td.val g.val 0 0) []
  | .mxPop m g => assemble 2 0x0B m (tdBits 0 g.val 0 0) []
  | .mxFmt m g f => assemble 2 0x0C m (tdBits 0 g.val 0 (tfmtCode f)) []
  | .mxScale m g (some v) => assemble 2 0x0D m (tdBits 0 g.val 0 0) [2 ^ 24 + v.toNat]
  | .mxScale m g none => assemble 2 0x0D m (tdBits 0 g.val 0 0) [0]
  | .mxTrn m acc => assemble 2 0x0E m (acc.val * 2 ^ 8) []
  | .mxMode m n za zb => assemble 2 0x0F m (bit n * 2 ^ 17 + bit za * 2 ^ 16 + bit zb * 2 ^ 15) []
  | .mxSemWait m s v => assemble 2 0x10 m (s.val * 2 ^ 13 + v.toNat) []
  | .mxSemSig m s v => assemble 2 0x10 m (s.val * 2 ^ 13 + 2 ^ 11 + v.toNat) []
  | .mxStat m c => assemble 2 0x11 m (bit c * 2 ^ 17) []
  | _ => []

/-- The words of the V words (08). -/
def encodeV : Instr → List Nat
  | .vadd m ctl ty rm d a b =>
    assemble 3 0x00 m (rrr (vdstCode d) (vsrcCode a) (vsrcCode b)) [vpay ctl.k ctl.zm (vtyCode ty) false (rmCode rm) 0 0]
  | .vsub m ctl ty rm d a b =>
    assemble 3 0x01 m (rrr (vdstCode d) (vsrcCode a) (vsrcCode b)) [vpay ctl.k ctl.zm (vtyCode ty) false (rmCode rm) 0 0]
  | .vmul m ctl ty rm d a b =>
    assemble 3 0x02 m (rrr (vdstCode d) (vsrcCode a) (vsrcCode b)) [vpay ctl.k ctl.zm (vtyCode ty) false (rmCode rm) 0 0]
  | .vfma m ctl ty rm np nc d a b c =>
    assemble 3 0x03 m (rrr (vdstCode d) (vsrcCode a) (vsrcCode b))
      [vpay ctl.k ctl.zm (vtyCode ty) false (rmCode rm) (vsrcCode c) (bit np * 2 + bit nc)]
  | .vmin m ctl ty z d a b =>
    assemble 3 0x04 m (rrr (vdstCode d) (vsrcCode a) (vsrcCode b)) [vpay ctl.k ctl.zm (vtyCode ty) z 0 0 0]
  | .vmax m ctl ty z d a b =>
    assemble 3 0x05 m (rrr (vdstCode d) (vsrcCode a) (vsrcCode b)) [vpay ctl.k ctl.zm (vtyCode ty) z 0 0 0]
  | .vabs m ctl ty z d a => assemble 3 0x06 m (rrr (vdstCode d) (vsrcCode a) 0) [vpay ctl.k ctl.zm (vtyCode ty) z 0 0 0]
  | .vneg m ctl ty z d a => assemble 3 0x07 m (rrr (vdstCode d) (vsrcCode a) 0) [vpay ctl.k ctl.zm (vtyCode ty) z 0 0 0]
  | .viadd m ctl ty z sat d a b =>
    assemble 3 0x08 m (rrr (vdstCode d) (vsrcCode a) (vsrcCode b)) [vpay ctl.k ctl.zm (vtyCode ty) z 0 0 (bit sat)]
  | .visub m ctl ty z sat d a b =>
    assemble 3 0x09 m (rrr (vdstCode d) (vsrcCode a) (vsrcCode b)) [vpay ctl.k ctl.zm (vtyCode ty) z 0 0 (bit sat)]
  | .vimul m ctl ty z sat hi d a b =>
    assemble 3 0x0A m (rrr (vdstCode d) (vsrcCode a) (vsrcCode b))
      [vpay ctl.k ctl.zm (vtyCode ty) z 0 0 (bit hi * 2 + bit sat)]
  | .vand m ctl ty d a b =>
    assemble 3 0x0B m (rrr (vdstCode d) (vsrcCode a) (vsrcCode b)) [vpay ctl.k ctl.zm (vtyCode ty) false 0 0 0]
  | .vor m ctl ty d a b =>
    assemble 3 0x0C m (rrr (vdstCode d) (vsrcCode a) (vsrcCode b)) [vpay ctl.k ctl.zm (vtyCode ty) false 0 0 0]
  | .vxor m ctl ty d a b =>
    assemble 3 0x0D m (rrr (vdstCode d) (vsrcCode a) (vsrcCode b)) [vpay ctl.k ctl.zm (vtyCode ty) false 0 0 0]
  | .vshl m ctl ty d a b =>
    assemble 3 0x0E m (rrr (vdstCode d) (vsrcCode a) (vsrcCode b)) [vpay ctl.k ctl.zm (vtyCode ty) false 0 0 0]
  | .vshr m ctl ty z d a b =>
    assemble 3 0x0F m (rrr (vdstCode d) (vsrcCode a) (vsrcCode b)) [vpay ctl.k ctl.zm (vtyCode ty) z 0 0 0]
  | .vcmp m k ty z cc kd a b =>
    assemble 3 0x10 m (rrr kd.val (vsrcCode a) (vsrcCode b)) [vpay k false (vtyCode ty) z 0 0 (vcondCode cc)]
  | .vcmpq m k ty z all cc kd a b =>
    assemble 3 0x11 m (rrr kd.val (vsrcCode a) (vsrcCode b)) [vpay k false (vtyCode ty) z 0 0 (bit all * 2 ^ 4 + vcondCode cc)]
  | .vsel m k ty d a b =>
    assemble 3 0x12 m (rrr (vdstCode d) (vsrcCode a) (vsrcCode b)) [vpay k false (vtyCode ty) false 0 0 0]
  | .vrsum m k ty z rm q sat d a =>
    assemble 3 0x13 m (rrr (vdstCode d) (vsrcCode a) 0) [vpay k false (vtyCode ty) z (rmCode rm) 0 (bit sat * 2 + bit q)]
  | .vrmax m k ty z q d a =>
    assemble 3 0x14 m (rrr (vdstCode d) (vsrcCode a) 0) [vpay k false (vtyCode ty) z 0 0 (bit q)]
  | .vcvt m ctl dst src sz dz ov part rnd d a =>
    assemble 3 0x15 m (rrr (vdstCode d) (vsrcCode a) (vrndSrc rnd))
      [vpay ctl.k ctl.zm 0 sz (vrndCode rnd) (ovCode ov * 2 ^ 5 + bit dz * 2 ^ 4 + part.val * 2) (ctyCode dst * 2 ^ 4 + ctyCode src)]
  | .vqmax m ty zd a b => assemble 3 0x16 m (rrr zd.val (vsrcCode a) (vsrcCode b)) [vpay 0 false (vtyCode ty) false 0 0 0]
  | .vqcvt m ty rnd part zs d a b =>
    assemble 3 0x17 m (rrr (vdstCode d) (vsrcCode a) (vsrcCode b))
      [vpay 0 false (vtyCode ty) false (vrndCode rnd) (vrndSrc rnd) (part.val * 2 ^ 4 + zs.val)]
  | .vdq m ctl ty rm part zs d a b =>
    assemble 3 0x18 m (rrr (vdstCode d) (vsrcCode a) (vsrcCode b))
      [vpay ctl.k ctl.zm (vtyCode ty) false (rmCode rm) 0 (part.val * 2 ^ 4 + zs.val)]
  | .vperm m ctl ty d a b =>
    assemble 3 0x19 m (rrr (vdstCode d) (vsrcCode a) (vsrcCode b)) [vpay ctl.k ctl.zm (vtyCode ty) false 0 0 0]
  | .vshuf m ctl ty kind d a =>
    assemble 3 0x1A m (rrr (vdstCode d) (vsrcCode a) (shufCode kind).1) [vpay ctl.k ctl.zm (vtyCode ty) false 0 0 (shufCode kind).2]
  | .vrcpe m ctl ty d a => assemble 3 0x1B m (rrr (vdstCode d) (vsrcCode a) 0) [vpay ctl.k ctl.zm (vtyCode ty) false 0 0 0]
  | .vrsqe m ctl ty d a => assemble 3 0x1C m (rrr (vdstCode d) (vsrcCode a) 0) [vpay ctl.k ctl.zm (vtyCode ty) false 0 0 0]
  | .vpushc m k ty (.cb n) a => assemble 3 0x1D m (rrr n.val (vsrcCode a) 0) [vpay k false (vtyCode ty) false 0 0 0]
  | .vpushc m k ty (.q n fl) a => assemble 3 0x1D m (rrr (32 + n.val) (vsrcCode a) 0) [vpay k false (vtyCode ty) false 0 0 (bit fl)]
  | .vpopc m ty .full d cb => assemble 3 0x1E m (rrr (vdstCode d) cb.val 0) [vpay 0 false (vtyCode ty) false 0 0 0]
  | .vpopc m ty (.tail kE) d cb => assemble 3 0x1E m (rrr (vdstCode d) cb.val 0) [vpay 0 false (vtyCode ty) false 0 kE.val 1]
  | .vmov m form => vmovWords m form
  | .vbcast m xc d imm => assemble 3 0x20 m (ri (vdstCode d) xc imm) (immPayloads xc imm)
  | .vsetl m xc kd imm => assemble 3 0x21 m (ri kd.val xc imm) (immPayloads xc imm)
  | .vaccRd m acc d line col h vt rm ov =>
    assemble 3 0x22 m (acc.val * 2 ^ 8 + vdstCode d * 2 ^ 2)
      [line.val * 2 ^ 20 + bit col * 2 ^ 19 + h.val * 2 ^ 16 + acctyCode vt * 2 ^ 12 + rmCode rm * 2 ^ 9 + ovCode ov * 2 ^ 8]
  | .vaccWr m acc a line col h vt rm add =>
    assemble 3 0x23 m (acc.val * 2 ^ 8 + vsrcCode a * 2 ^ 2)
      [line.val * 2 ^ 20 + bit col * 2 ^ 19 + h.val * 2 ^ 16 + acctyCode vt * 2 ^ 12 + rmCode rm * 2 ^ 9 + bit add * 2 ^ 8]
  | .viota m ctl ty pfx d => assemble 3 0x24 m (rrr (vdstCode d) 0 0) [vpay ctl.k ctl.zm (vtyCode ty) false 0 0 (bit pfx)]
  | .vcnt m ty q d ka => assemble 3 0x25 m (rrr (vdstCode d) ka.val 0) [vpay 0 false (vtyCode ty) false 0 0 (bit q)]
  | .vpopq m ctl n d => assemble 3 0x26 m (rrr (vdstCode d) 0 0) [vpay ctl.k ctl.zm 0 false 0 0 n.val]
  | .vstat m c => assemble 3 0x27 m (bit c * 2 ^ 17) []
  | _ => []

/-- The words of the T words (11). -/
def encodeT : Instr → List Nat
  | .txPlan m p s =>
    assemble 4 0x00 m (p.val * 2 ^ 5) [bit s.auto * 2 ^ 24 + bit s.real * 2 ^ 23 + bit s.f64 * 2 ^ 22 + s.n.toNat]
  | .txFwd m p td => assemble 4 0x01 m (tformBits p.val (.image td)) []
  | .txFwdRing m p gi go => assemble 4 0x01 m (tformBits p.val (.ring gi go)) []
  | .txInv m p td => assemble 4 0x02 m (tformBits p.val (.image td)) []
  | .txInvRing m p gi go => assemble 4 0x02 m (tformBits p.val (.ring gi go)) []
  | .txStage m p f st inv => assemble 4 0x03 m (tformBits p.val f) [st.val * 2 ^ 20 + bit inv * 2 ^ 19]
  | .txTwid m (.image td) o pos q =>
    assemble 4 0x04 m (td.val * 2 ^ 12 + bit o * 2 ^ 3) [bit pos * 2 ^ 24 + q.toNat]
  | .txTwid m (.ring g) o pos q =>
    assemble 4 0x04 m (g.val * 2 ^ 8 + 2 ^ 4 + bit o * 2 ^ 3) [bit pos * 2 ^ 24 + q.toNat]
  | .txRfwd m p td => assemble 4 0x05 m (tformBits p.val (.image td)) []
  | .txRfwdRing m p gi go => assemble 4 0x05 m (tformBits p.val (.ring gi go)) []
  | .txRinv m p td => assemble 4 0x06 m (tformBits p.val (.image td)) []
  | .txRinvRing m p gi go => assemble 4 0x06 m (tformBits p.val (.ring gi go)) []
  | .txLeg m td g o d0 => assemble 4 0x07 m (tdBits td.val g.val 0 0) [o.toNat * 2 ^ 13 + d0.toNat]
  | .txScale m f (.pow2 e) rm => assemble 4 0x08 m (tformBits 0 f) [rmCode rm * 2 ^ 21 + e.toNat]
  | .txScale m f .dt rm => assemble 4 0x08 m (tformBits 0 f) [2 ^ 24 + rmCode rm * 2 ^ 21]
  | .txDigrev m p td => assemble 4 0x09 m (tformBits p.val (.image td)) []
  | .txDigrevRing m p gi go => assemble 4 0x09 m (tformBits p.val (.ring gi go)) []
  | .txRing m td g => assemble 4 0x0A m (tdBits td.val g.val 0 0) []
  | .txSemWait m s v => assemble 4 0x0B m (s.val * 2 ^ 13 + v.toNat) []
  | .txSemSig m s v => assemble 4 0x0B m (s.val * 2 ^ 13 + 2 ^ 11 + v.toNat) []
  | .txStat m c => assemble 4 0x0C m (bit c * 2 ^ 17) []
  | .txCplx m td g conj kp bc =>
    assemble 4 0x0D m (tdBits td.val g.val 0 (bit conj * 2 ^ 4 + bit kp * 2 ^ 3 + bit bc * 2 ^ 2)) []
  | _ => []

/-- The words of the F words (12). -/
def encodeF : Instr → List Nat
  | .fbLd m td h ds z acq =>
    assemble 5 0x00 m (fabBits td.val h (bit ds * 2 ^ 3 + bit z * 2 ^ 2 + bit acq)) (fabPayloads h 0)
  | .fbSt m td h rel => assemble 5 0x01 m (fabBits td.val h (bit rel * 2)) (fabPayloads h 0)
  | .fbAmo m td h nr z ord op ra rb =>
    assemble 5 0x02 m (fabBits td.val h (bit nr * 2 ^ 3 + bit z * 2 ^ 2 + ordCode ord))
      (fabPayloads h (origins ra rb + famoCode op * 2 ^ 11))
  | .fbGadd m td h f rel ra =>
    assemble 5 0x03 m (fabBits td.val h (gfmtCode f * 2 ^ 2 + bit rel * 2)) (fabPayloads h (ra.val * 2 ^ 20))
  | .fbFenceAcq m s => assemble 5 0x04 m (scopeCode s * 2 ^ 8 + 0 * 2 ^ 2) []
  | .fbFenceRel m s => assemble 5 0x04 m (scopeCode s * 2 ^ 8 + 1 * 2 ^ 2) []
  | .fbFenceAr m s => assemble 5 0x04 m (scopeCode s * 2 ^ 8 + 2 * 2 ^ 2) []
  | .fbFenceSc m s => assemble 5 0x04 m (scopeCode s * 2 ^ 8 + 3 * 2 ^ 2) []
  | .fbMcst m td h ack rel ap =>
    assemble 5 0x05 m (fabBits td.val h (bit ack * 2 ^ 3 + bit rel * 2)) (fabPayloads h (ap.val * 2 ^ 9))
  | .fbMcld m td h red q z ap =>
    assemble 5 0x06 m (fabBits td.val h (redCode red * 2 ^ 2 + bit q * 2 + bit z)) (fabPayloads h (ap.val * 2 ^ 9))
  | .fbSub m td n l rp => assemble 5 0x07 m (tdBits td.val n.val 0 (subLevelCode l)) [rp.val * 2 ^ 20]
  | .fbUnsub m n => assemble 5 0x08 m (tdBits 0 n.val 0 0) []
  | .fbSflush m => assemble 5 0x09 m 0 []
  | .fbColl m fc s xc oa slot =>
    assemble 5 0x0A m (fc.val * 2 ^ 12 + scopeCode s * 2 ^ 8 + xc.val)
      ([origins oa 0 + slotBits slot, 0, 0].take xc.val)
  | .fbCwait m fc v => assemble 5 0x0B m (fc.val * 2 ^ 14 + v.toNat) []
  | .fbTimeNow m => assemble 5 0x0C m 0 []
  | .fbTimeWin m => assemble 5 0x0C m (1 * 2 ^ 16) []
  | .fbTimeUntil m n => assemble 5 0x0C m (2 * 2 ^ 16 + n.toNat) []
  | .fbStat m c => assemble 5 0x0D m (bit c * 2 ^ 17) []
  | _ => []

/-- The words of a well-formed instruction, from the encoding tables of 02 and the entries; none for an event. -/
def encode (i : Instr) : List Nat :=
  match i.head with
  | none => []
  | some h =>
    match h.eng with
    | .S => encodeS i
    | .A => encodeA i
    | .M => encodeM i
    | .V => encodeV i
    | .T => encodeT i
    | .F => encodeF i

end Sys2Proof
end

