-- ==== Sys2Proof/Config.lean ====
section
/-!
DEFINITION. What an implementation fixes and the manual leaves open: the free values, the uninterpreted cryptographic
functions, and the sizes the manual states for the part (01 R15, R20, R25). A free value has no body: nothing can be
proved of it (log entry 5).
-/

namespace Sys2Proof

/-- A free 64-bit value, read at the counter `State.freeCtr` (log entry 5). -/
opaque Config.freeValue : Nat → BitVec 64

/-- A free choice among `n` things: a number whose remainder by `n` is used (log entry 5). -/
opaque Config.freeChoice : Nat → Nat

/-- The band scale that a VX4 copy takes for a band of its destination that its source's window has not (09 R313 states none): one value for
a source record, its origin and a band, so that no timing enters (01 R34; log entry 5). -/
opaque Config.freeScale : List (BitVec 64) → List Int → Nat → BitVec 16

/-- SHA-512 of a byte string (15 R501, R502): the manual names the function and does not define it. -/
opaque Config.sha512 : List Byte → List Byte

/-- Whether a firmware image's signature verifies under the fused root key (15 R501). -/
opaque Config.signatureOk : List Byte → Bool

/-- The attestation signature of a report under the device identity key (15 R502). -/
opaque Config.attestSign : List Byte → List Byte

/-- The security version in a firmware image's header (15 R501): the manual does not lay the header out. -/
opaque Config.imageSvn : List Byte → Nat

/-- Whether the fabric routes a package number by routing tables (12 R400, 13 R443): the manual does not lay the tables out. -/
opaque Config.routed : List Byte → Nat → Bool

/-- The outputs by which loaded tables let a packet leave a die, for a destination's 16-bit address (13 R443): 0 to 3 the mesh, 4 Omuno, 6 the
Erg channel of the destination's die. -/
opaque Config.routes : List Byte → Nat → Nat → List Nat

/-- Whether by loaded tables a packet that comes in at one die's Omuno port may leave by another's (13 R450). -/
opaque Config.transit : List Byte → Nat → Nat → Bool

/-- Flit buffers that the end of a link advertises beyond four, by 4·vc + class (13 R444: the counts are open). -/
opaque Config.rxBuffers : Nat → Nat

/-- The filter of the offset from the master (13 R447): the filtered offset in ns, of the one before and the offset measured. -/
opaque Config.ptpFilter : Nat → Int → Nat

/-- Cores of a package at full count (01 R15). -/
abbrev Config.cores : Nat := 512

/-- Dies of a package (01 R15). -/
abbrev Config.dies : Nat := 16

end Sys2Proof
end

