-- ==== Sys2Proof/Machine/Sparse.lean ====
section
/-!
DEFINITION. Sparse tables: a list of key and value pairs with strictly rising keys and no entry equal to the default, so that
equal tables are equal lists. Memory, register files and the tables of the machine are held this way.
-/

namespace Sys2Proof.Machine

/-- A table from natural numbers to values; what an unlisted key holds is given at each access. -/
abbrev Sparse (α : Type) := List (Nat × α)

/-- The value at key `i`, or the default `d`. -/
def spGet {α : Type} (d : α) : Sparse α → Nat → α
  | [], _ => d
  | (k, v) :: t, i => if k = i then v else spGet d t i

/-- The table without key `i`. -/
def spErase {α : Type} : Sparse α → Nat → Sparse α
  | [], _ => []
  | (k, v) :: t, i => if k = i then spErase t i else (k, v) :: spErase t i

/-- A new key placed before the first greater one. -/
def spIns {α : Type} : Sparse α → Nat → α → Sparse α
  | [], i, x => [(i, x)]
  | (k, v) :: t, i, x => if i < k then (i, x) :: (k, v) :: t else (k, v) :: spIns t i x

/-- The table with `x` at key `i`; a default value is not listed. -/
def spPut {α : Type} [DecidableEq α] (d : α) (m : Sparse α) (i : Nat) (x : α) : Sparse α :=
  if x = d then spErase m i else spIns (spErase m i) i x

/-- Every key is above `lo`, the keys rise strictly and no entry is the default. -/
def spWfFrom {α : Type} [DecidableEq α] (d : α) : Option Nat → Sparse α → Bool
  | _, [] => true
  | lo, (k, v) :: t => (match lo with | some l => l < k | none => true) && v != d && spWfFrom d (some k) t

/-- The canonical form of a table. -/
def spWf {α : Type} [DecidableEq α] (d : α) (m : Sparse α) : Bool := spWfFrom d none m

/-- `n` consecutive values from key `i`. -/
def spGetN {α : Type} (d : α) (m : Sparse α) (i : Nat) : Nat → List α
  | 0 => []
  | n + 1 => spGet d m i :: spGetN d m (i + 1) n

/-- Consecutive values put from key `i`. -/
def spPutN {α : Type} [DecidableEq α] (d : α) (m : Sparse α) (i : Nat) : List α → Sparse α
  | [] => m
  | x :: xs => spPutN d (spPut d m i x) (i + 1) xs

end Sys2Proof.Machine
end

