-- ==== Sys2Proof/Machine/Bits.lean ====
section
/-!
DEFINITION. Bit fields, sign extension, byte order (00 R6: little-endian) and small list helpers.
-/

namespace Sys2Proof.Machine

/-- Bytes of `x`, least significant first. -/
def leBytes (n x : Nat) : List Byte :=
  match n with
  | 0 => []
  | n + 1 => BitVec.ofNat 8 x :: leBytes n (x / 256)

/-- The number that bytes hold, least significant first. -/
def ofLe : List Byte → Nat
  | [] => 0
  | b :: bs => b.toNat + 256 * ofLe bs

/-- The field `[hi:lo]` of `x` (00 R13). -/
def bits (x hi lo : Nat) : Nat := x / 2 ^ lo % 2 ^ (hi + 1 - lo)

/-- One bit of `x`. -/
def bitAt (x i : Nat) : Bool := x / 2 ^ i % 2 == 1

/-- The signed value of the low `n` bits of `x` (two's complement). -/
def signedOf (n x : Nat) : Int :=
  let y := x % 2 ^ n
  if n = 0 then 0 else if y < 2 ^ (n - 1) then (y : Int) else (y : Int) - (2 ^ n : Nat)

/-- The low `n` bits of an integer as a natural number. -/
def wrapTo (n : Nat) (x : Int) : Nat := (x % ((2 ^ n : Nat) : Int)).toNat

/-- Widening from `n` bits to 64, signed (00 R13). -/
def sext64 (n x : Nat) : Reg64 := BitVec.ofInt 64 (signedOf n x)

/-- Widening from `n` bits to 64 with zeros (00 R13). -/
def zext64 (n x : Nat) : Reg64 := BitVec.ofNat 64 (x % 2 ^ n)

/-- Widening by a flag. -/
def ext64 (z : Bool) (n x : Nat) : Reg64 := if z then zext64 n x else sext64 n x

/-- `⌈a / b⌉`. -/
def ceilDiv (a b : Nat) : Nat := if b = 0 then 0 else (a + b - 1) / b

/-- The largest `k` with `2^k ≤ x`; 0 for 0. -/
def log2 (x : Nat) : Nat := Nat.log2 x

/-- The list with element `i` replaced. -/
def listSet {α : Type} : List α → Nat → α → List α
  | [], _, _ => []
  | _ :: t, 0, x => x :: t
  | y :: t, i + 1, x => y :: listSet t i x

/-- Whether two runs, each a first number and a length, share a number. -/
def meets (x y : Nat × Nat) : Bool := x.1 < y.1 + y.2 && y.1 < x.1 + x.2

/-- The natural numbers from `a`, `n` of them. -/
def natsFrom (a : Nat) : Nat → List Nat
  | 0 => []
  | n + 1 => a :: natsFrom (a + 1) n

/-- The first `n` natural numbers. -/
def upTo (n : Nat) : List Nat := natsFrom 0 n

/-- Removal of every element equal to `x`. -/
def without {α : Type} [DecidableEq α] (x : α) (l : List α) : List α := l.filter (fun y => decide (y ≠ x))

/-- A list cut into pieces of `n` elements; `fuel` bounds the pieces. -/
def chunksOf {α : Type} (n : Nat) : Nat → List α → List (List α)
  | 0, _ => []
  | _ + 1, [] => []
  | fuel + 1, l => l.take n :: chunksOf n fuel (l.drop n)

/-- Padding with `x` to `n` elements. -/
def padTo {α : Type} (n : Nat) (x : α) (l : List α) : List α := l ++ List.replicate (n - l.length) x

/-- An element put before the first one that `f` does not place below it. -/
def insOn {α : Type} (f : α → Nat) (x : α) : List α → List α
  | [] => [x]
  | y :: t => if f x ≤ f y then x :: y :: t else y :: insOn f x t

/-- A list in rising order of `f`. -/
def sortOn {α : Type} (f : α → Nat) (l : List α) : List α := l.foldr (insOn f) []

end Sys2Proof.Machine
end

