-- ==== Sys2Proof/Machine/CoreState.lean ====
section
/-!
DEFINITION. The state of one core: everything a context bank holds of one resident launch (05 R164; 02 R61, 04 R129, 08 R264,
10 R339, 11 R367, 12 R394, 09 R301 to R320), and what the core holds beside its banks (06 R191, 07 R225).
-/

namespace Sys2Proof.Machine

/-- A byte's place: a byte of an SP0 share (06 R184), or a physical address (06 R189). -/
inductive Place where
  | sp0 (l : Loc) (off : Nat)
  | pa (n : Nat)
  deriving DecidableEq, Repr

/-- A run of `len` bytes at a place, with the VIRT address it was named by, if any (for the Plat check, 07 R227). -/
structure Rng where
  pl  : Place
  len : Nat
  va  : Option Nat := none
  /-- size of the page that a core's translation used, or 0 -/
  page : Nat := 0
  deriving DecidableEq, Repr

/-- Fatal faults (05 R174, 06 R221, 07 R262, 09 R337, 10 R365, 11 R392, 12 R426, 14 R480). -/
inductive FCode where
  | illegal | reserved | resource | stack | semCeil | trap | deadlock | stage | barrier | page | subsLost
  | addr | bounds | prot | pte | tdesc | stream | home
  | plat | owner | readonly | convey | align | atomic
  | ring | cshape | peer | sift | calign | uncorr
  | mshape | mbind | mfmt | cbtype | tplan | tshape | tfmt | tbind
  | fremote | flink | fshape | aperture | subs | fcount
  | collblk | collshape | collmatch | colltime | colldata | collpeer
  deriving DecidableEq, Repr

/-! ## Words in flight -/

/-- The data queues and the condition queue (04 R101). -/
inductive QName where
  | ds | da | dv | dt | cq
  deriving DecidableEq, Repr

/-- An entry of a queue: the walk position of its pusher, its value and whether it is visible (04 R102). -/
structure QEnt where
  walk : Nat
  val  : Reg64
  vis  : Bool
  deriving DecidableEq, Repr

/-- A compaction buffer or stream staging (08 R264, R291). -/
structure CBuf where
  ty    : VTy
  elems : List Nat
  deriving DecidableEq, Repr

/-- An effect of a word at its retirement (02 R42; 04 R100; 08 R268; 10 R343; 11 R369). -/
inductive Eff where
  | sem (n : Fin 32) (amt : Nat)
  | vis (q : QName) (walk : Nat)
  | csr (n : Nat) (v : Reg64)
  /-- for the ring as configured before a walk position (09 R310) -/
  | ringPop (g : Fin 16) (walk : Nat)
  /-- the slot of a count becomes FULL -/
  | ringFull (g : Fin 16) (walk slot : Nat)
  /-- a qword of the record table (06 R207) -/
  | td (i : Nat) (v : Reg64)
  /-- results of S (04 R100) and of V (08 R268) -/
  | sreg (n : SReg) (v : Reg64)
  | vreg (n : Fin 32) (x : VecReg)
  | kreg (n : Fin 8) (x : Reg256)
  | zreg (n : Fin 8) (x : Reg256)
  /-- a compaction buffer, a stream's staging (08 R291, R292) -/
  | cbuf (n : Nat) (c : CBuf)
  | staging (q : Nat) (c : CBuf)
  /-- a vector for a write stream: its drain, and the accesses that come before it (06 R213; 07 R247) -/
  | vector (q : Fin 8) (id : Nat) (x : VecReg) (after : List Nat)
  /-- a cell of an accumulator slot, and a slot's SAT bit (08 R294) -/
  | cell (slot k : Nat) (v : AccCell)
  | satBit (slot : Nat)
  /-- flags raised by M, V or T (08 R268; 10 R343; 11 R369) -/
  | flags (e : Engine) (f : BitVec 6)
  /-- the status of M, V or T put in the word's entry of `ds`, and cleared (08 R296; 10 R363; 11 R391) -/
  | stat (e : Engine) (clr : Bool) (walk : Nat)
  /-- T's started word is done with its extent (11 R370) -/
  | txDone
  deriving DecidableEq, Repr

/-- A word issued and not retired: its walk position and index, its signals, what it still waits for, its effects at
retirement, and the A registers it has still to write. -/
structure Ret where
  walk   : Nat
  pc     : Nat
  sp     : Nat
  sn     : Nat
  waits  : List Nat
  effs   : List Eff
  /-- the operand codes of the engine's registers that the word still has to write (04 R100) -/
  writes : List Nat
  deriving DecidableEq, Repr

/-- An entry of a branch outcome queue (02 R56, R57): a bit or a count, and the six indices of an `ITER`. -/
structure BoqEnt where
  val : Reg64
  idx : List Reg64
  deriving DecidableEq, Repr

/-- What one engine holds of its walk (02 R51, R57, R59, R61; 04 R111, R115; 09 R309). -/
structure EngSt where
  pc     : Nat := 0
  walk   : Nat := 0
  stack  : List Nat := []
  lc     : Sparse Reg64 := []
  start  : Sparse Nat := []
  sten   : BitVec 8 := 0xFF
  boq    : List BoqEnt := []
  /-- tokens in before(E) → E -/
  tokPrev : Nat := 0
  /-- tokens in after(E) → E -/
  tokNext : Nat := 0
  rets   : List Ret := []
  /-- signals of completed asynchronous words that wait for room (02 R44): to before(E) and to after(E) -/
  pend   : List (Nat × Nat) := []
  /-- rotations passed, per loop counter (09 R309) -/
  rot    : Sparse Nat := []
  /-- `LOOP` words passed, per loop counter (04 R113) -/
  loops  : Sparse Nat := []
  deriving DecidableEq, Repr

/-- The six engines. -/
structure Engs where
  S : EngSt := {}
  A : EngSt := {}
  M : EngSt := {}
  V : EngSt := {}
  T : EngSt := {}
  F : EngSt := {}
  deriving DecidableEq, Repr

/-- The queues of a core (04 R101). -/
structure Queues where
  ds : List QEnt := []
  da : List QEnt := []
  dv : List QEnt := []
  dt : List QEnt := []
  cq : List QEnt := []
  deriving DecidableEq, Repr

/-- Sequencer state (04 R99, R117, R131; 05 R148, R155, R158; 02 R53). -/
structure SeqSt where
  s      : Sparse Reg64 := []
  sem    : Sparse Nat := []
  wdog   : Nat := 0
  slipw  : Nat := 1024
  t0     : Nat := 0
  iterno : Option Nat := none
  /-- arrivals counted per barrier level (05 R155) -/
  arrive : Sparse Nat := []
  /-- the level of the Cairn the core has arrived at and not passed -/
  cairn  : Option Level := none
  /-- an `ITER` request with the walker or the hand-over queue -/
  iterReq : Bool := false
  /-- the answer to the request: an iteration with its indices, or none remaining -/
  iterAns : Option (Option (Nat × List Nat)) := none
  /-- stage number and placement index (05 R142) -/
  stage  : Nat := 0
  place  : Nat := 0
  /-- of a saved bank: Wmin as it was, which its six walk positions are saved less (02 R61) -/
  wbase  : Nat := 0
  /-- of a saved bank: its save area could not be written, and the bank is restored as it went (05 R168) -/
  kept   : Bool := false
  deriving DecidableEq, Repr

/-! ## Access engine -/

/-- What an outstanding access does when it performs. -/
inductive AccOp where
  | ld (dst : LdDst) (z : Bool)
  | st (data : List Byte)
  | amo (w8 : Bool) (op : AmoOp) (z nr : Bool) (d : Fin 32) (x : Reg64)
  | cas (w8 : Bool) (z : Bool) (d : Fin 32) (exp new : Reg64)
  | gadd (fmt : GFmt) (x : Reg64)
  | grd (fmt : GFmt) (rm : RMode) (d ra : Fin 32)
  | gclr (anchor : Reg64)
  | wakea (cnt : Reg64)
  deriving DecidableEq, Repr

/-- An outstanding access (06 R181): its bytes, how it performs, for an atomic short of the home the bytes its unit has read
(07 R238), and the accesses that fences put before it (07 R247). -/
structure Acc where
  id    : Nat
  walk  : Nat
  pc    : Nat
  rngs  : List Rng
  op    : AccOp
  scope : Scope
  old   : Option (List Byte)
  after : List Nat
  deriving DecidableEq, Repr

/-- A vector that A holds for a stream: the identifier of its drain and the accesses that come before the drain (07 R247). -/
structure HeldVec where
  id    : Nat
  x     : VecReg
  after : List Nat
  deriving DecidableEq, Repr

/-- A stream binding (06 R211 to R216): the walk position and the index of its `QBIND`, the captured record, origin, direction, the vectors held by A,
the position in vectors fetched or drained and in vectors pushed or popped by V, and the accesses that
come before its fetches (07 R247, R255). -/
structure Stream where
  walk : Nat
  pc   : Nat
  tdr  : List Reg64
  org  : List Int
  wr   : Bool
  held : List HeldVec
  done : Nat
  used : Nat
  after : List Nat
  deriving DecidableEq, Repr

/-- A word of A parked in `WAITA` or `PLAT.wait` (07 R232, R242): its identifier, register, the place of the granule's first byte or
the VIRT address, and the Datum time of its timeout. -/
inductive Park where
  | waita (id : Nat) (d : Fin 32) (g : Place) (till : Option Nat)
  | plat (id : Nat) (d : Fin 32) (va : Nat) (till : Option Nat)
  deriving DecidableEq, Repr

/-- A recorded page fault (05 R169): lowest faulting address, whether a write, the agent (15 R494) and whether the core
has drained for it. -/
structure PageFault where
  va      : Nat
  write   : Bool
  agent   : Nat
  drained : Bool
  queued  : Bool
  deriving DecidableEq, Repr

/-- Access engine state (06 R180, R202, R211, R219). -/
structure AccessSt where
  a      : Sparse Reg64 := []
  out    : List Acc := []
  /-- accesses that later writes, later accesses, and later copies and streams must wait for (07 R247) -/
  relBar : List Nat := []
  acqBar : List Nat := []
  xpBar  : List Nat := []
  flags  : BitVec 6 := 0
  conf   : Bool := false
  misses : Nat := 0
  td     : Sparse Reg64 := []
  q      : List (Nat × Stream) := []
  park   : Option Park := none
  pf     : Option PageFault := none
  sp0    : Sparse Byte := []
  /-- uncorrectable bytes of the share (15 R500) -/
  bad    : List Nat := []
  deriving DecidableEq, Repr

/-! ## Matrix engine -/

/-- A binding of a ring for M or T (10 R345, R349; 11 R388). -/
structure RBind where
  tdr   : List Reg64
  scale : Option (BitVec 16) := none
  deriving DecidableEq, Repr

/-- Where an operand of M lies: nowhere (an idle ring, 04 R116), a buffer or a reserved slot at a base, or the ring's head slot. -/
inductive OpSrc where
  | idle
  | buf (base : Nat)
  | head
  deriving DecidableEq, Repr

/-- A ring operand of an M word as the word found it at issue (10 R342, R345, R349). -/
structure Opnd where
  g     : Fin 16
  tdr   : List Reg64
  scale : Option (BitVec 16)
  src   : OpSrc
  deriving DecidableEq, Repr

/-- An M word in the pass window (10 R341) with its ring operands; a word that binds a ring holds the new binding as its first operand. -/
structure WinEnt where
  instr : Instr
  walk  : Nat
  pc    : Nat
  /-- passes of an `MX.BATCH` already run -/
  done  : Nat
  opA   : Option Opnd
  opB   : Option Opnd
  deriving DecidableEq, Repr

/-- Matrix engine state (10 R339). -/
structure MatrixSt where
  acc   : Sparse AccCell := []
  sat   : Sparse Bool := []
  rows  : Nat := 32
  cols  : Nat := 32
  /-- the grant that the CSR shows, loaded at retirement (10 R350) -/
  shown : Reg64 := 0x2020
  cseq  : BitVec 32 := 0
  negp  : Bool := false
  za    : Bool := false
  zb    : Bool := false
  bind  : List (Nat × RBind) := []
  win   : List WinEnt := []
  /-- the started word and whether one of its passes is under way (10 R342, R344; 10 R354) -/
  run   : Option WinEnt := none
  mid   : Bool := false
  /-- a pass of an `MX.BATCH` has finished and has still to pop its slots (10 R354; 09 R306) -/
  owed  : Bool := false
  /-- the flags that the started word has raised: they reach the status at its retirement (10 R343) -/
  raised : BitVec 6 := 0
  flags : BitVec 6 := 0
  deriving DecidableEq, Repr

/-! ## Vector engine -/

/-- Vector engine state (08 R264). `k0` is not held: it reads all ones. -/
structure VectorSt where
  v     : Sparse VecReg := []
  k     : Sparse Reg256 := []
  z     : Sparse Reg256 := []
  cb    : List (Nat × CBuf) := []
  stage : List (Nat × CBuf) := []
  flags : BitVec 6 := 0
  deriving DecidableEq, Repr

/-! ## Transform engine -/

/-- A plan (11 R372, R373). -/
structure Plan where
  real  : Bool
  f64   : Bool
  n     : Nat
  radix : List Nat
  deriving DecidableEq, Repr

/-- What a started T word does up to its next progress point: the stage it is in, how many elements it writes, and their bytes in the
share (11 R367, R371). -/
structure TStep where
  stage  : Nat
  elems  : Nat
  writes : List (Nat × List Byte)
  deriving DecidableEq, Repr

/-- A started T word (11 R369 to R371): its walk position, the byte ranges of the share that it holds, the stage it has reached and the
elements it has written, and what it has still to do. -/
structure TWork where
  walk  : Nat
  ext   : List (Nat × Nat)
  stage : Nat
  elem  : Nat
  steps : List TStep
  deriving DecidableEq, Repr

/-- Transform engine state (11 R367). -/
structure TransSt where
  plans : List (Nat × Plan) := []
  bind  : List (Nat × RBind) := []
  /-- the started word, held to its retirement -/
  work  : Option TWork := none
  flags : BitVec 6 := 0
  deriving DecidableEq, Repr

/-! ## Fabric engine -/

/-- A target A has formed (12 R396): the word, the captured record and origin, the register operands, and the ranges of each part of the
window that has a home; a multicast target keeps aperture offsets and lengths instead. -/
structure Target where
  walk  : Nat
  pc    : Nat
  tdr   : List Reg64
  org   : List Int
  ra    : Reg64
  rb    : Reg64
  elems : List (Nat × List Rng)
  offs  : List (Nat × Nat × Nat)
  members : List Nat
  deriving DecidableEq, Repr

/-- What a request of F does at its home (12 R403 to R412). -/
inductive FOp where
  | ld (rec : List Reg64) (org : List Int) (ds z : Bool)
  | st (data : List (Nat × List Byte))
  | amo (op : FAmoOp) (w8 nr z : Bool) (ra rb : Reg64)
  | gadd (fmt : GFmt) (x : Reg64)
  | mcst (data : List (Nat × List Byte)) (ack : Bool)
  | mcld (rec : List Reg64) (org : List Int) (red : Red) (q z : Bool)
  deriving DecidableEq, Repr

/-- The answer to a request: what was read or the old value, a failure cause of 12 R400, or what each member of an aperture gave. -/
inductive FAns where
  | ok (data : List (Nat × List Byte))
  | fail (cause : Nat)
  | members (l : List (Option (List (Nat × List Byte))))
  deriving DecidableEq, Repr

/-- An outstanding request of F (12 R394): where it acts, when it may be sent (R409), when it was sent (R407), the requests that
come before it (R405, R407), whether its parts on this package have performed, what has come back of each part, and its answer. -/
structure FReq where
  id     : Nat
  walk   : Nat
  pc     : Nat
  op     : FOp
  scope  : Scope
  cls    : FCls
  elems  : List (Nat × List Rng)
  offs   : List (Nat × Nat × Nat)
  members : List Nat
  slotAt : Option Nat
  /-- its packets have been handed to the links; its first flit has entered an Omuno port; packets of it whose first flit has not -/
  gone   : Bool
  sentAt : Option Nat
  rest   : Nat
  /-- the ends that its packets have left by (13 R442) -/
  via    : List Nat
  rel    : Bool
  /-- a release sent in windows: the window of its send (12 R408) -/
  win    : Option Nat
  after  : List Nat
  /-- a release: earlier writes, which in flush-marker mode have performed before its packet enters an Omuno port (13 R454, R456) -/
  before : List Nat
  near   : Bool
  got    : List (Nat × List (Option (List Byte)))
  ans    : Option FAns
  deriving DecidableEq, Repr

/-- States of a subscription slot (12 R413). -/
inductive SubSt where
  | pending | active | parked | broken | ended
  deriving DecidableEq, Repr

/-- A subscription slot that is not FREE (12 R413, R414). -/
structure Sub where
  st   : SubSt
  pub  : Loc
  off  : Nat
  base : Nat
  len  : Nat
  lvl  : SubLevel
  req  : Nat
  deriving DecidableEq, Repr

/-- A pending granule of a fan-out entry: its index in the range and the mask of its written bytes (12 R415). -/
structure Gran where
  idx  : Nat
  mask : Nat
  deriving DecidableEq, Repr

/-- A fan-out entry of a publisher (12 R394, R415). -/
structure Fan where
  sub  : Loc
  slot : Fin 16
  off  : Nat
  base : Nat
  len  : Nat
  lvl  : SubLevel
  /-- at most 8 -/
  pend : List Gran
  /-- granules that have left their buffer for a ninth, with the bytes they had then -/
  left : List (Gran × List Byte)
  deriving DecidableEq, Repr

/-- An entry of the drift log (12 R419). -/
structure Drift where
  mask : Nat
  slot : Fin 16
  gidx : Nat
  data : List Byte
  deriving DecidableEq, Repr

/-- Fabric engine state (12 R394, R424, R425). -/
structure FabSt where
  targets : List Target := []
  reqs    : List FReq := []
  /-- requests that later words of F, and later writes of F, wait for (12 R405, R407) -/
  acqBar  : List Nat := []
  relBar  : List Nat := []
  /-- a release fence has issued: later writes at PANEL or FABRIC scope are releases with it (12 R408) -/
  fenced  : Bool := false
  /-- the writes before that fence that have not performed -/
  fenceIds : List Nat := []
  fc      : Sparse (BitVec 16) := []
  subs    : List (Nat × Sub) := []
  fan     : List Fan := []
  drift   : List Drift := []
  fdrift  : Nat := 0
  flags   : BitVec 6 := 0
  mcfail  : Bool := false
  late    : Bool := false
  fmc     : Reg64 := 0
  deriving DecidableEq, Repr

/-! ## Caravan -/

/-- Slot states of a ring (09 R306). -/
inductive SlotSt where
  | empty | reserved | full
  deriving DecidableEq, Repr

/-- A configuration of a ring (09 R305, R306, R308, R309), made by the `CPRING` at a walk position. `head` and `tail` count pops and
reservations; a slot is the count modulo `slots`. -/
structure Ring where
  walk  : Nat
  modeR : Bool
  prod  : RingEnd
  cons  : RingEnd
  size  : Nat
  base  : Nat
  slots : Nat
  lc    : Fin 4
  j     : Fin 8
  b     : List Nat
  rot0  : Nat
  head  : Nat
  tail  : Nat
  st    : List SlotSt
  /-- in mode R, the walk positions of copies into a buffer, by the buffer's base, the latest first (09 R309) -/
  sent  : List (Nat × Nat) := []
  /-- the bytes of the share that a producer has still to publish, by slot (09 R307) -/
  todo  : Sparse (List (Nat × Nat)) := []
  /-- the producer channel: core and channel (09 R308) -/
  chan  : Option (Nat × Nat)
  deriving DecidableEq, Repr

/-- The plain side of a `SIFT` command. -/
inductive SiftPlain where
  | at (asp : Asp) (addr : Nat)
  | ring (g : Fin 16)
  deriving DecidableEq, Repr

/-- What a channel's command moves (09 R301, R311, R321, R326; 06 R210): records with their origins, rings, the step of a looping
copy, and the placed core of a peer ring. -/
inductive CmdKind where
  | tmov (tdr : List Reg64) (org : List Int) (st : Bool)
  | toRec (src dst : List Reg64) (os od : List Int)
  | toRing (src : List Reg64) (org step : List Int) (g : Fin 16) (peer : Option Loc) (sem : Option (Fin 32))
  | drain (src : List Reg64) (org step : List Int) (g : Fin 16)
  | siftEnc (pasp : Asp) (plain : Nat) (sasp : Asp) (map sec n : Nat)
  | siftDec (plain : SiftPlain) (sasp : Asp) (map sec n : Nat)
  | accmov (acc : Nat) (st : Bool) (asp : Asp) (addr : Nat)
  deriving DecidableEq, Repr

/-- A command on a channel: its word and signals, its iterations, the slot it has reserved or drains, and whether it is to
stop at its next boundary. -/
structure Cmd where
  id    : Nat
  walk  : Nat
  pc    : Nat
  kind  : CmdKind
  sp    : Nat
  sn    : Nat
  long  : Bool
  count : Nat
  iter  : Nat
  /-- bytes of the command's delivery order before the running iteration, and those of it that are published (09 R302, R303) -/
  before : Nat
  off   : Nat
  /-- the base of the slot or buffer of the running iteration, and the slot's count -/
  slot  : Option Nat
  slotN : Nat
  stop  : Bool
  /-- the buffer of a mode R ring that the command was issued for (09 R309) -/
  buf   : Option Nat
  /-- A's stage enables and rotation counts when the word issued, for a ring that it finds at a peer (04 R116, 09 R309) -/
  sten  : BitVec 8
  rot   : Sparse Nat
  /-- A's `LOOP` counts when the word issued (04 R113) -/
  loops : Sparse Nat
  /-- segments whose busy count this command holds (06 R195) -/
  busy  : List Nat
  /-- accesses that come before its reads (07 R247, R255) -/
  after : List Nat
  /-- sectors that a `SIFT.enc` has written (09 R325) -/
  sect  : Nat
  /-- blocks that decoder lanes have written ahead of the published ones (09 R327) -/
  fin   : List Nat
  /-- decoded blocks held in the spill buffer (09 R331) -/
  spill : List (Nat × List Byte)
  deriving DecidableEq, Repr

/-- A copy channel (09 R301, R303, R330). -/
structure Chan where
  cmds  : List Cmd := []
  cwp   : Reg64 := 0
  pf    : Option PageFault := none
  sched : Bool := false
  deriving DecidableEq, Repr

/-- An entry of the static copy schedule not yet entered in its channel (09 R319, R320). -/
structure SchedEnt where
  ch      : Fin 8
  ring    : Fin 16
  tdr     : List Reg64
  sem     : Option (Fin 32)
  release : Nat
  count   : Nat
  org     : List Int
  step    : List Int
  deriving DecidableEq, Repr

/-- Caravan state of a bank (09 R301 to R320, R334). -/
structure CaravanSt where
  ch     : List (Nat × Chan) := []
  rings  : List (Nat × Ring) := []
  sched  : List SchedEnt := []
  csched : BitVec 32 := 0
  deriving DecidableEq, Repr

/-! ## Banks and cores -/

/-- States of a context bank (05 R165). -/
inductive BankSt where
  | empty | loading | ready | run | halting | saving | faultwait
  deriving DecidableEq, Repr

/-- A rotation entry of a kernel header (04 R114, 05 R139). -/
structure Rot where
  nb : Nat
  nz : Nat
  ec : Nat
  deriving DecidableEq, Repr

/-- What a kernel header declares (05 R139). -/
structure Header where
  textlen : Nat := 0
  textoff : Nat := 0
  regs    : List Nat := [0, 0, 0, 0, 0, 0, 0, 0]
  acc     : Nat := 0
  rings   : Nat := 0
  stages  : Nat := 1
  ntd     : Nat := 0
  slipw   : Nat := 1024
  spad    : Nat := 0
  semmask : Nat := 0
  ceils   : List Nat := []
  tok     : Nat := 0
  rots    : List (Nat × Rot) := []
  tdoff   : Nat := 0
  isize   : Nat := 0
  lbase   : Nat := 0
  rooff   : Nat := 0
  rolen   : Nat := 0
  dataoff : Nat := 0
  datalen : Nat := 0
  deriving DecidableEq, Repr

/-- A fatal fault taken on a core: its code, word index and the detail of 15 R489. -/
structure Flt where
  code   : FCode
  pc     : Nat
  detail : Nat
  deriving DecidableEq, Repr

/-- A context bank (05 R164). -/
structure Bank where
  st     : BankSt := .empty
  launch : Option Nat := none
  ctx    : Nat := 0
  hdr    : Header := {}
  /-- the launch's words in the instruction store; unlisted words are 0 -/
  text   : Sparse Nat := []
  engs   : Engs := {}
  queues : Queues := {}
  seq    : SeqSt := {}
  acc    : AccessSt := {}
  mx     : MatrixSt := {}
  vec    : VectorSt := {}
  tx     : TransSt := {}
  fab    : FabSt := {}
  car    : CaravanSt := {}
  /-- the first fatal fault the core took in this part of the launch (05 R172) -/
  flt    : Option Flt := none
  /-- the bank leaves HALTING for SAVING (05 R168) -/
  evict  : Bool := false
  deriving DecidableEq, Repr

/-- A translation held by a TLB (06 R191): context, VIRT base, size, physical base, and the two write permissions. -/
structure TlbEnt where
  ctx  : Nat
  va   : Nat
  size : Nat
  pa   : Nat
  w    : Bool
  deriving DecidableEq, Repr

/-- An entry of a Plat cache (07 R224, R225). -/
structure PlatEnt where
  ctx : Nat
  idx : Nat
  p0  : Reg64
  p1  : Reg64
  deriving DecidableEq, Repr

/-- A core: two banks, the bank that runs, the TLB and the Plat cache (05 R164; 06 R191; 07 R225). -/
structure Core where
  b0   : Bank := {}
  b1   : Bank := {}
  run  : Option (Fin 2) := none
  tlb  : List TlbEnt := []
  plat : List PlatEnt := []
  deriving DecidableEq, Repr

end Sys2Proof.Machine
end

