-- ==== Sys2Proof/Machine/PackageState.lean ====
section
/-!
DEFINITION. The state of a package beside its cores: contexts and launch machinery (05, 15 R492), Traverse (14), the host
interface (15), links, routing and Datum time (13), and the Erg channels (14 R474 to R478).
-/

namespace Sys2Proof.Machine

/-! ## Contexts and memory watches -/

/-- A context as `CTX_CREATE` read it (15 R492). Windows are in units of 64 KiB. -/
structure Ctx where
  segPa   : Nat
  platPa  : Nat
  platN   : Nat
  sp1base : Nat
  sp1size : Nat
  sp2base : Nat
  sp2size : Nat
  apPa    : Nat
  fn      : Nat
  deriving DecidableEq, Repr

/-- A watch on a granule (07 R243): the parked core and the place of the granule. The list is oldest first. -/
structure Watch where
  l : Loc
  g : Place
  deriving DecidableEq, Repr

/-- An entry of the Plat watch list (07 R232), oldest first. -/
structure PlatWatch where
  l   : Loc
  ctx : Nat
  va  : Nat
  deriving DecidableEq, Repr

/-- A segment migration (06 R196): its command's function, the pairs as source, destination and size of their pages, and how many have been copied. -/
structure Migration where
  fn    : Fin 17
  ctx   : Nat
  seg   : Nat
  pairs : List (Nat × Nat × Nat)
  done  : Nat
  deriving DecidableEq, Repr

/-- A granule on its way from a publisher to a subscriber (12 R415): its slot, index in the range, mask and bytes. -/
structure Transit where
  pub    : Loc
  sub    : Loc
  launch : Nat
  slot   : Fin 16
  off    : Nat
  base   : Nat
  idx    : Nat
  mask   : Nat
  data   : List Byte
  deriving DecidableEq, Repr

/-! ## Launch machinery -/

/-- A packet's fields (05 R137, R176), read from its slot. -/
structure Packet256 where
  typ     : Nat
  pre     : Bool
  miss    : Bool
  notify  : Bool
  ctx     : Nat
  tag     : Nat
  deadline : Nat
  image   : Nat
  crec    : Nat
  save    : Nat
  dies    : Nat
  ncores  : Nat
  cairnTo : Nat
  nloops  : Nat
  slotlen : Nat
  counts  : List Nat
  params  : List Nat
  sched   : Nat
  nsched  : Nat
  /-- a reserved bit or byte is nonzero -/
  res     : Bool
  deriving DecidableEq, Repr

/-- States of a launch (05 R175). -/
inductive LaunchSt where
  | queued | dispatch | running | preempted | ending | done
  deriving DecidableEq, Repr

/-- The fault a launch's record names (05 R172). -/
structure FaultRec where
  code   : FCode
  core   : Nat
  pc     : Nat
  detail : Nat
  time   : Nat
  /-- word indices of the faulting core's six engines, in tag order -/
  pcs    : List Nat
  deriving DecidableEq, Repr

/-- A barrier (05 R154 to R156, R158): level, place, generation released, how long its present generation has waited since its
first arrival, and when its last member arrived. -/
structure Barrier where
  lvl   : Level
  place : Nat
  gen   : Nat
  age   : Option Nat
  last  : Nat
  deriving DecidableEq, Repr

/-- A launch (05 R135 to R175). `queue` is 64 for a Meridian node (05 R178). -/
structure Launch where
  id     : Nat
  st     : LaunchSt
  queue  : Nat
  slot   : Nat
  fn     : Nat
  pkt    : Packet256
  hdr    : Option Header
  step   : Nat
  node   : Option (Nat × Nat)
  /-- placed cores and the bank each has, in placement order -/
  cores  : List Loc
  walker : Nat
  /-- iterations waiting for each stage above 0, oldest first (05 R149) -/
  hand   : List (Nat × List Nat)
  /-- `ITER` requests waiting, in order of arrival -/
  iterQ  : List Loc
  ended  : List Nat
  iters  : Nat
  bars   : List Barrier
  fault  : Option FaultRec
  nfault : List Nat
  /-- cores that took a fault while it was PREEMPTED, with the Datum time (05 R172, R175) -/
  held   : List (Nat × Nat)
  status : Nat
  /-- program counters at the end, for the record (15 R488) -/
  pcs    : List Nat
  tdisp  : Nat
  tend   : Nat
  /-- banks written to the save area, by linear core index (05 R168) -/
  saved  : List (Nat × Bank)
  /-- a dispatch read's page fault that the host has still to answer (05 R506), and whether it read the static copy schedule -/
  pf     : Option PageFault
  pfSched : Bool
  /-- a pre-emption of the whole launch is under way (05 R166) -/
  preq   : Bool
  /-- the first three parts of the key of 05 R160 and the queue, as they stood at dispatch (05 R163) -/
  key    : List Nat
  deriving DecidableEq, Repr

/-- A launch queue (05 R135, 15 R487). -/
structure Queue where
  base   : Nat := 0
  lg     : Nat := 4
  en     : Bool := false
  vec    : Nat := 0
  fn     : Nat := 0
  widx   : Nat := 0
  ridx   : Nat := 0
  cidx   : Nat := 0
  /-- slot counts completed and not yet behind `cidx` -/
  done   : List Nat := []
  deriving DecidableEq, Repr

/-- A node of a graph (05 R177). -/
structure GNode where
  pkt   : Packet256
  succs : List Nat
  npred : Nat
  bumps : List (Nat × Nat)
  deriving DecidableEq, Repr

/-- A graph on Meridian (05 R176 to R179). `next n` steps of node `n` have been submitted and `fin n` completed. -/
structure Graph where
  id     : Nat
  queue  : Nat
  slot   : Nat
  fn     : Nat
  tag    : Nat
  ctx    : Nat
  crec   : Nat
  notify : Bool
  steps  : Nat
  period : Nat
  nodes  : List GNode
  subm   : List Nat
  fin    : List Nat
  /-- step, node and status of the node that stopped it -/
  stop   : Option (Nat × Nat × Nat)
  /-- the host has cancelled it -/
  cancel : Bool
  tdisp  : Nat
  deriving DecidableEq, Repr

/-! ## Traverse -/

/-- A post (14 R461 to R463): the member, its identifier, what its block says, and for a core of this package its launch, its counter, the signals
and index of its `FB.COLL`, when its packets may leave the package (12 R409), and whether the other packages have been told. -/
structure Post where
  who    : Nat
  pid    : Nat
  blk    : CollBlock
  own    : Bool
  launch : Nat
  fc     : Fin 16
  sp     : Nat
  sn     : Nat
  pc     : Nat
  scope  : Scope
  slotAt : Option Nat
  told   : Bool
  deriving DecidableEq, Repr

/-- An instance of a collective (14 R464): its identifier and set of members, its posts oldest first, whether it has started, the Datum time since
its first post, how long that may be, the chunks sent to other packages, the chunks delivered, and the source cells gathered for a reduction. -/
structure Inst where
  id      : Nat
  cid     : Nat
  set     : List Nat
  posts   : List Post
  started : Bool
  age     : Nat
  limit   : Nat
  sent    : List (Nat × Nat × Nat)
  done    : List (Nat × Nat × Nat)
  got     : List ((Nat × Nat) × List Byte)
  deriving DecidableEq, Repr

/-- An ended instance kept for a member that has not posted (14 R507): the member, the fault, the members that its record may name, and the
launches that were resident on its core. -/
structure EndedInst where
  cid   : Nat
  set   : List Nat
  who   : Nat
  code  : FCode
  names : List Nat
  holds : List Nat
  deriving DecidableEq, Repr

/-- Traverse (14 R460). -/
structure TravSt where
  insts : List Inst := []
  ended : List EndedInst := []
  deriving DecidableEq, Repr

/-! ## Host interface -/

/-- States of `READY` (15 R485). -/
inductive ReadySt where
  | reset | fwverify | hbmtrain | linktrain | selftest | ready | fail
  deriving DecidableEq, Repr

/-- States of `HSTAT` (15 R491). -/
inductive HostSt where
  | idle | busy | done | error
  deriving DecidableEq, Repr

/-- An entry that a fault queue holds (15 R494), and whether it has been answered. -/
structure FqEnt where
  idx   : Nat
  va    : Nat
  ctx   : Nat
  agent : Nat
  write : Bool
  core  : Nat
  /-- the waiting agent: a core's part of a launch, or (with `part` false) a launch's dispatch; no launch for a remote request -/
  part  : Bool
  launch : Option Nat
  answered : Bool
  deriving DecidableEq, Repr

/-- What one function holds (15 R491, R494). -/
structure FnSt where
  harg   : List Nat := [0, 0, 0, 0]
  st     : HostSt := .idle
  err    : Nat := 0
  fqbase : Nat := 0
  fqlg   : Nat := 4
  fqen   : Bool := false
  fqhead : Nat := 0
  fqtail : Nat := 0
  fq     : List FqEnt := []
  deriving DecidableEq, Repr

/-- A host command written and not done: function, opcode, arguments (15 R491), oldest first. -/
structure HCmd where
  fn   : Fin 17
  op   : Nat
  args : List Nat
  /-- the error code it ends with (0 for none), once it has run -/
  out  : Option Nat
  deriving DecidableEq, Repr

/-- Plumb (15 R498). -/
structure Plumb where
  sel  : Sparse Nat := []
  val  : Sparse Nat := []
  mode : Nat := 0
  code : Nat := 0
  at'  : Nat := 0
  seq  : Nat := 0
  miss : Nat := 0
  /-- the trigger has fired and the capture has not been made -/
  due  : Bool := false
  deriving DecidableEq, Repr

/-- The link trace unit of a die (15 R499). -/
structure Ltr where
  port : Nat := 0
  tx   : Bool := false
  cls  : Nat := 0
  head : Bool := false
  en   : Bool := false
  base : Nat := 0
  lg   : Nat := 8
  idx  : Nat := 0
  lost : Bool := false
  deriving DecidableEq, Repr

/-- The event log (15 R496). -/
structure EvLog where
  base : Nat := 0
  lg   : Nat := 8
  en   : Bool := false
  head : Nat := 0
  tail : Nat := 0
  lost : Nat := 0
  /-- events were dropped because the ring was full, and `E_LOG_LOST` is still to be logged -/
  mark : Bool := false
  deriving DecidableEq, Repr

/-- The registers of BAR0 that stand for the whole part (15 R484 to R503). -/
structure HostRegs where
  ready     : ReadySt := .reset
  cause     : Nat := 0
  badStacks : Nat := 0
  fns       : List (Nat × FnSt) := []
  cmds      : List HCmd := []
  ctxbase   : Nat := 0
  premargin : Nat := 50000
  frto      : Nat := 100
  expwin    : Sparse Nat := []
  ev        : EvLog := {}
  plumb     : Plumb := {}
  ltr       : List (Nat × Ltr) := []
  pwrlim    : Nat := 7500
  pwrnow    : Nat := 0
  clock     : Nat := 2000
  vfen      : Bool := false
  /-- writes of the host on their way to another die's stack: tag, address and length (01 R16) -/
  writes    : List (Nat × Nat × Nat) := []
  /-- messages sent: function and vector, oldest first (15 R490) -/
  msix      : List (Nat × Nat) := []
  deriving DecidableEq, Repr

/-- Events of the log (15 R497). -/
inductive EvCode where
  | queueOverrun | slotLate | datumLost | datumLocked | linkRetrain | linkFailed | linkBadkind | routeSwap
  | windowLate | winlen | ergToken | eccCorr | eccUncorr | powerLimit | plumb | logLost
  deriving DecidableEq, Repr

/-- What distinguishes one part from another and survives reset (15 R484, R501, R502). -/
structure Part where
  a480   : Bool := false
  serial : Nat := 0
  /-- linear indices of fused-off cores (01 R15) -/
  fused  : List Nat := []
  flash  : List Byte := []
  running : List Byte := []
  svn    : Nat := 0
  minsvn : Nat := 0
  idcert : List Byte := []
  panel  : Nat := 0
  pkg    : Nat := 0
  deriving DecidableEq, Repr

/-! ## Links, routing and time -/

/-- States of a link (13 R458). -/
inductive LinkSt where
  | down | training | up | retraining | failed
  deriving DecidableEq, Repr

/-- A packet that a port has still to send, and how many of its flits are sent. -/
structure OutPkt where
  p    : Packet
  cls  : Fin 3
  vc   : Fin 4
  sent : Nat
  deriving DecidableEq, Repr

/-- One end of a link (13 R428 to R441, R458): a port of a die, or a die's end of the two Erg channels between it and another die. -/
structure Link where
  st      : LinkSt := .down
  replays : Nat := 0
  retrains : Nat := 0
  sift    : Bool := false
  /-- packets to send, oldest first; a started packet has `sent` above 0 (13 R433) -/
  out     : List OutPkt := []
  /-- flits sent and not covered by the other end's lack: link sequence, and the packet with the flit's index as `sent` (13 R437, R439) -/
  rbuf    : List (Nat × OutPkt) := []
  /-- flits to replay before any new one -/
  replay  : List (Nat × OutPkt) := []
  lseq    : Nat := 0
  /-- link sequence expected next from the other end, and whether any was received -/
  rx      : Nat := 0
  rxAny   : Bool := false
  refused : Nat := 0
  discarded : Nat := 0
  since   : Nat := 0
  /-- credits held, and credits to grant to the other end, by 4·vc + class (13 R436) -/
  cred    : Sparse Nat := []
  owe     : Sparse Nat := []
  /-- ADVERT has been sent since the link last trained, and the other end's has come since it last trained anew (13 R444) -/
  greeted : Bool := false
  heard   : Bool := false
  /-- slots in a row without a bulk flit while one was pending, and without an urgent one beside a critical (13 R434) -/
  noBulk  : Nat := 0
  noUrg   : Nat := 0
  /-- the vc whose turn it is, per class (13 R434) -/
  turn    : Sparse Nat := []
  /-- partial packets received, by 4·vc + class, with the Datum time of the head flit (13 R433) -/
  asm     : List (Nat × Nat × Packet) := []
  deriving DecidableEq, Repr

/-- What a destination keeps of a triple (13 R435, R440): the source package and class, the next sequence number in order, and the numbers
recorded above it, and the numbers and causes of those that were refused. -/
structure RxTriple where
  src  : Nat
  cls  : PCls
  next : Nat
  rec'  : List Nat
  nacks : List (Nat × Nat)
  deriving DecidableEq, Repr

/-- What a sender keeps of a triple (13 R435): the next number, and the unacknowledged ones with the tag and the offset of their packets. -/
structure TxTriple where
  dst  : Nat
  cls  : PCls
  next : Nat
  unack : List (Nat × Nat × Nat)
  deriving DecidableEq, Repr

/-- A packet of a triple that has arrived and has not performed (13 R451, R454, R455): the die it came to, the paths whose FLUSH markers are there and
how many it needs (0 while none has come), the page fault it waits on (12 R400), and how many duplicates have come (13 R440). -/
structure Incoming where
  id   : Nat
  die  : Nat
  p    : Packet
  got  : List Nat
  need : Nat
  pf   : Option PageFault
  dups : Nat
  deriving DecidableEq, Repr

/-- States of the clock (13 R447). -/
inductive ClockSt where
  | free | acquire | locked | holdover | lost
  deriving DecidableEq, Repr

/-- The PTP clock (13 R445 to R447, R459). -/
structure Clock where
  st     : ClockSt := .free
  domain : Nat := 0
  /-- the master: its identity and its data set -/
  master : Option (Nat × List Nat) := none
  /-- the Sync that waits for its Follow_Up: its number and when it was received -/
  got    : Option (Nat × Nat) := none
  /-- the Sync that the delay is measured with: when it was sent and received -/
  pair   : Option (Nat × Nat) := none
  /-- the Delay_Req that waits for its answer: its number and when it was sent -/
  asked  : Option (Nat × Option Nat) := none
  /-- Delay_Req messages sent -/
  asks   : Nat := 0
  /-- the path delay measured last -/
  delay  : Option Int := none
  /-- a Sync has been used since reset; until then err reads 0xFFFF (13 R459) -/
  synced : Bool := false
  asym   : Nat := 0
  port   : Nat := 0
  /-- the port has been chosen since reset -/
  chosen : Bool := false
  /-- consecutive Syncs with err ≤ guard -/
  good   : Nat := 0
  /-- locked once since reset (13 R446) -/
  once   : Bool := false
  /-- offset last filtered and Datum time of the Sync last used -/
  offset : Nat := 0
  syncAt : Nat := 0
  deriving DecidableEq, Repr

/-- What the package has to report to the switch layer for a change of mode (13 R453, R456). How it is told is not laid out (log entry 20). -/
inductive ModeReport where
  | lost | missedSlot | winlen | locked
  deriving DecidableEq, Repr

/-- Windows and scope modes (13 R448 to R456). A pending change is scope is FABRIC, windowed, first window, winlen. -/
structure Windows where
  panelW  : Bool := false
  fabricW : Bool := false
  winlen  : Nat := 500
  pend    : List (Bool × Bool × Nat × Nat) := []
  /-- first window whose end has not been handled -/
  cur     : Nat := 0
  /-- CLOSE received, by die, port, vc: windows closed so far (one above the greatest) -/
  closes  : List ((Nat × Nat × Nat) × Nat) := []
  /-- CLOSE still to be sent, by die and window (13 R450) -/
  owed    : List (Nat × Nat) := []
  reports : List ModeReport := []
  deriving DecidableEq, Repr

/-- Routing of the package (13 R443): its two banks, the one that new injections use, and an update. -/
structure Routing where
  act     : Bool := false
  bank0   : List Byte := []
  bank1   : List Byte := []
  /-- the idle bank has been loaded -/
  loaded  : Bool := false
  draining : Bool := false
  /-- inputs whose DRAIN is still awaited, and outputs that DRAIN has still to be forwarded on, as ends -/
  wait    : List Nat := []
  due     : List Nat := []
  fn      : Option (Fin 17) := none
  deriving DecidableEq, Repr

/-- An Erg channel (14 R474 to R478). -/
structure Erg where
  regens : Nat := 0
  epoch  : Nat := 0
  seq    : Nat := 0
  uw     : Bool := false
  holder : Option Nat := none
  hold   : Nat := 64
  /-- flits sent in this hold, and flits left once an urgent request is seen -/
  used   : Nat := 0
  left   : Option Nat := none
  /-- where the token is on its way to -/
  at'    : Nat := 0
  emitted : Nat := 0
  /-- dies that assert an urgent request -/
  urg    : List Nat := []
  /-- newest epoch and seq seen by each die -/
  seen   : List (Nat × Nat × Nat) := []
  /-- packets sent whole in this hold -/
  given  : List OutPkt := []
  deriving DecidableEq, Repr

/-- Links, routing, windows, clock and Erg of the package. -/
structure Net where
  links  : List (Nat × Link) := []
  rxt    : List RxTriple := []
  txt    : List TxTriple := []
  inc    : List Incoming := []
  /-- packets received whole and not yet taken -/
  arrived : List Arrived := []
  /-- flits on their way over links of the package, by the end they go to, oldest first -/
  wire   : List (Nat × Flit) := []
  /-- packets that wait for room in their triple, by die, oldest first (13 R435) -/
  pend   : List (Nat × Packet × Fin 4) := []
  routing : Routing := {}
  clock  : Clock := {}
  win    : Windows := {}
  erg    : List (Nat × Erg) := []
  /-- FLUSH markers that came before their release: source package, seq, tag, paths and npath -/
  early  : List (Nat × Nat × Nat × List Nat × Nat) := []
  deriving DecidableEq, Repr

end Sys2Proof.Machine
end

