-- ==== Sys2Proof/Machine/State.lean ====
section
/-!
DEFINITION. The state of a VK16-A package, the reasons a step can stop, and the machine after reset.
-/

namespace Sys2Proof.Machine

/-- Memory: bytes by physical address (06 R189); an unlisted byte reads 0 (log entry 1). -/
abbrev Memory := List Host.Cell

/-- Why the machine stops. -/
inductive Fault where
  /-- Raised by `step` when bring-up has failed (15 R485: a failure stops the device in FAIL) and nothing more is to come
  from outside. Safe: the device itself goes on only at its next reset. -/
  | bringUpFailed
  deriving DecidableEq, Repr

/-- Why an instruction has no meaning. -/
inductive Refusal where
  /-- Raised by `exec` for an instruction not modelled. Safe: nothing is claimed of it. -/
  | notModelled (mnemonic : String)
  deriving DecidableEq, Repr

/-- The engine whose turn it is: its bank, the engine, and whether what it issues goes on to perform in the same step
(log entry 3). The model's own. -/
structure Cursor where
  loc   : Loc := ⟨0, 0⟩
  eng   : Engine := .S
  eager : Bool := false
  deriving DecidableEq, Repr

/-- What the links of the package do by themselves: a flit or a packet is taken, a link that trains comes up or fails, a token arrives, or an announced
mode comes. -/
inductive NetTurn where
  | flit (die : Fin 16) (port : Fin 7) (f : Flit)
  | packet (a : Arrived)
  | trained (die : Fin 16) (port : Fin 7)
  | failed (die : Fin 16) (port : Fin 7)
  | token (ch : Fin 16)
  | mode (fabric : Bool)
  deriving DecidableEq, Repr

/-- One move of the machine: an engine of a core goes one word on, a row of the table that is an event comes about, a T word under way goes on to its next
progress point (11 R371), a port has a flit slot, something comes about on the package's links, bring-up goes on well, or time passes. The model's own: which agent moves when is open (07 R252, R256), so it is data (log entry 3). -/
inductive Turn where
  | engine (core : Nat) (e : Engine) (eager : Bool)
  | event (i : Instr)
  | transform (l : Loc)
  | port (die : Fin 16) (port : Fin 7)
  | net (t : NetTurn)
  | train
  | elapse (cycles ns : Nat)
  deriving DecidableEq, Repr

/-- A package. -/
structure State where
  part     : Part := {}
  mem      : Memory := []
  /-- uncorrectable bytes of memory (15 R500) -/
  bad      : List Nat := []
  ctxs     : List (Nat × Ctx) := []
  cores    : Sparse Core := []
  launches : List Launch := []
  queues   : Sparse Queue := []
  graphs   : List Graph := []
  watches  : List Watch := []
  platw    : List PlatWatch := []
  migs     : List Migration := []
  /-- granules sent and not delivered, oldest first (12 R415) -/
  transit  : List Transit := []
  /-- busy copies per context and segment, at 512·ctx + seg (06 R195) -/
  busy     : Sparse Nat := []
  trav     : TravSt := {}
  regs     : HostRegs := {}
  net      : Net := {}
  /-- Datum time in ns (13 R446) -/
  dtime    : Nat := 0
  /-- core clock cycles since reset (04 R133) -/
  cycle    : Nat := 0
  /-- identifiers given so far (the model's own, log entry 7) -/
  nextId   : Nat := 0
  /-- the counter free values are read at (the model's own, log entry 5) -/
  freeCtr  : Nat := 0
  cur      : Cursor := {}
  agenda   : List Turn := []
  /-- position of the default order of turns (the model's own, log entry 3) -/
  rr       : Nat := 0
  deriving DecidableEq, Repr

/-- The package right after reset (15 R485): memory unlisted, every register at its reset value or the value named in the
log (entries 1, 2, 4, 10, 11), every bank EMPTY. -/
def State.reset : State := {}

end Sys2Proof.Machine
end

