-- ==== Sys2Proof/Machine/Ops.lean ====
section
/-!
DEFINITION. The named operations over the state: cores, banks, engines, registers, queues, semaphores and tokens; issuing and
retiring a word (02 R40 to R44, 04 R100 to R102); and taking a fault, the one exception of this machine (05 R171, R172).
-/

namespace Sys2Proof

/-- The engine before in the ring (02 R39). -/
def Engine.before : Engine → Engine
  | .S => .F | .A => .S | .M => .A | .V => .M | .T => .V | .F => .T

/-- The engine after in the ring (02 R39). -/
def Engine.after : Engine → Engine
  | .S => .A | .A => .M | .M => .V | .V => .T | .T => .F | .F => .S

/-- The engine of a tag (02 R38). -/
def Engine.tag : Engine → Nat
  | .S => 0 | .A => 1 | .M => 2 | .V => 3 | .T => 4 | .F => 5

/-- How many of a word's dependency fields have bit `i` set (02 R37, R49). -/
def Dep.count (m : Dep) (i : Nat) : Nat :=
  bit (m.h.getLsbD i) + bit (m.x1.getLsbD i) + bit (m.x2.getLsbD i) + bit (m.x3.getLsbD i)

/-- Tokens the word waits for from the engine before. -/
def Dep.wp (m : Dep) : Nat := m.count 3
/-- Tokens the word waits for from the engine after. -/
def Dep.wn (m : Dep) : Nat := m.count 2
/-- Tokens the word signals to the engine before. -/
def Dep.sp (m : Dep) : Nat := m.count 1
/-- Tokens the word signals to the engine after. -/
def Dep.sn (m : Dep) : Nat := m.count 0

/-- The head of a word (02 R37, R48); an event has none. -/
def Instr.hd (i : Instr) : Head := (Instr.head i).getD ⟨.S, {}, 0⟩

end Sys2Proof

namespace Sys2Proof.Machine

/-- The answer of a step. -/
abbrev Out := Host.Outcome State Fault Refusal

/-! ## Places in the state -/

/-- The core of linear index `c`. -/
def State.core (s : State) (c : Nat) : Core := spGet {} s.cores c

/-- The state with core `c` replaced. -/
def State.setCore (s : State) (c : Nat) (k : Core) : State := { s with cores := spPut {} s.cores c k }

/-- A bank of a core. -/
def Core.bank (k : Core) (b : Fin 2) : Bank := if b = 0 then k.b0 else k.b1

/-- The core with a bank replaced. -/
def Core.setBank (k : Core) (b : Fin 2) (x : Bank) : Core := if b = 0 then { k with b0 := x } else { k with b1 := x }

/-- The bank at a place. -/
def State.bank (s : State) (l : Loc) : Bank := (s.core l.core).bank l.bank

/-- The state with the bank at a place replaced. -/
def State.setBank (s : State) (l : Loc) (b : Bank) : State := s.setCore l.core ((s.core l.core).setBank l.bank b)

/-- The bank whose engine has the turn. -/
def State.here (s : State) : Bank := s.bank s.cur.loc

/-- What an engine holds. -/
def Engs.get (g : Engs) : Engine → EngSt
  | .S => g.S | .A => g.A | .M => g.M | .V => g.V | .T => g.T | .F => g.F

/-- The engines with one replaced. -/
def Engs.set (g : Engs) (e : Engine) (x : EngSt) : Engs :=
  match e with
  | .S => { g with S := x } | .A => { g with A := x } | .M => { g with M := x }
  | .V => { g with V := x } | .T => { g with T := x } | .F => { g with F := x }

/-- The engines in tag order (02 R38). -/
def allEngines : List Engine := [.S, .A, .M, .V, .T, .F]

/-- An engine of a bank. -/
def Bank.eng (b : Bank) (e : Engine) : EngSt := b.engs.get e

/-- The bank with an engine replaced. -/
def Bank.setEng (b : Bank) (e : Engine) (x : EngSt) : Bank := { b with engs := b.engs.set e x }

/-- The least walk position of the six engines (02 R52). -/
def Bank.wmin (b : Bank) : Nat :=
  min b.engs.S.walk (min b.engs.A.walk (min b.engs.M.walk (min b.engs.V.walk (min b.engs.T.walk b.engs.F.walk))))

/-- The queue of a name. -/
def Queues.get (q : Queues) : QName → List QEnt
  | .ds => q.ds | .da => q.da | .dv => q.dv | .dt => q.dt | .cq => q.cq

/-- The queues with one replaced. -/
def Queues.set (q : Queues) (n : QName) (x : List QEnt) : Queues :=
  match n with
  | .ds => { q with ds := x } | .da => { q with da := x } | .dv => { q with dv := x }
  | .dt => { q with dt := x } | .cq => { q with cq := x }

/-- An item of a keyed list. -/
def assoc {α : Type} (l : List (Nat × α)) (k : Nat) : Option α := (l.find? (fun p => p.1 == k)).map (·.2)

/-- A keyed list with an item put. -/
def assocPut {α : Type} (l : List (Nat × α)) (k : Nat) (x : α) : List (Nat × α) := (k, x) :: l.filter (fun p => p.1 != k)

/-- A keyed list with an item removed. -/
def assocDel {α : Type} (l : List (Nat × α)) (k : Nat) : List (Nat × α) := l.filter (fun p => p.1 != k)

/-- A free value, and the counter moved on (log entry 5). -/
def State.fresh (s : State) : Reg64 × State := (Config.freeValue s.freeCtr, { s with freeCtr := s.freeCtr + 1 })

/-- A free choice among `n`, and the counter moved on (log entry 5). -/
def State.choose (s : State) (n : Nat) : Nat × State := (Config.freeChoice s.freeCtr % n, { s with freeCtr := s.freeCtr + 1 })

/-- A new identifier; drains have odd ones (log entry 7). -/
def State.newId (s : State) : Nat × State := (2 * s.nextId, { s with nextId := s.nextId + 1 })

/-- The identifier of the drain of the vector that V pushes to `q` at a walk position (log entry 7). -/
def drainId (q : Fin 8) (walk : Nat) : Nat := 2 * (8 * walk + q.val) + 1

/-- A launch by its identifier. -/
def State.launch (s : State) (id : Nat) : Option Launch := s.launches.find? (fun x => x.id == id)

/-- The state with one launch changed. -/
def State.modLaunch (s : State) (id : Nat) (f : Launch → Launch) : State :=
  { s with launches := s.launches.map (fun x => if x.id = id then f x else x) }

/-! ## Registers -/

/-- A register of S; `s0` reads zero (04 R99). -/
def Bank.sreg (b : Bank) (n : SReg) : Reg64 := if n = 0 then 0 else spGet 0 b.seq.s n.val

/-- A write of a register of S; into `s0` it is discarded (04 R99). -/
def Bank.setSreg (b : Bank) (n : SReg) (v : Reg64) : Bank :=
  if n = 0 then b else { b with seq := { b.seq with s := spPut 0 b.seq.s n.val v } }

/-- A register of A (06 R180). -/
def Bank.areg (b : Bank) (r : AReg) : Reg64 := spGet 0 b.acc.a (aregCode r)

/-- A write of a register of A. -/
def Bank.setAreg (b : Bank) (r : AReg) (v : Reg64) : Bank := { b with acc := { b.acc with a := spPut 0 b.acc.a (aregCode r) v } }

/-- `a0` to `a31`. -/
def Bank.ax (b : Bank) (n : Fin 32) : Reg64 := b.areg (.a n)

/-- A vector register (08 R264). -/
def Bank.vreg (b : Bank) (n : Fin 32) : VecReg := spGet 0 b.vec.v n.val

/-- A vector register written. -/
def Bank.setVreg (b : Bank) (n : Fin 32) (x : VecReg) : Bank := { b with vec := { b.vec with v := spPut 0 b.vec.v n.val x } }

/-- A predicate register; `k0` reads all ones (08 R264). -/
def Bank.kreg (b : Bank) (n : Fin 8) : Reg256 := if n = 0 then BitVec.allOnes 256 else spGet 0 b.vec.k n.val

/-- A predicate register written; a write to `k0` is discarded. -/
def Bank.setKreg (b : Bank) (n : Fin 8) (x : Reg256) : Bank :=
  if n = 0 then b else { b with vec := { b.vec with k := spPut 0 b.vec.k n.val x } }

/-- A scale register. -/
def Bank.zreg (b : Bank) (n : Fin 8) : Reg256 := spGet 0 b.vec.z n.val

/-- A scale register written. -/
def Bank.setZreg (b : Bank) (n : Fin 8) (x : Reg256) : Bank := { b with vec := { b.vec with z := spPut 0 b.vec.z n.val x } }

/-- A stream binding put (06 R211). -/
def Bank.putQ (b : Bank) (n : Fin 8) (x : Stream) : Bank := { b with acc := { b.acc with q := assocPut b.acc.q n.val x } }

/-- A compaction buffer put; an empty one is not listed (08 R291). -/
def Bank.putBuf (b : Bank) (n : Nat) (c : CBuf) : Bank :=
  { b with vec := { b.vec with cb := if c.elems.isEmpty then assocDel b.vec.cb n else assocPut b.vec.cb n c } }

/-- A stream's staging put; an empty one is not listed (08 R291). -/
def Bank.putStage (b : Bank) (n : Nat) (c : CBuf) : Bank :=
  { b with vec := { b.vec with stage := if c.elems.isEmpty then assocDel b.vec.stage n else assocPut b.vec.stage n c } }

/-- A cell of an accumulator slot (10 R340). -/
def Bank.cell (b : Bank) (slot k : Nat) : AccCell := spGet 0 b.mx.acc (1024 * slot + k)

/-- A cell put. -/
def Bank.setCell (b : Bank) (slot k : Nat) (x : AccCell) : Bank :=
  { b with mx := { b.mx with acc := spPut 0 b.mx.acc (1024 * slot + k) x } }

/-- A slot's SAT bit (10 R340). -/
def Bank.satBit (b : Bank) (slot : Nat) : Bool := spGet false b.mx.sat slot

/-- A slot's SAT bit put. -/
def Bank.setSat (b : Bank) (slot : Nat) (x : Bool) : Bank := { b with mx := { b.mx with sat := spPut false b.mx.sat slot x } }

/-- The status flags of M, V or T (10 R363, 08 R296, 11 R391). -/
def Bank.status (b : Bank) : Engine → BitVec 6
  | .M => b.mx.flags
  | .V => b.vec.flags
  | .T => b.tx.flags
  | .S | .A | .F => 0

/-- The status flags of M, V or T put. -/
def Bank.setStatus (b : Bank) (e : Engine) (f : BitVec 6) : Bank :=
  match e with
  | .M => { b with mx := { b.mx with flags := f } }
  | .V => { b with vec := { b.vec with flags := f } }
  | .T => { b with tx := { b.tx with flags := f } }
  | .S | .A | .F => b

/-! ## Queues (04 R101, R102) -/

/-- The engines that push a queue and do not pop it (04 R101). -/
def QName.pushers : QName → List Engine
  | .ds => [.A, .M, .V, .T, .F]
  | .da => [.S, .V]
  | .dv => [.S, .A]
  | .dt => [.S, .A]
  | .cq => [.M, .V]

/-- Insertion by walk position, behind entries of the same word (04 R102 rule 3). -/
def qInsert (x : QEnt) : List QEnt → List QEnt
  | [] => [x]
  | y :: t => if y.walk ≤ x.walk then y :: qInsert x t else x :: y :: t

/-- Whether a queue has room for `n` entries (04 R102 rule 1). -/
def Bank.room (b : Bank) (q : QName) (n : Nat) : Bool := (b.queues.get q).length + n ≤ 16

/-- An entry reserved with its value, not yet visible (04 R102 rules 1 and 2). -/
def Bank.reserve (b : Bank) (q : QName) (walk : Nat) (v : Reg64) : Bank :=
  { b with queues := b.queues.set q (qInsert ⟨walk, v, false⟩ (b.queues.get q)) }

/-- The entry that a popping word at walk position `w` takes, if it may issue (04 R102 rule 4). -/
def Bank.peek (b : Bank) (q : QName) (w : Nat) : Option Reg64 :=
  if q.pushers.all (fun e => w ≤ (b.eng e).walk) then
    match b.queues.get q with
    | x :: _ => if x.vis then some x.val else none
    | [] => none
  else none

/-- The queue without its head. -/
def Bank.drop (b : Bank) (q : QName) : Bank := { b with queues := b.queues.set q ((b.queues.get q).drop 1) }

/-- The entries of the word at `walk` become visible (04 R102 rule 2). -/
def Bank.show (b : Bank) (q : QName) (walk : Nat) : Bank :=
  { b with queues := b.queues.set q ((b.queues.get q).map (fun x => if x.walk = walk then { x with vis := true } else x)) }

/-- The values that the word at `walk` has reserved are filled in order. -/
def qFill (walk : Nat) : List QEnt → List Reg64 → List QEnt
  | [], _ => []
  | x :: t, vs =>
    if x.walk = walk then
      match vs with
      | v :: vs => { x with val := v } :: qFill walk t vs
      | [] => x :: t
    else x :: qFill walk t vs

/-- Reserved entries of the word at `walk` take their values. -/
def Bank.fill (b : Bank) (q : QName) (walk : Nat) (vs : List Reg64) : Bank :=
  { b with queues := b.queues.set q (qFill walk (b.queues.get q) vs) }

/-! ## Faults (05 R171, R172) -/

/-- The code of a fault (05 R174, 06 R221, 07 R262, 08 R298, 09 R337, 10 R365, 11 R392, 12 R426, 14 R480). -/
def FCode.num : FCode → Nat
  | .illegal => 0x01 | .reserved => 0x02 | .resource => 0x03 | .stack => 0x04 | .semCeil => 0x05 | .trap => 0x06
  | .deadlock => 0x07 | .stage => 0x08 | .barrier => 0x09 | .page => 0x0A | .subsLost => 0x0B
  | .addr => 0x20 | .bounds => 0x21 | .prot => 0x22 | .pte => 0x23 | .tdesc => 0x24 | .stream => 0x25 | .home => 0x26
  | .owner => 0x30 | .readonly => 0x31 | .align => 0x32 | .atomic => 0x33 | .plat => 0x34 | .convey => 0x35
  | .ring => 0x40 | .cshape => 0x41 | .peer => 0x42 | .sift => 0x43 | .calign => 0x44 | .uncorr => 0x45
  | .mshape => 0x50 | .mbind => 0x51 | .mfmt => 0x52 | .cbtype => 0x60
  | .tplan => 0x70 | .tshape => 0x71 | .tfmt => 0x72 | .tbind => 0x73
  | .fremote => 0x80 | .flink => 0x81 | .fshape => 0x82 | .aperture => 0x83 | .subs => 0x84 | .fcount => 0x85
  | .collblk => 0x88 | .collshape => 0x89 | .collmatch => 0x8A | .colltime => 0x8B | .colldata => 0x8C | .collpeer => 0x8D

/-- The core takes a fatal fault at a word: the first one of the core is kept (02 R64, 05 R172). -/
def Bank.takeFault (b : Bank) (c : FCode) (pc detail : Nat) : Bank :=
  match b.flt with
  | some _ => b
  | none => { b with flt := some ⟨c, pc, detail⟩ }

/-- The word indices of the six engines in tag order (15 R488). -/
def Bank.pcs (b : Bank) : List Nat := allEngines.map (fun e => (b.eng e).pc)

/-- A running bank of an ending launch issues no more (05 R166 step 1, R171 step 1). -/
def Bank.stopRun (b : Bank) (id : Nat) : Bank :=
  if b.launch = some id ∧ b.st = .run then { b with st := .halting } else b

/-- Every running bank of a launch stops issuing. -/
def State.stopLaunch (s : State) (id : Nat) : State :=
  { s with cores := s.cores.map (fun p => (p.1, { p.2 with b0 := p.2.b0.stopRun id, b1 := p.2.b1.stopRun id })) }

/-- Whether fault `x` is recorded before `y`: by Datum time, ties by linear index (05 R172). -/
def FaultRec.first (x y : FaultRec) : Bool := x.time < y.time || (x.time == y.time && x.core < y.core)

/-- The launch with a core's fault recorded: the first one is named, the other cores are counted (05 R172). -/
def Launch.record (x : Launch) (f : FaultRec) : Launch :=
  match x.fault with
  | none => { x with fault := some f, nfault := x.nfault.filter (· != f.core), status := if x.st = .ending then x.status else 1 }
  | some g =>
    if f.core = g.core then x
    else if f.first g then { x with fault := some f, nfault := (g.core :: x.nfault.filter (· != f.core)) }
    else { x with nfault := if x.nfault.contains f.core then x.nfault else f.core :: x.nfault }

/-- A PREEMPTED launch holds a fault that a core takes, with its time (05 R175). -/
def Launch.hold (x : Launch) (core now : Nat) : Launch :=
  if (assoc x.held core).isSome then x else { x with held := (core, now) :: x.held }

/-- Whether a core's part still counts for the record of a launch: until the launch ends, and then until the core has halted (05 R172). -/
def Bank.counts (b : Bank) (st : LaunchSt) : Bool := st != .ending || b.st == .run || b.st == .halting

/-- Taking a fault: what a core's bank has taken is recorded in its launch, which ends on every core (01 R28, 05 R171, R172). A launch that is
PREEMPTED holds it until it is dispatched again (05 R175). -/
def State.noteFault (s : State) (l : Loc) : State :=
  match (s.bank l).flt, (s.bank l).launch with
  | some f, some id =>
    if (s.launch id).any (fun x => x.st == .preempted) then s.modLaunch id (fun x => x.hold l.core s.dtime)
    else (s.modLaunch id (fun x =>
      let x := if (s.bank l).counts x.st then
          x.record ⟨f.code, l.core, f.pc, f.detail, (assoc x.held l.core).getD s.dtime, (s.bank l).pcs⟩
        else x
      if x.st = .done then x else { x with st := .ending })).stopLaunch id
  | _, _ => s

/-- A fault taken by the bank at a place, outside the issue of a word. -/
def State.faultAt (s : State) (l : Loc) (c : FCode) (pc detail : Nat) : State :=
  (s.setBank l ((s.bank l).takeFault c pc detail)).noteFault l

/-! ## Semaphores (04 R117, R118) -/

/-- The count of a semaphore. -/
def Bank.semCount (b : Bank) (n : Fin 32) : Nat := spGet 0 b.seq.sem n.val

/-- The ceiling the header gives it; 0 when it is not declared. -/
def Bank.semCeil (b : Bank) (n : Fin 32) : Nat := if bitAt b.hdr.semmask n.val then b.hdr.ceils.getD n.val 0 else 0

/-- A count put. -/
def Bank.setSem (b : Bank) (n : Fin 32) (v : Nat) : Bank := { b with seq := { b.seq with sem := spPut 0 b.seq.sem n.val v } }

/-- A signal (04 R118): past the ceiling it faults and the count stays. -/
def Bank.semSignal (b : Bank) (n : Fin 32) (amt pc : Nat) : Bank :=
  if b.semCeil n < b.semCount n + amt then b.takeFault .semCeil pc 0 else b.setSem n (b.semCount n + amt)

/-! ## Control registers that software writes (04 R132) -/

/-- The write of a CSR takes effect: `SLIPW` (02 R53) and `CSCHED` (09 R320) are the writable ones; `MSHAPE` shows a grant from the
retirement of its word (10 R350). -/
def Bank.csrSet (b : Bank) (n : Nat) (v : Reg64) : Bank :=
  if n = 0x010 then { b with seq := { b.seq with slipw := max 16 (min 4096 (v.toNat % 2 ^ 13)) } }
  else if n = 0x201 then { b with mx := { b.mx with shown := v } }
  else if n = 0x189 then { b with car := { b.car with csched := BitVec.ofNat 32 (max b.car.csched.toNat (v.toNat % 2 ^ 32)) } }
  else b

/-! ## Rings (09 R306, R310) -/

/-- A ring as its latest `CPRING` configured it. -/
def Bank.ring (b : Bank) (g : Fin 16) : Option Ring := assoc b.car.rings g.val

/-- A ring as configured before a walk position (09 R310). -/
def Bank.ringAt (b : Bank) (g : Fin 16) (w : Nat) : Option Ring :=
  (b.car.rings.find? (fun p => p.1 == g.val && p.2.walk ≤ w)).map (·.2)

/-- The bank with one configuration of a ring changed. -/
def Bank.setRing (b : Bank) (g : Fin 16) (r : Ring) : Bank :=
  { b with car := { b.car with rings := b.car.rings.map (fun p => if p.1 = g.val ∧ p.2.walk = r.walk then (p.1, r) else p) } }

/-- The slot of a count. -/
def Ring.slotOf (r : Ring) (n : Nat) : Nat := if r.slots = 0 then 0 else n % r.slots

/-- A slot's state. -/
def Ring.slotSt (r : Ring) (n : Nat) : SlotSt := r.st.getD (r.slotOf n) .empty

/-- A slot's state put. -/
def Ring.setSt (r : Ring) (n : Nat) (x : SlotSt) : Ring := { r with st := listSet r.st (r.slotOf n) x }

/-- The base of the slot of a count, in mode C (09 R305). -/
def Ring.slotBase (r : Ring) (n : Nat) : Nat := r.base + r.size * r.slotOf n

/-- The tail slot reserved by a producer that has still to publish some bytes of the share (09 R306, R307). -/
def Ring.reserve (r : Ring) (due : List (Nat × Nat)) : Ring :=
  { r.setSt r.tail .reserved with tail := r.tail + 1, todo := spPut [] r.todo (r.slotOf r.tail) due }

/-- The bytes of a slot. -/
def Ring.slotBytes (r : Ring) (n : Nat) : Nat × Nat := (r.slotBase n, r.size)

/-- The last reservation undone. -/
def Ring.unreserve (r : Ring) : Ring :=
  { r.setSt (r.tail - 1) .empty with tail := r.tail - 1, todo := spPut [] r.todo (r.slotOf (r.tail - 1)) [] }

/-- The bytes of a slot that a copy has still to publish. -/
def Ring.due (r : Ring) (n : Nat) : List (Nat × Nat) := spGet [] r.todo (r.slotOf n)

/-- The bytes of a slot that a copy has still to publish put. -/
def Ring.setDue (r : Ring) (n : Nat) (l : List (Nat × Nat)) : Ring := { r with todo := spPut [] r.todo (r.slotOf n) l }

/-- A slot becomes FULL. -/
def Ring.fill (r : Ring) (n : Nat) : Ring := (r.setSt n .full).setDue n []

/-- The head slot freed. -/
def Ring.pop (r : Ring) : Ring := { r.setSt r.head .empty with head := r.head + 1 }

/-! ## Retiring (02 R42 to R44) -/

/-- A vector pushed to a write stream joins what A holds; what its drain waits for is what is still due of what it found at
issue (06 R213, 07 R247). -/
def Bank.giveVector (b : Bank) (q : Fin 8) (id : Nat) (x : VecReg) (after : List Nat) : Bank :=
  match assoc b.acc.q q.val with
  | none => b
  | some y => b.putQ q { y with held := y.held ++ [⟨id, x, after.filter (fun i => b.acc.acqBar.contains i || b.acc.relBar.contains i)⟩] }

/-- Whether the slots that a word pops as it retires are FULL: a pop of a RESERVED one waits (09 R306). -/
def Bank.canPop (b : Bank) (l : List Eff) : Bool :=
  l.all (fun e => match e with
    | .ringPop g w => (b.ringAt g w).all (fun r => r.slotSt r.head == .full)
    | _ => true)

/-- An effect of a word at its retirement. -/
def Bank.apply (b : Bank) (pc : Nat) : Eff → Bank
  | .sem n amt => b.semSignal n amt pc
  | .vis q w => b.show q w
  | .csr n v => b.csrSet n v
  | .ringPop g w => match b.ringAt g w with | some r => b.setRing g r.pop | none => b
  | .ringFull g w k => match b.ringAt g w with | some r => b.setRing g (r.fill k) | none => b
  | .td i v => { b with acc := { b.acc with td := spPut 0 b.acc.td i v } }
  | .sreg n v => b.setSreg n v
  | .vreg n x => b.setVreg n x
  | .kreg n x => b.setKreg n x
  | .zreg n x => b.setZreg n x
  | .cbuf n c => b.putBuf n c
  | .staging q c => b.putStage q c
  | .vector q id x after => b.giveVector q id x after
  | .cell slot k v => b.setCell slot k v
  | .satBit slot => b.setSat slot true
  | .flags e f => b.setStatus e (b.status e ||| f)
  | .stat e clr w =>
    let b' := b.fill .ds w [(b.status e).zeroExtend 64]
    if clr then b'.setStatus e 0 else b'
  | .txDone => { b with tx := { b.tx with work := none } }

/-- The effects of a word in their order; a fault stops them (10 R343). -/
def Bank.applyAll (pc : Nat) : List Eff → Bank → Bank
  | [], b => b
  | x :: t, b =>
    let c := b.apply pc x
    if c.flt = b.flt then applyAll pc t c else c

/-- Whether `n` tokens fit the FIFO from `e` to the engine before it (02 R40, R42). -/
def Bank.roomBefore (b : Bank) (e : Engine) (n : Nat) : Bool := (b.eng e.before).tokNext + n ≤ 8

/-- Whether `n` tokens fit the FIFO from `e` to the engine after it. -/
def Bank.roomAfter (b : Bank) (e : Engine) (n : Nat) : Bool := (b.eng e.after).tokPrev + n ≤ 8

/-- `n` tokens pushed to the engine before `e`. -/
def Bank.pushBefore (b : Bank) (e : Engine) (n : Nat) : Bank :=
  b.setEng e.before { b.eng e.before with tokNext := (b.eng e.before).tokNext + n }

/-- `n` tokens pushed to the engine after `e`. -/
def Bank.pushAfter (b : Bank) (e : Engine) (n : Nat) : Bank :=
  b.setEng e.after { b.eng e.after with tokPrev := (b.eng e.after).tokPrev + n }

/-- Signals of completed asynchronous words are pushed where there is room, into each FIFO in the order of completion (02 R43, R44).
Each entry is for one FIFO: (n, 0) before, (0, n) after; `hb` and `ha` say that an older entry still waits for that FIFO. -/
def Bank.flushPend (e : Engine) : Bool → Bool → List (Nat × Nat) → Bank → Bank × List (Nat × Nat)
  | _, _, [], b => (b, [])
  | hb, ha, (p, n) :: t, b =>
    if (p != 0 && (hb || !b.roomBefore e p)) || (n != 0 && (ha || !b.roomAfter e n)) then
      let r := flushPend e (hb || p != 0) (ha || n != 0) t b
      (r.1, (p, n) :: r.2)
    else flushPend e hb ha t ((b.pushBefore e p).pushAfter e n)

/-- Words retire in order: each once what it waits for is done, what it pops is FULL and its signals fit (02 R42, 09 R306). A word whose effect at retirement
faults does not retire, nor does a later one. -/
def Bank.retireEng (e : Engine) : Nat → Bank → Bank
  | 0, b => b
  | fuel + 1, b =>
    match (b.eng e).rets with
    | [] => b
    | r :: t =>
      if r.waits.isEmpty && b.canPop r.effs && b.roomBefore e r.sp && b.roomAfter e r.sn then
        let c := (b.setEng e { b.eng e with rets := t }).applyAll r.pc r.effs
        if c.flt = b.flt then retireEng e fuel ((c.pushBefore e r.sp).pushAfter e r.sn)
        else c.setEng e { c.eng e with rets := [] }
      else b

/-- Whether an effect is a signal of a semaphore. -/
def Eff.isSem : Eff → Bool
  | .sem _ _ => true
  | _ => false

/-- The semaphore signals of S's unretired words are applied: they complete before a core halts (04 R129). -/
def Bank.signalNow (b : Bank) : Bank :=
  let x := b.eng .S
  let b := b.setEng .S { x with rets := x.rets.map (fun r => { r with effs := r.effs.filter (fun e => !e.isSem) }) }
  x.rets.foldl (fun b r => b.applyAll r.pc (r.effs.filter Eff.isSem)) b

/-- One engine's signals and retirements. -/
def Bank.settleEng (b : Bank) (e : Engine) : Bank :=
  let r := flushPend e false false (b.eng e).pend b
  let b := r.1.setEng e { r.1.eng e with pend := r.2 }
  retireEng e (b.eng e).rets.length b

/-- Every engine's signals and retirements. -/
def Bank.settle (b : Bank) : Bank := allEngines.foldl Bank.settleEng b

/-- Something an issued word waited for is done: its identifier goes from every waiting word. With `free`, a word that waits for
nothing more has written its registers. -/
def EngSt.finish (x : EngSt) (free : Bool) (id : Nat) : EngSt :=
  { x with rets := x.rets.map (fun r =>
      { r with waits := without id r.waits, writes := if free && r.waits == [id] then [] else r.writes }) }

/-- Nothing waits any longer for `id` in A's accesses, streams and copies (07 R247). -/
def Bank.cleared (b : Bank) (id : Nat) : Bank :=
  { b with
    acc := { b.acc with
      out := b.acc.out.map (fun a => { a with after := without id a.after })
      relBar := without id b.acc.relBar
      acqBar := without id b.acc.acqBar
      xpBar := without id b.acc.xpBar
      q := b.acc.q.map (fun p => (p.1, { p.2 with
        after := without id p.2.after, held := p.2.held.map (fun h => { h with after := without id h.after }) })) }
    fab := { b.fab with
      acqBar := without id b.fab.acqBar
      relBar := without id b.fab.relBar
      fenceIds := without id b.fab.fenceIds
      reqs := b.fab.reqs.map (fun r => { r with after := without id r.after, before := without id r.before }) }
    car := { b.car with
      ch := b.car.ch.map (fun p => (p.1, { p.2 with cmds := p.2.cmds.map (fun c => { c with after := without id c.after }) })) } }

/-- Completion of `id` for the words of A and F that wait for it; the watchdog counter is cleared (04 R131). -/
def Bank.complete (b : Bank) (id : Nat) : Bank :=
  let b := b.cleared id
  let b := b.setEng .A ((b.eng .A).finish true id)
  let b := b.setEng .F ((b.eng .F).finish true id)
  { b with seq := { b.seq with wdog := 0 } }.settle

/-- The effect of the word of M or T at a walk position is complete: the flags it raised join its effects at retirement (10 R343,
11 R369). What it keeps others from, it keeps to its retirement (10 R362, 11 R370). -/
def EngSt.effectDone (x : EngSt) (e : Engine) (walk : Nat) (f : BitVec 6) : EngSt :=
  { (x.finish false walk) with
    rets := (x.finish false walk).rets.map (fun r => if r.walk = walk then { r with effs := r.effs ++ [.flags e f] } else r) }

/-- Completion of the effect of a word of M or T. -/
def Bank.workDone (b : Bank) (e : Engine) (walk : Nat) (f : BitVec 6) : Bank :=
  let b := b.setEng e ((b.eng e).effectDone e walk f)
  { b with seq := { b.seq with wdog := 0 } }.settle

/-- The signals of a completed asynchronous word (02 R44). -/
def Bank.signalLater (b : Bank) (e : Engine) (sp sn : Nat) : Bank :=
  let l := (if sp = 0 then [] else [(sp, 0)]) ++ (if sn = 0 then [] else [(0, sn)])
  { b.setEng e { b.eng e with pend := (b.eng e).pend ++ l } with seq := { b.seq with wdog := 0 } }

/-! ## Issuing (02 R41, R51) -/

/-- What a word leaves behind when it issues: what it waits for before it retires, its effects then, the registers it has
still to write, whether its signals wait for its work (02 R44), and where the walk goes on. -/
structure Plain where
  waits  : List Nat := []
  effs   : List Eff := []
  writes : List Nat := []
  async  : Bool := false
  jump   : Option Nat := none
  deriving DecidableEq, Repr

/-- What a word finds when it would issue, over a bank or over the state. -/
inductive Res (α : Type) where
  /-- it waits at issue -/
  | stall
  /-- it takes a fatal fault, with the detail of 15 R489 -/
  | fault (c : FCode) (detail : Nat)
  /-- an access of A, or the formation of a target (agent 9), page-faults: the word stays unissued (05 R169) -/
  | page (x : α) (va : Nat) (write : Bool) (agent : Nat)
  /-- it issues -/
  | ok (x : α) (p : Plain)
  deriving DecidableEq, Repr

/-- Whether the core may issue: its bank runs, it has taken no fault and no page fault waits (05 R165, R166, R169). -/
def Bank.live (b : Bank) : Bool := b.st == .run && b.flt.isNone && b.acc.pf.isNone

/-- Whether every token the word waits for is there (02 R41). -/
def Bank.tokensOk (b : Bank) (h : Head) : Bool :=
  h.dep.wp ≤ (b.eng h.eng).tokPrev && h.dep.wn ≤ (b.eng h.eng).tokNext

/-- The word's pops (02 R41). -/
def EngSt.popTokens (x : EngSt) (m : Dep) : EngSt :=
  { x with tokPrev := x.tokPrev - m.wp, tokNext := x.tokNext - m.wn }

/-- The walk past a word and its extension words (02 R51). -/
def EngSt.pass (x : EngSt) (ext : Nat) (jump : Option Nat) : EngSt :=
  { x with pc := jump.getD (x.pc + 1 + ext), walk := x.walk + 1 + ext }

/-- The word joins the words that have issued and not retired. -/
def EngSt.await (x : EngSt) (h : Head) (p : Plain) : EngSt :=
  { x with rets := x.rets ++ [⟨x.walk, x.pc, if p.async then 0 else h.dep.sp, if p.async then 0 else h.dep.sn, p.waits, p.effs, p.writes⟩] }

/-- The issue of a word whose effects at issue are done (02 R41, R42, R51). -/
def Bank.issued (b : Bank) (h : Head) (p : Plain) : Bank :=
  let b := b.setEng h.eng ((((b.eng h.eng).popTokens h.dep).await h p).pass h.ext p.jump)
  { b with seq := { b.seq with wdog := 0 } }.settle

/-- Whether a word of the engine that has issued has still to write one of these registers (04 R100). -/
def Bank.pending (b : Bank) (e : Engine) (regs : List Nat) : Bool :=
  (b.eng e).rets.any (fun r => r.writes.any (fun w => regs.contains w))

/-- One try to issue a word whose effects lie in its bank: it waits for its tokens, then does what `f` says. -/
def Bank.tryIssue (b : Bank) (h : Head) (f : Bank → Res Bank) : Bank :=
  if b.live && b.tokensOk h then
    match f b with
    | .stall => b
    | .page _ _ _ _ => b
    | .fault c d => b.takeFault c (b.eng h.eng).pc d
    | .ok b' p => b'.issued h p
  else b

/-- A page fault of A is recorded in its bank (05 R169 step 4). -/
def State.notePage (s : State) (l : Loc) (va : Nat) (write : Bool) (agent : Nat) : State :=
  s.setBank l { s.bank l with acc := { (s.bank l).acc with pf := some ⟨va, write, agent, false, false⟩ } }

/-- A word of S, M, V or T at the cursor: its effects lie in the bank that has the turn. -/
def bankWord (i : Instr) (s : State) (f : Bank → Res Bank) : Out :=
  .next ((s.setBank s.cur.loc (s.here.tryIssue (Instr.hd i) f)).noteFault s.cur.loc)

/-- A word of A or F at the cursor: its effects may reach the whole package. -/
def packageWord (i : Instr) (s : State) (f : State → Res State) : Out :=
  let h := Instr.hd i
  if s.here.live && s.here.tokensOk h then
    match f s with
    | .stall => .next s
    | .page s' va w ag => .next (s'.notePage s.cur.loc va w ag)
    | .fault c d => .next (s.faultAt s.cur.loc c (s.here.eng h.eng).pc d)
    | .ok s' p => .next ((s'.setBank s.cur.loc (s'.here.issued h p)).noteFault s.cur.loc)
  else .next s

/-- A change of the bank that has the turn. -/
def State.onHere (s : State) (f : Bank → Bank) : State := s.setBank s.cur.loc (f s.here)

/-- A change of the bank at a place, whose faults are taken. -/
def State.onBank (s : State) (l : Loc) (f : Bank → Bank) : State := (s.setBank l (f (s.bank l))).noteFault l

end Sys2Proof.Machine
end

