-- ==== Sys2Proof/Machine/Walk.lean ====
section
/-!
DEFINITION. How an engine meets the words of the text (02 R51 to R64): which words it issues, observes or skips, the static
targets (R60) and the resources a kernel header declares (01 R27).
-/

namespace Sys2Proof.Machine

/-! ## Resources (01 R27, 02 R63 step 7) -/

/-- Something a word names that the kernel header must declare. -/
inductive Need where
  | s (r : SReg) | a (r : AReg) | v (n : Fin 32) | k (n : Fin 8) | z (n : Fin 8) | q (n : Fin 8) | p (n : Fin 8)
  | acc (n : Nat) | ring (g : Fin 16) | td (n : Fin 64) | sem (n : Fin 32) | ch (n : Fin 8)
  /-- a declared rotation entry (04 R112) -/
  | rotDeclared (lc : Fin 4)
  /-- a rotation entry that rotates no more registers than are declared (04 R114) -/
  | rotFits (lc : Fin 4)
  /-- a rotation entry that rotates base register `j` (09 R315) -/
  | rotStage (lc : Fin 4) (j : Fin 8)
  deriving DecidableEq, Repr

/-- A count of registers declared, in the order s a v k z b q p (05 R139). -/
def Header.count (h : Header) (i : Nat) : Nat := h.regs.getD i 0

/-- Whether the header and the bank's static copy schedule (09 R320) allow it. -/
def Need.ok (b : Bank) : Need → Bool
  | .s r => r.val < b.hdr.count 0
  | .a (.a n) => n.val < b.hdr.count 1
  | .a (.b n) => n.val < b.hdr.count 5
  | .v n => n.val < b.hdr.count 2
  | .k n => n.val = 0 || n.val < b.hdr.count 3
  | .z n => n.val < b.hdr.count 4
  | .q n => n.val < b.hdr.count 6
  | .p n => n.val < b.hdr.count 7
  | .acc n => n < b.hdr.acc
  | .ring g => g.val < b.hdr.rings
  | .td n => n.val < b.hdr.ntd
  | .sem n => bitAt b.hdr.semmask n.val
  | .ch n => match assoc b.car.ch n.val with | some c => !c.sched | none => true
  | .rotDeclared lc => (assoc b.hdr.rots lc.val).isSome
  | .rotFits lc => match assoc b.hdr.rots lc.val with
    | some r => r.nb ≤ b.hdr.count 5 && r.nz ≤ b.hdr.count 4
    | none => true
  | .rotStage lc j => match assoc b.hdr.rots lc.val with
    | some r => j.val < r.nb
    | none => false

end Sys2Proof.Machine

namespace Sys2Proof

open Sys2Proof.Machine

/-- What a source operand of A names. -/
def ASrc.needs : ASrc → List Need
  | .reg r => [.a r]
  | .da => []

/-- What a source operand of V names. -/
def VSrc.needs : VSrc → List Need
  | .v n => [.v n]
  | .q n => [.q n]
  | .dv => []

/-- What a destination operand of V names. -/
def VDst.needs : VDst → List Need
  | .v n => [.v n]
  | .q n => [.q n]

/-- What a rounding source names. -/
def VRnd.needs : VRnd → List Need
  | .mode _ => []
  | .sr r => r.needs

/-- What the second operand of a shuffle names. -/
def ShufKind.needs : ShufKind → List Need
  | .ilvlo b | .ilvhi b | .even b | .odd b | .slide b _ => b.needs
  | .xswap _ | .rev => []

/-- What the far end of a copy names; a peer ring is one of the core's own declaration (09 R313). -/
def CpKind.needs : CpKind → List Need
  | .toRec t rx => [.td t, .a (.a rx)]
  | .toRing g se n => .ring g :: (if se then [.sem n] else [])
  | .toPeer g se n rx => .ring g :: .a (.a rx) :: (if se then [.sem n] else [])
  | .drain g _ => [.ring g]

/-- What the two forms of a T word name. -/
def TForm.needs : TForm → List Need
  | .image t => [.td t]
  | .ring gi go => [.ring gi, .ring go]

/-- What the origin registers of a FAB word name. -/
def FabHead.needs (h : FabHead) : List Need := [.a (.a h.oa), .a (.a h.ob)]

/-- Everything a word names that its header must declare. -/
def Instr.needs : Instr → List Need
  | .add _ d a b | .sub _ d a b | .mul _ d a b | .and _ d a b | .or _ d a b | .xor _ d a b | .shl _ d a b | .shr _ d a b =>
      [.s d, .s a, .s b]
  | .li _ _ d _ => [.s d]
  | .mov _ d a => [.s d, .s a]
  | .movFromDs _ d => [.s d]
  | .movToDa _ a | .movToDv _ a | .movToDt _ a => [.s a]
  | .cmp _ _ _ d a b => [.s d, .s a, .s b]
  | .loop _ lc (.reg r) _ => [.rotFits lc, .s r]
  | .loop _ lc (.imm _) _ => [.rotFits lc]
  | .endl _ lc rot => if rot then [.rotDeclared lc, .rotFits lc] else []
  | .semSigImm _ n _ | .semWaitImm _ n _ => [.sem n]
  | .semSigReg _ n r | .semWaitReg _ n r => [.sem n, .s r]
  | .csrRd _ r _ | .csrWr _ r _ => [.s r]
  | .ld _ ma _ _ (.reg r) => [.a (.a ma.base), .a r]
  | .ld _ ma _ _ _ => [.a (.a ma.base)]
  | .st _ ma _ x => .a (.a ma.base) :: x.needs
  | .adda _ d a b => .a d :: (a.needs ++ b.needs)
  | .lia _ _ d _ => [.a d]
  | .mova _ d a => .a d :: a.needs
  | .movaToDs _ a | .movaToDv _ a | .movaToDt _ a => a.needs
  | .tdSet _ t _ r | .tdGet _ t _ r => [.td t, .a (.a r)]
  | .tmov _ t ch _ oa ob => [.td t, .ch ch, .a (.a oa), .a (.a ob)]
  | .qbind _ t q _ oa ob => [.td t, .q q, .a (.a oa), .a (.a ob)]
  | .qend _ q => [.q q]
  | .segqState _ d a | .segqProbe _ d a | .astatClr _ d a => .a d :: a.needs
  | .tlbinvPage _ a | .tlbinvSeg _ a => a.needs
  | .astat _ d | .astatMiss _ d => [.a d]
  | .amo _ ma _ _ _ _ _ nr d ra => .a (.a ma.base) :: .a (.a ra) :: (if nr then [] else [.a (.a d)])
  | .cas _ ma _ _ _ _ d ra | .grd _ ma _ _ _ _ d ra | .waita _ ma _ _ d ra =>
      [.a (.a ma.base), .a (.a d), .a (.a ra)]
  | .gadd _ ma _ _ _ d | .gclr _ ma _ _ d | .wakea _ ma _ d | .convey _ ma d | .platQ _ ma d | .platWait _ ma d
  | .platShare _ ma d => [.a (.a ma.base), .a (.a d)]
  | .cp _ t ch k oa ob => .td t :: .ch ch :: .a (.a oa) :: .a (.a ob) :: k.needs
  | .cpl _ t ch k oa ob rc rs => .td t :: .ch ch :: .a (.a oa) :: .a (.a ob) :: .a (.a rc) :: .a (.a rs) :: k.needs
  | .cpring _ g (.c base _ _) _ _ => [.ring g, .a base]
  | .cpring _ g (.r j lc _) _ _ => [.ring g, .rotStage lc j]
  | .cpwpRd _ a ch | .cpwpWait _ a ch => [.a (.a a), .ch ch]
  | .cpwpDs _ ch | .cpcan _ ch => [.ch ch]
  | .siftEnc _ ch _ _ rp rmap rsec rn => [.ch ch, .a (.a rp), .a (.a rmap), .a (.a rsec), .a (.a rn)]
  | .siftDec _ ch (.plain _ rp) _ rmap rsec rn => [.ch ch, .a (.a rp), .a (.a rmap), .a (.a rsec), .a (.a rn)]
  | .siftDec _ ch (.ring g) _ rmap rsec rn => [.ch ch, .ring g, .a (.a rmap), .a (.a rsec), .a (.a rn)]
  | .accmov _ n ch _ _ base => [.acc n.val, .ch ch, .a (.a base)]
  | .mxMma _ n ga gb _ _ w s _ | .mxGer _ n ga gb _ _ w s _ =>
      .acc n.val :: .ring ga :: .ring gb :: (w.toList.map (fun x => .sem x.sem) ++ s.toList.map (fun x => .sem x.sem))
  | .mxBatch _ n ga gb nm1 _ _ _ => [.acc (n.val + nm1.val), .ring ga, .ring gb]
  | .mxZero _ n | .mxTrn _ n => [.acc n.val]
  | .mxLdacc _ n g _ _ _ => [.acc n.val, .ring g]
  | .mxStacc _ n g _ _ _ => [.acc n.val, .ring g]
  | .mxAccadd _ d s _ _ | .mxAccmov _ d s _ => [.acc d.val, .acc s.val]
  | .mxRing _ t g => [.td t, .ring g]
  | .mxPop _ g | .mxFmt _ g _ | .mxScale _ g _ => [.ring g]
  | .mxSemWait _ n _ | .mxSemSig _ n _ | .txSemWait _ n _ | .txSemSig _ n _ => [.sem n]
  | .vadd _ c _ _ d a b | .vsub _ c _ _ d a b | .vmul _ c _ _ d a b => .k c.k :: (d.needs ++ a.needs ++ b.needs)
  | .vfma _ k _ _ _ _ d a b c => .k k.k :: (d.needs ++ a.needs ++ b.needs ++ c.needs)
  | .vmin _ c _ _ d a b | .vmax _ c _ _ d a b => .k c.k :: (d.needs ++ a.needs ++ b.needs)
  | .vabs _ c _ _ d a | .vneg _ c _ _ d a => .k c.k :: (d.needs ++ a.needs)
  | .viadd _ c _ _ _ d a b | .visub _ c _ _ _ d a b => .k c.k :: (d.needs ++ a.needs ++ b.needs)
  | .vimul _ c _ _ _ _ d a b => .k c.k :: (d.needs ++ a.needs ++ b.needs)
  | .vand _ c _ d a b | .vor _ c _ d a b | .vxor _ c _ d a b | .vshl _ c _ d a b | .vperm _ c _ d a b =>
      .k c.k :: (d.needs ++ a.needs ++ b.needs)
  | .vshr _ c _ _ d a b => .k c.k :: (d.needs ++ a.needs ++ b.needs)
  | .vcmp _ k _ _ _ kd a b => .k k :: .k kd :: (a.needs ++ b.needs)
  | .vcmpq _ k _ _ _ _ kd a b => .k k :: .k kd :: (a.needs ++ b.needs)
  | .vsel _ k _ d a b => .k k :: (d.needs ++ a.needs ++ b.needs)
  | .vrsum _ k _ _ _ _ _ d a => .k k :: (d.needs ++ a.needs)
  | .vrmax _ k _ _ _ d a => .k k :: (d.needs ++ a.needs)
  | .vcvt _ c _ _ _ _ _ _ rnd d a => .k c.k :: (d.needs ++ a.needs ++ rnd.needs)
  | .vqmax _ _ zd a b => .z zd :: (a.needs ++ b.needs)
  | .vqcvt _ _ rnd _ zs d a b => .z zs :: (d.needs ++ a.needs ++ b.needs ++ rnd.needs)
  | .vdq _ c _ _ _ zs d a b => .k c.k :: .z zs :: (d.needs ++ a.needs ++ b.needs)
  | .vshuf _ c _ kind d a => .k c.k :: (d.needs ++ a.needs ++ kind.needs)
  | .vrcpe _ c _ d a | .vrsqe _ c _ d a => .k c.k :: (d.needs ++ a.needs)
  | .vpushc _ k _ (.q n _) a => .k k :: .q n :: a.needs
  | .vpushc _ k _ (.cb _) a => .k k :: a.needs
  | .vpopc _ _ (.tail kE) d _ => .k kE :: d.needs
  | .vpopc _ _ .full d _ => d.needs
  | .vmov _ (.copy c _ d a) => .k c.k :: (d.needs ++ a.needs)
  | .vmov _ (.ds a _) | .vmov _ (.da a _) => a.needs
  | .vmov _ (.fz d z) => .z z :: d.needs
  | .vmov _ (.tz z a) => .z z :: a.needs
  | .vmov _ (.fk d k) => .k k :: d.needs
  | .vmov _ (.tk k a) => .k k :: a.needs
  | .vbcast _ _ d _ => d.needs
  | .vsetl _ _ k _ => [.k k]
  | .vaccRd _ n d _ _ _ _ _ _ => .acc n.val :: d.needs
  | .vaccWr _ n a _ _ _ _ _ _ => .acc n.val :: a.needs
  | .viota _ c _ _ d => .k c.k :: d.needs
  | .vcnt _ _ _ d ka => .k ka :: d.needs
  | .vpopq _ c _ d => .k c.k :: d.needs
  | .txPlan _ p _ => [.p p]
  | .txFwd _ p t | .txInv _ p t | .txRfwd _ p t | .txRinv _ p t | .txDigrev _ p t => [.p p, .td t]
  | .txFwdRing _ p gi go | .txInvRing _ p gi go | .txRfwdRing _ p gi go | .txRinvRing _ p gi go | .txDigrevRing _ p gi go =>
      [.p p, .ring gi, .ring go]
  | .txStage _ p f _ _ => .p p :: f.needs
  | .txTwid _ (.image t) _ _ _ => [.td t]
  | .txTwid _ (.ring g) _ _ _ => [.ring g]
  | .txLeg _ t g _ _ => [.td t, .ring g]
  | .txScale _ f _ _ => f.needs
  | .txRing _ t g => [.td t, .ring g]
  | .txCplx _ t g _ _ _ => [.td t, .ring g]
  | .fbLd _ t h _ _ _ | .fbSt _ t h _ => .td t :: h.needs
  | .fbMcst _ t h _ _ _ | .fbMcld _ t h _ _ _ _ => .td t :: h.needs
  | .fbAmo _ t h _ _ _ _ ra rb => .td t :: .a (.a ra) :: .a (.a rb) :: h.needs
  | .fbGadd _ t h _ _ ra => .td t :: .a (.a ra) :: h.needs
  | .fbSub _ t _ _ rp => [.td t, .a (.a rp)]
  | .fbColl _ _ _ _ oa _ => [.a (.a oa)]
  | _ => []

end Sys2Proof

namespace Sys2Proof.Machine

/-! ## The text (02 R51, R60) -/

/-- The word at an index of the text. -/
def Bank.word (b : Bank) (i : Nat) : Nat := spGet 0 b.text i

/-- The words after an index, at most four. -/
def Bank.after (b : Bank) (i : Nat) : List Nat := (natsFrom (i + 1) (min 4 (b.hdr.textlen - (i + 1)))).map b.word

/-- The tag of a word (02 R38). -/
def tagOf (w : Nat) : Nat := fld w 29 3

/-- The opcode of a word (02 R37). -/
def opOf (w : Nat) : Nat := fld w 18 7

/-- Opcodes of the flow words (02 R56, R70). -/
def flowOp (op : Nat) : Bool := [0x0C, 0x0D, 0x0E, 0x0F, 0x10, 0x11, 0x12, 0x15, 0x16, 0x17, 0x18, 0x19].contains op

/-- Opcodes of the F words whose target A forms (12 R396, 02 R70). -/
def targetOp (op : Nat) : Bool := [0x00, 0x01, 0x02, 0x03, 0x05, 0x06, 0x07, 0x0A].contains op

/-- An index inside the text that is not an extension word (02 R60). -/
def Bank.landable (b : Bank) (t : Int) : Bool := decide (0 ≤ t) && decide (t < (b.hdr.textlen : Int)) && tagOf (b.word t.toNat) != 6

/-- An `ENDL` at an index (02 R60): its loop counter and rotation bit (04 R112). -/
def Bank.endlAt (b : Bank) (t : Nat) : Option (Nat × Bool) :=
  let w := b.word t
  if t < b.hdr.textlen ∧ tagOf w = 0 ∧ opOf w = 0x11 then some (fld w 16 2, bitAt w 15) else none

/-- A signed word offset from an index. -/
def offTo {n : Nat} (pc : Nat) (off : BitVec n) : Int := (pc : Int) + off.toInt

/-- The static targets (02 R60). -/
def Bank.targetOk (b : Bank) (pc : Nat) : Instr → Bool
  | .br _ off | .brc _ off | .call _ off | .iter _ off => b.landable (offTo pc off)
  | .loop _ lc _ off => match b.endlAt (pc + off.toNat) with
    | some (n, _) => n = lc.val && 2 ≤ off.toNat
    | none => false
  | .lexit _ _ off => (b.endlAt (pc + off.toNat)).isSome
  | _ => true

/-! ## Meeting a word (02 R63, R64) -/

/-- How an engine meets the word at its program counter. -/
inductive Meet where
  /-- a check of decode fails -/
  | fault (c : FCode)
  /-- it skips one word -/
  | skip
  /-- it observes a flow word -/
  | flow (i : Instr)
  /-- the word is its own -/
  | own (i : Instr)
  /-- A forms the target of a word of F -/
  | target (i : Instr)
  deriving DecidableEq, Repr

/-- Steps 2 to 7 of decode at an index (02 R63). -/
def Bank.checked (b : Bank) (pc : Nat) : Except FCode Instr :=
  match decodeHead (b.word pc) (b.after pc) with
  | .error .illegal => .error .illegal
  | .error .reserved => .error .reserved
  | .ok (i, _) =>
    if !b.targetOk pc i then .error .illegal
    else if !(Instr.needs i).all (Need.ok b) then .error .resource
    else .ok i

/-- How engine `e` meets the word at its program counter (02 R51, R63, R64). -/
def Bank.meet (b : Bank) (e : Engine) : Meet :=
  let pc := (b.eng e).pc
  let w := b.word pc
  let tag := tagOf w
  let go (k : Instr → Meet) : Meet := match b.checked pc with | .ok i => k i | .error c => .fault c
  if b.hdr.textlen ≤ pc ∨ tag = 7 then .fault .illegal
  else if tag = 6 then (if pc = 0 then .fault .illegal else .skip)
  else if tag = 0 ∧ flowOp (opOf w) then go .flow
  else if tag = e.tag then go .own
  else if e = .A ∧ tag = 5 ∧ targetOp (opOf w) then go .target
  else .skip

/-- The slip bound (02 R52). While the spread exceeds a bound that was lowered, the engines whose own lead is at or past it wait, and those behind them go
on (02 R54; log entry 43, DEDUCED). -/
def Bank.slipOk (b : Bank) (e : Engine) : Bool := (b.eng e).walk - b.wmin < b.seq.slipw

/-- A word skipped (02 R51). -/
def Bank.skip (b : Bank) (e : Engine) : Bank :=
  { b.setEng e ((b.eng e).pass 0 none) with seq := { b.seq with wdog := 0 } }

end Sys2Proof.Machine
end

