-- ==== Sys2Proof/Machine/Memory.lean ====
section
/-!
DEFINITION. Memory and scratchpads as bytes: reading and writing at a place (06 R184, R185, R189), the watches a write ends
(07 R243), the granules it marks for subscribers (12 R415), and uncorrectable bytes (15 R500).
-/

namespace Sys2Proof.Machine

/-- The canonical form of memory: addresses strictly rising, and no byte listed that equals what an unlisted one reads as. -/
def Memory.wf (m : Memory) : Bool := spWf 0 m

/-! ## Homes (06 R189) -/

/-- The home of a physical address. -/
def homeOf (pa : Nat) : Nat := bits pa 51 48

/-- Whether a byte lies in the valid part of its home (06 R189). -/
def paValid (pa : Nat) : Bool :=
  if 2 ^ 52 ≤ pa then false
  else if homeOf pa = 0 then bits pa 47 40 == 0 && bits pa 35 0 < 48 * 2 ^ 30
  else if homeOf pa = 1 then true
  else if homeOf pa = 4 then bits pa 47 31 == 0
  else if homeOf pa = 5 then bits pa 47 31 == 0 && bits pa 26 0 < 124 * 2 ^ 20
  else if homeOf pa = 8 then true
  else false

/-- The cluster of a core (01 R9, R15). -/
def clusterOf (core : Nat) : Nat := core / 8

/-- The die of a core (01 R9, R15). -/
def dieOf (core : Nat) : Nat := core / 32

/-- Byte `x` of the SP1 of a cluster (06 R189). -/
def sp1Pa (cluster x : Nat) : Nat := 4 * 2 ^ 48 + cluster * 2 ^ 25 + x

/-- Byte `x` of the SP2 of a die (06 R189). -/
def sp2Pa (die x : Nat) : Nat := 5 * 2 ^ 48 + die * 2 ^ 27 + x

/-! ## Bytes -/

/-- A place `n` bytes on. -/
def Place.add : Place → Nat → Place
  | .sp0 l o, n => .sp0 l (o + n)
  | .pa a, n => .pa (a + n)

/-- `n` bytes of memory at a physical address. -/
def State.readPa (s : State) (pa n : Nat) : List Byte := spGetN 0 s.mem pa n

/-- The number held in `n` bytes at a physical address. -/
def State.numPa (s : State) (pa n : Nat) : Nat := ofLe (s.readPa pa n)

/-- `n` bytes of a bank's SP0 share. -/
def Bank.sp0Read (b : Bank) (off n : Nat) : List Byte := spGetN 0 b.acc.sp0 off n

/-- Whether a started T word holds a byte of a run of the share (11 R370). -/
def Bank.tHolds (b : Bank) (r : Nat × Nat) : Bool := b.tx.work.any (fun w => w.ext.any (meets r))

/-- Whether a started T word of a bank holds a byte of some ranges (11 R370). -/
def State.tHolds (s : State) (r : List Rng) : Bool :=
  r.any (fun x => match x.pl with
    | .sp0 l o => (s.bank l).tHolds (o, x.len)
    | .pa _ => false)

/-- `n` bytes at a place. -/
def State.readPl (s : State) (p : Place) (n : Nat) : List Byte :=
  match p with
  | .sp0 l o => (s.bank l).sp0Read o n
  | .pa a => s.readPa a n

/-- The uncorrectable bytes of a place's store. -/
def State.badAt (s : State) : Place → List Nat
  | .sp0 l _ => (s.bank l).acc.bad
  | .pa _ => s.bad

/-- The address within the store of a place. -/
def Place.addr : Place → Nat
  | .sp0 _ o => o
  | .pa a => a

/-- The first uncorrectable byte of a range (15 R500). -/
def State.firstBad (s : State) (p : Place) (n : Nat) : Option Nat :=
  (natsFrom p.addr n).find? (fun a => (s.badAt p).contains a)

/-- Bytes in the protected unit of a store: 8 of an SRAM, 32 of HBM4E (15 R500); host memory is taken by 8. -/
def unitOf (pa : Nat) : Nat := if homeOf pa = 0 then 32 else 8

/-- The uncorrectable bytes left after a write of `n` bytes at `a`: those of units it covers whole are cleared (15 R500). -/
def clearBad (u : Nat) (bad : List Nat) (a n : Nat) : List Nat :=
  bad.filter (fun x => !(decide (a ≤ x / u * u) && decide (x / u * u + u ≤ a + n)))

/-! ## Watches (07 R242, R243) -/

/-- A parked `WAITA` ends with a code. -/
def Bank.endPark (b : Bank) (code : Reg64) : Bank :=
  match b.acc.park with
  | some (.waita id d _ _) =>
    (({ b with acc := { b.acc with park := none } }).setAreg (.a d) code).complete id
  | _ => b

/-- Whether the bank's parked `WAITA` watches a granule of its SP0 share that `n` bytes at `off` touch. -/
def Bank.sp0Watched (b : Bank) (off n : Nat) : Bool :=
  match b.acc.park with
  | some (.waita _ _ (.sp0 _ g) _) => g < off + n && off < g + 64
  | _ => false

/-- Watches on the granules that `n` bytes at a physical address touch end with code 1. -/
def State.endWatches (s : State) (pa n : Nat) : State :=
  let hit (w : Watch) : Bool := match w.g with | .pa g => g < pa + n && pa < g + 64 | .sp0 _ _ => false
  let s' := (s.watches.filter hit).foldl (fun s w => s.setBank w.l ((s.bank w.l).endPark 1)) s
  { s' with watches := s.watches.filter (fun w => !hit w) }

/-! ## Subscriptions (12 R415) -/

/-- A byte of the publisher range marked: merged into its granule, or in a new buffer, for which the oldest of 8 leaves with the bytes that
`read` gives. -/
def Fan.markByte (read : Nat → List Byte) (f : Fan) (idx bitn : Nat) : Fan :=
  if f.pend.any (fun x => x.idx == idx) then
    { f with pend := f.pend.map (fun x => if x.idx = idx then { x with mask := x.mask ||| 2 ^ bitn } else x) }
  else match f.pend with
    | g :: t =>
      if f.pend.length < 8 then { f with pend := f.pend ++ [⟨idx, 2 ^ bitn⟩] }
      else { f with pend := t ++ [⟨idx, 2 ^ bitn⟩], left := f.left ++ [(g, read (f.off + 64 * g.idx))] }
    | [] => { f with pend := [⟨idx, 2 ^ bitn⟩] }

/-- The bytes of a write marked in a fan-out entry. -/
def Fan.mark (read : Nat → List Byte) (f : Fan) (off n : Nat) : Fan :=
  (natsFrom off n).foldl (fun f a =>
    if f.off ≤ a ∧ a < f.off + f.len then f.markByte read ((a - f.off) / 64) ((a - f.off) % 64) else f) f

/-- A write of bytes to a bank's SP0 share by an agent other than a forwarder. -/
def Bank.sp0Put (b : Bank) (off : Nat) (data : List Byte) : Bank :=
  let b := { b with acc := { b.acc with sp0 := spPutN 0 b.acc.sp0 off data, bad := clearBad 8 b.acc.bad off data.length } }
  let b := { b with fab := { b.fab with fan := b.fab.fan.map (fun f : Fan => f.mark (fun a => b.sp0Read a 64) off data.length) } }
  if b.sp0Watched off data.length then b.endPark 1 else b

/-- A write of bytes to memory. -/
def State.writePa (s : State) (pa : Nat) (data : List Byte) : State :=
  ({ s with mem := spPutN 0 s.mem pa data, bad := clearBad (unitOf pa) s.bad pa data.length }).endWatches pa data.length

/-- A write of bytes at a place. -/
def State.writePl (s : State) (p : Place) (data : List Byte) : State :=
  match p with
  | .sp0 l o => s.setBank l ((s.bank l).sp0Put o data)
  | .pa a => s.writePa a data

/-- The bytes of several ranges, in order. -/
def State.readRngs (s : State) (r : List Rng) : List Byte := r.flatMap (fun x => s.readPl x.pl x.len)

/-- Bytes written over several ranges, in order. -/
def State.writeRngs (s : State) : List Rng → List Byte → State
  | [], _ => s
  | x :: t, data => (s.writePl x.pl (data.take x.len)).writeRngs t (data.drop x.len)

/-- The first uncorrectable byte of several ranges. -/
def State.badRngs (s : State) (r : List Rng) : Option Nat := r.findSome? (fun x => s.firstBad x.pl x.len)

/-- Two ranges share a byte. -/
def Rng.overlaps (x y : Rng) : Bool :=
  match x.pl, y.pl with
  | .sp0 l o, .sp0 l' o' => l == l' && o < o' + y.len && o' < o + x.len
  | .pa a, .pa a' => a < a' + y.len && a' < a + x.len
  | _, _ => false

/-- Two lists of ranges share a byte. -/
def overlap (x y : List Rng) : Bool := x.any (fun a => y.any (fun b => a.overlaps b))

/-! ## The event log (15 R496, R497) -/

/-- The number of an event. -/
def EvCode.code : EvCode → Nat
  | .queueOverrun => 1 | .slotLate => 2 | .datumLost => 3 | .datumLocked => 4 | .linkRetrain => 5 | .linkFailed => 6
  | .linkBadkind => 7 | .routeSwap => 8 | .windowLate => 9 | .winlen => 10 | .ergToken => 11 | .eccCorr => 12
  | .eccUncorr => 13 | .powerLimit => 14 | .plumb => 15 | .logLost => 16

/-- An event appended to the log, or dropped and counted (15 R496); a trigger of mode 3 on its code fires (15 R498). -/
def State.logEvent (s : State) (c : EvCode) (die port : Nat) (detail : Nat) : State :=
  let e := s.regs.ev
  let p := s.regs.plumb
  let p := if p.mode = 3 ∧ p.code = c.code then
      (if p.due then { p with mode := 0, miss := p.miss + 1 } else { p with mode := 0, due := true }) else p
  let s := { s with regs := { s.regs with plumb := p } }
  if !e.en then { s with regs := { s.regs with ev := { e with lost := e.lost + 1 } } }
  else if 2 ^ e.lg ≤ e.head - e.tail then { s with regs := { s.regs with ev := { e with lost := e.lost + 1, mark := true } } }
  else
    let ent := leBytes 2 c.code ++ leBytes 1 die ++ leBytes 1 port ++ leBytes 4 0 ++ leBytes 8 s.dtime ++ leBytes 16 detail
    let s := s.writePa (e.base + 32 * (e.head % 2 ^ e.lg)) ent
    { s with regs := { s.regs with ev := { e with head := e.head + 1 }, msix := s.regs.msix ++ [(0, 66)] } }

/-- A word that has just ended its launch with an uncorrectable error in the core's own share: the event is logged (15 R500). -/
def eccNote (l : Loc) (s : State) (o : Out) : Out :=
  match o with
  | .next t => match (s.bank l).flt, (t.bank l).flt with
    | none, some f => .next (if f.code = .uncorr then t.logEvent .eccUncorr (dieOf l.core) 0 f.detail else t)
    | _, _ => o
  | _ => o

end Sys2Proof.Machine
end

