-- ==== Sys2Proof/Machine/Translate.lean ====
section
/-!
DEFINITION. Addresses: the spaces (06 R183 to R185), the walk (R186 to R190), the TLB (R191 to R193), accesses over two pages
(R194), the homes a word serves (R189), and the Plat (07 R223 to R227).
-/

namespace Sys2Proof.Machine

/-- A context by its number. -/
def State.ctx (s : State) (c : Nat) : Option Ctx := assoc s.ctxs c

/-- The segment of a VIRT address (06 R186). -/
def segOf (va : Nat) : Nat := bits va 56 48

/-! ## The walk (06 R190) -/

/-- What a walk ends with: a page, a fatal fault or a page fault. -/
inductive WalkRes where
  | page (base size pa : Nat) (w : Bool)
  | fault (c : FCode)
  | absent
  deriving DecidableEq, Repr

/-- Whether a table may stand at a physical address: HBM4E or host memory (06 R190). -/
def tableHome (pa : Nat) : Bool := paValid pa && (homeOf pa == 0 || homeOf pa == 1)

/-- The end of a walk at a leaf (06 R190). -/
def leafRes (va size pa : Nat) (w : Bool) : WalkRes :=
  if pa % size = 0 then .page (va / size * size) size pa w else .fault .pte

/-- The levels of a walk from a table on: `fuel` is the level, `pick` the choice among 16 differing entries (06 R188). -/
def walkFrom (s : State) (va : Nat) (segW : Bool) (pick : Nat) : Nat → Nat → WalkRes
  | 0, _ => .absent
  | lvl + 1, t =>
    let l := lvl + 1
    if !tableHome t then .fault .pte
    else
      let idx := bits va (9 * l + 11) (9 * l + 3)
      let e := s.numPa (t + 8 * idx) 8
      let ps := bitAt e 2
      if !bitAt e 0 then .absent
      else if bits e 63 52 ≠ 0 ∨ bits e 11 3 ≠ 0 then .fault .pte
      else if l = 4 ∧ ps then .fault .pte
      else if l = 1 then
        if ps then
          let e' := s.numPa (t + 8 * (idx / 16 * 16 + pick % 16)) 8
          let grp := (upTo 16).map (fun i => s.numPa (t + 8 * (idx / 16 * 16 + i)) 8)
          let x := if grp.all (· == e) then e else e'
          leafRes va (2 ^ 16) (bits x 51 12 * 2 ^ 12) (bitAt x 1 && segW)
        else leafRes va (2 ^ 12) (bits e 51 12 * 2 ^ 12) (bitAt e 1 && segW)
      else if ps then
        leafRes va (if l = 3 then 2 ^ 30 else 2 ^ 21) (bits e 51 12 * 2 ^ 12) (bitAt e 1 && segW)
      else if bitAt e 1 then .fault .pte
      else walkFrom s va segW pick lvl (bits e 51 12 * 2 ^ 12)

/-- The whole walk of a VIRT address below 2^57 (06 R187, R190). -/
def walkVa (s : State) (c : Ctx) (va pick : Nat) : WalkRes :=
  let se := s.numPa (c.segPa + 16 * segOf va) 16
  if !bitAt se 0 then .absent
  else if bits se 127 52 ≠ 0 ∨ bits se 11 2 ≠ 0 then .fault .pte
  else walkFrom s va (bitAt se 1) pick 4 (bits se 51 12 * 2 ^ 12)

/-! ## The TLB (06 R191, R192) -/

/-- What a translation answers. -/
inductive TRes where
  | ok (pa : Nat)
  | fault (c : FCode)
  | page (va : Nat)
  deriving DecidableEq, Repr

/-- Whether a TLB entry covers an address of a context. -/
def TlbEnt.covers (e : TlbEnt) (ctx va : Nat) : Bool := e.ctx == ctx && e.va ≤ va && va < e.va + e.size

/-- An entry installed; at 2,048 entries one is replaced, which one is free (06 R191). -/
def tlbPut (t : List TlbEnt) (e : TlbEnt) (pick : Nat) : List TlbEnt :=
  if t.length < 2048 then e :: t else e :: t.eraseIdx (pick % 2048)

/-- The TLB of a core put. -/
def State.setTlb (s : State) (core : Nat) (t : List TlbEnt) : State := s.setCore core { s.core core with tlb := t }

/-- Translation of one VIRT address for a bank's context through its core's TLB (06 R190 to R192). -/
def State.translate (s : State) (l : Loc) (ctx va : Nat) (write : Bool) : State × TRes :=
  if 2 ^ 57 ≤ va then (s, .fault .addr)
  else
    match s.ctx ctx with
    | none => (s, .fault .pte)
    | some c =>
      let tlb := (s.core l.core).tlb
      let hits := tlb.filter (fun e => e.covers ctx va)
      match hits with
      | [e] => if write && !e.w then (s, .fault .prot) else (s, .ok (e.pa + (va - e.va)))
      | _ =>
        let (pick, s) := s.choose (2 ^ 32)
        let rest := tlb.filter (fun e => !e.covers ctx va)
        let s := s.setTlb l.core rest
        let s := if hits.isEmpty then s else s.setBank l { s.bank l with acc := { (s.bank l).acc with conf := true } }
        let s := s.setBank l { s.bank l with acc := { (s.bank l).acc with misses := (s.bank l).acc.misses + 1 } }
        match walkVa s c va pick with
        | .absent => (s, .page va)
        | .fault f => (s, .fault f)
        | .page base size pa w =>
          if write && !w then (s, .fault .prot)
          else (s.setTlb l.core (tlbPut rest ⟨ctx, base, size, pa, w⟩ (pick / 16)), .ok (pa + (va - base)))

/-! ## Accesses (06 R183, R189, R194) -/

/-- What an access finds before it performs: its ranges, a fatal fault, or a page fault at an address. -/
inductive ARes where
  | ok (r : List Rng)
  | fault (c : FCode)
  | page (va : Nat)
  deriving DecidableEq, Repr

/-- The parts of `n` bytes at an address that lie in different 4 KiB pages; `fuel` bounds the parts. -/
def pageParts : Nat → Nat → Nat → List (Nat × Nat)
  | 0, _, _ => []
  | fuel + 1, va, n =>
    if n = 0 then [] else
    let k := min n (4096 - va % 4096)
    (va, k) :: pageParts fuel (va + k) (n - k)

/-- Whether every byte lies in the valid part of a home of the list (06 R189). -/
def homesOk (homes : List Nat) (pa n : Nat) : Bool :=
  homes.contains (homeOf pa) && paValid pa && (n = 0 || (paValid (pa + n - 1) && homeOf (pa + n - 1) == homeOf pa))

/-- Whether a segment of a context is being migrated (06 R196): accesses to it wait. -/
def State.held (s : State) (ctx va n : Nat) : Bool :=
  s.migs.any (fun m => m.ctx == ctx && (m.seg == segOf va || m.seg == segOf (va + n - 1)))

/-! ## The Plat (07 R223 to R227) -/

/-- What an access does to a parcel, by the columns of 07 R226. -/
inductive PKindAcc where
  | read | write | atomic | grain | grd | watch
  deriving DecidableEq, Repr

/-- The parcel a lookup finds: an entry with its index and qwords, or the default parcel. -/
inductive Parcel where
  | entry (idx : Nat) (p0 p1 : Nat)
  | dflt
  | bad
  deriving DecidableEq, Repr

/-- VIRT base of an entry (07 R224). -/
def platBase (p0 : Nat) : Nat := bits p0 56 0
/-- lgsz of an entry. -/
def platLg (p0 : Nat) : Nat := bits p0 61 57
/-- mode of an entry. -/
def platMode (p0 : Nat) : Nat := bits p0 63 62
/-- owner of an entry. -/
def platOwner (p1 : Nat) : Nat := bits p1 9 0
/-- generation of an entry. -/
def platGen (p1 : Nat) : Nat := bits p1 63 32

/-- A malformed entry (07 R224). -/
def platBad (p0 p1 : Nat) : Bool :=
  platMode p0 == 3 || platLg p0 < 12 || platLg p0 == 31 || platBase p0 % 2 ^ platLg p0 != 0 || bits p1 31 10 != 0
    || (if platMode p0 = 0 then 512 ≤ platOwner p1 else platOwner p1 != 0)

/-- Whether an entry covers an address. -/
def platCovers (p0 va : Nat) : Bool := platBase p0 ≤ va && va < platBase p0 + 2 ^ platLg p0

/-- The entries of a context's Plat (07 R224). -/
def State.platTable (s : State) (c : Ctx) : List (Nat × Nat × Nat) :=
  (upTo c.platN).map (fun i => (i, s.numPa (c.platPa + 16 * i) 8, s.numPa (c.platPa + 16 * i + 8) 8))

/-- Ascending order of base without overlap (07 R225). -/
def platSorted : List (Nat × Nat × Nat) → Bool
  | [] => true
  | [_] => true
  | (_, p0, _) :: (j, q0, q1) :: t => platBase p0 + 2 ^ platLg p0 ≤ platBase q0 && platSorted ((j, q0, q1) :: t)

/-- An entry as a parcel. -/
def parcelOf (va : Nat) : Nat × Nat × Nat → Parcel
  | (i, p0, p1) => if platBad p0 p1 then .bad else if platCovers p0 va then .entry i p0 p1 else .dflt

/-- The search of the table (07 R225): the greatest base not above the address; a table out of order gives an entry that
covers it or the default parcel, which is free. -/
def platSearch (t : List (Nat × Nat × Nat)) (va pick : Nat) : Parcel :=
  let below := t.filter (fun e => platBase e.2.1 ≤ va)
  if platSorted t then
    match below.getLast? with
    | some e => parcelOf va e
    | none => .dflt
  else
    let c := below.filter (fun e => platCovers e.2.1 va)
    match (c.drop (pick % (c.length + 1))).head? with
    | some e => parcelOf va e
    | none => .dflt

/-- The Plat cache of a core put. -/
def State.setPlat (s : State) (core : Nat) (p : List PlatEnt) : State := s.setCore core { s.core core with plat := p }

/-- A lookup through the core's Plat cache (07 R225): a hit reads the cache; a miss searches the table and fills it. -/
def State.platLookup (s : State) (core ctx va : Nat) : State × Parcel :=
  match (s.core core).plat.find? (fun e => e.ctx == ctx && platCovers e.p0.toNat va) with
  | some e => (s, .entry e.idx e.p0.toNat e.p1.toNat)
  | none =>
    match s.ctx ctx with
    | none => (s, .dflt)
    | some c =>
      let (pick, s) := s.choose (2 ^ 32)
      match platSearch (s.platTable c) va pick with
      | .entry i p0 p1 =>
        let old := (s.core core).plat
        let old := if old.length < 256 then old else old.eraseIdx (pick / 2 ^ 20 % 256)
        (s.setPlat core (⟨ctx, i, BitVec.ofNat 64 p0, BitVec.ofNat 64 p1⟩ :: old), .entry i p0 p1)
      | x => (s, x)

/-- The verdict of 07 R226 on an access by a core to an entry. -/
def platVerdict (core : Nat) (k : PKindAcc) (p0 p1 : Nat) : Option FCode :=
  if platMode p0 = 0 then
    if platOwner p1 = core then (match k with | .grain | .grd => some .atomic | _ => none) else some .owner
  else if platMode p0 = 1 then (match k with | .write | .atomic | .grain => some .readonly | _ => none)
  else none

/-- The check of every part of an access, lowest address first (07 R226, R227). -/
def State.platParts (s : State) (core ctx : Nat) (k : PKindAcc) : List (Nat × Nat) → State × Option FCode
  | [] => (s, none)
  | (va, _) :: t =>
    let (s, p) := s.platLookup core ctx va
    match p with
    | .bad => (s, some .plat)
    | .dflt => s.platParts core ctx k t
    | .entry _ p0 p1 =>
      match platVerdict core k p0 p1 with
      | some f => (s, some f)
      | none => s.platParts core ctx k t

/-- The Plat check of an access's ranges (07 R227): only its VIRT parts are checked. -/
def State.platCheck (s : State) (core ctx : Nat) (k : PKindAcc) (r : List Rng) : State × Option FCode :=
  s.platParts core ctx k (r.flatMap (fun x => match x.va with
    | some va => pageParts (x.len / 4096 + 2) va x.len
    | none => []))

/-! ## Accesses in a space (06 R183, R194; 07 R227) -/

/-- The size of the page by which a core's TLB translates an address. -/
def State.pageSize (s : State) (core ctx va : Nat) : Nat := ((s.core core).tlb.find? (fun e => e.covers ctx va)).elim 0 (·.size)

/-- Translation of every part (06 R194, 07 R227): the fatal fault of the lowest address first, one of the Plat check among them, else the
lowest page fault. Where every part translates, the Plat is judged as the access performs (07 R235). -/
def State.translateParts (s : State) (l : Loc) (ctx : Nat) (k : PKindAcc) (write : Bool) (homes : List Nat) :
    List (Nat × Nat) → State × ARes
  | [] => (s, .ok [])
  | (va, n) :: t =>
    match s.translate l ctx va write with
    | (s, .fault c) => (s, .fault c)
    | (s, .page v) =>
      match s.translateParts l ctx k write homes t with
      | (s, .fault c) => (s, .fault c)
      | (s, .page _) => (s, .page v)
      | (s, .ok _) =>
        match s.platParts l.core ctx k t with
        | (s, some f) => (s, .fault f)
        | (s, none) => (s, .page v)
    | (s, .ok pa) =>
      if !homesOk homes pa n then (s, .fault .home)
      else match s.translateParts l ctx k write homes t with
        | (t, .ok rs) => (t, .ok (⟨.pa pa, n, some va, s.pageSize l.core ctx va⟩ :: rs))
        | (s, r) =>
          match s.platParts l.core ctx k [(va, n)] with
          | (s, some f) => (s, .fault f)
          | (s, none) => (s, r)

/-- A VIRT access of `n` bytes. -/
def State.virt (s : State) (l : Loc) (k : PKindAcc) (va n : Nat) (write : Bool) (homes : List Nat) : State × ARes :=
  if 2 ^ 57 ≤ va ∨ 2 ^ 57 < va + n then (s, .fault .addr)
  else s.translateParts l (s.bank l).ctx k write homes (pageParts (n / 4096 + 2) va n)

/-- An access of `n` bytes in a space (06 R183 to R185). -/
def State.access (s : State) (l : Loc) (k : PKindAcc) (asp : Asp) (ea n : Nat) (write : Bool) (homes : List Nat) : State × ARes :=
  match asp with
  | .virt => s.virt l k ea n write homes
  | .sp0 => (s, if ea + n ≤ (s.bank l).hdr.spad then .ok [⟨.sp0 l ea, n, none, 0⟩] else .fault .bounds)
  | .sp1 => (s, match s.ctx (s.bank l).ctx with
      | some c => if ea + n ≤ c.sp1size * 65536 then .ok [⟨.pa (sp1Pa (clusterOf l.core) (c.sp1base * 65536 + ea)), n, none, 0⟩]
                  else .fault .bounds
      | none => .fault .bounds)
  | .sp2 => (s, match s.ctx (s.bank l).ctx with
      | some c => if ea + n ≤ c.sp2size * 65536 then .ok [⟨.pa (sp2Pa (dieOf l.core) (c.sp2base * 65536 + ea)), n, none, 0⟩]
                  else .fault .bounds
      | none => .fault .bounds)

/-! ## Accesses of the launch machinery (05 R506) -/

/-- What a read or write under a context's translation ends with. -/
inductive MRes where
  | ok (data : List Byte)
  | fault (c : FCode)
  | page (va : Nat)
  | bad (pa : Nat)
  deriving DecidableEq, Repr

/-- One walk for the launch machinery or a remote request: no core's TLB serves it. -/
def State.walkFor (s : State) (ctx va : Nat) (write : Bool) : State × TRes :=
  if 2 ^ 57 ≤ va then (s, .fault .addr)
  else match s.ctx ctx with
    | none => (s, .fault .pte)
    | some c =>
      let (pick, s) := s.choose (2 ^ 32)
      match walkVa s c va pick with
      | .absent => (s, .page va)
      | .fault f => (s, .fault f)
      | .page base _ pa w => if write && !w then (s, .fault .prot) else (s, .ok (pa + (va - base)))

/-- Physical ranges of the parts of an access, all of them in homes of a list. -/
def State.walkParts (s : State) (ctx : Nat) (write : Bool) (homes : List Nat) : List (Nat × Nat) → State × ARes
  | [] => (s, .ok [])
  | (va, n) :: t =>
    match s.walkFor ctx va write with
    | (s, .fault c) => (s, .fault c)
    | (s, .page v) =>
      match s.walkParts ctx write homes t with
      | (s, .fault c) => (s, .fault c)
      | (s, _) => (s, .page v)
    | (s, .ok pa) =>
      if !homesOk homes pa n then (s, .fault .home)
      else match s.walkParts ctx write homes t with
        | (s, .ok r) => (s, .ok (⟨.pa pa, n, some va, 0⟩ :: r))
        | x => x

/-- Ranges of `n` bytes at a VIRT address of a context. -/
def State.walkAll (s : State) (ctx va n : Nat) (write : Bool) (homes : List Nat) : State × ARes :=
  if n ≠ 0 ∧ 2 ^ 57 < va + n then (s, .fault .addr) else s.walkParts ctx write homes (pageParts (n / 4096 + 2) va n)

/-- Whether ranges touch a page that is being moved: the access is held at its home (06 R196). -/
def State.movingRngs (s : State) (r : List Rng) : Bool :=
  s.migs.any (fun m => m.pairs.any (fun p => overlap r [⟨.pa p.1, p.2.2, none, 0⟩]))

/-- A read by the launch machinery (05 R506): HBM4E and host memory, no Plat check. -/
def State.mread (s : State) (ctx va n : Nat) : State × MRes :=
  match s.walkAll ctx va n false [0, 1] with
  | (s, .fault c) => (s, .fault c)
  | (s, .page v) => (s, .page v)
  | (s, .ok r) =>
    match s.badRngs r with
    | some a => (s.logEvent .eccUncorr 0 0 a, .bad a)
    | none => (s, .ok (s.readRngs r))

/-- Whether a write by the launch machinery reaches memory. -/
def State.mapped (s : State) (ctx va n : Nat) : Bool :=
  match s.walkAll ctx va n true [0, 1] with
  | (_, .ok _) => true
  | _ => false

/-- A write by the launch machinery; where the address is not mapped nothing is written (log entry 16). -/
def State.mwrite (s : State) (ctx va : Nat) (data : List Byte) : State :=
  match s.walkAll ctx va data.length true [0, 1] with
  | (s, .ok r) => s.writeRngs r data
  | (s, _) => s

end Sys2Proof.Machine
end

