-- ==== Sys2Proof/Machine/Granule.lean ====
section
/-!
DEFINITION. Granules of subscriptions on their way (12 R415 to R419): a part of a launch wherever it is, sending, delivery, and the drift log.
-/

namespace Sys2Proof.Machine

/-- A change of the bank that holds a core's part of a launch: resident, or in the save area (05 R168). -/
def State.modPart (s : State) (id : Nat) (l : Loc) (f : Bank → Bank) : State :=
  match s.launch id with
  | none => s
  | some x =>
    if (assoc x.saved l.core).isSome then
      s.modLaunch id (fun x => { x with saved := x.saved.map (fun p => if p.1 = l.core then (p.1, f p.2) else p) })
    else if (s.bank l).launch = some id then s.setBank l (f (s.bank l))
    else s

/-- The bank that holds a core's part of a launch; an empty one if its part has ended. -/
def State.partOf (s : State) (id : Nat) (l : Loc) : Bank :=
  match s.launch id with
  | none => {}
  | some x => match assoc x.saved l.core with
    | some b => b
    | none => if (s.bank l).launch = some id then s.bank l else {}

/-- The masked bytes of a granule over the bytes that were there. -/
def maskBytes (mask : Nat) : Nat → List Byte → List Byte → List Byte
  | _, [], _ => []
  | i, o :: os, ns => (if bitAt mask i then ns.headD 0 else o) :: maskBytes mask (i + 1) os (ns.drop 1)

/-- A forwarded write: it is not forwarded on (12 R415), and it ends a watch on its bytes (07 R243). -/
def Bank.forward (b : Bank) (off mask : Nat) (data : List Byte) : Bank :=
  let data := maskBytes mask 0 (b.sp0Read off data.length) data
  let b := { b with acc := { b.acc with sp0 := spPutN 0 b.acc.sp0 off data } }
  if b.sp0Watched off data.length then b.endPark 1 else b

/-- Entries a drift log holds (12 R419). -/
def driftCap : Nat := 3276

/-- A granule arrives at its subscriber (12 R415, R419). -/
def Bank.arrive (b : Bank) (t : Transit) : Bank :=
  match assoc b.fab.subs t.slot.val with
  | none => b
  | some u =>
    match u.st with
    | .parked | .broken =>
      if b.fab.drift.length < driftCap then
        { b with fab := { b.fab with drift := b.fab.drift ++ [⟨t.mask, t.slot, t.idx, t.data⟩] } }
      else { b with fab := { b.fab with subs := assocPut b.fab.subs t.slot.val { u with st := .broken } } }
    | .pending | .active | .ended => b.forward (t.base + 64 * t.idx) t.mask t.data

/-- Bytes of the first part of a save area: registers, queues and the rest that 05 R168 sums up without a layout. -/
def saveRegs : Nat := 262144

/-- Bytes of a core's save area (05 R168). -/
def saveSize (h : Header) : Nat := saveRegs + h.spad + 10240 * h.acc + 262144

/-- The base of a core's save area (05 R168). -/
def saveBase (p : Packet256) (h : Header) (core : Nat) : Nat := p.save + 4096 * ceilDiv (saveSize h) 4096 * core

/-- The bytes of a drift log's entry (12 R419). -/
def Drift.bytes (d : Drift) : List Byte :=
  leBytes 8 d.mask ++ leBytes 1 d.slot.val ++ leBytes 3 d.gidx ++ leBytes 4 0 ++ padTo 64 0 (d.data.take 64)

/-- An entry of a drift log written to its core's save area (12 R419, log entry 17). -/
def State.logDrift (s : State) (id core : Nat) (h : Header) (d : Drift) (n : Nat) : State :=
  match s.launch id with
  | none => s
  | some x => s.mwrite x.pkt.ctx (saveBase x.pkt h core + saveRegs + h.spad + 10240 * h.acc + 80 * n) d.bytes

/-- Whether a granule has to wait at its subscriber: it writes bytes that a started word of T holds (11 R370). -/
def State.granHeld (s : State) (t : Transit) : Bool :=
  let b := s.partOf t.launch t.sub
  match assoc b.fab.subs t.slot.val with
  | none => false
  | some u => match u.st with
    | .parked | .broken => false
    | .pending | .active | .ended => (upTo 64).any (fun k => bitAt t.mask k && b.tHolds (t.base + 64 * t.idx + k, 1))

/-- The granule in transit at an index, if it is the oldest of its entry and can perform. -/
def State.deliverable (s : State) (i : Nat) : Option Transit :=
  (s.transit.drop i).head?.filter (fun t =>
    !(s.transit.take i).any (fun x => x.pub == t.pub && x.sub == t.sub && x.slot == t.slot) && !s.granHeld t)

/-- A granule in transit is delivered. -/
def State.deliver (s : State) (i : Nat) : State :=
  match s.deliverable i with
  | none => s
  | some t =>
    let s := { s with transit := s.transit.eraseIdx i }
    let n := (s.partOf t.launch t.sub).fab.drift.length
    let s := s.modPart t.launch t.sub (fun b => b.arrive t)
    let b := s.partOf t.launch t.sub
    if n < b.fab.drift.length then s.logDrift t.launch t.sub.core b.hdr ⟨t.mask, t.slot, t.idx, t.data⟩ n else s

/-- The next granule of a fan-out entry, with its bytes, and the entry without it: one that has left its buffer, or the first pending one with its
latest bytes. -/
def Bank.nextGran (b : Bank) (f : Fan) : Option (Gran × List Byte × Fan) :=
  match f.left, f.pend with
  | (g, data) :: t, _ => some (g, data, { f with left := t })
  | [], g :: t => some (g, b.sp0Read (f.off + 64 * g.idx) 64, { f with pend := t })
  | [], [] => none

/-- The next granule of a fan-out entry is sent. -/
def State.sendGran (s : State) (l : Loc) (i : Nat) : State :=
  let b := s.bank l
  match (b.fab.fan.drop i).head?, b.launch with
  | some f, some id =>
    match b.nextGran f with
    | none => s
    | some (g, data, f') =>
      let s := s.setBank l { b with fab := { b.fab with fan := listSet b.fab.fan i f' } }
      { s with transit := s.transit ++ [⟨l, f.sub, id, f.slot, f.off, f.base, g.idx, g.mask, data⟩] }
  | _, _ => s

/-- The granules that an entry has still to send. -/
def Fan.waiting (f : Fan) : Nat := f.left.length + f.pend.length

/-- Every pending granule of one entry is sent. -/
def State.sendEntry (s : State) (l : Loc) (i : Nat) : Nat → State
  | 0 => s
  | n + 1 => (s.sendGran l i).sendEntry l i n

/-- Every pending granule of a publisher is sent. -/
def State.sendAll (s : State) (l : Loc) : State :=
  (upTo (s.bank l).fab.fan.length).foldl (fun s i =>
    s.sendEntry l i (((s.bank l).fab.fan.drop i).head?.elim 0 Fan.waiting)) s

/-- Granules in transit are delivered in order, as far as they can. -/
def State.deliverFrom (s : State) (p : Transit → Bool) : Nat → State
  | 0 => s
  | n + 1 =>
    match (upTo s.transit.length).find? (fun i => (s.deliverable i).any p) with
    | some i => (s.deliver i).deliverFrom p n
    | none => s

/-- Every pending granule of a publisher is sent and performs at its subscriber, as far as it can (12 R397, R416, R417). -/
def State.flushFan (s : State) (l : Loc) : State :=
  let s := s.sendAll l
  s.deliverFrom (fun t => t.pub == l) s.transit.length

/-- Whether every granule of a publisher performs at once. -/
def State.flushes (s : State) (l : Loc) : Bool := !(s.flushFan l).transit.any (fun t => t.pub == l)

end Sys2Proof.Machine
end

