-- ==== Sys2Proof/Machine/Flags.lean ====
section
/-!
DEFINITION. The six sticky flags (03 R85): NV, DZ, OF, UF, NX, SAT in bits 0 to 5.
-/

namespace Sys2Proof.Machine

/-- The sticky flags raised or held (03 R85). -/
abbrev FlagBits := BitVec 6

/-- Invalid. -/
def fNV : FlagBits := 1
/-- Division of a finite nonzero value by zero. -/
def fDZ : FlagBits := 2
/-- Overflow. -/
def fOF : FlagBits := 4
/-- Underflow: tiny after rounding and inexact. -/
def fUF : FlagBits := 8
/-- Inexact. -/
def fNX : FlagBits := 16
/-- Saturation. -/
def fSAT : FlagBits := 32

/-- A flag under a condition. -/
def flagIf (c : Bool) (f : FlagBits) : FlagBits := if c then f else 0

/-- Flags that M's started word raises: its status takes them as the word retires (10 R343). -/
def Bank.raiseM (b : Bank) (f : FlagBits) : Bank := { b with mx := { b.mx with raised := b.mx.raised ||| f } }
/-- Flags ORed into A's status (06 R219). -/
def Bank.raiseA (b : Bank) (f : FlagBits) : Bank := { b with acc := { b.acc with flags := b.acc.flags ||| f } }
/-- Flags ORed into F's status (12 R424). -/
def Bank.raiseF (b : Bank) (f : FlagBits) : Bank := { b with fab := { b.fab with flags := b.fab.flags ||| f } }

end Sys2Proof.Machine
end

