-- ==== Sys2Proof/Machine/Float.lean ====
section
/-!
DEFINITION. Number formats and rounding (03 R78 to R95): exact values, reading a format, rounding an exact value once, the
arithmetic of floats, integer conversions, VX4 quantisation and grain cells.
-/

namespace Sys2Proof.Machine

/-! ## Exact values -/

/-- An exact value: a NaN (signalling or not), an infinity, or (−1)^neg · num/den · 2^exp with den ≥ 1; a zero keeps its sign. -/
inductive Fl where
  | nan (sig : Bool)
  | inf (neg : Bool)
  | fin (neg : Bool) (num den : Nat) (exp : Int)
  deriving DecidableEq, Repr

/-- A floating-point format (03 R80): exponent and fraction widths and bias; E4M3 has no infinities. -/
structure FFmt where
  ew   : Nat
  fw   : Nat
  bias : Nat
  e4m3 : Bool := false
  deriving DecidableEq, Repr

/-- FP64. -/
def fp64F : FFmt := ⟨11, 52, 1023, false⟩
/-- FP32. -/
def fp32F : FFmt := ⟨8, 23, 127, false⟩
/-- FP16. -/
def fp16F : FFmt := ⟨5, 10, 15, false⟩
/-- BF16. -/
def bf16F : FFmt := ⟨8, 7, 127, false⟩
/-- FP8 E5M2. -/
def e5m2F : FFmt := ⟨5, 2, 15, false⟩
/-- FP8 E4M3. -/
def e4m3F : FFmt := ⟨4, 3, 7, true⟩
/-- E80. -/
def e80F : FFmt := ⟨15, 64, 16383, false⟩

/-- Width in bits. -/
def FFmt.width (f : FFmt) : Nat := 1 + f.ew + f.fw
/-- The all-ones exponent field. -/
def FFmt.emax (f : FFmt) : Nat := 2 ^ f.ew - 1
/-- The exponent of the smallest normal. -/
def FFmt.emin (f : FFmt) : Int := 1 - (f.bias : Int)

/-- The canonical NaN (03 R82). -/
def FFmt.canon (f : FFmt) : Nat := if f.e4m3 then 0x7F else f.emax * 2 ^ f.fw + 2 ^ (f.fw - 1)

/-- The infinity of a sign; E4M3 has 448 in its place (03 R86). -/
def FFmt.infBits (f : FFmt) (neg : Bool) : Nat :=
  bit neg * 2 ^ (f.ew + f.fw) + (if f.e4m3 then 0x7E else f.emax * 2 ^ f.fw)

/-- The largest finite value of a sign. -/
def FFmt.maxBits (f : FFmt) (neg : Bool) : Nat :=
  bit neg * 2 ^ (f.ew + f.fw) + (if f.e4m3 then 0x7E else f.emax * 2 ^ f.fw - 1)

/-- The value of an encoding (03 R80, R82). -/
def FFmt.read (f : FFmt) (x : Nat) : Fl :=
  let neg := bitAt x (f.ew + f.fw)
  let e := x / 2 ^ f.fw % 2 ^ f.ew
  let m := x % 2 ^ f.fw
  if f.e4m3 && e == f.emax && m == 7 then .nan false
  else if !f.e4m3 && e == f.emax then (if m = 0 then .inf neg else .nan (m < 2 ^ (f.fw - 1)))
  else if e = 0 then .fin neg m 1 (f.emin - f.fw)
  else .fin neg (2 ^ f.fw + m) 1 ((e : Int) - f.bias - f.fw)

/-- An integer as an exact value. -/
def Fl.ofInt (x : Int) : Fl := .fin (x < 0) x.natAbs 1 0

/-- An exact value from a sign, numerator, denominator and exponent. -/
def Fl.isNan : Fl → Bool
  | .nan _ => true
  | _ => false

/-- A signalling NaN sets NV (03 R82). -/
def Fl.snan : Fl → FlagBits
  | .nan s => flagIf s fNV
  | _ => 0

/-- Zero of either sign. -/
def Fl.isZero : Fl → Bool
  | .fin _ 0 _ _ => true
  | _ => false

/-- The sign; of a NaN, positive. -/
def Fl.neg : Fl → Bool
  | .nan _ => false
  | .inf n => n
  | .fin n _ _ _ => n

/-- The value with its sign changed. -/
def Fl.negate : Fl → Fl
  | .nan s => .nan s
  | .inf n => .inf (!n)
  | .fin n a b e => .fin (!n) a b e

/-- The magnitude. -/
def Fl.abs : Fl → Fl
  | .nan s => .nan s
  | .inf _ => .inf false
  | .fin _ a b e => .fin false a b e

/-! ## Rounding (03 R84, R86, R87) -/

/-- `num / den · 2^k` as quotient, remainder and divisor. -/
def scaled (num den : Nat) (k : Int) : Nat × Nat × Nat :=
  let n := if 0 ≤ k then num * 2 ^ k.toNat else num
  let d := if 0 ≤ k then den else den * 2 ^ (-k).toNat
  (n / d, n % d, d)

/-- ⌊log2 (num/den · 2^e)⌋ for a nonzero value. -/
def flog2 (num den : Nat) (e : Int) : Int :=
  let g : Int := (log2 num : Int) - (log2 den : Int)
  -- num/den lies in [2^(g−1), 2^(g+1))
  let up : Bool := if 0 ≤ g then decide (den * 2 ^ g.toNat ≤ num) else decide (den ≤ num * 2 ^ (-g).toNat)
  (if up then g else g - 1) + e

/-- Whether a magnitude with quotient `q` and discarded part `r/d` is rounded away (03 R86, R87). -/
def roundsUp (rm : RMode) (neg : Bool) (rb q r d : Nat) : Bool :=
  if r = 0 then false
  else match rm with
    | .rne => d < 2 * r || (2 * r == d && q % 2 == 1)
    | .rtz => false
    | .rup => !neg
    | .rdn => neg
    | .sr => 65536 ≤ r * 65536 / d + rb % 65536

/-- A magnitude rounded to a multiple of 2^u: the multiple, and whether it was inexact. -/
def roundTo (rm : RMode) (neg : Bool) (rb num den : Nat) (e u : Int) : Nat × Bool :=
  let (q, r, d) := scaled num den (e - u)
  (q + bit (roundsUp rm neg rb q r d), r != 0)

/-- Whether overflow goes to infinity (03 R86). -/
def overInf (rm : RMode) (neg : Bool) : Bool :=
  match rm with
  | .rne | .sr => true
  | .rtz => false
  | .rup => !neg
  | .rdn => neg

/-- An exact value rounded once to a format: its bits and flags (03 R84 to R88). -/
def FFmt.round (f : FFmt) (rm : RMode) (rb : Nat) (x : Fl) : Nat × FlagBits :=
  match x with
  | .nan s => (f.canon, flagIf s fNV)
  | .inf n => if f.e4m3 then (f.canon, fNV) else (f.infBits n, 0)
  | .fin n 0 _ _ => (bit n * 2 ^ (f.ew + f.fw), 0)
  | .fin n num den e =>
    let g := flog2 num den e
    let u := max g f.emin - f.fw
    let (m, inex) := roundTo rm n rb num den e u
    -- tininess after rounding, with the exponent unbounded; under SR on the result that it chooses (03 R84, R87)
    let tiny := g < f.emin && (if rm = .sr then decide (m < 2 ^ f.fw)
      else decide ((roundTo rm n rb num den e (g - f.fw)).1 < 2 ^ (f.fw + 1)) || decide (g + 1 < f.emin))
    let fields : Nat := ((u + f.fw + f.bias).toNat - 1) * 2 ^ f.fw + m
    let top : Nat := if f.e4m3 then 0x7E else f.emax * 2 ^ f.fw - 1
    if m ≠ 0 ∧ top < fields then
      ((if overInf rm n then f.infBits n else f.maxBits n), fOF ||| fNX)
    else (bit n * 2 ^ (f.ew + f.fw) + fields, flagIf inex fNX ||| flagIf (tiny && inex) fUF)

/-! ## Arithmetic on exact values (03 R82, R84) -/

/-- The signed numerator. -/
def sgn (neg : Bool) (n : Nat) : Int := if neg then -(n : Int) else n

/-- A sum of two finite values: an exact zero from nonzero parts or zeros of two signs is −0 under RDN and +0 otherwise. -/
def addFin (rm : RMode) (n1 : Bool) (a1 b1 : Nat) (e1 : Int) (n2 : Bool) (a2 b2 : Nat) (e2 : Int) : Fl :=
  let e := min e1 e2
  let s := sgn n1 (a1 * 2 ^ (e1 - e).toNat * b2) + sgn n2 (a2 * 2 ^ (e2 - e).toNat * b1)
  if s = 0 then .fin (if a1 = 0 ∧ a2 = 0 ∧ n1 = n2 then n1 else rm = .rdn) 0 1 0
  else .fin (s < 0) s.natAbs (b1 * b2) e

/-- Addition (IEEE 754-2019): the exact sum and the invalid flag. -/
def Fl.add (rm : RMode) (x y : Fl) : Fl × FlagBits :=
  match x, y with
  | .nan _, _ | _, .nan _ => (.nan false, x.snan ||| y.snan)
  | .inf n, .inf m => if n = m then (.inf n, 0) else (.nan false, fNV)
  | .inf n, _ => (.inf n, 0)
  | _, .inf n => (.inf n, 0)
  | .fin n1 a1 b1 e1, .fin n2 a2 b2 e2 => (addFin rm n1 a1 b1 e1 n2 a2 b2 e2, 0)

/-- Multiplication: the exact product and the invalid flag. -/
def Fl.mul (x y : Fl) : Fl × FlagBits :=
  match x, y with
  | .nan _, _ | _, .nan _ => (.nan false, x.snan ||| y.snan)
  | .inf n, .inf m => (.inf (n != m), 0)
  | .inf n, .fin m a _ _ => if a = 0 then (.nan false, fNV) else (.inf (n != m), 0)
  | .fin n a _ _, .inf m => if a = 0 then (.nan false, fNV) else (.inf (n != m), 0)
  | .fin n1 a1 b1 e1, .fin n2 a2 b2 e2 => (.fin (n1 != n2) (a1 * a2) (b1 * b2) (e1 + e2), 0)

/-- Division with IEEE special values; DZ where a finite nonzero value is divided by zero. -/
def Fl.div (x y : Fl) : Fl × FlagBits :=
  match x, y with
  | .nan _, _ | _, .nan _ => (.nan false, x.snan ||| y.snan)
  | .inf _, .inf _ => (.nan false, fNV)
  | .inf n, .fin m _ _ _ => (.inf (n != m), 0)
  | .fin n _ _ _, .inf m => (.fin (n != m) 0 1 0, 0)
  | .fin n a1 b1 e1, .fin m a2 b2 e2 =>
    if a2 = 0 then (if a1 = 0 then (.nan false, fNV) else (.inf (n != m), fDZ))
    else (.fin (n != m) (a1 * b2) (b1 * a2) (e1 - e2), 0)

/-- Fused multiply-add: one exact result. A quiet NaN addend does not hide 0 × ∞. -/
def Fl.fma (rm : RMode) (x y z : Fl) : Fl × FlagBits :=
  let (p, f) := x.mul y
  let (r, g) := p.add rm z
  (r, f ||| g ||| z.snan)

/-- Comparison of two values that are not NaN: −1, 0 or 1; zeros compare equal. -/
def Fl.cmp (x y : Fl) : Int :=
  match x, y with
  | .nan _, _ | _, .nan _ => 0
  | .inf n, .inf m => if n = m then 0 else if n then -1 else 1
  | .inf n, _ => if n then -1 else 1
  | _, .inf m => if m then 1 else -1
  | .fin n1 a1 b1 e1, .fin n2 a2 b2 e2 =>
    let e := min e1 e2
    let d := sgn n1 (a1 * 2 ^ (e1 - e).toNat * b2) - sgn n2 (a2 * 2 ^ (e2 - e).toNat * b1)
    if d < 0 then -1 else if d = 0 then 0 else 1

/-! ## Integers (03 R79, R89, R90) -/

/-- The least and greatest value of `n` bits. -/
def intRange (z : Bool) (n : Nat) : Int × Int :=
  if z then (0, (2 ^ n : Nat) - 1) else (-(2 ^ (n - 1) : Nat), (2 ^ (n - 1) : Nat) - 1)

/-- Saturation to `n` bits (03 R79). -/
def satTo (z : Bool) (n : Nat) (x : Int) : Nat × FlagBits :=
  let r := intRange z n
  if x < r.1 then (wrapTo n r.1, fSAT) else if r.2 < x then (wrapTo n r.2, fSAT) else (wrapTo n x, 0)

/-- Narrowing by `ov` (03 R90). -/
def narrow (ov : Ov) (z : Bool) (n : Nat) (x : Int) : Nat × FlagBits :=
  match ov with
  | .sat => satTo z n x
  | .wrap => (wrapTo n x, 0)

/-- The value of `n` bits under an interpretation (03 R78). -/
def intOf (z : Bool) (n x : Nat) : Int := if z then ((x % 2 ^ n : Nat) : Int) else signedOf n x

/-- A float rounded to an integer, then narrowed (03 R89). -/
def Fl.toInt (rm : RMode) (rb : Nat) (ov : Ov) (z : Bool) (n : Nat) (x : Fl) : Nat × FlagBits :=
  match x with
  | .nan _ => (0, fNV)
  | .inf s => match ov with
    | .sat => (wrapTo n (if s then (intRange z n).1 else (intRange z n).2), fNV)
    | .wrap => (0, fNV)
  | .fin s num den e =>
    let (m, inex) := roundTo rm s rb num den e 0
    let (r, f) := narrow ov z n (sgn s m)
    (r, f ||| flagIf inex fNX)

/-! ## VX4 (03 R91, R92) -/

/-- The value of an E2M1 code. -/
def e2m1 (c : Nat) : Fl :=
  let e := bits c 2 1
  let f := bits c 0 0
  if e = 0 then .fin (bitAt c 3) f 1 (-1) else .fin (bitAt c 3) (2 + f) 1 ((e : Int) - 2)

/-- The value of an E3M5 block scale: its numerator over 128. -/
def e3m5 (c : Nat) : Nat := let e := bits c 7 5; let m := bits c 4 0; if e = 0 then m else (32 + m) * 2 ^ (e - 1)

/-- A block scale as a value. -/
def e3m5F (c : Nat) : Fl := .fin false (e3m5 c) 1 (-7)

/-- The greatest magnitude of a block that is not NaN (03 R92). -/
def maxAbs : List Fl → Fl
  | [] => .fin false 0 1 0
  | x :: t => let m := maxAbs t; if x.isNan then m else if 0 < (x.abs).cmp m then x.abs else m

/-- The block scale chosen for a block against a band scale (03 R92 step 1). -/
def quantScale (xs : List Fl) (h : Fl) : Nat × FlagBits :=
  if h.isNan then (0xFF, fOF)
  else
    let m := maxAbs xs
    if m.isZero then (0, 0)
    else
      match (m.div ((Fl.ofInt 6).mul h).1).1 with
      | .nan _ => (0xFF, fOF)
      | q =>
        if q.cmp (Fl.ofInt 0) ≤ 0 then (0, 0)
        else match (upTo 256).find? (fun c => decide (q.cmp (e3m5F c) ≤ 0)) with
          | some c => (c, 0)
          | none => (0xFF, fOF)

/-- The magnitude codes of E2M1 by twice their value. -/
def e2m1Mags : List Nat := [0, 1, 2, 3, 4, 6, 8, 12]

/-- A finite magnitude rounded to an E2M1 magnitude code: code, inexact, saturated (03 R92 step 2). -/
def e2m1Round (rm : RMode) (neg : Bool) (rb num den : Nat) (e : Int) : Nat × Bool × Bool :=
  if num = 0 then (0, false, false) else
  -- E2M1 has one fraction bit and smallest normal 1
  let g := flog2 num den e
  let u := max g 0 - 1
  let (m, inex) := roundTo rm neg rb num den e u
  let twice := if 0 ≤ u + 1 then m * 2 ^ (u + 1).toNat else m / 2 ^ (-(u + 1)).toNat
  if 12 < twice then (7, true, true) else (e2m1Mags.idxOf twice, inex, false)

/-- One element of a quantised block (03 R92 steps 2 and 3). -/
def quantElem (rm : RMode) (rb s : Nat) (h x : Fl) : Nat × FlagBits :=
  match x with
  | .nan _ => (0, fNV)
  | .inf n => (8 * bit n + 7, fNV)
  | _ =>
    if s = 0 then (0, 0)
    else match (x.div ((e3m5F s).mul h).1).1 with
      | .nan _ => (0, fNV)
      | .inf n => (8 * bit n + 7, fSAT ||| fNX)
      | .fin n num den e =>
        let (c, inex, sat) := e2m1Round rm n rb num den e
        (8 * bit n + c, flagIf inex fNX ||| flagIf sat fSAT)

/-! ## Grain cells (03 R93 to R95) -/

/-- The value field, two's complement. -/
def grainV (c : Nat) : Int := signedOf 224 c
/-- The anchor. -/
def grainAnchor (c : Nat) : Int := signedOf 16 (bits c 239 224)
/-- The flag byte [247:240], with reserved bits read as 0. -/
def grainFlags (c : Nat) : Nat := bits c 244 240

/-- A cell from value, anchor bits and flags; reserved bits 0. -/
def grainCell (v : Int) (anchor flags : Nat) : Nat :=
  wrapTo 224 v + anchor % 2 ^ 16 * 2 ^ 224 + flags % 32 * 2 ^ 240

/-- An addend already scaled to the cell's anchor (03 R94): past the usable range it sets ovf. -/
def grainAddInt (c : Nat) (k : Int) : Nat :=
  if 2 ^ 159 ≤ k.natAbs then grainCell (grainV c) (bits c 239 224) (grainFlags c ||| 2)
  else grainCell (grainV c + k) (bits c 239 224) (grainFlags c)

/-- Addition of a value to a cell (03 R94). -/
def grainAdd (c : Nat) (x : Fl) : Nat :=
  let keep (f : Nat) := grainCell (grainV c) (bits c 239 224) (grainFlags c ||| f)
  match x with
  | .nan _ => keep 4
  | .inf false => keep 8
  | .inf true => keep 16
  | .fin n num den e =>
    let (q, r, _) := scaled num den (e - grainAnchor c)
    let c := if r = 0 then c else keep 1
    grainAddInt c (sgn n q)

/-- The guard bits agree with bit 159 (03 R93). -/
def grainInRange (c : Nat) : Bool := decide (-(2 ^ 159 : Int) ≤ grainV c) && decide (grainV c < 2 ^ 159)

/-- A read of a cell as a float: bits, flag byte and status flags (03 R95). -/
def grainRead (c : Nat) (f : FFmt) (rm : RMode) : Nat × Nat × FlagBits :=
  let g := grainFlags c
  if bitAt g 2 || (bitAt g 3 && bitAt g 4) then (f.canon, g, fNV)
  else if bitAt g 3 then (f.infBits false, g, 0)
  else if bitAt g 4 then (f.infBits true, g, 0)
  else if !grainInRange c then (f.canon, g ||| 2, fOF)
  else
    let (x, fl) := f.round rm 0 (.fin (grainV c < 0) (grainV c).natAbs 1 (grainAnchor c))
    (x, g, fl)

/-- A read of a cell as an integer of `n` bits (03 R95, 07 R240). -/
def grainReadInt (c n : Nat) : Nat × Nat × FlagBits :=
  let g := grainFlags c
  if bitAt g 2 || bitAt g 3 || bitAt g 4 then (0, g, fNV)
  else if !grainInRange c then (0, g ||| 2, fOF)
  else
    let (x, f) := satTo false n (grainV c)
    (x, g, f)

end Sys2Proof.Machine
end

