-- ==== Sys2Proof/Machine/Tensor.lean ====
section
/-!
DEFINITION. Tensor records (06 R202 to R206): fields, checks, home addresses, fills, and the SP0 image of a window. A *unit* is an
element, or for VX4 a block of eight elements; extents along dimension 0 and coordinates are counted in units here.
-/

namespace Sys2Proof.Machine

/-- The fields of a record (06 R202). -/
structure TDesc where
  fmt     : Nat
  rank    : Nat
  asp     : Asp
  fill    : Nat
  fillval : Nat
  base    : Nat
  size    : List Nat
  win     : List Nat
  stride  : List Int
  ilv     : Nat
  lay     : Nat
  pitchl  : Nat
  spbase  : Nat
  bboff   : Int
  sboff   : Int
  deriving DecidableEq, Repr

/-- A qword of a record. -/
def tq (t : List Reg64) (i : Nat) : Nat := (t.getD i 0).toNat

/-- The fields read (06 R202); extents of dimensions at or above the rank are 1, strides 0. -/
def tdescOf (t : List Reg64) : TDesc :=
  let rank := bits (tq t 0) 9 8 + 1
  let dim (f : Nat → Nat) (j : Nat) : Nat := if j < rank then f j else 1
  { fmt := bits (tq t 0) 7 0, rank, asp := aspOf (bits (tq t 0) 11 10), fill := bits (tq t 0) 14 12
    fillval := bits (tq t 0) 63 32, base := bits (tq t 1) 56 0
    size := (upTo 4).map (dim (fun j => bits (tq t (2 + 2 * j)) 31 0))
    win := (upTo 4).map (dim (fun j => bits (tq t (2 + 2 * j)) 47 32))
    stride := (upTo 4).map (fun j => if j < rank then signedOf 48 (tq t (3 + 2 * j)) else 0)
    ilv := bits (tq t 10) 43 41, lay := bits (tq t 10) 40 40, pitchl := bits (tq t 10) 39 24, spbase := bits (tq t 10) 22 0
    bboff := signedOf 32 (bits (tq t 11) 63 32), sboff := signedOf 32 (tq t 11) }

/-- Whether the record is VX4 (06 R203). -/
def TDesc.vx4 (d : TDesc) : Bool := d.fmt == 0x0A

/-- Bytes of a unit (06 R203). -/
def esOf (fmt : Nat) : Nat := [1, 2, 4, 8, 2, 2, 4, 8, 1, 1, 4, 10, 8, 16, 32].getD fmt 0

/-- Bytes of the record's unit. -/
def TDesc.es (d : TDesc) : Nat := esOf d.fmt

/-- A dimension of a list. -/
def dimOf (l : List Nat) (j : Nat) : Nat := l.getD j 1

/-- Window extent in units. -/
def TDesc.w (d : TDesc) (j : Nat) : Nat := if d.vx4 ∧ j = 0 then dimOf d.win 0 / 8 else dimOf d.win j

/-- Tensor extent in units. -/
def TDesc.sz (d : TDesc) (j : Nat) : Nat := if d.vx4 ∧ j = 0 then dimOf d.size 0 / 8 else dimOf d.size j

/-- Stride of a dimension in bytes. -/
def TDesc.st (d : TDesc) (j : Nat) : Int := d.stride.getD j 0

/-- Units of the window. -/
def TDesc.count (d : TDesc) : Nat := d.w 0 * d.w 1 * d.w 2 * d.w 3

/-- The window coordinates of unit `e` in window order, dimension 0 fastest. -/
def TDesc.coord (d : TDesc) (e : Nat) : List Nat :=
  [e % d.w 0, e / d.w 0 % d.w 1, e / (d.w 0 * d.w 1) % d.w 2, e / (d.w 0 * d.w 1 * d.w 2)]

/-- The origin in units; dimensions at or above the rank are 0 (06 R204, R209). -/
def TDesc.origin (d : TDesc) (org : List Int) (j : Nat) : Int :=
  if d.rank ≤ j then 0 else if d.vx4 ∧ j = 0 then org.getD 0 0 / 8 else org.getD j 0

/-- The home coordinates of unit `e` of the window at an origin. -/
def TDesc.home (d : TDesc) (org : List Int) (e : Nat) : List Int :=
  let c := d.coord e
  (upTo 4).map (fun j => d.origin org j + (c.getD j 0 : Nat))

/-- Whether home coordinates are inside (06 R204). -/
def TDesc.inside (d : TDesc) (x : List Int) : Bool :=
  (upTo 4).all (fun j => decide (0 ≤ x.getD j 0) && decide (x.getD j 0 < (d.sz j : Int)))

/-- The home address of coordinates, modulo 2^64 (06 R204). -/
def TDesc.addrOf (d : TDesc) (x : List Int) : Nat :=
  wrapTo 64 ((upTo 4).foldl (fun a j => a + x.getD j 0 * d.st j) (d.base : Int))

/-- Coordinates clamped into the tensor (06 R204). -/
def TDesc.clamp (d : TDesc) (x : List Int) : List Int :=
  (upTo 4).map (fun j => min (max (x.getD j 0) 0) ((d.sz j : Int) - 1))

/-- The element of the clamped block that every element of a VX4 block before or behind the tensor takes along dimension 0 (06 R204). -/
def TDesc.edge (d : TDesc) (org : List Int) (e : Nat) : Option Nat :=
  let x := (d.home org e).getD 0 0
  if !d.vx4 || d.fill != 2 then none
  else if x < 0 then some 0 else if (d.sz 0 : Int) ≤ x then some 7 else none

/-- Four bytes of a VX4 block with element `n` in every place. -/
def smear (n : Nat) (l : List Byte) : List Byte := leBytes 4 (ofLe l / 2 ^ (4 * n) % 16 * 0x11111111)

/-- What a load of a unit takes of the bytes at its clamped home (06 R204). -/
def TDesc.taken (d : TDesc) (org : List Int) (e : Nat) (l : List Byte) : List Byte :=
  match d.edge org e with
  | some n => smear n l
  | none => l

/-! ## The SP0 image (06 R205) -/

/-- Row pitch in bytes. -/
def TDesc.pitch (d : TDesc) : Nat := 64 * d.pitchl

/-- Units along a row, by the layout. -/
def TDesc.along (d : TDesc) : Nat := if d.lay = 0 then d.w 0 else d.w 1

/-- Row length in bytes. -/
def TDesc.rowLen (d : TDesc) : Nat := d.along * d.es

/-- Rows of the image. -/
def TDesc.rows (d : TDesc) : Nat := (if d.lay = 0 then d.w 1 else d.w 0) * d.w 2 * d.w 3

/-- Bytes of the image without scales. -/
def TDesc.isz (d : TDesc) : Nat := d.rows * d.pitch

/-- The image offset of window coordinates. -/
def TDesc.off (d : TDesc) (c : List Nat) : Nat :=
  let i0 := c.getD 0 0; let i1 := c.getD 1 0; let i2 := c.getD 2 0; let i3 := c.getD 3 0
  if d.lay = 0 then ((i3 * d.w 2 + i2) * d.w 1 + i1) * d.pitch + i0 * d.es
  else ((i3 * d.w 2 + i2) * d.w 0 + i0) * d.pitch + i1 * d.es

/-- An image offset through an interleave, relative to the image's base. -/
def interleave (ilv o : Nat) : Nat :=
  let g := o / 2048; let l := o / 64 % 32; let b := o % 64
  let l' := if ilv = 1 then l ^^^ (g % 32) else if ilv = 2 then (l + g) % 32 else l
  2048 * g + 64 * l' + b

/-- The SP0 address of an image offset. -/
def TDesc.spAddr (d : TDesc) (o : Nat) : Nat := d.spbase + interleave d.ilv o

/-- The SP0 address of byte `k` of unit `e`. -/
def TDesc.imgByte (d : TDesc) (e k : Nat) : Nat := d.spAddr (d.off (d.coord e) + k)

/-! ### VX4 scales (06 R205) -/

/-- The first band that the window touches along dimension 1. -/
def TDesc.band0 (d : TDesc) (org : List Int) : Int := d.origin org 1 / 64

/-- Bands that the window touches along dimension 1. -/
def TDesc.nbands (d : TDesc) (org : List Int) : Nat :=
  ((d.origin org 1 + (d.w 1 : Int) - 1) / 64 - d.band0 org + 1).toNat

/-- Band entries of the image. -/
def TDesc.bandCount (d : TDesc) (org : List Int) : Nat := d.nbands org * d.w 2 * d.w 3

/-- Bytes of the image, scales included. -/
def TDesc.imgBytes (d : TDesc) (org : List Int) : Nat :=
  if d.vx4 then d.isz + d.count + 2 * d.bandCount org else d.isz

/-- The image offset of the block scale of unit `e`. -/
def TDesc.blockOff (d : TDesc) (e : Nat) : Nat := d.isz + e

/-- The image offset of band entry `k`. -/
def TDesc.bandOff (d : TDesc) (k : Nat) : Nat := d.isz + d.count + 2 * k

/-- Home coordinates of band entry `k`: band, x2, x3. -/
def TDesc.bandHome (d : TDesc) (org : List Int) (k : Nat) : Int × Int × Int :=
  let n := d.nbands org
  (d.band0 org + (k % n : Nat), d.origin org 2 + (k / n % d.w 2 : Nat), d.origin org 3 + (k / (n * d.w 2) : Nat))

/-- Bands of the tensor. -/
def TDesc.bands (d : TDesc) : Nat := ceilDiv (d.sz 1) 64

/-- Whether a band entry names a band of the tensor. -/
def TDesc.bandInside (d : TDesc) (x : Int × Int × Int) : Bool :=
  decide (0 ≤ x.1) && decide (x.1 < d.bands) && decide (0 ≤ x.2.1) && decide (x.2.1 < d.sz 2) && decide (0 ≤ x.2.2)
    && decide (x.2.2 < d.sz 3)

/-- A band entry clamped into the tensor. -/
def TDesc.bandClamp (d : TDesc) (x : Int × Int × Int) : Int × Int × Int :=
  (min (max x.1 0) ((d.bands : Int) - 1), min (max x.2.1 0) ((d.sz 2 : Int) - 1), min (max x.2.2 0) ((d.sz 3 : Int) - 1))

/-- The home address of a band scale. -/
def TDesc.bandAddr (d : TDesc) (x : Int × Int × Int) : Nat :=
  wrapTo 64 ((d.base : Int) + d.bboff + 2 * (x.1 + d.bands * (x.2.1 + d.sz 2 * x.2.2)))

/-- The home address of the block scale of the block at a home address. -/
def TDesc.blockAddr (d : TDesc) (h : Nat) : Nat :=
  wrapTo 64 ((d.base : Int) + d.sboff + signedOf 64 (wrapTo 64 ((h : Int) - d.base)) / 4)

/-! ## Fills (06 R204) -/

/-- The bytes of a CONST element. -/
def constFill (fmt fv : Nat) : List Byte :=
  let f := fp32F.read fv
  let x64 := (fp64F.round .rne 0 (match f with | .nan _ => .nan false | y => y)).1
  let x80 := (e80F.round .rne 0 (match f with | .nan _ => .nan false | y => y)).1
  if fmt = 3 then leBytes 8 (wrapTo 64 (signedOf 32 fv))
  else if fmt = 7 then leBytes 8 x64
  else if fmt = 0x0B then leBytes 10 x80
  else if fmt = 0x0C then leBytes 4 fv ++ leBytes 4 0
  else if fmt = 0x0D then leBytes 8 x64 ++ leBytes 8 0
  else leBytes (esOf fmt) fv

/-- The bytes of a unit that is not inside and not clamped. -/
def TDesc.fillBytes (d : TDesc) : List Byte := if d.fill = 1 then constFill d.fmt d.fillval else leBytes d.es 0

/-- Whether some unit of the window at an origin is outside (06 R204). -/
def TDesc.reaches (d : TDesc) (org : List Int) : Bool :=
  (upTo 4).any (fun j => decide (d.origin org j < 0) || decide ((d.sz j : Int) < d.origin org j + d.w j))

/-! ## The checks of a record (06 R206) -/

/-- A reserved bit of a record (06 R202, R206 step 1). -/
def recReserved (t : List Reg64) : Bool :=
  let d := tdescOf t
  bits (tq t 0) 31 15 != 0 || bits (tq t 1) 63 57 != 0 || bits (tq t 10) 63 44 != 0 || bits (tq t 10) 23 23 != 0
    || (upTo 4).any (fun j =>
      if d.rank ≤ j then tq t (2 + 2 * j) != 0 || tq t (3 + 2 * j) != 0
      else bits (tq t (2 + 2 * j)) 63 48 != 0 || bits (tq t (3 + 2 * j)) 63 48 != 0)
    || (!d.vx4 && tq t 11 != 0)

/-- Steps 1 to 6 of the check; `org` is the origin of a word that takes one. -/
def recFault (t : List Reg64) (org : Option (List Int)) : Option FCode :=
  let d := tdescOf t
  if recReserved t then some .reserved
  else if 0x0E < d.fmt ∨ 3 < d.fill ∨ 2 < d.ilv ∨ (d.vx4 ∧ d.lay = 1) ∨ (d.fill = 1 ∧ (d.vx4 ∨ d.fmt = 0x0E)) then some .tdesc
  else if (upTo d.rank).any (fun j => dimOf d.size j == 0 || dimOf d.win j == 0 || 2 ^ 31 ≤ dimOf d.size j) then some .tdesc
  else if d.vx4 ∧ (dimOf d.size 0 % 8 ≠ 0 ∨ dimOf d.win 0 % 8 ≠ 0 ∨ d.stride.any (· % 4 != 0)
      ∨ org.any (fun o => o.getD 0 0 % 8 != 0)) then some .tdesc
  else if d.spbase % 64 ≠ 0 ∨ (d.ilv ≠ 0 ∧ d.spbase % 2048 ≠ 0) then some .tdesc
  else if d.pitch < d.rowLen then some .tdesc
  else none

/-- Steps 1 to 7: the image must fit the share. -/
def recCheck (t : List Reg64) (org : Option (List Int)) (spad : Nat) : Option FCode :=
  match recFault t org with
  | some f => some f
  | none => if spad < (tdescOf t).spbase + (tdescOf t).imgBytes (org.getD [0, 0, 0, 0]) then some .bounds else none

/-- A record of a bank (06 R202). -/
def Bank.td (b : Bank) (n : Fin 64) : List Reg64 := (upTo 12).map (fun i => spGet 0 b.acc.td (12 * n.val + i))

/-- The four signed origins held in two registers (06 R209). -/
def originOf (x y : Reg64) : List Int :=
  [signedOf 32 x.toNat, signedOf 32 (x.toNat / 2 ^ 32), signedOf 32 y.toNat, signedOf 32 (y.toNat / 2 ^ 32)]

/-- The bytes of unit `e` in a bank's image. -/
def Bank.imgRead (b : Bank) (d : TDesc) (e : Nat) : List Byte := (upTo d.es).map (fun k => spGet 0 b.acc.sp0 (d.imgByte e k))

/-- The bytes that an image's units take, as runs (06 R205). -/
def TDesc.unitRuns (d : TDesc) : List (Nat × Nat) :=
  (upTo d.count).flatMap (fun e =>
    let o := d.off (d.coord e)
    if o % 64 + d.es ≤ 64 then [(d.spAddr o, d.es)] else (upTo d.es).map (fun k => (d.spAddr (o + k), 1)))

/-- The bytes that the first `n` scales of an image take. -/
def TDesc.scaleRuns (d : TDesc) (n : Nat) : List (Nat × Nat) := if d.vx4 then (natsFrom d.isz n).map (fun o => (d.spAddr o, 1)) else []

/-- The bytes that an image at an origin takes as runs: the units and, for VX4, the scales (06 R205). -/
def TDesc.runs (d : TDesc) (org : List Int) : List (Nat × Nat) := d.unitRuns ++ d.scaleRuns (d.count + 2 * d.bandCount org)

/-- The bytes that an image holds from its base to its end (11 R370). -/
def TDesc.extent (d : TDesc) : Nat × Nat := (d.spbase, d.imgBytes [0, 0, 0, 0])

/-- The pieces of a unit's image bytes that lie together: an element does not cross a 64-byte line unless its size makes it. -/
def TDesc.pieces (d : TDesc) (e : Nat) (data : List Byte) : List (Nat × List Byte) :=
  let o := d.off (d.coord e)
  if o % 64 + d.es ≤ 64 then [(d.spAddr o, data)] else (upTo d.es).map (fun k => (d.spAddr (o + k), [data.getD k 0]))

/-- Pieces written in the share. -/
def Bank.putPieces (b : Bank) (l : List (Nat × List Byte)) : Bank := l.foldl (fun b p => b.sp0Put p.1 p.2) b

/-- A unit's image bytes written. -/
def Bank.imgWrite (b : Bank) (d : TDesc) (e : Nat) (data : List Byte) : Bank := b.putPieces (d.pieces e data)

end Sys2Proof.Machine
end

