-- ==== Sys2Proof/Machine/Operands.lean ====
section
/-!
DEFINITION. Operands: the sources of A (02 R67, 06 R200) and V (08 R267), predicates and lanes (08 R265, R266), and the address of a
MEM word (06 R197).
-/

namespace Sys2Proof.Machine

/-! ## A -/

/-- A source of A taken: a register once no earlier word has still to write it, or the entry of `da`. -/
def Bank.takeA (b : Bank) : ASrc → Option (Reg64 × Bank)
  | .reg r => if b.pending .A [aregCode r] then none else some (b.areg r, b)
  | .da => match b.peek .da b.engs.A.walk with
    | some v => some (v, b.drop .da)
    | none => none

/-- Several entries of `da` taken in order. -/
def Bank.takeDa (b : Bank) : Nat → Option (List Reg64 × Bank)
  | 0 => some ([], b)
  | n + 1 =>
    match b.peek .da b.engs.A.walk with
    | none => none
    | some v => match (b.drop .da).takeDa n with
      | some (vs, b') => some (v :: vs, b')
      | none => none

/-- The address of a MEM word (06 R197): base plus signed offset, modulo 2^64. -/
def Bank.ea (b : Bank) (ma : MemAddr) : Nat := (b.ax ma.base + ma.off.signExtend 64).toNat

/-- Whether the address register of a MEM word and other registers are ready. -/
def Bank.readyA (b : Bank) (regs : List AReg) : Bool := !b.pending .A (regs.map aregCode)

/-! ## V -/

/-- Element `i` of width `w` (08 R265). -/
def elemOf (x : VecReg) (w i : Nat) : Nat := x.toNat / 2 ^ (w * i) % 2 ^ w

/-- A register from elements, element 0 lowest. -/
def packElems (w : Nat) : List Nat → Nat
  | [] => 0
  | x :: t => x % 2 ^ w + 2 ^ w * packElems w t

/-- A register of 4,096 bits from elements. -/
def vecOf (w : Nat) (l : List Nat) : VecReg := BitVec.ofNat 4096 (packElems w l)

/-- One 64-bit value in every lane (08 R267). -/
def splat (x : Reg64) : VecReg := vecOf 64 (List.replicate 64 x.toNat)

/-- Bytes of a vector, byte 0 lowest (08 R265). -/
def vecBytes (x : VecReg) : List Byte := leBytes 512 x.toNat

/-- A vector from bytes. -/
def bytesVec (l : List Byte) : VecReg := BitVec.ofNat 4096 (ofLe l)

/-- What taking an operand of V finds: it waits, it faults, or it has the vector. -/
inductive VTake where
  | stall
  | fault
  | ok (x : VecReg) (b : Bank)
  deriving DecidableEq, Repr

/-- The units of a stream's window, in bytes (06 R212). -/
def Stream.bytes (q : Stream) : Nat := (tdescOf q.tdr).count * (tdescOf q.tdr).es

/-- The vectors of a stream (06 R212). -/
def Stream.vectors (q : Stream) : Nat := ceilDiv q.bytes 512

/-- The binding that V sees at its walk position: one that A made before it (06 R213). -/
def Bank.streamSeen (b : Bank) (n : Fin 8) : Option Stream := (assoc b.acc.q n.val).filter (fun q => q.walk < b.engs.V.walk)

/-- A vector popped from a read stream (06 R213). -/
def Bank.popStream (b : Bank) (n : Fin 8) : VTake :=
  if b.engs.A.walk < b.engs.V.walk then .stall
  else match b.streamSeen n with
    | none => .fault
    | some q =>
      if q.wr || q.vectors ≤ q.used then .fault
      else match q.held with
        | [] => .stall
        | h :: t => .ok h.x (b.putQ n { q with held := t, used := q.used + 1 })

/-- A source of V taken (08 R267): a register, a vector of a stream, or an entry of `dv` in every lane. -/
def Bank.takeV (b : Bank) : VSrc → VTake
  | .v n => .ok (b.vreg n) b
  | .q n => b.popStream n
  | .dv => match b.peek .dv b.engs.V.walk with
    | some v => .ok (splat v) (b.drop .dv)
    | none => .stall

/-- Whether V may push a vector to a write stream (06 R213). -/
inductive VRoom where
  | stall | fault | ok
  deriving DecidableEq, Repr

/-- The check of a push of `k` vectors to a stream; a vector that an unretired word pushes is held too (06 R213). -/
def Bank.streamRoom (b : Bank) (n : Fin 8) (k : Nat) : VRoom :=
  if b.engs.A.walk < b.engs.V.walk then .stall
  else match b.streamSeen n with
    | none => .fault
    | some q => if !q.wr || q.vectors < q.used + k then .fault else if 4 < q.used - q.done + k then .stall else .ok

/-- The drain of vector `i` of the word at hand: what it pushes as it retires (06 R213, 07 R247). -/
def Bank.vectorEff (b : Bank) (n : Fin 8) (i : Nat) (x : VecReg) : Eff :=
  .vector n (drainId n (b.engs.V.walk + i)) x (b.acc.acqBar ++ b.acc.relBar)

/-- `k` vectors of a write stream are spoken for. -/
def Bank.spend (b : Bank) (n : Fin 8) (k : Nat) : Bank :=
  match assoc b.acc.q n.val with
  | none => b
  | some q => b.putQ n { q with used := q.used + k }

/-- The room for a destination of V. -/
def Bank.roomV (b : Bank) : VDst → VRoom
  | .v _ => .ok
  | .q n => b.streamRoom n 1

/-- The old value a merge keeps: a stream has none (08 R267). -/
def Bank.oldV (b : Bank) : VDst → VecReg
  | .v n => b.vreg n
  | .q _ => 0

/-- What a word does at issue to its destination. -/
def Bank.takeDst (b : Bank) : VDst → Bank
  | .v _ => b
  | .q n => b.spend n 1

/-- The effect of writing a destination of V. -/
def Bank.dstEff (b : Bank) (x : VecReg) : VDst → Eff
  | .v n => .vreg n x
  | .q n => b.vectorEff n 0 x

/-! ### What a word of V has to wait for (08 R269) -/

/-- The code of what a word of V names, if earlier words of V write it: v, k and z registers, stream staging and accumulator slots. -/
def Need.vcode : Need → Option Nat
  | .v n => some n.val
  | .k n => some (32 + n.val)
  | .z n => some (64 + n.val)
  | .q n => some (128 + n.val)
  | .acc n => some (256 + n)
  | _ => none

/-- The code of a compaction buffer. -/
def bufCode (c : Fin 4) : Nat := 96 + c.val

/-- The codes of everything that a word of V reads or writes. -/
def Instr.vcodes (i : Instr) : List Nat :=
  (Instr.needs i).filterMap Need.vcode ++ (match i with
    | .vpushc _ _ _ (.cb c) _ | .vpopc _ _ _ _ c => [bufCode c]
    | _ => [])

/-- The codes of a destination of V: a stream orders its vectors itself. -/
def VDst.codes : VDst → List Nat
  | .v n => [n.val]
  | .q _ => []

end Sys2Proof.Machine
end

