-- ==== Sys2Proof/Machine/Perform.lean ====
section
/-!
DEFINITION. How an outstanding access of A performs (06 R182, 07 R235 to R241), and the fault queue (15 R494) with the drain of a core
that page-faults (05 R169).
-/

namespace Sys2Proof.Machine

/-! ## Atomics (07 R236 to R241) -/

/-- The new value of an `AMO` on `8n` bits (07 R236). -/
def amoNew (op : AmoOp) (nbits old x : Nat) : Nat :=
  match op with
  | .add => (old + x) % 2 ^ nbits
  | .and => old &&& x
  | .or => old ||| x
  | .xor => old ^^^ x
  | .smin => if signedOf nbits x < signedOf nbits old then x else old
  | .smax => if signedOf nbits old < signedOf nbits x then x else old
  | .umin => if x < old then x else old
  | .umax => if old < x then x else old
  | .swap => x

/-- The value of an addend of a grain word (07 R239). -/
def gaddCell (fmt : GFmt) (x : Reg64) (c : Nat) : Nat :=
  match fmt with
  | .fp64 => grainAdd c (fp64F.read x.toNat)
  | .fp32 => grainAdd c (fp32F.read (x.toNat % 2 ^ 32))
  | .int => grainAddInt c x.toInt

/-- A read of a cell into a register (07 R240): value, flag byte, status flags. -/
def grdCell (fmt : GFmt) (rm : RMode) (c : Nat) : Nat × Nat × FlagBits :=
  match fmt with
  | .fp64 => grainRead c fp64F rm
  | .fp32 => grainRead c fp32F rm
  | .int => grainReadInt c 64

/-- What `GCLR` writes (07 R241). -/
def gclrCell (a : Reg64) : Nat := grainCell 0 (a.toNat % 2 ^ 16) 0

/-- Bytes of an integer atomic. -/
def w8n (w8 : Bool) : Nat := if w8 then 8 else 4

/-- The old value of an integer atomic as its register takes it (07 R236). -/
def oldReg (w8 z : Bool) (old : Nat) : Reg64 := if w8 then BitVec.ofNat 64 old else ext64 z 32 old

/-- Whether the access reads, writes, or is an atomic, by the columns of 07 R226. -/
def AccOp.kind : AccOp → PKindAcc
  | .ld .. => .read
  | .st .. => .write
  | .amo .. | .cas .. => .atomic
  | .gadd .. | .gclr .. => .grain
  | .grd .. => .grd
  | .wakea _ => .watch

/-- Loads, atomic reads and grain reads (07 R247). -/
def AccOp.reads : AccOp → Bool
  | .st .. | .gclr .. | .wakea _ => false
  | _ => true

/-- Stores and atomics. -/
def AccOp.writes : AccOp → Bool
  | .ld .. | .grd .. | .wakea _ => false
  | _ => true

/-- The unit short of the home at which an atomic performs (07 R238), if any. -/
def Acc.unit (a : Acc) (core : Nat) : Option Nat :=
  match a.op with
  | .amo .. | .cas .. =>
    match a.rngs with
    | ⟨.pa p, _, _, _⟩ :: _ =>
      if homeOf p ≠ 0 then none
      else match a.scope with
        | .self | .core | .engines => some core
        | .cluster => some (1000 + clusterOf core)
        | .stage | .die => some (2000 + dieOf core)
        | _ => none
    | _ => none
  | _ => none

/-- Every outstanding access of the package with its core. -/
def State.allAccs (s : State) : List (Nat × Acc) :=
  s.cores.flatMap (fun p => (p.2.b0.acc.out ++ p.2.b1.acc.out).map (fun a => (p.1, a)))

/-- Whether the unit of an atomic is busy with another atomic on its bytes (07 R238). -/
def State.unitBusy (s : State) (core : Nat) (a : Acc) : Bool :=
  match a.unit core with
  | none => false
  | some u => s.allAccs.any (fun p => p.2.old.isSome && p.2.id != a.id && p.2.unit p.1 == some u && overlap p.2.rngs a.rngs)

/-- Earlier accesses of the bank to bytes of an access (06 R182). -/
def earlierOverlap (out : List Acc) (a : Acc) : Bool :=
  (out.takeWhile (fun x => x.id != a.id)).any (fun x => overlap x.rngs a.rngs)

/-- Whether an access may perform now. -/
def State.accReady (s : State) (l : Loc) (a : Acc) : Bool :=
  a.after.isEmpty && !earlierOverlap (s.bank l).acc.out a && (a.old.isSome || !s.unitBusy l.core a) && !s.tHolds a.rngs

/-- Entries of a queue that a load fills (06 R199). -/
def loadEntries (z : Bool) (data : List Byte) : List Reg64 :=
  (chunksOf 8 (data.length + 1) data).map (fun c => ext64 z (8 * c.length) (ofLe c))

/-- The access leaves the list of outstanding ones, and what waits for it goes on. -/
def Bank.accDone (b : Bank) (id : Nat) : Bank :=
  ({ b with acc := { b.acc with out := b.acc.out.filter (fun a => a.id != id) } }).complete id

/-- `n` members of a list, any of them (log entry 5); the list itself where it has no more. -/
def State.pickSome {α : Type} (s : State) : Nat → List α → List α × State
  | 0, _ => ([], s)
  | n + 1, l =>
    if l.length ≤ n + 1 then (l, s)
    else
      let i := s.choose l.length
      let r := i.2.pickSome n (l.eraseIdx i.1)
      ((l.drop i.1).take 1 ++ r.1, r.2)

/-- Watches on a granule end with code 1: all of them for 0, else at most `n`, which ones being free (07 R244). -/
def State.wakeGran (s : State) (g n : Nat) : State :=
  let on := s.watches.filter (fun w => w.g == .pa g)
  let (hit, s) := s.pickSome (if n = 0 then on.length else min n on.length) on
  let s := hit.foldl (fun s w => s.setBank w.l ((s.bank w.l).endPark 1)) s
  { s with watches := s.watches.filter (fun w => !hit.contains w) }

/-- What an access does at its bytes: the data it finds and the state after its write, if any. -/
def State.accWrite (s : State) (a : Acc) (old : List Byte) : State :=
  let o := ofLe old
  match a.op with
  | .ld .. | .grd .. => s
  | .st data => s.writeRngs a.rngs data
  | .amo w8 op _ _ _ x => s.writeRngs a.rngs (leBytes (w8n w8) (amoNew op (8 * w8n w8) o (x.toNat % 2 ^ (8 * w8n w8))))
  | .cas w8 _ _ e x =>
    if o = e.toNat % 2 ^ (8 * w8n w8) then s.writeRngs a.rngs (leBytes (w8n w8) x.toNat) else s
  | .gadd fmt x => s.writeRngs a.rngs (leBytes 32 (gaddCell fmt x o))
  | .gclr x => s.writeRngs a.rngs (leBytes 32 (gclrCell x))
  | .wakea n => match a.rngs with
    | ⟨.pa p, _, _, _⟩ :: _ => s.wakeGran (p / 64 * 64) n.toNat
    | _ => s

/-- What an access leaves in its core's registers and queues. -/
def Bank.accResult (b : Bank) (a : Acc) (old : List Byte) : Bank :=
  let o := ofLe old
  match a.op with
  | .ld (.reg r) z => b.setAreg r (ext64 z (8 * old.length) o)
  | .ld .ds z => b.fill .ds a.walk (loadEntries z old)
  | .ld .dv z => b.fill .dv a.walk (loadEntries z old)
  | .ld .dt z => b.fill .dt a.walk (loadEntries z old)
  | .amo w8 _ z nr d _ => if nr then b else b.setAreg (.a d) (oldReg w8 z o)
  | .cas w8 z d _ _ => b.setAreg (.a d) (oldReg w8 z o)
  | .grd fmt rm d ra =>
    let (v, g, f) := grdCell fmt rm o
    ((b.setAreg (.a d) (BitVec.ofNat 64 v)).setAreg (.a ra) (BitVec.ofNat 64 g)).raiseA f
  | .st .. | .gadd .. | .gclr .. | .wakea _ => b

/-- An access that faults goes: it performs no byte, and its word never retires. -/
def State.dropAcc (s : State) (l : Loc) (id : Nat) : State :=
  s.setBank l { s.bank l with acc := { (s.bank l).acc with out := (s.bank l).acc.out.filter (fun x => x.id != id) } }

/-- An access performs at its bytes (06 R182, 07 R235): the Plat is judged as it stands, uncorrectable bytes end the launch, the data move,
and the core's registers and queues take what it returns. -/
def State.performNow (s : State) (l : Loc) (a : Acc) : State :=
  let (s, v) := s.platCheck l.core (s.bank l).ctx a.op.kind a.rngs
  match v with
  | some f => (s.dropAcc l a.id).faultAt l f a.pc 0
  | none =>
    match (if a.op.reads then s.badRngs a.rngs else none) with
    | some addr => ((s.logEvent .eccUncorr (dieOf l.core) 0 addr).dropAcc l a.id).faultAt l .uncorr a.pc addr
    | none =>
      let old := a.old.getD (s.readRngs a.rngs)
      let s := s.accWrite a old
      s.setBank l (((s.bank l).accResult a old).accDone a.id)

/-- The first half of an atomic short of the home (07 R238): its unit reads the home. -/
def State.readUnit (s : State) (l : Loc) (a : Acc) : State :=
  let old := s.readRngs a.rngs
  s.setBank l { s.bank l with acc := { (s.bank l).acc with
    out := (s.bank l).acc.out.map (fun x => if x.id = a.id then { x with old := some old } else x) } }

/-- One move of an outstanding access: an atomic short of the home reads first and writes back in a later move. -/
def State.performAcc (s : State) (l : Loc) (id : Nat) : State :=
  match (s.bank l).acc.out.find? (fun a => a.id == id) with
  | none => s
  | some a =>
    if !s.accReady l a then s
    else if (a.unit l.core).isSome ∧ a.old.isNone then s.readUnit l a
    else s.performNow l a

/-- An access goes on as far as it can at once. -/
def State.performFully (s : State) (l : Loc) (id : Nat) : State := (s.performAcc l id).performAcc l id

/-- Every outstanding access of a bank goes on, oldest first. -/
def State.performAll (s : State) (l : Loc) : State :=
  ((s.bank l).acc.out.map (·.id)).foldl (fun s id => s.performFully l id) s

/-! ## The fault queue (15 R494) -/

/-- What a function holds. -/
def State.fn (s : State) (f : Nat) : FnSt := (assoc s.regs.fns f).getD {}

/-- What a function holds, put. -/
def State.setFn (s : State) (f : Nat) (x : FnSt) : State := { s with regs := { s.regs with fns := assocPut s.regs.fns f x } }

/-- An MSI-X message sent (15 R490). -/
def State.msix (s : State) (fn vec : Nat) : State := { s with regs := { s.regs with msix := s.regs.msix ++ [(fn, vec)] } }

/-- Whether a function's fault queue takes an entry. -/
def FnSt.fqRoom (x : FnSt) : Bool := x.fqen && x.fqhead - x.fqtail < 2 ^ x.fqlg

/-- The owning function of a context. -/
def State.ctxFn (s : State) (c : Nat) : Nat := match s.ctx c with | some x => x.fn | none => 0

/-- An entry appended to the fault queue of a context's function (15 R494). -/
def State.appendFault (s : State) (f : Nat) (e : FqEnt) : State :=
  let x := s.fn f
  let data := leBytes 8 e.va ++ leBytes 2 e.ctx ++ leBytes 1 e.agent ++ leBytes 1 (bit e.write) ++ leBytes 2 e.core
    ++ leBytes 2 0 ++ leBytes 8 s.dtime ++ leBytes 8 0
  let s := s.writePa (x.fqbase + 32 * (x.fqhead % 2 ^ x.fqlg)) data
  (s.setFn f { x with fqhead := x.fqhead + 1, fq := x.fq ++ [{ e with idx := x.fqhead }] }).msix f 65

/-- The page fault of a bank's A is reported, if its function's queue takes it. -/
def State.reportPage (s : State) (l : Loc) : State :=
  let b := s.bank l
  match b.acc.pf with
  | some p =>
    let f := s.ctxFn b.ctx
    if b.st = .faultwait ∧ !p.queued ∧ (s.fn f).fqRoom then
      let s := s.appendFault f ⟨0, p.va, b.ctx, p.agent, p.write, l.core, true, b.launch, false⟩
      s.setBank l { s.bank l with acc := { (s.bank l).acc with pf := some { p with queued := true } } }
    else s
  | none => s

/-- The page fault of a channel is reported, if its function's queue takes it. -/
def State.reportChannel (s : State) (l : Loc) (n : Nat) : State :=
  let b := s.bank l
  match assoc b.car.ch n with
  | some c =>
    match c.pf with
    | some p =>
      let f := s.ctxFn b.ctx
      if !p.queued ∧ (s.fn f).fqRoom then
        let s := s.appendFault f ⟨0, p.va, b.ctx, p.agent, p.write, l.core, true, b.launch, false⟩
        let b := s.bank l
        s.setBank l { b with car := { b.car with ch := assocPut b.car.ch n { c with pf := some { p with queued := true } } } }
      else s
    | none => s
  | none => s

/-- The page fault of a dispatch read is reported (05 R506). -/
def State.reportLaunch (s : State) (id : Nat) : State :=
  match s.launch id with
  | some x =>
    match x.pf with
    | some p =>
      if !p.queued ∧ (s.fn x.fn).fqRoom then
        (s.appendFault x.fn ⟨0, p.va, x.pkt.ctx, 11, p.write, 0x3FF, false, some id, false⟩).modLaunch id
          (fun x => { x with pf := some { p with queued := true } })
      else s
    | none => s
  | none => s

/-- The banks of the package. -/
def State.locs (s : State) : List Loc := s.cores.flatMap (fun p => [⟨p.1, 0⟩, ⟨p.1, 1⟩])

/-- Every page fault that waits for its queue is tried again (15 R494). -/
def State.reportAll (s : State) : State :=
  let s := s.locs.foldl (fun s l => (upTo 8).foldl (fun s n => s.reportChannel l n) (s.reportPage l)) s
  (s.launches.map (·.id)).foldl (fun s id => s.reportLaunch id) s

/-- A core that has page-faulted drains (05 R169): its issued accesses perform, a started pass finishes, T stands at a progress point
(11 R371), its pending granules go (12 R397), and the bank waits in FAULTWAIT. An access to bytes that a stopped T word holds waits beyond the drain,
until the word goes on (log entry 14). -/
def State.drainPage (s : State) (l : Loc) : State :=
  match (s.bank l).acc.pf with
  | some p =>
    if p.drained then s
    else
      let s := (s.performAll l).flushFan l
      let b := (s.bank l).signalNow
      if b.acc.out.all (fun a => s.tHolds a.rngs) && !b.mx.mid && b.flt.isNone then
        let s := s.setBank l { b with st := .faultwait, acc := { b.acc with pf := some { p with drained := true } } }
        let k := s.core l.core
        (s.setCore l.core { k with run := if k.run = some l.bank then none else k.run }).reportPage l
      else s
  | none => s

end Sys2Proof.Machine
end

