-- ==== Sys2Proof/Machine/Scalar.lean ====
section
/-!
DEFINITION. The sequencer's scalar words: `NOP`, integer arithmetic, `LI`, `MOV`, `CMP`, semaphores and `TRAP` (04 R104 to R108,
R118, R127).
-/

namespace Sys2Proof.Machine

/-- What a word leaves that writes a register of S as it retires, and what else it does then (04 R100). -/
def writesS (d : SReg) (v : Reg64) (more : List Eff := []) : Plain := { effs := .sreg d v :: more, writes := [d.val] }

/-- A word that computes a register of S from two (04 R100, R105). -/
def scalar2 (f : Reg64 → Reg64 → Reg64) (d a b : SReg) (k : Bank) : Res Bank :=
  if k.pending .S [d.val, a.val, b.val] then .stall else .ok k (writesS d (f (k.sreg a) (k.sreg b)))

/-- A logical shift by a 64-bit amount (04 R105): 0 from 64 on. -/
def shlS (x y : Reg64) : Reg64 := if y.toNat < 64 then x <<< y.toNat else 0

/-- A logical shift right by a 64-bit amount (04 R105): 0 from 64 on. -/
def shrS (x y : Reg64) : Reg64 := if y.toNat < 64 then x >>> y.toNat else 0

/-- `NOP` (04 R104). -/
def execNop (m : Dep) (s : State) : Out := bankWord (.nop m) s (fun k => .ok k {})

/-- `ADD` (04 R105). -/
def execAdd (m : Dep) (d a b : SReg) (s : State) : Out := bankWord (.add m d a b) s (scalar2 (· + ·) d a b)

/-- `SUB` (04 R105). -/
def execSub (m : Dep) (d a b : SReg) (s : State) : Out := bankWord (.sub m d a b) s (scalar2 (· - ·) d a b)

/-- `MUL` (04 R105). -/
def execMul (m : Dep) (d a b : SReg) (s : State) : Out := bankWord (.mul m d a b) s (scalar2 (· * ·) d a b)

/-- `AND` (04 R105). -/
def execAnd (m : Dep) (d a b : SReg) (s : State) : Out := bankWord (.and m d a b) s (scalar2 (· &&& ·) d a b)

/-- `OR` (04 R105). -/
def execOr (m : Dep) (d a b : SReg) (s : State) : Out := bankWord (.or m d a b) s (scalar2 (· ||| ·) d a b)

/-- `XOR` (04 R105). -/
def execXor (m : Dep) (d a b : SReg) (s : State) : Out := bankWord (.xor m d a b) s (scalar2 (· ^^^ ·) d a b)

/-- `SHL` (04 R105). -/
def execShl (m : Dep) (d a b : SReg) (s : State) : Out := bankWord (.shl m d a b) s (scalar2 shlS d a b)

/-- `SHR` (04 R105). -/
def execShr (m : Dep) (d a b : SReg) (s : State) : Out := bankWord (.shr m d a b) s (scalar2 shrS d a b)

/-- `LI` (04 R106). -/
def execLi (m : Dep) (xc : Fin 4) (d : SReg) (imm : BitVec 64) (s : State) : Out :=
  bankWord (.li m xc d imm) s (fun k =>
    if k.pending .S [d.val] then .stall else .ok k (writesS d imm))

/-- `MOV sd, sa` (04 R107). -/
def execMov (m : Dep) (d a : SReg) (s : State) : Out :=
  bankWord (.mov m d a) s (fun k =>
    if k.pending .S [d.val, a.val] then .stall else .ok k (writesS d (k.sreg a)))

/-- `MOV sd, ds` (04 R102, R107): into `s0` the entry is taken and discarded. -/
def execMovFromDs (m : Dep) (d : SReg) (s : State) : Out :=
  bankWord (.movFromDs m d) s (fun k =>
    if k.pending .S [d.val] then .stall
    else match k.peek .ds k.engs.S.walk with
      | some v => .ok (k.drop .ds) (writesS d v)
      | none => .stall)

/-- A register of S pushed into a queue as one entry (04 R102, R107). -/
def pushS (q : QName) (a : SReg) (k : Bank) : Res Bank :=
  if k.pending .S [a.val] || !k.room q 1 then .stall
  else .ok (k.reserve q k.engs.S.walk (k.sreg a)) { effs := [.vis q k.engs.S.walk] }

/-- `MOV da, sa` (04 R107). -/
def execMovToDa (m : Dep) (a : SReg) (s : State) : Out := bankWord (.movToDa m a) s (pushS .da a)

/-- `MOV dv, sa` (04 R107). -/
def execMovToDv (m : Dep) (a : SReg) (s : State) : Out := bankWord (.movToDv m a) s (pushS .dv a)

/-- `MOV dt, sa` (04 R107). -/
def execMovToDt (m : Dep) (a : SReg) (s : State) : Out := bankWord (.movToDt m a) s (pushS .dt a)

/-- The bit a condition computes (04 R108). -/
def condHolds (c : Cond) (x y : Reg64) : Bool :=
  match c with
  | .eq => x == y
  | .ne => x != y
  | .lt => x.toInt < y.toInt
  | .ge => y.toInt ≤ x.toInt
  | .ltu => x.toNat < y.toNat
  | .geu => y.toNat ≤ x.toNat
  | .tst => (x &&& y) != 0
  | .tnz => (x &&& y) == 0

/-- A bit as a 64-bit value. -/
def bitReg (c : Bool) : Reg64 := if c then 1 else 0

/-- `CMP` (04 R108): the bit goes to the register and, unless `.nq`, into `CQ`. -/
def execCmp (m : Dep) (cc : Cond) (nq : Bool) (d a b : SReg) (s : State) : Out :=
  bankWord (.cmp m cc nq d a b) s (fun k =>
    if k.pending .S [d.val, a.val, b.val] || (!nq && !k.room .cq 1) then .stall
    else
      let c := bitReg (condHolds cc (k.sreg a) (k.sreg b))
      if nq then .ok k (writesS d c)
      else .ok (k.reserve .cq k.engs.S.walk c) (writesS d c [.vis .cq k.engs.S.walk]))

/-- A semaphore signal, applied at retirement (04 R118). -/
def semSig (n : Fin 32) (amt : Nat) (k : Bank) : Res Bank := .ok k { effs := [.sem n amt] }

/-- A semaphore wait, applied at issue (04 R118): past the ceiling it faults at once. -/
def semWait (n : Fin 32) (v : Nat) (k : Bank) : Res Bank :=
  if k.semCeil n < v then .fault .semCeil 0
  else if k.semCount n < v then .stall
  else .ok (k.setSem n (k.semCount n - v)) {}

/-- `SEM.SIG semN, n` (04 R118). -/
def execSemSigImm (m : Dep) (sem : Fin 32) (val : BitVec 12) (s : State) : Out :=
  bankWord (.semSigImm m sem val) s (semSig sem val.toNat)

/-- `SEM.SIG semN, sM` (04 R118). -/
def execSemSigReg (m : Dep) (sem : Fin 32) (r : SReg) (s : State) : Out :=
  bankWord (.semSigReg m sem r) s (fun k => if k.pending .S [r.val] then .stall else semSig sem (k.sreg r).toNat k)

/-- `SEM.WAIT semN, v` (04 R118). -/
def execSemWaitImm (m : Dep) (sem : Fin 32) (val : BitVec 12) (s : State) : Out :=
  bankWord (.semWaitImm m sem val) s (semWait sem val.toNat)

/-- `SEM.WAIT semN, sM` (04 R118). -/
def execSemWaitReg (m : Dep) (sem : Fin 32) (r : SReg) (s : State) : Out :=
  bankWord (.semWaitReg m sem r) s (fun k => if k.pending .S [r.val] then .stall else semWait sem (k.sreg r).toNat k)

/-- `TRAP` (04 R127): the launch ends with `F_TRAP` and the code. -/
def execTrap (m : Dep) (code : BitVec 16) (s : State) : Out :=
  bankWord (.trap m code) s (fun _ => .fault .trap code.toNat)

end Sys2Proof.Machine
end

