-- ==== Sys2Proof/Machine/Access.lean ====
section
/-!
DEFINITION. The access class (06): loads and stores, address arithmetic, tensor records, streams, `SEGQ`, `TLBINV`, `ASTAT`, and
the events in which an access performs, a stream moves and a core that page-faulted drains.
-/

namespace Sys2Proof

/-- Whether an ord field releases. -/
def Ord.releases : Ord → Bool
  | .rel | .ar => true
  | _ => false

/-- Whether an ord field acquires. -/
def Ord.acquires : Ord → Bool
  | .acq | .ar => true
  | _ => false

/-- The queue a load names. -/
def LdDst.queue : LdDst → Option Machine.QName
  | .reg _ => none
  | .ds => some .ds
  | .dv => some .dv
  | .dt => some .dt

end Sys2Proof

namespace Sys2Proof.Machine

/-! ## Issue of accesses (06 R181, R199) -/

/-- In an eager turn, what has issued goes on as far as it can in the same step (log entry 3). -/
def eagerly (f : State → Loc → State) (o : Out) : Out :=
  match o with
  | .next s => .next (if s.cur.eager then f s s.cur.loc else s)
  | x => x

/-- What an eager turn of A goes on with: its outstanding accesses, and the drain of a core that page-faults. -/
def State.goOnA (s : State) (l : Loc) : State := (s.performAll l).drainPage l

/-- A word of A; a parked A issues nothing (07 R242). -/
def accessWord (i : Instr) (s : State) (f : State → Res State) : Out :=
  if s.here.acc.park.isSome then .next s else eagerly State.goOnA (packageWord i s f)

/-- A word of A whose effects lie in its bank. -/
def accessBank (i : Instr) (s : State) (f : Bank → Res Bank) : Out :=
  accessWord i s (fun s => match f s.here with
    | .stall => .stall
    | .fault c d => .fault c d
    | .page b va w ag => .page (s.setBank s.cur.loc b) va w ag
    | .ok b p => .ok (s.setBank s.cur.loc b) p)

/-- The identifiers of the outstanding accesses. -/
def Bank.outIds (b : Bank) : List Nat := b.acc.out.map (·.id)

/-- The identifiers of the drains of the vectors V has pushed (07 R246), those of unretired words among them. -/
def Bank.drainIds (b : Bank) : List Nat :=
  b.acc.q.flatMap (fun p => if p.2.wr then p.2.held.map (·.id) else [])
    ++ b.engs.V.rets.flatMap (fun r => r.effs.filterMap (fun e => match e with
      | .vector _ id _ _ => some id
      | _ => none))

/-- Whether an F operation reads its home. -/
def FOp.reads : FOp → Bool
  | .ld .. | .amo .. | .mcld .. => true
  | _ => false

/-- Whether an F operation writes its home. -/
def FOp.writes : FOp → Bool
  | .st .. | .amo .. | .gadd .. | .mcst .. => true
  | _ => false

/-- Ranges of a request that lie at remote homes. -/
def farRngs (l : List (Nat × List Rng)) : List (Nat × Rng) :=
  l.flatMap (fun p => p.2.filterMap (fun r => match r.pl with
    | .pa a => if homeOf a = 8 then some (p.1, r) else none
    | .sp0 _ _ => none))

/-- Whether a request goes to other packages. -/
def FReq.far (q : FReq) : Bool := !(farRngs q.elems).isEmpty || !q.offs.isEmpty

/-- The identifiers of F's writes to remote homes that have not performed there: a release of A waits for their acknowledgement (07 R263; log entry 6). -/
def Bank.fIds (b : Bank) : List Nat := (b.fab.reqs.filter (fun r => r.ans.isNone && r.op.writes && r.far)).map (·.id)

/-- The identifiers of earlier reads (07 R247). -/
def Bank.readIds (b : Bank) : List Nat := (b.acc.out.filter (fun a => a.op.reads)).map (·.id)

/-- The identifiers of earlier stores and atomics (07 R255). -/
def Bank.writeIds (b : Bank) : List Nat := (b.acc.out.filter (fun a => a.op.writes)).map (·.id)

/-- The identifiers of earlier stores and counted drains (07 R247). -/
def Bank.storeIds (b : Bank) : List Nat := b.writeIds ++ b.drainIds

/-- Everything that a release waits for (07 R247). -/
def Bank.relIds (b : Bank) : List Nat := b.outIds ++ b.drainIds ++ b.fIds

/-- Homes that A's accesses serve (06 R189). -/
def homesA : List Nat := [0, 1]

/-- The addressed bytes lie in host memory. -/
def inHost (r : List Rng) : Bool := r.any (fun x => match x.pl with | .pa p => homeOf p == 1 | .sp0 _ _ => false)

/-- What host memory does not serve (07 R238). -/
def AccOp.notHost : AccOp → Bool
  | .ld .. | .st .. | .cas .. => false
  | .amo _ op _ _ _ _ => !(op == .add || op == .swap)
  | .gadd .. | .grd .. | .gclr .. | .wakea _ => true

/-- What an access adds to the accesses that later ones wait for, from its ord field (07 R247). -/
def Bank.withAcc (b : Bank) (a : Acc) (ord : Ord) : Bank :=
  { b with acc := { b.acc with
      out := b.acc.out ++ [{ a with after := b.acc.acqBar ++ (if a.op.writes || ord.releases then b.acc.relBar else [])
        ++ (if ord.releases then b.relIds else []) }]
      relBar := if ord.releases then b.acc.relBar ++ b.relIds else b.acc.relBar
      acqBar := if ord.acquires then b.acc.acqBar ++ b.readIds ++ [a.id] else b.acc.acqBar } }

/-- An access that an A word makes: its address, size and operation, what it does to the bank as it issues, and whether the word
retires only when it has performed. -/
structure AccReq where
  asp    : Asp
  ea     : Nat
  n      : Nat
  op     : AccOp
  scope  : Scope := .self
  ord    : Ord := .rlx
  wait   : Bool
  writes : List Nat := []
  effs   : List Eff := []

/-- The code of the TLB among what a word of A has still to write. -/
def tlbCode : Nat := 256

/-- An earlier `TLBINV` has still to retire: no access translates before it (06 R218). -/
def Bank.invalidating (b : Bank) : Bool := b.pending .A [tlbCode]

/-- An access issues: it waits for room and for a migration (06 R181, R196), is checked and translated (06 R183, R194, 07 R235), and
becomes outstanding. `prep` is what the word pops and reserves. -/
def State.issueAcc (s : State) (q : AccReq) (prep : Bank → Bank) : Res State :=
  let l := s.cur.loc
  if 64 ≤ s.here.acc.out.length ∨ (q.asp = .virt ∧ s.held s.here.ctx q.ea q.n) ∨ s.here.invalidating
      ∨ (q.ord.releases ∧ s.here.engs.V.walk < s.here.engs.A.walk) then .stall
  else match s.access l q.op.kind q.asp q.ea q.n q.op.writes homesA with
    | (_, .fault c) => .fault c 0
    | (s, .page va) => .page s va q.op.writes 0
    | (s, .ok r) =>
      if q.op.notHost && inHost r then .fault .atomic 0
      else
        let (id, s) := s.newId
        let b := prep s.here
        .ok (s.setBank l (b.withAcc ⟨id, b.engs.A.walk, b.engs.A.pc, r, q.op, q.scope, none, []⟩ q.ord))
          { waits := if q.wait then [id] else [], writes := q.writes, effs := q.effs }

/-! ## Loads and stores -/

/-- `n` entries reserved in a queue (04 R102). -/
def Bank.reserveN (b : Bank) (q : QName) (walk : Nat) : Nat → Bank
  | 0 => b
  | n + 1 => (b.reserve q walk 0).reserveN q walk n

/-- What a load does as it issues (06 R197, R199). -/
def ldIssue (ma : MemAddr) (sz : Nat) (z : Bool) (dst : LdDst) (s : State) : Res State :=
  let b := s.here
  let n := 2 ^ sz
  match dst.queue with
  | none =>
    let d := match dst with | .reg r => [r] | _ => []
    if !b.readyA (.a ma.base :: d) then .stall
    else s.issueAcc { asp := ma.asp, ea := b.ea ma, n, op := .ld dst z, wait := true, writes := d.map aregCode } id
  | some q =>
    if !b.readyA [.a ma.base] || !b.room q (ceilDiv n 8) then .stall
    else s.issueAcc { asp := ma.asp, ea := b.ea ma, n, op := .ld dst z, wait := true, effs := [.vis q b.engs.A.walk] }
      (fun b => b.reserveN q b.engs.A.walk (ceilDiv n 8))

/-- `LD` (06 R197 to R199). -/
def execLd (m : Dep) (ma : MemAddr) (sz : Fin 7) (z : Bool) (dst : LdDst) (s : State) : Out :=
  accessWord (.ld m ma sz z dst) s (ldIssue ma sz.val z dst)

/-- What a store does as it issues (06 R199). -/
def stIssue (ma : MemAddr) (sz : Nat) (src : ASrc) (s : State) : Res State :=
  let b := s.here
  let n := 2 ^ sz
  let go (data : List Byte) (prep : Bank → Bank) : Res State :=
    s.issueAcc { asp := ma.asp, ea := b.ea ma, n, op := .st data, wait := false } prep
  match src with
  | .reg r => if !b.readyA [.a ma.base, r] then .stall else go (leBytes n (b.areg r).toNat) id
  | .da =>
    if !b.readyA [.a ma.base] then .stall
    else match b.takeDa (ceilDiv n 8) with
      | none => .stall
      | some (vs, b') =>
        go ((vs.flatMap (fun v => leBytes 8 v.toNat)).take n) (fun b => { b with queues := b'.queues })

/-- `ST` (06 R197 to R199). -/
def execSt (m : Dep) (ma : MemAddr) (sz : Fin 7) (src : ASrc) (s : State) : Out :=
  accessWord (.st m ma sz src) s (stIssue ma sz.val src)

/-! ## `ADDA`, `LIA`, `MOVA` (06 R200, R201) -/

/-- A word of A that writes a register from a value. -/
def putA (d : AReg) (v : Reg64) (b : Bank) : Res Bank := .ok (b.setAreg d v) { writes := [aregCode d] }

/-- `ADDA` (06 R200): with both sources `da`, a pops first. -/
def execAdda (m : Dep) (d : AReg) (a b : ASrc) (s : State) : Out :=
  accessBank (.adda m d a b) s (fun k =>
    if !k.readyA [d] then .stall
    else match k.takeA a with
      | none => .stall
      | some (x, k) => match k.takeA b with
        | none => .stall
        | some (y, k) => putA d (x + y) k)

/-- `LIA` (06 R200). -/
def execLia (m : Dep) (xc : Fin 4) (d : AReg) (imm : BitVec 64) (s : State) : Out :=
  accessBank (.lia m xc d imm) s (fun k => if !k.readyA [d] then .stall else putA d imm k)

/-- `MOVA aD, aA` (06 R201). -/
def execMova (m : Dep) (d : AReg) (a : ASrc) (s : State) : Out :=
  accessBank (.mova m d a) s (fun k =>
    if !k.readyA [d] then .stall
    else match k.takeA a with
      | none => .stall
      | some (x, k) => putA d x k)

/-- A source of A pushed into a queue as one entry (06 R201). -/
def pushA (q : QName) (a : ASrc) (k : Bank) : Res Bank :=
  if !k.room q 1 then .stall
  else match k.takeA a with
    | none => .stall
    | some (x, k) => .ok (k.reserve q k.engs.A.walk x) { effs := [.vis q k.engs.A.walk] }

/-- `MOVA ds, aA` (06 R201). -/
def execMovaToDs (m : Dep) (a : ASrc) (s : State) : Out := accessBank (.movaToDs m a) s (pushA .ds a)

/-- `MOVA dv, aA` (06 R201). -/
def execMovaToDv (m : Dep) (a : ASrc) (s : State) : Out := accessBank (.movaToDv m a) s (pushA .dv a)

/-- `MOVA dt, aA` (06 R201). -/
def execMovaToDt (m : Dep) (a : ASrc) (s : State) : Out := accessBank (.movaToDt m a) s (pushA .dt a)

/-! ## Tensor records (06 R207) -/

/-- Whether an earlier `TD.SET` of a record has still to retire. -/
def Bank.tdReady (b : Bank) (t : Fin 64) : Bool :=
  !b.engs.A.rets.any (fun r => r.effs.any (fun e => match e with | .td i _ => i / 12 == t.val | _ => false))

/-- `TD.SET` (06 R207): the qword changes when the word retires. -/
def execTdSet (m : Dep) (td : Fin 64) (i : Fin 12) (r : Fin 32) (s : State) : Out :=
  accessBank (.tdSet m td i r) s (fun k =>
    if !k.readyA [.a r] then .stall else .ok k { effs := [.td (12 * td.val + i.val) (k.ax r)] })

/-- `TD.GET` (06 R207). -/
def execTdGet (m : Dep) (td : Fin 64) (i : Fin 12) (r : Fin 32) (s : State) : Out :=
  accessBank (.tdGet m td i r) s (fun k =>
    if !k.readyA [.a r] || !k.tdReady td then .stall else putA (.a r) ((k.td td).getD i.val 0) k)

/-! ## Streams (06 R211 to R216) -/

/-- The home address that a load of unit `e` reads, if its value is not a fill (06 R204). -/
def TDesc.src (d : TDesc) (org : List Int) (e : Nat) : Option Nat :=
  let x := d.home org e
  if d.inside x then some (d.addrOf x) else if d.fill = 2 then some (d.addrOf (d.clamp x)) else none

/-- The home address that a store of unit `e` writes, if it is inside (06 R204). -/
def TDesc.dst (d : TDesc) (org : List Int) (e : Nat) : Option Nat :=
  let x := d.home org e
  if d.inside x then some (d.addrOf x) else none

/-- Several accesses in order: the ranges of each, or the first that faults. -/
def State.gather (s : State) (l : Loc) (asp : Asp) (write : Bool) (homes : List Nat) : List (Nat × Nat) → State × Except ARes (List (List Rng))
  | [] => (s, .ok [])
  | (a, n) :: t =>
    match s.access l (if write then .write else .read) asp a n write homes with
    | (s, .ok r) => match s.gather l asp write homes t with
      | (s, .ok rs) => (s, .ok (r :: rs))
      | x => x
    | (s, x) => (s, .error x)

/-- A part of a unit in a vector of a stream: unit, first byte in the unit, length. -/
structure Piece where
  unit : Nat
  off  : Nat
  len  : Nat
  deriving DecidableEq, Repr

/-- The pieces of vector `v` of a stream (06 R212). -/
def Stream.pieces (q : Stream) (v : Nat) : List Piece :=
  let es := (tdescOf q.tdr).es
  let lo := 512 * v
  let hi := min (512 * v + 512) q.bytes
  (natsFrom (lo / es) (ceilDiv hi es - lo / es)).map (fun u =>
    let a := max lo (u * es)
    ⟨u, a - u * es, min hi (u * es + es) - a⟩)

/-- The pieces of a vector that have a home address, with it. -/
def Stream.homed (q : Stream) (v : Nat) : List (Piece × Nat) :=
  let d := tdescOf q.tdr
  (q.pieces v).filterMap (fun p => ((if q.wr then d.dst q.org p.unit else d.src q.org p.unit)).map (fun a => (p, (a + p.off) % 2 ^ 64)))

/-- Whether a VIRT address of a stream lies in a segment that is being migrated. -/
def State.heldAny (s : State) (ctx : Nat) (asp : Asp) (l : List (Piece × Nat)) : Bool :=
  asp == .virt && l.any (fun x => s.held ctx x.2 x.1.len)

/-- The bytes of a fetched vector: read pieces, fills and zeros past the window. -/
def Stream.assemble (q : Stream) (v : Nat) (found : List (Nat × List Byte)) : VecReg :=
  let d := tdescOf q.tdr
  bytesVec ((q.pieces v).flatMap (fun p => match assoc found p.unit with
    | some x => d.taken q.org p.unit x
    | none => (d.fillBytes.drop p.off).take p.len))

/-- A fatal fault or a page fault of a stream (06 R216). -/
def State.streamStop (s : State) (l : Loc) (pc : Nat) (write : Bool) (r : ARes) : State :=
  match r with
  | .fault c => s.faultAt l c pc 0
  | .page va => s.notePage l va write 0
  | .ok _ => s

/-- One vector of a read stream is fetched (06 R212, R215). -/
def State.fetchVec (s : State) (l : Loc) (n : Fin 8) : State :=
  let b := s.bank l
  match assoc b.acc.q n.val with
  | none => s
  | some q =>
    let d := tdescOf q.tdr
    let hs := q.homed q.done
    if q.wr || 4 ≤ q.held.length || q.vectors ≤ q.done || !b.live || !q.after.isEmpty || s.heldAny b.ctx d.asp hs then s
    else match s.gather l d.asp false homesA (hs.map (fun x => (x.2, x.1.len))) with
      | (s, .error r) => s.streamStop l q.pc false r
      | (s, .ok rs) =>
        if s.tHolds rs.flatten then s
        else match s.platCheck l.core b.ctx .read rs.flatten with
        | (s, some f) => s.faultAt l f q.pc 0
        | (s, none) =>
          match s.badRngs rs.flatten with
          | some a => (s.logEvent .eccUncorr (dieOf l.core) 0 a).faultAt l .uncorr q.pc a
          | none =>
            let found := (hs.zip rs).map (fun x => (x.1.1.unit, s.readRngs x.2))
            s.onBank l (fun b => b.putQ n { q with held := q.held ++ [⟨0, q.assemble q.done found, []⟩], done := q.done + 1 })

/-- Bytes stored piece by piece. -/
def State.storePieces (s : State) (data : List Byte) (lo es : Nat) : List ((Piece × Nat) × List Rng) → State
  | [] => s
  | ((p, _), r) :: t => (s.writeRngs r ((data.drop (p.unit * es + p.off - lo)).take p.len)).storePieces data lo es t

/-- The oldest vector of a write stream is drained (06 R212, R215). -/
def State.drainVec (s : State) (l : Loc) (n : Fin 8) : State :=
  let b := s.bank l
  match assoc b.acc.q n.val with
  | none => s
  | some q =>
    let d := tdescOf q.tdr
    let hs := q.homed q.done
    match q.held with
    | [] => s
    | h :: _ =>
      if !q.wr || !b.live || !h.after.isEmpty || s.heldAny b.ctx d.asp hs then s
      else match s.gather l d.asp true homesA (hs.map (fun x => (x.2, x.1.len))) with
        | (s, .error r) => s.streamStop l q.pc true r
        | (s, .ok rs) =>
          if s.tHolds rs.flatten then s
          else match s.platCheck l.core b.ctx .write rs.flatten with
          | (s, some f) => s.faultAt l f q.pc 0
          | (s, none) =>
            let s := s.storePieces (vecBytes h.x) (512 * q.done) d.es (hs.zip rs)
            s.onBank l (fun b => (b.putQ n { q with held := q.held.drop 1, done := q.done + 1 }).complete h.id)

/-- Every vector held of a write stream is drained, as far as it can be. -/
def State.drainHeld (s : State) (l : Loc) (n : Fin 8) : Nat → State
  | 0 => s
  | k + 1 => (s.drainVec l n).drainHeld l n k

/-- Whether a word of V that has not retired pushes to a stream or its staging. -/
def Bank.pushing (b : Bank) (n : Fin 8) : Bool :=
  b.engs.V.rets.any (fun r => r.effs.any (fun e => match e with
    | .vector q _ _ _ => q == n
    | .staging q _ => q == n.val
    | _ => false))

/-- Whether a binding can end (06 R214): V has come as far, and a write stream has drained. -/
def Bank.endable (b : Bank) (n : Fin 8) : Bool :=
  b.engs.A.walk ≤ b.engs.V.walk && !b.pushing n && (match assoc b.acc.q n.val with
    | some q => !q.wr || q.held.isEmpty
    | none => true)

/-- In an eager turn the vectors that an ending stream holds drain first. -/
def State.preDrain (s : State) (n : Fin 8) : State :=
  if s.cur.eager ∧ s.here.live ∧ s.here.engs.A.walk ≤ s.here.engs.V.walk then s.drainHeld s.cur.loc n 4 else s

/-- Whether a live binding is to be ended. -/
def Bank.bound (b : Bank) (n : Fin 8) : Bool := (assoc b.acc.q n.val).isSome

/-- `QBIND` (06 R211, R212). -/
def execQbind (m : Dep) (td : Fin 64) (q : Fin 8) (wr : Bool) (oa ob : Fin 32) (s : State) : Out :=
  accessBank (.qbind m td q wr oa ob) (s.preDrain q) (fun k =>
    if !k.readyA [.a oa, .a ob] || !k.tdReady td then .stall
    else
      let org := originOf (k.ax oa) (k.ax ob)
      let t := k.td td
      match recFault t (some org) with
      | some f => .fault f 0
      | none =>
        if (tdescOf t).fill = 3 && (tdescOf t).reaches org then .fault .bounds 0
        else if k.bound q && !k.endable q then .stall
        else
          let k : Bank := { k with vec := { k.vec with stage := assocDel k.vec.stage q.val } }
          .ok (k.putQ q ⟨k.engs.A.walk, k.engs.A.pc, t, org, wr, [], 0, 0, k.acc.acqBar ++ k.acc.xpBar ++ k.writeIds⟩) {})

/-- `QEND` (06 R214): it issues once the stream has drained. -/
def execQend (m : Dep) (q : Fin 8) (s : State) : Out :=
  accessBank (.qend m q) (s.preDrain q) (fun k =>
    if !k.endable q then .stall
    else .ok { k with acc := { k.acc with q := assocDel k.acc.q q.val }, vec := { k.vec with stage := assocDel k.vec.stage q.val } } {})

/-- `STREAM_FETCH`: A fetches a vector ahead (06 R212). -/
def execStreamFetch (l : Loc) (q : Fin 8) (s : State) : Out := .next (s.fetchVec l q)

/-- `STREAM_DRAIN`: A drains a vector (06 R212). -/
def execStreamDrain (l : Loc) (q : Fin 8) (s : State) : Out := .next (s.drainVec l q)

/-! ## `SEGQ` (06 R217) -/

/-- What `SEGQ.state` reads. -/
def State.segState (s : State) (ctx va : Nat) : Nat :=
  match s.ctx ctx with
  | none => 0
  | some c =>
    let e := s.numPa (c.segPa + 16 * segOf va) 16
    bits e 1 0 + 4 * bit (s.migs.any (fun m => m.ctx == ctx && m.seg == segOf va))
      + 2 ^ 16 * (spGet 0 s.busy (512 * ctx + segOf va) % 2 ^ 16)

/-- The code of a page size. -/
def pageCode (size : Nat) : Nat := if size = 2 ^ 12 then 0 else if size = 2 ^ 16 then 1 else if size = 2 ^ 21 then 2 else 3

/-- What `SEGQ.probe` reads: a translation, and the faults that a load of 1 byte would take. -/
def State.segProbe (s : State) (l : Loc) (va : Nat) : State × Nat :=
  let ctx := (s.bank l).ctx
  match s.translate l ctx va false with
  | (s, .fault c) => (s, 2 ^ 8 * c.num)
  | (s, .page _) => (s, 2 ^ 8 * 0xFF)
  | (s, .ok pa) =>
    match (s.core l.core).tlb.find? (fun e => e.covers ctx va) with
    | none => (s, 1)
    | some e =>
      let low := 1 + 2 * bit e.w + 4 * pageCode e.size + 16 * homeOf pa
      if !homesOk homesA pa 1 then (s, low + 2 ^ 8 * FCode.home.num)
      else match s.platCheck l.core ctx .read [⟨.pa pa, 1, some va, 0⟩] with
        | (s, some f) => (s, low + 2 ^ 8 * f.num)
        | (s, none) => (s, low)

/-- A word of A with one source and one destination register, over the state. -/
def regWord (d : AReg) (a : ASrc) (f : State → Reg64 → State × Reg64) (s : State) : Res State :=
  if !s.here.readyA [d] || s.here.invalidating then .stall
  else match s.here.takeA a with
    | none => .stall
    | some (x, k) =>
      let (s, v) := f (s.setBank s.cur.loc k) x
      .ok (s.onHere (fun b => b.setAreg d v)) { writes := [aregCode d] }

/-- `SEGQ.state` (06 R217). -/
def execSegqState (m : Dep) (d : AReg) (a : ASrc) (s : State) : Out :=
  accessWord (.segqState m d a) s (regWord d a (fun s x => (s, BitVec.ofNat 64 (s.segState s.here.ctx x.toNat))))

/-- `SEGQ.probe` (06 R217). -/
def execSegqProbe (m : Dep) (d : AReg) (a : ASrc) (s : State) : Out :=
  accessWord (.segqProbe m d a) s (regWord d a (fun s x =>
    let (s, v) := s.segProbe s.cur.loc x.toNat
    (s, BitVec.ofNat 64 v)))

/-! ## `TLBINV` (06 R218) -/

/-- Entries of a core's TLB discarded. -/
def State.tlbDrop (s : State) (core : Nat) (p : TlbEnt → Bool) : State :=
  s.setTlb core ((s.core core).tlb.filter (fun e => !p e))

/-- Whether a TLB entry lies in a segment. -/
def TlbEnt.inSeg (e : TlbEnt) (va : Nat) : Bool := segOf e.va == segOf va

/-- `TLBINV.all` (06 R218). -/
def execTlbinvAll (m : Dep) (s : State) : Out :=
  accessWord (.tlbinvAll m) s (fun s => .ok (s.tlbDrop s.cur.loc.core (fun e => e.ctx == s.here.ctx)) { writes := [tlbCode] })

/-- A source of A taken, then a discard from the core's TLB. -/
def tlbWord (a : ASrc) (p : TlbEnt → Nat → Bool) (s : State) : Res State :=
  match s.here.takeA a with
  | none => .stall
  | some (x, k) => .ok ((s.setBank s.cur.loc k).tlbDrop s.cur.loc.core (fun e => e.ctx == s.here.ctx && p e x.toNat))
      { writes := [tlbCode] }

/-- `TLBINV.page` (06 R218). -/
def execTlbinvPage (m : Dep) (a : ASrc) (s : State) : Out :=
  accessWord (.tlbinvPage m a) s (tlbWord a (fun e va => e.covers e.ctx va))

/-- `TLBINV.seg` (06 R218). -/
def execTlbinvSeg (m : Dep) (a : ASrc) (s : State) : Out :=
  accessWord (.tlbinvSeg m a) s (tlbWord a (fun e va => e.inSeg va))

/-! ## `ASTAT` (06 R219) -/

/-- A's status. -/
def Bank.astatus (b : Bank) : Reg64 := BitVec.ofNat 64 (b.acc.flags.toNat + 256 * bit b.acc.conf)

/-- An earlier `GRD` may still raise flags: a read of the status waits for it, so that flags do not depend on time (01 R34). -/
def Bank.grdOut (b : Bank) : Bool := b.acc.out.any (fun a => match a.op with | .grd .. => true | _ => false)

/-- `ASTAT` (06 R219). -/
def execAstat (m : Dep) (d : AReg) (s : State) : Out :=
  accessBank (.astat m d) s (fun k => if !k.readyA [d] || k.grdOut then .stall else putA d k.astatus k)

/-- Status bits cleared. -/
def Bank.clearA (b : Bank) (x : Reg64) : Bank :=
  { b with acc := { b.acc with flags := b.acc.flags &&& ~~~(x.truncate 6), conf := b.acc.conf && !x.getLsbD 8 } }

/-- `ASTAT.clr` (06 R219). -/
def execAstatClr (m : Dep) (d : AReg) (a : ASrc) (s : State) : Out :=
  accessBank (.astatClr m d a) s (fun k =>
    if !k.readyA [d] || k.grdOut then .stall
    else match k.takeA a with
      | none => .stall
      | some (x, k) => putA d k.astatus (k.clearA x))

/-- `ASTAT.miss` (06 R219). -/
def execAstatMiss (m : Dep) (d : AReg) (s : State) : Out :=
  accessBank (.astatMiss m d) s (fun k => if !k.readyA [d] then .stall else putA d (BitVec.ofNat 64 k.acc.misses) k)

/-! ## Events -/

/-- `ACCESS_PERFORM`: an outstanding access performs (06 R182). -/
def execAccessPerform (l : Loc) (id : Nat) (s : State) : Out := .next (s.performAcc l id)

/-- `PAGE_FAULT`: the core drains and waits for the host (05 R169). -/
def execPageFault (l : Loc) (s : State) : Out := .next (s.drainPage l)

end Sys2Proof.Machine
end

