-- ==== Sys2Proof/Machine/Ordering.lean ====
section
/-!
DEFINITION. Fences, atomics, grain words, waits on an address, and the words of the Plat (07).
-/

namespace Sys2Proof.Machine

/-! ## Fences (07 R245 to R247) -/

/-- `FENCE.acq` (07 R247): it waits at issue until every earlier read has returned. -/
def execFenceAcq (m : Dep) (scope : Scope) (s : State) : Out :=
  accessBank (.fenceAcq m scope) s (fun k => if !k.readIds.isEmpty then .stall else .ok k {})

/-- V has come as far as A (07 R246). -/
def Bank.vThere (b : Bank) : Bool := b.engs.A.walk ≤ b.engs.V.walk

/-- A release fence at issue: it retires once everything before it has performed, and later writes wait for the same. -/
def relFence (k : Bank) : Res Bank :=
  .ok { k with acc := { k.acc with relBar := k.acc.relBar ++ k.relIds } } { waits := k.relIds }

/-- `FENCE.rel` (07 R247). -/
def execFenceRel (m : Dep) (scope : Scope) (s : State) : Out :=
  accessBank (.fenceRel m scope) s (fun k => if !k.vThere then .stall else relFence k)

/-- `FENCE.ar` (07 R247). -/
def execFenceAr (m : Dep) (scope : Scope) (s : State) : Out :=
  accessBank (.fenceAr m scope) s (fun k => if !k.vThere || !k.readIds.isEmpty then .stall else relFence k)

/-- `FENCE.sc` (07 R247, R257): it waits at issue until everything before it has performed, so that the order in which such
fences issue is the order of R257. -/
def execFenceSc (m : Dep) (scope : Scope) (s : State) : Out :=
  accessBank (.fenceSc m scope) s (fun k => if !k.vThere || !k.relIds.isEmpty then .stall else .ok k {})

/-- Later fetches of a bound read stream wait too (07 R247). -/
def Stream.later (q : Stream) (ids : List Nat) : Stream := if q.wr then q else { q with after := q.after ++ ids }

/-- `FENCE.xp` (07 R247): later copies and stream fetches wait for the earlier stores and drains. -/
def execFenceXp (m : Dep) (s : State) : Out :=
  accessBank (.fenceXp m) s (fun k =>
    if !k.vThere then .stall
    else .ok { k with acc := { k.acc with
        xpBar := k.acc.xpBar ++ k.storeIds, q := k.acc.q.map (fun p => (p.1, p.2.later k.storeIds)) } }
      { waits := k.storeIds })

/-! ## Atomics and grain words (07 R234 to R241) -/

/-- An access at an address that must be a multiple of its size (07 R235). -/
def atomicIssue (regs : List AReg) (q : Bank → AccReq) (s : State) : Res State :=
  if !s.here.readyA regs then .stall
  else
    let r := q s.here
    if r.ea % r.n ≠ 0 then .fault .align 0 else s.issueAcc r id

/-- `AMO` (07 R236). -/
def execAmo (m : Dep) (ma : MemAddr) (w8 : Bool) (op : AmoOp) (ord : Ord) (scope : Scope) (z nr : Bool) (d ra : Fin 32) (s : State) : Out :=
  accessWord (.amo m ma w8 op ord scope z nr d ra) s
    (atomicIssue ([.a ma.base, .a ra] ++ (if nr then [] else [.a d])) (fun b =>
      { asp := ma.asp, ea := b.ea ma, n := w8n w8, op := .amo w8 op z nr d (b.ax ra), scope, ord, wait := !nr
        writes := if nr then [] else [d.val] }))

/-- `CAS` (07 R237). -/
def execCas (m : Dep) (ma : MemAddr) (w8 : Bool) (ord : Ord) (scope : Scope) (z : Bool) (d ra : Fin 32) (s : State) : Out :=
  accessWord (.cas m ma w8 ord scope z d ra) s
    (atomicIssue [.a ma.base, .a ra, .a d] (fun b =>
      { asp := ma.asp, ea := b.ea ma, n := w8n w8, op := .cas w8 z d (b.ax d) (b.ax ra), scope, ord, wait := true
        writes := [d.val] }))

/-- `GADD` (07 R239). -/
def execGadd (m : Dep) (ma : MemAddr) (fmt : GFmt) (ord : Ord) (scope : Scope) (d : Fin 32) (s : State) : Out :=
  accessWord (.gadd m ma fmt ord scope d) s
    (atomicIssue [.a ma.base, .a d] (fun b =>
      { asp := ma.asp, ea := b.ea ma, n := 32, op := .gadd fmt (b.ax d), scope, ord, wait := false }))

/-- `GRD` (07 R240). -/
def execGrd (m : Dep) (ma : MemAddr) (fmt : GFmt) (rm : RMode) (ord : Ord) (scope : Scope) (d ra : Fin 32) (s : State) : Out :=
  accessWord (.grd m ma fmt rm ord scope d ra) s
    (atomicIssue [.a ma.base, .a d, .a ra] (fun b =>
      { asp := ma.asp, ea := b.ea ma, n := 32, op := .grd fmt rm d ra, scope, ord, wait := true
        writes := [d.val, ra.val] }))

/-- `GCLR` (07 R241). -/
def execGclr (m : Dep) (ma : MemAddr) (ord : Ord) (scope : Scope) (d : Fin 32) (s : State) : Out :=
  accessWord (.gclr m ma ord scope d) s
    (atomicIssue [.a ma.base, .a d] (fun b =>
      { asp := ma.asp, ea := b.ea ma, n := 32, op := .gclr (b.ax d), scope, ord, wait := false }))

/-! ## `WAITA` and `WAKEA` (07 R242 to R244) -/

/-- The table that holds the watches of a physical address and its size (07 R243). -/
def watchTable (pa : Nat) : Nat × Nat :=
  if homeOf pa = 0 then (bits pa 39 36, 1024)
  else if homeOf pa = 5 then (100 + bits pa 30 27, 256)
  else (1000 + bits pa 30 25, 64)

/-- Whether a watch lies in the table of an address. -/
def Watch.sameTable (w : Watch) (pa : Nat) : Bool :=
  match w.g with
  | .pa g => (watchTable g).1 == (watchTable pa).1
  | .sp0 _ _ => false

/-- A watch is registered; at a full table the oldest one there is evicted and ends with code 3 (07 R243). -/
def State.addWatch (s : State) (l : Loc) (p : Place) : State :=
  match p with
  | .sp0 _ _ => s
  | .pa a =>
    let w : Watch := ⟨l, .pa (a / 64 * 64)⟩
    let mine := s.watches.filter (fun x => x.sameTable a)
    if mine.length < (watchTable a).2 then { s with watches := s.watches ++ [w] }
    else match mine with
      | [] => s
      | o :: _ =>
        let s := s.setBank o.l ((s.bank o.l).endPark 3)
        { s with watches := s.watches.erase o ++ [w] }

/-- The granule of a place. -/
def Place.gran : Place → Place
  | .sp0 l o => .sp0 l (o / 64 * 64)
  | .pa a => .pa (a / 64 * 64)

/-- A register of A read as a timeout of Datum time (07 R230, R242). -/
def State.till (s : State) (x : Reg64) : Option Nat := if x = 0 then none else some (s.dtime + x.toNat)

/-- The arm of `WAITA`: one event at the home (07 R242). -/
def State.arm (s : State) (r : List Rng) (n : Nat) (d ra : Fin 32) : Res State :=
  let l := s.cur.loc
  match s.platCheck l.core s.here.ctx .watch r with
  | (_, some f) => .fault f 0
  | (s, none) =>
    let (id, s) := s.newId
    match s.badRngs r with
    | some a => .ok ((s.logEvent .eccUncorr (dieOf l.core) 0 a).faultAt l .uncorr s.here.engs.A.pc a) { waits := [id] }
    | none =>
      let cur := ofLe (s.readRngs r)
      let s := s.onHere (fun b => { b with acc := { b.acc with acqBar := b.acc.acqBar ++ b.readIds } })
      if cur ≠ (s.here.ax ra).toNat % 2 ^ (8 * n) then .ok (s.onHere (fun b => b.setAreg (.a d) 0)) { writes := [d.val] }
      else match r with
        | x :: _ =>
          let till := s.till (s.here.ax d)
          let s := s.addWatch l x.pl
          .ok (s.onHere (fun b => { b with acc := { b.acc with park := some (.waita id d x.pl.gran till) } }))
            { waits := [id], writes := [d.val] }
        | [] => .stall

/-- What `WAITA` does as it issues: it arms once earlier accesses to its bytes and the reads it must follow have performed. -/
def waitaIssue (ma : MemAddr) (n : Nat) (d ra : Fin 32) (s : State) : Res State :=
  if !s.here.readyA [.a ma.base, .a d, .a ra] then .stall
  else
    let ea := s.here.ea ma
    if ea % n ≠ 0 then .fault .align 0
    else if (ma.asp = .virt ∧ s.held s.here.ctx ea n) ∨ s.here.invalidating then .stall
    else match s.access s.cur.loc .watch ma.asp ea n false homesA with
      | (_, .fault c) => .fault c 0
      | (s, .page va) => .page s va false 0
      | (s, .ok r) =>
        if inHost r then .fault .atomic 0
        else if s.here.acc.out.any (fun a => overlap a.rngs r) || !s.here.acc.acqBar.isEmpty then .stall
        else s.arm r n d ra

/-- `WAITA` (07 R242). -/
def execWaita (m : Dep) (ma : MemAddr) (w8 : Bool) (scope : Scope) (d ra : Fin 32) (s : State) : Out :=
  accessWord (.waita m ma w8 scope d ra) s (waitaIssue ma (w8n w8) d ra)

/-- A parked `WAITA` ends with a code and its watch goes. -/
def State.unpark (s : State) (l : Loc) (code : Reg64) : State :=
  match (s.bank l).acc.park with
  | some (.waita _ _ _ _) =>
    { s.setBank l ((s.bank l).endPark code) with watches := s.watches.filter (fun w => w.l != l) }
  | _ => s

/-- The timeout of a parked word. -/
def Park.till : Park → Option Nat
  | .waita _ _ _ t => t
  | .plat _ _ _ t => t

/-- Whether a parked word's timeout has come. -/
def State.timedOut (s : State) (p : Park) : Bool :=
  match p.till with
  | some t => t ≤ s.dtime
  | none => false

/-- `WAITA_TIMEOUT` (07 R242). -/
def execWaitaTimeout (l : Loc) (s : State) : Out :=
  .next (match (s.bank l).acc.park with
    | some p => if s.timedOut p then s.unpark l 2 else s
    | none => s)

/-- `WAKEA` (07 R244): it ends watches as it performs, after everything a release waits for. -/
def execWakea (m : Dep) (ma : MemAddr) (scope : Scope) (d : Fin 32) (s : State) : Out :=
  accessWord (.wakea m ma scope d) s
    (atomicIssue [.a ma.base, .a d] (fun b =>
      { asp := ma.asp, ea := b.ea ma, n := 1, op := .wakea (b.ax d), scope, ord := .rel, wait := true }))

/-! ## The Plat (07 R228 to R232) -/

/-- The parcel report (07 R230). -/
def reportOf (core : Nat) : Parcel → Nat
  | .entry _ p0 p1 =>
    platMode p0 + 8 * bit (platMode p0 == 0 && platOwner p1 == core) + 2 ^ 7 * platLg p0
      + (if platMode p0 = 0 then 2 ^ 12 * platOwner p1 else 0) + 2 ^ 32 * platGen p1
  | _ => 2 + 4

/-- Whether a parcel is readable by a core (07 R230). -/
def parcelReadable (core : Nat) : Parcel → Bool
  | .entry _ p0 p1 => platMode p0 != 0 || platOwner p1 == core
  | _ => true

/-- The word index of the word of A that waits for an identifier. -/
def Bank.pcOf (b : Bank) (id : Nat) : Nat := (b.engs.A.rets.find? (fun r => r.waits.contains id)).elim b.engs.A.pc (·.pc)

/-- A parked `PLAT.wait` ends: its report with the flags `spur` (32) or `tmo` (16) is written; an entry that has become malformed is a
fault of its word (07 R225, R232). -/
def State.endPlat (s : State) (l : Loc) (fl : Nat) : State :=
  match (s.bank l).acc.park with
  | some (.plat id d va _) =>
    let (s, p) := s.platLookup l.core (s.bank l).ctx va
    let b := s.bank l
    let free : Bank := { b with acc := { b.acc with park := none } }
    let s := { s with platw := s.platw.filter (fun w => w.l != l) }
    match p with
    | .bad => (s.setBank l free).faultAt l .plat (b.pcOf id) 0
    | p => s.setBank l ((free.setAreg (.a d) (BitVec.ofNat 64 (reportOf l.core p + fl))).complete id)
  | _ => s

/-- Waits on a parcel that a change of it satisfies end (07 R232). -/
def State.wakePlat (s : State) (ctx p0 : Nat) : State :=
  (s.platw.filter (fun w => w.ctx == ctx && platCovers p0 w.va)).foldl (fun s w =>
    let (s, p) := s.platLookup w.l.core w.ctx w.va
    if parcelReadable w.l.core p then s.endPlat w.l 0 else s) s

/-- The entry of a parcel goes from every Plat cache of the package (07 R225). -/
def State.platDrop (s : State) (ctx idx : Nat) : State :=
  { s with cores := s.cores.map (fun p => (p.1, { p.2 with plat := p.2.plat.filter (fun e => !(e.ctx == ctx && e.idx == idx)) })) }

/-- A qword of a context's Plat entry written. -/
def State.writePlat (s : State) (ctx idx off v : Nat) : State :=
  match s.ctx ctx with
  | some c => s.writePa (c.platPa + 16 * idx + off) (leBytes 8 v)
  | none => s

/-- What `CONVEY` and `PLAT.share` wait for (07 R228): earlier A-path accesses and earlier copies. -/
def Bank.quietA (b : Bank) : Bool :=
  b.acc.out.isEmpty && b.drainIds.isEmpty
    && b.car.ch.all (fun p => p.2.sched || p.2.cmds.isEmpty)

/-- The cores fused off: none on a VK16-A512, and 32 on a VK16-A480 (00 R1). -/
def Part.off (p : Part) : List Nat :=
  if p.a480 then
    let l := p.fused.filter (· < 512)
    ((l.eraseDups ++ (upTo 512).filter (fun c => !l.contains c)).take 32)
  else []

/-- Whether a core is enabled (00 R1, 01 R15). -/
def State.enabled (s : State) (core : Nat) : Bool := decide (core < 512) && !s.part.off.contains core

/-- The waits and checks that `CONVEY` and `PLAT.share` have in common, then the change of an entry (07 R228, R230). -/
def conveyIssue (ma : MemAddr) (s : State) (f : State → Nat → Nat → Nat → Nat → Res State) : Res State :=
  let ea := s.here.ea ma
  let l := s.cur.loc
  if !s.here.quietA || s.here.invalidating then .stall
  else if s.held s.here.ctx ea 1 then .stall
  else match s.access l .read .virt ea 1 false homesA with
    | (_, .fault c) => .fault c 0
    | (s, .page va) => .page s va false 0
    | (s, .ok _) =>
      match s.platLookup l.core s.here.ctx ea with
      | (_, .bad) => .fault .plat 0
      | (_, .dflt) => .fault .convey 0
      | (s, .entry i p0 p1) =>
        if platMode p0 ≠ 0 ∨ platOwner p1 ≠ l.core then .fault .convey 0 else f s s.here.ctx i p0 p1

/-- `CONVEY` (07 R228). -/
def execConvey (m : Dep) (ma : MemAddr) (d : Fin 32) (s : State) : Out :=
  accessWord (.convey m ma d) s (fun s =>
    if !s.here.readyA [.a ma.base, .a d] then .stall
    else
      let t := (s.here.ax d).toNat
      if !s.enabled t then .fault .convey 0
      else conveyIssue ma s (fun s ctx i p0 p1 =>
        let s := (s.platDrop ctx i).writePlat ctx i 8 (t + 2 ^ 32 * ((platGen p1 + 1) % 2 ^ 32))
        .ok (s.wakePlat ctx p0) {}))

/-- `PLAT.share` (07 R230, R231). -/
def execPlatShare (m : Dep) (ma : MemAddr) (d : Fin 32) (s : State) : Out :=
  accessWord (.platShare m ma d) s (fun s =>
    if !s.here.readyA [.a ma.base, .a d] then .stall
    else conveyIssue ma s (fun s ctx i p0 p1 =>
      let p0' := p0 % 2 ^ 62 + 2 ^ 62
      let p1' := 2 ^ 32 * ((platGen p1 + 1) % 2 ^ 32)
      let s := ((s.platDrop ctx i).writePlat ctx i 0 p0').writePlat ctx i 8 p1'
      let s := s.wakePlat ctx p0'
      .ok (s.onHere (fun b => b.setAreg (.a d) (BitVec.ofNat 64 (reportOf s.cur.loc.core (.entry i p0' p1')))))
        { writes := [d.val] }))

/-- `PLAT.q` (07 R230, R235). -/
def execPlatQ (m : Dep) (ma : MemAddr) (d : Fin 32) (s : State) : Out :=
  accessWord (.platQ m ma d) s (fun s =>
    if !s.here.readyA [.a ma.base, .a d] then .stall
    else if 2 ^ 57 ≤ s.here.ea ma then .fault .addr 0
    else match s.platLookup s.cur.loc.core s.here.ctx (s.here.ea ma) with
      | (_, .bad) => .fault .plat 0
      | (s, p) => .ok (s.onHere (fun b => b.setAreg (.a d) (BitVec.ofNat 64 (reportOf s.cur.loc.core p)))) { writes := [d.val] })

/-- A wait joins the package's list; the oldest of 256 is evicted (07 R232). -/
def State.addPlatWatch (s : State) (l : Loc) (ctx va : Nat) : State :=
  let s := if s.platw.length < 256 then s
    else match s.platw with
      | o :: _ => s.endPlat o.l 32
      | [] => s
  { s with platw := s.platw ++ [⟨l, ctx, va⟩] }

/-- `PLAT.wait` (07 R230, R232). -/
def execPlatWait (m : Dep) (ma : MemAddr) (d : Fin 32) (s : State) : Out :=
  accessWord (.platWait m ma d) s (fun s =>
    if !s.here.readyA [.a ma.base, .a d] then .stall
    else
      let ea := s.here.ea ma
      let l := s.cur.loc
      if 2 ^ 57 ≤ ea then .fault .addr 0
      else match s.platLookup l.core s.here.ctx ea with
        | (_, .bad) => .fault .plat 0
        | (s, p) =>
          if parcelReadable l.core p then
            .ok (s.onHere (fun b => b.setAreg (.a d) (BitVec.ofNat 64 (reportOf l.core p)))) { writes := [d.val] }
          else
            let (id, s) := s.newId
            let till := s.till (s.here.ax d)
            let s := s.addPlatWatch l s.here.ctx ea
            .ok (s.onHere (fun b => { b with acc := { b.acc with park := some (.plat id d ea till) } }))
              { waits := [id], writes := [d.val] })

/-- `PLAT_WAIT_TIMEOUT` (07 R232). -/
def execPlatWaitTimeout (l : Loc) (s : State) : Out :=
  .next (match (s.bank l).acc.park with
    | some p => if s.timedOut p then s.endPlat l 16 else s
    | none => s)

end Sys2Proof.Machine
end

