-- ==== Sys2Proof/Machine/Subs.lean ====
section
/-!
DEFINITION. Subscriptions (12 R413 to R419): installing a fan-out entry, the states of a slot, the replay of a drift log, and what ends with a core's
part of a launch.
-/

namespace Sys2Proof.Machine

/-- The slot's state put. -/
def Bank.setSub (b : Bank) (n : Fin 16) (st : SubSt) : Bank :=
  match assoc b.fab.subs n.val with
  | some u => { b with fab := { b.fab with subs := assocPut b.fab.subs n.val { u with st } } }
  | none => b

/-- The state of a slot whose publisher has ended (12 R413): an ACTIVE or PARKED one is ENDED, a BROKEN one stays so. -/
def Bank.endSlot (b : Bank) (n : Fin 16) : Bank :=
  match assoc b.fab.subs n.val with
  | some u => if u.st = .active ∨ u.st = .parked then b.setSub n .ended else b
  | none => b

/-- The slots that an ending publisher feeds become ENDED (12 R413, R418). -/
def State.endFeeds (s : State) (id : Nat) (l : Loc) : State :=
  (s.bank l).fab.fan.foldl (fun s f => s.modPart id f.sub (fun b => b.endSlot f.slot)) s

/-- The fan-out entries that feed an ending subscriber go, with what is on its way to it. -/
def State.dropFeeds (s : State) (id : Nat) (l : Loc) : State :=
  match s.launch id with
  | none => s
  | some x =>
    let s := x.cores.foldl (fun s p => s.modPart id p (fun b =>
      { b with fab := { b.fab with fan := b.fab.fan.filter (fun f => f.sub != l) } })) s
    { s with transit := s.transit.filter (fun t => !(t.sub == l && t.launch == id)) }

/-- The check the publisher makes (12 R414). -/
def Bank.takesFan (b : Bank) (u : Sub) : Bool :=
  u.off % 64 == 0 && u.off + u.len ≤ b.hdr.spad && b.fab.fan.length < 32

/-- Whether a bank may still be told that a slot is ACTIVE: it runs, or F finishes its issued words as it halts or drains (05 R166, R169). -/
def Bank.finishes (b : Bank) : Bool := b.st == .run || b.st == .halting || b.st == .faultwait

/-- Whether a pre-emption request to a launch stands: a slot that becomes ACTIVE is parked at once (12 R413). -/
def State.parksNow (s : State) (id : Nat) : Bool := (s.launch id).any (fun x => x.preq || x.st == .preempted)

/-- `SUB_INSTALL`: the publisher installs the entry or refuses it (12 R413, R414). -/
def execSubInstall (l : Loc) (n : Fin 16) (s : State) : Out :=
  .next (
    let b := s.bank l
    match assoc b.fab.subs n.val, b.launch with
    | some u, some id =>
      if u.st ≠ .pending ∨ !b.finishes then s
      else if (s.partOf id u.pub).takesFan u then
        let s := s.modPart id u.pub (fun p => { p with fab := { p.fab with fan := p.fab.fan ++ [⟨l, n, u.off, u.base, u.len, u.lvl, [], []⟩] } })
        let st : SubSt := if s.parksNow id then .parked else .active
        s.onBank l (fun b => (b.setSub n st).complete u.req)
      else
        let pc := ((b.eng .F).rets.find? (fun r => r.waits.contains u.req)).elim (b.eng .F).pc (·.pc)
        (s.setBank l { b with fab := { b.fab with subs := assocDel b.fab.subs n.val } }).faultAt l .subs pc 0
    | _, _ => s)

/-- `GRANULE_SEND`: a pending granule of an entry is sent (12 R415). -/
def execGranuleSend (l : Loc) (entry : Nat) (s : State) : Out := .next (s.sendGran l entry)

/-- `GRANULE_DELIVER`: a granule performs at its subscriber, or enters its drift log (12 R415, R419). -/
def execGranuleDeliver (idx : Nat) (s : State) : Out := .next (s.deliver idx)

/-- The entries of a drift log written in order, before the subscriber's first word (12 R419). -/
def Bank.replayDrift (b : Bank) : Bank :=
  let b := b.fab.drift.foldl (fun b e =>
    match assoc b.fab.subs e.slot.val with
    | some u => b.forward (u.base + 64 * e.gidx) e.mask e.data
    | none => b) b
  { b with fab := { b.fab with
      drift := [], fdrift := 80 * b.fab.drift.length, subs := b.fab.subs.map (fun p => (p.1, if p.2.st = .parked then { p.2 with st := .active } else p.2)) } }

/-- A pre-emption request parks the slots of a core (12 R419). -/
def Bank.parkSubs (b : Bank) : Bank :=
  { b with fab := { b.fab with subs := b.fab.subs.map (fun p => (p.1, if p.2.st = .active then { p.2 with st := .parked } else p.2)) } }

/-- The slot that lost its granules, if any (12 R419). -/
def Bank.brokenSub (b : Bank) : Option Nat := (b.fab.subs.find? (fun p => p.2.st = .broken)).map (·.1)

end Sys2Proof.Machine
end

