-- ==== Sys2Proof/Machine/Arbiter.lean ====
section
/-!
DEFINITION. The launch machinery that other steps call (05): the completion record (R171 to R173, 15 R488), fit and placement (R141, R142), ranking and arbitration (R160 to R163), pre-emption (R166, R168) and the choice of a
bank (R167).
-/

namespace Sys2Proof.Machine

/-! ## Completion (05 R171 step 5, R172, R173; 15 R488, R489) -/

/-- A queue of the package. -/
def State.queue (s : State) (q : Nat) : Queue := spGet {} s.queues q

/-- A queue put. -/
def State.setQueue (s : State) (q : Nat) (x : Queue) : State := { s with queues := spPut {} s.queues q x }

/-- The completion index passes every completed packet that no earlier one holds back (05 R135). -/
def advance : Nat → Queue → Queue
  | 0, q => q
  | n + 1, q => if q.done.contains q.cidx then advance n { q with cidx := (q.cidx + 1) % 2 ^ 32, done := without q.cidx q.done } else q

/-- A packet of a queue has completed; one from before the queue was last enabled moves no index (15 R487). -/
def Queue.complete (q : Queue) (slot : Nat) : Queue :=
  if (slot + 2 ^ 32 - q.cidx) % 2 ^ 32 < (q.widx + 2 ^ 32 - q.cidx) % 2 ^ 32 then advance (q.done.length + 1) { q with done := slot :: q.done } else q

/-- The bytes of a completion record (15 R488). -/
def recordBytes (tag status fault fcore fword nfault : Nat) (pcs : List Nat) (iters tdisp tend detail step node : Nat) : List Byte :=
  leBytes 4 tag ++ leBytes 1 status ++ leBytes 1 fault ++ leBytes 2 fcore ++ leBytes 2 fword ++ leBytes 2 nfault
    ++ (upTo 6).flatMap (fun i => leBytes 2 (pcs.getD i 0)) ++ leBytes 8 iters ++ leBytes 8 tdisp ++ leBytes 8 tend
    ++ leBytes 8 detail ++ leBytes 4 step ++ leBytes 2 node ++ leBytes 2 0

/-- Whether a record may be written (05 R504): the context is the queue's function's and `crec` is aligned. -/
def State.hasRecord (s : State) (ctx fn crec : Nat) : Bool :=
  (match s.ctx ctx with | some c => c.fn == fn | none => false) && crec % 64 == 0

/-- The status byte of a launch that completes now: LATE past its deadline (05 R163, R173). -/
def State.statusOf (s : State) (x : Launch) : Nat := x.status + 128 * bit (x.pkt.deadline < s.dtime)

/-- The record of a launch. -/
def State.launchRecord (s : State) (x : Launch) : List Byte :=
  let (code, core, pc, det, pcs) : Nat × Nat × Nat × Nat × List Nat :=
    match x.fault with
    | some f => if x.status = 1 then (f.code.num, f.core, f.pc, f.detail, f.pcs) else (0, 0, 0, 0, [])
    | none => (0, 0, 0, 0, [])
  recordBytes x.pkt.tag (s.statusOf x) code core pc (if x.status = 1 then x.nfault.length else 0) pcs x.iters x.tdisp x.tend det x.step
    (x.node.elim 0 (·.2))

/-- What a node's end means for its graph (05 R178, R179): any status but OK, with or without LATE, stops it. Once it is cancelled no node's end
does. -/
def Graph.nodeDone (g : Graph) (node step status : Nat) : Graph :=
  if status % 128 = 0 then { g with fin := listSet g.fin node (g.fin.getD node 0 + 1) }
  else if g.stop.isSome || g.cancel then g else { g with stop := some (step, node, status) }

/-- A launch is DONE: its record is written, its queue advances, its interrupt is sent (05 R171 step 5). A node of a graph has no queue with a
vector (15 R490), so its interrupt is that of the queue its graph's packet came by (log entry 49). -/
def State.finish (s : State) (id : Nat) : State :=
  match s.launch id with
  | none => s
  | some x =>
    let x := if x.tend = 0 then { x with tend := s.dtime } else x
    let s := if s.hasRecord x.pkt.ctx x.fn x.pkt.crec then s.mwrite x.pkt.ctx x.pkt.crec (s.launchRecord x) else s
    let vecQ := match x.node with
      | some (g, _) => ((s.graphs.find? (fun y : Graph => y.id == g)).map (·.queue)).getD x.queue
      | none => x.queue
    let s := if x.queue < 64 then s.setQueue x.queue ((s.queue x.queue).complete x.slot) else s
    let s := if x.pkt.notify then s.msix (s.queue vecQ).fn (s.queue vecQ).vec else s
    let s := match x.node with
      | some (g, n) => { s with graphs := s.graphs.map (fun y : Graph => if y.id = g then y.nodeDone n x.step (s.statusOf x) else y) }
      | none => s
    s.modLaunch id (fun _ => { x with st := .done })

/-- The head of a queue is taken (05 R136). -/
def State.takeHead (s : State) (x : Launch) : State :=
  if x.queue < 64 then s.setQueue x.queue { s.queue x.queue with ridx := (x.slot + 1) % 2 ^ 32 } else s

/-- A queued launch completes at once with a status (05 R138, R140, R161, R175). -/
def State.completeNow (s : State) (id status : Nat) : State :=
  match s.launch id with
  | none => s
  | some x => ((s.takeHead x).modLaunch id (fun x => { x with status, tend := s.dtime })).finish id

/-! ## Fit and placement (05 R141, R142) -/

/-- The eligible cores of a packet. -/
def State.eligible (s : State) (p : Packet256) : List Nat := (upTo 512).filter (fun c => s.enabled c && bitAt p.dies (dieOf c))

/-- The core count of a packet. -/
def State.coreCount (s : State) (p : Packet256) : Nat := if p.ncores = 0 then (s.eligible p).length else p.ncores

/-- What a launch needs of a core: SP0 bytes, accumulator slots, text words. -/
def Launch.load (x : Launch) : Nat × Nat × Nat := match x.hdr with | some h => (h.spad, h.acc, h.textlen) | none => (0, 0, 0)

/-- Whether launches fit one core together. -/
def fitTogether (l : List Launch) : Bool :=
  let t := l.foldl (fun (a : Nat × Nat × Nat) x => (a.1 + x.load.1, a.2.1 + x.load.2.1, a.2.2 + x.load.2.2)) (0, 0, 0)
  l.length ≤ 2 && t.1 ≤ 8388608 && t.2.1 ≤ 1024 && t.2.2 ≤ 65536

/-- The launches resident on a core, but for some. -/
def State.residents (s : State) (core : Nat) (ign : List Nat) : List Launch :=
  ([(s.core core).b0, (s.core core).b1].filterMap (fun b => if b.st = .empty then none else b.launch)).filterMap (fun id =>
    if ign.contains id then none else s.launch id)

/-- Whether a launch that is not resident there fits a core. -/
def State.fitsCore (s : State) (x : Launch) (ign : List Nat) (core : Nat) : Bool := fitTogether (x :: s.residents core ign)

/-- Whether a part of a launch stands in a bank. -/
def State.resident (s : State) (id : Nat) (l : Loc) : Bool := (s.bank l).launch == some id && (s.bank l).st != .empty

/-- The parts of a launch that have not ended. -/
def Launch.live (x : Launch) : List Loc := x.cores.filter (fun l => !x.ended.contains l.core)

/-- The cores a launch gets if it is dispatched or resumed now, or none. A part that is being saved is not resumed before it has been (05 R165). -/
def State.fit (s : State) (x : Launch) (ign : List Nat) : Option (List Nat) :=
  if x.st = .preempted then
    let l := x.live
    if l.all (fun p => if s.resident x.id p then (s.bank p).st != .saving || ign.contains x.id else s.fitsCore x ign p.core) then some (l.map (·.core)) else none
  else
    let m := s.coreCount x.pkt
    let l := ((s.eligible x.pkt).filter (s.fitsCore x ign)).take m
    if l.length = m ∧ 0 < m then some l else none

/-! ## Ranking (05 R160, R162, R163) -/

/-- Whether a launch is late. -/
def State.late (s : State) (x : Launch) : Bool := x.pkt.deadline < s.dtime

/-- The key of a launch before slot order: as it stood at dispatch while it runs. -/
def State.rankOf (s : State) (x : Launch) : List Nat :=
  match x.st with
  | .queued | .preempted => [bit (s.late x), x.pkt.deadline, if x.st = .preempted then 0 else 1, x.queue]
  | _ => x.key

/-- Slot order within a queue (05 R136, R160): how far a packet's count, which is modulo 2^32, lies beyond the completion index. Nodes of graphs, of queue
number 64, have no slots; they are taken in the order in which Meridian submitted them (log entry 49). -/
def State.slotRank (s : State) (x : Launch) : Nat :=
  if x.queue < 64 then (x.slot + 2 ^ 32 - (s.queue x.queue).cidx) % 2 ^ 32 else x.id

/-- The key of a launch (05 R160). -/
def State.keyOf (s : State) (x : Launch) : List Nat := s.rankOf x ++ [s.slotRank x]

/-- Lexicographic order of keys. -/
def keyLt : List Nat → List Nat → Bool
  | [], _ => false
  | _ :: _, [] => false
  | a :: s, b :: t => a < b || (a == b && keyLt s t)

/-- The first of some launches. -/
def State.firstOf (s : State) : List Launch → Option Launch
  | [] => none
  | x :: t => match s.firstOf t with
    | some y => if keyLt (s.keyOf y) (s.keyOf x) then some y else some x
    | none => some x

/-- Whether a running launch may be pre-empted for another (05 R162). -/
def State.mayPreempt (s : State) (y x : Launch) : Bool :=
  y.pkt.pre && !s.late x && x.pkt.deadline + s.regs.premargin ≤ y.pkt.deadline

/-! ## Pre-emption requests (05 R166, 07 R232, R243, 12 R419) -/

/-- A running bank is told to halt: parked words of A end, and no engine issues. -/
def State.haltBank (s : State) (l : Loc) : State :=
  let s := (s.unpark l 3).endPlat l 32
  let b := s.bank l
  if b.st = .run then s.setBank l { b with st := .halting } else s

/-- A launch is pre-empted: every slot of its cores is parked and every running bank told to halt. -/
def State.preempt (s : State) (id : Nat) (evict : Bool) : State :=
  match s.launch id with
  | none => s
  | some x =>
    let s := s.modLaunch id (fun x => { x with preq := true })
    x.live.foldl (fun s l =>
      if s.resident id l then
        let s := s.haltBank l
        s.setBank l { (s.bank l).parkSubs with evict := (s.bank l).evict || evict }
      else s) s

/-- Victims that stay resident beside a launch on its cores, in the order of 05 R160 (05 R168). -/
def State.keep (s : State) (x : Launch) (cores : List Nat) (vics : List Launch) : List Launch → List Launch → List Launch
  | [], kept => kept
  | v :: t, kept =>
    let ok := v.live.all (fun l =>
      let ign := (vics.filter (fun y => !kept.any (fun k => k.id == y.id))).map (·.id)
      fitTogether ((if cores.contains l.core then [x] else []) ++ v :: s.residents l.core ign))
    s.keep x cores vics t (if ok then v :: kept else kept)

/-- An element put into an ordered list, before the first that is not less. -/
def insBy {α : Type} (lt : α → α → Bool) (x : α) : List α → List α
  | [] => [x]
  | y :: t => if lt y x then y :: insBy lt x t else x :: y :: t

/-- A list in an order; those of one rank stay as they stand. -/
def sortBy {α : Type} (lt : α → α → Bool) (l : List α) : List α := l.foldr (insBy lt) []

/-- Launches ordered by a key, the least first. -/
def State.ranked (s : State) (l : List Launch) : List Launch := sortBy (fun a b => keyLt (s.keyOf a) (s.keyOf b)) l

/-- The shortest prefix of victims without which a launch fits, with the cores it then gets. -/
def State.enough (s : State) (x : Launch) (ign : List Nat) : List Launch → List Launch → Option (List Launch × List Nat)
  | [], _ => none
  | y :: t, acc =>
    let acc := acc ++ [y]
    match s.fit x (ign ++ acc.map (·.id)) with
    | some c => some (acc, c)
    | none => s.enough x ign t acc

/-- Launches whose banks are on their way out. -/
def State.leaving (s : State) : List Nat :=
  (s.launches.filter (fun y => y.preq || y.live.any (fun l => s.resident y.id l && ((s.bank l).st == .saving || (s.bank l).evict)))).map (·.id)

/-- Step 3 of arbitration (05 R161): running launches are pre-empted, the latest deadline first, if that frees enough cores. -/
def State.preemptFor (s : State) (x : Launch) : State :=
  let out := s.leaving
  if s.late x || (s.fit x out).isSome then s
  else
    let ys := sortBy (fun a b => b.pkt.deadline < a.pkt.deadline) (s.launches.filter (fun y => y.st == .running && !y.preq && s.mayPreempt y x))
    match s.enough x out ys [] with
    | none => s
    | some (vics, cores) =>
      let kept := s.keep x cores vics (s.ranked vics) []
      vics.foldl (fun s v => s.preempt v.id (!kept.any (fun k => k.id == v.id))) s

/-! ## Dispatch and resumption (05 R143, R165, R168) -/

/-- The first multiple of `len` later than a time, plus `len` (05 R158). -/
def slotOrigin (time len : Nat) : Nat := if len = 0 then time else (time / len + 1) * len + len

/-- A bank of a core that is EMPTY. -/
def State.freeBank (s : State) (core : Nat) : Fin 2 := if (s.core core).b0.st = .empty then 0 else 1

/-- A place named in a bank moved. -/
def Bank.moveLoc (b : Bank) (p q : Loc) : Bank :=
  let mv (l : Loc) : Loc := if l = p then q else l
  { b with
    fab := { b.fab with
      subs := b.fab.subs.map (fun x => (x.1, { x.2 with pub := mv x.2.pub }))
      fan := b.fab.fan.map (fun f : Fan => { f with sub := mv f.sub }) }
    car := { b.car with ch := b.car.ch.map (fun c => (c.1, { c.2 with cmds := c.2.cmds.map (fun x =>
      match x.kind with
      | .toRing t o st g (some pl) sem => { x with kind := .toRing t o st g (some (mv pl)) sem }
      | _ => x) })) } }

/-- A part of a launch takes another bank of its core: every place that names it moves. -/
def State.relocate (s : State) (id : Nat) (p q : Loc) : State :=
  if p = q then s
  else match s.launch id with
    | none => s
    | some x =>
      let s := x.live.foldl (fun s l => s.modPart id l (fun b => b.moveLoc p q)) s
      let s := { s with transit := s.transit.map (fun t : Transit => if t.launch = id then
        { t with pub := if t.pub = p then q else t.pub, sub := if t.sub = p then q else t.sub } else t) }
      s.modLaunch id (fun x => { x with cores := x.cores.map (fun l => if l = p then q else l), iterQ := x.iterQ.map (fun l => if l = p then q else l) })

/-- A placed bank starts LOADING. -/
def State.placeAt (s : State) (x : Launch) (l : Loc) (place : Nat) : State :=
  let h := x.hdr.getD {}
  let m := x.cores.length
  s.setBank l { ({} : Bank) with
    st := .loading, launch := some x.id, ctx := x.pkt.ctx, hdr := h
    seq := { ({} : SeqSt) with slipw := h.slipw, t0 := slotOrigin x.tdisp x.pkt.slotlen, stage := if m = 0 then 0 else place * h.stages / m, place } }

/-- A queued launch is placed on cores (05 R142). -/
def State.dispatch (s : State) (x : Launch) (cores : List Nat) : State :=
  let key := s.rankOf x
  let s := s.takeHead x
  let locs := cores.map (fun c => (⟨c, s.freeBank c⟩ : Loc))
  let x := { x with st := .dispatch, cores := locs, tdisp := s.dtime, key }
  let s := s.modLaunch x.id (fun _ => x)
  (locs.zip (upTo locs.length)).foldl (fun s p => s.placeAt x p.1 p.2) s

/-- A pre-empted launch is placed again on its own cores. -/
def State.resume (s : State) (x : Launch) : State :=
  let key := s.rankOf x
  let s := s.modLaunch x.id (fun x => { x with st := .dispatch, key })
  x.live.foldl (fun s l =>
    if s.resident x.id l then s
    else
      let q : Loc := ⟨l.core, s.freeBank l.core⟩
      let s := s.relocate x.id l q
      s.setBank q { ({} : Bank) with st := .loading, launch := some x.id, ctx := x.pkt.ctx, hdr := x.hdr.getD {} }) s

/-! ## The bank that runs (05 R167) -/

/-- Launches whose bank on a core may be selected. -/
def State.selectable (s : State) (core : Nat) : List (Fin 2 × Launch) :=
  ([0, 1] : List (Fin 2)).filterMap (fun k =>
    let b := (s.core core).bank k
    match b.launch.bind s.launch with
    | some x => if b.st = .ready ∧ x.st = .running ∧ !x.preq then some (k, x) else none
    | none => none)

/-- A core selects its bank. -/
def State.selectBank (s : State) (core : Nat) : State :=
  let k := s.core core
  let cand := s.selectable core
  match k.run with
  | some r =>
    let b := k.bank r
    match b.launch.bind s.launch, cand with
    | some y, (_, x) :: _ =>
      if b.st = .run ∧ keyLt (s.keyOf x) (s.keyOf y) ∧ s.mayPreempt y x then s.haltBank ⟨core, r⟩ else s
    | _, _ => s
  | none =>
    match s.firstOf (cand.map (·.2)) with
    | none => s
    | some x =>
      match cand.find? (fun p => p.2.id == x.id) with
      | some (r, _) =>
        let b := k.bank r
        s.setCore core { k.setBank r { b with st := .run, seq := { b.seq with wdog := 0 } } with run := some r }
      | none => s

/-- Every placed bank of a launch in DISPATCH is in place: it runs (05 R165, R175, 12 R419). -/
def State.tryRun (s : State) (id : Nat) : State :=
  match s.launch id with
  | none => s
  | some x =>
    if x.st ≠ .dispatch ∨ !x.live.all (fun l => s.resident id l && (s.bank l).st == .ready) then s
    else
      let s := s.modLaunch id (fun x => { x with st := .running })
      let s := x.live.foldl (fun s l =>
        let b := s.bank l
        let lost := b.brokenSub
        let b := { b.replayDrift with seq := { b.replayDrift.seq with wdog := 0 }, evict := false }
        let b := match lost with
          | some n => b.takeFault .subsLost (b.eng .F).pc n
          | none => b
        (s.setBank l b).noteFault l) s
      x.live.foldl (fun s l => s.selectBank l.core) s

/-! ## Arbitration (05 R161) -/

/-- The launches that arbitration ranks: checked heads of enabled queues, ready nodes, and pre-empted launches. -/
def State.candidates (s : State) : List Launch :=
  s.launches.filter (fun x =>
    (x.st == .queued && x.hdr.isSome && x.pkt.typ == 0 && (64 ≤ x.queue || (s.queue x.queue).en)) || x.st == .preempted)

/-- Arbitration. -/
def arbitrate : Nat → State → State
  | 0, s => s
  | n + 1, s =>
    match s.firstOf s.candidates with
    | none => s
    | some x =>
      if x.st = .queued ∧ s.late x ∧ x.pkt.miss then arbitrate n (s.completeNow x.id 2)
      else match s.fit x [] with
        | some cores =>
          let s := if x.st = .preempted then (s.resume x).tryRun x.id else s.dispatch x cores
          arbitrate n s
        | none => s.preemptFor x

/-- Arbitration runs. -/
def State.arbiter (s : State) : State := arbitrate (s.launches.length + 1) s

end Sys2Proof.Machine
end

