-- ==== Sys2Proof/Machine/Flow.lean ====
section
/-!
DEFINITION. The flow words (02 R56 to R60; 04 R109 to R115, R121 to R126; 05 R146 to R158): branches, loops and rotation, stopping
words, iterations, stages and barriers.
-/

namespace Sys2Proof.Machine

/-! ## Issue and observation (02 R51, R56) -/

/-- One try of an engine other than S to observe a flow word: it pops no tokens (02 R45). -/
def Bank.tryObserve (b : Bank) (e : Engine) (ext : Nat) (f : Bank → Res Bank) : Bank :=
  if b.live && !(e == .A && b.acc.park.isSome) then
    match f b with
    | .stall => b
    | .page _ _ _ _ => b
    | .fault c d => b.takeFault c (b.eng e).pc d
    | .ok b' p => { b'.setEng e ((b'.eng e).pass ext p.jump) with seq := { b'.seq with wdog := 0 } }
  else b

/-- A flow word at the cursor: S issues it, every other engine observes it. -/
def flowWord (i : Instr) (s : State) (f : Engine → Bank → Res Bank) : Out :=
  if s.cur.eng = .S then bankWord i s (f .S)
  else .next ((s.setBank s.cur.loc (s.here.tryObserve s.cur.eng (Instr.hd i).ext (f s.cur.eng))).noteFault s.cur.loc)

/-- A signed offset from an engine's program counter. -/
def Bank.target {n : Nat} (b : Bank) (e : Engine) (off : BitVec n) : Nat := (offTo (b.eng e).pc off).toNat

/-- The engines with a branch outcome queue (02 R57). -/
def boqEngines : List Engine := [.A, .M, .V, .T, .F]

/-- Whether the five queues have room (02 R57). -/
def Bank.boqRoom (b : Bank) : Bool := boqEngines.all (fun e => (b.eng e).boq.length < 64)

/-- One entry pushed into each of the five queues; the indices of an `ITER` go to A. -/
def Bank.boqPush (b : Bank) (v : Reg64) (idx : List Reg64) : Bank :=
  boqEngines.foldl (fun b e => b.setEng e { b.eng e with boq := (b.eng e).boq ++ [⟨v, if e = .A then idx else []⟩] }) b

/-- The head of an engine's queue taken. -/
def Bank.boqPop (b : Bank) (e : Engine) : Option (BoqEnt × Bank) :=
  match (b.eng e).boq with
  | [] => none
  | x :: t => some (x, b.setEng e { b.eng e with boq := t })

/-- The outcome of a conditional word: S pops `CQ` and publishes it, the others pop their queues. -/
def Bank.outcome (b : Bank) (e : Engine) : Option (Bool × Bank) :=
  if e = .S then
    match b.peek .cq b.engs.S.walk with
    | some v => if b.boqRoom then some (v == 1, (b.drop .cq).boqPush v []) else none
    | none => none
  else match b.boqPop e with
    | some (x, b) => some (x.val == 1, b)
    | none => none

/-! ## Branches (04 R109) -/

/-- `BR` (04 R109). -/
def execBr (m : Dep) (off : BitVec 18) (s : State) : Out :=
  flowWord (.br m off) s (fun e b => .ok b { jump := some (b.target e off) })

/-- `BRC` (04 R109). -/
def execBrc (m : Dep) (off : BitVec 18) (s : State) : Out :=
  flowWord (.brc m off) s (fun e b =>
    match b.outcome e with
    | none => .stall
    | some (c, b) => .ok b { jump := if c then some (b.target e off) else none })

/-- `CALL` (04 R109, 02 R59). -/
def execCall (m : Dep) (off : BitVec 18) (s : State) : Out :=
  flowWord (.call m off) s (fun e b =>
    let x := b.eng e
    if 16 ≤ x.stack.length then .fault .stack 0
    else .ok (b.setEng e { x with stack := (x.pc + 1) :: x.stack }) { jump := some (b.target e off) })

/-- `RET` (04 R109, 02 R59). -/
def execRet (m : Dep) (s : State) : Out :=
  flowWord (.ret m) s (fun e b =>
    let x := b.eng e
    match x.stack with
    | [] => .fault .stack 0
    | t :: st => .ok (b.setEng e { x with stack := st }) { jump := some t })

/-! ## Loops and rotation (04 R111 to R115) -/

/-- What an engine does at a `LOOP` whose count it holds. -/
def Bank.enterLoop (b : Bank) (e : Engine) (lc : Fin 4) (n : Reg64) (off : Nat) : Res Bank :=
  let x := b.eng e
  let x' := { x with
    lc := spPut 0 x.lc lc.val n
    start := spPut 0 x.start lc.val (x.pc + 2)
    loops := spPut 0 x.loops lc.val (spGet 0 x.loops lc.val + 1)
    sten := if (assoc b.hdr.rots lc.val).isSome then (if n = 0 then 0xFF else 0x01) else x.sten }
  .ok (b.setEng e x') { jump := if n = 0 then some (x.pc + off + 1) else none }

/-- `LOOP` (04 R111). -/
def execLoop (m : Dep) (lc : Fin 4) (cnt : LoopCount) (off : BitVec 17) (s : State) : Out :=
  flowWord (.loop m lc cnt off) s (fun e b =>
    match cnt with
    | .imm n => b.enterLoop e lc (n.zeroExtend 64) off.toNat
    | .reg r =>
      if e = .S then
        if b.pending .S [r.val] || !b.boqRoom then .stall
        else (b.boqPush (b.sreg r) []).enterLoop .S lc (b.sreg r) off.toNat
      else match b.boqPop e with
        | none => .stall
        | some (x, b) => b.enterLoop e lc x.val off.toNat)

/-- The first `n` registers of a file turned by one: the last becomes the first (04 R115). -/
def rotateFile {α : Type} [DecidableEq α] (d : α) (m : Sparse α) (base n : Nat) : Sparse α :=
  if n = 0 then m
  else (upTo n).foldl (fun r i => spPut d r (base + i) (spGet d m (base + (i + n - 1) % n))) m

/-- The rotation of an engine's own state (04 R115). -/
def Bank.rotate (b : Bank) (e : Engine) (lc : Nat) (c : Nat) : Bank :=
  match assoc b.hdr.rots lc with
  | none => b
  | some r =>
    let b := if e = .A then { b with acc := { b.acc with a := rotateFile 0 b.acc.a 32 r.nb } } else b
    let b := if e = .V then { b with vec := { b.vec with z := rotateFile 0 b.vec.z 0 r.nz } } else b
    let x := b.eng e
    b.setEng e { x with
      sten := (x.sten <<< 1) ||| (if r.ec < c then 1 else 0)
      rot := spPut 0 x.rot lc (spGet 0 x.rot lc + 1) }

/-- `ENDL` (04 R112). -/
def execEndl (m : Dep) (lc : Fin 4) (rot : Bool) (s : State) : Out :=
  flowWord (.endl m lc rot) s (fun e b =>
    let x := b.eng e
    let c := spGet 0 x.lc lc.val
    let nb := (assoc b.hdr.rots lc.val).elim 0 (·.nb)
    let nz := (assoc b.hdr.rots lc.val).elim 0 (·.nz)
    if c = 0 then .ok b {}
    else if rot && ((e == .A && b.pending .A (natsFrom 32 nb)) || (e == .V && b.pending .V (natsFrom 64 nz))) then .stall
    else
      let b := b.setEng e { x with lc := spPut 0 x.lc lc.val (c - 1) }
      let b := if rot then b.rotate e lc.val (c - 1).toNat else b
      if c - 1 ≠ 0 then .ok b { jump := some (spGet 0 x.start lc.val) }
      else .ok (if rot then b.setEng e { b.eng e with sten := 0xFF } else b) {})

/-- Whether a copy is armed for the loop of a counter (04 R113): A has met no `LOOP` of it since the copy issued. -/
def Cmd.armedFor (c : Cmd) (loops : Sparse Nat) (lc : Nat) : Bool :=
  c.long && spGet 0 c.loops lc == spGet 0 loops lc && spGet 0 loops lc != 0

/-- Looping copies are told to stop at their next slot boundary (04 R113, R124; 09 R318), those of the schedule among them or not. -/
def Bank.stopCopies (b : Bank) (sched : Bool) (p : Cmd → Bool) : Bank :=
  { b with car := { b.car with ch := b.car.ch.map (fun x =>
      if x.2.sched && !sched then x
      else (x.1, { x.2 with cmds := x.2.cmds.map (fun c => if p c then { c with stop := true } else c) })) } }

/-- `LEXIT` (04 R113). -/
def execLexit (m : Dep) (cancel : Bool) (off : BitVec 17) (s : State) : Out :=
  flowWord (.lexit m cancel off) s (fun e b =>
    match b.outcome e with
    | none => .stall
    | some (false, b) => .ok b {}
    | some (true, b) =>
      let x := b.eng e
      match b.endlAt (x.pc + off.toNat) with
      | none => .stall
      | some (n, rot) =>
        let b := b.setEng e { x with lc := spPut 0 x.lc n 0, sten := if rot then 0xFF else x.sten }
        let b := if e = .A ∧ cancel then b.stopCopies false (fun c => c.armedFor x.loops n) else b
        .ok b { jump := some (x.pc + off.toNat + 1) })

/-! ## Stopping words (04 R121 to R125) -/

/-- Whether a core is quiet at a stopping word (04 R121, 07 R255): the drains of vectors pushed before it have performed too. -/
def Bank.quiet (b : Bank) : Bool :=
  allEngines.all (fun e => (b.eng e).walk == b.engs.S.walk && (b.eng e).rets.isEmpty && (b.eng e).pend.isEmpty)
    && b.acc.out.isEmpty && b.drainIds.isEmpty && b.acc.park.isNone && b.mx.win.isEmpty && b.mx.run.isNone && b.fab.reqs.isEmpty
    && b.car.ch.all (fun p => p.2.sched || p.2.cmds.isEmpty)

/-- Whether no channel has a command, the schedule's included: `EXIT` has stopped them all (04 R124, 09 R318). -/
def Bank.stopped (b : Bank) : Bool := b.car.ch.all (fun p => p.2.cmds.isEmpty)

/-- Whether a collective of the bank is not complete (04 R121). -/
def State.posted (s : State) (l : Loc) : Bool :=
  s.trav.insts.any (fun i => i.posts.any (fun p => p.own && p.who % 1024 == l.core && some p.launch == (s.bank l).launch))

/-- The five other engines pass a one-word stopping word. -/
def Bank.passOthers (b : Bank) : Bank := boqEngines.foldl (fun b e => b.setEng e ((b.eng e).pass 0 none)) b

/-- A stopping word at the cursor: only S moves it on. -/
def stopWord (i : Instr) (s : State) (f : State → Res State) : Out :=
  if s.cur.eng = .S then packageWord i s f else .next s

/-- `DRAIN` (04 R122). -/
def execDrain (m : Dep) (s : State) : Out :=
  stopWord (.drain m) s (fun s =>
    if s.here.quiet && !s.posted s.cur.loc then .ok (s.onHere Bank.passOthers) {} else .stall)

/-! ### Barriers (05 R154 to R158) -/

/-- The place of a core in the barriers of a level (05 R154). -/
def barPlace (lvl : Level) (core : Nat) : Nat :=
  match lvl with
  | .core => core
  | .cluster => clusterOf core
  | .die => dieOf core
  | .package | .launch => 0

/-- The number of a level. -/
def Level.num : Level → Nat
  | .core => 0 | .cluster => 1 | .die => 2 | .package => 3 | .launch => 4

/-- The members of a barrier: placed cores that have not ended (05 R154). -/
def Launch.members (x : Launch) (lvl : Level) (place : Nat) : List Loc :=
  x.cores.filter (fun p => barPlace lvl p.core == place && !x.ended.contains p.core)

/-- A barrier of a launch. -/
def Launch.bar (x : Launch) (lvl : Level) (place : Nat) : Barrier :=
  (x.bars.find? (fun b => b.lvl == lvl && b.place == place)).getD ⟨lvl, place, 0, none, 0⟩

/-- A barrier put. -/
def Launch.setBar (x : Launch) (b : Barrier) : Launch :=
  { x with bars := b :: x.bars.filter (fun c => !(c.lvl == b.lvl && c.place == b.place)) }

/-- A bank's arrivals at a level. -/
def Bank.arrivals (b : Bank) (lvl : Level) : Nat := spGet 0 b.seq.arrive (Level.num lvl)

/-- Whether the next generation of a barrier may release: every member has arrived and one waits (05 R155). -/
def State.barReady (s : State) (x : Launch) (lvl : Level) (place : Nat) : Bool :=
  let ms := x.members lvl place
  ms.all (fun l => (s.bank l).arrivals lvl ≥ (x.bar lvl place).gen + 1)
    && ms.any (fun l => (s.bank l).seq.cairn == some lvl)

/-- All six engines pass the Cairn at which a bank waits, and its T0 is set (04 R123, 05 R158). -/
def Bank.passCairn (b : Bank) (t0 : Nat) : Bank :=
  match b.checked b.engs.S.pc with
  | .ok i =>
    let b := b.passOthers.issued (Instr.hd i) {}
    { b with seq := { b.seq with cairn := none, t0 } }
  | .error _ => b

/-- A barrier releases its next generation (05 R155, R157). -/
def State.release (s : State) (id : Nat) (lvl : Level) (place : Nat) : State :=
  match s.launch id with
  | none => s
  | some x =>
    if x.st ≠ .running ∨ !s.barReady x lvl place then s
    else
      let bar := x.bar lvl place
      let t0 := slotOrigin bar.last x.pkt.slotlen
      let ms := (x.members lvl place).filter (fun l => (s.bank l).seq.cairn == some lvl)
      let s := ms.foldl (fun s l => s.onBank l (fun b => b.passCairn t0)) s
      s.modLaunch id (fun x => x.setBar { bar with gen := bar.gen + 1, age := none })

/-- A core arrives at a Cairn (05 R155, 12 R416): its granules perform first. T0 counts from the last member that arrives here: a core that
lets a barrier release by its `EXIT` (05 R154) is no member then and moves no T0 (log entry 45, DEDUCED). -/
def State.arriveAt (s : State) (l : Loc) (id : Nat) (lvl : Level) : State :=
  let s := s.flushFan l
  let b := s.bank l
  let place := barPlace lvl l.core
  let s := s.setBank l { b with seq := { b.seq with
    arrive := spPut 0 b.seq.arrive (Level.num lvl) (b.arrivals lvl + 1), cairn := some lvl, wdog := 0 } }
  s.modLaunch id (fun x =>
    let r := x.bar lvl place
    x.setBar { r with age := some (r.age.getD 0), last := s.dtime })

/-- `CAIRN` (04 R123, 05 R155): the core arrives once it is quiet and passes when its level releases. -/
def execCairn (m : Dep) (lvl : Level) (s : State) : Out :=
  let l := s.cur.loc
  let b := s.here
  let here (s : State) (id : Nat) : Out := .next (if s.cur.eager then s.release id lvl (barPlace lvl l.core) else s)
  if s.cur.eng = .S ∧ b.live ∧ b.tokensOk (Instr.hd (.cairn m lvl)) then
    match b.launch with
    | none => .next s
    | some id =>
      if b.seq.cairn = none ∧ b.quiet ∧ !s.posted l ∧ s.flushes l then here (s.arriveAt l id lvl) id
      else if b.seq.cairn = some lvl then here s id
      else .next s
  else .next s

/-- `BARRIER_RELEASE` (05 R155). -/
def execBarrierRelease (launch : Nat) (lvl : Level) (place : Nat) (s : State) : Out := .next (s.release launch lvl place)

/-- `BARRIER_TIMEOUT` (05 R156): the waiting member of least linear index takes `F_BARRIER`; the record names the least member that
had not arrived (15 R489). -/
def execBarrierTimeout (launch : Nat) (lvl : Level) (place : Nat) (s : State) : Out :=
  .next (match s.launch launch with
    | none => s
    | some x =>
      let bar := x.bar lvl place
      match bar.age with
      | none => s
      | some a =>
        if x.st ≠ .running ∨ a < x.pkt.cairnTo then s
        else
          let ms := x.members lvl place
          let late := (ms.filter (fun l => (s.bank l).arrivals lvl ≤ bar.gen)).map (·.core)
          match ms.find? (fun l => (s.bank l).seq.cairn == some lvl) with
          | some l => s.faultAt l .barrier (s.bank l).engs.S.pc (late.min?.getD 0)
          | none => s)

/-! ### The end of a core's part (04 R124, 05 R153, 12 R418) -/

/-- A core's part of its launch ends: its bank is EMPTY. -/
def State.clearPart (s : State) (l : Loc) : State :=
  let k := s.core l.core
  (s.setBank l {}).setCore l.core { (k.setBank l.bank {}) with run := if k.run = some l.bank then none else k.run }

/-- A core passes `EXIT`. -/
def State.endPart (s : State) (l : Loc) (id : Nat) : State :=
  let s := s.flushFan l
  let s := (s.endFeeds id l).dropFeeds id l
  let s := s.clearPart l
  s.modLaunch id (fun x =>
    let ended := l.core :: x.ended
    let all := x.cores.all (fun p => ended.contains p.core)
    { x with ended, iterQ := x.iterQ.filter (· != l)
             st := if all ∧ x.st = .running then .ending else x.st })

/-! ### Iterations and stages (05 R146 to R152) -/

/-- Iterations of a loop nest (05 R146). -/
def totalIters (counts : List Nat) : Nat := counts.foldl (· * ·) 1

/-- The indices of the iteration of a sequence number, loop 0 most significant (05 R146). -/
def unrank : List Nat → Nat → List Nat
  | [], _ => []
  | c :: t, n => (n / totalIters t) % (max c 1) :: unrank t (n % totalIters t)

/-- The loop counts of a packet. -/
def Packet256.nest (p : Packet256) : List Nat := p.counts.take p.nloops

/-- Whether every core of a stage has ended its part. -/
def State.stageEnded (s : State) (x : Launch) (k : Nat) : Bool :=
  (x.cores.filter (fun l => (s.partOf x.id l).seq.stage == k && !x.ended.contains l.core)).isEmpty

/-- The answer to an `ITER` request, if there is one now (05 R147, R149, R150), and the launch after it. -/
def State.answer (s : State) (x : Launch) (stage : Nat) : Option (Option Nat × Launch) :=
  if stage = 0 then
    if x.walker < totalIters x.pkt.nest then some (some x.walker, { x with walker := x.walker + 1 }) else some (none, x)
  else match x.hand.find? (fun h => h.1 == stage) with
    | some (k, h :: t) => some (some h, { x with hand := x.hand.map (fun y => if y.1 = k then (k, t) else y) })
    | _ => if s.stageEnded x (stage - 1) then some (none, x) else none

/-- Waiting requests are answered in their order (05 R147, R149). -/
def State.serve (s : State) (id : Nat) : List Loc → State
  | [] => s
  | l :: t =>
    match s.launch id with
    | none => s
    | some x =>
      let b := s.bank l
      match s.answer x b.seq.stage with
      | none => s.serve id t
      | some (a, x') =>
        let s := s.modLaunch id (fun _ => { x' with iterQ := x'.iterQ.filter (· != l) })
        let ans := a.map (fun n => (n, unrank x.pkt.nest n))
        (s.setBank l { b with seq := { b.seq with iterReq := false, iterAns := some ans } }).serve id t

/-- Every waiting request of a launch is tried. -/
def State.serveAll (s : State) (id : Nat) : State :=
  match s.launch id with
  | some x => s.serve id x.iterQ
  | none => s

/-- The index registers that an iteration loads (05 R148). -/
def idxRegs (idx : List Nat) : List Reg64 := (upTo 6).map (fun j => BitVec.ofNat 64 (idx.getD j 0))

/-- Registers of A from `a26` on (04 R126). -/
def Bank.loadA (b : Bank) (idx : List Reg64) : Bank :=
  (upTo 6).foldl (fun b j => { b with acc := { b.acc with a := spPut 0 b.acc.a (26 + j) (idx.getD j 0) } }) b

/-- Registers of S from `s56` on, written as the word retires (04 R100, R126). -/
def idxEffs (idx : List Reg64) : List Eff := (upTo 6).map (fun j => .sreg (Fin.ofNat 64 (56 + j)) (idx.getD j 0))

/-- Codes of the index registers. -/
def idxCodes (base : Nat) : List Nat := natsFrom base 6

/-- S issues an `ITER` whose answer it holds (04 R126, 05 R148, R151). -/
def iterIssue (off : BitVec 18) (x : Launch) (last : Bool) (s : State) : Res State :=
  let b := s.here
  match b.seq.iterAns with
  | none => .stall
  | some ans =>
    if !b.boqRoom || b.pending .S (idxCodes 56) then .stall
    else
      let s := if last && b.seq.iterno.isSome then s.modLaunch x.id (fun x => { x with iters := x.iters + 1 }) else s
      match ans with
      | none =>
        let b := b.boqPush 1 []
        .ok (s.setBank s.cur.loc { b with seq := { b.seq with iterAns := none, iterno := if last then none else b.seq.iterno } })
          { jump := some (b.target .S off) }
      | some (n, idx) =>
        let b := b.boqPush 0 (idxRegs idx)
        .ok (s.setBank s.cur.loc { b with seq := { b.seq with iterAns := none, iterno := some n } })
          { effs := idxEffs (idxRegs idx), writes := idxCodes 56 }

/-- S requests the next iteration (05 R147). -/
def State.requestIter (s : State) (id : Nat) : State :=
  let l := s.cur.loc
  let b := s.here
  let s := s.setBank l { b with seq := { b.seq with iterReq := true } }
  (s.modLaunch id (fun x => { x with iterQ := x.iterQ ++ [l] })).serveAll id

/-- An engine other than S at an `ITER`. -/
def iterObserve (off : BitVec 18) (e : Engine) (b : Bank) : Res Bank :=
  if e = .A ∧ b.pending .A (idxCodes 26) then .stall
  else match b.boqPop e with
    | none => .stall
    | some (x, b) =>
      if x.val = 1 then .ok b { jump := some (b.target e off) }
      else .ok (if e = .A then b.loadA x.idx else b) {}

/-- `ITER` (04 R126, 05 R147 to R151): S requests at its first try and issues once the answer is there. -/
def execIter (m : Dep) (off : BitVec 18) (s : State) : Out :=
  if s.cur.eng = .S then
    let b := s.here
    match b.launch.bind s.launch with
    | none => .next s
    | some x =>
      let last := decide (x.hdr.elim 1 (·.stages) ≤ b.seq.stage + 1)
      if b.live ∧ b.tokensOk (Instr.hd (.iter m off)) ∧ !b.seq.iterReq ∧ b.seq.iterAns = none
          ∧ !(!last && b.seq.iterno.isSome) then
        packageWord (.iter m off) (s.requestIter x.id) (iterIssue off x last)
      else packageWord (.iter m off) s (fun s =>
        if !last && b.seq.iterno.isSome then .fault .stage 0 else iterIssue off x last s)
  else flowWord (.iter m off) s (iterObserve off)

/-- Iterations that a hand-over queue holds. -/
def Launch.handed (x : Launch) (k : Nat) : List Nat := ((x.hand.find? (fun h => h.1 == k)).map (·.2)).getD []

/-- An iteration placed in the hand-over queue of a stage (05 R149). -/
def Launch.handOver (x : Launch) (k n : Nat) : Launch :=
  { x with hand := (k, x.handed k ++ [n]) :: x.hand.filter (fun h => h.1 != k) }

/-- `STAGEP` (04 R125, 05 R149 to R151). -/
def execStagep (m : Dep) (s : State) : Out :=
  stopWord (.stagep m) s (fun s =>
    let b := s.here
    if !b.quiet || s.posted s.cur.loc then .stall
    else match b.seq.iterno, b.launch.bind s.launch with
      | some n, some x =>
        let k := b.seq.stage
        let s' := s.onHere (fun b => ({ b with seq := { b.seq with iterno := none } }).passOthers)
        if x.hdr.elim 1 (·.stages) ≤ k + 1 then .ok (s'.modLaunch x.id (fun x => { x with iters := x.iters + 1 })) {}
        else if x.cores.length ≤ (x.handed (k + 1)).length then .stall
        else .ok ((s'.modLaunch x.id (fun x => x.handOver (k + 1) n)).serveAll x.id) {}
      | _, _ => .fault .stage 0)

/-- `EXIT` (04 R124, 05 R153; 09 R318, R320): A stops its looping copies and the schedule's; once the core is quiet its part of the
launch ends. -/
def execExit (m : Dep) (s : State) : Out :=
  let l := s.cur.loc
  let b := s.here
  let i : Instr := .exit m
  if !b.live then .next s
  else if s.cur.eng = .A then .next (s.setBank l (b.stopCopies true (·.long)))
  else if s.cur.eng ≠ .S ∨ !b.tokensOk (Instr.hd i) then .next s
  else match b.launch with
    | none => .next s
    | some id =>
      if b.quiet && b.stopped && !s.posted l && s.flushes l then .next (((s.endPart l id).serveAll id).selectBank l.core).arbiter
      else .next (if b.engs.A.walk = b.engs.S.walk then s.setBank l (b.stopCopies true (·.long)) else s)

end Sys2Proof.Machine
end

