-- ==== Sys2Proof/Machine/Copy.lean ====
section
/-!
DEFINITION. The Caravan engine (09): channels, chunks, rings as copies see them, the static copy schedule, and `ACCMOV`; `TMOV` (06 R209,
R210) runs on the same channels.
-/

namespace Sys2Proof.Machine

/-! ## Channels (09 R301, R303) -/

/-- A channel of a bank. -/
def Bank.chan (b : Bank) (n : Nat) : Chan := (assoc b.car.ch n).getD {}

/-- A channel put. -/
def Bank.putChan (b : Bank) (n : Nat) (c : Chan) : Bank := { b with car := { b.car with ch := assocPut b.car.ch n c } }

/-- A command queued on a channel. -/
def Bank.enqueue (b : Bank) (n : Nat) (x : Cmd) : Bank := b.putChan n { b.chan n with cmds := (b.chan n).cmds ++ [x] }

/-- Whether a channel has a place free. -/
def Bank.chanRoom (b : Bank) (n : Nat) : Bool := (b.chan n).cmds.length < 16

/-- A channel's running command put. -/
def Bank.putCmd (b : Bank) (n : Nat) (x : Cmd) : Bank := b.putChan n { b.chan n with cmds := x :: (b.chan n).cmds.drop 1 }

/-- Whether a command has begun (09 R318): it has moved bytes, holds a slot, or stands at its first chunk in a segment. -/
def Cmd.begun (x : Cmd) : Bool := x.iter != 0 || x.off != 0 || x.slot.isSome || !x.busy.isEmpty

/-- Whether a command is over: its iterations are done, or it is told to stop and stands at its boundary (09 R318). -/
def Cmd.finished (x : Cmd) : Bool := x.count ≤ x.iter || (x.stop && (!x.long || x.off == 0))

/-! ## What a chunk moves (09 R302, R313; 06 R210) -/

/-- One end of a move: nothing, an address of a space, an edge element of the VX4 block there that fills its block from byte `k` on, bytes, an
image offset of a bank's SP0, SP0 bytes in a row, or bytes of an accumulator slot. -/
inductive CEnd where
  | none
  | addr (asp : Asp) (a : Nat)
  | edge (asp : Asp) (a n k : Nat)
  | bytes (x : List Byte)
  | image (l : Loc) (d : TDesc) (o : Nat)
  | sp0 (l : Loc) (o : Nat)
  | acc (slot off : Nat)
  deriving DecidableEq, Repr

/-- A move of bytes in delivery order. -/
structure Item where
  len : Nat
  src : CEnd
  dst : CEnd
  deriving DecidableEq, Repr

/-- An end some bytes on. -/
def CEnd.drop (e : CEnd) (k : Nat) : CEnd :=
  match e with
  | .none => .none
  | .addr asp a => .addr asp ((a + k) % 2 ^ 64)
  | .edge asp a n j => .edge asp a n (j + k)
  | .bytes x => .bytes (x.drop k)
  | .image l d o => .image l d (o + k)
  | .sp0 l o => .sp0 l (o + k)
  | .acc s o => .acc s (o + k)

/-- The items of delivery positions `[lo, hi)`; `p` is the position of the first item. -/
def sliceItems (lo hi : Nat) : Nat → List Item → List Item
  | _, [] => []
  | p, x :: t =>
    let a := max lo p
    let b := min hi (p + x.len)
    if a < b then ⟨b - a, x.src.drop (a - p), x.dst.drop (a - p)⟩ :: sliceItems lo hi (p + x.len) t
    else sliceItems lo hi (p + x.len) t

/-- The length of a delivery order. -/
def itemsLen (l : List Item) : Nat := l.foldl (fun n x => n + x.len) 0

/-- A part of a window: an element or block, a block scale, or a band entry (06 R205). -/
inductive WPart where
  | unit (e : Nat)
  | block (e : Nat)
  | band (k : Nat)
  deriving DecidableEq, Repr

/-- The parts of a window in delivery order (09 R302). -/
def TDesc.parts (d : TDesc) (org : List Int) : List WPart :=
  (upTo d.count).map .unit
    ++ (if d.vx4 then (upTo d.count).map .block ++ (upTo (d.bandCount org)).map .band else [])

/-- The bytes of a part. -/
def TDesc.partLen (d : TDesc) : WPart → Nat
  | .unit _ => d.es
  | .block _ => 1
  | .band _ => 2

/-- What a load of a part takes (06 R204, R205). -/
def TDesc.load (d : TDesc) (org : List Int) : WPart → CEnd
  | .unit e => match d.src org e with
    | some a => match d.edge org e with
      | some n => .edge d.asp a n 0
      | Option.none => .addr d.asp a
    | Option.none => .bytes d.fillBytes
  | .block e => match d.src org e with
    | some a => .addr d.asp (d.blockAddr a)
    | Option.none => .bytes [0]
  | .band k =>
    let x := d.bandHome org k
    if d.bandInside x then .addr d.asp (d.bandAddr x)
    else if d.fill = 2 then .addr d.asp (d.bandAddr (d.bandClamp x))
    else .bytes [0, 0]

/-- Where a store of a part goes, if it is inside. -/
def TDesc.store (d : TDesc) (org : List Int) : WPart → CEnd
  | .unit e => match d.dst org e with
    | some a => .addr d.asp a
    | Option.none => .none
  | .block e => match d.dst org e with
    | some a => .addr d.asp (d.blockAddr a)
    | Option.none => .none
  | .band k => if d.bandInside (d.bandHome org k) then .addr d.asp (d.bandAddr (d.bandHome org k)) else .none

/-- The image offset of a part. -/
def TDesc.partOff (d : TDesc) : WPart → Nat
  | .unit e => d.off (d.coord e)
  | .block e => d.blockOff e
  | .band k => d.bandOff k

/-- A window moved from its home into an image. -/
def fillItems (l : Loc) (d : TDesc) (org : List Int) : List Item :=
  (d.parts org).map (fun p => ⟨d.partLen p, d.load org p, .image l d (d.partOff p)⟩)

/-- A window moved from an image to its home. -/
def drainItems (l : Loc) (d : TDesc) (org : List Int) : List Item :=
  (d.parts org).map (fun p => ⟨d.partLen p, .image l d (d.partOff p), d.store org p⟩)

/-- What a part of a destination window takes from the same part of the source window; a band entry beyond the source's has no
value stated, and takes a free one (log entry 5). -/
def TDesc.loadFor (d : TDesc) (t : List Reg64) (org : List Int) : WPart → CEnd
  | .band k => if k < d.bandCount org then d.load org (.band k) else .bytes (leBytes 2 (Config.freeScale t org k).toNat)
  | p => d.load org p

/-- A window moved to another window (09 R313). -/
def recItems (src dst : List Reg64) (os od : List Int) : List Item :=
  let e := tdescOf dst
  (e.parts od).map (fun p => ⟨e.partLen p, (tdescOf src).loadFor src os p, e.store od p⟩)

/-- Origins of an iteration (09 R313). -/
def iterOrg (org step : List Int) (i : Nat) : List Int := (upTo 4).map (fun j => org.getD j 0 + (i : Int) * step.getD j 0)

/-- The items of a running iteration; a slot's base stands in place of the record's. -/
def Cmd.items (x : Cmd) (l : Loc) : List Item :=
  match x.kind with
  | .tmov t org st => if st then drainItems l (tdescOf t) org else fillItems l (tdescOf t) org
  | .toRec s d os od => recItems s d os od
  | .toRing t org step _ peer _ =>
    fillItems (peer.getD l) { tdescOf t with spbase := x.slot.getD 0 } (iterOrg org step x.iter)
  | .drain t org step _ => drainItems l { tdescOf t with spbase := x.slot.getD 0 } (iterOrg org step x.iter)
  | .accmov n st asp a => [if st then ⟨10240, .acc n 0, .addr asp a⟩ else ⟨10240, .addr asp a, .acc n 0⟩]
  | .siftEnc .. | .siftDec .. => []

/-! ## Moving -/

/-- Homes that a copy serves (09 R314). -/
def homesC : List Nat := [0, 1, 4, 5]

/-- The runs of the share that `n` image bytes from an offset on take. -/
def TDesc.imgRuns (d : TDesc) (o n : Nat) : List (Nat × Nat) :=
  if o % 64 + n ≤ 64 then [(d.spAddr o, n)] else (natsFrom o n).map (fun k => (d.spAddr k, 1))

/-- The ranges of an end, translated. -/
def State.resolve (s : State) (l : Loc) (write : Bool) (e : CEnd) (n : Nat) : State × ARes :=
  match e with
  | .addr asp a => s.access l (if write then .write else .read) asp a n write homesC
  | .edge asp a _ _ => s.access l .read asp a 4 false homesC
  | .image p d o => (s, .ok ((d.imgRuns o n).map (fun r => ⟨.sp0 p r.1, r.2, none, 0⟩)))
  | .sp0 p o => (s, .ok [⟨.sp0 p o, n, none, 0⟩])
  | _ => (s, .ok [])

/-- The ranges of several ends; the first that faults ends it. -/
def State.resolveAll (s : State) (l : Loc) (write : Bool) : List (CEnd × Nat) → State × Except ARes (List (List Rng))
  | [] => (s, .ok [])
  | (e, n) :: t =>
    match s.resolve l write e n with
    | (s, .ok r) => match s.resolveAll l write t with
      | (s, .ok rs) => (s, .ok (r :: rs))
      | x => x
    | (s, x) => (s, .error x)

/-- Bytes of a slot's memory image (09 R321). -/
def Bank.accRead (b : Bank) (slot off n : Nat) : List Byte :=
  (natsFrom off n).map (fun k => BitVec.ofNat 8 (bits (b.cell slot (k / 10)).toNat (8 * (k % 10) + 7) (8 * (k % 10))))

/-- A byte of a cell replaced. -/
def cellByte (c : AccCell) (j : Nat) (x : Byte) : AccCell :=
  BitVec.ofNat 80 (c.toNat - bits c.toNat (8 * j + 7) (8 * j) * 2 ^ (8 * j) + x.toNat * 2 ^ (8 * j))

/-- Bytes of a slot's memory image written. -/
def Bank.accWrite (b : Bank) (slot : Nat) : Nat → List Byte → Bank
  | _, [] => b
  | off, x :: t => (b.setCell slot (off / 10) (cellByte (b.cell slot (off / 10)) (off % 10) x)).accWrite slot (off + 1) t

/-- The bytes an end gives. -/
def State.takeEnd (s : State) (l : Loc) (e : CEnd) (n : Nat) (r : List Rng) : List Byte :=
  match e with
  | .none => []
  | .edge _ _ m k => ((smear m (s.readRngs r)).drop k).take n
  | .bytes x => x.take n
  | .acc slot off => (s.bank l).accRead slot off n
  | .addr _ _ | .image _ _ _ | .sp0 _ _ => s.readRngs r

/-- Bytes put at an end. -/
def State.putEnd (s : State) (l : Loc) (e : CEnd) (r : List Rng) (data : List Byte) : State :=
  match e with
  | .acc slot off => s.setBank l ((s.bank l).accWrite slot off data)
  | .addr _ _ | .image _ _ _ | .sp0 _ _ => s.writeRngs r data
  | .none | .edge .. | .bytes _ => s

/-- Every item moved, one after another in delivery order (09 R313). -/
def State.moveEach (s : State) (l : Loc) : List (Item × List Rng × List Rng) → State
  | [] => s
  | (x, r, w) :: t => (s.putEnd l x.dst w (s.takeEnd l x.src x.len r)).moveEach l t

/-- What a move ends with. -/
inductive MoveRes where
  | ok (s : State)
  /-- it waits for a T word that holds some of its bytes (11 R370) -/
  | wait
  | fault (c : FCode) (detail : Nat) (s : State)
  | page (va : Nat) (write : Bool) (s : State)
  deriving DecidableEq, Repr

/-- A failed translation as the end of a move. -/
def MoveRes.of (r : ARes) (write : Bool) (s : State) : MoveRes :=
  match r with
  | .fault c => .fault c 0 s
  | .page va => .page va write s
  | .ok _ => .ok s

/-- Items moved (09 R313, R314, R330): every byte is translated and checked before any is written; `det` is the detail of an uncorrectable
read. -/
def State.moveItems (s : State) (l : Loc) (its : List Item) (det : Nat) : MoveRes :=
  match s.resolveAll l false (its.map (fun x => (x.src, x.len))) with
  | (s, .error r) => .of r false s
  | (s, .ok rs) =>
    match s.resolveAll l true (its.map (fun x => (x.dst, x.len))) with
    | (s, .error r) => .of r true s
    | (s, .ok ws) =>
      if s.tHolds (rs.flatten ++ ws.flatten) then .wait
      else match s.platCheck l.core (s.bank l).ctx .read rs.flatten with
      | (s, some f) => .fault f 0 s
      | (s, none) =>
        match s.platCheck l.core (s.bank l).ctx .write ws.flatten with
        | (s, some f) => .fault f 0 s
        | (s, none) =>
          match s.badRngs rs.flatten with
          | some a => .fault .uncorr det (s.logEvent .eccUncorr (dieOf l.core) 0 a)
          | none => .ok (s.moveEach l (its.zip (rs.zip ws)))

/-- Bytes read by a copy from an address. -/
def State.copyRead (s : State) (l : Loc) (asp : Asp) (a n det : Nat) : MoveRes × List Byte :=
  match s.access l .read asp a n false homesC with
  | (s, .ok r) =>
    if s.tHolds r then (.wait, [])
    else match s.platCheck l.core (s.bank l).ctx .read r with
    | (s, some f) => (.fault f 0 s, [])
    | (s, none) =>
      match s.badRngs r with
      | some x => (.fault .uncorr det (s.logEvent .eccUncorr (dieOf l.core) 0 x), [])
      | none => (.ok s, s.readRngs r)
  | (s, r) => (.of r false s, [])

/-! ## Busy counts (06 R195, R196) -/

/-- The segments that the VIRT ends of items touch, from their first byte to their last. -/
def itemSegs (its : List Item) : List Nat :=
  (its.flatMap (fun x => [x.src, x.dst].flatMap (fun e => match e with
    | .addr .virt a => [segOf a, segOf (a + x.len - 1)]
    | .edge .virt a _ _ => [segOf a, segOf (a + 3)]
    | _ => []))).eraseDups

/-- A segment's busy count moved. -/
def State.bumpBusy (s : State) (ctx seg : Nat) (up : Bool) : State :=
  let k := 512 * ctx + seg
  { s with busy := spPut 0 s.busy k (if up then spGet 0 s.busy k + 1 else spGet 0 s.busy k - 1) }

/-- Whether a transfer that has not begun in a segment must wait for its migration. -/
def State.segWait (s : State) (ctx : Nat) (x : Cmd) (segs : List Nat) : Bool :=
  segs.any (fun g => !x.busy.contains g && s.migs.any (fun m => m.ctx == ctx && m.seg == g))

/-- A transfer counts in the segments it newly touches. -/
def State.takeBusy (s : State) (l : Loc) (n : Nat) (x : Cmd) (segs : List Nat) : State × Cmd :=
  let new := segs.filter (fun g => !x.busy.contains g)
  let s := new.foldl (fun s g => s.bumpBusy (s.bank l).ctx g true) s
  let x := { x with busy := x.busy ++ new }
  (s.setBank l ((s.bank l).putCmd n x), x)

/-- A transfer ends in its segments. -/
def State.dropBusy (s : State) (ctx : Nat) (x : Cmd) : State := x.busy.foldl (fun s g => s.bumpBusy ctx g false) s

/-! ## Slots (09 R305 to R309) -/

/-- The base of a mode R ring's buffer for an engine with the rotation counts `rot` (09 R309). -/
def Ring.bufAt (r : Ring) (rot : Sparse Nat) : Nat :=
  let k := spGet 0 rot r.lc.val - r.rot0
  let nb := r.b.length
  if nb = 0 then 0 else r.b.getD ((r.j.val + nb - k % nb) % nb) 0

/-- The base of a mode R ring's buffer for an engine (09 R309). -/
def Bank.bufBase (b : Bank) (e : Engine) (r : Ring) : Nat := r.bufAt (b.eng e).rot

/-- The walk position of an agent at a ring's end; A's own for a copy. -/
def Bank.endWalk (b : Bank) : RingEnd → Nat
  | .copy => b.engs.A.walk
  | .m => b.engs.M.walk
  | .t => b.engs.T.walk

/-- A copy of A at hand goes to a buffer of a mode R ring: of the earlier copies into the buffer, those that a word still to issue may be the
first to follow are kept (09 R309). -/
def Bank.noteSent (b : Bank) (g : Fin 16) (r : Ring) (base : Nat) : Bank :=
  let w := b.endWalk r.cons
  let same := r.sent.filter (fun p => p.2 == base)
  let kept := same.filter (fun p => decide (w ≤ p.1)) ++ (same.filter (fun p => decide (p.1 < w))).take 1
  b.setRing g { r with sent := (b.engs.A.walk, base) :: kept ++ r.sent.filter (fun p => p.2 != base) }

/-- The walk position of the latest copy into a buffer that A issued before a walk position. -/
def Ring.lastSent (r : Ring) (base w : Nat) : Option Nat := (r.sent.find? (fun p => p.2 == base && decide (p.1 < w))).map (·.1)

/-- Whether a ring is idle for an engine (04 R116). -/
def Bank.idle (b : Bank) (e : Engine) (r : Ring) : Bool := r.modeR && !(b.eng e).sten.getLsbD r.j.val

/-- Every base at which a ring's slots or buffers lie. -/
def Ring.bases (r : Ring) : List Nat := if r.modeR then r.b else (upTo r.slots).map r.slotBase

/-- The checks of a window against a ring's slots (09 R312). -/
def Ring.fits (r : Ring) (t : List Reg64) (org : List Int) : Option FCode :=
  let d := tdescOf t
  if r.size < d.imgBytes org then some .ring
  else if r.bases.any (fun x => x % 64 != 0 || (d.ilv != 0 && x % 2048 != 0)) then some .tdesc
  else none

/-- Whether a window reaches an element that a TRAP fill forbids (06 R204, 09 R312). -/
def trapReach (t : List Reg64) (org : List Int) : Bool := (tdescOf t).fill == 3 && (tdescOf t).reaches org

/-- What an iteration finds as it starts. -/
inductive Begin where
  | wait
  /-- its ring is idle (04 R116) -/
  | idle
  | fault (c : FCode)
  | ok (s : State) (x : Cmd)

/-- What the start of an iteration checks of its window: a TRAP fill (09 R312) and the rule of a VX4 origin. -/
def iterFault (t : List Reg64) (org : List Int) : Option FCode :=
  if trapReach t org then some .bounds
  else if (tdescOf t).vx4 && org.getD 0 0 % 8 != 0 then some .tdesc
  else none

/-- The bytes of the share that a command's fill of a slot or buffer has still to publish (09 R307). -/
def Cmd.undone (x : Cmd) (l : Loc) : List (Nat × Nat) :=
  let base := x.slot.getD (x.buf.getD 0)
  match x.kind with
  | .siftDec (.ring _) _ _ _ n => if x.off < 512 * n then [(base + x.off, 512 * n - x.off)] else []
  | _ =>
    (sliceItems x.off (2 ^ 64) 0 ({ x with slot := some base }.items l)).flatMap (fun it => match it.dst with
      | .image _ d o => d.imgRuns o it.len
      | _ => [])

/-- A slot of mode C reserved for a copy from the core and channel `c` (09 R306 to R308). -/
def Ring.reserveFor (r : Ring) (c : Nat × Nat) (due : List (Nat × Nat)) : Ring := { r.reserve due with chan := some c }

/-- A command that has the tail slot of a ring. -/
def Cmd.withSlot (x : Cmd) (r : Ring) : Cmd := { x with slot := some (r.slotBase r.tail), slotN := r.tail }

/-- A slot reserved for a copy (09 R306, R308, R310, R312); a schedule entry waits while the ring is unconfigured (09 R320). A ring of mode R at a peer is
found idle or not, and its buffer, by what the issuing A held at issue (04 R116, 09 R309; log entry 47, DEDUCED). -/
def State.reserveSlot (s : State) (l p : Loc) (n : Nat) (sched : Bool) (x : Cmd) (t : List Reg64) (org : List Int) (g : Fin 16) : Begin :=
  if (s.bank p).launch ≠ (s.bank l).launch then .wait
  else match (s.bank p).ring g with
    | none => if sched then .wait else .fault .ring
    | some r =>
      if r.prod ≠ .copy ∨ (sched ∧ r.modeR) then .fault .ring
      else if !r.modeR && r.chan.any (fun c => c != (l.core, n)) then .fault .ring
      else if r.modeR && !x.long && x.buf.isNone && !x.sten.getLsbD r.j.val then .idle
      else match r.fits t org with
        | some f => .fault f
        | none =>
          if r.modeR then
            if x.long then .fault .ring
            else
              let x := { x with slot := some (x.buf.getD (r.bufAt x.rot)) }
              .ok (s.setBank l ((s.bank l).putCmd n x)) x
          else if r.slotSt r.tail ≠ .empty then .wait
          else
            let x := x.withSlot r
            let s := s.setBank p ((s.bank p).setRing g (r.reserveFor (l.core, n) (x.undone l)))
            .ok (s.setBank l ((s.bank l).putCmd n x)) x

/-- A slot reserved for a `SIFT.dec.ring` (09 R326). -/
def State.reservePlain (s : State) (l : Loc) (n : Nat) (x : Cmd) (g : Fin 16) : Begin :=
  match (s.bank l).ring g with
  | none => .fault .ring
  | some r =>
    if r.modeR then .ok (s.setBank l ((s.bank l).putCmd n { x with slot := x.buf })) { x with slot := x.buf }
    else if r.slotSt r.tail ≠ .empty then .wait
    else
      let x := x.withSlot r
      .ok (s.setBank l (((s.bank l).setRing g (r.reserveFor (l.core, n) (x.undone l))).putCmd n x)) x

/-- Whether M or V has started on an accumulator slot and not finished (08 R295, 10 R362). -/
def Bank.accHeld (b : Bank) (slot : Nat) : Bool := b.pending .M [256 + slot] || b.pending .V [256 + slot]

/-- An iteration starts, or goes on. -/
def State.beginIter (s : State) (l : Loc) (n : Nat) (x : Cmd) : Begin :=
  let b := s.bank l
  match x.kind with
  | .toRing t org step g peer _ =>
    if x.slot.isSome then .ok s x
    else match iterFault t (iterOrg org step x.iter) with
      | some f => .fault f
      | none => s.reserveSlot l (peer.getD l) n (b.chan n).sched x t (iterOrg org step x.iter) g
  | .drain t org step g =>
    if x.slot.isSome then .ok s x
    else match iterFault t (iterOrg org step x.iter) with
      | some f => .fault f
      | none =>
        match b.ring g with
        | none => .fault .ring
        | some r =>
          if r.modeR then
            .ok (s.setBank l (b.putCmd n { x with slot := some (x.buf.getD 0) })) { x with slot := some (x.buf.getD 0) }
          else if r.slotSt r.head ≠ .full then .wait
          else
            let x := { x with slot := some (r.slotBase r.head) }
            .ok (s.setBank l (b.putCmd n x)) x
  | .siftDec (.ring g) .. => if x.slot.isSome then .ok s x else s.reservePlain l n x g
  | .accmov k .. => if x.off = 0 ∧ b.accHeld k then .wait else .ok s x
  | _ => .ok s x

/-- A semaphore of a core signalled by a copy (09 R304); its watchdog counter is cleared (04 R131). -/
def State.copySem (s : State) (p : Loc) (pc : Nat) (sem : Option (Fin 32)) : State :=
  match sem with
  | some k => s.onBank p (fun b => ({ b.semSignal k 1 pc with seq := { (b.semSignal k 1 pc).seq with wdog := 0 } }).settle)
  | none => s

/-- A configured ring of mode C of a bank changed; what waits for its slots goes on. -/
def Bank.modRing (b : Bank) (g : Fin 16) (f : Ring → Ring) : Bank :=
  match b.ring g with
  | some r => if r.modeR then b else (b.setRing g (f r)).settle
  | none => b

/-- The bank and the ring whose slot a command fills. -/
def Cmd.fills (x : Cmd) (l : Loc) : Option (Loc × Fin 16) :=
  match x.kind with
  | .toRing _ _ _ g peer _ => some (peer.getD l, g)
  | .siftDec (.ring g) .. => some (l, g)
  | _ => none

/-- What a command has published of its slot's fill is known to the ring (09 R307). -/
def State.noteDue (s : State) (l : Loc) (x : Cmd) : State :=
  match x.fills l with
  | some (p, g) => s.onBank p (fun b => b.modRing g (fun r => r.setDue x.slotN (x.undone l)))
  | none => s

/-- An iteration ends: its slot becomes FULL or is popped, and its semaphore is signalled (09 R304, R306, R313). -/
def State.endIter (s : State) (l : Loc) (x : Cmd) : State :=
  let s := match x.fills l with
    | some (p, g) => s.onBank p (fun b => b.modRing g (fun r => r.fill x.slotN))
    | none => s
  match x.kind with
  | .toRing _ _ _ _ peer sem => s.copySem (peer.getD l) x.pc sem
  | .drain _ _ _ g => s.onBank l (fun b => b.modRing g Ring.pop)
  | _ => s

/-- The delivery length of an iteration (09 R302). -/
def Cmd.len (x : Cmd) (l : Loc) : Nat :=
  match x.kind with
  | .siftEnc _ _ _ _ _ n => 8 * n
  | .siftDec _ _ _ _ n => 512 * n
  | .accmov .. => 10240
  | _ => itemsLen (x.items l)

/-- The chunk that a command moves next, counted from its start (09 R302). -/
def Cmd.chunk (x : Cmd) : Nat := (x.before + x.off) / 512

/-- The end in the running iteration of what is published next: the end of the chunk, or of the iteration, whose slot then becomes FULL or is
popped (09 R302, R313; log entry 46, DEDUCED). -/
def Cmd.upTo (x : Cmd) (l : Loc) : Nat := min (x.len l) (x.off + (512 - (x.before + x.off) % 512))

/-- Bytes up to `hi` of the running iteration have been written: the write pointer advances, and the iteration ends with its last byte (09 R303). -/
def State.published (s : State) (l : Loc) (n : Nat) (x : Cmd) (hi : Nat) : State :=
  let b := s.bank l
  let total := x.len l
  let c := b.chan n
  let c := { c with cwp := c.cwp + BitVec.ofNat 64 (hi - x.off) }
  let b := { b with seq := { b.seq with wdog := 0 } }
  if total ≤ hi then
    let y := { x with before := x.before + total, off := 0, iter := x.iter + 1, slot := none, busy := [] }
    ((s.setBank l (b.putChan n { c with cmds := y :: c.cmds.drop 1 })).dropBusy b.ctx x).endIter l x
  else
    let y := { x with off := hi }
    (s.setBank l (b.putChan n { c with cmds := y :: c.cmds.drop 1 })).noteDue l y

/-- A channel stops at a chunk: a fault ends the launch and the channel, a page fault stops the channel alone (09 R330). -/
def State.chanStop (s : State) (l : Loc) (n : Nat) (x : Cmd) (r : MoveRes) : State :=
  match r with
  | .ok s => s
  | .wait => s
  | .fault c d s =>
    let s := s.dropBusy (s.bank l).ctx x
    (s.setBank l ((s.bank l).putChan n { (s.bank l).chan n with cmds := [] })).faultAt l c x.pc d
  | .page va w s =>
    let b := s.bank l
    s.setBank l (b.putChan n { b.chan n with pf := some ⟨va, w, 1 + n, true, false⟩ })

/-- The detail of a failing block or chunk (15 R489). -/
def copyDetail (ch k : Nat) : Nat := 2 ^ 63 + 2 ^ 8 * k + ch

/-- A chunk of a command that moves items. -/
def State.plainChunk (s : State) (l : Loc) (n : Nat) (x : Cmd) : State :=
  let its := sliceItems x.off (x.upTo l) 0 (x.items l)
  let segs := itemSegs its
  if s.segWait (s.bank l).ctx x segs then s
  else
    let (s, x) := s.takeBusy l n x segs
    match s.moveItems l its (copyDetail n x.chunk) with
    | .ok s => s.published l n x (x.upTo l)
    | r => s.chanStop l n x r

end Sys2Proof.Machine
end

