-- ==== Sys2Proof/Machine/Sift.lean ====
section
/-!
DEFINITION. The Sift block format (09 R323 to R325), the chunks of `SIFT` (R326, R327, R331), and a channel's steps.
-/

namespace Sys2Proof.Machine

/-! ## Blocks (09 R324, R325) -/

/-- Bits as bytes, the lowest bit first. -/
def bitsBytes (n : Nat) (l : List Bool) : List Byte := leBytes n (l.foldr (fun b x => bit b + 2 * x) 0)

/-- The content of mode 2: a bitmap of nonzero bytes, then those bytes, byte p of qword c at 64p + c. -/
def planeContent (y : List Byte) : List Byte :=
  let t := (upTo 512).map (fun i => y.getD (8 * (i % 64) + i / 64) 0)
  bitsBytes 64 (t.map (· != 0)) ++ t.filter (· != 0)

/-- Leading zero bytes of a 32-bit word. -/
def leadZero (d : Nat) : Nat := if d = 0 then 4 else if d < 2 ^ 8 then 3 else if d < 2 ^ 16 then 2 else if d < 2 ^ 24 then 1 else 0

/-- The word deltas of a block. -/
def deltas (y : List Byte) : List Nat :=
  let w := (chunksOf 4 129 y).map ofLe
  (w.zip (0 :: w)).map (fun p => p.1 ^^^ p.2)

/-- The content of mode 3: a header of leading zero counts, then the low bytes of each delta. -/
def deltaContent (y : List Byte) : List Byte :=
  let d := deltas y
  leBytes 48 (d.foldr (fun x n => leadZero x + 8 * n) 0) ++ d.flatMap (fun x => leBytes (4 - leadZero x) x)

/-- The encoding of a block: its mode and its sectors' bytes (09 R325). -/
def siftBlock (y : List Byte) : Nat × List Byte :=
  if y.all (· == 0) then (1, [])
  else
    let p := planeContent y
    let q := deltaContent y
    let np := ceilDiv p.length 64
    let nq := ceilDiv q.length 64
    if 8 ≤ min np nq then (0, y)
    else if np ≤ nq then (2, padTo (64 * np) 0 p) else (3, padTo (64 * nq) 0 q)

/-- A map entry (09 R323). -/
def siftEntry (sect : Nat) (b : Nat × List Byte) : Nat :=
  b.1 + 4 * (b.2.length / 64 - 1) + 2 ^ 8 * (if b.1 = 1 then 0 else sect % 2 ^ 40)

/-- Whether a map entry passes the checks on its own fields (09 R323). -/
def entryOk (e : Nat) : Bool :=
  bits e 63 48 == 0 && bits e 7 5 == 0
    && (match bits e 1 0 with
      | 0 => bits e 4 2 == 7
      | 1 => bits e 4 2 == 0 && bits e 47 8 == 0
      | _ => bits e 4 2 != 7)

/-- The sectors an entry names. -/
def entrySectors (e : Nat) : Nat := if bits e 1 0 = 1 then 0 else bits e 4 2 + 1

/-- The block of a byte-plane content: the bytes of the bitmap's set bits put back. -/
def planeFill : List Bool → List Byte → List Byte
  | [], _ => []
  | false :: t, x => 0 :: planeFill t x
  | true :: t, x => x.headD 0 :: planeFill t (x.drop 1)

/-- A block from mode 2 content (09 R324). -/
def planeBlock (x : List Byte) : List Byte :=
  let m := ofLe (x.take 64)
  let t := planeFill ((upTo 512).map (bitAt m)) (x.drop 64)
  (upTo 512).map (fun j => t.getD (64 * (j % 8) + j / 8) 0)

/-- The words of a delta content. -/
def deltaFill : List Nat → Nat → List Byte → List Byte
  | [], _, _ => []
  | z :: t, prev, x =>
    let w := prev ^^^ ofLe (x.take (4 - z))
    leBytes 4 w ++ deltaFill t w (x.drop (4 - z))

/-- A block from mode 3 content (09 R324). -/
def deltaBlock (x : List Byte) : List Byte :=
  let h := ofLe (x.take 48)
  deltaFill ((upTo 128).map (fun i => bits h (3 * i + 2) (3 * i))) 0 (x.drop 48)

/-- The block of a mode and sectors, if they are its one valid encoding (09 R324). -/
def unsiftBlock (mode : Nat) (x : List Byte) : Option (List Byte) :=
  let y := if mode = 0 then x else if mode = 1 then List.replicate 512 0 else if mode = 2 then planeBlock x else deltaBlock x
  if mode < 2 then some y
  else
    let c := if mode = 2 then planeContent y else deltaContent y
    if x = padTo (64 * ceilDiv c.length 64) 0 c ∧ ceilDiv c.length 64 < 8 then some y else none

/-! ## Chunks of `SIFT` -/

/-- The encoded blocks of a chunk with their first sectors: data moves for the sectors and the map entries. -/
def encItems (sasp : Asp) (map sec : Nat) : Nat → Nat → List (List Byte) → List Item × Nat
  | _, sect, [] => ([], sect)
  | b, sect, y :: t =>
    let e := siftBlock y
    let r := encItems sasp map sec (b + 1) (sect + e.2.length / 64) t
    ((if e.2.isEmpty then [] else [⟨e.2.length, .bytes e.2, .addr sasp ((sec + 64 * sect) % 2 ^ 64)⟩])
      ++ ⟨8, .bytes (leBytes 8 (siftEntry sect e)), .addr sasp ((map + 8 * b) % 2 ^ 64)⟩ :: r.1, r.2)

/-- A chunk of `SIFT.enc`: 64 map entries (09 R302, R325). It counts in the segments of its source and its entries, then in those of the sectors
that the encoding takes (06 R195, R196). -/
def State.encChunk (s : State) (l : Loc) (n : Nat) (x : Cmd) (pasp : Asp) (plain : Nat) (sasp : Asp) (map sec : Nat) : State :=
  let hi := x.upTo l
  let b0 := x.off / 8
  let k := hi / 8 - b0
  let a := (plain + 512 * b0) % 2 ^ 64
  let segs := itemSegs [⟨512 * k, .addr pasp a, .none⟩, ⟨8 * k, .none, .addr sasp ((map + 8 * b0) % 2 ^ 64)⟩]
  if s.segWait (s.bank l).ctx x segs then s
  else
    let (s, x) := s.takeBusy l n x segs
    match s.copyRead l pasp a (512 * k) (copyDetail n x.chunk) with
    | (.ok s', data) =>
      let (its, sect) := encItems sasp map sec b0 x.sect (chunksOf 512 65 data)
      if s.segWait (s.bank l).ctx x (itemSegs its) then s
      else
        let (s, x) := s'.takeBusy l n x (itemSegs its)
        match s.moveItems l its (copyDetail n x.chunk) with
        | .ok s => s.published l n { x with sect } hi
        | r => s.chanStop l n x r
    | (r, _) => s.chanStop l n x r

/-- Where block `b` of a `SIFT.dec` goes. -/
def decDst (l : Loc) (p : SiftPlain) (slot b : Nat) : CEnd :=
  match p with
  | .at asp a => .addr asp ((a + 512 * b) % 2 ^ 64)
  | .ring _ => .sp0 l (slot + 512 * b)

/-- Decoded bytes that a bank's commands hold in the spill buffer (09 R331). -/
def Bank.spilled (b : Bank) : Nat := b.car.ch.foldl (fun n c => c.2.cmds.foldl (fun n x => n + 512 * x.spill.length) n) 0

/-- Bytes held in the spill buffer of a die, for all its cores' channels. -/
def State.dieSpill (s : State) (die : Nat) : Nat :=
  (s.cores.filter (fun p => dieOf p.1 == die)).foldl (fun n p => n + p.2.b0.spilled + p.2.b1.spilled) 0

/-- Whether the spill buffer of a core's die has room for a block (01 R21, 09 R331). -/
def State.spillRoom (s : State) (l : Loc) : Bool := s.dieSpill (dieOf l.core) + 512 ≤ 4194304

/-- The blocks in the decoder lanes: the first four that are neither written nor spilled (09 R327). -/
def Cmd.lanes (x : Cmd) (cnt : Nat) : List Nat :=
  ((natsFrom (x.off / 512) (cnt - x.off / 512)).filter (fun b => !x.fin.contains b && !x.spill.any (fun y => y.1 == b))).take 4

/-- How far a command's blocks are written in order from block `b` on. -/
def finUpTo (fin : List Nat) : Nat → Nat → Nat
  | 0, b => b
  | k + 1, b => if fin.contains b then finUpTo fin k (b + 1) else b

/-- Block `b` of a `SIFT.dec` has been written: what is then written in order is published (09 R303, R327). -/
def State.blockWritten (s : State) (l : Loc) (n : Nat) (x : Cmd) (b : Nat) : State :=
  let fin := b :: x.fin
  let top := finUpTo fin fin.length (x.off / 512)
  let x := { x with fin := fin.filter (fun y => top ≤ y), spill := x.spill.filter (fun y => y.1 != b) }
  if x.off / 512 < top then s.published l n x (512 * top) else s.setBank l ((s.bank l).putCmd n x)

/-- The move of a decoded block to its destination. -/
def decItems (l : Loc) (p : SiftPlain) (x : Cmd) (b : Nat) (y : List Byte) : List Item := [⟨512, .bytes y, decDst l p (x.slot.getD 0) b⟩]

/-- A decoded block goes to its destination; where that page-faults, the block goes to the spill buffer and decoding goes on, and a full buffer holds the
lane (09 R330, R331). -/
def State.putBlock (s : State) (l : Loc) (n : Nat) (x : Cmd) (p : SiftPlain) (b : Nat) (y : List Byte) : State :=
  match s.moveItems l (decItems l p x b y) (copyDetail n b) with
  | .ok s => s.blockWritten l n x b
  | .page va w s' =>
    if !s.spillRoom l then s
    else
      let x := { x with spill := x.spill ++ [(b, y)] }
      let s := s'.setBank l ((s'.bank l).putCmd n x)
      if ((s.bank l).chan n).pf.isSome then s else s.chanStop l n x (.page va w s)
  | r => s.chanStop l n x r

/-- A lane decodes block `b` of a `SIFT.dec` (09 R327): its map entry, its sectors and its destination, each counted in their segments first
(06 R195, R196). -/
def State.decBlock (s : State) (l : Loc) (n : Nat) (x : Cmd) (p : SiftPlain) (sasp : Asp) (map sec b : Nat) : State :=
  let det := copyDetail n b
  let m := (map + 8 * b) % 2 ^ 64
  let segs := itemSegs [⟨8, .addr sasp m, .none⟩, ⟨512, .none, decDst l p (x.slot.getD 0) b⟩]
  if s.segWait (s.bank l).ctx x segs then s
  else
    let (s, x) := s.takeBusy l n x segs
    match s.copyRead l sasp m 8 det with
    | (.ok s', e) =>
      let e := ofLe e
      if !entryOk e then s.chanStop l n x (.fault .sift det s')
      else
        let a := (sec + 64 * bits e 47 8) % 2 ^ 64
        let segs := if entrySectors e = 0 then [] else itemSegs [⟨64 * entrySectors e, .addr sasp a, .none⟩]
        if s.segWait (s.bank l).ctx x segs then s
        else
          let (s, x) := s'.takeBusy l n x segs
          match s.copyRead l sasp a (64 * entrySectors e) det with
          | (.ok s', data) =>
            match unsiftBlock (bits e 1 0) data with
            | none => s.chanStop l n x (.fault .sift det s')
            | some y => s'.putBlock l n x p b y
          | (r, _) => if ((s.bank l).chan n).pf.isSome then s else s.chanStop l n x r
    | (r, _) => if ((s.bank l).chan n).pf.isSome then s else s.chanStop l n x r

/-- A step of a `SIFT.dec`: one of the lanes ends its block; which one first is free (09 R327). -/
def State.decStep (s : State) (l : Loc) (n : Nat) (x : Cmd) (p : SiftPlain) (sasp : Asp) (map sec cnt : Nat) : State :=
  match x.lanes cnt with
  | [] => s
  | [b] => s.decBlock l n x p sasp map sec b
  | bs =>
    let (k, s) := s.choose bs.length
    s.decBlock l n x p sasp map sec (bs.getD k 0)

/-! ## A channel's steps (09 R301, R303) -/

/-- Whether the Caravan engine serves a bank (05 R164): it runs, waits for a page or halts, and its launch runs or ends. The channels of
a READY bank stay stopped until it runs again (09 R332), but for those of an ending launch, whose looping copies go to their slot boundary (05 R171). -/
def State.served (s : State) (l : Loc) : Bool :=
  let b := s.bank l
  let run := b.st == .run || b.st == .faultwait || b.st == .halting
  (b.launch.bind s.launch).any (fun x => (run && x.st == .running) || ((run || b.st == .ready) && x.st == .ending))

/-- Whether a command is held as its core halts, its launch is pre-empted or it ends: a one-shot at its chunk boundary, a looping copy at its slot boundary
(05 R166 step 4, R171 step 2; 09 R332). -/
def State.copyHeld (s : State) (l : Loc) (x : Cmd) : Bool :=
  ((s.bank l).st == .halting || ((s.bank l).launch.bind s.launch).any (fun y => y.preq || y.st == .ending)) && (!x.long || x.off == 0)

/-- Whether a channel may run: its bank is served and no page fault holds it; one at the destination of a `SIFT.dec` holds no other block
(09 R330, R331). -/
def State.chanLive (s : State) (l : Loc) (n : Nat) : Bool :=
  s.served l && ((s.bank l).chan n).pf.isNone

/-- Whether a channel decodes on past a page fault at its destination (09 R331). -/
def State.decodesOn (s : State) (l : Loc) (n : Nat) (x : Cmd) : Bool :=
  s.served l && ((s.bank l).chan n).pf.any (·.write) && !x.spill.isEmpty

/-- A copy into an idle ring is complete at once, and signals (04 R116, 09 R304). -/
def State.idleDone (s : State) (l : Loc) (n : Nat) (x : Cmd) : State :=
  let s := s.setBank l ((s.bank l).putCmd n { x with iter := x.count })
  match x.kind with
  | .toRing _ _ _ _ peer sem => s.copySem (peer.getD l) x.pc sem
  | _ => s

/-- The next chunk of a channel's command, or the next block of its lanes. -/
def State.chunkStep (s : State) (l : Loc) (n : Nat) : State :=
  let b := s.bank l
  match (b.chan n).cmds with
  | [] => s
  | x :: _ =>
    if !(s.chanLive l n || s.decodesOn l n x) || s.copyHeld l x || !x.after.isEmpty || x.finished then s
    else match s.beginIter l n x with
      | .wait => s
      | .idle => s.idleDone l n x
      | .fault c => s.chanStop l n x (.fault c 0 s)
      | .ok s x =>
        match x.kind with
        | .siftEnc pasp plain sasp map sec _ => s.encChunk l n x pasp plain sasp map sec
        | .siftDec p sasp map sec cnt => s.decStep l n x p sasp map sec cnt
        | _ => s.plainChunk l n x

/-- The reservation that a command stops with before it has fetched a byte is undone (09 R306). -/
def State.undoSlot (s : State) (l : Loc) (x : Cmd) : State :=
  if x.slot.isNone || x.off != 0 || !x.fin.isEmpty || !x.spill.isEmpty then s
  else match x.fills l with
    | some (p, g) => s.setBank p ((s.bank p).modRing g Ring.unreserve)
    | none => s

/-- A command leaves its channel and its signals are pushed (02 R44, 09 R303, R318). -/
def State.copyDone (s : State) (l : Loc) (n : Nat) : State :=
  let b := s.bank l
  match (b.chan n).cmds with
  | [] => s
  | x :: t =>
    if !x.finished || !x.after.isEmpty || !s.served l then s
    else
      let s := (s.undoSlot l x).dropBusy b.ctx x
      s.onBank l (fun b =>
        ((b.putChan n { b.chan n with cmds := t, pf := none }).signalLater .A x.sp x.sn).complete x.id)

/-- A block of the spill buffer goes to its destination once its page is mapped (09 R331). -/
def State.unspill (s : State) (l : Loc) (n : Nat) : State :=
  match ((s.bank l).chan n).cmds with
  | x :: _ =>
    match x.kind, x.spill with
    | .siftDec p _ _ _ _, (b, y) :: _ =>
      if !s.chanLive l n || s.copyHeld l x then s
      else match s.moveItems l (decItems l p x b y) (copyDetail n b) with
        | .ok s => s.blockWritten l n x b
        | r => s.chanStop l n x r
    | _, _ => s
  | [] => s

/-- A channel goes on as far as it can, within a bound of steps. -/
def State.runChan (l : Loc) (n : Nat) : Nat → State → State
  | 0, s => s
  | k + 1, s =>
    let s' := ((s.unspill l n).chunkStep l n).copyDone l n
    if (s'.bank l).car = (s.bank l).car then s' else runChan l n k s'

/-- Steps an eager turn gives a channel. -/
def eagerChunks : Nat := 4096

/-- `CHUNK_PUBLISH` (09 R303). -/
def execChunkPublish (l : Loc) (ch : Fin 8) (s : State) : Out := .next (s.chunkStep l ch.val)

/-- `COPY_COMPLETE` (09 R303, R304). -/
def execCopyComplete (l : Loc) (ch : Fin 8) (s : State) : Out := .next (s.copyDone l ch.val)

/-- `CHANNEL_PAGE_FAULT`: the channel waits for the host (09 R330). -/
def execChannelPageFault (l : Loc) (ch : Fin 8) (s : State) : Out := .next (s.reportChannel l ch.val)

/-- `SPILL_WRITEBACK`: spilled bytes go to their destination once its page is mapped (09 R331). -/
def execSpillWriteback (l : Loc) (ch : Fin 8) (s : State) : Out := .next (s.unspill l ch.val)

end Sys2Proof.Machine
end

