-- ==== Sys2Proof/Machine/CopyWords.lean ====
section
/-!
DEFINITION. The words of the copy class (09 R311 to R321, R326) and `TMOV` (06 R209, R210), and the entries of the static copy
schedule (09 R320).
-/

namespace Sys2Proof.Machine

/-- A copy word on a channel: in an eager turn its channel goes on as far as it can. -/
def copyWord (i : Instr) (ch : Fin 8) (s : State) (f : State → Res State) : Out :=
  if s.here.acc.park.isSome then .next s
  else eagerly (fun s l => (State.runChan l ch.val eagerChunks s).goOnA l) (packageWord i s f)

/-- What a copy's reads come after: the stores and atomics issued before it (07 R255, 09 R333) and what `FENCE.xp` adds. -/
def Bank.copyAfter (b : Bank) : List Nat := b.writeIds ++ b.acc.xpBar

/-- A command made by the word at A's program counter. -/
def Bank.newCmd (b : Bank) (id : Nat) (m : Dep) (kind : CmdKind) (long : Bool) (count : Nat) (buf : Option Nat) : Cmd :=
  { id, walk := b.engs.A.walk, pc := b.engs.A.pc, kind, sp := m.sp, sn := m.sn, long, count, iter := 0, before := 0, off := 0,
    slot := none, slotN := 0, stop := false, buf, sten := b.engs.A.sten, rot := b.engs.A.rot, loops := b.engs.A.loops, busy := []
    after := b.copyAfter, sect := 0, fin := [], spill := [] }

/-- A command queued by a word of A (02 R44, 09 R301). -/
def queueCmd (s : State) (m : Dep) (ch : Fin 8) (kind : CmdKind) (long : Bool) (count : Nat) (buf : Option Nat) : Res State :=
  let (id, s) := s.newId
  .ok (s.onHere (fun b => b.enqueue ch.val (b.newCmd id m kind long count buf))) { async := true }

/-- Four signed 16-bit halves of a register (09 R311, R319). -/
def halves (x : Nat) : List Int := (upTo 4).map (fun j => signedOf 16 (x / 2 ^ (16 * j)))

/-- A ring that a copy fills or drains, checked at issue (09 R308, R310, R312): an idle one answers nothing. -/
inductive RingUse where
  | idle
  | fault (c : FCode)
  | ok (buf : Option Nat) (b : Bank)

/-- The ring of a copy of A's own core (09 R308, R310; 04 R116; 09 R312). A ring of mode R serves no `CPL`, idle or not. -/
def Bank.useRing (b : Bank) (core : Nat) (ch : Fin 8) (g : Fin 16) (fill long : Bool) (t : List Reg64) (org : List Int) : RingUse :=
  match b.ring g with
  | none => .fault .ring
  | some r =>
    if (if fill then r.prod else r.cons) ≠ .copy then .fault .ring
    else if fill && !r.modeR && r.chan.any (fun c => c != (core, ch.val)) then .fault .ring
    else if !long && b.idle .A r then .idle
    else match r.fits t org with
      | some f => .fault f
      | none =>
        if r.modeR then (if long then .fault .ring else .ok (some (b.bufBase .A r)) (if fill then b.noteSent g r (b.bufBase .A r) else b))
        else .ok none (if fill then b.setRing g { r with chan := some (core, ch.val) } else b)

/-- The placed core of a launch with a linear index (09 R312). -/
def State.placed (s : State) (id : Option Nat) (core : Nat) : Option Loc :=
  match id.bind s.launch with
  | some x => x.cores.find? (fun l => l.core == core)
  | none => none

/-- The word whose ring is idle moves nothing and completes at once (04 R116). -/
def idleCopy (s : State) (sem : Option (Fin 32)) : Res State :=
  .ok s { effs := match sem with | some n => [.sem n 1] | none => [] }

/-- A record that a window reads or stores is checked (06 R206, 09 R312). -/
def trapOr (t : List Reg64) (org : List Int) (k : Res State) : Res State := if trapReach t org then .fault .bounds 0 else k

/-- Whether a `.peer` copy of a core into its own ring finds it idle (04 R116, 09 R312). -/
def Bank.idleOwn (b : Bank) (g : Fin 16) : Bool :=
  match b.ring g with
  | some r => r.prod == .copy && b.idle .A r
  | none => false

/-- The buffer of a `.peer` copy of a core into its own ring of mode R, found as the word issues (09 R309). -/
def Bank.ownBuf (b : Bank) (g : Fin 16) : Option Nat × Bank :=
  match b.ring g with
  | some r => if r.modeR && r.prod == .copy then (some (b.bufBase .A r), b.noteSent g r (b.bufBase .A r)) else (none, b)
  | none => (none, b)

/-- `CP` and `CPL` at issue (09 R312, R313). -/
def cpIssue (m : Dep) (td : Fin 64) (ch : Fin 8) (kind : CpKind) (org step : List Int) (long : Bool) (count : Nat) (s : State) : Res State :=
  let b := s.here
  let t := b.td td
  match recFault t (some org) with
  | some f => .fault f 0
  | none =>
    match kind with
    | .toRec tdd rx =>
      let u := b.td tdd
      let od := halves (b.ax rx).toNat
      match recFault u (some od) with
      | some f => .fault f 0
      | none =>
        let d := tdescOf t
        let e := tdescOf u
        if d.fmt ≠ e.fmt ∨ d.count ≠ e.count then .fault .cshape 0
        else if d.vx4 ∧ d.w 0 ≠ e.w 0 then .fault .cshape 0
        else trapOr t org (trapOr u od (queueCmd s m ch (.toRec t u org od) long count none))
    | .toRing g se sem =>
      let sm := if se then some sem else none
      match b.useRing s.cur.loc.core ch g true long t org with
      | .fault f => .fault f 0
      | .idle => idleCopy s sm
      | .ok buf b => trapOr t org (queueCmd (s.setBank s.cur.loc b) m ch (.toRing t org step g none sm) long count buf)
    | .toPeer g se sem rx =>
      match s.placed b.launch ((b.ax rx).toNat % 2 ^ 10) with
      | none => .fault .peer 0
      | some p =>
        let sm := if se then some sem else none
        if p = s.cur.loc ∧ !long ∧ b.idleOwn g then idleCopy s sm
        else
          let (buf, b) := if p = s.cur.loc ∧ !long then b.ownBuf g else (none, b)
          trapOr t org (queueCmd (s.setBank s.cur.loc b) m ch (.toRing t org step g (some p) sm) long count buf)
    | .drain g _ =>
      match b.useRing s.cur.loc.core ch g false long t org with
      | .fault f => .fault f 0
      | .idle => idleCopy s none
      | .ok buf b => trapOr t org (queueCmd (s.setBank s.cur.loc b) m ch (.drain t org step g) long count buf)

/-- Whether the registers and records that a copy names are ready and its channel has a place. -/
def Bank.copyReady (b : Bank) (regs : List (Fin 32)) (tds : List (Fin 64)) (ch : Fin 8) : Bool :=
  b.readyA (regs.map .a) && tds.all b.tdReady && b.chanRoom ch.val

/-- The register and the record that the far end of a copy names. -/
def CpKind.far : CpKind → List (Fin 32) × List (Fin 64)
  | .toRec tdd rx => ([rx], [tdd])
  | .toPeer _ _ _ rx => ([rx], [])
  | .toRing _ _ _ | .drain _ _ => ([], [])

/-- `CP` (09 R311 to R314). -/
def execCp (m : Dep) (td : Fin 64) (ch : Fin 8) (kind : CpKind) (oa ob : Fin 32) (s : State) : Out :=
  copyWord (.cp m td ch kind oa ob) ch s (fun s =>
    let b := s.here
    if !b.copyReady ([oa, ob] ++ (CpKind.far kind).1) (td :: (CpKind.far kind).2) ch then .stall
    else cpIssue m td ch kind (originOf (b.ax oa) (b.ax ob)) [0, 0, 0, 0] false 1 s)

/-- `CPL` (09 R311 to R314). -/
def execCpl (m : Dep) (td : Fin 64) (ch : Fin 8) (kind : CpKind) (oa ob rc rs : Fin 32) (s : State) : Out :=
  copyWord (.cpl m td ch kind oa ob rc rs) ch s (fun s =>
    let b := s.here
    if !b.copyReady ([oa, ob, rc, rs] ++ (CpKind.far kind).1) (td :: (CpKind.far kind).2) ch then .stall
    else cpIssue m td ch kind (originOf (b.ax oa) (b.ax ob)) (halves (b.ax rs).toNat) true (b.ax rc).toNat s)

/-- `TMOV` (06 R209, R210). -/
def execTmov (m : Dep) (td : Fin 64) (ch : Fin 8) (st : Bool) (oa ob : Fin 32) (s : State) : Out :=
  copyWord (.tmov m td ch st oa ob) ch s (fun s =>
    let b := s.here
    if !b.copyReady [oa, ob] [td] ch then .stall
    else
      let t := b.td td
      let org := originOf (b.ax oa) (b.ax ob)
      match recCheck t (some org) b.hdr.spad with
      | some f => .fault f 0
      | none => trapOr t org (queueCmd s m ch (.tmov t org st) false 1 none))

/-! ## `CPRING` (09 R315, R316) -/

/-- Whether a command of the bank at a place names a ring of that bank, a `.peer` copy to its own core among them. -/
def Cmd.names (x : Cmd) (l : Loc) (g : Fin 16) : Bool :=
  match x.kind with
  | .toRing _ _ _ h peer _ => h == g && peer.getD l == l
  | .drain _ _ _ h => h == g
  | .siftDec (.ring h) .. => h == g
  | _ => false

/-- Whether `CPRING` may issue (09 R316): commands of A that name the ring hold it, and schedule entries that have reserved a slot. -/
def Bank.cpringReady (b : Bank) (l : Loc) (g : Fin 16) (modeC : Bool) (cons : RingEnd) : Bool :=
  b.car.ch.all (fun p => p.2.cmds.all (fun x => !x.names l g || (p.2.sched && x.slot.isNone)))
    && (!modeC || (b.engs.A.walk ≤ b.endWalk cons
      && (match b.ring g with | some r => r.modeR || r.st.all (· == .empty) | none => true)))

/-- A ring configured: earlier configurations stay for the words of M and T before this walk position (09 R310). -/
def Bank.configRing (b : Bank) (g : Fin 16) (r : Ring) : Bank :=
  let old := if min b.engs.M.walk b.engs.T.walk < b.engs.A.walk then b.car.rings else b.car.rings.filter (fun p => p.1 != g.val)
  { b with car := { b.car with rings := (g.val, r) :: old } }

/-- The configuration that a `CPRING` records. -/
def Bank.ringOf (b : Bank) (mode : RingMode) (prod cons : RingEnd) : Ring :=
  match mode with
  | .c base nsm1 lines =>
    { walk := b.engs.A.walk, modeR := false, prod, cons, size := 64 * lines.toNat, base := (b.areg base).toNat, slots := nsm1.val + 1
      lc := 0, j := 0, b := [], rot0 := 0, head := 0, tail := 0, st := List.replicate (nsm1.val + 1) .empty, chan := none }
  | .r j lc lines =>
    { walk := b.engs.A.walk, modeR := true, prod, cons, size := 64 * lines.toNat, base := 0, slots := 0, lc, j
      b := (upTo ((assoc b.hdr.rots lc.val).elim 0 (·.nb))).map (fun k => (spGet 0 b.acc.a (32 + k)).toNat)
      rot0 := spGet 0 b.engs.A.rot lc.val, head := 0, tail := 0, st := [], chan := none }

/-- The A registers that a `CPRING` reads. -/
def Bank.cpringRegs (b : Bank) : RingMode → List Nat
  | .c base _ _ => [aregCode base]
  | .r _ lc _ => natsFrom 32 ((assoc b.hdr.rots lc.val).elim 0 (·.nb))

/-- Whether a mode is C. -/
def RingMode.isC : RingMode → Bool
  | .c _ _ _ => true
  | .r _ _ _ => false

/-- `CPRING` (09 R315, R316). -/
def execCpring (m : Dep) (g : Fin 16) (mode : RingMode) (prod cons : RingEnd) (s : State) : Out :=
  accessBank (.cpring m g mode prod cons) s (fun b =>
    if b.pending .A (b.cpringRegs mode) || !b.cpringReady s.cur.loc g (RingMode.isC mode) cons then .stall
    else
      let r := b.ringOf mode prod cons
      if r.bases.any (fun x => x % 64 != 0 || decide (b.hdr.spad < x + r.size)) then .fault .bounds 0
      else .ok (b.configRing g r) {})

/-! ## `CPWP` (09 R317) -/

/-- `CPWP.rd` (09 R317). -/
def execCpwpRd (m : Dep) (a : Fin 32) (ch : Fin 8) (s : State) : Out :=
  accessBank (.cpwpRd m a ch) s (fun b => if !b.readyA [.a a] then .stall else putA (.a a) (b.chan ch.val).cwp b)

/-- `CPWP.wait` (09 R317). -/
def execCpwpWait (m : Dep) (a : Fin 32) (ch : Fin 8) (s : State) : Out :=
  accessBank (.cpwpWait m a ch) s (fun b =>
    if !b.readyA [.a a] || (b.chan ch.val).cwp.toNat < (b.ax a).toNat then .stall else .ok b {})

/-- `CPWP.ds` (09 R317). -/
def execCpwpDs (m : Dep) (ch : Fin 8) (s : State) : Out :=
  accessBank (.cpwpDs m ch) s (fun b =>
    if !b.room .ds 1 then .stall
    else .ok (b.reserve .ds b.engs.A.walk (b.chan ch.val).cwp) { effs := [.vis .ds b.engs.A.walk] })

/-! ## `CPCAN` (09 R318) -/

/-- Commands dropped push their signals. -/
def Bank.dropCmds (b : Bank) (l : List Cmd) : Bank := l.foldl (fun b x => (b.signalLater .A x.sp x.sn).complete x.id) b

/-- A channel stopped: what has not begun is dropped, the running command is told to stop. -/
def Bank.cancelChan (b : Bank) (n : Nat) : Bank × List Nat :=
  let c := b.chan n
  match c.cmds with
  | [] => (b, [])
  | x :: t =>
    if x.begun then ((b.putChan n { c with cmds := [{ x with stop := true }] }).dropCmds t, [x.id])
    else ((b.putChan n { c with cmds := [], pf := none }).dropCmds (x :: t), [])

/-- Several channels stopped; the commands still to stop. -/
def Bank.cancelChans (b : Bank) : List Nat → Bank × List Nat
  | [] => (b, [])
  | n :: t =>
    let r := b.cancelChan n
    let r' := r.1.cancelChans t
    (r'.1, r.2 ++ r'.2)

/-- `CPCAN chC` (09 R318): it retires when the running command has stopped. -/
def execCpcan (m : Dep) (ch : Fin 8) (s : State) : Out :=
  copyWord (.cpcan m ch) ch s (fun s =>
    let r := s.here.cancelChans [ch.val]
    .ok (s.setBank s.cur.loc r.1) { waits := r.2 })

/-- Every channel of a bank goes on as far as it can. -/
def State.runChans (s : State) (l : Loc) : State := (upTo 8).foldl (fun s n => State.runChan l n eagerChunks s) s

/-- `CPCAN.all` (09 R318). -/
def execCpcanAll (m : Dep) (s : State) : Out :=
  if s.here.acc.park.isSome then .next s
  else eagerly State.runChans (packageWord (.cpcanAll m) s (fun s =>
    let r := s.here.cancelChans (upTo 8)
    .ok (s.setBank s.cur.loc r.1) { waits := r.2 }))

/-! ## `SIFT` and `ACCMOV` (09 R321, R326) -/

/-- `SIFT` at issue (09 R326). -/
def siftIssue (m : Dep) (ch : Fin 8) (aligned : List Nat) (n : Nat) (kind : CmdKind) (buf : Option Nat) (s : State) : Res State :=
  if aligned.any (· % 64 != 0) then .fault .calign 0
  else if 2 ^ 24 < n then .fault .cshape 0
  else if n = 0 then .ok s {}
  else queueCmd s m ch kind false 1 buf

/-- `SIFT.enc` (09 R326). -/
def execSiftEnc (m : Dep) (ch : Fin 8) (pasp sasp : Asp) (rp rmap rsec rn : Fin 32) (s : State) : Out :=
  copyWord (.siftEnc m ch pasp sasp rp rmap rsec rn) ch s (fun s =>
    let b := s.here
    if !b.copyReady [rp, rmap, rsec, rn] [] ch then .stall
    else
      let x (r : Fin 32) : Nat := (b.ax r).toNat
      siftIssue m ch [x rp, x rmap, x rsec] (x rn) (.siftEnc pasp (x rp) sasp (x rmap) (x rsec) (x rn)) none s)

/-- The ring of a `SIFT.dec.ring` at issue (09 R308, R310, R326). -/
def Bank.useSiftRing (b : Bank) (core : Nat) (ch : Fin 8) (g : Fin 16) (n : Nat) : RingUse :=
  match b.ring g with
  | none => .fault .ring
  | some r =>
    if r.prod ≠ .copy then .fault .ring
    else if !r.modeR && r.chan.any (fun c => c != (core, ch.val)) then .fault .ring
    else if b.idle .A r then .idle
    else if r.size < 512 * n then .fault .ring
    else if r.modeR then .ok (some (b.bufBase .A r)) (b.noteSent g r (b.bufBase .A r))
    else .ok none (b.setRing g { r with chan := some (core, ch.val) })

/-- `SIFT.dec` (09 R326). -/
def execSiftDec (m : Dep) (ch : Fin 8) (dst : SiftDst) (sasp : Asp) (rmap rsec rn : Fin 32) (s : State) : Out :=
  copyWord (.siftDec m ch dst sasp rmap rsec rn) ch s (fun s =>
    let b := s.here
    let x (r : Fin 32) : Nat := (b.ax r).toNat
    match dst with
    | .plain pasp rp =>
      if !b.copyReady [rp, rmap, rsec, rn] [] ch then .stall
      else siftIssue m ch [x rp, x rmap, x rsec] (x rn) (.siftDec (.at pasp (x rp)) sasp (x rmap) (x rsec) (x rn)) none s
    | .ring g =>
      if !b.copyReady [rmap, rsec, rn] [] ch then .stall
      else if (x rmap) % 64 ≠ 0 ∨ (x rsec) % 64 ≠ 0 then .fault .calign 0
      else if 2 ^ 24 < x rn then .fault .cshape 0
      else match b.useSiftRing s.cur.loc.core ch g (x rn) with
        | .fault f => .fault f 0
        | .idle => .ok s {}
        | .ok buf b => siftIssue m ch [] (x rn) (.siftDec (.ring g) sasp (x rmap) (x rsec) (x rn)) buf (s.setBank s.cur.loc b))

/-- `ACCMOV` (09 R321). -/
def execAccmov (m : Dep) (acc : Fin 1024) (ch : Fin 8) (st : Bool) (asp : Asp) (base : Fin 32) (s : State) : Out :=
  copyWord (.accmov m acc ch st asp base) ch s (fun s =>
    let b := s.here
    if !b.copyReady [base] [] ch then .stall
    else
      let a := (b.ax base).toNat
      if a % 64 ≠ 0 then .fault .calign 0 else queueCmd s m ch (.accmov acc.val st asp a) false 1 none)

/-! ## The static copy schedule (09 R320) -/

/-- The first entry of the schedule that is released and finds a place. -/
def Bank.nextSched (b : Bank) : Option (Nat × SchedEnt) :=
  ((upTo b.car.sched.length).zip b.car.sched).find? (fun p => p.2.release ≤ b.car.csched.toNat && b.chanRoom p.2.ch.val)

/-- `SCHEDULE_ENTRY_ENTER`: a released entry enters its channel (09 R320), while the core runs and while it waits for a page (09 R332). -/
def execScheduleEntryEnter (l : Loc) (s : State) : Out :=
  .next (
    let b := s.bank l
    if !s.served l || b.st == .halting then s
    else match b.nextSched with
      | none => s
      | some (i, e) =>
        match recFault e.tdr (some e.org) with
        | some f => s.faultAt l f b.engs.A.pc 0
        | none =>
          let (id, s) := s.newId
          let x := { b.newCmd id {} (.toRing e.tdr e.org e.step e.ring none e.sem) true e.count none with loops := [] }
          s.setBank l ({ b with car := { b.car with sched := b.car.sched.eraseIdx i } }.enqueue e.ch.val x))

end Sys2Proof.Machine
end

