-- ==== Sys2Proof/Machine/Matrix.lean ====
section
/-!
DEFINITION. The matrix class (10): issue into the pass window, ring operands, passes, slot words, and the word at the head of the window
taking effect.
-/

namespace Sys2Proof.Machine

/-! ## Issue (10 R341, R342) -/

/-- The allowed shapes in the order in which a grant takes them: by area, then by rows (10 R350). -/
def mxShapes : List (Nat × Nat) := [(8, 32), (16, 16), (16, 32), (32, 16), (32, 32)]

/-- The grant of a request (10 R350). -/
def mxGrant (r c : Nat) : Nat × Nat := (mxShapes.find? (fun s => r ≤ s.1 && c ≤ s.2)).getD (32, 32)

/-- What a word does to the registers of M as it leaves the window (10 R342, R345, R348 to R350, R356, R357). -/
def WinEnt.regs (w : WinEnt) (m : MatrixSt) : MatrixSt :=
  match w.instr with
  | .mxShape _ rm1 cm1 _ _ =>
    let g := mxGrant (rm1.val + 1) (cm1.val + 1)
    { m with rows := g.1, cols := g.2 }
  | .mxCseq _ imm => { m with cseq := imm }
  | .mxMode _ negp za zb => { m with negp, za, zb }
  | .mxRing _ _ g | .mxFmt _ g _ | .mxScale _ g _ =>
    match w.opA with
    | some o => { m with bind := assocPut m.bind g.val ⟨o.tdr, o.scale⟩ }
    | none => m
  | _ => m

/-- The registers of M as the words before the one at hand leave them (10 R342). -/
def Bank.seen (b : Bank) : MatrixSt := b.mx.win.foldl (fun m w => w.regs m) b.mx

/-- Whether the pass window has a place. -/
def Bank.winRoom (b : Bank) : Bool := b.mx.win.length < 16

/-- A word of M enters the window. -/
def Bank.enterWin (b : Bank) (i : Instr) (opA opB : Option Opnd) : Bank :=
  { b with mx := { b.mx with win := b.mx.win ++ [{ instr := i, walk := b.engs.M.walk, pc := b.engs.M.pc, done := 0, opA, opB }] } }

/-- What a word of M leaves at issue: it retires once it has taken effect. -/
def Bank.winPlain (b : Bank) (effs : List Eff) : Plain := { waits := [b.engs.M.walk], effs }

/-- What an M or T word finds of a ring it names (09 R310). -/
inductive RingNamed where
  | stall | fault
  | ok (r : Ring)

/-- A ring named by a word of engine `e`; the ends say which agents the word may be. -/
def Bank.named (b : Bank) (e : Engine) (g : Fin 16) (ok : Ring → Bool) : RingNamed :=
  if b.engs.A.walk < (b.eng e).walk then .stall
  else match b.ringAt g (b.eng e).walk with
    | none => .fault
    | some r => if ok r then .ok r else .fault

/-- A ring's binding for the word of M at hand. -/
def Bank.mbind (b : Bank) (g : Fin 16) : Option RBind := assoc b.seen.bind g.val

/-- Where a word of an engine finds the operand of a ring that it consumes (09 R309, 04 R116). -/
def Bank.opSrc (b : Bank) (e : Engine) (r : Ring) : OpSrc :=
  if b.idle e r then .idle else if r.modeR then .buf (b.bufBase e r) else .head

/-- What a word finds of an operand: it waits, it faults, or it has a record, its ring and its place. -/
inductive OpTake where
  | stall
  | fault (c : FCode)
  | ok (o : Opnd) (r : Ring)

/-- An operand that M consumes (10 R355). -/
def Bank.mOp (b : Bank) (g : Fin 16) : OpTake :=
  match b.named .M g (fun r => r.cons == .m) with
  | .stall => .stall
  | .fault => .fault .ring
  | .ok r => match b.mbind g with
    | none => .fault .mbind
    | some x => .ok ⟨g, x.tdr, x.scale, b.opSrc .M r⟩ r

/-- Group size and chunk of a format pair (10 R347). -/
def pairOf (fa fb : Nat) : Option (Nat × Nat) :=
  if fa = 7 ∧ fb = 7 then some (1, 48)
  else if fa = 6 ∧ fb = 6 then some (2, 96)
  else if fa = 4 ∧ fb = 4 ∨ fa = 5 ∧ fb = 5 then some (8, 192)
  else if (fa = 8 ∨ fa = 9) ∧ (fb = 8 ∨ fb = 9) then some (16, 384)
  else if fa = 0 ∧ fb = 0 then some (16, 384)
  else if fa = 0xA ∧ fb = 0xA then some (32, 768)
  else none

/-- The elements of a record's window along dimension 0. -/
def TDesc.elems0 (d : TDesc) : Nat := dimOf d.win 0

/-- Whether the outer window extents are 1. -/
def TDesc.flat (d : TDesc) (n : Nat) : Bool := (upTo 4).all (fun j => decide (j < n) || dimOf d.win j == 1)

/-- The image of an operand fits its ring's slots; an idle ring takes no fault of its own (04 R116). -/
def Opnd.fits (o : Opnd) (r : Ring) : Bool := o.src == .idle || decide ((tdescOf o.tdr).imgBytes [0, 0, 0, 0] ≤ r.size)

/-- The checks of a pass at issue that follow its rings (10 R355): formats, geometry, slot sizes. -/
def Bank.passFault (b : Bank) (ger : Bool) (a : Opnd × Ring) (c : Opnd × Ring) : Option FCode :=
  let d := tdescOf a.1.tdr
  let e := tdescOf c.1.tdr
  match pairOf d.fmt e.fmt with
  | none => some .mfmt
  | some (_, kc) =>
    let shape := if ger then d.elems0 == b.seen.rows && e.elems0 == b.seen.cols && d.flat 1 && e.flat 1
      else d.elems0 == e.elems0 && dimOf d.win 1 == b.seen.rows && dimOf e.win 1 == b.seen.cols && d.flat 2 && e.flat 2
        && decide (1 ≤ d.elems0) && decide (d.elems0 ≤ 16 * kc)
    if !shape then some .mshape
    else if !(a.1.fits a.2 && c.1.fits c.2) then some .ring
    else none

/-- A semaphore wait that a pass carries: what stops it at issue, or the bank with the wait applied (04 R118). -/
def Bank.semTake (b : Bank) (w : Option (Fin 32 × Nat)) : Except (Res Bank) Bank :=
  match w with
  | none => .ok b
  | some (n, v) =>
    if b.semCeil n < v then .error (.fault .semCeil 0)
    else if b.semCount n < v then .error .stall
    else .ok (b.setSem n (b.semCount n - v))

/-- The pop of a consumed operand at retirement; a mode R ring pops nothing. -/
def popEff (keep : Bool) (o : Opnd) (w : Nat) : List Eff := if keep || o.src != .head then [] else [.ringPop o.g w]

/-- A pass at issue (10 R341, R352 to R355). -/
def passIssue (i : Instr) (ga gb : Fin 16) (ger : Bool) (w : Option (Fin 32 × Nat)) (effs : Opnd → Opnd → Nat → List Eff) (b : Bank) : Res Bank :=
  if !b.winRoom then .stall
  else match b.mOp ga, b.mOp gb with
    | .stall, _ | _, .stall => .stall
    | a, c =>
      match b.semTake w with
      | .error r => r
      | .ok b' =>
        match a, c with
        | .fault .ring, _ | _, .fault .ring => .fault .ring 0
        | .fault f, _ | _, .fault f => .fault f 0
        | .ok oa ra, .ok ob rb =>
          match b.passFault ger (oa, ra) (ob, rb) with
          | some f => .fault f 0
          | none => .ok (b'.enterWin i (some oa) (some ob)) (b'.winPlain (effs oa ob b.engs.M.walk))
        | _, _ => .stall

/-! ## Reading operands (10 R346) -/

/-- Pops of a ring that earlier words of an engine have still to make at their retirement. -/
def popsBefore (rets : List Ret) (g : Fin 16) (w : Nat) : Nat :=
  ((rets.filter (fun r => r.walk < w)).map (fun r => (r.effs.filter (fun e => match e with
    | .ringPop h _ => h == g
    | _ => false)).length)).foldl (· + ·) 0

/-- The record of an operand with its base in place of spbase. -/
def Opnd.desc (o : Opnd) (base : Nat) : TDesc := { tdescOf o.tdr with spbase := base }

/-- The bytes of the share that a word reads of an operand: its units and, for VX4, its block scales and, without an override, the first band
scale (10 R346). -/
def Opnd.reads (o : Opnd) (base : Nat) : List (Nat × Nat) :=
  let d := o.desc base
  if o.src = .idle then [] else d.unitRuns ++ d.scaleRuns (d.count + if o.scale.isNone then 2 else 0)

/-- Whether any of some runs share a byte with any of others. -/
def anyMeet (x y : List (Nat × Nat)) : Bool := x.any (fun r => y.any (meets r))

/-- The latest copy into a buffer that A issued before a walk position, if it is not complete (09 R309). -/
def Bank.lastCopy (b : Bank) (g : Fin 16) (r : Ring) (base w : Nat) : Option Cmd :=
  (r.lastSent base w).bind (fun v => (b.car.ch.flatMap (fun p => p.2.cmds)).find? (fun x => x.walk == v && x.buf == some base && (match x.kind with
    | .toRing _ _ _ h _ _ => h == g
    | .siftDec (.ring h) .. => h == g
    | _ => false)))

/-- The base at which a word reads some bytes of an operand, once every chunk that holds them is published (09 R307, R309) and no T word holds
them (11 R370); `reads` gives the bytes at a base. -/
def Bank.opBase (b : Bank) (l : Loc) (e : Engine) (o : Opnd) (w : Nat) (reads : Nat → List (Nat × Nat)) : Option Nat :=
  let free (base : Nat) (due : List (Nat × Nat)) : Option Nat :=
    if anyMeet (reads base) due || (e != .T && (reads base).any b.tHolds) then none else some base
  match o.src, b.ringAt o.g w with
  | .idle, _ => some 0
  | _, none => none
  | .buf base, some r => free base ((b.lastCopy o.g r base w).elim [] (fun x => x.undone l))
  | .head, some r =>
    let k := r.head + popsBefore (b.eng e).rets o.g w
    if r.tail ≤ k then none else free (r.slotBase k) (r.due k)

/-- The first uncorrectable byte of some runs of the share. -/
def Bank.badRuns (b : Bank) (l : List (Nat × Nat)) : Option Nat :=
  if b.acc.bad.isEmpty then none else (b.acc.bad.filter (fun a => l.any (fun r => decide (r.1 ≤ a) && decide (a < r.1 + r.2)))).min?

/-- A floating-point format of an element code (06 R203). -/
def ffmtOf (fmt : Nat) : FFmt :=
  match fmt with
  | 4 => fp16F | 5 => bf16F | 6 => fp32F | 7 => fp64F | 8 => e5m2F | 9 => e4m3F | _ => e80F

/-- The number in the image bytes of a unit. -/
def Bank.imgNum (b : Bank) (d : TDesc) (e : Nat) : Nat := ofLe (b.imgRead d e)

/-- One byte of an image at an offset. -/
def Bank.imgAt (b : Bank) (d : TDesc) (o : Nat) : Nat := (spGet 0 b.acc.sp0 (d.spAddr o)).toNat

/-- The scale of an operand's elements beside the block scale: the override or the first band entry (10 R346). -/
def Bank.bandScale (b : Bank) (o : Opnd) (d : TDesc) : Fl :=
  match o.scale with
  | some v => bf16F.read v.toNat
  | none => bf16F.read (b.imgAt d (d.bandOff 0) + 256 * b.imgAt d (d.bandOff 0 + 1))

/-- Element `k` of row `i` of a floating-point operand, exact, with the flags of forming it (03 R91, 10 R346, R349). -/
def Bank.opElem (b : Bank) (o : Opnd) (base k i : Nat) : Fl × FlagBits :=
  let d := o.desc base
  if d.vx4 then
    let e := k / 8 + d.w 0 * i
    let x := e2m1 (b.imgNum d e / 2 ^ (4 * (k % 8)) % 16)
    let (y, f) := x.mul (e3m5F (b.imgAt d (d.blockOff e)))
    let (z, g) := y.mul (b.bandScale o d)
    (z, f ||| g)
  else
    let x := (ffmtOf d.fmt).read (b.imgNum d (k + d.w 0 * i))
    match o.scale with
    | some v => x.mul (bf16F.read v.toNat)
    | none => (x, 0)

/-- Element `k` of row `i` of an INT8 operand. -/
def Bank.opInt (b : Bank) (o : Opnd) (z : Bool) (base k i : Nat) : Int :=
  let d := o.desc base
  intOf z 8 (b.imgNum d (k + d.w 0 * i))

/-! ## Products, groups and joins (10 R351, 03 R96) -/

/-- The IEEE maximum (08 R272). -/
def flMax (x y : Fl) : Fl × FlagBits :=
  if x.isNan || y.isNan then (.nan false, x.snan ||| y.snan)
  else
    let c := x.cmp y
    ((if 0 < c then x else if c < 0 then y else if x.neg then y else x), 0)

/-- The IEEE minimum (08 R272). -/
def flMin (x y : Fl) : Fl × FlagBits :=
  if x.isNan || y.isNan then (.nan false, x.snan ||| y.snan)
  else
    let c := x.cmp y
    ((if c < 0 then x else if 0 < c then y else if x.neg then x else y), 0)

/-- A product under a code (10 R351). -/
def prodF (cd : Nat) (negp : Bool) (x y : Fl) : Fl × FlagBits :=
  let (p, f) := if cd = 0 then x.mul y
    else if cd = 1 then (let r := x.add .rne y.negate; (r.1.abs, r.2))
    else x.add .rne y
  (if negp then p.negate else p, f)

/-- A product of integers under a code. -/
def prodI (cd : Nat) (negp : Bool) (x y : Int) : Int :=
  let p := if cd = 0 then x * y else if cd = 1 then ((x - y).natAbs : Int) else x + y
  if negp then -p else p

/-- A magnitude cut toward zero to a multiple of 2^u, as a signed multiple. -/
def truncTo (x : Fl) (u : Int) : Int :=
  match x with
  | .fin n num den e => sgn n (scaled num den (e - u)).1
  | _ => 0

/-- The exponent of the leading bit of a nonzero value. -/
def leadOf : Fl → Option Int
  | .fin _ num den e => if num = 0 then none else some (flog2 num den e)
  | _ => none

/-- The sum of a group (03 R96): its bits read back, and flags. A group of one is its own product. -/
def groupSum (g : Nat) (p : List Fl) : Fl × FlagBits :=
  if p.any Fl.isNan then (.nan false, 0)
  else if p.contains (.inf false) && p.contains (.inf true) then (.nan false, fNV)
  else if p.contains (.inf false) then (.inf false, 0)
  else if p.contains (.inf true) then (.inf true, 0)
  else match (p.filterMap leadOf).max? with
    | none => (.fin false 0 1 0, 0)
    | some e =>
      let t := p.foldl (fun t x => t + truncTo x (e - 80)) 0
      let v : Fl := if g = 1 then p.headD (.fin false 0 1 0) else .fin (t < 0) t.natAbs 1 (e - 80)
      if g ≠ 1 ∧ t = 0 then (.fin false 0 1 0, 0)
      else
        let (s, f) := e80F.round .rne 0 v
        (e80F.read s, f)

/-- A value rounded to E80 and read back. -/
def toE80 (x : Fl) : AccCell × FlagBits :=
  let (s, f) := e80F.round .rne 0 x
  (BitVec.ofNat 80 s, f)

/-- The extreme of a nonempty list. -/
def extreme (op : Fl → Fl → Fl × FlagBits) : List Fl → Fl × FlagBits
  | [] => (.nan false, 0)
  | x :: t => t.foldl (fun r y => let q := op r.1 y; (q.1, r.2 ||| q.2)) (x, 0)

/-- A group joined into an E80 cell (10 R351). -/
def joinF (cd g : Nat) (c : AccCell) (p : List Fl) : AccCell × FlagBits :=
  let x := e80F.read c.toNat
  if cd < 2 then
    let (s, f) := groupSum g p
    let (v, h) := x.add .rne s
    let (r, k) := toE80 v
    (r, f ||| h ||| k)
  else
    let op := if cd = 2 then flMax else flMin
    let (s, f) := extreme op p
    let (r, h) := e80F.round .rne 0 s
    let (v, k) := op x (e80F.read r)
    let (w, m) := toE80 v
    (w, f ||| h ||| k ||| m)

/-- A product joined into an exact integer cell. -/
def joinI (cd : Nat) (c p : Int) : Int := if cd < 2 then c + p else if cd = 2 then max c p else min c p

/-- What `.set` places in a cell (10 R351). -/
def initF (cd : Nat) : AccCell :=
  if cd < 2 then 0 else BitVec.ofNat 80 (e80F.infBits (cd = 2))

/-- What `.set` places in an integer cell. -/
def initI (cd : Nat) : Int := if cd < 2 then 0 else if cd = 2 then -(2 ^ 79) else 2 ^ 79 - 1

/-- The code of a chunk (10 R351). -/
def codeOf (cseq : BitVec 32) (c : Nat) : Nat := bits cseq.toNat (2 * c + 1) (2 * c)

/-- Saturation to INT80 (03 R97). -/
def sat80 (x : Int) : AccCell × FlagBits := let r := satTo false 80 x; (BitVec.ofNat 80 r.1, r.2)

/-- A saturation sets the slot's SAT bit (03 R97, 10 R363). -/
def Bank.noteSat (b : Bank) (slot : Nat) (f : FlagBits) : Bank :=
  if (f &&& fSAT) = 0 then b else b.setSat slot true

/-- A cell written with its flags. -/
def Bank.putCell (b : Bank) (slot row col : Nat) (r : AccCell × FlagBits) : Bank :=
  ((b.setCell slot (32 * row + col) r.1).noteSat slot r.2).raiseM r.2

/-- One cell through a floating-point pass (10 R353). -/
def cellF (cseq : BitVec 32) (negp : Bool) (g kc k : Nat) (set : Bool) (x y : List Fl) (c : AccCell) : AccCell × FlagBits :=
  (upTo (ceilDiv k g)).foldl (fun r u =>
    let cd := codeOf cseq (u * g / kc)
    let ps := (natsFrom (u * g) (min g (k - u * g))).map (fun j => prodF cd negp (x.getD j (.fin false 0 1 0)) (y.getD j (.fin false 0 1 0)))
    let fl := ps.foldl (fun a p => a ||| p.2) 0
    let pad := if cd < 2 then List.replicate (g - min g (k - u * g)) (Fl.fin false 0 1 0) else []
    let q := joinF cd g r.1 (ps.map (·.1) ++ pad)
    (q.1, r.2 ||| fl ||| q.2)) ((if set then initF (codeOf cseq 0) else c), 0)

/-- One cell through an INT8 pass (10 R353): exact, saturated once at the end. -/
def cellI (cseq : BitVec 32) (negp : Bool) (kc k : Nat) (set : Bool) (x y : List Int) (c : AccCell) : AccCell × FlagBits :=
  sat80 ((upTo k).foldl (fun r j => let cd := codeOf cseq (j / kc); joinI cd r (prodI cd negp (x.getD j 0) (y.getD j 0)))
    (if set then initI (codeOf cseq 0) else signedOf 80 c.toNat))

/-- Every cell of the granted shape changed; a slot has 32 rows and 32 columns. -/
def Bank.mapCells (b : Bank) (slot rows cols : Nat) (f : Nat → Nat → AccCell → AccCell × FlagBits) : Bank :=
  (upTo (min rows 32)).foldl (fun b i => (upTo (min cols 32)).foldl (fun b j => b.putCell slot i j (f i j (b.cell slot (32 * i + j)))) b) b

/-- The flags of forming every element of an operand. -/
def formFlags (l : List (List (Fl × FlagBits))) : FlagBits := l.foldl (fun f r => r.foldl (fun f x => f ||| x.2) f) 0

/-- One pass over two operands at their bases (10 R353, R354). An idle ring makes every product +0, whatever the other operand holds, and raises
no flag (04 R116). -/
def Bank.pass (b : Bank) (ger set : Bool) (slot : Nat) (oa ob : Opnd) (pa pb : Nat) : Bank :=
  let d := tdescOf oa.tdr
  let e := tdescOf ob.tdr
  match pairOf d.fmt e.fmt with
  | none => b
  | some (g, kc) =>
    let m := b.mx
    let k := if ger then 1 else d.elems0
    let at' (i j : Nat) : Nat × Nat := if ger then (i, 0) else (j, i)
    if oa.src = .idle ∨ ob.src = .idle then
      let quiet (r : AccCell × FlagBits) : AccCell × FlagBits := (r.1, 0)
      if d.fmt = 0 then b.mapCells slot m.rows m.cols (fun _ _ c => quiet (cellI m.cseq false kc k set [] [] c))
      else b.mapCells slot m.rows m.cols (fun _ _ c => quiet (cellF m.cseq false g kc k set [] [] c))
    else if d.fmt = 0 then
      let x := (upTo m.rows).map (fun i => (upTo k).map (fun j => b.opInt oa m.za pa (at' i j).1 (at' i j).2))
      let y := (upTo m.cols).map (fun i => (upTo k).map (fun j => b.opInt ob m.zb pb (at' i j).1 (at' i j).2))
      b.mapCells slot m.rows m.cols (fun i j => cellI m.cseq m.negp kc k set (x.getD i []) (y.getD j []))
    else
      let x := (upTo m.rows).map (fun i => (upTo k).map (fun j => b.opElem oa pa (at' i j).1 (at' i j).2))
      let y := (upTo m.cols).map (fun i => (upTo k).map (fun j => b.opElem ob pb (at' i j).1 (at' i j).2))
      let b := b.raiseM (formFlags x ||| formFlags y)
      b.mapCells slot m.rows m.cols (fun i j => cellF m.cseq m.negp g kc k set ((x.getD i []).map (·.1)) ((y.getD j []).map (·.1)))

/-! ## Words taking effect (10 R342, R343) -/

/-- Whether an `ACCMOV` of a slot is in progress (09 R321). -/
def Bank.accMoving (b : Bank) (slot : Nat) : Bool :=
  b.car.ch.any (fun p => match p.2.cmds with
    | x :: _ => (match x.kind with | .accmov n .. => n == slot && x.off != 0 | _ => false)
    | [] => false)

/-- Whether a V access to a slot waits: an `ACCMOV` of it is in progress, or a word of M has started on it and not retired (08 R295, 10 R362). -/
def Bank.slotBusy (b : Bank) (slot : Nat) : Bool := b.accMoving slot || b.pending .M [256 + slot]

/-- Whether a word of M waits for a slot: an `ACCMOV` or a V access is in progress (08 R295, 09 R321). -/
def Bank.slotHeld (b : Bank) (slot : Nat) : Bool := b.accMoving slot || b.pending .V [256 + slot]

/-- The start of the effect of a word of M: it waits, it faults, or it is under way. -/
inductive StartRes where
  | wait
  | fault (c : FCode) (detail : Nat)
  | ok (b : Bank)

/-- A pass, once both its operands are published (10 R342). -/
def Bank.startPass (b : Bank) (l : Loc) (w : WinEnt) (ger set : Bool) (slot : Nat) : StartRes :=
  match w.opA, w.opB with
  | some oa, some ob =>
    if b.slotHeld slot then .wait
    else match b.opBase l .M oa w.walk oa.reads, b.opBase l .M ob w.walk ob.reads with
      | some pa, some pb =>
        match b.badRuns (oa.reads pa), b.badRuns (ob.reads pb) with
        | some a, _ => .fault .uncorr a
        | none, some a => .fault .uncorr a
        | none, none => .ok (b.pass ger set slot oa ob pa pb)
      | _, _ => .wait
  | _, _ => .wait

/-- The ring whose head slot a pass pops as it finishes. -/
def Bank.popsOf (b : Bank) (keep : Bool) (o : Option Opnd) (w : Nat) : Option (Fin 16 × Ring) :=
  match o with
  | some x => if keep || x.src != .head then none else (b.ringAt x.g w).map (fun r => (x.g, r))
  | none => none

/-- The head slot of a consumed mode C ring freed at once. -/
def Bank.popNow (b : Bank) (keep : Bool) (o : Option Opnd) (w : Nat) : Bank :=
  match b.popsOf keep o w with
  | some (g, r) => b.setRing g r.pop
  | none => b

/-- Whether earlier words have still to pop an operand's ring. -/
def Bank.popsDue (b : Bank) (o : Option Opnd) (w : Nat) : Bool :=
  match o with
  | some x => popsBefore b.engs.M.rets x.g w != 0
  | none => false

/-- Integer formats of a tile (10 R359): their width. -/
def intFmt (fmt : Nat) : Option Nat :=
  match fmt with
  | 0 => some 8 | 1 => some 16 | 2 => some 32 | 3 => some 64 | _ => none

/-- A tile element as `MX.LDACC` loads it into a cell (10 R359). -/
def ldCell (fmt x : Nat) (add z : Bool) (c : AccCell) : AccCell × FlagBits :=
  match intFmt fmt with
  | some n =>
    if add then sat80 (signedOf 80 c.toNat + intOf z n x) else (BitVec.ofNat 80 (wrapTo 80 (intOf z n x)), 0)
  | none =>
    if fmt = 0xB then
      if add then
        let (v, f) := (e80F.read c.toNat).add .rne (e80F.read x)
        let (r, g) := toE80 v
        (r, f ||| g)
      else (BitVec.ofNat 80 x, 0)
    else
      let (w, f) := toE80 ((ffmtOf fmt).read x)
      if add then
        let (v, g) := (e80F.read c.toNat).add .rne (e80F.read w.toNat)
        let (r, h) := toE80 v
        (r, f ||| g ||| h)
      else (w, f)

/-- A cell as `MX.STACC` stores it (10 R359). -/
def stCell (fmt : Nat) (rm : RMode) (ov : Ov) (z : Bool) (c : AccCell) : Nat × FlagBits :=
  match intFmt fmt with
  | some n => narrow ov z n (signedOf 80 c.toNat)
  | none => if fmt = 0xB then (c.toNat, 0) else (ffmtOf fmt).round rm 0 (e80F.read c.toNat)

/-- `MX.LDACC` over its tile; an idle ring gives zeros and raises no flag (04 R116). -/
def Bank.loadTile (b : Bank) (o : Opnd) (base slot : Nat) (add z : Bool) : Bank :=
  let d := o.desc base
  (upTo (min (dimOf d.win 1) 32)).foldl (fun b i => (upTo (min (dimOf d.win 0) 32)).foldl (fun b j =>
    let c := b.cell slot (32 * i + j)
    b.putCell slot i j (if o.src = .idle then ((ldCell d.fmt 0 add z c).1, 0) else ldCell d.fmt (b.imgNum d (j + d.w 0 * i)) add z c)) b) b

/-- `MX.STACC` over its tile. -/
def Bank.storeTile (b : Bank) (o : Opnd) (base slot : Nat) (rm : RMode) (ov : Ov) (z : Bool) : Bank :=
  let d := o.desc base
  (upTo (min (dimOf d.win 1) 32)).foldl (fun b i => (upTo (min (dimOf d.win 0) 32)).foldl (fun b j =>
    let r := stCell d.fmt rm ov z (b.cell slot (32 * i + j))
    (b.imgWrite d (j + d.w 0 * i) (leBytes d.es r.1)).raiseM r.2) b) b

/-- `MX.ACCADD` on one cell (10 R358). -/
def addCell (int neg : Bool) (x y : AccCell) : AccCell × FlagBits :=
  if int then sat80 (if neg then signedOf 80 x.toNat - signedOf 80 y.toNat else signedOf 80 x.toNat + signedOf 80 y.toNat)
  else
    let q := e80F.read y.toNat
    let (v, f) := (e80F.read x.toNat).add .rne (if neg then q.negate else q)
    let (r, g) := toE80 v
    (r, f ||| g)

/-- Every cell of a slot put. -/
def Bank.putSlot (b : Bank) (slot : Nat) (f : Nat → AccCell) : Bank := (upTo 1024).foldl (fun b k => b.setCell slot k (f k)) b

/-- The slots that a word of M reads or writes (10 R352, R354, R358, R359). -/
def mxSlots : Instr → List Nat
  | .mxMma _ n _ _ _ _ _ _ _ | .mxGer _ n _ _ _ _ _ _ _ | .mxZero _ n | .mxTrn _ n | .mxLdacc _ n _ _ _ _ | .mxStacc _ n _ _ _ _ => [n.val]
  | .mxBatch _ n _ _ nm1 _ _ _ => natsFrom n.val (nm1.val + 1)
  | .mxAccmov _ d s _ | .mxAccadd _ d s _ _ => [d.val, s.val]
  | _ => []

/-- Whether a word of M has its whole effect as it leaves the window: it touches no slot. -/
def WinEnt.instant (w : WinEnt) : Bool := (mxSlots w.instr).isEmpty

/-- The effect of a word of M on slots and rings, one pass of it for `MX.BATCH` (10 R342, R352 to R360). -/
def Bank.startEnt (b : Bank) (l : Loc) (w : WinEnt) : StartRes :=
  match w.instr with
  | .mxMma _ n _ _ _ _ _ _ set => b.startPass l w false set n.val
  | .mxGer _ n _ _ _ _ _ _ set => b.startPass l w true set n.val
  | .mxBatch _ n _ _ _ _ _ set =>
    if b.popsDue w.opA w.walk || b.popsDue w.opB w.walk then .wait else b.startPass l w false set (n.val + w.done)
  | .mxZero _ n => if b.slotHeld n.val then .wait else .ok ((b.putSlot n.val (fun _ => 0)).setSat n.val false)
  | .mxTrn _ n =>
    if b.slotHeld n.val then .wait else .ok (b.putSlot n.val (fun k => b.cell n.val (32 * (k % 32) + k / 32)))
  | .mxAccmov _ d s swap =>
    if b.slotHeld d.val || b.slotHeld s.val then .wait
    else
      let c := (b.putSlot d.val (fun k => b.cell s.val k)).setSat d.val (b.satBit s.val)
      .ok (if swap then (c.putSlot s.val (fun k => b.cell d.val k)).setSat s.val (b.satBit d.val) else c)
  | .mxAccadd _ d s int neg =>
    if b.slotHeld d.val || b.slotHeld s.val then .wait
    else .ok (b.mapCells d.val 32 32 (fun i j _ => addCell int neg (b.cell d.val (32 * i + j)) (b.cell s.val (32 * i + j))))
  | .mxLdacc _ n _ _ add z =>
    match w.opA with
    | none => .wait
    | some o =>
      if b.slotHeld n.val then .wait
      else match b.opBase l .M o w.walk o.reads with
        | none => .wait
        | some p => match b.badRuns (o.reads p) with
          | some a => .fault .uncorr a
          | none => .ok (b.loadTile o p n.val add z)
  | .mxStacc _ n _ rm ov z =>
    match w.opA with
    | none => .wait
    | some o =>
      match o.src with
      | .buf p => if b.slotHeld n.val || (o.reads p).any b.tHolds then .wait else .ok (b.storeTile o p n.val rm ov z)
      | .idle | .head => if b.slotHeld n.val then .wait else .ok b
  | _ => .ok b

/-- Words at the head of the window that touch no slot leave it, once no word is under way (10 R342). -/
def Bank.runRegs : Nat → Bank → Bank
  | 0, b => b
  | n + 1, b =>
    match b.mx.run, b.mx.win with
    | none, w :: t =>
      if b.live && w.instant then runRegs n (({ b with mx := { w.regs b.mx with win := t } }).workDone .M w.walk 0) else b
    | _, _ => b

/-- The window's head leaves it as far as no slot is touched. -/
def Bank.leadOff (b : Bank) : Bank := b.runRegs b.mx.win.length

/-- The slots of a started word are its own to its retirement (10 R362). -/
def EngSt.holdSlots (x : EngSt) (w : WinEnt) : EngSt :=
  { x with rets := x.rets.map (fun r => if r.walk = w.walk then { r with writes := (mxSlots w.instr).map (256 + ·) } else r) }

/-- A word of M starts, or its next pass does; `t` is the window without it. -/
def Bank.startWord (b : Bank) (l : Loc) (w : WinEnt) (t : List WinEnt) : Bank :=
  match b.startEnt l w with
  | .wait => b
  | .fault c d => b.takeFault c w.pc d
  | .ok c =>
    let c := c.setEng .M ((c.eng .M).holdSlots w)
    { c with mx := { c.mx with win := t, run := some w, mid := true }, seq := { c.seq with wdog := 0 } }

/-- The effect of the started word is complete (10 R343). -/
def Bank.endWord (b : Bank) (w : WinEnt) : Bank :=
  (({ b with mx := { b.mx with run := none, raised := 0 } }).workDone .M w.walk b.mx.raised).leadOff

/-- A finished pass of an `MX.BATCH` pops its slots once they are FULL (09 R306, 10 R354); the word ends with its last pass. -/
def Bank.batchPop (b : Bank) (w : WinEnt) : Bank :=
  match w.instr with
  | .mxBatch _ _ _ _ nm1 ka kb _ =>
    let full (keep : Bool) (o : Option Opnd) : Bool := (b.popsOf keep o w.walk).all (fun p => p.2.slotSt p.2.head == .full)
    if full ka w.opA && full kb w.opB then
      let b := ((b.popNow ka w.opA w.walk).popNow kb w.opB w.walk).settle
      let b := { b with mx := { b.mx with owed := false, run := some { w with done := w.done + 1 } } }
      if w.done == nm1.val then b.endWord w else b
    else b
  | _ => b

/-- The pass under way finishes, whether or not its core may still issue (10 R344). -/
def Bank.endPass (b : Bank) (w : WinEnt) : Bank :=
  match w.instr with
  | .mxBatch .. => ({ b with mx := { b.mx with mid := false, owed := true } }).batchPop w
  | _ => ({ b with mx := { b.mx with mid := false } }).endWord w

/-- M goes one move on: the pass under way finishes, a finished one pops its slots, or the next one starts (10 R342 to R344). -/
def Bank.stepM (b : Bank) (l : Loc) : Bank :=
  match b.mx.run with
  | some w => if b.mx.mid then b.endPass w else if b.mx.owed then b.batchPop w else if b.live then b.startWord l w b.mx.win else b
  | none =>
    let b := b.leadOff
    match b.mx.win with
    | w :: t => if b.live && !w.instant then b.startWord l w t else b
    | [] => b

/-- M goes on as far as it can, within a bound of moves. -/
def Bank.runM (l : Loc) : Nat → Bank → Bank
  | 0, b => b
  | n + 1, b => runM l n (b.stepM l)

/-- An eager turn of M: its window goes on. -/
def State.goOnM (s : State) (l : Loc) : State := s.onBank l (Bank.runM l 256)

/-- After a word of M has had its turn, what touches no slot leaves the window. -/
def leaveWin (o : Out) : Out :=
  match o with
  | .next s => .next (s.onBank s.cur.loc Bank.leadOff)
  | x => x

/-- A word of M. -/
def matrixWord (i : Instr) (s : State) (f : Bank → Res Bank) : Out :=
  eccNote s.cur.loc s (eagerly State.goOnM (leaveWin (bankWord i s f)))

/-- A word of M that enters the window without an operand. -/
def winWord (i : Instr) (effs : List Eff) (b : Bank) : Res Bank :=
  if !b.winRoom then .stall else .ok (b.enterWin i none none) (b.winPlain effs)

/-! ## Words -/

/-- `MX.SHAPE` (10 R350). -/
def execMxShape (m : Dep) (rm1 cm1 : Fin 32) (nq nd : Bool) (s : State) : Out :=
  matrixWord (.mxShape m rm1 cm1 nq nd) s (fun b =>
    let g := mxGrant (rm1.val + 1) (cm1.val + 1)
    let eq : Bool := g == (rm1.val + 1, cm1.val + 1)
    let w := b.engs.M.walk
    if (!nq && !b.room .cq 1) || (!nd && !b.room .ds 1) then .stall
    else
      let b := if nq then b else b.reserve .cq w (bitReg eq)
      let b := if nd then b else b.reserve .ds w (BitVec.ofNat 64 (g.1 + 256 * g.2 + 65536 * bit eq))
      winWord (.mxShape m rm1 cm1 nq nd)
        ((if nq then [] else [.vis .cq w]) ++ (if nd then [] else [.vis .ds w]) ++ [.csr 0x201 (BitVec.ofNat 64 (g.1 + 256 * g.2))]) b)

/-- The semaphore of a pass and its value. -/
def semUse {n : Nat} (x : Option (SemUse n)) : Option (Fin 32 × Nat) := x.map (fun u => (u.sem, u.vm1.val + 1))

/-- The effects of a pass at retirement (10 R343). -/
def passEffs (ka kb : Bool) (sg : Option (Fin 32 × Nat)) (oa ob : Opnd) (w : Nat) : List Eff :=
  (match sg with | some (n, v) => [.sem n v] | none => []) ++ popEff ka oa w ++ popEff kb ob w

/-- `MX.MMA` (10 R352, R353). -/
def execMxMma (m : Dep) (acc : Fin 1024) (ga gb : Fin 16) (ka kb : Bool) (w : Option (SemUse 16)) (sg : Option (SemUse 8)) (set : Bool)
    (s : State) : Out :=
  let i : Instr := .mxMma m acc ga gb ka kb w sg set
  matrixWord i s (passIssue i ga gb false (semUse w) (passEffs ka kb (semUse sg)))

/-- `MX.GER` (10 R352, R354). -/
def execMxGer (m : Dep) (acc : Fin 1024) (ga gb : Fin 16) (ka kb : Bool) (w : Option (SemUse 16)) (sg : Option (SemUse 8)) (set : Bool)
    (s : State) : Out :=
  let i : Instr := .mxGer m acc ga gb ka kb w sg set
  matrixWord i s (passIssue i ga gb true (semUse w) (passEffs ka kb (semUse sg)))

/-- `MX.BATCH` (10 R354): each pass pops its slots when it finishes. -/
def execMxBatch (m : Dep) (acc : Fin 1024) (ga gb : Fin 16) (nm1 : Fin 16) (ka kb set : Bool) (s : State) : Out :=
  let i : Instr := .mxBatch m acc ga gb nm1 ka kb set
  matrixWord i s (passIssue i ga gb false none (fun _ _ _ => []))

/-- `MX.ZERO` (10 R358). -/
def execMxZero (m : Dep) (acc : Fin 1024) (s : State) : Out := matrixWord (.mxZero m acc) s (winWord (.mxZero m acc) [])

/-- `MX.TRN` (10 R358). -/
def execMxTrn (m : Dep) (acc : Fin 1024) (s : State) : Out := matrixWord (.mxTrn m acc) s (winWord (.mxTrn m acc) [])

/-- `MX.ACCMOV` (10 R358). -/
def execMxAccmov (m : Dep) (d src : Fin 1024) (swap : Bool) (s : State) : Out :=
  matrixWord (.mxAccmov m d src swap) s (winWord (.mxAccmov m d src swap) [])

/-- `MX.ACCADD` (10 R358). -/
def execMxAccadd (m : Dep) (d src : Fin 1024) (int neg : Bool) (s : State) : Out :=
  matrixWord (.mxAccadd m d src int neg) s (winWord (.mxAccadd m d src int neg) [])

/-- The checks of a tile word that follow its ring (10 R355, R359). -/
def tileFault (o : Opnd) (r : Ring) : Option FCode :=
  let d := tdescOf o.tdr
  if !([0, 1, 2, 3, 4, 5, 6, 7, 8, 9, 0xB].contains d.fmt) then some .mfmt
  else if 32 < dimOf d.win 0 || 32 < dimOf d.win 1 || !d.flat 2 then some .mshape
  else if !o.fits r then some .ring
  else none

/-- `MX.LDACC` (10 R359). -/
def execMxLdacc (m : Dep) (acc : Fin 1024) (g : Fin 16) (kp add z : Bool) (s : State) : Out :=
  let i : Instr := .mxLdacc m acc g kp add z
  matrixWord i s (fun b =>
    if !b.winRoom then .stall
    else match b.mOp g with
      | .stall => .stall
      | .fault f => .fault f 0
      | .ok o r => match tileFault o r with
        | some f => .fault f 0
        | none => .ok (b.enterWin i (some o) none) (b.winPlain (popEff kp o b.engs.M.walk)))

/-- `MX.STACC` (10 R341, R359): in mode C the tail slot is reserved at issue. -/
def execMxStacc (m : Dep) (acc : Fin 1024) (g : Fin 16) (rm : RMode) (ov : Ov) (z : Bool) (s : State) : Out :=
  let i : Instr := .mxStacc m acc g rm ov z
  matrixWord i s (fun b =>
    let w := b.engs.M.walk
    if !b.winRoom then .stall
    else match b.named .M g (fun r => r.prod == .m) with
      | .stall => .stall
      | .fault => .fault .ring 0
      | .ok r =>
        match b.mbind g with
        | none => .fault .mbind 0
        | some x =>
          let o : Opnd := ⟨g, x.tdr, x.scale, b.opSrc .M r⟩
          match tileFault o r with
          | some f => .fault f 0
          | none =>
            if r.modeR then .ok (b.enterWin i (some o) none) (b.winPlain [])
            else if r.slotSt r.tail ≠ .empty then .stall
            else
              let o := { o with src := .buf (r.slotBase r.tail) }
              .ok ((b.setRing g (r.reserve [r.slotBytes r.tail])).enterWin i (some o) none) (b.winPlain [.ringFull g w r.tail]))

/-- `MX.CSEQ` (10 R356). -/
def execMxCseq (m : Dep) (imm : BitVec 32) (s : State) : Out :=
  matrixWord (.mxCseq m imm) s (winWord (.mxCseq m imm) [])

/-- `MX.MODE` (10 R357). -/
def execMxMode (m : Dep) (negp za zb : Bool) (s : State) : Out :=
  matrixWord (.mxMode m negp za zb) s (winWord (.mxMode m negp za zb) [])

/-- A ring at either of whose ends M stands. -/
def Ring.ofM (r : Ring) : Bool := r.prod == .m || r.cons == .m

/-- A word that gives a ring a binding enters the window with it. -/
def Bank.enterBind (b : Bank) (i : Instr) (g : Fin 16) (x : RBind) : Res Bank :=
  .ok (b.enterWin i (some ⟨g, x.tdr, x.scale, .idle⟩) none) (b.winPlain [])

/-- `MX.RING` (10 R345). -/
def execMxRing (m : Dep) (td : Fin 64) (g : Fin 16) (s : State) : Out :=
  matrixWord (.mxRing m td g) s (fun b =>
    if !b.winRoom || b.engs.A.walk < b.engs.M.walk then .stall
    else match recFault (b.td td) none with
      | some f => .fault f 0
      | none => match b.named .M g Ring.ofM with
        | .stall => .stall
        | .fault => .fault .ring 0
        | .ok _ => b.enterBind (.mxRing m td g) g ⟨b.td td, none⟩)

/-- `MX.POP` (10 R360): it waits for its slot as it retires (09 R306). -/
def execMxPop (m : Dep) (g : Fin 16) (s : State) : Out :=
  let i : Instr := .mxPop m g
  matrixWord i s (fun b =>
    if !b.winRoom then .stall
    else match b.named .M g (fun r => r.cons == .m) with
      | .stall => .stall
      | .fault => .fault .ring 0
      | .ok r =>
        .ok (b.enterWin i none none) (b.winPlain (if r.modeR then [] else [.ringPop g b.engs.M.walk])))

/-- A word that changes a ring's binding (10 R348, R349). -/
def bindWord (i : Instr) (g : Fin 16) (f : RBind → Option RBind) (b : Bank) : Res Bank :=
  if !b.winRoom then .stall
  else match b.named .M g Ring.ofM with
    | .stall => .stall
    | .fault => .fault .ring 0
    | .ok _ => match b.mbind g with
      | none => .fault .mbind 0
      | some x => match f x with
        | none => .fault .mfmt 0
        | some y => b.enterBind i g y

/-- A record under another element format. -/
def withFmt (t : List Reg64) (fmt : Nat) : List Reg64 :=
  listSet t 0 (BitVec.ofNat 64 (tq t 0 / 256 * 256 + fmt))

/-- `MX.FMT` (10 R348). -/
def execMxFmt (m : Dep) (g : Fin 16) (fmt : TFmt) (s : State) : Out :=
  matrixWord (.mxFmt m g fmt) s (bindWord (.mxFmt m g fmt) g (fun x =>
    let old := (tdescOf x.tdr).fmt
    let new := tfmtCode fmt
    let in' (l : List Nat) : Bool := l.contains old && l.contains new
    if in' [0, 8, 9] || in' [1, 4, 5] then some { x with tdr := withFmt x.tdr new } else none))

/-- `MX.SCALE` (10 R349). -/
def execMxScale (m : Dep) (g : Fin 16) (val : Option (BitVec 16)) (s : State) : Out :=
  matrixWord (.mxScale m g val) s (bindWord (.mxScale m g val) g (fun x =>
    if [8, 9, 0xA].contains (tdescOf x.tdr).fmt then some { x with scale := val } else none))

/-- `MX.SEM.wait` (10 R361). -/
def execMxSemWait (m : Dep) (sem : Fin 32) (val : BitVec 11) (s : State) : Out :=
  matrixWord (.mxSemWait m sem val) s (fun b =>
    if !b.winRoom then .stall
    else match b.semTake (some (sem, val.toNat)) with
      | .error r => r
      | .ok b => winWord (.mxSemWait m sem val) [] b)

/-- `MX.SEM.sig` (10 R361). -/
def execMxSemSig (m : Dep) (sem : Fin 32) (val : BitVec 11) (s : State) : Out :=
  matrixWord (.mxSemSig m sem val) s (winWord (.mxSemSig m sem val) [.sem sem val.toNat])

/-- `MX.STAT` (10 R363): it pushes the status as the earlier words left it. -/
def execMxStat (m : Dep) (clr : Bool) (s : State) : Out :=
  let i : Instr := .mxStat m clr
  matrixWord i s (fun b =>
    let w := b.engs.M.walk
    if !b.room .ds 1 then .stall else winWord i [.stat .M clr w, .vis .ds w] (b.reserve .ds w 0))

/-- `MATRIX_PASS_START`: M goes one move on; the word at the head of the window starts, and once started finishes, here (10 R342 to R344). -/
def execMatrixPassStart (l : Loc) (s : State) : Out := eccNote l s (.next (s.onBank l (fun b => b.stepM l)))

end Sys2Proof.Machine
end

