-- ==== Sys2Proof/Machine/Vector.lean ====
section
/-!
DEFINITION. The vector class (08): element-wise arithmetic, integers and bitwise words, compares and predicates, reductions, moves and
permutations, conversion, seeds, VX4 quantisation, conditional streams and accumulator access.
-/

namespace Sys2Proof

/-- The floating-point format of an element type (08 R266); FP64 for the types that have none. -/
def VTy.ffmt : VTy → Machine.FFmt
  | .fp16 => Machine.fp16F
  | .bf16 => Machine.bf16F
  | .fp32 => Machine.fp32F
  | .fp64 | .i16 | .i32 | .i64 => Machine.fp64F

/-- The number of an element type (08 R266). -/
def VTy.code : VTy → Nat
  | .i16 => 0 | .i32 => 1 | .i64 => 2 | .fp16 => 3 | .bf16 => 4 | .fp32 => 5 | .fp64 => 6

/-- The floating-point format of a conversion type (08 R286). -/
def CTy.ffmt : CTy → Machine.FFmt
  | .fp16 => Machine.fp16F
  | .bf16 => Machine.bf16F
  | .fp32 => Machine.fp32F
  | .e5m2 => Machine.e5m2F
  | .e4m3 => Machine.e4m3F
  | .fp64 | .i8 | .i16 | .i32 | .i64 => Machine.fp64F

/-- The floating-point format of an accumulator line (08 R294). -/
def AccTy.ffmt : AccTy → Machine.FFmt
  | .fp32 => Machine.fp32F
  | .bf16 => Machine.bf16F
  | .fp16 => Machine.fp16F
  | .fp64 | .i64 | .i32 => Machine.fp64F

/-- The rounding mode of a rounding source. -/
def VRnd.mode' : VRnd → RMode
  | .mode rm => rm
  | .sr _ => .sr

end Sys2Proof

namespace Sys2Proof.Machine

/-! ## The shape of a V word (08 R266 to R269) -/

/-- A word of V at the cursor: it waits while an earlier word has still to write what it reads or writes (08 R269). -/
def vecWord (i : Instr) (s : State) (f : Bank → Res Bank) : Out :=
  bankWord i s (fun b => if b.pending .V (Instr.vcodes i) then .stall else f b)

/-- A source taken, then the rest of the word. -/
def withV (b : Bank) (a : VSrc) (f : VecReg → Bank → Res Bank) : Res Bank :=
  match b.takeV a with
  | .stall => .stall
  | .fault => .fault .stream 0
  | .ok x b => f x b

/-- What a word leaves that does `effs` as it retires, raises flags then, and has still to write what the codes name (08 R268). -/
def laterV (effs : List Eff) (f : FlagBits) (writes : List Nat) (p : Plain) : Plain :=
  { p with effs := effs ++ p.effs ++ [.flags .V f], writes := writes ++ p.writes }

/-- A result with its flags for a destination of V, if it has room. -/
def intoV (b : Bank) (d : VDst) (x : VecReg) (f : FlagBits) (p : Plain) : Res Bank :=
  match b.roomV d with
  | .stall => .stall
  | .fault => .fault .stream 0
  | .ok => .ok (b.takeDst d) (laterV [b.dstEff x d] f (VDst.codes d) p)

/-- Elements with flags, and the flags of all of them. -/
def allFlags (l : List (Nat × FlagBits)) : FlagBits := l.foldl (fun f x => f ||| x.2) 0

/-- A register of elements that carry flags. -/
def vecOfF (w : Nat) (l : List (Nat × FlagBits)) : VecReg := vecOf w (l.map (·.1))

/-- The body of the element-wise words (08 R268): active elements take `f`, the others are zeroed or kept. -/
def vBody (ctl : VCtl) (w : Nat) (d : VDst) (b : Bank) (f : Nat → Nat × FlagBits) : Res Bank :=
  let k := b.kreg ctl.k
  let old := b.oldV d
  let r := (upTo (4096 / w)).map (fun i =>
    if k.getLsbD i then f i else if ctl.zm then (0, 0) else (elemOf old w i, 0))
  intoV b d (vecOfF w r) (allFlags r) {}

/-- An element-wise word of one source. -/
def vec1 (ctl : VCtl) (w : Nat) (d : VDst) (a : VSrc) (f : Nat → Nat × FlagBits) (b : Bank) : Res Bank :=
  withV b a (fun x b => vBody ctl w d b (fun i => f (elemOf x w i)))

/-- An element-wise word of two sources. -/
def vec2 (ctl : VCtl) (w : Nat) (d : VDst) (a c : VSrc) (f : Nat → Nat → Nat × FlagBits) (b : Bank) : Res Bank :=
  withV b a (fun x b => withV b c (fun y b => vBody ctl w d b (fun i => f (elemOf x w i) (elemOf y w i))))

/-! ## Arithmetic (08 R271, R272) -/

/-- An operation of two floats rounded once. -/
def flop2 (t : VTy) (rm : RMode) (op : Fl → Fl → Fl × FlagBits) (x y : Nat) : Nat × FlagBits :=
  let r := op (t.ffmt.read x) (t.ffmt.read y)
  let q := t.ffmt.round rm 0 r.1
  (q.1, r.2 ||| q.2)

/-- `VADD` (08 R271). -/
def execVadd (m : Dep) (ctl : VCtl) (ty : VTy) (rm : RMode) (d : VDst) (a b : VSrc) (s : State) : Out :=
  vecWord (.vadd m ctl ty rm d a b) s (vec2 ctl ty.width d a b (flop2 ty rm (Fl.add rm)))

/-- `VSUB` (08 R271). -/
def execVsub (m : Dep) (ctl : VCtl) (ty : VTy) (rm : RMode) (d : VDst) (a b : VSrc) (s : State) : Out :=
  vecWord (.vsub m ctl ty rm d a b) s (vec2 ctl ty.width d a b (flop2 ty rm (fun x y => Fl.add rm x y.negate)))

/-- `VMUL` (08 R271). -/
def execVmul (m : Dep) (ctl : VCtl) (ty : VTy) (rm : RMode) (d : VDst) (a b : VSrc) (s : State) : Out :=
  vecWord (.vmul m ctl ty rm d a b) s (vec2 ctl ty.width d a b (flop2 ty rm Fl.mul))

/-- A value negated under a flag. -/
def Fl.negIf (n : Bool) (x : Fl) : Fl := if n then x.negate else x

/-- The function of `VFMA` on one element. -/
def fmaElem (t : VTy) (rm : RMode) (np nc : Bool) (x y z : Nat) : Nat × FlagBits :=
  let r := Fl.fma rm (Fl.negIf np (t.ffmt.read x)) (t.ffmt.read y) (Fl.negIf nc (t.ffmt.read z))
  let q := t.ffmt.round rm 0 r.1
  (q.1, r.2 ||| q.2)

/-- `VFMA` (08 R271). -/
def execVfma (m : Dep) (ctl : VCtl) (ty : VTy) (rm : RMode) (np nc : Bool) (d : VDst) (a b c : VSrc) (s : State) : Out :=
  vecWord (.vfma m ctl ty rm np nc d a b c) s (fun k =>
    withV k a (fun x k => withV k b (fun y k => withV k c (fun z k =>
      vBody ctl ty.width d k (fun i =>
        fmaElem ty rm np nc (elemOf x ty.width i) (elemOf y ty.width i) (elemOf z ty.width i))))))

/-- The lesser or the greater of two elements (08 R272). -/
def pickElem (t : VTy) (z less : Bool) (x y : Nat) : Nat × FlagBits :=
  if t.isFloat then
    let r := (if less then flMin else flMax) (t.ffmt.read x) (t.ffmt.read y)
    ((t.ffmt.round .rne 0 r.1).1, r.2)
  else
    let p := intOf z t.width x
    let q := intOf z t.width y
    ((if less then (if q < p then y else x) else (if p < q then y else x)), 0)

/-- `VMIN` (08 R272). -/
def execVmin (m : Dep) (ctl : VCtl) (ty : VTy) (z : Bool) (d : VDst) (a b : VSrc) (s : State) : Out :=
  vecWord (.vmin m ctl ty z d a b) s (vec2 ctl ty.width d a b (pickElem ty z true))

/-- `VMAX` (08 R272). -/
def execVmax (m : Dep) (ctl : VCtl) (ty : VTy) (z : Bool) (d : VDst) (a b : VSrc) (s : State) : Out :=
  vecWord (.vmax m ctl ty z d a b) s (vec2 ctl ty.width d a b (pickElem ty z false))

/-- A float with its sign put, no flag raised; a NaN becomes the canonical one (08 R272). -/
def signElem (t : VTy) (f : Bool → Bool) (x : Nat) : Nat × FlagBits :=
  let w := t.width
  if (t.ffmt.read x).isNan then (t.ffmt.canon, 0)
  else (x % 2 ^ (w - 1) + bit (f (bitAt x (w - 1))) * 2 ^ (w - 1), 0)

/-- `abs` of an element (08 R272). -/
def absElem (t : VTy) (z : Bool) (x : Nat) : Nat × FlagBits :=
  if t.isFloat then signElem t (fun _ => false) x else (wrapTo t.width (intOf z t.width x).natAbs, 0)

/-- The negation of an element (08 R272). -/
def negElem (t : VTy) (x : Nat) : Nat × FlagBits :=
  if t.isFloat then signElem t not x else (wrapTo t.width (-(x : Int)), 0)

/-- `VABS` (08 R272). -/
def execVabs (m : Dep) (ctl : VCtl) (ty : VTy) (z : Bool) (d : VDst) (a : VSrc) (s : State) : Out :=
  vecWord (.vabs m ctl ty z d a) s (vec1 ctl ty.width d a (absElem ty z))

/-- `VNEG` (08 R272). -/
def execVneg (m : Dep) (ctl : VCtl) (ty : VTy) (z : Bool) (d : VDst) (a : VSrc) (s : State) : Out :=
  vecWord (.vneg m ctl ty z d a) s (vec1 ctl ty.width d a (negElem ty))

/-! ## Integers and bits (08 R273) -/

/-- An integer operation, saturated or wrapped (08 R273). -/
def intop2 (t : VTy) (z sat : Bool) (op : Int → Int → Int) (x y : Nat) : Nat × FlagBits :=
  narrow (if sat then .sat else .wrap) z t.width (op (intOf z t.width x) (intOf z t.width y))

/-- `VIADD` (08 R273). -/
def execViadd (m : Dep) (ctl : VCtl) (ty : VTy) (z sat : Bool) (d : VDst) (a b : VSrc) (s : State) : Out :=
  vecWord (.viadd m ctl ty z sat d a b) s (vec2 ctl ty.width d a b (intop2 ty z sat (· + ·)))

/-- `VISUB` (08 R273). -/
def execVisub (m : Dep) (ctl : VCtl) (ty : VTy) (z sat : Bool) (d : VDst) (a b : VSrc) (s : State) : Out :=
  vecWord (.visub m ctl ty z sat d a b) s (vec2 ctl ty.width d a b (intop2 ty z sat (· - ·)))

/-- The high half of a product (08 R273). -/
def mulHi (t : VTy) (z : Bool) (x y : Nat) : Nat × FlagBits :=
  (wrapTo (2 * t.width) (intOf z t.width x * intOf z t.width y) / 2 ^ t.width, 0)

/-- `VIMUL` (08 R273). -/
def execVimul (m : Dep) (ctl : VCtl) (ty : VTy) (z sat hi : Bool) (d : VDst) (a b : VSrc) (s : State) : Out :=
  vecWord (.vimul m ctl ty z sat hi d a b) s
    (vec2 ctl ty.width d a b (if hi then mulHi ty z else intop2 ty z sat (· * ·)))

/-- `VAND` (08 R273). -/
def execVand (m : Dep) (ctl : VCtl) (ty : VTy) (d : VDst) (a b : VSrc) (s : State) : Out :=
  vecWord (.vand m ctl ty d a b) s (vec2 ctl ty.width d a b (fun x y => (x &&& y, 0)))

/-- `VOR` (08 R273). -/
def execVor (m : Dep) (ctl : VCtl) (ty : VTy) (d : VDst) (a b : VSrc) (s : State) : Out :=
  vecWord (.vor m ctl ty d a b) s (vec2 ctl ty.width d a b (fun x y => (x ||| y, 0)))

/-- `VXOR` (08 R273). -/
def execVxor (m : Dep) (ctl : VCtl) (ty : VTy) (d : VDst) (a b : VSrc) (s : State) : Out :=
  vecWord (.vxor m ctl ty d a b) s (vec2 ctl ty.width d a b (fun x y => (x ^^^ y, 0)))

/-- A left shift of an element (08 R273). -/
def shlElem (w x y : Nat) : Nat × FlagBits := ((if y < w then x * 2 ^ y % 2 ^ w else 0), 0)

/-- `VSHL` (08 R273). -/
def execVshl (m : Dep) (ctl : VCtl) (ty : VTy) (d : VDst) (a b : VSrc) (s : State) : Out :=
  vecWord (.vshl m ctl ty d a b) s (vec2 ctl ty.width d a b (shlElem ty.width))

/-- A right shift of an element, arithmetic or logical (08 R273). -/
def shrElem (z : Bool) (w x y : Nat) : Nat × FlagBits :=
  if z then ((if y < w then x / 2 ^ y else 0), 0)
  else (wrapTo w (signedOf w x / (2 ^ (min y w) : Nat)), 0)

/-- `VSHR` (08 R273). -/
def execVshr (m : Dep) (ctl : VCtl) (ty : VTy) (z : Bool) (d : VDst) (a b : VSrc) (s : State) : Out :=
  vecWord (.vshr m ctl ty z d a b) s (vec2 ctl ty.width d a b (shrElem z ty.width))

/-! ## Compares, predicates and selection (08 R274 to R279) -/

/-- A relation of two elements and its flags (08 R274). -/
def cmpElem (t : VTy) (z : Bool) (cc : VCond) (x y : Nat) : Bool × FlagBits :=
  if t.isFloat then
    let p := t.ffmt.read x
    let q := t.ffmt.read y
    let nan := p.isNan || q.isNan
    let quiet := p.snan ||| q.snan
    let c := p.cmp q
    match cc with
    | .eq => (!nan && c == 0, quiet)
    | .ne => (nan || c != 0, quiet)
    | .lt => (!nan && c < 0, flagIf nan fNV)
    | .le => (!nan && c ≤ 0, flagIf nan fNV)
    | .gt => (!nan && 0 < c, flagIf nan fNV)
    | .ge => (!nan && 0 ≤ c, flagIf nan fNV)
    | .un => (nan, quiet)
    | .ord => (!nan, quiet)
  else
    let p := intOf z t.width x
    let q := intOf z t.width y
    match cc with
    | .eq => (p == q, 0)
    | .ne => (p != q, 0)
    | .lt => (p < q, 0)
    | .le => (p ≤ q, 0)
    | .gt => (q < p, 0)
    | .ge => (q ≤ p, 0)
    | .un => (false, 0)
    | .ord => (true, 0)

/-- A predicate register from bits. -/
def predOf (l : List Bool) : Reg256 := BitVec.ofNat 256 (l.foldr (fun c n => bit c + 2 * n) 0)

/-- The result bits of a compare, with flags; inactive elements are none (08 R274). -/
def cmpBits (t : VTy) (z : Bool) (cc : VCond) (k : Reg256) (x y : VecReg) : List (Option (Bool × FlagBits)) :=
  (upTo t.elems).map (fun i =>
    if k.getLsbD i then some (cmpElem t z cc (elemOf x t.width i) (elemOf y t.width i)) else none)

/-- What a compare leaves: the predicate and the flags. -/
def cmpInto (kd : Fin 8) (l : List (Option (Bool × FlagBits))) (p : Plain) : Plain :=
  laterV [.kreg kd (predOf (l.map (fun x => (x.map (·.1)).getD false)))] (l.foldl (fun f x => f ||| (x.map (·.2)).getD 0) 0)
    [32 + kd.val] p

/-- `VCMP` (08 R274). -/
def execVcmp (m : Dep) (k : Fin 8) (ty : VTy) (z : Bool) (cc : VCond) (kd : Fin 8) (a b : VSrc) (s : State) : Out :=
  vecWord (.vcmp m k ty z cc kd a b) s (fun n =>
    withV n a (fun x n => withV n b (fun y n => .ok n (cmpInto kd (cmpBits ty z cc (n.kreg k) x y) {}))))

/-- `VCMPQ` (08 R275). -/
def execVcmpq (m : Dep) (k : Fin 8) (ty : VTy) (z all : Bool) (cc : VCond) (kd : Fin 8) (a b : VSrc) (s : State) : Out :=
  vecWord (.vcmpq m k ty z all cc kd a b) s (fun n =>
    if !n.room .cq 1 then .stall
    else withV n a (fun x n => withV n b (fun y n =>
      let l := cmpBits ty z cc (n.kreg k) x y
      let hits := (l.filterMap id).map (·.1)
      let c := if all then hits.all id else hits.any id
      let w := n.engs.V.walk
      .ok (n.reserve .cq w (bitReg c)) (cmpInto kd l { effs := [.vis .cq w] }))))

/-- `VSEL` (08 R276). -/
def execVsel (m : Dep) (k : Fin 8) (ty : VTy) (d : VDst) (a b : VSrc) (s : State) : Out :=
  vecWord (.vsel m k ty d a b) s (fun n =>
    withV n a (fun x n => withV n b (fun y n =>
      let p := n.kreg k
      intoV n d (vecOf ty.width ((upTo ty.elems).map (fun i => elemOf (if p.getLsbD i then x else y) ty.width i))) 0 {})))

/-- `VSETL` (08 R277). -/
def execVsetl (m : Dep) (xc : Fin 4) (kd : Fin 8) (imm : BitVec 64) (s : State) : Out :=
  vecWord (.vsetl m xc kd imm) s (fun n =>
    .ok n (laterV [.kreg kd (predOf ((upTo 256).map (fun i : Nat => decide ((i : Int) < imm.toInt))))] 0 [32 + kd.val] {}))

/-- An optional push of one entry into `ds` by a word of V (04 R102). -/
def pushDs (q : Bool) (n : Bank) (v : Reg64) (f : Bank → Plain → Res Bank) : Res Bank :=
  if !q then f n {}
  else if !n.room .ds 1 then .stall
  else f (n.reserve .ds n.engs.V.walk v) { effs := [.vis .ds n.engs.V.walk] }

/-- The number of ones among the first `n` bits of a predicate. -/
def ones (k : Reg256) (n : Nat) : Nat := ((upTo n).filter (fun i => k.getLsbD i)).length

/-- `VCNT` (08 R278). -/
def execVcnt (m : Dep) (ty : VTy) (q : Bool) (d : VDst) (ka : Fin 8) (s : State) : Out :=
  vecWord (.vcnt m ty q d ka) s (fun n =>
    let c := ones (n.kreg ka) ty.elems
    pushDs q n (BitVec.ofNat 64 c) (fun n p => intoV n d (vecOf ty.width (List.replicate ty.elems c)) 0 p))

/-- `VIOTA` (08 R279). -/
def execViota (m : Dep) (ctl : VCtl) (ty : VTy) (pfx : Bool) (d : VDst) (s : State) : Out :=
  vecWord (.viota m ctl ty pfx d) s (fun n =>
    if pfx then
      let k := n.kreg ctl.k
      intoV n d (vecOf ty.width ((upTo ty.elems).map (fun i => ones k i))) 0 {}
    else vBody ctl ty.width d n (fun i => (i % 2 ^ ty.width, 0)))

/-! ## Reductions (08 R280, 03 R98) -/

/-- One level of the tree. -/
def reduceLevel (op : Nat → Nat → Nat × FlagBits) : List (Option Nat) → List (Option Nat) × FlagBits
  | x :: y :: t =>
    let r := reduceLevel op t
    match x, y with
    | some p, some q => let v := op p q; (some v.1 :: r.1, v.2 ||| r.2)
    | none, y => (y :: r.1, r.2)
    | x, none => (x :: r.1, r.2)
  | [x] => ([x], 0)
  | [] => ([], 0)

/-- Levels of the tree. -/
def reduceTree (op : Nat → Nat → Nat × FlagBits) : Nat → List (Option Nat) → List (Option Nat) × FlagBits
  | 0, l => (l, 0)
  | n + 1, l =>
    let r := reduceLevel op l
    let q := reduceTree op n r.1
    (q.1, r.2 ||| q.2)

/-- The reduction of a register (03 R98). -/
def reduceVec (t : VTy) (k : Reg256) (x : VecReg) (ident : Nat) (op : Nat → Nat → Nat × FlagBits) : Nat × FlagBits :=
  let l := (upTo t.elems).map (fun i => if k.getLsbD i then some (elemOf x t.width i) else none)
  let r := reduceTree op (log2 t.elems) l
  (((r.1.head?).getD none).getD ident, r.2)

/-- A reduction's result written, and pushed with `.q` (08 R280). -/
def reduceInto (t : VTy) (z q : Bool) (d : VDst) (r : Nat × FlagBits) (n : Bank) : Res Bank :=
  let v := if t.isFloat || z then zext64 t.width r.1 else sext64 t.width r.1
  pushDs q n v (fun n p => intoV n d (vecOf t.width [r.1]) r.2 p)

/-- The node of `VRSUM` (08 R280). -/
def sumNode (t : VTy) (z : Bool) (rm : RMode) (sat : Bool) : Nat → Nat → Nat × FlagBits :=
  if t.isFloat then flop2 t rm (Fl.add rm) else intop2 t z sat (· + ·)

/-- `VRSUM` (08 R280). -/
def execVrsum (m : Dep) (k : Fin 8) (ty : VTy) (z : Bool) (rm : RMode) (q sat : Bool) (d : VDst) (a : VSrc) (s : State) : Out :=
  vecWord (.vrsum m k ty z rm q sat d a) s (fun n =>
    withV n a (fun x n => reduceInto ty z q d (reduceVec ty (n.kreg k) x 0 (sumNode ty z rm sat)) n))

/-- The identity of `VRMAX` (08 R280). -/
def maxIdent (t : VTy) (z : Bool) : Nat := if t.isFloat then t.ffmt.infBits true else wrapTo t.width (intRange z t.width).1

/-- `VRMAX` (08 R280). -/
def execVrmax (m : Dep) (k : Fin 8) (ty : VTy) (z q : Bool) (d : VDst) (a : VSrc) (s : State) : Out :=
  vecWord (.vrmax m k ty z q d a) s (fun n =>
    withV n a (fun x n => reduceInto ty z q d (reduceVec ty (n.kreg k) x (maxIdent ty z) (pickElem ty z false)) n))

/-! ## Moves, broadcasts and permutations (08 R281 to R285) -/

/-- One lane of a source pushed into a queue (08 R281). -/
def pushLane (q : QName) (a : VSrc) (lane : Fin 64) (n : Bank) : Res Bank :=
  if !n.room q 1 then .stall
  else withV n a (fun x n =>
    .ok (n.reserve q n.engs.V.walk (BitVec.ofNat 64 (elemOf x 64 lane.val))) { effs := [.vis q n.engs.V.walk] })

/-- `VMOV` (08 R281). -/
def execVmov (m : Dep) (form : VmovForm) (s : State) : Out :=
  vecWord (.vmov m form) s (fun n =>
    match form with
    | .copy ctl ty d a => vec1 ctl ty.width d a (fun x => (x, 0)) n
    | .ds a lane => pushLane .ds a lane n
    | .da a lane => pushLane .da a lane n
    | .fz d z => intoV n d ((n.zreg z).zeroExtend 4096) 0 {}
    | .tz z a => withV n a (fun x n => .ok n (laterV [.zreg z (x.truncate 256)] 0 [64 + z.val] {}))
    | .fk d k => intoV n d ((n.kreg k).zeroExtend 4096) 0 {}
    | .tk k a => withV n a (fun x n => .ok n (laterV [.kreg k (x.truncate 256)] 0 [32 + k.val] {})))

/-- `VBCAST` (08 R282). -/
def execVbcast (m : Dep) (xc : Fin 4) (d : VDst) (imm : BitVec 64) (s : State) : Out :=
  vecWord (.vbcast m xc d imm) s (fun n => intoV n d (splat imm) 0 {})

/-- Several entries of `dv` taken in order. -/
def Bank.takeDv (b : Bank) : Nat → Option (List Reg64 × Bank)
  | 0 => some ([], b)
  | n + 1 =>
    match b.peek .dv b.engs.V.walk with
    | none => none
    | some v => ((b.drop .dv).takeDv n).map (fun r => (v :: r.1, r.2))

/-- `VPOPQ` (08 R283). -/
def execVpopq (m : Dep) (ctl : VCtl) (count : Fin 32) (d : VDst) (s : State) : Out :=
  vecWord (.vpopq m ctl count d) s (fun n =>
    match n.takeDv count.val with
    | none => .stall
    | some (vs, n) =>
      let k := n.kreg ctl.k
      let old := n.oldV d
      intoV n d (vecOf 64 ((upTo 64).map (fun j =>
        if j < count.val && k.getLsbD j then (vs.getD j 0).toNat else if ctl.zm then 0 else elemOf old 64 j))) 0 {})

/-- `VPERM` (08 R284). -/
def execVperm (m : Dep) (ctl : VCtl) (ty : VTy) (d : VDst) (a b : VSrc) (s : State) : Out :=
  vecWord (.vperm m ctl ty d a b) s (fun n =>
    withV n a (fun x n => withV n b (fun y n =>
      vBody ctl ty.width d n (fun i =>
        let t := elemOf y ty.width i
        ((if t < ty.elems then elemOf x ty.width t else 0), 0)))))

/-- The element that a shuffle gives (08 R285); `x` and `y` are the sources. -/
def shufElem (t : VTy) (x y : VecReg) (i : Nat) : ShufKind → Nat
  | .ilvlo _ => if i % 2 = 0 then elemOf x t.width (i / 2) else elemOf y t.width (i / 2)
  | .ilvhi _ => if i % 2 = 0 then elemOf x t.width (t.elems / 2 + i / 2) else elemOf y t.width (t.elems / 2 + i / 2)
  | .even _ => if i < t.elems / 2 then elemOf x t.width (2 * i) else elemOf y t.width (2 * (i - t.elems / 2))
  | .odd _ => if i < t.elems / 2 then elemOf x t.width (2 * i + 1) else elemOf y t.width (2 * (i - t.elems / 2) + 1)
  | .xswap k => elemOf x t.width (i ^^^ 2 ^ k.val)
  | .rev => elemOf x t.width (t.elems - 1 - i)
  | .slide _ k => if i + k.val < t.elems then elemOf x t.width (i + k.val) else elemOf y t.width (i + k.val - t.elems)

/-- The second source of a shuffle. -/
def shufSrc : ShufKind → Option VSrc
  | .ilvlo b | .ilvhi b | .even b | .odd b | .slide b _ => some b
  | .xswap _ | .rev => none

/-- `VSHUF` (08 R285). -/
def execVshuf (m : Dep) (ctl : VCtl) (ty : VTy) (kind : ShufKind) (d : VDst) (a : VSrc) (s : State) : Out :=
  vecWord (.vshuf m ctl ty kind d a) s (fun n =>
    let go (x y : VecReg) (n : Bank) : Res Bank := vBody ctl ty.width d n (fun i => (shufElem ty x y i kind, 0))
    withV n a (fun x n => match shufSrc kind with
      | some b => withV n b (fun y n => go x y n)
      | none => go x 0 n))

/-! ## Conversion (08 R286; 03 R87 to R90) -/

/-- One value converted (03 R88 to R90). An integer to integer conversion that does not narrow is put into the destination's range in the same way: with
`.sat` it clamps with SAT (log entry 44, DEDUCED). -/
def convElem (dst src : CTy) (sz dz : Bool) (ov : Ov) (rm : RMode) (rb x : Nat) : Nat × FlagBits :=
  match src.isFloat, dst.isFloat with
  | true, true => dst.ffmt.round rm rb (src.ffmt.read x)
  | true, false => (src.ffmt.read x).toInt rm rb ov dz dst.width
  | false, true => dst.ffmt.round rm rb (Fl.ofInt (intOf sz src.width x))
  | false, false => narrow ov dz dst.width (intOf sz src.width x)

/-- The random field of a destination element (03 R87). -/
def rndField (r : VecReg) (i : Nat) : Nat := elemOf r 16 (i % 256)

/-- A random source taken, if the rounding has one. -/
def withRnd (b : Bank) (r : VRnd) (f : VecReg → Bank → Res Bank) : Res Bank :=
  match r with
  | .mode _ => f 0 b
  | .sr a => withV b a f

/-- `VCVT` (08 R286). -/
def execVcvt (m : Dep) (ctl : VCtl) (dst src : CTy) (sz dz : Bool) (ov : Ov) (part : Fin 8) (rnd : VRnd) (d : VDst) (a : VSrc) (s : State) : Out :=
  vecWord (.vcvt m ctl dst src sz dz ov part rnd d a) s (fun n =>
    withV n a (fun x n => withRnd n rnd (fun r n =>
      let ns := src.elems
      let nd := dst.elems
      let k := n.kreg ctl.k
      let old := n.oldV d
      let mm := min ns nd
      let s0 := if nd < ns then part.val * mm else 0
      let d0 := if ns < nd then part.val * mm else 0
      let res := (upTo nd).map (fun i =>
        if d0 ≤ i && i < d0 + mm then
          if k.getLsbD (i - d0) then convElem dst src sz dz ov rnd.mode' (rndField r i) (elemOf x src.width (s0 + (i - d0)))
          else if ctl.zm then (0, 0) else (elemOf old dst.width i, 0)
        else (elemOf old dst.width i, 0))
      intoV n d (vecOfF dst.width res) (allFlags res) {})))

/-! ## Seeds (08 R287) -/

/-- `2^12 / mid` to the nearest integer, `mid = (2^12 + 2i + 1) / 2^12`. -/
def rcpSeed (i : Nat) : Nat := let dd := 2 ^ 12 + 2 * i + 1; (2 ^ 25 + dd) / (2 * dd)

/-- The largest `r` below `2^n` with `r² ≤ x`, found bit by bit. -/
def isqrt (x : Nat) : Nat → Nat → Nat
  | 0, r => r
  | n + 1, r => isqrt x n (if (r + 2 ^ n) * (r + 2 ^ n) ≤ x then r + 2 ^ n else r)

/-- `2^12 / sqrt(mid)` to the nearest integer, `mid = (2^11 + 2i + 1) / 2^11`. -/
def rsqSeed (i : Nat) : Nat :=
  let dd := 2 ^ 11 + 2 * i + 1
  let q := isqrt (2 ^ 35 / dd) 13 0
  if (2 * q + 1) * (2 * q + 1) * dd < 2 ^ 37 then q + 1 else q

/-- The seed of a reciprocal (08 R287). -/
def rcpElem (t : VTy) (x : Nat) : Nat × FlagBits :=
  match t.ffmt.read x with
  | .nan s => (t.ffmt.canon, flagIf s fNV)
  | .inf n => t.ffmt.round .rne 0 (.fin n 0 1 0)
  | .fin n num den e =>
    if num = 0 then (t.ffmt.infBits n, fDZ)
    else
      let g := flog2 num den e
      let i := (scaled num den (e - g + 11)).1 - 2 ^ 11
      t.ffmt.round .rne 0 (.fin n (rcpSeed i) 1 (-12 - g))

/-- The seed of a reciprocal root (08 R287). -/
def rsqElem (t : VTy) (x : Nat) : Nat × FlagBits :=
  match t.ffmt.read x with
  | .nan s => (t.ffmt.canon, flagIf s fNV)
  | .inf n => if n then (t.ffmt.canon, fNV) else (0, 0)
  | .fin n num den e =>
    if num = 0 then (t.ffmt.infBits n, fDZ)
    else if n then (t.ffmt.canon, fNV)
    else
      let g := flog2 num den e
      let ee := g - g % 2
      let i := (scaled num den (e - ee + 10)).1 - 2 ^ 10
      t.ffmt.round .rne 0 (.fin false (rsqSeed i) 1 (-12 - ee / 2))

/-- `VRCPE` (08 R287). -/
def execVrcpe (m : Dep) (ctl : VCtl) (ty : VTy) (d : VDst) (a : VSrc) (s : State) : Out :=
  vecWord (.vrcpe m ctl ty d a) s (vec1 ctl ty.width d a (rcpElem ty))

/-- `VRSQE` (08 R287). -/
def execVrsqe (m : Dep) (ctl : VCtl) (ty : VTy) (d : VDst) (a : VSrc) (s : State) : Out :=
  vecWord (.vrsqe m ctl ty d a) s (vec1 ctl ty.width d a (rsqElem ty))

/-! ## VX4 quantisation (08 R288, R289; 03 R92) -/

/-- The band scale that a register holds. -/
def bandOf (y : VecReg) : Fl := bf16F.read (elemOf y 16 0)

/-- `VQMAX` (08 R289). -/
def execVqmax (m : Dep) (ty : VTy) (zd : Fin 8) (a b : VSrc) (s : State) : Out :=
  vecWord (.vqmax m ty zd a b) s (fun n =>
    withV n a (fun x n => withV n b (fun y n =>
      let r := (upTo (ty.elems / 8)).map (fun g =>
        quantScale ((upTo 8).map (fun j => ty.ffmt.read (elemOf x ty.width (8 * g + j)))) (bandOf y))
      .ok n (laterV [.zreg zd (BitVec.ofNat 256 (packElems 8 (r.map (·.1))))] (allFlags r) [64 + zd.val] {}))))

/-- Byte `g` of a scale register. -/
def scaleByte (z : Reg256) (g : Nat) : Nat := z.toNat / 2 ^ (8 * g) % 2 ^ 8

/-- `VQCVT` (08 R289). -/
def execVqcvt (m : Dep) (ty : VTy) (rnd : VRnd) (part : Fin 16) (zs : Fin 8) (d : VDst) (a b : VSrc) (s : State) : Out :=
  vecWord (.vqcvt m ty rnd part zs d a b) s (fun n =>
    withV n a (fun x n => withV n b (fun y n => withRnd n rnd (fun r n =>
      let z := n.zreg zs
      let old := n.oldV d
      let lo := part.val * ty.elems
      let res := (upTo 1024).map (fun t =>
        if lo ≤ t && t < lo + ty.elems then
          quantElem rnd.mode' (rndField r t) (scaleByte z ((t - lo) / 8)) (bandOf y) (ty.ffmt.read (elemOf x ty.width (t - lo)))
        else (elemOf old 4 t, 0))
      intoV n d (vecOfF 4 res) (allFlags res) {}))))

/-- `VDQ` (08 R289). -/
def execVdq (m : Dep) (ctl : VCtl) (ty : VTy) (rm : RMode) (part : Fin 16) (zs : Fin 8) (d : VDst) (a b : VSrc) (s : State) : Out :=
  vecWord (.vdq m ctl ty rm part zs d a b) s (fun n =>
    withV n a (fun x n => withV n b (fun y n =>
      let z := n.zreg zs
      vBody ctl ty.width d n (fun i =>
        let p := (e2m1 (elemOf x 4 (part.val * ty.elems + i))).mul (e3m5F (scaleByte z (i / 8)))
        let q := p.1.mul (bandOf y)
        let r := ty.ffmt.round rm 0 q.1
        (r.1, p.2 ||| q.2 ||| r.2)))))

/-! ## Conditional streams (08 R291, R292) -/

/-- The active elements of a source in order. -/
def activeElems (t : VTy) (k : Reg256) (x : VecReg) : List Nat :=
  ((upTo t.elems).filter (fun i => k.getLsbD i)).map (elemOf x t.width)

/-- Whether a buffer that holds elements holds another type. -/
def CBuf.clash (c : CBuf) (t : VTy) : Bool := !c.elems.isEmpty && c.ty != t

/-- Whole vectors cut off the front of a staging: the vectors and the rest; `fuel` bounds them. -/
def cutVectors (t : VTy) : Nat → List Nat → List VecReg × List Nat
  | 0, l => ([], l)
  | fuel + 1, l =>
    if l.length < t.elems then ([], l)
    else
      let r := cutVectors t fuel (l.drop t.elems)
      (vecOf t.width (l.take t.elems) :: r.1, r.2)

/-- A push to a compaction buffer. -/
def pushBuf (n : Bank) (c : Fin 4) (t : VTy) (l : List Nat) : Res Bank :=
  let old := (assoc n.vec.cb c.val).getD ⟨t, []⟩
  if old.clash t then .fault .cbtype 0
  else if 2 * t.elems < old.elems.length + l.length then .stall
  else .ok n (laterV [.cbuf c.val ⟨t, old.elems ++ l⟩] 0 [bufCode c] {})

/-- The effects of pushing several vectors to a write stream by one word. -/
def Bank.vectorEffs (b : Bank) (q : Fin 8) : Nat → List VecReg → List Eff
  | _, [] => []
  | i, x :: t => b.vectorEff q i x :: b.vectorEffs q (i + 1) t

/-- A push to a stream's staging, with the vectors that it completes. A's walk comes first: it may end the binding and discard the
staging (06 R213). -/
def pushStage (n : Bank) (q : Fin 8) (flush : Bool) (t : VTy) (l : List Nat) : Res Bank :=
  let old := (assoc n.vec.stage q.val).getD ⟨t, []⟩
  if n.engs.A.walk < n.engs.V.walk then .stall
  else if old.clash t then .fault .cbtype 0
  else
    let r := cutVectors t 2 (old.elems ++ l)
    let vs := r.1 ++ (if flush && !r.2.isEmpty then [vecOf t.width r.2] else [])
    match n.streamRoom q vs.length with
    | .stall => .stall
    | .fault => .fault .stream 0
    | .ok => .ok (n.spend q vs.length)
        (laterV (n.vectorEffs q 0 vs ++ [.staging q.val ⟨t, if flush then [] else r.2⟩]) 0 [128 + q.val] {})

/-- `VPUSHC` (08 R291). -/
def execVpushc (m : Dep) (k : Fin 8) (ty : VTy) (d : PushDst) (a : VSrc) (s : State) : Out :=
  vecWord (.vpushc m k ty d a) s (fun n =>
    withV n a (fun x n =>
      let l := activeElems ty (n.kreg k) x
      match d with
      | .cb c => pushBuf n c ty l
      | .q q flush => pushStage n q flush ty l))

/-- `VPOPC` (08 R292). -/
def execVpopc (m : Dep) (ty : VTy) (form : PopcForm) (d : VDst) (cb : Fin 4) (s : State) : Out :=
  vecWord (.vpopc m ty form d cb) s (fun n =>
    let c := (assoc n.vec.cb cb.val).getD ⟨ty, []⟩
    if c.clash ty then .fault .cbtype 0
    else
      let x := vecOf ty.width (c.elems.take ty.elems)
      let rest : Eff := .cbuf cb.val ⟨ty, c.elems.drop ty.elems⟩
      match form with
      | .full => if c.elems.length < ty.elems then .stall else intoV n d x 0 { effs := [rest], writes := [bufCode cb] }
      | .tail kE =>
        let t := min c.elems.length ty.elems
        intoV n d x 0 { effs := [rest, .kreg kE (predOf ((upTo 256).map (fun i => decide (i < t))))]
                        writes := [bufCode cb, 32 + kE.val] })

/-! ## Accumulator access (08 R294, R295) -/

/-- The cell of a line. -/
def lineCell (line : Fin 32) (col : Bool) (j : Nat) : Nat := if col then 32 * j + line.val else 32 * line.val + j

/-- A cell read as an element of a line (08 R294). -/
def accElem (vt : AccTy) (rm : RMode) (ov : Ov) (c : AccCell) : Nat × FlagBits :=
  if vt.isFloat then vt.ffmt.round rm 0 (e80F.read c.toNat) else narrow ov false vt.width (signedOf 80 c.toNat)

/-- `VACC.RD` (08 R294). -/
def execVaccRd (m : Dep) (acc : Fin 1024) (d : VDst) (line : Fin 32) (col : Bool) (h : Fin 8) (vt : AccTy) (rm : RMode) (ov : Ov) (s : State) : Out :=
  vecWord (.vaccRd m acc d line col h vt rm ov) s (fun n =>
    if n.slotBusy acc.val then .stall
    else
      let old := n.oldV d
      let res := (upTo (4096 / vt.width)).map (fun i =>
        if 32 * h.val ≤ i && i < 32 * h.val + 32 then accElem vt rm ov (n.cell acc.val (lineCell line col (i - 32 * h.val)))
        else (elemOf old vt.width i, 0))
      intoV n d (vecOfF vt.width res) (allFlags res) {})

/-- A cell written from an element of a line (08 R294). -/
def accPut (vt : AccTy) (add : Bool) (x : Nat) (c : AccCell) : AccCell × FlagBits :=
  if vt.isFloat then
    let v := vt.ffmt.read x
    if add then
      let r := (e80F.read c.toNat).add .rne v
      let q := toE80 r.1
      (q.1, r.2 ||| q.2)
    else toE80 v
  else
    let v := signedOf vt.width x
    if add then sat80 (signedOf 80 c.toNat + v) else (BitVec.ofInt 80 v, 0)

/-- `VACC.WR` (08 R294, R295). -/
def execVaccWr (m : Dep) (acc : Fin 1024) (a : VSrc) (line : Fin 32) (col : Bool) (h : Fin 8) (vt : AccTy) (rm : RMode) (add : Bool) (s : State) : Out :=
  vecWord (.vaccWr m acc a line col h vt rm add) s (fun n =>
    if n.slotBusy acc.val then .stall
    else withV n a (fun x n =>
      let r := (upTo 32).map (fun j =>
        let k := lineCell line col j
        (k, accPut vt add (elemOf x vt.width (32 * h.val + j)) (n.cell acc.val k)))
      let f := r.foldl (fun f x => f ||| x.2.2) 0
      .ok n (laterV (r.map (fun x => .cell acc.val x.1 x.2.1) ++ (if f &&& fSAT = 0 then [] else [.satBit acc.val])) f
        [256 + acc.val] {})))

/-! ## Status (08 R296) -/

/-- `VSTAT` (08 R296): the status as the earlier words leave it. -/
def execVstat (m : Dep) (clr : Bool) (s : State) : Out :=
  vecWord (.vstat m clr) s (fun n =>
    if !n.room .ds 1 then .stall
    else .ok (n.reserve .ds n.engs.V.walk 0) { effs := [.stat .V clr n.engs.V.walk, .vis .ds n.engs.V.walk] })

end Sys2Proof.Machine
end

