-- ==== Sys2Proof/Machine/Trig.lean ====
section
/-!
DEFINITION. Correctly rounded constants (11 R375, R387): twiddle parts from exact rational bounds of π and the Taylor series of cosine and
sine, at 320 fraction bits, and square roots of rationals with a sticky bit (log entry 13).
-/

namespace Sys2Proof.Machine

/-- Fraction bits of the fixed-point values. -/
def trigBits : Nat := 320

/-- One in fixed point. -/
def trigOne : Nat := 2 ^ trigBits

/-- Partial sums of `atan (1/n)`: `fuel` terms from index `k`, `p` being `1 / n^(2k+1)`. -/
def atanInv (n : Nat) : Nat → Nat → Nat → Int
  | 0, _, _ => 0
  | fuel + 1, k, p => (if k % 2 = 0 then 1 else -1) * ((p / (2 * k + 1) : Nat) : Int) + atanInv n fuel (k + 1) (p / (n * n))

/-- π in fixed point (Machin). -/
def piFix : Nat := (16 * atanInv 5 80 0 (trigOne / 5) - 4 * atanInv 239 30 0 (trigOne / 239)).toNat

/-- Alternating terms `x^k / k!` in steps of two: `fuel` terms, `t` the present one and `k` its index. -/
def altSeries (x2 : Nat) : Nat → Nat → Nat → Int
  | 0, _, _ => 0
  | fuel + 1, k, t => (t : Int) - altSeries x2 fuel (k + 2) (t * x2 / trigOne / ((k + 1) * (k + 2)))

/-- The cosine of a fixed-point angle up to π/4. -/
def cosFix (x : Nat) : Int := altSeries (x * x / trigOne) 45 0 trigOne

/-- The sine of a fixed-point angle up to π/4. -/
def sinFix (x : Nat) : Int := altSeries (x * x / trigOne) 45 1 x

/-- cos and sin of `2π n / (8q)` in fixed point, for `n ≤ 2q` (the first quadrant). -/
def quadrant (q n : Nat) : Int × Int :=
  if n ≤ q then
    let x := 2 * piFix * n / (8 * q)
    (cosFix x, sinFix x)
  else
    let x := 2 * piFix * (2 * q - n) / (8 * q)
    (sinFix x, cosFix x)

/-- cos and sin of `2π e / q` in fixed point (11 R375). -/
def trigFix (e q : Nat) : Int × Int :=
  let n := 8 * (e % q)
  let m := if 4 * q < n then 8 * q - n else n
  let r := if 2 * q < m then quadrant q (4 * q - m) else quadrant q m
  let c := if 2 * q < m then -r.1 else r.1
  (c, if 4 * q < n then -r.2 else r.2)

/-- A fixed-point value as an exact value; zero is +0. -/
def fixFl (x : Int) : Fl := .fin (x < 0) x.natAbs 1 (-(trigBits : Int))

/-- A twiddle (11 R375): real and imaginary part as bits; `pos` is the sign +1. -/
def twiddle (f : FFmt) (pos : Bool) (e q : Nat) : Nat × Nat :=
  let r := trigFix e q
  ((f.round .rne 0 (fixFl r.1)).1, (f.round .rne 0 (fixFl (if pos then r.2 else -r.2))).1)

/-- The square root of `num / den` with 200 fraction bits and a sticky bit below them. -/
def sqrtFl (num den : Nat) : Fl :=
  let x := num * 2 ^ 400 / den
  let r := isqrt x 240 0
  let exact' := r * r == x && num * 2 ^ 400 % den == 0
  .fin false (2 * r + bit (!exact')) 1 (-201)

/-- A constant `sqrt (num / den)` in a format (11 R375). -/
def sqrtConst (f : FFmt) (num den : Nat) : Fl := f.read (f.round .rne 0 (sqrtFl num den)).1

end Sys2Proof.Machine
end

