-- ==== Sys2Proof/Machine/Transform.lean ====
section
/-!
DEFINITION. The transform class (11): plans, stages, digit reversal, real transforms, pointwise words, tables, bindings and status. What a word
writes is fixed as it starts, since nothing else touches its extent until it retires (R370); it is written from progress point to progress
point (R371).
-/

namespace Sys2Proof.Machine

/-! ## Exact sums (11 R376) -/

/-- A term: a product of factors, with the flag of 0 × ∞ or a signalling NaN. -/
def termOf (l : List Fl) : Fl × FlagBits :=
  l.foldl (fun r x => let p := r.1.mul x; (p.1, r.2 ||| p.2)) (.fin false 1 1 0, 0)

/-- The exact sum of finite terms; a zero sum is +0. -/
def sumFin (l : List Fl) : Fl :=
  match l.foldl (fun r x => (r.add .rne x).1) (Fl.fin false 0 1 0) with
  | .fin n num den e => if num = 0 then .fin false 0 1 0 else .fin n num den e
  | x => x

/-- A component from its terms (11 R376). -/
def component (f : FFmt) (terms : List (List Fl)) : Nat × FlagBits :=
  let t := terms.map termOf
  let v := t.map (·.1)
  if v.any Fl.isNan then (f.canon, t.foldl (fun a x => a ||| x.2) 0)
  else if v.contains (.inf false) && v.contains (.inf true) then (f.canon, fNV)
  else if v.contains (.inf false) then (f.infBits false, 0)
  else if v.contains (.inf true) then (f.infBits true, 0)
  else f.round .rne 0 (sumFin v)

/-- A complex value: real and imaginary part as bits. -/
abbrev Cx := Nat × Nat

/-- The terms of the real part of a product. -/
def reTerms (f : FFmt) (u w : Cx) : List (List Fl) := [[f.read u.1, f.read w.1], [f.read u.2, (f.read w.2).negate]]

/-- The terms of the imaginary part of a product. -/
def imTerms (f : FFmt) (u w : Cx) : List (List Fl) := [[f.read u.1, f.read w.2], [f.read u.2, f.read w.1]]

/-- A complex value from the terms of its parts. -/
def cxOf (f : FFmt) (re im : List (List Fl)) : Cx × FlagBits :=
  let a := component f re
  let b := component f im
  ((a.1, b.1), a.2 ||| b.2)

/-- Values and their flags apart. -/
def gatherFlags {α : Type} (l : List (α × FlagBits)) : List α × FlagBits := (l.map (·.1), l.foldl (fun f x => f ||| x.2) 0)

/-! ## Stages and digit reversal (11 R377, R378) -/

/-- The product of radices. -/
def radProd (l : List Nat) : Nat := l.foldl (· * ·) 1

/-- Stage `st` on a row. -/
def stageRow (f : FFmt) (pos : Bool) (radix : List Nat) (st : Nat) (row : List Cx) : List Cx × FlagBits :=
  let x := row.toArray
  let rad := radix.getD st 1
  let p := radProd (radix.take st)
  let q := p * rad
  gatherFlags ((upTo row.length).map (fun n =>
    let k := n % q
    let lo := n - k + k % p
    let ws := (upTo rad).map (fun i => (x.getD (lo + i * p) (0, 0), twiddle f pos (i * k % q) q))
    cxOf f (ws.flatMap (fun w => reTerms f w.1 w.2)) (ws.flatMap (fun w => imTerms f w.1 w.2))))

/-- `rev n` (11 R378). -/
def revOf (radix : List Nat) (n : Nat) : Nat := (radix.foldl (fun (r : Nat × Nat) k => (r.1 * k + r.2 % k, r.2 / k)) (0, n)).1

/-- The digit reversal of a row. -/
def revRow (radix : List Nat) (row : List Cx) : List Cx :=
  let x := row.toArray
  (upTo row.length).map (fun n => x.getD (revOf radix n) (0, 0))

/-- The passes of a word over a row: the stage of each and the row it leaves, with the flags of all (11 R371). -/
abbrev RowPasses := List (Nat × List Cx) × FlagBits

/-- One pass. -/
def onePass (st : Nat) (r : List Cx × FlagBits) : RowPasses := ([(st, r.1)], r.2)

/-- The row that passes leave. -/
def RowPasses.last (p : RowPasses) (row : List Cx) : List Cx := (p.1.getLast?.map (·.2)).getD row

/-- A row after some passes, in a pass more. -/
def RowPasses.andThen (p : RowPasses) (row : List Cx) (st : Nat) (f : List Cx → List Cx × FlagBits) : RowPasses :=
  let r := f (p.last row)
  (p.1 ++ [(st, r.1)], p.2 ||| r.2)

/-- The row that the last pass leaves changed. -/
def RowPasses.mapLast (p : RowPasses) (f : List Cx → List Cx) : RowPasses :=
  match p.1.reverse with
  | x :: t => (t.reverse ++ [(x.1, f x.2)], p.2)
  | [] => p

/-- Every row that passes leave changed. -/
def RowPasses.mapRows (p : RowPasses) (f : List Cx → List Cx) : RowPasses := (p.1.map (fun x => (x.1, f x.2)), p.2)

/-- Stages from one on. -/
def stagesFrom (f : FFmt) (pos : Bool) (radix : List Nat) : Nat → Nat → List Cx → RowPasses
  | 0, _, _ => ([], 0)
  | n + 1, st, row =>
    let r := stageRow f pos radix st row
    let q := stagesFrom f pos radix n (st + 1) r.1
    ((st, r.1) :: q.1, r.2 ||| q.2)

/-- A whole transform of a row (11 R380): the digit reversal, counted to stage 0, and every stage. -/
def fullRow (f : FFmt) (pos : Bool) (radix : List Nat) (row : List Cx) : RowPasses :=
  let x := revRow radix row
  let q := stagesFrom f pos radix radix.length 0 x
  ((0, x) :: q.1, q.2)

/-! ## Real transforms (11 R382) -/

/-- One half. -/
def flHalf : Fl := .fin false 1 1 (-1)

/-- Minus one. -/
def flNeg1 : Fl := .fin true 1 1 0

/-- The post-step of `TX.RFWD`: `X[k]` for `k` from 0 to `mm`, from `mm` values. -/
def postRow (f : FFmt) (n : Nat) (row : List Cx) : List Cx × FlagBits :=
  let x := row.toArray
  let mm := n / 2
  gatherFlags ((upTo (mm + 1)).map (fun k =>
    let u := x.getD (k % mm) (0, 0)
    let v := x.getD ((mm - k) % mm) (0, 0)
    let w := twiddle f false k n
    let a := f.read u.1; let b := f.read u.2; let c := f.read v.1; let d := f.read v.2
    let wr := f.read w.1; let wi := f.read w.2
    cxOf f
      [[flHalf, a], [flHalf, c], [flHalf, wi, a], [flHalf, flNeg1, wi, c], [flHalf, wr, b], [flHalf, wr, d]]
      [[flHalf, b], [flHalf, flNeg1, d], [flHalf, flNeg1, wr, a], [flHalf, wr, c], [flHalf, wi, b], [flHalf, wi, d]]))

/-- The pre-step of `TX.RINV`: `Z[k]` for `k` below `mm`, from `mm + 1` values (log entry 14). -/
def preRow (f : FFmt) (n : Nat) (row : List Cx) : List Cx × FlagBits :=
  let x := row.toArray
  let mm := n / 2
  gatherFlags ((upTo mm).map (fun k =>
    let u := x.getD k (0, 0)
    let v := x.getD (mm - k) (0, 0)
    let w := twiddle f true k n
    let a := f.read u.1; let b := f.read u.2; let c := f.read v.1; let d := f.read v.2
    let wr := f.read w.1; let wi := f.read w.2
    cxOf f
      [[a], [c], [flNeg1, wi, a], [wi, c], [flNeg1, wr, b], [flNeg1, wr, d]]
      [[b], [flNeg1, d], [wr, a], [flNeg1, wr, c], [flNeg1, wi, b], [flNeg1, wi, d]]))

/-- `TX.RFWD` of the packed samples; the post-step counts as one stage more. -/
def rfwdRow (f : FFmt) (radix : List Nat) (n : Nat) (z : List Cx) : RowPasses :=
  (fullRow f false radix z).andThen z radix.length (postRow f n)

/-- `TX.RINV`: the packed samples of a row of `n/2 + 1` values; the pre-step counts to stage 0. -/
def rinvRow (f : FFmt) (radix : List Nat) (n : Nat) (x : List Cx) : RowPasses :=
  let r := preRow f n x
  let q := fullRow f true radix r.1
  ((0, r.1) :: q.1, r.2 ||| q.2)

/-- Real samples packed two to an element. -/
def packReal : List Cx → List Cx
  | x :: y :: t => (x.1, y.1) :: packReal t
  | [x] => [(x.1, 0)]
  | [] => []

/-- Packed samples as real elements. -/
def unpackReal (l : List Cx) : List Cx := l.flatMap (fun x => [(x.1, 0), (x.2, 0)])

/-! ## Rows of an image (11 R368) -/

/-- The unit at position `n` of row `r`. -/
def TDesc.rowUnit (d : TDesc) (r n : Nat) : Nat :=
  if d.lay = 0 then n + d.w 0 * r else r % d.w 0 + d.w 0 * (n + d.w 1 * (r / d.w 0))

/-- Whether the format is complex. -/
def TDesc.complex (d : TDesc) : Bool := d.fmt == 0x0C || d.fmt == 0x0D

/-- The floating-point format of the components. -/
def TDesc.comp (d : TDesc) : FFmt := if d.fmt = 0x0D ∨ d.fmt = 7 then fp64F else fp32F

/-- An image that a T word reads or writes; an idle ring has none (04 R116). -/
structure TImg where
  d    : TDesc
  idle : Bool
  deriving DecidableEq, Repr

/-- An element of a row. -/
def Bank.rowElem (b : Bank) (t : TImg) (r n : Nat) : Cx :=
  if t.idle then (0, 0)
  else
    let x := b.imgNum t.d (t.d.rowUnit r n)
    if t.d.complex then let w := t.d.comp.width; (x % 2 ^ w, x / 2 ^ w) else (x, 0)

/-- A row. -/
def Bank.rowRead (b : Bank) (t : TImg) (r : Nat) : List Cx := (upTo t.d.along).map (b.rowElem t r)

/-- The bytes of an element. -/
def TDesc.cxBytes (d : TDesc) (x : Cx) : List Byte :=
  let n := d.comp.width / 8
  if d.complex then leBytes n x.1 ++ leBytes n x.2 else leBytes n x.1

/-- Elements that a word writes, each as its bytes, cut at progress points (11 R371). -/
def stepsOf (st : Nat) (l : List (List (Nat × List Byte))) : List TStep :=
  (chunksOf 4096 (l.length + 1) l).map (fun c => ⟨st, c.length, c.flatten⟩)

/-- The steps of a pass over a row of an image. -/
def TImg.rowSteps (t : TImg) (r : Nat) (p : Nat × List Cx) : List TStep :=
  if t.idle then [] else stepsOf p.1 ((p.2.zip (upTo p.2.length)).map (fun x => t.d.pieces (t.d.rowUnit r x.2) (t.d.cxBytes x.1)))

/-- What a word does: its steps, and the flags of all. -/
abbrev TDone := List TStep × FlagBits

/-- Every row of one image computed into another. -/
def Bank.rowsInto (b : Bank) (src dst : TImg) (f : Nat → List Cx → RowPasses) : TDone :=
  let x := (upTo dst.d.rows).map (fun r => (r, f r (b.rowRead src r)))
  (x.flatMap (fun y => y.2.1.flatMap (dst.rowSteps y.1)), x.foldl (fun f y => f ||| y.2.2) 0)

/-- The first uncorrectable byte of an image (15 R500). -/
def Bank.imgBad (b : Bank) (t : TImg) : Option Nat := if t.idle then none else b.badRuns t.d.unitRuns

/-! ## Issue (11 R369 to R371) -/

/-- Whether an access to a byte of an extent is in progress: an atomic that has read and not performed (11 R370). -/
def Bank.underWay (b : Bank) (l : Loc) (ext : List (Nat × Nat)) : Bool :=
  b.acc.out.any (fun a => a.old.isSome && a.rngs.any (fun r => match r.pl with
    | .sp0 p o => p == l && ext.any (meets (o, r.len))
    | .pa _ => false))

/-- A word starts with its images (11 R369, R370): it holds their extents, and has its steps still to do. -/
def startT (l : Loc) (b : Bank) (imgs : List TImg) (effs : List Eff) (r : TDone) : Res Bank :=
  let ext := (imgs.filter (fun t => !t.idle)).map (fun t => t.d.extent)
  if b.underWay l ext then .stall
  else
    let w := b.engs.T.walk
    .ok { b with tx := { b.tx with work := some ⟨w, ext, 0, 0, r.1⟩ } }
      { waits := if r.1.isEmpty then [] else [w], effs := effs ++ [.flags .T r.2, .txDone] }

/-- T's started word goes on to its next progress point, unless it stands stopped at one (11 R371). -/
def Bank.stepT (b : Bank) : Bank :=
  match b.tx.work with
  | some w => match w.steps with
    | [] => b
    | x :: t =>
      if !b.live then b
      else
        let c := b.putPieces x.writes
        let c := { c with
          tx := { c.tx with work := some { w with stage := x.stage, elem := w.elem + x.elems, steps := t } }
          seq := { c.seq with wdog := 0 } }
        if t.isEmpty then c.workDone .T w.walk 0 else c
  | none => b

/-- T goes on as far as it can, within a bound of steps. -/
def Bank.runT : Nat → Bank → Bank
  | 0, b => b
  | n + 1, b => runT n b.stepT

/-- An eager turn of T: its started word goes on to its end. -/
def State.goOnT (s : State) (l : Loc) : State :=
  s.onBank l (fun b => b.runT ((b.tx.work.map (fun w => w.steps.length)).getD 0))

/-- Whether a word names a ring (11 R369). -/
def Instr.namesRing (i : Instr) : Bool :=
  (Instr.needs i).any (fun n => match n with
    | .ring _ => true
    | _ => false)

/-- A word of T at the cursor: the previous one has retired, and A has reached a word that names a ring. -/
def txWord (i : Instr) (s : State) (f : Bank → Res Bank) : Out :=
  eccNote s.cur.loc s (eagerly State.goOnT (bankWord i s (fun b =>
    if !b.engs.T.rets.isEmpty || (Instr.namesRing i && decide (b.engs.A.walk < b.engs.T.walk)) then .stall else f b)))

/-- A ring's binding for T. -/
def Bank.tbind (b : Bank) (g : Fin 16) : Option RBind := assoc b.tx.bind g.val

/-- The image of a record fits its ring's slots (11 R381 step 6); an idle ring takes no fault of its own (04 R116). -/
def Bank.slotFits (b : Bank) (t : List Reg64) (r : Ring) : Bool := b.idle .T r || decide ((tdescOf t).imgBytes [0, 0, 0, 0] ≤ r.size)

/-- A ring named as input or output of T, then the rest. -/
def withTRing (b : Bank) (g : Fin 16) (cons : Bool) (f : Ring → Res Bank) : Res Bank :=
  match b.named .T g (fun r => if cons then r.cons == .t else r.prod == .t) with
  | .stall => .stall
  | .fault => .fault .ring 0
  | .ok r => f r

/-- The place of an input ring's head slot, if it is FULL, or of its buffer, if it is published (09 R309, 11 R369). -/
def Bank.tSrc (b : Bank) (l : Loc) (g : Fin 16) (r : Ring) (t : List Reg64) : Option TImg :=
  let o : Opnd := ⟨g, t, none, b.opSrc .T r⟩
  if o.src = .idle then some ⟨tdescOf t, true⟩
  else if o.src = .head ∧ r.slotSt r.head ≠ .full then none
  else (b.opBase l .T o b.engs.T.walk (fun p => [({ tdescOf t with spbase := p } : TDesc).extent])).map
    (fun p => ⟨{ tdescOf t with spbase := p }, false⟩)

/-- The place of an output ring's tail slot or buffer, the bank with the slot reserved, and what the word does at retirement. -/
def Bank.tDst (b : Bank) (g : Fin 16) (r : Ring) (t : List Reg64) : Option (TImg × Bank × List Eff) :=
  let d := tdescOf t
  if b.idle .T r then some (⟨d, true⟩, b, [])
  else if r.modeR then some (⟨{ d with spbase := b.bufBase .T r }, false⟩, b, [])
  else if r.slotSt r.tail ≠ .empty then none
  else some (⟨{ d with spbase := r.slotBase r.tail }, false⟩, b.setRing g (r.reserve [r.slotBytes r.tail]), [.ringFull g b.engs.T.walk r.tail])

/-- The pop of a consumed input at retirement. -/
def Bank.tPop (b : Bank) (g : Fin 16) (r : Ring) (keep : Bool) : List Eff :=
  if keep || r.modeR then [] else [.ringPop g b.engs.T.walk]

/-- An uncorrectable byte of the images that a word reads ends it (15 R500). -/
def unlessBad (b : Bank) (l : List TImg) (r : Res Bank) : Res Bank :=
  match l.findSome? (fun t => b.imgBad t) with
  | some a => .fault .uncorr a
  | none => r

/-- A word in ring mode (11 R368, R381 steps 4 to 8): `chk` is the check of formats and shapes. -/
def ringWord (l : Loc) (gi go : Fin 16) (chk : TDesc → TDesc → Option FCode) (f : TImg → TImg → Bank → TDone) (b : Bank) : Res Bank :=
  withTRing b gi true (fun ri => withTRing b go false (fun ro =>
    match b.tbind gi, b.tbind go with
    | some x, some y =>
      if !b.slotFits x.tdr ri || !b.slotFits y.tdr ro then .fault .ring 0
      else match chk (tdescOf x.tdr) (tdescOf y.tdr) with
        | some c => .fault c 0
        | none => match b.tSrc l gi ri x.tdr, b.tDst go ro y.tdr with
          | some src, some (dst, b', effs) => unlessBad b [src] (startT l b' [src, dst] (b.tPop gi ri false ++ effs) (f src dst b))
          | _, _ => .stall
    | _, _ => .fault .tbind 0))

/-- A word in image mode (11 R381 steps 3, 7, 8). -/
def imageWord (l : Loc) (td : Fin 64) (chk : TDesc → Option FCode) (f : TImg → Bank → TDone) (b : Bank) : Res Bank :=
  match recCheck (b.td td) none b.hdr.spad with
  | some c => .fault c 0
  | none => match chk (tdescOf (b.td td)) with
    | some c => .fault c 0
    | none => let t : TImg := ⟨tdescOf (b.td td), false⟩; unlessBad b [t] (startT l b [t] [] (f t b))

/-! ## Plans (11 R372 to R374) -/

/-- The exponent of a prime in a number. -/
def primeExp (p : Nat) : Nat → Nat → Nat
  | 0, _ => 0
  | fuel + 1, n => if n ≠ 0 ∧ n % p = 0 then primeExp p fuel (n / p) + 1 else 0

/-- The radices that `.auto` takes (11 R373). -/
def autoRadix (l : Nat) : List Nat :=
  let a := primeExp 2 21 l
  (if a % 3 = 1 then [2] else if a % 3 = 2 then [4] else []) ++ List.replicate (a / 3) 8
    ++ List.replicate (primeExp 3 21 l) 3 ++ List.replicate (primeExp 5 21 l) 5 ++ List.replicate (primeExp 7 21 l) 7

/-- The codes of a radix word. -/
def radixCodes (w : Reg64) : List Nat := (upTo 21).map (fun i => bits w.toNat (3 * i + 2) (3 * i))

/-- The radix of a code. -/
def radixOf (c : Nat) : Nat := [1, 2, 3, 4, 5, 7, 8].getD c 1

/-- The radices of a radix word, if it is well formed (11 R373, R374). -/
def readRadix (w : Reg64) : Option (List Nat) :=
  let l := radixCodes w
  let n := (l.takeWhile (· != 0)).length
  if bitAt w.toNat 63 || l.contains 7 || (l.drop n).any (· != 0) then none else some ((l.take n).map radixOf)

/-- The radix word of a plan (11 R391). -/
def radixWord : List Nat → Nat
  | [] => 0
  | r :: t => [0, 0, 1, 2, 3, 4, 0, 5, 6].getD r 0 + 8 * radixWord t

/-- The checks of a plan (11 R374). -/
def planOf (sp : PlanSpec) (radix : Option (List Nat)) : Option Plan :=
  let n := sp.n.toNat
  let l := if sp.real then n / 2 else n
  match radix with
  | none => none
  | some r =>
    if (if sp.real then n % 2 = 0 ∧ 2 ≤ n else 1 ≤ n) ∧ n ≤ 2 ^ 20 ∧ radProd (autoRadix l) = l ∧ radProd r = l then
      some ⟨sp.real, sp.f64, n, r⟩
    else none

/-- A plan set, or `F_TPLAN`. -/
def putPlan (p : Fin 8) (x : Option Plan) (b : Bank) : Res Bank :=
  match x with
  | none => .fault .tplan 0
  | some x => .ok { b with tx := { b.tx with plans := assocPut b.tx.plans p.val x } } {}

/-- `TX.PLAN` (11 R372). -/
def execTxPlan (m : Dep) (p : Fin 8) (spec : PlanSpec) (s : State) : Out :=
  txWord (.txPlan m p spec) s (fun b =>
    if spec.auto then putPlan p (planOf spec (some (autoRadix (if spec.real then spec.n.toNat / 2 else spec.n.toNat)))) b
    else match b.peek .dt b.engs.T.walk with
      | none => .stall
      | some w => putPlan p (planOf spec (readRadix w)) (b.drop .dt))

/-- A plan of the kind a word needs, then the rest (11 R381 step 1). -/
def withPlan (p : Fin 8) (real : Bool) (b : Bank) (f : Plan → Res Bank) : Res Bank :=
  match assoc b.tx.plans p.val with
  | none => .fault .tplan 0
  | some x => if x.real ≠ real then .fault .tplan 0 else f x

/-- The complex format of a plan's precision. -/
def Plan.cf (x : Plan) : Nat := if x.f64 then 0x0D else 0x0C

/-- The real format of a plan's precision. -/
def Plan.rf (x : Plan) : Nat := if x.f64 then 7 else 6

/-- The components' format of a plan. -/
def Plan.ff (x : Plan) : FFmt := if x.f64 then fp64F else fp32F

/-- Formats, then row lengths, then row counts of two images (11 R381 steps 7 and 8). -/
def shapeOf (fi fo li lo : Nat) (d e : TDesc) : Option FCode :=
  if d.fmt ≠ fi ∨ e.fmt ≠ fo then some .tfmt
  else if d.along ≠ li ∨ e.along ≠ lo ∨ d.rows ≠ e.rows then some .tshape
  else none

/-! ## Transform words (11 R379 to R382) -/

/-- A complex word of one row function, in image mode. -/
def cplxImage (l : Loc) (p : Fin 8) (td : Fin 64) (ok : Plan → Bool) (f : Plan → List Cx → RowPasses) (b : Bank) : Res Bank :=
  withPlan p false b (fun x =>
    if !ok x then .fault .tplan 0
    else imageWord l td (fun d => shapeOf x.cf x.cf x.n x.n d d) (fun t b => b.rowsInto t t (fun _ row => f x row)) b)

/-- A complex word of one row function, in ring mode. -/
def cplxRing (l : Loc) (p : Fin 8) (gi go : Fin 16) (ok : Plan → Bool) (f : Plan → List Cx → RowPasses) (b : Bank) : Res Bank :=
  withPlan p false b (fun x =>
    if !ok x then .fault .tplan 0
    else ringWord l gi go (shapeOf x.cf x.cf x.n x.n) (fun src dst b => b.rowsInto src dst (fun _ row => f x row)) b)

/-- `TX.FWD`, image mode (11 R380). -/
def execTxFwd (m : Dep) (p : Fin 8) (td : Fin 64) (s : State) : Out :=
  txWord (.txFwd m p td) s (cplxImage s.cur.loc p td (fun _ => true) (fun x => fullRow x.ff false x.radix))

/-- `TX.FWD`, ring mode. -/
def execTxFwdRing (m : Dep) (p : Fin 8) (gi go : Fin 16) (s : State) : Out :=
  txWord (.txFwdRing m p gi go) s (cplxRing s.cur.loc p gi go (fun _ => true) (fun x => fullRow x.ff false x.radix))

/-- `TX.INV`, image mode (11 R380). -/
def execTxInv (m : Dep) (p : Fin 8) (td : Fin 64) (s : State) : Out :=
  txWord (.txInv m p td) s (cplxImage s.cur.loc p td (fun _ => true) (fun x => fullRow x.ff true x.radix))

/-- `TX.INV`, ring mode. -/
def execTxInvRing (m : Dep) (p : Fin 8) (gi go : Fin 16) (s : State) : Out :=
  txWord (.txInvRing m p gi go) s (cplxRing s.cur.loc p gi go (fun _ => true) (fun x => fullRow x.ff true x.radix))

/-- `TX.STAGE` (11 R380, R381 step 2). -/
def execTxStage (m : Dep) (p : Fin 8) (form : TForm) (st : Fin 32) (inv : Bool) (s : State) : Out :=
  txWord (.txStage m p form st inv) s (
    let ok (x : Plan) : Bool := st.val < x.radix.length
    let f (x : Plan) (row : List Cx) : RowPasses := onePass st.val (stageRow x.ff inv x.radix st.val row)
    match form with
    | .image td => cplxImage s.cur.loc p td ok f
    | .ring gi go => cplxRing s.cur.loc p gi go ok f)

/-- `TX.DIGREV`, image mode (11 R378). -/
def execTxDigrev (m : Dep) (p : Fin 8) (td : Fin 64) (s : State) : Out :=
  txWord (.txDigrev m p td) s (cplxImage s.cur.loc p td (fun _ => true) (fun x row => onePass 0 (revRow x.radix row, 0)))

/-- `TX.DIGREV`, ring mode. -/
def execTxDigrevRing (m : Dep) (p : Fin 8) (gi go : Fin 16) (s : State) : Out :=
  txWord (.txDigrevRing m p gi go) s (cplxRing s.cur.loc p gi go (fun _ => true) (fun x row => onePass 0 (revRow x.radix row, 0)))

/-- `TX.RFWD`, image mode (11 R382). -/
def execTxRfwd (m : Dep) (p : Fin 8) (td : Fin 64) (s : State) : Out :=
  txWord (.txRfwd m p td) s (fun b => withPlan p true b (fun x =>
    imageWord s.cur.loc td (fun d => shapeOf x.cf x.cf (x.n / 2 + 1) (x.n / 2 + 1) d d)
      (fun t b => b.rowsInto t t (fun _ row => rfwdRow x.ff x.radix x.n (row.take (x.n / 2)))) b))

/-- `TX.RFWD`, ring mode. -/
def execTxRfwdRing (m : Dep) (p : Fin 8) (gi go : Fin 16) (s : State) : Out :=
  txWord (.txRfwdRing m p gi go) s (fun b => withPlan p true b (fun x =>
    ringWord s.cur.loc gi go (shapeOf x.rf x.cf x.n (x.n / 2 + 1))
      (fun src dst b => b.rowsInto src dst (fun _ row => rfwdRow x.ff x.radix x.n (packReal row))) b))

/-- `TX.RINV`, image mode (11 R382): the last element is written +0, +0. -/
def execTxRinv (m : Dep) (p : Fin 8) (td : Fin 64) (s : State) : Out :=
  txWord (.txRinv m p td) s (fun b => withPlan p true b (fun x =>
    imageWord s.cur.loc td (fun d => shapeOf x.cf x.cf (x.n / 2 + 1) (x.n / 2 + 1) d d)
      (fun t b => b.rowsInto t t (fun _ row =>
        (rinvRow x.ff x.radix x.n row).mapLast (· ++ [(0, 0)]))) b))

/-- `TX.RINV`, ring mode. -/
def execTxRinvRing (m : Dep) (p : Fin 8) (gi go : Fin 16) (s : State) : Out :=
  txWord (.txRinvRing m p gi go) s (fun b => withPlan p true b (fun x =>
    ringWord s.cur.loc gi go (shapeOf x.cf x.rf (x.n / 2 + 1) x.n)
      (fun src dst b => b.rowsInto src dst (fun _ row => (rinvRow x.ff x.radix x.n row).mapRows unpackReal)) b))

/-! ## Pointwise words (11 R383, R384) -/

/-- Whether a format is one that `TX.SCALE` takes. -/
def scalable (fmt : Nat) : Bool := [6, 7, 0x0C, 0x0D].contains fmt

/-- One component scaled. -/
def scaleComp (f : FFmt) (rm : RMode) (c : Fl) (x : Nat) : Nat × FlagBits :=
  let r := (f.read x).mul c
  let q := f.round rm 0 r.1
  (q.1, r.2 ||| q.2)

/-- A row scaled; a real element has no imaginary part. -/
def scaleRow (d : TDesc) (rm : RMode) (c : Fl) (row : List Cx) : List Cx × FlagBits :=
  gatherFlags (row.map (fun x =>
    let a := scaleComp d.comp rm c x.1
    if d.complex then
      let b := scaleComp d.comp rm c x.2
      ((a.1, b.1), a.2 ||| b.2)
    else ((a.1, 0), a.2)))

/-- The check of formats and shapes of `TX.SCALE`. -/
def scaleShape (d e : TDesc) : Option FCode :=
  if !scalable d.fmt || d.fmt != e.fmt then some .tfmt
  else if d.along ≠ e.along ∨ d.rows ≠ e.rows then some .tshape
  else none

/-- What an idle ring gives to a word that computes on it: zeros, and no flag (04 R116). -/
def quietIf (idle : Bool) (r : List Cx × FlagBits) : List Cx × FlagBits := (r.1, if idle then 0 else r.2)

/-- `TX.SCALE` by a constant. -/
def scaleBy (l : Loc) (form : TForm) (rm : RMode) (c : Fl) (b : Bank) : Res Bank :=
  match form with
  | .image td => imageWord l td (fun d => scaleShape d d) (fun t b => b.rowsInto t t (fun _ row => onePass 0 (scaleRow t.d rm c row))) b
  | .ring gi go => ringWord l gi go scaleShape
      (fun src dst b => b.rowsInto src dst (fun _ row => onePass 0 (quietIf src.idle (scaleRow src.d rm c row)))) b

/-- `TX.SCALE` (11 R383). -/
def execTxScale (m : Dep) (form : TForm) (c : TScale) (rm : RMode) (s : State) : Out :=
  txWord (.txScale m form c rm) s (fun b =>
    match c with
    | .pow2 e => scaleBy s.cur.loc form rm (.fin false 1 1 e.toInt) b
    | .dt => match b.peek .dt b.engs.T.walk with
      | none => .stall
      | some w => scaleBy s.cur.loc form rm (fp64F.read w.toNat) (b.drop .dt))

/-- An element of the image times one of the multiplier (11 R384). -/
def cplxElem (f : FFmt) (real conj : Bool) (x h : Cx) : Cx × FlagBits :=
  if real then cxOf f [[f.read x.1, f.read h.1]] [[f.read x.2, f.read h.1]]
  else
    let re := f.read h.1
    let im := if conj then (f.read h.2).negate else f.read h.2
    let a := f.read x.1
    let b := f.read x.2
    cxOf f [[a, re], [flNeg1, b, im]] [[a, im], [b, re]]

/-- The check of formats and counts of `TX.CPLX`. -/
def cplxShape (bc : Bool) (d h : TDesc) : Option FCode :=
  if !d.complex || (h.fmt != d.fmt && h.fmt != d.fmt - 6) then some .tfmt
  else if h.count ≠ (if bc then d.along else d.count) then some .tshape
  else none

/-- The window-order index of position `n` of row `r` in an image, read in a multiplier. -/
def Bank.multElem (b : Bank) (h : TImg) (e : Nat) : Cx :=
  if h.idle then (0, 0)
  else
    let x := b.imgNum h.d e
    if h.d.complex then let w := h.d.comp.width; (x % 2 ^ w, x / 2 ^ w) else (x, 0)

/-- `TX.CPLX` (11 R384). -/
def execTxCplx (m : Dep) (td : Fin 64) (g : Fin 16) (conj kp bc : Bool) (s : State) : Out :=
  txWord (.txCplx m td g conj kp bc) s (fun b =>
    match recCheck (b.td td) none b.hdr.spad with
    | some c => .fault c 0
    | none => withTRing b g true (fun r =>
      match b.tbind g with
      | none => .fault .tbind 0
      | some y =>
        let d := tdescOf (b.td td)
        if !b.slotFits y.tdr r then .fault .ring 0
        else match cplxShape bc d (tdescOf y.tdr) with
          | some c => .fault c 0
          | none => match b.tSrc s.cur.loc g r y.tdr with
            | none => .stall
            | some h =>
              let t : TImg := ⟨d, false⟩
              let w := b.rowsInto t t (fun r row => onePass 0 (quietIf h.idle (gatherFlags ((upTo row.length).map (fun n =>
                cplxElem d.comp (!h.d.complex) conj (row.getD n (0, 0)) (b.multElem h (if bc then n else d.rowUnit r n)))))))
              unlessBad b [t, h] (startT s.cur.loc b [t, h] (b.tPop g r kp) w)))

/-! ## Tables (11 R385 to R387) -/

/-- Every element of an image written by its window index. -/
def TImg.fillSteps (t : TImg) (f : Nat → Cx) : List TStep :=
  if t.idle then [] else stepsOf 0 ((upTo t.d.count).map (fun e => t.d.pieces e (t.d.cxBytes (f e))))

/-- A word that fills an output ring (11 R381 steps 4 to 8); `src` is an image that it reads. -/
def outWord (l : Loc) (g : Fin 16) (src : List TImg) (chk : TDesc → Option FCode) (f : TImg → TDone) (b : Bank) : Res Bank :=
  withTRing b g false (fun r =>
    match b.tbind g with
    | none => .fault .tbind 0
    | some y =>
      if !b.slotFits y.tdr r then .fault .ring 0
      else match chk (tdescOf y.tdr) with
        | some c => .fault c 0
        | none => match b.tDst g r y.tdr with
          | none => .stall
          | some (t, b', effs) => startT l b' (t :: src) effs (f t))

/-- `TX.TWID` (11 R385). -/
def execTxTwid (m : Dep) (dst : TwidDst) (outer pos : Bool) (q : BitVec 21) (s : State) : Out :=
  txWord (.txTwid m dst outer pos q) s (fun b =>
    let n := q.toNat
    let chk (d : TDesc) : Option FCode := if d.complex then none else some .tfmt
    let fill (t : TImg) : TDone := (t.fillSteps (fun e =>
      let c := t.d.coord e
      twiddle t.d.comp pos (if outer then c.getD 0 0 * c.getD 1 0 % n else e % n) n), 0)
    if n = 0 ∨ 2 ^ 20 < n then .fault .tplan 0
    else match dst with
      | .image td => match recCheck (b.td td) none b.hdr.spad with
        | some c => .fault c 0
        | none => match chk (tdescOf (b.td td)) with
          | some c => .fault c 0
          | none => let t : TImg := ⟨tdescOf (b.td td), false⟩; startT s.cur.loc b [t] [] (fill t)
      | .ring g => outWord s.cur.loc g [] chk fill b)

/-- The root of `1 − x²` (11 R387). -/
def legSine (f : FFmt) (x : Fl) : Nat × FlagBits :=
  match x with
  | .nan s => (f.canon, flagIf s fNV)
  | .inf _ => (f.canon, fNV)
  | .fin _ num den e =>
    let one := Fl.fin false 1 1 0
    if 0 < (Fl.abs x).cmp one then (f.canon, fNV)
    else match (one.add .rne (x.mul x.negate).1).1 with
      | .fin _ a b k =>
        if a = 0 then (0, 0)
        else f.round .rne 0 (if 0 ≤ k then sqrtFl (a * 2 ^ k.toNat) b else sqrtFl a (b * 2 ^ (-k).toNat))
      | _ => f.round .rne 0 (sqrtFl num (den * 2 ^ (-e).toNat))

/-- The sectoral value of order `m` (11 R387). -/
def legStart (f : FFmt) (sn : Fl) : Nat → Fl × FlagBits
  | 0 => (sqrtConst f 1 2, 0)
  | k + 1 =>
    let r := legStart f sn k
    let v := component f [[sqrtConst f (2 * (k + 1) + 1) (2 * (k + 1)), sn, r.1]]
    (f.read v.1, r.2 ||| v.2)

/-- The degrees from `l` on: `n` of them, with the two before (11 R387). -/
def legFrom (f : FFmt) (m : Nat) (x : Fl) : Nat → Nat → Fl → Fl → List (Nat × FlagBits)
  | 0, _, _, _ => []
  | n + 1, l, q1, q2 =>
    let v : Nat × FlagBits :=
      if l = m then ((f.round .rne 0 q1).1, 0)
      else if l = m + 1 then component f [[sqrtConst f (2 * m + 3) 1, x, q1]]
      else component f
        [[sqrtConst f (4 * l * l - 1) (l * l - m * m), x, q1],
         [flNeg1, sqrtConst f ((2 * l + 1) * (l - 1 - m) * (l - 1 + m)) ((2 * l - 3) * (l * l - m * m)), q2]]
    v :: legFrom f m x n (l + 1) (f.read v.1) q1

/-- The values of one node: degrees `m` to `m + d0 + nrow − 1`, with the flags of all (11 R387). -/
def legNode (f : FFmt) (m d0 nrow x : Nat) : List Nat × FlagBits :=
  let v := f.read x
  let sn := legSine f v
  let p := legStart f (f.read sn.1) m
  let l := gatherFlags (legFrom f m v (d0 + nrow) m p.1 p.1)
  (l.1.drop d0, sn.2 ||| p.2 ||| l.2)

/-- `TX.LEG` (11 R386, R387). -/
def execTxLeg (m : Dep) (td : Fin 64) (g : Fin 16) (order : BitVec 12) (d0 : BitVec 13) (s : State) : Out :=
  txWord (.txLeg m td g order d0) s (fun b =>
    match recCheck (b.td td) none b.hdr.spad with
    | some c => .fault c 0
    | none =>
      let d := tdescOf (b.td td)
      let src : TImg := ⟨d, false⟩
      let chk (e : TDesc) : Option FCode :=
        if (d.fmt ≠ 6 ∧ d.fmt ≠ 7) ∨ e.fmt ≠ d.fmt then some .tfmt
        else if dimOf e.win 0 ≠ d.along ∨ dimOf e.win 2 ≠ 1 ∨ dimOf e.win 3 ≠ 1 then some .tshape
        else none
      unlessBad b [src] (outWord s.cur.loc g [src] chk (fun t =>
        let cols := (b.rowRead src 0).map (fun x => legNode d.comp order.toNat d0.toNat (t.d.w 1) x.1)
        (t.fillSteps (fun e => (((cols.getD (e % t.d.w 0) ([], 0)).1.getD (e / t.d.w 0) 0), 0)),
          if t.idle then 0 else cols.foldl (fun f c => f ||| c.2) 0)) b))

/-! ## Binding, semaphores and status (11 R388 to R390) -/

/-- `TX.RING` (11 R388). -/
def execTxRing (m : Dep) (td : Fin 64) (g : Fin 16) (s : State) : Out :=
  txWord (.txRing m td g) s (fun b =>
    if b.engs.A.walk < b.engs.T.walk then .stall
    else match recFault (b.td td) none with
      | some c => .fault c 0
      | none => match b.named .T g (fun r => r.prod == .t || r.cons == .t) with
        | .stall => .stall
        | .fault => .fault .ring 0
        | .ok _ => .ok { b with tx := { b.tx with bind := assocPut b.tx.bind g.val ⟨b.td td, none⟩ } } {})

/-- `TX.SEM.wait` (11 R389). -/
def execTxSemWait (m : Dep) (sem : Fin 32) (val : BitVec 11) (s : State) : Out :=
  txWord (.txSemWait m sem val) s (semWait sem val.toNat)

/-- `TX.SEM.sig` (11 R389). -/
def execTxSemSig (m : Dep) (sem : Fin 32) (val : BitVec 11) (s : State) : Out :=
  txWord (.txSemSig m sem val) s (semSig sem val.toNat)

/-- `TX.STAT` (11 R390). -/
def execTxStat (m : Dep) (clr : Bool) (s : State) : Out :=
  txWord (.txStat m clr) s (fun b =>
    if !b.room .ds 1 then .stall
    else .ok (b.reserve .ds b.engs.T.walk 0) { effs := [.stat .T clr b.engs.T.walk, .vis .ds b.engs.T.walk] })

end Sys2Proof.Machine
end

