-- ==== Sys2Proof/Machine/Net.lean ====
section
/-!
DEFINITION. The links of the package and packets on their way (13 R430 to R436, R443): ends of links, the outputs that a packet may take, sequence numbers,
and what becomes of a packet that no route takes (R439). How a request is cut into packets, the routes before tables are loaded, and which of
the allowed routes and vcs a packet takes, are the model's choices (log entry 12).
-/

namespace Sys2Proof

/-- The number of a package (13 R430). -/
def NetAddr.pkgNum (a : NetAddr) : Nat := 64 * a.panel.toNat + a.pkg.toNat

/-- An address as its 16 bits (13 R430). -/
def NetAddr.num (a : NetAddr) : Nat := a.panel.toNat * 2 ^ 10 + a.pkg.toNat * 2 ^ 4 + a.die.toNat

/-- The address of a die of a package. -/
def NetAddr.of (pkg die : Nat) : NetAddr := ⟨BitVec.ofNat 6 (pkg / 64), BitVec.ofNat 6 pkg, BitVec.ofNat 4 die⟩

/-- The number of a scope (02 R69). -/
def Scope.num : Scope → Nat
  | .self => 0 | .core => 1 | .engines => 2 | .stage => 3 | .cluster => 4 | .die => 5 | .package => 6 | .launch => 7
  | .host => 8 | .panel => 9 | .fabric => 10 | .system => 11

/-- The class of a flit (13 R429). -/
def PCls.num : PCls → Fin 3
  | .bulk => 0 | .urgent => 1 | .critical => 2

/-- The class of a word as the class of its packets (13 R432). -/
def FCls.pcls : FCls → PCls
  | .bulk => .bulk | .urgent => .urgent

/-- Requests that a home performs (12 R400). -/
def PKind.asks : PKind → Bool
  | .write | .read | .amo | .gadd | .mcwrite | .mcread => true
  | _ => false

/-- Multicast requests (12 R411, R412). -/
def PKind.isMulti : PKind → Bool
  | .mcwrite | .mcread => true
  | _ => false

/-- Packets of one link alone, which go with it. -/
def PKind.ofLink : PKind → Bool
  | .credit | .advert | .drain | .sync => true
  | _ => false

/-- The vc of a packet of a kind (13 R436): requests take 0, replies 2, and CREDIT and ADVERT 3; a CLOSE or a FLUSH is given one of its own. -/
def PKind.vc : PKind → Fin 4
  | .resp | .ack | .nack | .sync | .drain | .token | .mode => 2
  | .credit | .advert => 3
  | _ => 0

/-- An access of the host on its way to another die's stack (01 R16). -/
def PReq.ofHost : PReq → Bool
  | .hostWrite .. | .hostRead .. => true
  | _ => false

/-- The packages that a packet is numbered for: a multicast's are those of its members. -/
def Packet.dests (p : Packet) : List Nat :=
  match p.req with
  | .mwrite ms _ _ | .mread ms _ _ => ms.map (· / 16)
  | _ => [p.dst.pkgNum]

/-- The packet with its numbers. -/
def Packet.withSeqs (p : Packet) (l : List Nat) : Packet :=
  let p := { p with seq := BitVec.ofNat 32 (l.headD 0) }
  match p.req with
  | .mwrite ms _ d => { p with req := .mwrite ms l d }
  | .mread ms _ n => { p with req := .mread ms l n }
  | _ => p

/-- What a sender keeps of a packet to know it by: the tag of a request or a Traverse message; a reply's tag is the requester's. -/
def Packet.mark (p : Packet) : Nat := if p.kind == .resp then 2 ^ 32 else p.tag.toNat

/-- Whether two packets share a triple. -/
def Packet.sameTriple (p q : Packet) : Bool := p.cls == q.cls && p.dests.any (fun d => q.dests.contains d)

end Sys2Proof

namespace Sys2Proof.Machine

/-! ## Ends of links (01 R16, R22; 13 R458) -/

/-- The Omuno port of a die, its Erg receive port and its Erg transmit port (13 R458). -/
def omuno : Nat := 4
def ergRx : Nat := 5
def ergTx : Nat := 6

/-- A port of a die as an end of a link. -/
def portKey (die port : Nat) : Nat := 7 * die + port

/-- The end at a die of the Erg channels between it and another die: it sends on the other die's channel and receives on its own (01 R22). -/
def ergKey (die far : Nat) : Nat := 112 + 16 * die + far

/-- The die of an end. -/
def endDie (k : Nat) : Nat := if k < 112 then k / 7 else (k - 112) / 16

/-- The port that an end sends by. -/
def endPort (k : Nat) : Nat := if k < 112 then k % 7 else ergTx

/-- The die at the other end of an Erg channel. -/
def endFar (k : Nat) : Nat := (k - 112) % 16

/-- The neighbour of a die over a mesh port: north, east, south, west (01 R16, 13 R458). -/
def meshTo (die port : Nat) : Option Nat :=
  match port with
  | 0 => if die < 4 then none else some (die - 4)
  | 1 => if die % 4 = 3 then none else some (die + 1)
  | 2 => if 12 ≤ die then none else some (die + 4)
  | 3 => if die % 4 = 0 then none else some (die - 1)
  | _ => none

/-- The port of the other end of a mesh link. -/
def meshBack (port : Nat) : Nat := (port + 2) % 4

/-- Whether a port has a link. -/
def hasLink (die port : Nat) : Bool := 4 ≤ port || (meshTo die port).isSome

/-- The other end of a link of the package; an Omuno port's is outside. -/
def peerOf (k : Nat) : Option Nat :=
  if k < 112 then (meshTo (k / 7) (k % 7)).map (fun e => portKey e (meshBack (k % 7))) else some (ergKey (endFar k) (endDie k))

/-- An end's link. -/
def State.linkAt (s : State) (k : Nat) : Link := (assoc s.net.links k).getD {}

/-- An end's link put. -/
def State.setLinkAt (s : State) (k : Nat) (x : Link) : State := { s with net := { s.net with links := assocPut s.net.links k x } }

/-- A port's link. -/
def State.link (s : State) (die port : Nat) : Link := s.linkAt (portKey die port)

/-- A port's link put. -/
def State.setLink (s : State) (die port : Nat) (x : Link) : State := s.setLinkAt (portKey die port) x

/-- Whether an end's link satisfies a condition on states: an Erg channel's is that of the writer's transmit port and the reader's receive port. -/
def State.endSt (s : State) (k : Nat) (f : LinkSt → Bool) (both : Bool) : Bool :=
  if k < 112 then f (s.linkAt k).st
  else
    let a := f (s.link (endDie k) ergTx).st
    let b := f (s.link (endFar k) ergRx).st
    if both then a && b else a || b

/-- Whether an end's link is UP. -/
def State.endUp (s : State) (k : Nat) : Bool := s.endSt k (· == .up) true

/-- Whether an end's link has failed. -/
def State.endFailed (s : State) (k : Nat) : Bool := s.endSt k (· == .failed) false

/-- Whether an end's link is retraining, or training again after a reset. -/
def State.endTrains (s : State) (k : Nat) : Bool := s.endSt k (fun x => x == .retraining || x == .training) false

/-! ## Addresses, windows and the packet of a request -/

/-- This package's number. -/
def State.pkgNum (s : State) : Nat := 64 * s.part.panel + s.part.pkg

/-- This package's address at a die. -/
def State.myAddr (s : State) (die : Nat) : NetAddr :=
  ⟨BitVec.ofNat 6 s.part.panel, BitVec.ofNat 6 s.part.pkg, BitVec.ofNat 4 die⟩

/-- Whether a packet comes from this package. -/
def State.isMine (s : State) (p : Packet) : Bool := p.src.pkgNum == (s.myAddr 0).pkgNum

/-- Whether a packet stays on this package: one for it, but for a multicast that has still to reach the switch layer (12 R411). -/
def State.staysNear (s : State) (p : Packet) : Bool := p.dst.pkgNum == (s.myAddr 0).pkgNum && !(p.kind.isMulti && !p.sent)

/-- The window of a time (13 R449). -/
def State.windowOf (s : State) (t : Nat) : Nat := if s.net.win.winlen = 0 then 0 else t / s.net.win.winlen

/-- The mode of a scope (FABRIC or PANEL) in a window: an announced change holds from its window on (13 R456). -/
def Windows.modeAt (w : Windows) (fabric : Bool) (n : Nat) : Bool :=
  match w.pend.find? (fun p => p.1 == fabric) with
  | some (_, m, first, _) => if first ≤ n then m else if fabric then w.fabricW else w.panelW
  | none => if fabric then w.fabricW else w.panelW

/-- Whether a scope runs in windows now (13 R448, R456). -/
def State.windowed (s : State) (scope : Scope) : Bool :=
  match scope with
  | .panel => s.net.win.modeAt false (s.windowOf s.dtime)
  | .fabric => s.net.win.modeAt true (s.windowOf s.dtime)
  | _ => false

/-- A packet of this package, before its sequence number and its stamp. -/
def State.packet (s : State) (die : Nat) (dst : NetAddr) (kind : PKind) (cls : PCls) (scope : Scope) (tag off : Nat) (req : PReq)
    (data : List Byte) : Packet :=
  { kind, cls, rel := false, wm := false, sift := false, ver := s.net.routing.act, scope, len := data.length, seq := 0
    src := s.myAddr die, dst, window := 0, npath := 0, tag := BitVec.ofNat 32 tag, off := BitVec.ofNat 36 off, req, data, badRes := false }

/-! ## Requests of this package -/

/-- Every bank of the package changed, resident or saved. -/
def State.mapBanks (s : State) (f : Nat → Bank → Bank) : State :=
  { s with
    cores := s.cores.map (fun c => (c.1, { c.2 with b0 := f c.1 c.2.b0, b1 := f c.1 c.2.b1 }))
    launches := s.launches.map (fun x => { x with saved := x.saved.map (fun p => (p.1, f p.1 p.2)) }) }

/-- A change of one request of a core's part, resident or saved (12 R397). -/
def Bank.modReq (b : Bank) (id : Nat) (f : FReq → FReq) : Bank :=
  { b with fab := { b.fab with reqs := b.fab.reqs.map (fun r => if r.id = id then f r else r) } }

/-- A request of a bank. -/
def Bank.req (b : Bank) (id : Nat) : Option FReq := b.fab.reqs.find? (fun r => r.id == id)

/-- The launch whose part on a core holds a request. -/
def State.reqLaunch (s : State) (l : Loc) (id : Nat) : Option Nat :=
  if ((s.bank l).req id).isSome then (s.bank l).launch
  else (s.launches.find? (fun x => match assoc x.saved l.core with
    | some b => x.cores.contains l && (b.req id).isSome
    | none => false)).map (·.id)

/-- A request of this package by its packet's tag, with its launch and its place. -/
def State.reqByTag (s : State) (tag : Nat) : Option (Nat × Loc × FReq) :=
  s.launches.findSome? (fun x => x.cores.findSome? (fun l =>
    ((s.partOf x.id l).fab.reqs.find? (fun r => r.id % 2 ^ 32 == tag && r.ans.isNone)).map (fun r => (x.id, l, r))))

/-- A fault that a core's part has taken is noted, resident or saved; a saved part's launch holds it (05 R175). -/
def State.notePart (s : State) (launch : Nat) (l : Loc) : State :=
  if (s.bank l).launch = some launch then s.noteFault l
  else if (s.partOf launch l).flt.isSome then s.modLaunch launch (fun x => x.hold l.core s.dtime)
  else s

/-- A core's part of a launch takes a fault, resident or saved. -/
def State.partFault (s : State) (launch core : Nat) (c : FCode) (pc detail : Nat) : State :=
  match (s.launch launch).bind (fun x => x.cores.find? (fun l => l.core == core)) with
  | none => s
  | some l => (s.modPart launch l (fun b => b.takeFault c pc detail)).notePart launch l

/-- The post that a chunk is sent for. -/
def State.chunkPost (s : State) (pid i : Nat) : Option Post :=
  (s.trav.insts.find? (fun x => x.posts.any (fun p => p.pid == pid))).bind (fun x =>
    x.posts.find? (fun p => p.own && (x.posts.head?.any (fun q => q.blk.members.getD i 0 == p.who))))

/-- A write of the host is no longer on its way. -/
def State.hostWrote (s : State) (p : Packet) : State :=
  if p.req.ofHost then { s with regs := { s.regs with writes := s.regs.writes.filter (fun w => w.1 != p.tag.toNat) } } else s

/-- A packet of this package that no route takes: its request, or its chunk, ends the launch that issued it (13 R439, 14 R472). -/
def State.failPacket (s : State) (p : Packet) : State :=
  if !s.isMine p then s
  else if p.kind.asks then
    match s.reqByTag p.tag.toNat with
    | some (k, l, r) => s.partFault k l.core .flink r.pc 0
    | none => s.hostWrote p
  else match p.req with
    | .collChunk pid i _ _ => match s.chunkPost pid i with
      | some q => s.partFault q.launch (q.who % 1024) .flink q.pc 0
      | none => s
    | _ => s

/-! ## Routes (13 R443) -/

/-- A bank of routing tables. -/
def Routing.bank (r : Routing) (ver : Bool) : List Byte := if ver then r.bank1 else r.bank0

/-- The mesh port towards another die of the package: along its row first. -/
def xyPort (die far : Nat) : Nat :=
  if die % 4 < far % 4 then 1 else if far % 4 < die % 4 then 3 else if die < far then 2 else 0

/-- The end of a die that an output number names, for a packet that may take it. -/
def endFor (die : Nat) (near : Bool) (dst : NetAddr) (n : Nat) : Option Nat :=
  if n < 4 then (meshTo die n).map (fun _ => portKey die n)
  else if n = omuno then (if near then none else some (portKey die omuno))
  else if n = ergTx ∧ near ∧ dst.die.toNat ≠ die then some (ergKey die dst.die.toNat)
  else none

/-- The ends by which the bank of a packet's ver lets it leave a die. Before tables are loaded they are the die's Omuno port (12 R398), and within the
package the mesh along the row first, or an Erg channel that is UP (14 R470). -/
def State.allowed (s : State) (die : Nat) (p : Packet) : List Nat :=
  let near := s.staysNear p
  let t := s.net.routing.bank p.ver
  let l :=
    if t.isEmpty then
      (if near then xyPort die p.dst.die.toNat :: (if s.endUp (ergKey die p.dst.die.toNat) then [ergTx] else []) else [omuno])
    else Config.routes t die p.dst.num
  (l.filterMap (endFor die near p.dst)).eraseDups

/-- The allowed ends that have not failed. -/
def State.outs (s : State) (die : Nat) (p : Packet) : List Nat := (s.allowed die p).filter (fun k => !s.endFailed k)

/-- The routes on which a packet may leave the package from a die, as the ends it takes: tables hold no loops, so no more than the package's dies. -/
def State.paths (s : State) (p : Packet) : Nat → Nat → List (List Nat)
  | 0, _ => []
  | n + 1, die => (s.allowed die p).flatMap (fun k =>
      if endPort k = omuno then [[k]] else match peerOf k with
        | some e => (State.paths s p n (endDie e)).map (k :: ·)
        | none => [])

/-- The routes of a package's packet from its die. -/
def State.routes (s : State) (p : Packet) : List (List Nat) := s.paths p 16 p.src.die.toNat

/-- The end that a FLUSH of this package takes by the route whose number it carries (13 R455). -/
def State.markerEnd (s : State) (die : Nat) (p : Packet) : Option Nat :=
  if p.kind == .flush && s.isMine p then
    ((s.routes p).getD p.off.toNat []).find? (fun k => endDie k == die && !s.endFailed k)
  else none

/-- The end that a packet takes, free among the allowed ones. -/
def State.hop (s : State) (die : Nat) (p : Packet) : Option Nat × State :=
  match s.markerEnd die p with
  | some k => (some k, s)
  | none => match s.outs die p with
    | [] => (none, s)
    | [k] => (some k, s)
    | l =>
      let (i, s) := s.choose l.length
      ((l.drop i).head?, s)

/-- A packet queued at an end. -/
def State.queueAt (s : State) (k : Nat) (p : Packet) (vc : Fin 4) : State :=
  let x := s.linkAt k
  s.setLinkAt k { x with out := x.out ++ [⟨p, p.cls.num, vc, 0⟩] }

/-- A packet at a die goes on: to this die, or out on one of its routes, or it fails. -/
def State.forward (s : State) (die : Nat) (p : Packet) (vc : Fin 4) : State :=
  if s.staysNear p && p.dst.die.toNat == die then
    { s with net := { s.net with arrived := s.net.arrived ++ [p.cameBy (Fin.ofNat 16 die) 4 vc s.dtime] } }
  else match s.hop die p with
    | (some k, s) => s.queueAt k p vc
    | (none, s) => s.failPacket p

/-! ## Sequence numbers (13 R435) -/

/-- The triple that this package sends on. -/
def State.txTriple (s : State) (dst : Nat) (cls : PCls) : TxTriple :=
  (s.net.txt.find? (fun t => t.dst == dst && t.cls == cls)).getD ⟨dst, cls, 0, []⟩

/-- A sending triple put. -/
def State.setTx (s : State) (t : TxTriple) : State :=
  { s with net := { s.net with txt := t :: s.net.txt.filter (fun u => !(u.dst == t.dst && u.cls == t.cls)) } }

/-- The next number on a triple, kept as unacknowledged. -/
def State.number (s : State) (p : Packet) : List Nat → State × List Nat
  | [] => (s, [])
  | d :: t =>
    let x := s.txTriple d p.cls
    let (s, l) := (s.setTx { x with next := (x.next + 1) % 2 ^ 32, unack := x.unack ++ [(x.next, p.mark, p.off.toNat)] }).number p t
    (s, x.next :: l)

/-- Whether every triple of a packet takes one more. -/
def State.txRoom (s : State) (p : Packet) : Bool := p.dests.all (fun d => (s.txTriple d p.cls).unack.length < 4096)

/-- A packet injected at a die: it is numbered and stamped with the routing bank, and goes out. -/
def State.sendNow (s : State) (die : Nat) (p : Packet) (vc : Fin 4) : State :=
  let (s, l) := s.number p p.dests
  s.forward die { p.withSeqs l with ver := s.net.routing.act } vc

/-- A data or request packet is sent, or waits for room in its triple behind those that came before it. -/
def State.sendSeq (s : State) (die : Nat) (p : Packet) (vc : Fin 4) : State :=
  if s.txRoom p && !s.net.pend.any (fun q => q.2.1.sameTriple p) then s.sendNow die p vc
  else { s with net := { s.net with pend := s.net.pend ++ [(die, p, vc)] } }

/-- The first waiting packet that can go: its triple has room and no earlier packet waits for it. -/
def State.nextPend (s : State) : Option (Nat × Nat × Packet × Fin 4) :=
  ((upTo s.net.pend.length).zip s.net.pend).find? (fun x =>
    s.txRoom x.2.2.1 && !(s.net.pend.take x.1).any (fun q => q.2.1.sameTriple x.2.2.1))

/-- Waiting packets go out as room returns. -/
def State.goOnPend : Nat → State → State
  | 0, s => s
  | n + 1, s =>
    match s.nextPend with
    | none => s
    | some (i, die, p, vc) =>
      State.goOnPend n (({ s with net := { s.net with pend := s.net.pend.eraseIdx i } }).sendNow die p vc)

/-- A head flit crosses an end: the request that its packet belongs to keeps the end, and at its first Omuno port one packet more of it is sent
(12 R407, 13 R442). -/
def State.noteHop (s : State) (k : Nat) (p : Packet) (first : Bool) : State :=
  if !(s.isMine p && p.kind.asks) then s
  else match s.reqByTag p.tag.toNat with
    | some (id, l, r) => s.modPart id l (fun b => b.modReq r.id (fun q =>
        { q with via := k :: q.via.filter (· != k)
                 rest := if first then q.rest - 1 else q.rest
                 sentAt := if first then some (q.sentAt.getD s.dtime) else q.sentAt }))
    | none => s

/-! ## Remote addresses (12 R399) -/

/-- The destination that a remote physical address names; its die is the sender's (log entry 12). -/
def remoteDst (die pa : Nat) : NetAddr := ⟨BitVec.ofNat 6 (bits pa 47 42), BitVec.ofNat 6 (bits pa 41 36), BitVec.ofNat 4 die⟩

/-- Export window and offset of a remote physical address. -/
def remoteOff (pa : Nat) : Nat := bits pa 35 0

end Sys2Proof.Machine
end

