-- ==== Sys2Proof/Machine/Fabric.lean ====
section
/-!
DEFINITION. The fabric class (12): targets formed by A, requests of F and their homes, fences, multicast, subscriptions, counters, time and status.
-/

namespace Sys2Proof

/-- Scopes that run in windows or with flush markers (13 R448). -/
def Scope.wide (c : Scope) : Bool := c == .panel || c == .fabric

end Sys2Proof

namespace Sys2Proof.Machine

/-! ## Formation (12 R396, R398, R402) -/

/-- Homes that F serves (12 R398). -/
def homesF : List Nat := [0, 1, 4, 5, 8]

/-- A move of A past a word whose target it forms: it pops no token. -/
def formWord (i : Instr) (s : State) (f : State → Res State) : Out :=
  if !s.here.live || s.here.acc.park.isSome then .next s
  else eagerly State.drainPage (match f s with
    | .stall => .next s
    | .fault c d => .next (s.faultAt s.cur.loc c s.here.engs.A.pc d)
    | .page s' va w ag => .next (s'.notePage s.cur.loc va w ag)
    | .ok s' _ => .next (s'.onHere (fun b =>
        { b.setEng .A (b.engs.A.pass (Instr.hd i).ext none) with seq := { b.seq with wdog := 0 } })))

/-- What the formation of a word asks: the SP0 image it places, whether it writes its home, its parts with a home, the bytes of its inside elements,
and its own shape and bounds. -/
structure Form where
  td     : Fin 64
  h      : FabHead
  regs   : List (Fin 32) := []
  ra     : Fin 32 := 0
  rb     : Fin 32 := 0
  image  : Bool
  store  : Bool
  shape  : TDesc → Bool := fun _ => true
  /-- exactly one element, inside, aligned -/
  single : Bool := false
  noHost : Bool := false
  ap     : Option Nat := none

/-- Parts of a window that have a home, with their addresses and lengths (06 R204). -/
def homeParts (d : TDesc) (org : List Int) (store : Bool) : List (Nat × Nat × Nat) :=
  let l := d.parts org
  (l.zip (upTo l.length)).filterMap (fun p =>
    match (if store then d.store org p.1 else d.load org p.1) with
    | .addr _ a => some (p.2, a, d.partLen p.1)
    | _ => none)

/-- The bytes of the window's inside elements (12 R402). -/
def insideBytes (d : TDesc) (org : List Int) : Nat :=
  (homeParts d org true).foldl (fun n p => n + p.2.2) 0

/-- What an access of formation asks of a parcel (12 R396). -/
def formKind (write : Bool) : PKindAcc := if write then .write else .read

/-- One part: translated, then checked in the Plat (12 R396). -/
def State.formPart (s : State) (l : Loc) (asp : Asp) (write : Bool) (a n : Nat) : State × ARes :=
  match s.access l (formKind write) asp a n write homesF with
  | (s, .ok r) =>
    match s.platCheck l.core (s.bank l).ctx (formKind write) r with
    | (s, some f) => (s, .fault f)
    | (s, none) => (s, .ok r)
  | x => x

/-- Ranges of parts in rising order of address, or the fatal fault of the lowest address, or the lowest page that is not present
(06 R194, 07 R227). -/
def State.formParts (s : State) (l : Loc) (asp : Asp) (write : Bool) : List (Nat × Nat × Nat) → State × ARes × List (Nat × List Rng)
  | [] => (s, .ok [], [])
  | (e, a, n) :: t =>
    match s.formPart l asp write a n with
    | (s, .fault c) => (s, .fault c, [])
    | (s, .page v) =>
      match s.formParts l asp write t with
      | (s, .fault c, _) => (s, .fault c, [])
      | (s, _) => (s, .page v, [])
    | (s, .ok x) =>
      match s.formParts l asp write t with
      | (s, .ok _, l') => (s, .ok [], (e, x) :: l')
      | y => y

/-- The members of an aperture (15 R495): package and export window of each. -/
def State.aperture (s : State) (ctx k : Nat) : List Nat :=
  match s.ctx ctx with
  | none => []
  | some c =>
    let a := c.apPa + 1024 * k
    (upTo (bits (s.numPa a 8) 6 0)).map (fun i => bits (s.numPa (a + 8 + 8 * i) 8) 15 0)

/-- The checks of a target that need no translation, in order (12 R396 step 2, R402). -/
def State.formFault (s : State) (f : Form) (t : List Reg64) (org : List Int) : Option FCode :=
  let d := tdescOf t
  match (if f.image then recCheck t (some org) s.here.hdr.spad else recFault t (some org)) with
  | some c => some c
  | none =>
    if d.asp = .sp0 then some .home
    else if 65536 < d.imgBytes org then some .fshape
    else if f.h.cls = .urgent ∧ 256 < insideBytes d org then some .fshape
    else if !f.shape d then some .fshape
    else if f.single && (match homeParts d org true with | [(_, a, n)] => a % n != 0 | _ => false) then some .align
    else if f.single && (homeParts d org true).isEmpty then some .bounds
    else if d.fill = 3 ∧ d.reaches org then some .bounds
    else match f.ap with
      | some k => if (s.aperture s.here.ctx k).isEmpty then some .aperture else none
      | none => none

/-- Formation of the target of a word at A's program counter (12 R396). -/
def formTarget (f : Form) (s : State) : Res State :=
  let l := s.cur.loc
  let b := s.here
  if 16 ≤ b.fab.targets.length || !b.readyA ((f.h.oa :: f.h.ob :: f.regs).map AReg.a) || !b.tdReady f.td || b.invalidating then .stall
  else
    let t := b.td f.td
    let org := originOf (b.ax f.h.oa) (b.ax f.h.ob)
    match s.formFault f t org with
    | some c => .fault c 0
    | none =>
      let d := tdescOf t
      let parts := homeParts d org f.store
      let push (s : State) (elems : List (Nat × List Rng)) (offs : List (Nat × Nat × Nat)) (members : List Nat) : Res State :=
        .ok (s.onHere (fun b => { b with fab := { b.fab with targets := b.fab.targets ++
          [⟨b.engs.A.walk, b.engs.A.pc, t, org, b.ax f.ra, b.ax f.rb, elems, offs, members⟩] } })) {}
      match f.ap with
      | some k => push s [] parts (s.aperture b.ctx k)
      | none =>
        if d.asp = .virt ∧ parts.any (fun p => s.held b.ctx p.2.1 p.2.2) then .stall
        else match s.formParts l d.asp f.store (sortOn (·.2.1) parts) with
          | (_, .fault c, _) => .fault c 0
          | (s, .page va, _) => .page s va f.store 9
          | (s, .ok _, elems) =>
            if f.noHost ∧ inHost (elems.flatMap (·.2)) then .fault .atomic 0 else push s (sortOn (·.1) elems) [] []

/-! ## Requests (12 R395, R405 to R409) -/

/-- The identifiers of F's outstanding reads. -/
def FabSt.readIds (f : FabSt) : List Nat := (f.reqs.filter (fun r => r.op.reads)).map (·.id)

/-- The identifiers of every outstanding request of F. -/
def FabSt.allIds (f : FabSt) : List Nat := f.reqs.map (·.id)

/-- What an F word waits for before it issues: earlier acquires, and room (12 R395, R407). -/
def Bank.fabRoom (b : Bank) : Bool := b.fab.acqBar.isEmpty && b.fab.reqs.length < 256

/-- The target of the word at F's program counter, at the head of the queue. -/
def Bank.headTarget (b : Bank) : Option Target :=
  match b.fab.targets with
  | t :: _ => if t.walk = b.engs.F.walk then some t else none
  | [] => none

/-- The time of a slot (12 R409, 05 R159). -/
def State.slotTime (s : State) (b : Bank) (n : Nat) : Nat :=
  let len := match b.launch.bind s.launch with
    | some x => x.pkt.slotlen
    | none => 0
  b.seq.t0 + n * len

/-- Whether a request is sent: the first flit of each of its packets has entered an Omuno port (12 R407). -/
def FReq.wasSent (q : FReq) : Bool := q.sentAt.isSome && q.rest == 0

/-- The release condition of a word at a scope (12 R407): in windows every earlier write is sent, else the earlier requests have performed. -/
def State.relReady (s : State) (scope : Scope) : Bool :=
  if s.windowed scope then s.here.fab.reqs.all (fun r => !r.op.writes || r.wasSent)
  else !scope.wide || s.here.fab.reqs.all (fun r => !r.op.writes)

/-- What a release fence leaves for later words (12 R407, R408): out of windows, later writes come after everything before it; at PANEL and FABRIC
scope, later writes are its release. -/
def FabSt.fence (f : FabSt) (wide windowed : Bool) : FabSt :=
  { f with
    relBar := if windowed then f.relBar else f.relBar ++ f.allIds
    fenced := f.fenced || wide
    fenceIds := if wide then (f.reqs.filter (fun r => r.op.writes)).map (·.id) else f.fenceIds }

/-- Parts of a request that lie on this package. -/
def nearParts (l : List (Nat × List Rng)) : List (Nat × List Rng) :=
  l.filter (fun p => p.2.all (fun r => match r.pl with | .pa a => homeOf a != 8 | .sp0 _ _ => true))

/-- The physical address of a remote range. -/
def Rng.paOf (r : Rng) : Nat := match r.pl with | .pa a => a | .sp0 _ o => o

/-- The bytes that a store sends to one range of a part. -/
def partData (data : List (Nat × List Byte)) (l : List Rng) (e : Nat) (r : Rng) : List Byte :=
  let before := (l.takeWhile (fun x => x != r)).foldl (fun n x => n + x.len) 0
  (((assoc data e).getD []).drop before).take r.len

/-- What a packet asks of the home of a remote range, with its kind. -/
def FReq.ask (q : FReq) (e : Nat) (r : Rng) : PKind × PReq :=
  match q.op with
  | .ld .. => (.read, .read r.len)
  | .st data => (.write, .write (partData data ((assoc q.elems e).getD []) e r))
  | .amo op w8 _ _ x y => (.amo, .amo op w8 x y)
  | .gadd fmt x => (.gadd, .gadd fmt x)
  | _ => (.write, .none)

/-- The bytes that an asked request carries. -/
def PReq.payload : PReq → List Byte
  | .write d | .mwrite _ _ d => d
  | _ => []

/-- The packets of a request to other packages (log entry 12). A multicast is addressed to the package of its first member; the switch layer
brings a copy to each. -/
def State.farPackets (s : State) (l : Loc) (q : FReq) : List Packet :=
  let die := dieOf l.core
  (farRngs q.elems).map (fun p =>
    let k := q.ask p.1 p.2
    { s.packet die (remoteDst die p.2.paOf) k.1 (FCls.pcls q.cls) q.scope q.id (remoteOff p.2.paOf) k.2 (PReq.payload k.2) with rel := q.rel })
  ++ q.offs.map (fun p =>
    let r : PKind × PReq := match q.op with
      | .mcst data _ => (.mcwrite, .mwrite q.members [] ((assoc data p.1).getD []))
      | _ => (.mcread, .mread q.members [] p.2.2)
    { s.packet die (NetAddr.of (q.members.headD 0 / 16) die) r.1 (FCls.pcls q.cls) q.scope q.id p.2.1 r.2 (PReq.payload r.2) with rel := q.rel })

/-- What each part of a request off this package goes by: the number of the package, or none for a multicast, and export window and offset. -/
def FReq.places (q : FReq) : List (Option Nat × Nat) :=
  (farRngs q.elems).map (fun p => (some (bits p.2.paOf 47 36), remoteOff p.2.paOf)) ++ q.offs.map (fun p => (none, p.2.1))

/-- The bytes of other packages that a request acts on: package and export window as one number, offset and length. -/
def FReq.spots (q : FReq) : List (Nat × Nat × Nat) :=
  (farRngs q.elems).map (fun p => (bits p.2.paOf 47 32, bits p.2.paOf 31 0, p.2.len))
  ++ q.members.flatMap (fun m => q.offs.map (fun p => (m, p.2.1 % 2 ^ 32, p.2.2)))

/-- Whether an earlier request of the same class to bytes of a request off this package has still to go out (12 R406). -/
def Bank.goesAfter (b : Bank) (q : FReq) : Bool :=
  (b.fab.reqs.takeWhile (fun r => r.id != q.id)).any (fun r =>
    r.cls == q.cls && !r.gone && r.spots.any (fun x => q.spots.any (fun y => x.1 == y.1 && meets x.2 y.2)))

/-- The key of a part of a request on this package among what has come back; the parts of other packages have their place in the request. -/
def nearKey (e : Nat) : Nat := 2 ^ 61 + e

/-- The answer of a request whose every part has performed, if all have come back. -/
def FReq.settled (q : FReq) : FReq :=
  let far := farRngs q.elems
  let n := far.length + q.offs.length
  let back (k : Nat) : List (Option (List Byte)) := (assoc q.got k).getD []
  if q.ans.isSome || !q.near || !(upTo n).all (fun i => (assoc q.got i).isSome) then q
  else if q.members.isEmpty then
    let here := (nearParts q.elems).map (fun p => (p.1, ((back (nearKey p.1)).headD (some [])).getD []))
    let away := ((upTo far.length).zip far).map (fun p => (p.2.1, ((back p.1).headD (some [])).getD []))
    { q with ans := some (.ok (here ++ away)) }
  else
    { q with ans := some (.members ((upTo q.members.length).map (fun i =>
        let l := ((upTo q.offs.length).zip q.offs).map (fun p => (p.2.1, (back p.1).getD i none))
        if l.all (fun p => p.2.isSome) then some (l.map (fun p => (p.1, p.2.getD []))) else none))) }

/-- What comes back for the part of a request at a place: of several parts at one place, for the first that lacks it. -/
def FReq.takes (q : FReq) (src off : Nat) (l : List (Option (List Byte))) : FReq :=
  let n := q.places.length
  match ((upTo n).zip q.places).find? (fun p => (p.2.1.all (· == src)) && p.2.2 == off && (assoc q.got p.1).isNone) with
  | some (i, _) => FReq.settled { q with got := q.got ++ [(i, l)] }
  | none => q

/-- Whether a request's slot time has come. -/
def State.slotDue (s : State) (q : FReq) : Bool :=
  match q.slotAt with
  | some t => t ≤ s.dtime
  | none => true

/-- The error estimate of the clock at a time in ns, saturating (13 R447, R459). -/
def State.clockErrAt (s : State) (t : Nat) : Nat :=
  let c := s.net.clock
  if c.synced then min 0xFFFF (c.offset + c.asym + (t - c.syncAt) / 10000000) else 0xFFFF

/-- The error estimate now. -/
def State.clockErr (s : State) : Nat := s.clockErrAt s.dtime

/-- The guard in ns (13 R447). -/
def clockGuard : Nat := 50

/-- Whether the clock is within the guard. -/
def State.clockGood (s : State) : Bool := s.clockErr ≤ clockGuard

/-- A thing that the switch layer is told for a change of mode (13 R453, R456). -/
def State.report (s : State) (r : ModeReport) : State :=
  { s with net := { s.net with win := { s.net.win with reports := s.net.win.reports ++ [r] } } }

/-- A slot that words of this package go in is judged at its start: with err past the guard it is not used, its words go unslotted from then on,
and the switch layer is told (13 R453). -/
def State.useSlot (s : State) (slot : Option Nat) : State :=
  match slot with
  | some t => if clockGuard < s.clockErrAt t then s.report .missedSlot else s
  | none => s

/-- A request goes out once its slot has come and what it waits for has performed: to this package at once, to others by packet; it fails for a
package that is not routed (12 R400). -/
def State.sendReq (s : State) (l : Loc) (id : Nat) : State :=
  match (s.bank l).req id with
  | none => s
  | some q =>
    if q.gone || !q.after.isEmpty || !s.slotDue q || (s.bank l).goesAfter q then s
    else
      let ps := s.farPackets l q
      let win := if q.rel && s.windowed q.scope then some (s.windowOf s.dtime) else none
      let s := s.useSlot q.slotAt
      let go (f : FReq → FReq) : State := s.setBank l ((s.bank l).modReq id (fun q => f { q with gone := true, win }))
      if ps.isEmpty then go (fun q => FReq.settled { q with sentAt := some s.dtime })
      else if ps.any (fun p => !p.kind.isMulti && !Config.routed (s.net.routing.bank s.net.routing.act) p.dst.pkgNum) then
        go (fun q => { q with sentAt := some s.dtime, ans := some (.fail 7) })
      else ps.foldl (fun s p => s.sendSeq (dieOf l.core) p 0) (go (fun q => { q with rest := ps.length }))

/-- Whether the slot that an issuing word goes in has passed (12 R409). A slot that started with err past the guard is not used: its words have no slot,
and none of them is late (13 R453). -/
def State.slotPast (s : State) (slot : Option Nat) : Bool := slot.any (fun t => decide (t < s.dtime ∧ s.clockErrAt t ≤ clockGuard))

/-- A request put into the list of outstanding ones; its slot may have passed (12 R409). It goes out if it can. -/
def State.addReq (s : State) (q : FReq) : State :=
  let l := s.cur.loc
  let late := s.slotPast q.slotAt
  let s := s.onHere (fun b => { b with fab := { b.fab with
    reqs := b.fab.reqs ++ [q], late := b.fab.late || late } })
  (if late then s.logEvent .slotLate (dieOf l.core) 0 0 else s).sendReq l q.id

/-- The extent of the share that an outstanding request still writes: its image. -/
def FReq.image (q : FReq) : Option (Nat × Nat) :=
  match q.op with
  | .ld t org false _ | .mcld t org _ _ _ => some ((tdescOf t).spbase, (tdescOf t).imgBytes org)
  | _ => none

/-- Whether a request of a list has still to write bytes of an extent (12 R406). -/
def imagesMeet (l : List FReq) (x : Nat × Nat) : Bool := l.any (fun r => r.image.any (meets x))

/-- What an issuing F word with a target asks for: its operation, ord, whether it retires at issue, and its entries in `ds`. -/
structure FIssue where
  op     : FOp
  rel    : Bool
  acq    : Bool
  posted : Bool
  ds     : Nat
  /-- bytes of the share that the word reads, and the extent of its image -/
  src    : List Nat := []
  img    : Option (Nat × Nat) := none

/-- An F word with a target at issue (12 R395, R403 to R406, R408, R411, R412). -/
def State.issueReq (s : State) (h : FabHead) (f : Target → FIssue) : Res State :=
  let b := s.here
  match b.headTarget with
  | none => .stall
  | some t =>
    let x := f t
    let w := b.engs.F.walk
    if !b.fabRoom || !b.room .ds x.ds || (x.rel && !s.relReady h.scope) || x.img.any (imagesMeet b.fab.reqs) then .stall
    else match x.src.find? (fun a => b.acc.bad.contains a) with
    | some a => .fault .uncorr a
    | none =>
      let (id, s) := s.newId
      let fab := if x.rel then b.fab.fence h.scope.wide (s.windowed h.scope) else b.fab
      let rel := x.rel || (x.op.writes && fab.fenced && h.scope.wide)
      let q : FReq := { id, walk := w, pc := b.engs.F.pc, op := x.op, scope := h.scope, cls := h.cls, elems := t.elems
                        offs := t.offs, members := t.members, slotAt := h.slot.map (fun n => s.slotTime b n.toNat)
                        gone := false, sentAt := none, rest := 0, via := [], rel, win := none
                        after := if x.op.writes || x.rel then fab.relBar else [], before := if rel then fab.fenceIds else []
                        near := (nearParts t.elems).isEmpty, got := [], ans := none }
      let s := s.onHere (fun b =>
        { b.reserveN .ds w x.ds with fab := { fab with
            targets := b.fab.targets.drop 1
            acqBar := if x.acq then b.fab.acqBar ++ b.fab.readIds ++ [id] else b.fab.acqBar } })
      let s := s.addReq q
      if s.here.flt.isSome then .ok s {}
      else .ok s { waits := if x.posted then [] else [id], effs := if x.ds = 0 then [] else [.vis .ds w] }

/-! ### Performing at a home on this package (12 R398, R400, R403 to R406) -/

/-- Earlier requests of the same class to bytes of a request that have not performed (12 R406). -/
def Bank.fabEarlier (b : Bank) (q : FReq) : Bool :=
  (b.fab.reqs.takeWhile (fun r => r.id != q.id)).any (fun r =>
    r.cls == q.cls && !r.near && overlap (r.elems.flatMap (·.2)) (q.elems.flatMap (·.2)))

/-- The new value of an `FB.AMO`, and whether it is written (12 R404). -/
def famoNew (op : FAmoOp) (nbits old : Nat) (x y : Reg64) : Option Nat :=
  match op with
  | .amo k => some (amoNew k nbits old (x.toNat % 2 ^ nbits))
  | .cas => if old = y.toNat % 2 ^ nbits then some (x.toNat % 2 ^ nbits) else none

/-- What an operation does at ranges of its home: what it read there, and the state after. -/
def State.homeOp (s : State) (op : FOp) (e : Nat) (r : List Rng) : List Byte × State :=
  let old := s.readRngs r
  match op with
  | .st data => ([], s.writeRngs r ((assoc data e).getD []))
  | .amo k w8 _ _ x y =>
    (old, match famoNew k (8 * w8n w8) (ofLe old) x y with
      | some v => s.writeRngs r (leBytes (w8n w8) v)
      | none => s)
  | .gadd fmt x => ([], s.writeRngs r (leBytes 32 (gaddCell fmt x (ofLe old))))
  | _ => (old, s)

/-- Every part on this package performed in window order. -/
def State.homeOps (s : State) (op : FOp) : List (Nat × List Rng) → List (Nat × List Byte) × State
  | [] => ([], s)
  | (e, r) :: t =>
    let (d, s) := s.homeOp op e r
    let (ds, s) := s.homeOps op t
    ((e, d) :: ds, s)

/-- Whether an operation reads the bytes of its home, so that an uncorrectable one fails it (12 R400 step 6). -/
def FOp.needsData : FOp → Bool
  | .st _ | .mcst .. => false
  | _ => true

/-- Whether a release of this package in windows may perform at a home here: at the start of window N + 2, once the earlier writes to homes here have
performed (07 R259, 12 R408). -/
def State.nearTime (s : State) (b : Bank) (q : FReq) : Bool :=
  match q.win with
  | none => true
  | some n => n + 2 ≤ s.windowOf s.dtime
      && (b.fab.reqs.takeWhile (fun r => r.id != q.id)).all (fun r => r.near || !r.op.writes)

/-- `REMOTE_REQUEST_ARRIVAL` of an own request: its parts on this package perform (12 R398, R400). -/
def State.arriveOwn (s : State) (l : Loc) (id : Nat) : State :=
  match s.reqLaunch l id with
  | none => s
  | some k =>
    let b := s.partOf k l
    match b.req id with
    | none => s
    | some q =>
      let parts := nearParts q.elems
      if !q.gone || q.near || q.ans.isSome || !s.nearTime b q || b.fabEarlier q || s.movingRngs (parts.flatMap (·.2)) then s
      else
        match s.badRngs (if q.op.needsData then parts.flatMap (·.2) else []) with
        | some a => (s.logEvent .eccUncorr (dieOf l.core) 0 a).modPart k l (fun b => b.modReq id (fun q => { q with ans := some (.fail 5) }))
        | none =>
          let (d, s) := s.homeOps q.op parts
          s.modPart k l (fun b => b.modReq id (fun q =>
            FReq.settled { q with near := true, got := q.got ++ d.map (fun p => (nearKey p.1, [some p.2])) }))

/-! ### Replies (12 R400, R403, R404, R411, R412) -/

/-- Bytes written into a bank's own image. -/
def Bank.partPut (b : Bank) (d : TDesc) (p : WPart) (data : List Byte) : Bank :=
  let o := d.partOff p
  if o % 64 + data.length ≤ 64 then b.sp0Put (d.spAddr o) data
  else (upTo data.length).foldl (fun b k => b.sp0Put (d.spAddr (o + k)) [data.getD k 0]) b

/-- The bytes of a part that came back; a part over two pages comes in two pieces. -/
def backOf (back : List (Nat × List Byte)) (e : Nat) : List Byte := (back.filter (fun p => p.1 == e)).flatMap (·.2)

/-- A window written from what came back; parts without a home take their fill (12 R403). -/
def Bank.windowPut (b : Bank) (t : List Reg64) (org : List Int) (back : List (Nat × List Byte)) : Bank :=
  let d := tdescOf t
  let l := d.parts org
  (l.zip (upTo l.length)).foldl (fun b p =>
    match d.load org p.1 with
    | .addr _ _ => b.partPut d p.1 (backOf back p.2)
    | .bytes x => b.partPut d p.1 (x.take (d.partLen p.1))
    | _ => b) b

/-- An integer format's width in bits, for sign extension (12 R403). -/
def intBits (fmt : Nat) : Option Nat := if fmt < 4 then some (8 * 2 ^ fmt) else none

/-- The value that `FB.LD.ds` pushes. -/
def dsValue (t : List Reg64) (org : List Int) (z : Bool) (back : List (Nat × List Byte)) : Reg64 :=
  let d := tdescOf t
  let x := match d.load org (.unit 0) with
    | .bytes x => ofLe (x.take d.es)
    | _ => ofLe (backOf back 0)
  match intBits d.fmt with
  | some n => ext64 z n x
  | none => BitVec.ofNat 64 x

/-- The failure bitmap of a merged reply (12 R411). -/
def failBits (l : List (Option (List (Nat × List Byte)))) : Reg64 :=
  BitVec.ofNat 64 (l.foldr (fun x n => bit x.isNone + 2 * n) 0)

/-- Members whose cells have the anchors of the lowest-numbered member that remains (12 R412). -/
def sameAnchors (d : List (Nat × List Byte)) (x : Option (List (Nat × List Byte))) : Option (List (Nat × List Byte)) :=
  match x with
  | some y => if d.all (fun p => bits (ofLe p.2) 239 224 == bits (ofLe (backOf y p.1)) 239 224) then some y else none
  | none => none

/-- The members that a reduction takes. -/
def reduceOver (red : Red) (l : List (Option (List (Nat × List Byte)))) : List (Option (List (Nat × List Byte))) :=
  match red, (l.filterMap id).head? with
  | .sum, some d => l.map (sameAnchors d)
  | _, _ => l

/-- One element reduced over the members that remain (12 R412). -/
def reduceElem (red : Red) (fmt : Nat) (z : Bool) (l : List Nat) : Nat × FlagBits :=
  match red with
  | .sum =>
    match l with
    | [] => (0, 0)
    | c :: _ => (grainCell (l.foldl (fun v c => v + grainV c) 0) (bits c 239 224) (l.foldl (fun g c => g ||| grainFlags c) 0), 0)
  | .min | .max =>
    let less := red == .min
    if fmt = 6 ∨ fmt = 7 then
      let f := ffmtOf fmt
      match l with
      | [] => (f.infBits (!less), 0)
      | c :: t =>
        let r := t.foldl (fun (a : Fl × FlagBits) y => let q := (if less then flMin else flMax) a.1 (f.read y); (q.1, a.2 ||| q.2)) (f.read c, 0)
        ((f.round .rne 0 r.1).1, r.2)
    else
      let n := 8 * esOf fmt
      match l with
      | [] => (wrapTo n (if less then (intRange z n).2 else (intRange z n).1), 0)
      | c :: t => (t.foldl (fun a y =>
          if less then (if intOf z n y < intOf z n a then y else a) else (if intOf z n a < intOf z n y then y else a)) c, 0)

/-- A reduced window, with the flags of its NaN inputs. -/
def reduceParts (red : Red) (t : List Reg64) (org : List Int) (z : Bool) (l : List (Option (List (Nat × List Byte)))) :
    List (Nat × List Byte) × FlagBits :=
  let d := tdescOf t
  let r := (homeParts d org false).map (fun p =>
    let x := reduceElem red d.fmt z ((l.filterMap id).map (fun m => ofLe (backOf m p.1)))
    ((p.1, leBytes p.2.2 x.1), x.2))
  (r.map (·.1), r.foldl (fun f x => f ||| x.2) 0)

/-- A request leaves the list; the words that wait for it go on, and the watchdog is cleared (12 R395). -/
def Bank.reqDone (b : Bank) (id : Nat) : Bank :=
  ({ b with fab := { b.fab with reqs := b.fab.reqs.filter (fun r => r.id != id) } }).complete id

/-- What a reply leaves in its core. -/
def Bank.replied (b : Bank) (q : FReq) (a : FAns) : Bank :=
  match a, q.op with
  | .fail c, _ => (b.takeFault .fremote q.pc c).reqDone q.id
  | .ok back, .ld t org ds z =>
    (if ds then b.fill .ds q.walk [dsValue t org z back] else b.windowPut t org back).reqDone q.id
  | .ok back, .amo _ w8 nr z _ _ => (if nr then b else b.fill .ds q.walk [oldReg w8 z (ofLe (back.flatMap (·.2)))]).reqDone q.id
  | .members l, .mcst _ ack =>
    let f := failBits l
    (if ack then b.fill .ds q.walk [f]
     else { b with fab := { b.fab with fmc := b.fab.fmc ||| f, mcfail := b.fab.mcfail || f != 0 } }).reqDone q.id
  | .members l, .mcld t org red qq z =>
    let m := reduceOver red l
    let r := reduceParts red t org z m
    let b := (b.windowPut t org r.1).raiseF r.2
    (if qq then b.fill .ds q.walk [failBits m] else b).reqDone q.id
  | _, _ => b.reqDone q.id

/-- Whether the answer of a request may be taken: earlier requests that write bytes of its image have done so (12 R406). -/
def Bank.mayReply (b : Bank) (q : FReq) : Bool :=
  !q.image.any (imagesMeet (b.fab.reqs.takeWhile (fun r => r.id != q.id)))

/-- `REMOTE_REPLY`: the answer reaches the core's part, resident or saved. -/
def State.reply (s : State) (l : Loc) (id : Nat) : State :=
  match s.reqLaunch l id with
  | none => s
  | some k =>
    match (s.partOf k l).req id with
    | some q => match q.ans with
      | some a => if (s.partOf k l).mayReply q then (s.modPart k l (fun b => b.replied q a)).notePart k l else s
      | none => s
    | none => s

/-- A request goes on as far as it can at once. -/
def State.goOnReq (s : State) (l : Loc) (id : Nat) : State := ((s.sendReq l id).arriveOwn l id).reply l id

/-- The requests of a core go on as far as they can in an eager turn. -/
def State.goOnF (s : State) (l : Loc) : State :=
  (s.bank l).fab.reqs.foldl (fun s q => s.goOnReq l q.id) s

/-- A word of F. -/
def fabWord (i : Instr) (s : State) (f : State → Res State) : Out := eagerly State.goOnF (packageWord i s f)

/-- A word of F that has a target: A forms it, F issues it. -/
def targetWord (i : Instr) (s : State) (form : Form) (f : Target → State → FIssue) : Out :=
  if s.cur.eng = .A then formWord i s (formTarget form)
  else eccNote s.cur.loc s (fabWord i s (fun s => s.issueReq form.h (fun t => f t s)))

/-! ## Words with a target (12 R403 to R405, R411, R412) -/

/-- The bytes of each part that a store sends, from the image at issue. -/
def Bank.storeData (b : Bank) (t : Target) (parts : List Nat) : List (Nat × List Byte) :=
  let d := tdescOf t.tdr
  let l := d.parts t.org
  (l.zip (upTo l.length)).filterMap (fun p =>
    if parts.contains p.2 then some (p.2, (upTo (d.partLen p.1)).map (fun k => spGet 0 b.acc.sp0 (d.spAddr (d.partOff p.1 + k)))) else none)

/-- The bytes of the image that a store reads. -/
def Target.srcBytes (t : Target) (parts : List Nat) : List Nat :=
  let d := tdescOf t.tdr
  let l := d.parts t.org
  (l.zip (upTo l.length)).flatMap (fun p =>
    if parts.contains p.2 then (upTo (d.partLen p.1)).map (fun k => d.spAddr (d.partOff p.1 + k)) else [])

/-- The extent of the image of a target. -/
def Target.image (t : Target) : Nat × Nat := ((tdescOf t.tdr).spbase, (tdescOf t.tdr).imgBytes t.org)

/-- One element of a window. -/
def oneElem (d : TDesc) : Bool := (upTo 4).all (fun j => dimOf d.win j == 1)

/-- `FB.LD` (12 R403). -/
def execFbLd (m : Dep) (td : Fin 64) (h : FabHead) (ds z acq : Bool) (s : State) : Out :=
  targetWord (.fbLd m td h ds z acq) s
    { td, h, image := !ds, store := false, shape := fun d => !ds || (oneElem d && d.es ≤ 8 && !d.vx4) }
    (fun t _ => { op := .ld t.tdr t.org ds z, rel := false, acq, posted := false, ds := if ds then 1 else 0 })

/-- `FB.ST` (12 R403). -/
def execFbSt (m : Dep) (td : Fin 64) (h : FabHead) (rel : Bool) (s : State) : Out :=
  targetWord (.fbSt m td h rel) s { td, h, image := true, store := true }
    (fun t s => { op := .st (s.here.storeData t (t.elems.map (·.1))), rel, acq := false, posted := true, ds := 0
                  src := t.srcBytes (t.elems.map (·.1)), img := some t.image })

/-- Ops that host memory serves (07 R238). -/
def hostOk : FAmoOp → Bool
  | .amo .add | .amo .swap | .cas => true
  | _ => false

/-- `FB.AMO` (12 R404). -/
def execFbAmo (m : Dep) (td : Fin 64) (h : FabHead) (nr z : Bool) (ord : Ord) (op : FAmoOp) (ra rb : Fin 32) (s : State) : Out :=
  targetWord (.fbAmo m td h nr z ord op ra rb) s
    { td, h, regs := [ra, rb], ra, rb, image := false, store := true, single := true, noHost := !hostOk op
      shape := fun d => oneElem d && (d.fmt == 2 || d.fmt == 3) }
    (fun t _ => { op := .amo op ((tdescOf t.tdr).fmt == 3) nr z t.ra t.rb, rel := ord.releases, acq := ord.acquires, posted := nr
                  ds := if nr then 0 else 1 })

/-- `FB.GADD` (12 R405). -/
def execFbGadd (m : Dep) (td : Fin 64) (h : FabHead) (fmt : GFmt) (rel : Bool) (ra : Fin 32) (s : State) : Out :=
  targetWord (.fbGadd m td h fmt rel ra) s
    { td, h, regs := [ra], ra, image := false, store := true, single := true, noHost := true
      shape := fun d => oneElem d && d.fmt == 0x0E }
    (fun t _ => { op := .gadd fmt t.ra, rel, acq := false, posted := true, ds := 0 })

/-- `FB.MCST` (12 R411). -/
def execFbMcst (m : Dep) (td : Fin 64) (h : FabHead) (ack rel : Bool) (ap : Fin 64) (s : State) : Out :=
  targetWord (.fbMcst m td h ack rel ap) s { td, h, image := true, store := true, ap := some ap.val }
    (fun t s => { op := .mcst (s.here.storeData t (t.offs.map (·.1))) ack, rel, acq := false, posted := !ack, ds := if ack then 1 else 0
                  src := t.srcBytes (t.offs.map (·.1)), img := some t.image })

/-- `FB.MCLD` (12 R412). -/
def execFbMcld (m : Dep) (td : Fin 64) (h : FabHead) (red : Red) (q z : Bool) (ap : Fin 64) (s : State) : Out :=
  targetWord (.fbMcld m td h red q z ap) s
    { td, h, image := true, store := false, ap := some ap.val
      shape := fun d => if red = .sum then d.fmt == 0x0E else [2, 3, 6, 7].contains d.fmt }
    (fun t _ => { op := .mcld t.tdr t.org red q z, rel := false, acq := false, posted := false, ds := if q then 1 else 0 })

/-! ## Fences (12 R407) -/

/-- A fence of F at issue. -/
def fabFence (scope : Scope) (acq rel sc : Bool) (s : State) : Res State :=
  let b := s.here
  if !b.fabRoom || (acq && !b.fab.readIds.isEmpty) || (sc && !b.fab.allIds.isEmpty) || (rel && !s.relReady scope) then .stall
  else if !rel then .ok s {}
  else
    .ok (s.onHere (fun b => { b with fab := b.fab.fence scope.wide (s.windowed scope) }))
      { waits := if s.windowed scope then [] else b.fab.allIds }

/-- `FB.FENCE.acq` (12 R407). -/
def execFbFenceAcq (m : Dep) (scope : Scope) (s : State) : Out := fabWord (.fbFenceAcq m scope) s (fabFence scope true false false)

/-- `FB.FENCE.rel` (12 R407). -/
def execFbFenceRel (m : Dep) (scope : Scope) (s : State) : Out := fabWord (.fbFenceRel m scope) s (fabFence scope false true false)

/-- `FB.FENCE.ar` (12 R407). -/
def execFbFenceAr (m : Dep) (scope : Scope) (s : State) : Out := fabWord (.fbFenceAr m scope) s (fabFence scope true true false)

/-- `FB.FENCE.sc` (12 R407, 07 R257). -/
def execFbFenceSc (m : Dep) (scope : Scope) (s : State) : Out := fabWord (.fbFenceSc m scope) s (fabFence scope true true true)

/-! ## Subscriptions (12 R413 to R418) -/

/-- The checks of `FB.SUB` that its publisher does not make (12 R414). -/
def State.subFault (s : State) (l : Loc) (x : Launch) (n : Fin 16) (t : Target) (lvl : SubLevel) : Option FCode :=
  let pub := bits t.ra.toNat 9 0
  let d := tdescOf t.tdr
  let member : Bool := match lvl with
    | .none => true
    | .cluster => clusterOf pub == clusterOf l.core
    | .die => dieOf pub == dieOf l.core
    | .package | .launch => true
  if (assoc s.here.fab.subs n.val).isSome then some .subs
  else if pub = l.core ∨ !x.cores.any (fun p => p.core == pub) then some .subs
  else if !member || (lvl != .none && x.ended.contains pub) then some .subs
  else if d.isz % 64 ≠ 0 ∨ 2 ^ 20 < d.isz then some .fshape
  else none

/-- In an eager turn the publisher installs at once. -/
def State.installNow (n : Fin 16) (s : State) (l : Loc) : State :=
  match execSubInstall l n s with
  | .next s => s
  | _ => s

/-- `FB.SUB` (12 R414): A forms the target, F asks the publisher. -/
def execFbSub (m : Dep) (td : Fin 64) (n : Fin 16) (lvl : SubLevel) (rp : Fin 32) (s : State) : Out :=
  let i : Instr := .fbSub m td n lvl rp
  if s.cur.eng = .A then
    formWord i s (fun s =>
      let b := s.here
      if 16 ≤ b.fab.targets.length || !b.readyA [.a rp] || !b.tdReady td then .stall
      else match recCheck (b.td td) none b.hdr.spad with
        | some c => .fault c 0
        | none => .ok (s.onHere (fun b => { b with fab := { b.fab with targets := b.fab.targets ++
            [⟨b.engs.A.walk, b.engs.A.pc, b.td td, [0, 0, 0, 0], b.ax rp, 0, [], [], []⟩] } })) {})
  else eagerly (State.installNow n) (packageWord i s (fun s =>
    let l := s.cur.loc
    match s.here.headTarget, s.here.launch.bind s.launch with
    | some t, some x =>
      if !s.here.fabRoom then .stall
      else match s.subFault l x n t lvl with
        | some c => .fault c 0
        | none =>
          let (id, s) := s.newId
          let d := tdescOf t.tdr
          let pub := bits t.ra.toNat 9 0
          let loc := (x.cores.find? (fun p => p.core == pub)).getD l
          .ok (s.onHere (fun b => { b with fab := { b.fab with
            targets := b.fab.targets.drop 1
            subs := assocPut b.fab.subs n.val ⟨.pending, loc, bits t.ra.toNat 63 32, d.spbase, d.isz, lvl, id⟩ } })) { waits := [id] }
    | _, _ => .stall))

/-- The granules pending for one subscription perform, as far as they can. -/
def State.flushSub (s : State) (l : Loc) (n : Fin 16) (u : Sub) (id : Nat) : State :=
  let i := (s.bank u.pub).fab.fan.findIdx (fun f => f.sub == l && f.slot == n)
  let s := if (s.bank u.pub).launch = some id then
      s.sendEntry u.pub i (((s.bank u.pub).fab.fan.drop i).head?.elim 0 Fan.waiting)
    else s
  s.deliverFrom (fun t => t.pub == u.pub && t.sub == l && t.slot == n) s.transit.length

/-- A subscription ends, its granules delivered: its fan-out entry goes and its slot is FREE (12 R418). -/
def State.endSub (s : State) (l : Loc) (n : Fin 16) (u : Sub) (id : Nat) : State :=
  let s := s.modPart id u.pub (fun p => { p with fab := { p.fab with fan := p.fab.fan.filter (fun f => !(f.sub == l && f.slot == n)) } })
  s.setBank l { s.bank l with fab := { (s.bank l).fab with subs := assocDel (s.bank l).fab.subs n.val } }

/-- `FB.UNSUB` (12 R418). -/
def execFbUnsub (m : Dep) (n : Fin 16) (s : State) : Out :=
  fabWord (.fbUnsub m n) s (fun s =>
    if !s.here.fabRoom then .stall
    else match assoc s.here.fab.subs n.val, s.here.launch with
      | some u, some id =>
        let s' := s.flushSub s.cur.loc n u id
        if u.st = .pending || s'.transit.any (fun t => t.pub == u.pub && t.sub == s.cur.loc && t.slot == n) then .stall
        else .ok (s'.endSub s.cur.loc n u id) {}
      | _, _ => .ok s {})

/-- `FB.SFLUSH` (12 R417). -/
def execFbSflush (m : Dep) (s : State) : Out :=
  fabWord (.fbSflush m) s (fun s =>
    if !s.here.fabRoom || !s.flushes s.cur.loc then .stall else .ok (s.flushFan s.cur.loc) {})

/-! ## Counters, time and status (12 R421 to R424) -/

/-- A word of F whose effects lie in its bank. -/
def fabBank (i : Instr) (s : State) (f : State → Bank → Res Bank) : Out :=
  fabWord i s (fun s =>
    if !s.here.fabRoom then .stall
    else match f s s.here with
      | .stall => .stall
      | .fault c d => .fault c d
      | .page b va w ag => .page (s.setBank s.cur.loc b) va w ag
      | .ok b p => .ok (s.setBank s.cur.loc b) p)

/-- `FB.CWAIT` (12 R421). -/
def execFbCwait (m : Dep) (fc : Fin 16) (v : BitVec 14) (s : State) : Out :=
  fabBank (.fbCwait m fc v) s (fun _ b =>
    let c := spGet 0 b.fab.fc fc.val
    if c.toNat < v.toNat then .stall
    else .ok { b with fab := { b.fab with fc := spPut 0 b.fab.fc fc.val (c - v.zeroExtend 16) } } {})

/-- One entry pushed into `ds` by a word of F. -/
def pushF (v : Reg64) (b : Bank) : Res Bank :=
  if !b.room .ds 1 then .stall else .ok (b.reserve .ds b.engs.F.walk v) { effs := [.vis .ds b.engs.F.walk] }

/-- `FB.TIME.now` (12 R422). -/
def execFbTimeNow (m : Dep) (s : State) : Out := fabBank (.fbTimeNow m) s (fun s b => pushF (BitVec.ofNat 64 s.dtime) b)

/-- `FB.TIME.win` (12 R422). -/
def execFbTimeWin (m : Dep) (s : State) : Out :=
  fabBank (.fbTimeWin m) s (fun s b => pushF (BitVec.ofNat 64 (s.windowOf s.dtime % 2 ^ 63 + 2 ^ 63 * bit (!s.net.win.panelW))) b)

/-- `FB.TIME.until` (12 R422). -/
def execFbTimeUntil (m : Dep) (n : BitVec 16) (s : State) : Out :=
  fabBank (.fbTimeUntil m n) s (fun s b => if s.dtime < s.slotTime b n.toNat then .stall else .ok b {})

/-- `TIME_UNTIL_REACHED`: a waiting `FB.TIME.until` goes on (12 R422). -/
def execTimeUntilReached (l : Loc) (s : State) : Out :=
  let s' := { s with cur := { loc := l, eng := .F, eager := false } }
  match s'.here.meet .F with
  | .own (.fbTimeUntil m n) => if s'.here.slipOk .F then execFbTimeUntil m n s' else .next s
  | _ => .next s

/-- `FSTATUS` (12 R424). -/
def Bank.fstatus (b : Bank) : Reg64 :=
  BitVec.ofNat 64 (b.fab.flags.toNat + 2 ^ 8 * bit b.fab.mcfail + 2 ^ 9 * bit b.fab.late)

/-- An earlier `FB.MCLD` may still raise flags: a read of the status waits for it, so that flags do not depend on time (01 R34). -/
def Bank.mcldOut (b : Bank) : Bool := b.fab.reqs.any (fun r => match r.op with | .mcld .. => true | _ => false)

/-- `FB.STAT` (12 R423, R425). -/
def execFbStat (m : Dep) (clr : Bool) (s : State) : Out :=
  fabBank (.fbStat m clr) s (fun _ b =>
    if b.mcldOut then .stall
    else match pushF b.fstatus b with
    | .ok b p => .ok (if clr then { b with fab := { b.fab with flags := 0, mcfail := false, late := false, fmc := 0 } } else b) p
    | r => r)

/-! ## Events (12 R400, R409) -/

/-- `SLOT_TIME_REACHED`: a slotted word's packets are sent (12 R409). -/
def execSlotTimeReached (l : Loc) (id : Nat) (s : State) : Out := .next (s.sendReq l id)

/-- `REMOTE_REPLY` (12 R400). -/
def execRemoteReply (l : Loc) (id : Nat) (s : State) : Out := .next (s.reply l id)

/-- Whether a hop that a request has taken retrains or replays, or a packet of it that a failed link gave back waits to go again (13 R442). -/
def State.routeBusy (s : State) (q : FReq) : Bool :=
  q.via.any (fun k => s.endTrains k || !(s.linkAt k).replay.isEmpty)
    || s.net.links.any (fun x => x.2.out.any (fun o => s.isMine o.p && o.p.sent && o.p.kind.asks && o.p.tag.toNat == q.id % 2 ^ 32))

/-- `REQUEST_TIMEOUT`: no reply within `FRTO` of the send (12 R400, 13 R442). -/
def execRequestTimeout (l : Loc) (id : Nat) (s : State) : Out :=
  .next (match s.reqLaunch l id with
    | none => s
    | some k => match (s.partOf k l).req id with
      | some q => match q.sentAt with
        | some t =>
          if q.ans.isNone ∧ t + 1000 * s.regs.frto < s.dtime ∧ !s.routeBusy q then
            (s.modPart k l (fun b => b.modReq id (fun q => { q with ans := some (.fail 6) }))).reply l id
          else s
        | none => s
      | none => s)

end Sys2Proof.Machine
end

