-- ==== Sys2Proof/Machine/Csr.lean ====
section
/-!
DEFINITION. Control and status registers (04 R132, R133): what each one reads, and the two words that read and write them. The tables are those
of 02 R47, R53, R62; 04 R103, R120, R133; 05 R144; 06 R220; 08 R297; 09 R334 to R336; 10 R364; 11 R391; 12 R425; 14 R479.
-/

namespace Sys2Proof.Machine

/-- Numbers laid side by side in fields of `w` bits, the first lowest. -/
def fields (w : Nat) : List Nat → Nat
  | [] => 0
  | x :: t => x % 2 ^ w + 2 ^ w * fields w t

/-! ## Sequencer (02 R47, R62; 04 R103, R120, R133) -/

/-- `TOKOCC` (02 R47). -/
def Bank.tokocc (b : Bank) : Nat :=
  let g := b.engs
  fields 4 [g.A.tokPrev, g.M.tokPrev, g.V.tokPrev, g.T.tokPrev, g.F.tokPrev, g.S.tokPrev,
    g.S.tokNext, g.A.tokNext, g.M.tokNext, g.V.tokNext, g.T.tokNext, g.F.tokNext]

/-- `BOQOCC` (02 R62). -/
def Bank.boqocc (b : Bank) : Nat := fields 7 (boqEngines.map (fun e => (b.eng e).boq.length))

/-- `CQOCC` (04 R103): visible entries and their bits. Entries are counted from the head to the first that is not visible, since no later one can be
popped before it (log entry 48). -/
def Bank.cqocc (b : Bank) : Nat :=
  let l := b.queues.cq.takeWhile (·.vis)
  fields 1 (l.map (fun x => x.val.toNat)) + 2 ^ 16 * l.length

/-- `STEN` (04 R133). -/
def Bank.stenAll (b : Bank) : Nat := fields 8 (allEngines.map (fun e => (b.eng e).sten.toNat))

/-- `SEMV`n (04 R120). -/
def Bank.semv (b : Bank) (n : Nat) : Nat :=
  let k : Fin 32 := Fin.ofNat 32 n
  b.semCount k + 2 ^ 16 * b.semCeil k + 2 ^ 28 * bit (bitAt b.hdr.semmask n)

/-! ## Access and copy (06 R220; 09 R334 to R336) -/

/-- `QSTAT` (06 R220). -/
def Bank.qstat (b : Bank) : Nat :=
  fields 8 ((upTo 8).map (fun n => match assoc b.acc.q n with
    | some x => 128 + 64 * bit x.wr + 8 * (x.held.length % 8)
    | none => 0))

/-- The size in bytes of a scratchpad window of the bank's context. -/
def State.winSize (s : State) (b : Bank) (f : Ctx → Nat) : Nat := match s.ctx b.ctx with | some c => 65536 * f c | none => 0

/-- `CSTATE` (09 R335). -/
def Bank.cstate (b : Bank) : Nat :=
  fields 8 ((upTo 8).map (fun n =>
    let c := b.chan n
    c.cmds.length + 32 * bit c.sched + 64 * bit c.pf.isSome + 128 * bit !c.cmds.isEmpty))

/-- `CSPILL` (09 R334): of the channels of both banks of a core. -/
def Core.cspill (k : Core) : Nat := k.b0.spilled + k.b1.spilled

/-- `RING`n (09 R336). -/
def Bank.ringState (b : Bank) (n : Nat) : Nat :=
  match assoc b.car.rings n with
  | none => 0
  | some r =>
    r.slotOf r.head + 2 ^ 8 * r.slotOf r.tail + 2 ^ 16 * r.st.count .reserved + 2 ^ 24 * r.st.count .full
      + 2 ^ 32 * (if r.modeR then 2 else 1) + 2 ^ 40 * (r.slots - 1)

/-! ## Matrix, vector, transform and fabric (10 R364; 08 R297; 11 R391; 12 R425; 14 R479) -/

/-- `MWIN` (10 R364): words that wait in the window, and whether one has started. -/
def Bank.mwin (b : Bank) : Nat := b.mx.win.length + 32 * bit b.mx.run.isSome

/-- `MSAT`n (10 R364). -/
def Bank.msat (b : Bank) (n : Nat) : Nat := fields 1 ((upTo 64).map (fun k => bit (b.satBit (64 * n + k))))

/-- `VCBOCC` (08 R297). -/
def Bank.vcbocc (b : Bank) : Nat := fields 10 ((upTo 4).map (fun n => (assoc b.vec.cb n).elim 0 (fun c => c.elems.length)))

/-- `VTYPE` (08 R297). -/
def Bank.vtype (b : Bank) : Nat :=
  fields 3 ((upTo 4).map (fun n => match assoc b.vec.cb n with
    | some c => if c.elems.isEmpty then 7 else vtyCode c.ty
    | none => 7))

/-- `TPROG` (11 R391): the stage of the started word, and whether it stands stopped at a progress point (11 R371). -/
def Bank.tprog (b : Bank) : Nat :=
  match b.tx.work with
  | some w => w.stage % 32 + 32 + 64 * bit (!w.steps.isEmpty && !b.live)
  | none => 0

/-- `TPLAN`n (11 R391). -/
def Bank.tplan (b : Bank) (n : Nat) : Nat :=
  match assoc b.tx.plans n with
  | some p => p.n + 2 ^ 21 + 2 ^ 22 * bit p.real + 2 ^ 23 * bit p.f64 + 2 ^ 24 * p.radix.length
  | none => 0

/-- `TRAD`n (11 R391). -/
def Bank.trad (b : Bank) (n : Nat) : Nat := (assoc b.tx.plans n).elim 0 (fun p => radixWord p.radix)

/-- The number of a subscription's state (12 R425). -/
def subCode : SubSt → Nat
  | .pending => 1 | .active => 2 | .parked => 3 | .broken => 4 | .ended => 5

/-- `FSUBS` (12 R425). -/
def Bank.fsubs (b : Bank) : Nat := fields 4 ((upTo 16).map (fun n => (assoc b.fab.subs n).elim 0 (fun u => subCode u.st)))

/-- `FWIN` (12 R425). -/
def State.fwin (s : State) : Nat := bit s.net.win.panelW + 2 * bit s.net.win.fabricW + 2 ^ 16 * (s.net.win.winlen / 10)

/-- `CLSTAT` (14 R479). -/
def State.clstat (s : State) (l : Loc) : Nat :=
  let own := s.trav.insts.filter (fun i => i.posts.any (fun p => p.own && p.who % 1024 == l.core && some p.launch == (s.bank l).launch))
  own.length + 32 * bit (own.any (fun i => !i.started))

/-! ## Launch (05 R144) -/

/-- The launch CSRs. -/
def Launch.csr (x : Launch) (n : Nat) : Nat :=
  if n = 0x600 then x.pkt.tag + 2 ^ 32 * x.pkt.ctx
  else if n = 0x601 then x.cores.length + 2 ^ 16 * (x.hdr.elim 0 (·.stages))
  else if n = 0x602 then x.step
  else if n = 0x604 then x.pkt.deadline
  else x.pkt.params.getD (n - 0x608) 0

/-! ## Every number (04 R133) -/

/-- The value of a CSR of a bank. -/
def State.csrNum (s : State) (l : Loc) (n : Nat) : Nat :=
  let b := s.bank l
  if n = 0x000 then b.seq.stage
  else if n = 0x001 then s.cycle
  else if n = 0x010 then b.seq.slipw
  else if n = 0x011 then b.tokocc
  else if n = 0x012 then b.boqocc
  else if n = 0x013 then b.cqocc
  else if n = 0x014 then b.seq.wdog
  else if n = 0x015 then b.stenAll
  else if n < 0x040 then (spGet 0 b.engs.S.lc (n - 0x020)).toNat
  else if n < 0x100 then b.semv (n - 0x040)
  else if n = 0x100 then b.astatus.toNat
  else if n = 0x101 then b.hdr.spad
  else if n = 0x102 then s.winSize b (·.sp1size)
  else if n = 0x103 then s.winSize b (·.sp2size)
  else if n = 0x104 then b.qstat
  else if n < 0x188 then (b.chan (n - 0x180)).cwp.toNat
  else if n = 0x188 then b.cstate
  else if n = 0x189 then b.car.csched.toNat
  else if n = 0x18A then (s.core l.core).cspill
  else if n < 0x200 then b.ringState (n - 0x190)
  else if n = 0x200 then b.mx.flags.toNat
  else if n = 0x201 then b.mx.shown.toNat
  else if n = 0x202 then b.mx.cseq.toNat
  else if n = 0x203 then fields 1 [bit b.mx.zb, bit b.mx.za, bit b.mx.negp]
  else if n = 0x204 then b.mwin
  else if n < 0x300 then b.msat (n - 0x210)
  else if n = 0x300 then b.vec.flags.toNat
  else if n = 0x301 then b.vcbocc
  else if n = 0x302 then b.vtype
  else if n = 0x400 then b.tx.flags.toNat
  else if n = 0x401 then b.tprog
  else if n < 0x418 then b.tplan (n - 0x410)
  else if n < 0x500 then b.trad (n - 0x418)
  else if n = 0x500 then b.fstatus.toNat
  else if n = 0x501 then b.fab.fmc.toNat
  else if n = 0x502 then b.fab.reqs.length + 2 ^ 9 * b.fab.targets.length
  else if n = 0x503 then s.fwin
  else if n = 0x504 then b.fsubs
  else if n = 0x505 then b.fab.fdrift
  else if n < 0x580 then (spGet 0 b.fab.fc (n - 0x510)).toNat
  else if n = 0x580 then s.clstat l
  else if n = 0x581 then b.seq.place
  else if n = 0x603 then (match b.seq.iterno with | some k => k | none => 2 ^ 48 - 1)
  else match b.launch.bind s.launch with
    | some x => x.csr n
    | none => 0

/-- The value of a CSR as a register takes it. -/
def State.csrVal (s : State) (l : Loc) (n : Nat) : Reg64 := BitVec.ofNat 64 (s.csrNum l n)

/-- Whether an earlier `CSR` write of S has still to take effect (04 R132). -/
def Bank.csrPending (b : Bank) : Bool := b.engs.S.rets.any (fun r => r.effs.any (fun e => match e with | .csr _ _ => true | _ => false))

/-- The CSRs with a writable field (02 R53, 09 R334). -/
def csrWritable (n : Nat) : Bool := n == 0x010 || n == 0x189

/-- `CSR.rd` (04 R132): the value as it stands at issue. -/
def execCsrRd (m : Dep) (r : SReg) (csr : BitVec 11) (s : State) : Out :=
  bankWord (.csrRd m r csr) s (fun b =>
    if b.csrPending || b.pending .S [r.val] then .stall
    else .ok b (writesS r (s.csrVal s.cur.loc csr.toNat)))

/-- `CSR.wr` (04 R132): the write takes effect at retirement; one to a CSR that software cannot write does nothing. -/
def execCsrWr (m : Dep) (r : SReg) (csr : BitVec 11) (s : State) : Out :=
  bankWord (.csrWr m r csr) s (fun b =>
    if b.csrPending || b.pending .S [r.val] then .stall
    else .ok b { effs := if csrWritable csr.toNat then [.csr csr.toNat (b.sreg r)] else [] })

end Sys2Proof.Machine
end

