-- ==== Sys2Proof/Machine/Traverse.lean ====
section
/-!
DEFINITION. Traverse (14 R460 to R473, R507): `FB.COLL`, the matching of posts, chunks, completion, and what ends an instance. How the Traverses
of different packages tell each other of posts, written chunks and ends is not laid out in the manual; they travel as structured packets (log entry 12).
-/

namespace Sys2Proof.Machine

/-! ## Members (14 R462) -/

/-- The member that a core of this package is. -/
def State.whoOf (s : State) (core : Nat) : Nat := 1024 * s.pkgNum + core

/-- Whether a member is on this package. -/
def State.isNear (s : State) (who : Nat) : Bool := who / 1024 == s.pkgNum

/-- The member that an entry names; none where a reserved bit is set or no placed core has the index. -/
def State.member (s : State) (x : Launch) (e : Nat) : Option Nat :=
  if bits e 30 21 ≠ 0 then none
  else if bitAt e 31 then
    if bits e 20 9 ≠ 0 then none else (x.cores.drop (bits e 8 0)).head?.map (fun l => s.whoOf l.core)
  else some (1024 * bits e 20 9 + bits e 8 0)

/-- Where a core's part of a launch stands. -/
def State.placeOf (s : State) (launch core : Nat) : Option Loc := (s.launch launch).bind (fun x => x.cores.find? (fun l => l.core == core))

/-- The bank of a post's member, while it is resident (14 R471). -/
def State.postLoc (s : State) (p : Post) : Option Loc :=
  match s.placeOf p.launch (p.who % 1024) with
  | some l => if (s.bank l).launch = some p.launch then some l else none
  | none => none

/-- A set of members in one form. -/
def setOf (l : List Nat) : List Nat := (sortOn id l).eraseDups

/-! ## The checks of a block (14 R461 to R463) -/

/-- A number of the block. -/
def blkNum (d : List Byte) (off n : Nat) : Nat := ofLe ((d.drop off).take n)

/-- The operation of a block. -/
def collOpOf : Nat → Option CollOp
  | 0 => some .pencil | 1 => some .all2all | 2 => some .allgather | 3 => some .grainred | _ => none

/-- The permutation of a block. -/
def permOf (d : List Byte) : List Nat := (upTo 4).map (fun k => bits (blkNum d 0x0C 1) (2 * k + 1) (2 * k))

/-- Whether a field that a block reserves is set, or one of its values is not assigned (14 R461). -/
def blkBad (d : List Byte) : Bool :=
  let inl := bitAt (blkNum d 1 1) 0
  let p := blkNum d 2 2
  (collOpOf (blkNum d 0 1)).isNone || bits (blkNum d 1 1) 7 1 != 0 || p == 0 || (inl && 56 < p)
    || 64 ≤ blkNum d 8 1 || 64 ≤ blkNum d 9 1 || 4 ≤ blkNum d 0x0A 1 || 4 ≤ blkNum d 0x0B 1
    || (if blkNum d 0 1 == 0 then !(upTo 4).all (fun k => (permOf d).contains k) else blkNum d 0x0C 1 != 0)
    || blkNum d 0x0D 3 != 0 || blkNum d 0x18 8 != 0
    || (if inl then blkNum d 0x10 8 != 0 || blkNum d (0x20 + 4 * p) (224 - 4 * p) != 0
        else blkNum d 0x10 8 % 4 != 0 || blkNum d 0x20 224 != 0)

/-- The member entries: of the block, or read from VIRT by Traverse; none where the read faults. -/
def State.entries (s : State) (l : Loc) (d : List Byte) : State × Option (List Nat) :=
  let p := blkNum d 2 2
  let cut (x : List Byte) : List Nat := (chunksOf 4 p x).map ofLe
  if bitAt (blkNum d 1 1) 0 then (s, some (cut ((d.drop 0x20).take (4 * p))))
  else match s.access l .read .virt (blkNum d 0x10 8) (4 * p) false [0] with
    | (s, .ok r) =>
      match s.platCheck l.core (s.bank l).ctx .read r with
      | (s, none) => match s.badRngs r with
        | some a => (s.logEvent .eccUncorr (dieOf l.core) 0 a, none)
        | none => (s, some (cut (s.readRngs r)))
      | (s, some _) => (s, none)
    | (s, _) => (s, none)

/-- Whether a scope of a core contains the ENGINES scope of a member (07 R249). -/
def State.inScope (s : State) (l : Loc) (x : Launch) (scope : Scope) (who : Nat) : Bool :=
  let near := s.isNear who
  let core := who % 1024
  let mine := near && x.cores.any (fun p => p.core == core)
  match scope with
  | .self | .core => false
  | .engines => who == s.whoOf l.core
  | .stage => mine && dieOf core == dieOf l.core
      && x.cores.any (fun p => p.core == core && (s.partOf x.id p).seq.stage == (s.bank l).seq.stage)
  | .cluster => near && clusterOf core == clusterOf l.core
  | .die => near && dieOf core == dieOf l.core
  | .package | .host => near
  | .launch => mine
  | .panel => who / 65536 == s.part.panel
  | .fabric | .system => true

/-- A member's extents of its window with the split dimension cut into parts (14 R465). -/
def cutExt (d : TDesc) (split : Option Nat) (p : Nat) : List Nat :=
  (upTo 4).map (fun k => if some k = split then d.w k / p else d.w k)

/-- The SP0 bytes of the units of an image. -/
def imgBytesOf (d : TDesc) : List Nat := (upTo d.count).flatMap (fun e => (upTo d.es).map (fun k => d.imgByte e k))

/-- Whether two images have a byte that holds an element of each (14 R463 step 6). -/
def imgsMeet (a b : TDesc) : Bool :=
  a.spbase < b.spbase + b.isz && b.spbase < a.spbase + a.isz
    && (imgBytesOf a).any (fun x => (imgBytesOf b).contains x)

/-- Whether a split cuts a dimension into whole parts of whole units (14 R463 step 5; VX4 blocks are not cut, log entry 15). -/
def splits (d : TDesc) (k p : Nat) : Bool := dimOf d.win k % p == 0 && d.w k % p == 0

/-- Steps 3 to 6 of the checks (14 R463). -/
def shapeFault (spad : Nat) (b : CollBlock) : Option FCode :=
  let d := tdescOf b.src
  let e := tdescOf b.dst
  let p := b.members.length
  match recCheck b.src none spad, recCheck b.dst none spad with
  | some f, _ => some f
  | none, some f => some f
  | none, none =>
    if d.fmt ≠ e.fmt ∨ (b.op = .grainred ∧ d.fmt ≠ 0x0E) ∨ ((b.op = .pencil ∨ b.op = .all2all) ∧ d.rank ≤ b.sdim)
        ∨ (b.op ≠ .grainred ∧ e.rank ≤ b.ddim) then some .collshape
    else if ((b.op = .pencil ∨ b.op = .all2all) ∧ !splits d b.sdim p) ∨ (b.op ≠ .grainred ∧ !splits e b.ddim p) then some .collshape
    else if imgsMeet d e then some .collshape
    else none

/-- The detail of a collective's fault (15 R489). -/
def collDetail (pos cid : Nat) : Nat := pos % 2 ^ 16 + 2 ^ 16 * cid

/-- What the checks of a block end with. -/
inductive BlkRes where
  | fault (c : FCode) (detail : Nat)
  | ok (b : CollBlock)
  deriving DecidableEq, Repr

/-- The checks of `FB.COLL` at issue (14 R463). -/
def State.checkBlock (s : State) (l : Loc) (x : Launch) (scope : Scope) (d : List Byte) : State × BlkRes :=
  let cid := blkNum d 4 4
  let bad (pos : Nat) : BlkRes := .fault .collblk (collDetail pos cid)
  match s.entries l d with
  | (s, none) => (s, bad 0xFFFF)
  | (s, some es) =>
    let ms := es.map (s.member x)
    let me := s.whoOf l.core
    let pos := ms.findIdx (· == some me)
    let own := if pos < ms.length then pos else 0xFFFF
    if blkBad d || ms.any Option.isNone || ms.count (some me) != 1 then (s, bad own)
    else
      let ntd := (s.bank l).hdr.ntd
      let std := blkNum d 8 1
      let dtd := blkNum d 9 1
      if ntd ≤ std ∨ ntd ≤ dtd then (s, .fault .resource 0)
      else
        let members := ms.filterMap id
        if !members.all (s.inScope l x scope) then (s, bad own)
        else
          let b : CollBlock :=
            { op := (collOpOf (blkNum d 0 1)).getD .pencil, cid, members, src := (s.bank l).td (Fin.ofNat 64 std)
              dst := (s.bank l).td (Fin.ofNat 64 dtd), sdim := blkNum d 0x0A 1, ddim := blkNum d 0x0B 1, perm := permOf d }
          match shapeFault (s.bank l).hdr.spad b with
          | some .collshape => (s, .fault .collshape (collDetail own cid))
          | some f => (s, .fault f 0)
          | none => (s, .ok b)

/-! ## Faults of members -/

/-- An instance by its identifier. -/
def State.inst (s : State) (id : Nat) : Option Inst := s.trav.insts.find? (fun i => i.id == id)

/-- An instance changed. -/
def State.modInst (s : State) (id : Nat) (f : Inst → Inst) : State :=
  { s with trav := { s.trav with insts := s.trav.insts.map (fun i => if i.id = id then f i else i) } }

/-- An instance goes. -/
def State.dropInst (s : State) (id : Nat) : State := { s with trav := { s.trav with insts := s.trav.insts.filter (fun i => i.id != id) } }

/-- A structured message from a die to the Traverse of a member's die (log entry 12). -/
def State.tell (s : State) (die who : Nat) (scope : Scope) (tag : Nat) (req : PReq) (data : List Byte) : State :=
  s.sendSeq die (s.packet die (NetAddr.of (who / 1024) (dieOf (who % 1024))) .chunk .bulk scope tag 0 req data) 0

/-- The members of an instance on other packages, one for each package. -/
def State.farOf (s : State) (i : Inst) : List Nat :=
  ((i.set.filter (fun w => !s.isNear w)).map (· / 1024)).eraseDups.filterMap (fun g => i.set.find? (fun w => w / 1024 == g))

/-- The posts of an instance from other packages, the first of each package. -/
def Inst.farPosts (i : Inst) : List Post :=
  i.posts.filter (fun p => !p.own && !i.posts.any (fun q => q.who / 1024 == p.who / 1024 && q.pid < p.pid))

/-- Listed cores of this package that have not posted keep the ended instance (14 R507). -/
def State.keepEnded (s : State) (i : Inst) (code : FCode) (names : List Nat) : State :=
  let late := i.set.filter (fun w => s.isNear w && !i.posts.any (fun p => p.who == w))
  let held (w : Nat) : List Nat := (s.launches.filter (fun x => x.st != .done && x.st != .queued
      && x.cores.any (fun l => l.core == w % 1024 && !x.ended.contains l.core))).map (·.id)
  let ents := (late.map (fun w => (⟨i.cid, i.set, w, code, names, held w⟩ : EndedInst))).filter (fun e => !e.holds.isEmpty)
  { s with trav := { s.trav with ended := s.trav.ended ++ ents } }

/-- The least position, in a list, of some of the members. -/
def leastPos (l names : List Nat) : Nat := l.findIdx (fun w => names.contains w)

/-- Every posting launch of this package ends with a code; each record names a position in its own member's list. -/
def State.endPosts (s : State) (ps : List Post) (code : FCode) (pos : Post → Nat) : State :=
  ps.foldl (fun s p => if p.own then s.partFault p.launch (p.who % 1024) code p.pc (collDetail (pos p) p.blk.cid) else s) s

/-! ## Posting (14 R464, R507) -/

/-- A post joins the oldest instance of its identifier and set that lacks its member, or opens one. -/
def State.addPost (s : State) (p : Post) (limit : Nat) : State :=
  let set := setOf p.blk.members
  match s.trav.insts.find? (fun i => i.cid == p.blk.cid && i.set == set && !i.posts.any (fun q => q.who == p.who)) with
  | some i => s.modInst i.id (fun i => { i with posts := i.posts ++ [p] })
  | none =>
    let (id, s) := s.newId
    { s with trav := { s.trav with insts := s.trav.insts ++
      [{ id, cid := p.blk.cid, set, posts := [p], started := false, age := 0, limit, sent := [], done := [], got := [] }] } }

/-- The ended instance that a post meets. -/
def State.endedFor (s : State) (who : Nat) (b : CollBlock) : Option EndedInst :=
  s.trav.ended.find? (fun e => e.cid == b.cid && e.set == setOf b.members && e.who == who)

/-- Instances that a core has posted and that are not complete; with `none`, those of a die (14 R460). -/
def State.postCount (s : State) (p : Nat → Bool) : Nat :=
  (s.trav.insts.flatMap (fun i => i.posts.filter (fun q => q.own && p (q.who % 1024)))).length

/-- A post changed. -/
def State.modPost (s : State) (pid : Nat) (f : Post → Post) : State :=
  { s with trav := { s.trav with insts := s.trav.insts.map (fun i =>
      { i with posts := i.posts.map (fun p => if p.own && p.pid == pid then f p else p) }) } }

/-- Whether a post's packets may leave: its slot, if it has one, has begun (12 R409). -/
def State.postDue (s : State) (p : Post) : Bool := p.slotAt.all (· ≤ s.dtime)

/-- The posts of an instance are told to its other packages, each once its slot has begun (12 R409, 14 R464). -/
def State.tellPosts (s : State) (id : Nat) : State :=
  match s.inst id with
  | none => s
  | some i => i.posts.foldl (fun s p =>
      if p.own && !p.told && s.postDue p then
        (s.farOf i).foldl (fun s w => s.tell (dieOf (p.who % 1024)) w p.scope p.pid (.collPost p.who p.pid p.blk) [])
          ((s.useSlot p.slotAt).modPost p.pid (fun p => { p with told := true }))
      else s) s

/-- The instance that holds a post. -/
def State.instOf (s : State) (pid : Nat) (own : Bool) : Option Inst :=
  s.trav.insts.find? (fun i => i.posts.any (fun p => p.pid == pid && p.own == own))

/-- F at an `FB.COLL` whose target it holds. A slot that has passed is late, and the word goes at once (12 R409). -/
def collIssue (m : Dep) (fc : Fin 16) (scope : Scope) (slot : Option (BitVec 8)) (s : State) : Res State :=
  let l := s.cur.loc
  let b := s.here
  match b.headTarget, b.launch.bind s.launch with
  | some t, some x =>
    let a := t.ra.toNat
    if !b.fabRoom || b.fab.reqs.any (fun r => r.op.writes) || imagesMeet b.fab.reqs (a, 256)
        || 16 ≤ s.postCount (· == l.core) || 128 ≤ s.postCount (fun c => dieOf c == dieOf l.core) then .stall
    else if b.hdr.spad < a + 256 then .fault .bounds 0
    else match (natsFrom a 256).find? (fun k => b.acc.bad.contains k) with
      | some k => .fault .uncorr k
      | none =>
        match s.checkBlock l x scope (b.sp0Read a 256) with
        | (_, .fault c d) => .fault c d
        | (s, .ok blk) =>
          match s.endedFor (s.whoOf l.core) blk with
          | some e => .fault e.code (collDetail (leastPos blk.members e.names) blk.cid)
          | none =>
            let (pid, s) := s.newId
            let at' := slot.map (fun n => s.slotTime b n.toNat)
            let late := s.slotPast at'
            let p : Post :=
              { who := s.whoOf l.core, pid, blk, own := true, launch := x.id, fc, sp := Dep.sp m, sn := Dep.sn m, pc := b.engs.F.pc, scope
                slotAt := at', told := false }
            let s := s.onHere (fun b => { b with fab := { b.fab with targets := b.fab.targets.drop 1, late := b.fab.late || late } })
            let s := if late then s.logEvent .slotLate (dieOf l.core) 0 0 else s
            let s := s.addPost p x.pkt.cairnTo
            .ok (match s.instOf pid true with | some i => s.tellPosts i.id | none => s) { async := true }
  | _, _ => .stall

/-! ## Start (14 R464) -/

/-- Whether every member has posted. -/
def Inst.full (i : Inst) : Bool := i.set.all (fun w => i.posts.any (fun p => p.who == w))

/-- The post of a member. -/
def Inst.post (i : Inst) (who : Nat) : Option Post := i.posts.find? (fun p => p.who == who)

/-- What the blocks of all members must agree in: op, order of the list, perm and element format. -/
def collSame (a b : CollBlock) : Bool :=
  a.op == b.op && a.members == b.members && a.perm == b.perm && (tdescOf a.src).fmt == (tdescOf b.src).fmt

/-- The shape of a member's source parts, as its destinations must match it. -/
def srcShapeOf (b : CollBlock) : List Nat :=
  let d := tdescOf b.src
  let p := b.members.length
  match b.op with
  | .pencil => cutExt d (some b.sdim) p
  | .all2all => [(cutExt d (some b.sdim) p).foldl (· * ·) 1]
  | .allgather | .grainred => [d.count]

/-- The shape of a member's destination parts. -/
def dstShapeOf (b : CollBlock) : List Nat :=
  let d := tdescOf b.dst
  let p := b.members.length
  match b.op with
  | .pencil => (upTo 4).map (fun k => (cutExt d (some b.ddim) p).getD (b.perm.getD k 0) 1)
  | .all2all | .allgather => [(cutExt d (some b.ddim) p).foldl (· * ·) 1]
  | .grainred => [d.count]

/-- The block of the member at a position of a list. -/
def Inst.blkAt (i : Inst) (l : List Nat) (p : Nat) : Option CollBlock := (i.post (l.getD p 0)).map (·.blk)

/-- The least position of a list at which the members disagree with that of position 0, if any. -/
def Inst.disagree (i : Inst) (l : List Nat) (ok : CollBlock → CollBlock → Bool) : Option Nat :=
  (upTo l.length).find? (fun p => match i.blkAt l 0, i.blkAt l p with | some a, some b => !ok a b | _, _ => true)

/-- Whether the parts of two members match each other both ways. -/
def shapesMeet (a b : CollBlock) : Bool := srcShapeOf a == dstShapeOf b && srcShapeOf b == dstShapeOf a

/-- `COLLECTIVE_START` (14 R464). -/
def State.startInst (s : State) (id : Nat) : State :=
  match s.inst id with
  | none => s
  | some i =>
    if i.started || !i.full then s
    else
      let bad (ok : CollBlock → CollBlock → Bool) : Bool := i.posts.any (fun p => (i.disagree p.blk.members ok).isSome)
      let stop (c : FCode) (ok : CollBlock → CollBlock → Bool) : State :=
        (s.dropInst id).endPosts i.posts c (fun p => (i.disagree p.blk.members ok).getD 0)
      if bad collSame then stop .collmatch collSame
      else if bad shapesMeet then stop .collshape shapesMeet
      else s.modInst id (fun i => { i with started := true })

/-- `COLLECTIVE_TIMEOUT` (14 R464, R507). -/
def State.timeInst (s : State) (id : Nat) : State :=
  match s.inst id with
  | none => s
  | some i =>
    if i.started || i.full || i.age < i.limit then s
    else
      let names := i.set.filter (fun w => !i.posts.any (fun p => p.who == w))
      ((s.dropInst id).keepEnded i .colltime names).endPosts i.posts .colltime (fun p => leastPos p.blk.members names)

/-! ## What is delivered (14 R465, R466, R470) -/

/-- The coordinates of a number in some extents, the first fastest. -/
def coordIn (ext : List Nat) (e : Nat) : List Nat :=
  let a := ext.getD 0 1; let b := ext.getD 1 1; let c := ext.getD 2 1
  [e % a, e / a % b, e / (a * b) % c, e / (a * b * c)]

/-- The unit of a window at some coordinates. -/
def TDesc.unitAt (d : TDesc) (c : List Nat) : Nat := c.getD 0 0 + d.w 0 * (c.getD 1 0 + d.w 1 * (c.getD 2 0 + d.w 2 * c.getD 3 0))

/-- Coordinates moved to part `j` of a split dimension. -/
def toPart (d : TDesc) (k p j : Nat) (c : List Nat) : List Nat :=
  (upTo 4).map (fun q => c.getD q 0 + if q = k then j * (d.w k / p) else 0)

/-- Coordinates permuted: `z_perm[k] = y_k`. -/
def permute (perm y : List Nat) : List Nat := (upTo 4).map (fun q => y.getD (perm.findIdx (· == q)) 0)

/-- Units that member `i` sends to member `j`. -/
def pairCount (a : CollBlock) : Nat :=
  let d := tdescOf a.src
  let p := a.members.length
  match a.op with
  | .pencil | .all2all => (cutExt d (some a.sdim) p).foldl (· * ·) 1
  | .allgather | .grainred => d.count

/-- The source unit of the `e`-th unit that goes to position `j`. -/
def srcUnit (a : CollBlock) (j e : Nat) : Nat :=
  let d := tdescOf a.src
  let p := a.members.length
  match a.op with
  | .pencil | .all2all => d.unitAt (toPart d a.sdim p j (coordIn (cutExt d (some a.sdim) p) e))
  | .allgather | .grainred => e

/-- The destination unit of the `e`-th unit that comes from position `i`; `a` is the sender's block, `b` the receiver's. -/
def dstUnit (a b : CollBlock) (i e : Nat) : Nat :=
  let d := tdescOf b.dst
  let p := b.members.length
  match b.op with
  | .pencil =>
    let y := coordIn (cutExt (tdescOf a.src) (some a.sdim) p) e
    d.unitAt (toPart d b.ddim p i (permute b.perm y))
  | .all2all | .allgather => d.unitAt (toPart d b.ddim p i (coordIn (cutExt d (some b.ddim) p) e))
  | .grainred => e

/-- Bytes that a unit travels as. -/
def TDesc.unitLen (d : TDesc) : Nat := d.es + bit d.vx4

/-- Units of a chunk: at most 4,096 bytes (13 R430, 14 R470). -/
def chunkUnits (a : CollBlock) : Nat := 4096 / max 1 (tdescOf a.src).unitLen

/-- Chunks of a pair. -/
def pairChunks (a : CollBlock) : Nat := ceilDiv (pairCount a) (chunkUnits a)

/-- The numbers of the units of a chunk. -/
def chunkOf (a : CollBlock) (c : Nat) : List Nat := natsFrom (c * chunkUnits a) (min (chunkUnits a) (pairCount a - c * chunkUnits a))

/-- The bytes of a unit of an image; a VX4 block's scale goes with it (log entry 15). -/
def Bank.unitRead (b : Bank) (d : TDesc) (e : Nat) : List Byte :=
  b.imgRead d e ++ (if d.vx4 then [spGet 0 b.acc.sp0 (d.spAddr (d.blockOff e))] else [])

/-- The bytes of a unit written. -/
def Bank.unitWrite (b : Bank) (d : TDesc) (e : Nat) (x : List Byte) : Bank :=
  let b := b.imgWrite d e (x.take d.es)
  if d.vx4 then b.sp0Put (d.spAddr (d.blockOff e)) (x.drop d.es) else b

/-- The source bytes of a chunk to position `j`. -/
def Bank.chunkRead (b : Bank) (a : CollBlock) (j c : Nat) : List Byte :=
  (chunkOf a c).flatMap (fun e => b.unitRead (tdescOf a.src) (srcUnit a j e))

/-- An uncorrectable byte of a chunk's source. -/
def Bank.chunkBad (b : Bank) (a : CollBlock) (j c : Nat) : Option Nat :=
  (chunkOf a c).findSome? (fun e => (upTo (tdescOf a.src).es).findSome? (fun k =>
    let x := (tdescOf a.src).imgByte (srcUnit a j e) k
    if b.acc.bad.contains x then some x else none))

/-- The bytes of a chunk written at its destination. -/
def Bank.chunkWrite (b : Bank) (x y : CollBlock) (i c : Nat) (data : List Byte) : Bank :=
  let d := tdescOf y.dst
  ((chunkOf x c).zip (chunksOf d.unitLen (data.length + 1) data)).foldl (fun b p => b.unitWrite d (dstUnit x y i p.1) p.2) b

/-- Whether a started word of T holds a byte of some units of an image (11 R370). -/
def Bank.unitsHeld (b : Bank) (d : TDesc) (l : List Nat) : Bool :=
  l.any (fun e => (upTo d.es).any (fun k => b.tHolds (d.imgByte e k, 1)) || (d.vx4 && b.tHolds (d.spAddr (d.blockOff e), 1)))

/-- The anchor of a grain cell. -/
def anchorOf (x : List Byte) : Nat := bits (ofLe x) 239 224

/-- The cells of a reduction's chunk, one list for each source (14 R466). -/
def Inst.cells (i : Inst) (n c : Nat) : Option (List (List (List Byte))) :=
  ((upTo n).map (fun p => (i.got.find? (fun g => g.1 == (p, c))).map (fun g => chunksOf 32 (g.2.length + 1) g.2))).foldr
    (fun x r => match x, r with | some a, some l => some (a :: l) | _, _ => none) (some [])

/-- The sum of one cell of every source (14 R466, 12 R412). -/
def sumCells (l : List (List Byte)) : List Byte := leBytes 32 (reduceElem .sum 0x0E false (l.map ofLe)).1

/-- The least position whose cells of a chunk have another anchor than those of position 0. -/
def oddAnchor (l : List (List (List Byte))) : Option Nat :=
  match l with
  | [] => none
  | h :: _ => (upTo l.length).find? (fun p => (h.zip (l.getD p [])).any (fun q => anchorOf q.1 != anchorOf q.2))

/-- The least position, over every chunk gathered, whose cells have another anchor than those of position 0. -/
def Inst.oddMember (i : Inst) (n chunks : Nat) : Option Nat :=
  ((upTo chunks).filterMap (fun c => (i.cells n c).bind oddAnchor)).min?

/-- A chunk is marked as delivered. -/
def Inst.did (x : Inst) (i j c : Nat) : Inst := if x.done.contains (i, j, c) then x else { x with done := x.done ++ [(i, j, c)] }

/-- A chunk is marked as delivered, and the other packages of the instance are told. -/
def State.markDone (s : State) (id core i j c : Nat) : State :=
  let s := s.modInst id (fun x => x.did i j c)
  match s.inst id with
  | some x => x.farPosts.foldl (fun s p => s.tell (dieOf core) p.who p.scope 0 (.collDid p.pid i j c) []) s
  | none => s

/-- The source cells of every chunk that members of this package hold, gathered for the naming of a fault. -/
def State.gatherAll (s : State) (i : Inst) (l : List Nat) (chunks : Nat) : Inst :=
  (upTo l.length).foldl (fun i p =>
    match i.post (l.getD p 0) with
    | some q =>
      match s.postLoc q with
      | some loc => if q.own then
          (upTo chunks).foldl (fun i c => if i.got.any (fun g => g.1 == (p, c)) then i
            else { i with got := i.got ++ [((p, c), (s.bank loc).chunkRead q.blk p c)] }) i
        else i
      | none => i
    | none => i) i

/-- Bytes from position `i` arrive at position `j` of this package and are written, or, in a reduction, summed once every source's are there. -/
def State.landChunk (s : State) (id : Nat) (inst : Inst) (src dst : Post) (i j c : Nat) (data : List Byte) : State :=
  match s.postLoc dst with
  | none => s
  | some l =>
    if src.blk.op ≠ .grainred then
      (s.onBank l (fun b => b.chunkWrite src.blk dst.blk i c data)).markDone id l.core i j c
    else
      let inst := if inst.got.any (fun g => g.1 == (i, c)) then inst else { inst with got := inst.got ++ [((i, c), data)] }
      let s := s.modInst id (fun _ => inst)
      match inst.cells src.blk.members.length c with
      | none => s
      | some cells =>
        match oddAnchor cells with
        | some _ =>
          let all := s.gatherAll inst src.blk.members (pairChunks src.blk)
          (s.dropInst id).endPosts inst.posts .colldata
            (fun _ => (all.oddMember src.blk.members.length (pairChunks src.blk)).getD 0)
        | none =>
          let sums := (upTo (chunkOf src.blk c).length).map (fun k => sumCells (cells.map (fun x => x.getD k [])))
          let s := s.onBank l (fun b => b.chunkWrite src.blk dst.blk i c sums.flatten)
          (upTo src.blk.members.length).foldl (fun s p => s.markDone id l.core p j c) s

/-- Whether a chunk for a member of this package can be written now: its bank is resident and T holds none of the bytes (11 R370, 14 R471). -/
def State.mayLand (s : State) (src dst : Post) (i c : Nat) : Bool :=
  match s.postLoc dst with
  | some l => !(s.bank l).unitsHeld (tdescOf dst.blk.dst) ((chunkOf src.blk c).map (dstUnit src.blk dst.blk i))
  | none => false

/-- `COLLECTIVE_CHUNK`: a chunk of a pair goes (14 R465, R470): within a die over its own network, which it crosses at once, else by packet. -/
def State.sendChunk (s : State) (id i j c : Nat) : State :=
  match s.inst id with
  | none => s
  | some x =>
    match x.posts with
    | [] => s
    | p0 :: _ =>
      let l := p0.blk.members
      match x.post (l.getD i 0), x.post (l.getD j 0) with
      | some src, some dst =>
        match s.postLoc src with
        | none => s
        | some ls =>
          let b := s.bank ls
          if !x.started || !src.own || l.length ≤ i || l.length ≤ j || pairChunks src.blk ≤ c || !s.postDue src
              || x.done.contains (i, j, c) || x.sent.contains (i, j, c)
              || b.unitsHeld (tdescOf src.blk.src) ((chunkOf src.blk c).map (srcUnit src.blk j)) then s
          else match b.chunkBad src.blk j c with
            | some a => (s.logEvent .eccUncorr (dieOf ls.core) 0 a).faultAt ls .uncorr src.pc a
            | none =>
              let data := b.chunkRead src.blk j c
              if dst.own ∧ dieOf (dst.who % 1024) = dieOf ls.core then
                (if s.mayLand src dst i c then s.landChunk id x src dst i j c data else s)
              else
                (s.modInst id (fun x => { x with sent := x.sent ++ [(i, j, c)] })).tell
                  (dieOf ls.core) dst.who src.scope src.pid (.collChunk dst.pid i j c) data
      | _, _ => s

/-! ## Completion (14 R467) -/

/-- Whether every chunk of every pair has been delivered. -/
def Inst.allDone (i : Inst) : Bool :=
  match i.posts with
  | [] => false
  | p :: _ =>
    let n := p.blk.members.length
    (upTo n).all (fun a => (upTo n).all (fun b => (upTo (pairChunks p.blk)).all (fun c => i.done.contains (a, b, c))))

/-- A member's counter is bumped and its word's signals are sent (12 R420, 02 R44). -/
def Bank.bump (b : Bank) (p : Post) : Bank :=
  let c := spGet 0 b.fab.fc p.fc.val
  if c.toNat = 65535 then b.takeFault .fcount p.pc 0
  else
    let b := { b with fab := { b.fab with fc := spPut 0 b.fab.fc p.fc.val (c + 1) } }
    (b.signalLater .F p.sp p.sn).settle

/-- `COLLECTIVE_COMPLETE` (14 R467, R468). -/
def State.completeInst (s : State) (id : Nat) : State :=
  match s.inst id with
  | none => s
  | some i =>
    if !i.started || !i.allDone then s
    else i.posts.foldl (fun s p =>
      if p.own then
        match s.placeOf p.launch (p.who % 1024) with
        | some l => (s.modPart p.launch l (fun b => b.bump p)).notePart p.launch l
        | none => s
      else s) (s.dropInst id)

/-! ## Ends (14 R472) -/

/-- Whether a launch of this package has ended or is ending. -/
def State.launchOver (s : State) (id : Nat) : Bool :=
  match s.launch id with
  | some x => x.st == .ending || x.st == .done
  | none => true

/-- An instance stops because the launches of some members have ended: the others end with `F_COLLPEER`. -/
def State.stopInst (s : State) (i : Inst) (names : List Nat) : State :=
  let gone := (i.posts.filter (fun p => names.contains p.who && p.own)).map (·.launch)
  let rest := i.posts.filter (fun p => p.own && !gone.contains p.launch)
  let s := i.farPosts.foldl (fun s p => s.tell 0 p.who .system 0 (.collStop p.pid names) []) (s.dropInst i.id)
  (s.keepEnded i .collpeer names).endPosts rest .collpeer (fun p => leastPos p.blk.members names)

/-- `COLLECTIVE_PEER_STOP`. -/
def State.peerStop (s : State) (id : Nat) : State :=
  match s.inst id with
  | none => s
  | some i =>
    let names := (i.posts.filter (fun p => p.own && s.launchOver p.launch)).map (·.who)
    if names.isEmpty then s else s.stopInst i names

/-- Every instance of a launch stops (05 R171 step 2). -/
def State.stopInsts (s : State) (launch : Nat) : State :=
  (s.trav.insts.filter (fun i => i.posts.any (fun p => p.own && p.launch == launch))).foldl (fun s i => s.peerStop i.id) s

/-- Ended instances that wait only for launches that have ended go (14 R507). -/
def State.sweepEnded (s : State) : State :=
  { s with trav := { s.trav with ended := s.trav.ended.filter (fun e => e.holds.any (fun k => match s.launch k with
      | some x => x.st != .done
      | none => false)) } }

/-! ## The word and the events -/

/-- Every chunk of an instance that can go. -/
def State.chunksNow (s : State) (id : Nat) : State :=
  match s.inst id with
  | none => s
  | some x =>
    match x.posts with
    | [] => s
    | p :: _ =>
      let n := p.blk.members.length
      (upTo n).foldl (fun s i => (upTo n).foldl (fun s j =>
        (upTo (pairChunks p.blk)).foldl (fun s c => s.sendChunk id i j c) s) s) s

/-- The instances of a core go on as far as they can at once. -/
def State.goOnColl (s : State) (l : Loc) : State :=
  ((s.trav.insts.filter (fun i => i.posts.any (fun p => p.own && p.who % 1024 == l.core))).map (·.id)).foldl
    (fun s id => (((s.tellPosts id).startInst id).chunksNow id).completeInst id) s

/-- `FB.COLL` (12 R420, 14 R460 to R464): A forms the address of the block, F posts. -/
def execFbColl (m : Dep) (fc : Fin 16) (scope : Scope) (xc : Fin 4) (oa : Fin 32) (slot : Option (BitVec 8)) (s : State) : Out :=
  let i : Instr := .fbColl m fc scope xc oa slot
  if s.cur.eng = .A then
    formWord i s (fun s =>
      let b := s.here
      if 16 ≤ b.fab.targets.length || !b.readyA [.a oa] || b.invalidating then .stall
      else if (b.ax oa).toNat % 64 ≠ 0 then .fault .calign 0
      else .ok (s.onHere (fun b => { b with fab := { b.fab with targets := b.fab.targets ++
        [⟨b.engs.A.walk, b.engs.A.pc, [], [0, 0, 0, 0], b.ax oa, 0, [], [], []⟩] } })) {})
  else eccNote s.cur.loc s (eagerly State.goOnColl (packageWord i s (collIssue m fc scope slot)))

/-- `COLLECTIVE_START` (14 R464). Posts whose slot has begun are told first (12 R409). -/
def execCollectiveStart (inst : Nat) (s : State) : Out := .next ((s.tellPosts inst).startInst inst)

/-- `COLLECTIVE_TIMEOUT` (14 R464). -/
def execCollectiveTimeout (inst : Nat) (s : State) : Out := .next (s.timeInst inst)

/-- `COLLECTIVE_CHUNK` (14 R465, R470). -/
def execCollectiveChunk (inst i j chunk : Nat) (s : State) : Out := .next (s.sendChunk inst i j chunk)

/-- `COLLECTIVE_COMPLETE` (14 R467). -/
def execCollectiveComplete (inst : Nat) (s : State) : Out := .next (s.completeInst inst)

/-- `COLLECTIVE_PEER_STOP` (14 R472). -/
def execCollectivePeerStop (inst : Nat) (s : State) : Out := .next (s.peerStop inst)

/-! ## Messages of other Traverses (log entry 12) -/

/-- The posts that a chunk goes from and to, of the instance that holds a post. -/
def Inst.pairOf (x : Inst) (i j : Nat) : Option (Post × Post) :=
  match x.posts with
  | p :: _ => match x.post (p.blk.members.getD i 0), x.post (p.blk.members.getD j 0) with
    | some src, some dst => some (src, dst)
    | _, _ => none
  | [] => none

/-- Whether a message can be taken now: a chunk once its instance has started here and it can be written, or any other. -/
def State.mayHear (s : State) (req : PReq) : Bool :=
  match req with
  | .collChunk pid i j c =>
    match s.instOf pid true with
    | some x => x.started && match x.pairOf i j with
      | some (src, dst) => x.done.contains (i, j, c) || s.mayLand src dst i c
      | none => true
    | none => true
  | _ => true

/-- A message of another die's Traverse. -/
def State.hearColl (s : State) (req : PReq) (data : List Byte) : State :=
  match req with
  | .collPost who pid b =>
    s.addPost { who, pid, blk := b, own := false, launch := 0, fc := 0, sp := 0, sn := 0, pc := 0, scope := .system, slotAt := none
                told := true } (10 ^ 9)
  | .collChunk pid i j c =>
    match s.instOf pid true with
    | some x =>
      match x.pairOf i j with
      | some (src, dst) => if x.started && !x.done.contains (i, j, c) then s.landChunk x.id x src dst i j c data else s
      | none => s
    | none => s
  | .collDid pid i j c =>
    match s.instOf pid true with
    | some x => s.modInst x.id (fun x => x.did i j c)
    | none => s
  | .collStop pid names =>
    match s.instOf pid true with
    | some i => s.stopInst i names
    | none => s
  | _ => s

end Sys2Proof.Machine
end

