-- ==== Sys2Proof/Machine/Launch.lean ====
section
/-!
DEFINITION. Launches (05): the packet and its checks (R137, R138, R504, R505), the header and its checks (R139 to R141), what is loaded at dispatch
(R143, R506; 09 R319), halting and eviction (R166, R168), the watchdog (04 R131), the end of a launch (R171), and Meridian (R176 to R179).
-/

namespace Sys2Proof.Machine

/-! ## The packet (05 R137, R138, R176) -/

/-- Whether every byte of a range is 0. -/
def zeros (d : List Byte) (off n : Nat) : Bool := ((d.drop off).take n).all (· == 0)

/-- Whether a reserved bit or byte of a packet is nonzero (05 R137, R176). -/
def packetRes (d : List Byte) : Bool :=
  let n := blkNum d
  let g := n 0 1 == 1
  8 ≤ n 1 1 || 4096 ≤ n 2 2
    || (if g then n 1 1 % 4 != 0 || !zeros d 0x20 0x18 || !zeros d 0x3E 2 || !zeros d 0x48 0xB8
        else !zeros d 0x31 3 || !zeros d 0x9A 102)

/-- A packet read from its slot (05 R137, R176). The fields of a GRAPH packet stand in `image` (graph) and `counts` (steps, nodes, and the two
halves of period). -/
def parsePacket (d : List Byte) : Packet256 :=
  let n := blkNum d
  let g := n 0 1 == 1
  { typ := n 0 1, pre := !g && bitAt (n 1 1) 0, miss := !g && bitAt (n 1 1) 1, notify := bitAt (n 1 1) 2
    ctx := n 2 2 % 4096, tag := n 4 4, deadline := if n 8 8 = 0 then 2 ^ 64 - 1 else n 8 8
    image := n 0x10 8, crec := n 0x18 8, save := if g then 0 else n 0x20 8, dies := n 0x28 2, ncores := n 0x2A 2
    cairnTo := 1000 * (if n 0x2C 4 = 0 then 1000000 else n 0x2C 4)
    nloops := n 0x30 1, slotlen := if n 0x34 4 = 0 then 500 else n 0x34 4
    counts := if g then [n 0x38 4, n 0x3C 2, n 0x40 4, n 0x44 4, 0, 0] else (upTo 6).map (fun j => n (0x38 + 4 * j) 4)
    params := if g then List.replicate 8 0 else (upTo 8).map (fun j => n (0x50 + 8 * j) 8)
    sched := if g then 0 else n 0x90 8, nsched := if g then 0 else n 0x98 2, res := packetRes d }

/-- Whether a packet of a queue owned by a function fails a check of 05 R138, or of R176 and R177 for a graph. -/
def State.packetBad (s : State) (p : Packet256) (fn : Nat) : Bool :=
  2 ≤ p.typ || p.res
    || (match s.ctx p.ctx with | some c => c.fn != fn | none => true)
    || p.crec % 64 != 0
    || (if p.typ == 1 then p.image % 64 != 0 || p.counts.getD 0 0 == 0 || p.counts.getD 1 0 == 0 || 4096 < p.counts.getD 1 0
        else p.image % 256 != 0 || p.save % 4096 != 0 || (p.pre && p.save == 0)
          || (s.eligible p).isEmpty || (s.eligible p).length < p.ncores
          || 6 < p.nloops || (p.counts.drop p.nloops).any (· != 0)
          || p.slotlen < 250 || 64000 < p.slotlen
          || 64 < p.nsched || (p.nsched != 0 && p.sched == 0)
          || 2 ^ 48 ≤ totalIters p.nest)

/-- A launch not yet dispatched. -/
def newLaunch (id queue slot fn : Nat) (p : Packet256) (step : Nat) (node : Option (Nat × Nat)) : Launch :=
  { id, st := .queued, queue, slot, fn, pkt := p, hdr := none, step, node, cores := [], walker := 0, hand := [], iterQ := [], ended := []
    iters := 0, bars := [], fault := none, nfault := [], held := [], status := 0, pcs := [], tdisp := 0, tend := 0, saved := [], pf := none
    pfSched := false, preq := false, key := [] }

/-- The launch whose packet a queue offers (05 R136). -/
def State.headOf (s : State) (q : Nat) : Option Launch :=
  s.launches.find? (fun x => x.queue == q && x.st == .queued && x.slot == (s.queue q).ridx)

/-- A read index that stands on packets already completed, moved past them (a `QCANCEL` of a packet not yet read). -/
def skipDone : Nat → Queue → Queue
  | 0, q => q
  | n + 1, q =>
    if q.done.contains q.ridx || (q.cidx != q.ridx && (q.cidx + 2 ^ 32 - q.ridx) % 2 ^ 32 ≤ 2 ^ q.lg)
    then skipDone n { q with ridx := (q.ridx + 1) % 2 ^ 32 } else q

/-- The address of the slot of a count. -/
def Queue.slotAt (q : Queue) (n : Nat) : Nat := q.base + 256 * (n % 2 ^ q.lg)

/-- Whether bytes wait for a write of the host that is on its way to them (15 R487). -/
def State.hostWrites (s : State) (pa n : Nat) : Bool := s.regs.writes.any (fun w => w.2.1 < pa + n && pa < w.2.1 + w.2.2)

/-- The packet at the head of a queue is read and checked (05 R136, R138, R504, R505). -/
def State.checkPacket (s : State) (q : Nat) : State :=
  let k := skipDone (2 ^ 16 + 1) (s.queue q)
  if s.regs.ready ≠ .ready ∨ !k.en ∨ (s.headOf q).isSome then s
  else if k.ridx = k.widx then s.setQueue q k
  else
    let s := s.setQueue q k
    let a := k.slotAt k.ridx
    if s.hostWrites a 256 then s
    else if !homesOk [0, 1] a 256 || (s.firstBad (.pa a) 256).isSome then
      (s.logEvent .eccUncorr 0 0 a).setQueue q ({ k with ridx := (k.ridx + 1) % 2 ^ 32 }.complete k.ridx)
    else
      let p := parsePacket (s.readPa a 256)
      let (id, s) := s.newId
      let s := { s with launches := s.launches ++ [newLaunch id q k.ridx k.fn p 0 none] }
      if s.packetBad p k.fn then (s.completeNow id 3).arbiter else s.arbiter

/-- Whether a function may write registers: bring-up is over (15 R485), and a virtual function is enabled (15 R486). -/
def State.regsOpen (s : State) (fn : Fin 17) : Bool := (s.regs.ready == .ready || s.regs.ready == .fail) && (fn == 0 || s.regs.vfen)

/-- `QWIDX_WRITE`: the doorbell (05 R135, R136; 15 R483, R487). -/
def execQwidxWrite (fn : Fin 17) (q : Fin 64) (v : BitVec 64) (s : State) : Out :=
  .next (
    let k := s.queue q.val
    if !s.regsOpen fn || (fn != 0 && fn.val != k.fn) then s
    else
      let w := v.toNat % 2 ^ 32
      if 2 ^ k.lg < (w + 2 ^ 32 - k.cidx) % 2 ^ 32 then s.logEvent .queueOverrun 0 0 q.val
      else s.setQueue q.val { k with widx := w })

/-- `PACKET_CHECK` (05 R138). -/
def execPacketCheck (q : Fin 64) (s : State) : Out := .next (s.checkPacket q.val)

/-! ## The header (05 R139 to R141) -/

/-- A rotation entry (04 R114, 05 R139), if its word is legal. -/
def rotOf (w : Nat) : Option (Option Rot) :=
  if 4096 ≤ w then none
  else if bitAt w 11 then (if 8 < w % 16 || 8 < w / 16 % 16 then none else some (some ⟨w % 16, w / 16 % 16, w / 256 % 8⟩))
  else if w = 0 then some none else none

/-- The header of an image, if it passes the checks of 05 R139 and R140 for an image at an address. -/
def parseHeader (d : List Byte) (image : Nat) : Option Header :=
  let n := blkNum d
  let regs := (upTo 8).map (fun i => n (0x10 + i) 1)
  let lims := [64, 32, 32, 8, 8, 8, 8, 8]
  let mask := n 0x24 4
  let ceils := (upTo 32).map (fun i => n (0x28 + 2 * i) 2)
  let rots := (upTo 4).map (fun i => rotOf (n (0x70 + 4 * i) 4))
  let slipw := if n 0x1E 2 = 0 then 1024 else n 0x1E 2
  let isize := n 0x84 4
  let ok := n 0 4 == 0x5A4C4B31 && n 4 2 == 1 && n 6 2 == 256
    && 1 ≤ n 8 4 && n 8 4 ≤ 65536 && n 0xC 4 % 4 == 0
    && (regs.zip lims).all (fun p => p.1 ≤ p.2) && 1 ≤ regs.getD 0 0
    && n 0x18 2 ≤ 1024 && n 0x1A 1 ≤ 16 && 1 ≤ n 0x1B 1 && n 0x1B 1 ≤ 8 && n 0x1C 1 ≤ 64 && n 0x1D 1 == 0
    && 16 ≤ slipw && slipw ≤ 4096 && n 0x20 4 % 64 == 0 && n 0x20 4 ≤ 8388608
    && (upTo 32).all (fun i => if bitAt mask i then 1 ≤ ceils.getD i 0 && ceils.getD i 0 ≤ 4095 else ceils.getD i 0 == 0)
    && n 0x68 8 < 2 ^ 48 && (upTo 12).all (fun i => n 0x68 8 / 16 ^ i % 16 ≤ 8)
    && rots.all (·.isSome) && n 0x80 4 % 32 == 0 && n 0x88 8 % 256 == 0 && n 0x90 4 % 8 == 0 && n 0x98 4 % 8 == 0 && zeros d 0xA0 96
    && n 0xC 4 + 4 * n 8 4 ≤ isize && n 0x80 4 + 96 * n 0x1C 1 ≤ isize && n 0x90 4 + n 0x94 4 ≤ isize && n 0x98 4 + n 0x9C 4 ≤ isize
    && (n 0x88 8 == 0 || n 0x88 8 == image)
  if ok then
    some { textlen := n 8 4, textoff := n 0xC 4, regs, acc := n 0x18 2, rings := n 0x1A 1, stages := n 0x1B 1, ntd := n 0x1C 1, slipw
           spad := n 0x20 4, semmask := mask, ceils, tok := n 0x68 8
           rots := ((upTo 4).zip rots).filterMap (fun p => p.2.join.map (fun r => (p.1, r)))
           tdoff := n 0x80 4, isize, lbase := n 0x88 8, rooff := n 0x90 4, rolen := n 0x94 4, dataoff := n 0x98 4, datalen := n 0x9C 4 }
  else none

/-- A dispatch read meets a page fault: it is reported and the read waits (05 R506). -/
def State.launchPage (s : State) (id va : Nat) (sched : Bool) : State :=
  (s.modLaunch id (fun x => { x with pf := some ⟨va, false, 11, true, false⟩, pfSched := sched })).reportLaunch id

/-- The header of a queued launch is read and checked (05 R140, R141, R506). -/
def State.checkHeader (s : State) (id : Nat) : State :=
  match s.launch id with
  | none => s
  | some x =>
    if x.st ≠ .queued ∨ x.hdr.isSome ∨ x.pf.isSome ∨ x.pkt.typ ≠ 0 then s
    else match s.mread x.pkt.ctx x.pkt.image 256 with
      | (s, .page va) => s.launchPage id va false
      | (s, .ok d) =>
        match parseHeader d x.pkt.image with
        | some h =>
          if s.coreCount x.pkt < h.stages then (s.completeNow id 4).arbiter
          else (s.modLaunch id (fun x => { x with hdr := some h })).arbiter
        | none => (s.completeNow id 4).arbiter
      | (s, _) => (s.completeNow id 4).arbiter

/-- `HEADER_CHECK` (05 R140). -/
def execHeaderCheck (q : Fin 64) (s : State) : Out :=
  .next (match s.headOf q.val with | some x => s.checkHeader x.id | none => s)

/-- `DEADLINE_REACHED`: arbitration runs (05 R161). -/
def execDeadlineReached (s : State) : Out := .next s.arbiter

/-! ## Loading (05 R143, R506; 09 R319) -/

/-- Numbers of `n` bytes each, from a byte string. -/
def numsOf (n : Nat) (d : List Byte) : List Nat := (chunksOf n (d.length + 1) d).map ofLe

/-- Numbers by index, 0 unlisted. -/
def sparseOf (l : List Nat) : Sparse Nat := ((upTo l.length).zip l).filter (fun p => p.2 != 0)

/-- A record table by qword. -/
def tableOf (d : List Byte) : Sparse Reg64 := (sparseOf (numsOf 8 d)).map (fun p => (p.1, BitVec.ofNat 64 p.2))

/-- An entry of the static copy schedule, if 09 R319 takes it. -/
def schedOf (h : Header) (td : Sparse Reg64) (d : List Byte) : Option SchedEnt :=
  let n := blkNum d
  let half (x i : Nat) : Int := signedOf 16 (x / 2 ^ (16 * i) % 2 ^ 16)
  let sem := n 3 1
  let se := bitAt sem 5
  if 8 ≤ n 0 1 || 16 ≤ n 1 1 || 64 ≤ n 2 1 || 64 ≤ sem || n 0xC 4 != 0 || n 8 4 == 0 || h.ntd ≤ n 2 1 || h.rings ≤ n 1 1
      || (se && !bitAt h.semmask (sem % 32)) then none
  else some { ch := Fin.ofNat 8 (n 0 1), ring := Fin.ofNat 16 (n 1 1), tdr := (upTo 12).map (fun i => spGet 0 td (12 * n 2 1 + i))
              sem := if se then some (Fin.ofNat 32 sem) else none, release := n 4 4, count := n 8 4
              org := (upTo 4).map (half (n 0x10 8)), step := (upTo 4).map (half (n 0x18 8)) }

/-- The initial tokens of a header, in the order of `TOKOCC` (02 R47, 05 R139). -/
def Engs.withTokens (g : Engs) (tok : Nat) : Engs :=
  let k (i : Nat) : Nat := tok / 16 ^ i % 16
  { S := { g.S with tokPrev := k 5, tokNext := k 6 }
    A := { g.A with tokPrev := k 0, tokNext := k 7 }
    M := { g.M with tokPrev := k 1, tokNext := k 8 }
    V := { g.V with tokPrev := k 2, tokNext := k 9 }
    T := { g.T with tokPrev := k 3, tokNext := k 10 }
    F := { g.F with tokPrev := k 4, tokNext := k 11 } }

/-- What a bank holds once text, tables and tokens are in place. -/
def Bank.loaded (b : Bank) (text : Sparse Nat) (td : Sparse Reg64) (sched : List SchedEnt) : Bank :=
  { b with
    st := .ready, text, engs := b.engs.withTokens b.hdr.tok
    acc := { b.acc with td }
    car := { b.car with sched, ch := (upTo 8).filterMap (fun n => if sched.any (fun e => e.ch.val == n) then some (n, { sched := true }) else none) } }

/-- A launch that fails while its banks load completes at once (05 R506, R175). -/
def State.failLoad (s : State) (id status : Nat) : State :=
  match s.launch id with
  | none => s
  | some x =>
    let s := x.live.foldl (fun s l => if s.resident id l then s.setBank l {} else s) s
    ((s.modLaunch id (fun x => { x with status, tend := s.dtime })).finish id).arbiter

/-- The walk positions of the six engines changed. -/
def Engs.shift (g : Engs) (f : Nat → Nat) : Engs :=
  let k (x : EngSt) : EngSt := { x with walk := f x.walk }
  { S := k g.S, A := k g.A, M := k g.M, V := k g.V, T := k g.T, F := k g.F }

/-- A bank as it is saved: its walk positions less Wmin (02 R61), which it keeps, and whether its save area could not be written. -/
def Bank.packed (b : Bank) (kept : Bool) : Bank :=
  let w := b.wmin
  { b with engs := b.engs.shift (· - w), seq := { b.seq with wbase := w, kept } }

/-- A saved bank with its walk positions as they were. -/
def Bank.unpacked (b : Bank) : Bank :=
  let w := b.seq.wbase
  { b with engs := b.engs.shift (· + w), seq := { b.seq with wbase := 0, kept := false } }

/-- An entry of a drift log as its bytes say it (12 R419). -/
def driftOf (d : List Byte) : Drift :=
  let n := blkNum d
  ⟨n 0 8, Fin.ofNat 16 (n 8 1), n 9 3, d.drop 16⟩

/-- What of a bank has bytes of its own in the save area, taken from those bytes: the share, the accumulator slots and the drift log (05 R168). -/
def Bank.refilled (b : Bank) (sp0 acc log : List Byte) : Bank :=
  let b := { b with acc := { b.acc with sp0 := spPutN 0 [] 0 sp0 }, mx := { b.mx with acc := [] } }
  let b := ((upTo b.hdr.acc).zip (chunksOf 10240 (b.hdr.acc + 1) acc)).foldl (fun b p => b.accWrite p.1 0 p.2) b
  { b with fab := { b.fab with drift := (chunksOf 80 (b.fab.drift.length + 1) log).map driftOf } }

/-- A launch whose bank was saved is restored from the save area (05 R168); registers, whose part of it has no layout, from the copy that went
there (log entry 17); so is all of a bank whose area could not be written. A page of the area that is mapped no more is waited for as a dispatch read
is (05 R506). -/
def State.restore (s : State) (l : Loc) (x : Launch) (b : Bank) : State × MRes :=
  let h := b.hdr
  let a := saveBase x.pkt h l.core + saveRegs
  let back (s : State) (b : Bank) : State × MRes :=
    let s := s.setBank l { b with st := .ready, evict := false, seq := { b.seq with wdog := 0 } }
    (s.modLaunch x.id (fun x => { x with saved := assocDel x.saved l.core }), .ok [])
  if b.seq.kept then back s b.unpacked
  else match s.mread x.pkt.ctx a h.spad with
  | (s, .ok sp) => match s.mread x.pkt.ctx (a + h.spad) (10240 * h.acc) with
    | (s, .ok ac) => match s.mread x.pkt.ctx (a + h.spad + 10240 * h.acc) (80 * b.fab.drift.length) with
      | (s, .ok dr) => back s (b.unpacked.refilled sp ac dr)
      | r => r
    | r => r
  | r => r

/-- A LOADING bank gets what it needs, or its read stops (05 R143, R168, R506). -/
def State.loadBank (s : State) (l : Loc) : State :=
  let b := s.bank l
  match b.launch.bind s.launch with
  | none => s
  | some x =>
    if b.st ≠ .loading ∨ x.st ≠ .dispatch ∨ x.pf.isSome then s
    else match assoc x.saved l.core with
      | some k => match s.restore l x k with
        | (s, .ok _) => (s.tryRun x.id).arbiter
        | (s, .page va) => s.launchPage x.id va false
        | (s, _) => s.failLoad x.id 4
      | none =>
        let h := b.hdr
        let p := x.pkt
        match s.mread p.ctx (p.image + h.textoff) (4 * h.textlen) with
        | (s, .page va) => s.launchPage x.id va false
        | (s, .ok text) =>
          match s.mread p.ctx (p.image + h.tdoff) (96 * h.ntd) with
          | (s, .page va) => s.launchPage x.id va false
          | (s, .ok td) =>
            match s.mread p.ctx p.sched (32 * p.nsched) with
            | (s, .page va) => s.launchPage x.id va true
            | (s, .ok sch) =>
              let ents := (chunksOf 32 (p.nsched + 1) sch).map (schedOf h (tableOf td))
              if ents.all (·.isSome) then
                ((s.setBank l (b.loaded (sparseOf (numsOf 4 text)) (tableOf td) (ents.filterMap id))).tryRun x.id).arbiter
              else s.failLoad x.id 3
            | (s, _) => s.failLoad x.id 3
          | (s, _) => s.failLoad x.id 4
        | (s, _) => s.failLoad x.id 4

/-- `BANK_LOADED` (05 R165). -/
def execBankLoaded (l : Loc) (s : State) : Out := .next (s.loadBank l)

/-! ## Halting and eviction (05 R165, R166, R168) -/

/-- Whether an access waits for a reply from HBM4E or host memory (05 R166 step 3). -/
def Acc.far (a : Acc) : Bool := a.rngs.any (fun r => match r.pl with | .pa p => homeOf p ≤ 1 | .sp0 .. => false)

/-- Whether every looping copy stands at a slot boundary. A channel in FAULTWAIT holds its slot and is not waited for (09 R330), and none is while
T stands at a progress point and holds an extent (log entry 14). -/
def Bank.atSlots (b : Bank) : Bool :=
  b.tx.work.isSome || b.car.ch.all (fun p => match p.2.cmds with
    | x :: _ => !x.long || x.off == 0 || p.2.pf.isSome
    | [] => true)

/-- Whether the engines of a halting core have finished what they have issued (05 R166 steps 2 and 3). Accesses of A wait for no reply of HBM4E or host
memory, nor for bytes that a stopped word of T holds (log entry 14); requests of F go on (step 5). -/
def State.issuedDone (s : State) (l : Loc) : Bool :=
  let b := s.bank l
  b.acc.out.all (fun a => a.far || s.tHolds a.rngs) && !b.mx.mid && b.fab.subs.all (fun p => p.2.st != .pending)

/-- A bank of a pre-empted launch that is being evicted and is not halting goes to its save area (05 R165, R168: the table has no row for a bank that
did not run, log entry 17). -/
def Bank.toSaving (b : Bank) : Bank := if b.evict ∧ b.st = .ready then { b with st := .saving } else b

/-- Once every core of a launch has halted the launch is pre-empted (05 R166). -/
def State.settlePreempt (s : State) (id : Nat) : State :=
  match s.launch id with
  | none => s
  | some x =>
    if !x.preq || x.st != .running || x.live.any (fun l => s.resident id l && ((s.bank l).st == .run || (s.bank l).st == .halting)) then s
    else
      let s := s.modLaunch id (fun x => { x with st := .preempted, preq := false })
      x.live.foldl (fun s l => if s.resident id l then s.setBank l (s.bank l).toSaving else s) s

/-- What a halting core has issued goes on as far as it can: accesses perform, F's requests go out, semaphores are signalled and pending granules sent
(05 R166; 04 R129; 12 R397). -/
def State.halting (s : State) (l : Loc) : State :=
  if (s.bank l).st ≠ .halting then s
  else
    let s := ((s.performAll l).flushFan l).drainPage l
    let s := (s.bank l).fab.reqs.foldl (fun s q => s.sendReq l q.id) s
    s.onBank l Bank.signalNow

/-- A core no longer runs a bank. -/
def State.leave (s : State) (l : Loc) : State :=
  let k := s.core l.core
  s.setCore l.core { k with run := if k.run = some l.bank then none else k.run }

/-- A halting bank halts (05 R165, R166), and so does one of an ending launch (R171 step 1). -/
def State.haltAt (s : State) (l : Loc) : State :=
  let s := s.halting l
  let b := s.bank l
  match b.launch.bind s.launch with
  | none => s
  | some x =>
    if b.st = .halting ∧ x.st = .running ∧ s.issuedDone l ∧ b.atSlots then
      ((s.setBank l { b with st := if x.preq ∧ b.evict then .saving else .ready }).leave l).settlePreempt x.id
    else if b.st = .halting ∧ x.st = .ending ∧ s.issuedDone l then (s.setBank l { b with st := .ready }).leave l
    else if b.st = .faultwait then s.settlePreempt x.id
    else s

/-- `CORE_HALTED` (05 R166). -/
def execCoreHalted (core : Nat) (s : State) : Out :=
  .next ((((s.haltAt ⟨core, 0⟩).haltAt ⟨core, 1⟩).selectBank core).arbiter)

/-- Free bytes (log entry 5). -/
def State.freeBytes (s : State) : Nat → List Byte × State
  | 0 => ([], s)
  | n + 1 =>
    let (v, s) := s.fresh
    let (r, s) := s.freeBytes n
    (v.truncate 8 :: r, s)

/-- A bank is written to its launch's save area and freed (05 R165, R168), once every reply that it awaits has come; the bytes of the registers' part are
free, since no layout is given, and an area that is not mapped takes none (log entry 17). -/
def State.saveBank (s : State) (l : Loc) : State :=
  let b := s.bank l
  match b.launch.bind s.launch with
  | none => s
  | some x =>
    let started := s.trav.insts.any (fun i => i.started && i.posts.any (fun p => p.own && p.launch == x.id && p.who % 1024 == l.core))
    if b.st ≠ .saving ∨ x.st ≠ .preempted ∨ !b.acc.out.isEmpty ∨ !b.fab.reqs.isEmpty ∨ started then s
    else
      let a := saveBase x.pkt b.hdr l.core
      let (r, s) := s.freeBytes saveRegs
      let d := r ++ b.sp0Read 0 b.hdr.spad ++ (upTo b.hdr.acc).flatMap (fun k => b.accRead k 0 10240)
      let k := b.packed (!s.mapped x.pkt.ctx a d.length)
      let s := s.mwrite x.pkt.ctx a d
      let s := (s.modLaunch x.id (fun x => { x with saved := assocPut x.saved l.core k })).setBank l {}
      s.arbiter

/-- `EVICTION_SAVED` (05 R165, R168). -/
def execEvictionSaved (l : Loc) (s : State) : Out := .next ((s.performAll l).saveBank l)

/-! ## The watchdog (04 R131) -/

/-- The engine with the least walk position, the first in tag order of several. -/
def Bank.laggard (b : Bank) : Engine := (allEngines.find? (fun e => (b.eng e).walk == b.wmin)).getD .S

/-- `WATCHDOG_EXPIRY` (04 R131). -/
def execWatchdogExpiry (core : Nat) (s : State) : Out :=
  .next (match (s.core core).run with
    | none => s
    | some k =>
      let b := s.bank ⟨core, k⟩
      if b.st = .run ∧ 2 ^ 20 ≤ b.seq.wdog then s.faultAt ⟨core, k⟩ .deadlock (b.eng b.laggard).pc 0 else s)

/-! ## The end of a launch (05 R171) -/

/-- What a bank of an ending launch has issued goes on as far as it can (05 R171 steps 1 and 3). Its word of T stands at a progress point and does
not go on: it holds no extent any longer (log entry 14). -/
def State.wind (s : State) (l : Loc) : State :=
  let s := s.setBank l { s.bank l with tx := { (s.bank l).tx with work := none } }
  let s := (upTo 8).foldl (fun s n =>
    let q : Fin 8 := Fin.ofNat 8 n
    s.drainHeld l q ((assoc (s.bank l).acc.q n).elim 0 (fun x => x.held.length))) s
  (s.performAll l).haltAt l

/-- Whether a bank of an ending launch has halted and has nothing left that is waited for: accesses of A, remote stores and atomics, and looping copies
before their slot boundary (05 R171 steps 1 to 3). -/
def State.wound (s : State) (l : Loc) : Bool :=
  let b := s.bank l
  b.st != .halting && b.acc.out.isEmpty && b.fab.reqs.all (fun r => r.ans.isSome || !r.op.writes) && b.atSlots

/-- A bank of an ending launch goes: its watches, its counts in segments and its state. -/
def State.dropPart (s : State) (id : Nat) (l : Loc) : State :=
  if !s.resident id l then s
  else
    let b := s.bank l
    let s := b.car.ch.foldl (fun s p => p.2.cmds.foldl (fun s x => s.dropBusy b.ctx x) s) s
    let s := { s with watches := s.watches.filter (fun w => w.l != l), platw := s.platw.filter (fun w => w.l != l) }
    s.clearPart l

/-- An ending launch ends on every core, once every effect of it has performed (05 R171 steps 1 to 4). -/
def State.endLaunch (s : State) (id : Nat) : State :=
  match s.launch id with
  | none => s
  | some x =>
    if x.st ≠ .ending then s
    else
      let here := x.live.filter (fun l => s.resident id l)
      let s := (s.stopInsts id).stopLaunch id
      let s := here.foldl (fun s l => s.wind l) s
      if !here.all s.wound then s
      else
        let s := here.foldl (fun s l => s.dropPart id l) s
        { s with transit := s.transit.filter (fun t => t.launch != id) }.modLaunch id (fun x =>
          { x with ended := x.cores.map (fun l : Loc => l.core), saved := [], iterQ := [], tend := s.dtime })

/-- `LAUNCH_END` (05 R171). -/
def execLaunchEnd (launch : Nat) (s : State) : Out := .next (s.endLaunch launch)

/-- The record of a launch that has ended on every core (05 R171 step 5). -/
def State.recordLaunch (s : State) (id : Nat) : State :=
  match s.launch id with
  | none => s
  | some x => if x.st = .ending ∧ x.live.isEmpty then ((s.finish id).sweepEnded).arbiter else s

/-- `COMPLETION_RECORD` (05 R171 step 5, R173). -/
def execCompletionRecord (launch : Nat) (s : State) : Out := .next (s.recordLaunch launch)

/-! ## Meridian (05 R176 to R179) -/

/-- A node of the table, if its entry is legal (05 R177): the number of a parameter is 0 to 7 in every `bump`. Its successors are read apart. -/
def nodeOf (d : List Byte) : Option (GNode × Nat × Nat) :=
  let n := blkNum d
  let nb := n 0x108 1
  let ok := n 0 1 == 0 && n 0x100 2 ≤ 4095 && n 0x102 2 ≤ 4095 && nb ≤ 4 && zeros d 0x109 7 && zeros d 0x150 48
    && (upTo 4).all (fun j => zeros d (0x111 + 16 * j) 7 && n (0x110 + 16 * j) 1 ≤ 7)
  if ok then
    some (⟨parsePacket (d.take 256), [], n 0x100 2, (upTo nb).map (fun j => (n (0x110 + 16 * j) 1, n (0x118 + 16 * j) 8))⟩, n 0x102 2, n 0x104 4)
  else none

/-- The successor lists of the nodes. -/
def State.readSuccs (s : State) (ctx table : Nat) : List (GNode × Nat × Nat) → State × Except MRes (List GNode)
  | [] => (s, .ok [])
  | (g, n, off) :: t =>
    match s.mread ctx (table + off) (2 * n) with
    | (s, .ok d) =>
      match s.readSuccs ctx table t with
      | (s, .ok r) => (s, .ok ({ g with succs := numsOf 2 d } :: r))
      | x => x
    | (s, r) => (s, .error r)

/-- How many edges of a graph lead to a node. -/
def edgesTo (nodes : List GNode) (n : Nat) : Nat := nodes.foldl (fun a (g : GNode) => a + g.succs.count n) 0

/-- Nodes left when those whose predecessors are all gone are taken away, round by round. -/
def peel : Nat → List (Nat × GNode) → List (Nat × GNode)
  | 0, l => l
  | k + 1, l => peel k (l.filter (fun p => l.any (fun q => q.2.succs.contains p.1)))

/-- Whether a node table breaks 05 R177: a node number too great, a count of predecessors that is not the number of edges, or a cycle. -/
def graphBad (nodes : List GNode) : Bool :=
  nodes.any (fun g => g.succs.any (fun n => nodes.length ≤ n))
    || ((upTo nodes.length).zip nodes).any (fun p => edgesTo nodes p.1 != p.2.npred)
    || !(peel nodes.length ((upTo nodes.length).zip nodes)).isEmpty

/-- Graph packets that wait at their queue heads for Meridian. -/
def State.graphHeads (s : State) : List Launch :=
  s.launches.filter (fun x => x.st == .queued && x.pkt.typ == 1 && x.queue < 64 && (s.queue x.queue).en)

/-- Whether a graph packet is the next to start (05 R176): room on Meridian, and no waiting one has an earlier deadline; of equal deadlines the lower
queue number goes first (log entry 49). -/
def State.graphNext (s : State) (x : Launch) : Bool :=
  s.graphs.length < 4 && x.pf.isNone && s.graphHeads.all (fun y => x.pkt.deadline < y.pkt.deadline
    || (x.pkt.deadline == y.pkt.deadline && x.queue ≤ y.queue))

/-- A graph starts (05 R176, R177). A node table or successor list that cannot be read is BAD_PACKET (log entry 49). -/
def State.startGraph (s : State) (x : Launch) : State :=
  let p := x.pkt
  let n := p.counts.getD 1 0
  match s.mread p.ctx p.image (384 * n) with
  | (s, .page va) => s.launchPage x.id va true
  | (s, .ok d) =>
    let ents := (chunksOf 384 (n + 1) d).map nodeOf
    if !ents.all (·.isSome) then (s.completeNow x.id 3).arbiter
    else match s.readSuccs p.ctx p.image (ents.filterMap id) with
      | (s, .error (.page va)) => s.launchPage x.id va true
      | (s, .error _) => (s.completeNow x.id 3).arbiter
      | (s, .ok nodes) =>
        if graphBad nodes then (s.completeNow x.id 3).arbiter
        else
          let s := s.takeHead x
          { s with
            launches := s.launches.filter (fun y => y.id != x.id)
            graphs := s.graphs ++ [{ id := x.id, queue := x.queue, slot := x.slot, fn := x.fn, tag := p.tag, ctx := p.ctx, crec := p.crec
                                     notify := p.notify, steps := p.counts.getD 0 0
                                     period := p.counts.getD 2 0 + 2 ^ 32 * p.counts.getD 3 0, nodes
                                     subm := List.replicate n 0, fin := List.replicate n 0, stop := none, cancel := false, tdisp := s.dtime }] }
  | (s, _) => (s.completeNow x.id 3).arbiter

/-- `MERIDIAN_GRAPH_START` (05 R176). -/
def execMeridianGraphStart (q : Fin 64) (s : State) : Out :=
  .next (match s.headOf q.val with
    | some x => if x.pkt.typ = 1 ∧ (s.queue q.val).en ∧ s.graphNext x then s.startGraph x else s
    | none => s)

/-- A graph by its identifier. -/
def State.graph (s : State) (id : Nat) : Option Graph := s.graphs.find? (fun y : Graph => y.id == id)

/-- The packet of a node in a step (05 R178). A template with no deadline has none in any step; a sum past the last Datum time stands at it
(log entry 18). -/
def GNode.packet (g : GNode) (step period : Nat) : Packet256 :=
  { g.pkt with
    deadline := min (2 ^ 64 - 1) (g.pkt.deadline + step * period)
    params := g.bumps.foldl (fun p b => listSet p b.1 ((p.getD b.1 0 + step * b.2) % 2 ^ 64)) g.pkt.params }

/-- Whether node `n` of a graph is ready in its next step (05 R178, R179). -/
def Graph.ready (g : Graph) (n : Nat) : Bool :=
  let k := g.subm.getD n 0
  n < g.nodes.length && g.stop.isNone && !g.cancel && k < g.steps && g.fin.getD n 0 == k
    && ((upTo g.nodes.length).zip g.nodes).all (fun p => !p.2.succs.contains n || k < g.fin.getD p.1 0)

/-- A ready node is submitted as a launch of queue number 64 (05 R178), or a node whose header is still to be read goes on. -/
def State.submitNode (s : State) (gid n : Nat) : State :=
  match s.graph gid with
  | none => s
  | some g =>
    match s.launches.find? (fun x => x.node == some (gid, n) && x.st == .queued && x.hdr.isNone) with
    | some x => s.checkHeader x.id
    | none =>
      if !g.ready n then s
      else match (g.nodes.drop n).head? with
        | none => s
        | some nd =>
          let k := g.subm.getD n 0
          let p := nd.packet k g.period
          let (id, s) := s.newId
          let s := { s with
            graphs := s.graphs.map (fun y : Graph => if y.id = gid then { y with subm := listSet y.subm n (k + 1) } else y)
            launches := s.launches ++ [newLaunch id 64 0 g.fn p k (some (gid, n))] }
          if s.packetBad p g.fn then (s.completeNow id 3).arbiter else s.checkHeader id

/-- `MERIDIAN_NODE_READY` (05 R178). -/
def execMeridianNodeReady (g node : Nat) (s : State) : Out := .next (s.submitNode g node)

/-- Whether a node of a graph is still under way: one submitted and not dispatched runs to its end too, when the graph has stopped (05 R179, log
entry 49). -/
def State.nodeRuns (s : State) (gid : Nat) : Bool := s.launches.any (fun x => x.node.any (fun p => p.1 == gid) && x.st != .done)

/-- The record of a graph (05 R179, 15 R488, R489). It never carries LATE, since a graph's deadline orders its start and no more (log entry 49); a
GRAPH packet that completes before its graph starts has the status of any packet. -/
def Graph.record (g : Graph) (now : Nat) : List Byte :=
  match g.stop with
  | some (step, node, status) => recordBytes g.tag 1 0 0 0 0 [] 0 g.tdisp now status step node
  | none => recordBytes g.tag (if g.cancel then 5 else 0) 0 0 0 0 [] 0 g.tdisp now 0 0 0

/-- A graph ends: stopped, cancelled or complete, with no node under way (05 R179). -/
def State.stopGraph (s : State) (gid : Nat) : State :=
  match s.graph gid with
  | none => s
  | some g =>
    if s.nodeRuns gid || !(g.stop.isSome || g.cancel || g.fin.all (· == g.steps)) then s
    else
      let s := if s.hasRecord g.ctx g.fn g.crec then s.mwrite g.ctx g.crec (g.record s.dtime) else s
      let s := s.setQueue g.queue ((s.queue g.queue).complete g.slot)
      let s := if g.notify then s.msix (s.queue g.queue).fn (s.queue g.queue).vec else s
      { s with graphs := s.graphs.filter (fun y : Graph => y.id != gid) }.arbiter

/-- `MERIDIAN_GRAPH_STOP` (05 R179). -/
def execMeridianGraphStop (g : Nat) (s : State) : Out := .next (s.stopGraph g)

/-! ## Host cancel (05 R171, R175; 15 R487, R493) -/

/-- A launch is cancelled. -/
def State.cancelLaunch (s : State) (x : Launch) : State :=
  match x.st with
  | .queued => s.completeNow x.id 5
  | .dispatch | .running | .preempted =>
    (s.modLaunch x.id (fun x => { x with st := .ending, status := 5, preq := false })).stopLaunch x.id
  | .ending | .done => s

/-- A packet of a ring that has not been read is cancelled: it is read and checked, and completes (05 R138, R175). -/
def State.cancelSlot (s : State) (q n : Nat) : State :=
  let k := s.queue q
  let a := k.slotAt n
  if !homesOk [0, 1] a 256 || (s.firstBad (.pa a) 256).isSome then (s.logEvent .eccUncorr 0 0 a).setQueue q (k.complete n)
  else
    let p := parsePacket (s.readPa a 256)
    let x := newLaunch 0 q n k.fn p 0 none
    let x := { x with status := 5, tend := s.dtime }
    let s := if s.hasRecord p.ctx k.fn p.crec then s.mwrite p.ctx p.crec (s.launchRecord x) else s
    let s := s.setQueue q (k.complete n)
    if p.notify then s.msix k.fn k.vec else s

/-- A host cancel of a packet by its slot count. One of a running graph cancels every node under way, and the graph is CANCELLED unless a node has
stopped it before (log entry 49). -/
def State.cancel (s : State) (q n : Nat) : State :=
  let k := s.queue q
  match s.launches.find? (fun x => x.queue == q && x.slot == n && x.st != .done) with
  | some x => (s.cancelLaunch x).arbiter
  | none =>
    match s.graphs.find? (fun y : Graph => y.queue == q && y.slot == n) with
    | some g =>
      let s := { s with graphs := s.graphs.map (fun y : Graph => if y.id = g.id ∧ y.stop.isNone then { y with cancel := true } else y) }
      let s := (s.launches.filter (fun x => x.node.any (fun p => p.1 == g.id) && x.st != .done)).foldl (fun s x => s.cancelLaunch x) s
      s.arbiter
    | none =>
      let ahead := (n + 2 ^ 32 - k.ridx) % 2 ^ 32
      if k.en && ahead < (k.widx + 2 ^ 32 - k.ridx) % 2 ^ 32 && !k.done.contains n then s.cancelSlot q n else s

/-- `QCANCEL` (15 R487). -/
def execQcancel (fn : Fin 17) (q : Fin 64) (v : BitVec 64) (s : State) : Out :=
  .next (
    let k := s.queue q.val
    if !s.regsOpen fn || (fn != 0 && fn.val != k.fn) then s
    else s.cancel q.val (v.toNat % 2 ^ 32))

end Sys2Proof.Machine
end

