-- ==== Sys2Proof/Machine/Port.lean ====
section
/-!
DEFINITION. The ends of links (13 R428 to R442, R444): the choice of the flit that a slot carries, credits, the retry buffer, refusal and replay,
retraining, failure and reset; and the link trace (15 R499). Omuno ports, mesh links and Erg channels share all of it.
-/

namespace Sys2Proof

/-! ## Packets as flits (13 R428 to R431) -/

/-- The number of a kind (13 R431). -/
def PKind.num : PKind → Nat
  | .write => 0x01 | .read => 0x02 | .resp => 0x03 | .amo => 0x04 | .gadd => 0x05 | .mcwrite => 0x06 | .mcread => 0x07
  | .granule => 0x08 | .chunk => 0x09 | .ack => 0x0A | .nack => 0x0B | .credit => 0x10 | .flush => 0x11 | .close => 0x12
  | .sync => 0x13 | .drain => 0x14 | .token => 0x15 | .mode => 0x16 | .advert => 0x17 | .other n => n.toNat

/-- Whether a kind may arrive in a class (13 R431). -/
def PKind.inClass (k : PKind) (c : PCls) : Bool :=
  match k with
  | .write | .read | .resp | .amo | .gadd | .mcwrite | .mcread => c == .bulk || c == .urgent
  | .granule | .chunk => c == .bulk
  | .ack | .nack | .credit | .flush | .close | .sync | .drain | .token | .mode | .advert => c == .critical
  | .other _ => false

/-- The greatest payload of a class in bytes (13 R430). -/
def PCls.maxLen : PCls → Nat
  | .bulk => 4096 | .urgent => 256 | .critical => 32

/-- Whether a receiver takes a packet: no reserved bit of its header is set, its class lists its kind, and its payload fits the class (13 R430, R431). -/
def Packet.legal (p : Packet) : Bool := !p.badRes && p.kind.inClass p.cls && p.len ≤ p.cls.maxLen

/-- The 32 header bytes at the front of a head flit's body (13 R430). -/
def Packet.front (p : Packet) : Nat :=
  let b (x : Bool) : Nat := if x then 1 else 0
  p.kind.num + 2 ^ 8 * b p.rel + 2 ^ 9 * b p.wm + 2 ^ 10 * b p.sift + 2 ^ 11 * b p.ver + 2 ^ 12 * p.scope.num
    + 2 ^ 16 * (p.len % 2 ^ 13) + 2 ^ 32 * p.seq.toNat + 2 ^ 64 * p.src.num + 2 ^ 80 * p.dst.num + 2 ^ 96 * p.window.toNat
    + 2 ^ 144 * p.npath.toNat + 2 ^ 160 * p.tag.toNat + 2 ^ 192 * p.off.toNat

/-- The flits of a packet (13 R428, R430). -/
def Packet.flits (p : Packet) : Nat := 1 + (p.len - 32 + 63) / 64

/-- The payload of a packet, where the manual lays it out: store data and read data (13 R431). -/
def Packet.plain (p : Packet) : Option (List (BitVec 8)) :=
  match p.req with
  | .none => some p.data
  | .write d => some d
  | _ => none

/-- The packet with each block of Sift sectors expanded to its 512 bytes (09 R328); a block that no decoder takes is left, and the packet discarded where
it performs. -/
def Packet.expand (p : Packet) : Packet :=
  match p.req with
  | .sectors l =>
    let d := l.flatMap (fun b => (Machine.unsiftBlock b.1 b.2).getD [])
    if l.all (fun b => (Machine.unsiftBlock b.1 b.2).isSome) then { p with sift := false, req := .write d, data := d, len := d.length } else p
  | _ => p

end Sys2Proof

namespace Sys2Proof.Machine

/-- One bit of a CRC-32 (13 R429: the IEEE 802.3 polynomial, least significant bit first). -/
def crcBit (c : BitVec 32) : BitVec 32 := if c.getLsbD 0 then (c >>> 1) ^^^ 0xEDB88320#32 else c >>> 1

/-- One byte of a CRC-32. -/
def crcByte (c : BitVec 32) (x : Byte) : BitVec 32 := (upTo 8).foldl (fun c _ => crcBit c) (c ^^^ x.zeroExtend 32)

/-- The CRC-32 of a byte string. -/
def crc32 (l : List Byte) : BitVec 32 := ~~~(l.foldl crcByte (BitVec.allOnes 32))

/-- The body of a packet's flit, where the manual lays out all of it: bytes past the payload are open. -/
def flitBody (p : Packet) (i : Nat) : Option (List Byte) :=
  match p.plain with
  | none => none
  | some d =>
    let b := ((leBytes 32 p.front ++ d).drop (64 * i)).take 64
    if b.length = 64 then some b else none

/-- Bits [31:0] of a flit's control field (13 R429). -/
def flitCtl (lseq : Nat) (lack : Option (BitVec 10)) (abort tail head : Bool) (vc : Fin 4) (cls : Nat) : Nat :=
  2 ^ 20 * (lseq % 1024) + 2 ^ 9 * (lack.elim 0 (·.toNat)) + 2 ^ 8 * bit lack.isSome
    + 2 ^ 7 * bit abort + 2 ^ 6 * bit tail + 2 ^ 5 * bit head + 4 * vc.val + cls

/-- The link sequence reported to the other end: the last one received in order (13 R437). -/
def Link.lack (x : Link) : Option (BitVec 10) := if x.rxAny then some (BitVec.ofNat 10 (x.rx + 1023)) else none

/-- A flit of a packet as its end sends it. Its CRC is computed where its body is laid out, and free where it is not (log entry 12). -/
def State.mkFlit (s : State) (k lseq : Nat) (o : OutPkt) (abort : Bool) : Flit × State :=
  let x := s.linkAt k
  let head := o.sent == 0 && !abort
  let tail := abort || o.sent + 1 == o.p.flits
  let ctl := flitCtl lseq x.lack abort tail head o.vc o.cls.val
  let (crc, s) : Nat × State := match flitBody o.p o.sent with
    | some b => if abort then s.choose (2 ^ 32) else ((crc32 (leBytes 4 ctl ++ b)).toNat, s)
    | none => s.choose (2 ^ 32)
  ({ crcOk := true, lseq := BitVec.ofNat 10 lseq, lack := x.lack, abort, tail, head := if head then some o.p else none
     vc := o.vc, cls := Fin.ofNat 4 o.cls.val, ctl := BitVec.ofNat 64 (2 ^ 32 * crc + ctl) }, s)

/-! ## The link trace (15 R499) -/

/-- The trace unit of a die. -/
def State.ltr (s : State) (die : Nat) : Ltr := (assoc s.regs.ltr die).getD {}

/-- The trace unit of a die put. -/
def State.setLtr (s : State) (die : Nat) (x : Ltr) : State := { s with regs := { s.regs with ltr := assocPut s.regs.ltr die x } }

/-- A flit that crosses a port is recorded, if the unit takes it and writes it in time, which is free (15 R499). -/
def State.trace (s : State) (die port : Nat) (tx : Bool) (f : Flit) : State :=
  let x := s.ltr die
  if !x.en || port != x.port || tx != x.tx || (x.cls != 0 && f.cls.val + 1 != x.cls) || (x.head && f.head.isNone) then s
  else
    let (k, s) := s.choose (2 ^ 16)
    if k = 0 then s.setLtr die { x with lost := true }
    else
      let ent := leBytes 8 f.ctl.toNat ++ leBytes 8 s.dtime ++ leBytes 16 (f.head.elim 0 (fun p => p.front % 2 ^ 128))
      (s.writePa (x.base + 32 * (x.idx % 2 ^ x.lg)) ent).setLtr die { x with idx := x.idx + 1 }

/-- A flit leaves an end: over a link of the package it is on its way to the other end. -/
def State.emit (s : State) (k lseq : Nat) (o : OutPkt) (abort : Bool) : State :=
  let (f, s) := s.mkFlit k lseq o abort
  let s := match peerOf k with
    | some e => { s with net := { s.net with wire := s.net.wire ++ [(e, f)] } }
    | none => s
  s.trace (endDie k) (endPort k) true f

/-! ## The choice of a flit (13 R433, R434, R436) -/

/-- Whether what stands before a packet lets it go: a FLUSH and a DRAIN follow every earlier packet (13 R443, R455), a CLOSE every earlier one
on its vc (13 R450). -/
def OutPkt.clear (o : OutPkt) (before : List OutPkt) : Bool :=
  match o.p.kind with
  | .flush | .drain => before.isEmpty
  | .close => before.all (fun q => q.vc != o.vc)
  | _ => true

/-- Whether a packet that is at an Omuno port for the first time is a release of this package in flush-marker mode (13 R454). -/
def State.flushRel (s : State) (k : Nat) (p : Packet) : Bool :=
  endPort k == omuno && s.isMine p && !p.sent && p.rel && p.kind.asks && p.scope.wide && !s.windowed p.scope

/-- Whether a packet may start: what stands before it lets it go, and a release in flush-marker mode finds every earlier write of its fence performed
(13 R454, R456). -/
def State.mayStart (s : State) (k : Nat) (o : OutPkt) (before : List OutPkt) : Bool :=
  o.clear before && (!s.flushRel k o.p || match s.reqByTag o.p.tag.toNat with
    | some (_, _, r) => r.before.isEmpty
    | none => true)

/-- The packet of a class and vc that has a pending flit: the one in progress, or the first that may start (13 R433), if it has a credit (R436). The last
critical credit of vc 3 is kept for a CREDIT that gives one back (log entry 19). -/
def State.front (s : State) (k : Nat) (c : Fin 3) (v : Fin 4) : Option (Nat × OutPkt) :=
  let x := s.linkAt k
  let l := ((upTo x.out.length).zip x.out).filter (fun p => p.2.cls == c && p.2.vc == v)
  let n := spGet 0 x.cred (4 * v.val + c.val)
  match (l.find? (fun p => p.2.sent != 0)).orElse (fun _ => l.find? (fun p => s.mayStart k p.2 (x.out.take p.1))) with
  | some (i, o) => if 2 ≤ n || (n == 1 && (o.p.kind != .credit || 0 < spGet 0 x.owe 14)) then some (i, o) else none
  | none => none

/-- The pending packet of a class: virtual channels take turns (13 R434). -/
def State.pick (s : State) (k : Nat) (c : Fin 3) : Option (Nat × OutPkt) :=
  (upTo 4).findSome? (fun n => s.front k c (Fin.ofNat 4 (spGet 0 (s.linkAt k).turn c.val + n)))

/-- The packet whose flit the next slot carries, of the classes that may go (13 R434; 14 R476). -/
def State.choice (s : State) (k : Nat) (bulkOk : Bool) : Option (Nat × OutPkt) :=
  let x := s.linkAt k
  let bulk := if bulkOk then s.pick k 0 else none
  let urg := s.pick k 1
  let crit := s.pick k 2
  if bulk.isSome && 7 ≤ x.noBulk then bulk
  else if urg.isSome && 15 ≤ x.noUrg then urg
  else if crit.isSome then crit else if urg.isSome then urg else bulk

/-- The slot counters of an end after a slot that carried a class, or none (13 R434). -/
def State.countSlot (s : State) (k : Nat) (c : Option (Fin 3)) : State :=
  let x := s.linkAt k
  s.setLinkAt k { x with
    noBulk := if (s.pick k 0).isSome && c != some 0 then x.noBulk + 1 else 0
    noUrg := if (s.pick k 1).isSome && (s.pick k 2).isSome && c != some 1 then x.noUrg + 1 else 0 }

/-! ## Credits and ADVERT (13 R436, R444) -/

/-- The flit buffers of a class and vc that this package's ends have: four and more (13 R444: the counts are open, log entry 19). -/
def buffers (k : Nat) : Nat := 4 + Config.rxBuffers k % 1024

/-- What ADVERT says. -/
def myAdvert : PReq := .advert true 4 ((upTo 16).map (fun k => if k % 4 < 3 then buffers k else 0))

/-- A packet of an end for the other end of its link. -/
def State.linkPacket (s : State) (k : Nat) (kind : PKind) (req : PReq) : Packet :=
  s.packet (endDie k) (s.myAddr ((peerOf k).elim (endDie k) endDie)) kind .critical .self 0 0 req []

/-- Whether an end gives credits back: once half of what a class and vc were first given is owed, or two of the credits that CREDIT packets take (13 R436;
log entry 19). -/
def Link.repays (x : Link) : Bool := x.owe.any (fun p => if p.1 = 14 then 2 ≤ p.2 else buffers p.1 ≤ 2 * p.2)

/-- An end that has trained sends ADVERT, and credits go back as the other end's flits leave their buffers (13 R436, R444). -/
def State.topUp (s : State) (k : Nat) : State :=
  let x := s.linkAt k
  if !x.greeted then
    (s.setLinkAt k { x with greeted := true }).queueAt k (s.linkPacket k .advert myAdvert) 3
  else if x.out.any (fun o => o.p.kind == .credit) then s
  else if x.repays then s.queueAt k (s.linkPacket k .credit (.credit [])) 3
  else s

/-- A CREDIT carries every credit that is owed when it goes. -/
def State.fillCredit (s : State) (k : Nat) (o : OutPkt) : State × OutPkt :=
  if o.p.kind ≠ .credit ∨ o.sent ≠ 0 then (s, o)
  else
    let x := s.linkAt k
    (s.setLinkAt k { x with owe := [] }, { o with p := { o.p with req := .credit ((upTo 16).map (spGet 0 x.owe)) } })

/-- The other end's first credits, from its ADVERT after a training from anew: the critical ones of vc 3 less those used before (13 R444). -/
def Link.advised (x : Link) (sift : Bool) (l : List Nat) : Link :=
  if x.heard then { x with sift }
  else
    { x with sift, heard := true
             cred := (upTo 16).foldl (fun c k =>
               spPut 0 c k (if k = 14 then l.getD k 0 - 1 + spGet 0 x.cred k else l.getD k 0)) [] }

/-- The sending half of an end at the start of a training from anew: it may send one critical flit on vc 3, so that ADVERT can go (log entry 19). -/
def Link.anewTx (x : Link) (out : List OutPkt) : Link :=
  { x with out, rbuf := [], replay := [], lseq := 0, cred := spPut 0 [] 14 1, heard := false, noBulk := 0, noUrg := 0, turn := [] }

/-- The receiving half of an end at the start of a training from anew: partial packets are discarded (13 R441), and what it grants is told anew. -/
def Link.anewRx (x : Link) : Link := { x with rx := 0, rxAny := false, refused := 0, owe := [], greeted := false, asm := [] }

/-! ## Sending (13 R428, R429, R436, R437, R449, R455; 09 R328) -/

/-- The packages that a packet is numbered for, with its number for each. -/
def Packet.numbers (p : Packet) : List (Nat × Nat) :=
  match p.req with
  | .mwrite ms l _ | .mread ms l _ => (ms.map (· / 16)).zip l
  | _ => [(p.dst.pkgNum, p.seq.toNat)]

/-- A FLUSH goes out on each route of a release, with the number of routes and its own route's number (13 R455). -/
def State.sendFlush (s : State) (p : Packet) : State :=
  (Packet.numbers p).foldl (fun s d =>
    let q : Packet := { p with
      kind := .flush, cls := .critical, rel := false, sift := false, len := 0, seq := BitVec.ofNat 32 d.2
      dst := NetAddr.of d.1 p.dst.die.toNat, req := .none, data := [], sent := false }
    let r := s.routes q
    let l := ((upTo r.length).zip r).filter (fun x => x.2.all (fun k => !s.endFailed k))
    l.foldl (fun s x => match x.2 with
      | k :: _ => s.queueAt k { q with npath := BitVec.ofNat 16 l.length, off := BitVec.ofNat 36 x.1 } 0
      | [] => s) s) s

/-- What becomes of a packet as its head flit leaves by an end: the first Omuno port stamps a packet of this package (13 R449), a neighbour that takes no
Sift gets plain bytes (09 R328, 13 R444), and a release in flush-marker mode is followed by its markers (13 R455). -/
def State.atHead (s : State) (k : Nat) (p : Packet) : State × Packet :=
  let first := endPort k == omuno && s.isMine p && !p.sent
  let wm := s.windowed p.scope && p.cls != .critical
  let q := if first then { p with
      sent := true, wm := if p.cls = .critical then p.wm else wm
      window := if p.cls = .critical then p.window else if wm then BitVec.ofNat 48 (s.windowOf s.dtime) else 0 } else p
  let q := if (s.linkAt k).sift then q else q.expand
  let rel := s.flushRel k p
  let s := s.noteHop k p first
  let s := if rel then s.sendFlush q else s
  match q.req with
  | .sync (.delayReq _ n) => ({ s with net := { s.net with clock := { s.net.clock with asked := some (n, some s.dtime) } } }, q)
  | _ => (s, q)

/-- A flit of the packet at an index of an end's queue leaves. -/
def State.sendFlit (s : State) (k i : Nat) (o : OutPkt) : State :=
  let (s, o) := (s.countSlot k (some o.cls)).fillCredit k o
  let (s, p) := if o.sent = 0 then s.atHead k o.p else (s, o.p)
  let x := s.linkAt k
  let o := { o with p }
  let tail := o.sent + 1 == p.flits
  let c := 4 * o.vc.val + o.cls.val
  let y := { x with
    out := if tail then x.out.eraseIdx i else listSet x.out i { o with sent := o.sent + 1 }
    rbuf := x.rbuf ++ [(x.lseq, o)]
    lseq := (x.lseq + 1) % 1024
    cred := spPut 0 x.cred c (spGet 0 x.cred c - 1)
    turn := spPut 0 x.turn o.cls.val ((o.vc.val + 1) % 4) }
  (s.setLinkAt k y).emit k x.lseq o false

/-- One flit slot of an end, and whether it carried a flit: a replayed flit first, then a new one if the retry buffer has room (13 R434, R437). -/
def State.slotAt (s : State) (k : Nat) (bulkOk : Bool) : State × Bool :=
  let s := s.topUp k
  let x := s.linkAt k
  match x.replay with
  | (n, o) :: t =>
    let s := s.countSlot k (some o.cls)
    ((s.setLinkAt k { s.linkAt k with replay := t }).emit k n o false, true)
  | [] =>
    match (if 512 ≤ x.rbuf.length then none else s.choice k bulkOk) with
    | some (i, o) => (s.sendFlit k i o, true)
    | none =>
      let s := s.countSlot k none
      (s.setLinkAt k { s.linkAt k with turn := [] }, false)

/-- One flit slot of a mesh or Omuno port. -/
def State.flitSlot (s : State) (die port : Nat) : State :=
  let k := portKey die port
  if s.endUp k ∧ port < 5 ∧ hasLink die port then (s.slotAt k true).1 else s

/-! ## The PTP port (13 R445) -/

/-- Omuno ports that have a link. -/
def State.omunoUp (s : State) : List Nat := (upTo 16).filter (fun d => (s.link d omuno).st == .up)

/-- The clock put. -/
def State.setClock (s : State) (c : Clock) : State := { s with net := { s.net with clock := c } }

/-- The PTP port after a change of links (13 R445): the lowest Omuno port that is UP, or the next one after a port that has left UP, by which a master is
selected anew. -/
def State.choosePtp (s : State) : State :=
  let c := s.net.clock
  let st : ClockSt := if c.st = .locked then .holdover else c.st
  if !c.chosen then
    match s.omunoUp.head? with
    | some d => s.setClock { c with chosen := true, port := d }
    | none => s
  else if (s.link c.port omuno).st = .up then s
  else
    let c := { c with st, master := none, got := none, pair := none, asked := none, delay := none }
    match (upTo 16).findSome? (fun k => let d := (c.port + k + 1) % 16; if (s.link d omuno).st = .up then some d else none) with
    | some d => s.setClock { c with port := d }
    | none => s.setClock c

/-! ## Retraining, failure and reset (13 R438 to R442) -/

/-- The ports whose state a link has: both of a mesh link. -/
def linkPorts (die port : Nat) : List Nat :=
  match meshTo die port with
  | some e => [portKey die port, portKey e (meshBack port)]
  | none => [portKey die port]

/-- The ends that send over the link of a port: both of a mesh link, the writers of the channel that a die reads, or a die on the channels of others. -/
def linkEnds (die port : Nat) : List Nat :=
  let others := (upTo 16).filter (· != die)
  if port < 5 then linkPorts die port
  else if port = ergRx then others.map (fun d => ergKey d die)
  else others.map (fun d => ergKey die d)

/-- The end that hears a sending end: an Omuno port's is outside, and its own receiving half stands for the link's other direction. -/
def hears (k : Nat) : Nat := (peerOf k).getD k

/-- Flits on their way over some links are lost. -/
def State.dropWire (s : State) (ends : List Nat) : State :=
  { s with net := { s.net with wire := s.net.wire.filter (fun w => !(peerOf w.1).any ends.contains) } }

/-- The state of a link's ports put. -/
def State.setSt (s : State) (ports : List Nat) (f : Link → Link) : State := ports.foldl (fun s k => s.setLinkAt k (f (s.linkAt k))) s

/-- Links start anew from some sending ends, each with packets to send. -/
def State.renew (s : State) (l : List (Nat × List OutPkt)) : State :=
  let s := l.foldl (fun s p => s.setLinkAt p.1 ((s.linkAt p.1).anewTx p.2)) s
  s.setSt (l.map (fun p => hears p.1)) Link.anewRx

/-- A link begins to retrain (13 R438). -/
def State.retrain (s : State) (die port : Nat) : State :=
  let s := s.dropWire (linkEnds die port)
  let s := s.setSt (linkPorts die port) (fun x => { x with st := .retraining, retrains := min 0xFFFF (x.retrains + 1), since := s.dtime })
  let s := s.setSt ((linkEnds die port).map hears) (fun x => { x with refused := 0 })
  s.choosePtp.logEvent .linkRetrain die port 0

/-- The reply timers of the requests that leave by some ends stood still while the link trained (13 R442). -/
def State.holdTimers (s : State) (ends : List Nat) (since : Nat) : State :=
  s.mapBanks (fun _ b => { b with fab := { b.fab with reqs := b.fab.reqs.map (fun r =>
    if r.via.any ends.contains then { r with sentAt := r.sentAt.map (fun t => t + (s.dtime - max since t)) } else r) } })

/-- The flits of an end that the other end has not received in order: all that are not covered, but where the other end is this package's (13 R437). -/
def State.unreceived (s : State) (k : Nat) : List (Nat × OutPkt) :=
  match peerOf k with
  | some e => (s.linkAt k).rbuf.filter (fun f => (f.1 + 1024 - (s.linkAt e).rx) % 1024 < 512)
  | none => (s.linkAt k).rbuf

/-- An end replays what has not been received (13 R437, R438). -/
def State.replayAt (s : State) (k : Nat) : State :=
  let l := s.unreceived k
  let x := s.linkAt k
  s.setLinkAt k { x with rbuf := l, replay := l, replays := if l.isEmpty then x.replays else min 0xFFFF (x.replays + 1) }

/-- Packets in their order, each once, from its head: those that an end has sent in part or has still to send. -/
def State.rewound (s : State) (k : Nat) : List OutPkt :=
  let x := s.linkAt k
  let head (o : OutPkt) : OutPkt := { o with sent := 0 }
  ((s.unreceived k).filter (fun f => f.2.sent + 1 == f.2.p.flits)).map (fun f => head f.2) ++ x.out.map head

/-- `LINK_TRAINED`: a link that trains comes up within 20 µs, its ends replay what was not acknowledged, and each sends ADVERT
(13 R438, R444). -/
def execLinkTrained (die : Fin 16) (port : Fin 7) (s : State) : Out :=
  .next (
    let x := s.link die.val port.val
    if !(x.st == .training || x.st == .retraining) || x.since + 20000 < s.dtime then s
    else
      let l := linkEnds die.val port.val
      let s := s.setSt (linkPorts die.val port.val) (fun x => { x with st := .up })
      let s := if x.st = .retraining then l.foldl State.replayAt s else s.renew (l.map (fun k => (k, (s.linkAt k).out)))
      let s := s.setSt (l.map hears) (fun x => { x with greeted := false })
      (s.holdTimers l x.since).choosePtp)

/-- A CLOSE of a link that failed goes by another Omuno port, once the packets before it have gone (13 R439, R450). -/
def State.reclose (s : State) (l : List OutPkt) : State :=
  match s.omunoUp with
  | [] => s
  | d :: _ =>
    let w := s.net.win
    let n := (l.filter (fun o => o.p.kind == .close)).map (fun o => (d, o.p.window.toNat))
    { s with net := { s.net with win := { w with owed := w.owed ++ n.eraseDups.filter (fun x => !w.owed.contains x) } } }

/-- The abort tail flits of the packets that an end has sent in part (13 R441). -/
def State.abortAt (s : State) (k : Nat) : State :=
  if !s.endUp k then s
  else ((s.linkAt k).out.filter (fun o => o.sent != 0)).foldl (fun s o =>
    let x := s.linkAt k
    (s.setLinkAt k { x with lseq := (x.lseq + 1) % 1024 }).emit k x.lseq o true) s

/-- `LINK_RESET`: a packet sent in part ends with an abort tail, partial packets are discarded, and the link trains again; every packet is sent whole from
its head (13 R441). -/
def execLinkReset (die : Fin 16) (port : Fin 7) (s : State) : Out :=
  .next (
    if (s.link die.val port.val).st = .down then s
    else
      let l := linkEnds die.val port.val
      let s := (l.foldl State.abortAt s)
      let ps := l.map (fun k => (k, (s.rewound k).filter (fun o => !(o.p.kind == .credit || o.p.kind == .advert))))
      let s := s.dropWire l
      let s := s.setSt (linkPorts die.val port.val) (fun x => { x with st := .training, since := s.dtime })
      (s.renew ps).choosePtp)

/-- `LOSS_OF_LANE_LOCK` (13 R438). -/
def execLossOfLaneLock (die : Fin 16) (port : Fin 7) (s : State) : Out :=
  .next (if (s.link die.val port.val).st = .up then s.retrain die.val port.val else s)

/-! ## Receiving (13 R429, R433, R437, R441) -/

/-- The other end's report (13 R437): flits it has received leave the retry buffer. Whether it also tells of a refusal, so that the rest is
replayed, is free at an Omuno port, since the control field has no bit for it (log entry 19). -/
def State.takeLack (s : State) (k : Nat) (f : Flit) : State :=
  match f.lack with
  | none => s
  | some n =>
    let x := s.linkAt k
    let left := x.rbuf.filter (fun e => 512 ≤ (n.toNat + 1024 - e.1) % 1024)
    let again := x.replay.filter (fun e => 512 ≤ (n.toNat + 1024 - e.1) % 1024)
    let (r, s) := if (peerOf k).isSome then (0, s) else s.choose 2
    if r = 1 ∧ left ≠ [] ∧ again = [] then
      s.setLinkAt k { x with rbuf := left, replay := left, replays := min 0xFFFF (x.replays + 1) }
    else s.setLinkAt k { x with rbuf := left, replay := again }

/-- A thing discarded at an end (13 R429 to R431). -/
def State.badKind (s : State) (k port : Nat) : State :=
  let x := s.linkAt k
  (s.setLinkAt k { x with discarded := x.discarded + 1 }).logEvent .linkBadkind (endDie k) port 0

/-- A packet has arrived whole: it is kept until it is taken, or discarded where it is not legal (13 R430, R431). -/
def State.gotPacket (s : State) (k port time : Nat) (vc : Fin 4) (p : Packet) : State :=
  if p.legal then
    { s with net := { s.net with arrived := s.net.arrived ++ [p.cameBy (Fin.ofNat 16 (endDie k)) (Fin.ofNat 7 port) vc time] } }
  else s.badKind k port

/-- A good flit joins its packet (13 R433, R441). -/
def State.assemble (s : State) (k port : Nat) (f : Flit) : State :=
  let x := s.linkAt k
  let c := 4 * f.vc.val + f.cls.val
  let done : State := s.setLinkAt k { x with asm := assocDel x.asm c }
  if f.cls = 3 then s.badKind k port
  else if f.abort then done
  else match (match f.head with | some p => some (s.dtime, p) | none => assoc x.asm c) with
    | none => s
    | some (t, p) => if f.tail then done.gotPacket k port t f.vc p else s.setLinkAt k { x with asm := assocPut x.asm c (t, p) }

/-- A flit in order at an end (13 R436, R437): its buffer's credit is owed. -/
def State.goodFlit (s : State) (k port : Nat) (f : Flit) : State :=
  let x := s.linkAt k
  let c := 4 * f.vc.val + f.cls.val
  let x := { x with rx := (x.rx + 1) % 1024, rxAny := true, refused := 0, owe := if f.cls = 3 then x.owe else spPut 0 x.owe c (spGet 0 x.owe c + 1) }
  ((s.setLinkAt k x).takeLack k f).assemble k port f

/-- A refused flit (13 R437, R438): the sender replays from the next after the last good one, which an end of this package does at once; 16 in a row
retrain the link. -/
def State.refuse (s : State) (k port : Nat) : State :=
  let x := s.linkAt k
  let s := s.setLinkAt k { x with refused := x.refused + 1 }
  if 16 ≤ x.refused + 1 then s.retrain (endDie k) port
  else match peerOf k with
    | some e => if x.refused = 0 then s.replayAt e else s
    | none => s

/-- The end that a flit comes to at a port: over a link of the package, the next one on its way there, whole or spoilt. -/
def State.flitTo (s : State) (die port : Nat) (f : Flit) : Option Nat :=
  let good (w : Nat × Flit) : Bool := w.2 == f || { w.2 with crcOk := false } == f
  if port = ergTx then none
  else if port = omuno then some (portKey die omuno)
  else match s.net.wire.find? (fun w => if port = ergRx then 112 ≤ w.1 && endDie w.1 == die else w.1 == portKey die port) with
    | some w => if good w then some w.1 else none
    | none => none

/-- A flit leaves the wire at the end it came to. -/
def State.offWire (s : State) (k : Nat) : State :=
  match s.net.wire.findIdx? (fun w => w.1 == k) with
  | some i => { s with net := { s.net with wire := s.net.wire.eraseIdx i } }
  | none => s

/-- `FLIT_RECEIVE`: a flit arrives; one with a bad CRC, out of order, or an abort without tail is refused (13 R429, R437). -/
def execFlitReceive (die : Fin 16) (port : Fin 7) (f : Flit) (s : State) : Out :=
  .next (match s.flitTo die.val port.val f with
    | none => s
    | some k =>
      if !s.endUp k then s
      else
        let s := (s.offWire k).trace die.val port.val false f
        if !f.crcOk || f.lseq.toNat != (s.linkAt k).rx || (f.abort && !f.tail) then s.refuse k port.val
        else s.goodFlit k port.val f)

end Sys2Proof.Machine
end

