-- ==== Sys2Proof/Machine/Links.lean ====
section
/-!
DEFINITION. Packets at their destination (12 R400, 13 R435, R440, R451, R454, R455), windows and scope modes (13 R448 to R456), routing updates (13 R443),
the failure of a link (R439), and the clock (R445 to R447).
-/

namespace Sys2Proof

/-- Whether a tag was given before another: requester's request indices are taken in order, modulo 2^32 (13 R430, log entry 12). -/
def tagBefore (t u : BitVec 32) : Bool := t != u && (u - t).toNat < 2 ^ 31

/-- Bytes that a request covers. -/
def PReq.bytes : PReq → Nat
  | .write d => d.length
  | .sectors l => 512 * l.length
  | .read n => n
  | .amo _ w8 _ _ => Machine.w8n w8
  | .gadd .. => 32
  | .mwrite _ _ d => d.length
  | .mread _ _ n => n
  | _ => 0

/-- What a request does to a parcel (07 R226). -/
def PReq.access : PReq → Machine.PKindAcc
  | .write _ | .sectors _ | .mwrite .. => .write
  | .amo .. => .atomic
  | .gadd .. => .grain
  | _ => .read

/-- Whether a request writes its home. -/
def PReq.writes : PReq → Bool
  | .write _ | .sectors _ | .mwrite .. | .amo .. | .gadd .. | .hostWrite .. => true
  | _ => false

/-- Whether host memory serves a request (07 R238). -/
def PReq.hostServes : PReq → Bool
  | .amo op .. => Machine.hostOk op
  | .gadd .. => false
  | _ => true

/-- Whether a request's reply carries data. -/
def PReq.answers : PReq → Bool
  | .read _ | .amo .. | .mread .. | .hostRead .. => true
  | _ => false

/-- The number that a packet has on its triple to a package: a multicast has one for each member. -/
def Packet.seqFor (p : Packet) (pkg : Nat) : Nat := (((Machine.Packet.numbers p).find? (fun x => x.1 == pkg)).map (·.2)).getD p.seq.toNat

/-- The end by which a packet of a link has arrived: Erg flits come over the channel's receive port from their writer. -/
def Arrived.fromEnd (a : Arrived) : Nat :=
  if a.port.val = Machine.ergRx then Machine.ergKey a.die.val a.p.src.die.toNat else Machine.portKey a.die.val a.port.val

end Sys2Proof

namespace Sys2Proof.Machine

/-! ## Sequence numbers (13 R435, R440) -/

/-- What this package keeps of a triple it receives on. -/
def State.rxTriple (s : State) (src : Nat) (cls : PCls) : RxTriple :=
  (s.net.rxt.find? (fun t => t.src == src && t.cls == cls)).getD ⟨src, cls, 0, [], []⟩

/-- A receiving triple put. -/
def State.setRx (s : State) (t : RxTriple) : State :=
  { s with net := { s.net with rxt := t :: s.net.rxt.filter (fun u => !(u.src == t.src && u.cls == t.cls)) } }

/-- The number of a packet on the triple by which it reaches this package. -/
def State.seqHere (s : State) (p : Packet) : Nat := p.seqFor s.pkgNum

/-- An ACK or a NACK of a packet (13 R435, 12 R400). -/
def State.ackTo (s : State) (die : Nat) (p : Packet) (cause : Option Nat) : State :=
  let q := s.packet die p.src (if cause.isSome then .nack else .ack) .critical p.scope 0 0 (.acked p.cls cause) []
  s.forward die { q with seq := BitVec.ofNat 32 (s.seqHere p), tag := p.tag, off := p.off } 2

/-- An ACK or NACK and those of the duplicates that came before it (13 R440). -/
def State.ackAll (s : State) (die : Nat) (p : Packet) (cause : Option Nat) : Nat → State
  | 0 => s.ackTo die p cause
  | n + 1 => (s.ackTo die p cause).ackAll die p cause n

/-- What this package has kept of a packet that another acknowledges, and the state without it. -/
def State.acked (s : State) (dst : Nat) (cls : PCls) (seq : Nat) : Option (Nat × Nat) × State :=
  let t := s.txTriple dst cls
  ((t.unack.find? (fun u => u.1 == seq)).map (·.2), s.setTx { t with unack := t.unack.filter (fun u => u.1 != seq) })

/-- A merged answer acknowledges the copies of every member (12 R411, R412). -/
def State.ackedAll (s : State) (tag off : Nat) : State :=
  { s with net := { s.net with txt := s.net.txt.map (fun t => { t with unack := t.unack.filter (fun u => !(u.2.1 == tag && u.2.2 == off)) }) } }

/-! ## Requests at their home (12 R400) -/

/-- The number that stands for a core that owns nothing. -/
def noOwner : Nat := 2 ^ 10

/-- The Plat check of a request, as by a core that is never the owner, on the table itself (12 R400 step 4). -/
def State.platFree (s : State) (ctx : Nat) (k : PKindAcc) : List (Nat × Nat) → State × Bool
  | [] => (s, true)
  | (va, _) :: t =>
    match s.ctx ctx with
    | none => (s, false)
    | some c =>
      let (pick, s) := s.choose (2 ^ 32)
      match platSearch (s.platTable c) va pick with
      | .bad => (s, false)
      | .dflt => s.platFree ctx k t
      | .entry _ p0 p1 => if (platVerdict noOwner k p0 p1).isSome then (s, false) else s.platFree ctx k t

/-- What the checks of a request end with. -/
inductive Checked where
  | fail (cause : Nat)
  | page (ctx va : Nat)
  | ok (r : List Rng)
  deriving DecidableEq, Repr

/-- An access of the host at its home: it is not checked against the Plat (15 R482), and a read of bytes that cannot be corrected is aborted and logged
(R500). -/
def State.checkHost (s : State) (pa n : Nat) (write : Bool) : State × Checked :=
  match (if write then none else s.firstBad (.pa pa) n) with
  | some a => (s.logEvent .eccUncorr 0 0 a, .fail 5)
  | none => (s, .ok [⟨.pa pa, n, none, 0⟩])

/-- The checks of a request that has arrived, in their order (12 R400). -/
def State.checkRequest (s : State) (p : Packet) : State × Checked :=
  let w := bits p.off.toNat 35 32
  let off := bits p.off.toNat 31 0
  let q0 := spGet 0 s.regs.expwin (2 * w)
  let q1 := spGet 0 s.regs.expwin (2 * w + 1)
  let ctx := bits q1 11 0
  let n := p.req.bytes
  match p.req with
  | .hostWrite pa d => s.checkHost pa d.length true
  | .hostRead pa n => s.checkHost pa n false
  | _ =>
  if !bitAt q0 0 || 4096 * bits q1 52 32 < off + n then (s, .fail 0)
  else if p.req.writes && !bitAt q0 1 then (s, .fail 1)
  else
    let va := bits q0 56 12 * 4096 + off
    match s.walkAll ctx va n p.req.writes [0, 1, 4, 5] with
    | (s, .page v) => (s, .page ctx v)
    | (s, .fault _) => (s, .fail 1)
    | (s, .ok r) =>
      match s.platFree ctx p.req.access (pageParts (n / 4096 + 2) va n) with
      | (s, false) => (s, .fail 3)
      | (s, true) =>
        if !p.req.hostServes && inHost r then (s, .fail 4)
        else match (if p.req.access == .write then none else s.badRngs r) with
          | some a => (s.logEvent .eccUncorr 0 0 a, .fail 5)
          | none => (s, .ok r)

/-- What a request does at its home, and what goes back; Sift sectors are expanded there, exactly as a hop would (09 R328). -/
def State.serveRequest (s : State) (req : PReq) (r : List Rng) : List Byte × State :=
  let old := s.readRngs r
  match req with
  | .write d | .mwrite _ _ d => ([], s.writeRngs r d)
  | .sectors l => ([], s.writeRngs r (l.flatMap (fun b => (unsiftBlock b.1 b.2).getD (List.replicate 512 0))))
  | .amo op w8 x y =>
    (old, match famoNew op (8 * w8n w8) (ofLe old) x y with
      | some v => s.writeRngs r (leBytes (w8n w8) v)
      | none => s)
  | .gadd fmt x => ([], s.writeRngs r (leBytes 32 (gaddCell fmt x (ofLe old))))
  | .hostWrite _ d => ([], s.writeRngs r d)
  | _ => (old, s)

/-! ## When a packet performs (13 R450, R451, R454, R455) -/

/-- The inputs over which CLOSE of a window is awaited: every vc of every Omuno port that has come up; one that has failed, for windows before its
failure, whose CLOSE is re-injected (13 R439, R450). -/
def State.inputs (s : State) (n : Nat) : List (Nat × Nat × Nat) :=
  ((upTo 16).filter (fun d =>
    let x := s.link d omuno
    x.st != .down && (x.st != .failed || n < s.windowOf x.since))).flatMap (fun d => (upTo 4).map (fun v => (d, omuno, v)))

/-- Windows closed so far on an input, as one above the greatest. -/
def State.closedOn (s : State) (k : Nat × Nat × Nat) : Nat := ((s.net.win.closes.find? (fun c => c.1 == k)).map (·.2)).getD 0

/-- Whether this package holds CLOSE `n` (13 R450). -/
def State.holdsClose (s : State) (n : Nat) : Bool := (s.inputs n).all (fun k => n < s.closedOn k)

/-- Packets on their way within the package: in queues and on links between its dies, or arrived and not taken. -/
def State.onWay (s : State) : List Packet :=
  s.net.links.flatMap (fun x =>
    if endPort x.1 = omuno then []
    else x.2.out.map (·.p) ++ (s.unreceived x.1).map (·.2.p) ++ x.2.asm.map (·.2.2))
  ++ s.net.wire.filterMap (·.2.head) ++ s.net.arrived.map (·.p)

/-- Whether a write of a release's sender, given before it, has arrived and not performed (13 R451, R456; log entry 12). -/
def State.earlierHeld (s : State) (q : Incoming) : Bool :=
  (s.onWay ++ (s.net.inc.filter (fun x => x.id != q.id)).map (·.p)).any (fun p =>
    p.kind.asks && p.req.writes && p.src.pkgNum == q.p.src.pkgNum && s.staysNear p && tagBefore p.tag q.p.tag)

/-- Whether the time of a packet has come at its home (13 R451, R454, R455). -/
def State.timely (s : State) (q : Incoming) : Bool :=
  let n := q.p.window.toNat
  if q.p.wm then
    if q.p.rel then n + 2 ≤ s.windowOf s.dtime && s.holdsClose n && !s.earlierHeld q else n < 2 || s.holdsClose (n - 2)
  else !q.p.rel || !q.p.scope.wide || (q.need != 0 && q.need ≤ q.got.length)

/-! ## Performing (13 R435) -/

/-- Whether a packet is the next of its triple (13 R435). -/
def State.inTurn (s : State) (p : Packet) : Bool := (s.rxTriple p.src.pkgNum p.cls).next == s.seqHere p

/-- A packet has performed, or was refused: its triple goes on (13 R435, R440). -/
def State.passSeq (s : State) (p : Packet) (cause : Option Nat) : State :=
  let t := s.rxTriple p.src.pkgNum p.cls
  let n := s.seqHere p
  let old := t.nacks.filter (fun x => (n + 2 ^ 32 - x.1) % 2 ^ 32 < 4096)
  s.setRx { t with next := (n + 1) % 2 ^ 32, rec' := t.rec'.filter (· != n), nacks := match cause with | some c => (n, c) :: old | none => old }

/-- A held packet removed. -/
def State.dropInc (s : State) (id : Nat) : State := { s with net := { s.net with inc := s.net.inc.filter (fun q => q.id != id) } }

/-- A held packet changed. -/
def State.modInc (s : State) (id : Nat) (f : Incoming → Incoming) : State :=
  { s with net := { s.net with inc := s.net.inc.map (fun q => if q.id = id then f q else q) } }

/-- A reply's bytes reach the request they answer; a late one is discarded (12 R400). -/
def State.takeBack (s : State) (src tag off : Nat) (l : List (Option (List Byte))) : State :=
  match s.reqByTag tag with
  | none => s
  | some (k, loc, r) => s.modPart k loc (fun b => b.modReq r.id (fun q => q.takes src off l))

/-- Packets that ask nothing of a home: a RESP, a CHUNK, a GRANULE. A launch's cores are of one package, so no granule comes from another one for a
slot of this package. -/
def State.takePlain (s : State) (p : Packet) : State :=
  match p.kind with
  | .resp => match p.req with
    | .replies l => (s.ackedAll p.tag.toNat p.off.toNat).takeBack p.src.pkgNum p.tag.toNat p.off.toNat l
    | _ => s.takeBack p.src.pkgNum p.tag.toNat p.off.toNat [some p.data]
  | .chunk => s.hearColl p.req p.data
  | _ => s

/-- A held packet leaves: its triple goes on, and it is acknowledged, with its duplicates. -/
def State.settleInc (s : State) (q : Incoming) (cause : Option Nat) : State :=
  ((s.dropInc q.id).passSeq q.p cause).ackAll q.die q.p cause q.dups

/-- Held packets that are no requests are taken as their turn comes. -/
def State.goOnInc : Nat → State → State
  | 0, s => s
  | k + 1, s =>
    match s.net.inc.find? (fun q => !q.p.kind.asks && s.inTurn q.p && s.timely q && s.mayHear q.p.req) with
    | none => s
    | some q => State.goOnInc k ((s.settleInc q none).takePlain q.p)

/-- Every held packet that is no request, and waiting packets, as far as they can. -/
def State.goOnHeld (s : State) : State :=
  let s := State.goOnInc (s.net.inc.length + 1) s
  State.goOnPend s.net.pend.length s

/-- The page fault of a remote request goes to its context's function (12 R400 step 3, 15 R494). -/
def State.reportInc (s : State) (id : Nat) : State :=
  match s.net.inc.find? (fun q => q.id == id) with
  | none => s
  | some q =>
    match q.pf with
    | none => s
    | some p =>
      let ctx := bits (spGet 0 s.regs.expwin (2 * bits q.p.off.toNat 35 32 + 1)) 11 0
      let f := s.ctxFn ctx
      if !p.queued ∧ (s.fn f).fqRoom then
        (s.appendFault f ⟨0, p.va, ctx, 10, p.write, 0x3FF, false, some id, false⟩).modInc id (fun q => { q with pf := some { p with queued := true } })
      else s

/-- An answer to a request goes back: data in a RESP beside its ACK, or the ACK or NACK alone. -/
def State.answerInc (s : State) (q : Incoming) (r : Except Nat (List Byte)) : State :=
  match r with
  | .error c => s.settleInc q (some c)
  | .ok d =>
    let s := s.settleInc q none
    if q.p.req.answers then
      let x := s.packet q.die q.p.src .resp q.p.cls q.p.scope 0 0 .none d
      s.sendSeq q.die { x with tag := q.p.tag, off := q.p.off } 2
    else s

/-- A request that has arrived is checked and performed, or refused (12 R400): in its triple's order, when its time has come. -/
def State.arriveInc (s : State) (idx : Nat) : State :=
  match (s.net.inc.drop idx).head? with
  | none => s
  | some q =>
    if !q.p.kind.asks || q.pf.isSome || !s.inTurn q.p || !s.timely q then s
    else match s.checkRequest q.p with
      | (s, .fail c) => (s.answerInc q (.error c)).goOnHeld
      | (s, .page _ va) => (s.modInc q.id (fun q => { q with pf := some ⟨va, q.p.req.writes, 10, true, false⟩ })).reportInc q.id
      | (s, .ok r) =>
        if s.movingRngs r || s.tHolds r then s
        else
          let (d, s) := (s.hostWrote q.p).serveRequest q.p.req r
          (s.answerInc q (.ok d)).goOnHeld

/-- `REMOTE_REQUEST_ARRIVAL` (12 R400). -/
def execRemoteRequestArrival (r : ReqRef) (s : State) : Out :=
  .next (match r with
    | .own l id => s.arriveOwn l id
    | .incoming idx => s.arriveInc idx)

/-! ## CLOSE and DRAIN that wait to go (13 R443, R450) -/

/-- Omuno ports that have come up and not failed. -/
def State.omunoOut (s : State) : List Nat := (upTo 16).filter (fun d => (s.link d omuno).st != .down && (s.link d omuno).st != .failed)

/-- The inputs that may route to an Omuno output: in loaded tables, and none before (13 R450). -/
def State.transits (s : State) (n d : Nat) : List (Nat × Nat × Nat) :=
  let t := s.net.routing.bank s.net.routing.act
  if t.isEmpty then [] else (s.inputs n).filter (fun k => Config.transit t k.1 d)

/-- Whether CLOSE `n` may go out on an Omuno output: every input that can route to it has closed the window, and no packet stamped so early is on its way out
(13 R450). -/
def State.closeReady (s : State) (d n : Nat) : Bool :=
  (s.transits n d).all (fun k => n < s.closedOn k) && s.onWay.all (fun p => !p.wm || n < p.window.toNat || s.staysNear p)

/-- CLOSE of a window on every vc of an Omuno port. -/
def State.sendClose (s : State) (d n : Nat) : State :=
  (upTo 4).foldl (fun s v =>
    s.queueAt (portKey d omuno) { s.packet d (s.myAddr d) .close .critical .fabric 0 0 .none [] with window := BitVec.ofNat 48 n } (Fin.ofNat 4 v)) s

/-- Owed CLOSE packets go as they can, those of one output in the order of their windows. -/
def State.goOnClose : Nat → State → State
  | 0, s => s
  | k + 1, s =>
    match s.net.win.owed.find? (fun x => s.closeReady x.1 x.2 && s.net.win.owed.all (fun y => y.1 != x.1 || x.2 ≤ y.2)) with
    | none => s
    | some x =>
      let w := s.net.win
      State.goOnClose k (({ s with net := { s.net with win := { w with owed := w.owed.filter (· != x) } } }).sendClose x.1 x.2)

/-- The mesh and Omuno ends of a die that are UP. -/
def State.routerEnds (s : State) (die : Nat) : List Nat := ((upTo 5).map (portKey die)).filter (fun k => (s.linkAt k).st == .up)

/-- DRAIN on ends (13 R443). -/
def State.sendDrain (s : State) (l : List Nat) : State := l.foldl (fun s k => s.queueAt k (s.linkPacket k .drain .none) 2) s

/-- Whether a packet of the old bank is still at a die. -/
def State.oldAt (s : State) (die : Nat) : Bool :=
  let old (p : Packet) : Bool := p.ver != s.net.routing.act && !p.kind.ofLink
  s.net.links.any (fun x => endDie x.1 == die && x.2.out.any (fun o => old o.p)) || s.net.arrived.any (fun a => a.die.val == die && old a.p)

/-- Step 3 at a die: with DRAIN there on every input and every old packet gone, DRAIN goes on by every output (13 R443). -/
def State.drainAt (s : State) (die : Nat) : State :=
  let r := s.net.routing
  let due := r.due.filter (fun k => endDie k == die)
  if due.isEmpty || r.wait.any (fun k => endDie k == die) || s.oldAt die then s
  else ({ s with net := { s.net with routing := { r with due := r.due.filter (fun k => endDie k != die) } } }).sendDrain due

/-- Steps 3 and 4: once DRAIN has gone on by every output the old bank is idle (13 R443). -/
def State.goOnRoutes (s : State) : State :=
  if !s.net.routing.draining then s
  else
    let s := (upTo 16).foldl State.drainAt s
    let r := s.net.routing
    if r.due.isEmpty then
      ({ s with net := { s.net with routing := { r with draining := false, loaded := false, wait := [], fn := none } } }).logEvent .routeSwap 0 0 0
    else s

/-- CLOSE and DRAIN packets that have waited go as they can. -/
def State.goOnNet (s : State) : State := (State.goOnClose s.net.win.owed.length s).goOnRoutes

/-- The bank of an idle router is loaded (13 R443 step 1). -/
def State.loadRoutes (s : State) (image : List Byte) : State :=
  let r := s.net.routing
  { s with net := { s.net with routing := { (if r.act then { r with bank0 := image } else { r with bank1 := image }) with loaded := true } } }

/-- The update is committed (13 R443 step 2): new packets take the bank that was loaded, and DRAIN goes out on each output. -/
def State.commitRoutes (s : State) (fn : Fin 17) : State :=
  let l := (upTo 16).flatMap s.routerEnds
  let s := { s with net := { s.net with routing := { s.net.routing with act := !s.net.routing.act, draining := true, wait := l, due := l, fn := some fn } } }
  (s.sendDrain l).goOnRoutes

/-! ## Packets (13 R431, R435, R440) -/

/-- Markers follow what came before them by their port (13 R443, R450, R455). -/
def PKind.follows : PKind → Bool
  | .flush | .close | .drain => true
  | _ => false

/-- A packet that has arrived whole is taken, if it is of a kind; a marker once what arrived before it by its port has been. -/
def State.take (s : State) (a : Arrived) (kind : PKind) (f : State → State) : Out :=
  .next (
    match s.net.arrived.findIdx? (· == a) with
    | some i =>
      if a.p.kind ≠ kind || (PKind.follows kind && (s.net.arrived.take i).any (fun x => x.die == a.die && x.port == a.port)) then s
      else (f { s with net := { s.net with arrived := s.net.arrived.eraseIdx i } }).goOnNet
    | none => s)

/-- The markers that came before a release. -/
def State.earlyOf (s : State) (p : Packet) (seq : Nat) : List Nat × Nat :=
  match s.net.early.find? (fun e => e.1 == p.src.pkgNum && e.2.1 == seq && e.2.2.1 == p.tag.toNat) with
  | some e => (e.2.2.2.1, e.2.2.2.2)
  | none => ([], 0)

/-- The markers of a release are no longer kept apart. -/
def State.dropEarly (s : State) (p : Packet) (seq : Nat) : State :=
  { s with net := { s.net with early := s.net.early.filter (fun e => !(e.1 == p.src.pkgNum && e.2.1 == seq && e.2.2.1 == p.tag.toNat)) } }

/-- A sequenced packet arrives: a duplicate is discarded and acknowledged again, at once if it has performed; another is held for its turn
(13 R435, R440). One for another die or package goes on its way, with its vc and stamp (R436, R449). -/
def State.arrive (s : State) (a : Arrived) : State :=
  let p := a.p
  if !s.staysNear p || p.dst.die.toNat ≠ a.die.val then s.forward a.die.val p a.vc
  else
    let n := s.seqHere p
    let t := s.rxTriple p.src.pkgNum p.cls
    let ahead := (n + 2 ^ 32 - t.next) % 2 ^ 32
    if 4096 ≤ ahead then s.ackTo a.die.val p (assoc t.nacks n)
    else if t.rec'.contains n then
      { s with net := { s.net with inc := s.net.inc.map (fun q =>
        if q.p.src.pkgNum = p.src.pkgNum ∧ q.p.cls = p.cls ∧ s.seqHere q.p = n then { q with dups := q.dups + 1 } else q) } }
    else
      let s := s.setRx { t with rec' := n :: t.rec' }
      let (id, s) := s.newId
      let e := s.earlyOf p n
      (({ s with net := { s.net with inc := s.net.inc ++ [(⟨id, a.die.val, p, e.1, e.2, none, 0⟩ : Incoming)] } }).dropEarly p n).goOnHeld

/-- `PKT_WRITE` (13 R431). -/
def execPktWrite (die : Fin 16) (l : Landed) (s : State) : Out :=
  s.take ⟨l, die⟩ .write (fun s => s.arrive ⟨l, die⟩)

/-- `PKT_READ` (13 R431). -/
def execPktRead (die : Fin 16) (l : Landed) (s : State) : Out :=
  s.take ⟨l, die⟩ .read (fun s => s.arrive ⟨l, die⟩)

/-- `PKT_RESP` (13 R431). -/
def execPktResp (die : Fin 16) (l : Landed) (s : State) : Out :=
  s.take ⟨l, die⟩ .resp (fun s => s.arrive ⟨l, die⟩)

/-- `PKT_AMO` (13 R431). -/
def execPktAmo (die : Fin 16) (l : Landed) (s : State) : Out :=
  s.take ⟨l, die⟩ .amo (fun s => s.arrive ⟨l, die⟩)

/-- `PKT_GADD` (13 R431). -/
def execPktGadd (die : Fin 16) (l : Landed) (s : State) : Out :=
  s.take ⟨l, die⟩ .gadd (fun s => s.arrive ⟨l, die⟩)

/-- `PKT_MCWRITE` (12 R411, 13 R431): a member's copy of a multicast store. -/
def execPktMcwrite (die : Fin 16) (l : Landed) (s : State) : Out :=
  s.take ⟨l, die⟩ .mcwrite (fun s => s.arrive ⟨l, die⟩)

/-- `PKT_MCREAD` (12 R412, 13 R431): a member's copy of a multicast load. -/
def execPktMcread (die : Fin 16) (l : Landed) (s : State) : Out :=
  s.take ⟨l, die⟩ .mcread (fun s => s.arrive ⟨l, die⟩)

/-- `PKT_GRANULE` (13 R431). -/
def execPktGranule (die : Fin 16) (l : Landed) (s : State) : Out :=
  s.take ⟨l, die⟩ .granule (fun s => s.arrive ⟨l, die⟩)

/-- `PKT_CHUNK` (13 R431): a message of another die's Traverse. -/
def execPktChunk (die : Fin 16) (l : Landed) (s : State) : Out :=
  s.take ⟨l, die⟩ .chunk (fun s => s.arrive ⟨l, die⟩)

/-- A failed packet of this package: its request has the cause, or the collective whose post sent it ends its launch (12 R400, 14 R472). -/
def State.nacked (s : State) (tag cause : Nat) : State :=
  match s.reqByTag tag with
  | some (k, l, r) => s.modPart k l (fun b => b.modReq r.id (fun q => { q with ans := some (.fail cause) }))
  | none =>
    match s.trav.insts.findSome? (fun i => i.posts.find? (fun p => p.own && p.pid % 2 ^ 32 == tag)) with
    | some p => s.partFault p.launch (p.who % 1024) .fremote p.pc cause
    | none => s

/-- An ACK or NACK ends what this package keeps of the packet; it may end a request, by a failure or as a store's acknowledgement (12 R400), and it makes
room in the triple (13 R435). One for another die goes on its way. -/
def State.ackEnds (s : State) (a : Arrived) : State :=
  let p := a.p
  if !s.staysNear p || p.dst.die.toNat ≠ a.die.val then s.forward a.die.val p a.vc
  else match p.req with
    | .acked cls cause =>
      let (u, s) := s.acked p.src.pkgNum cls p.seq.toNat
      let s := match u, cause with
        | some (tag, _), some c => s.nacked tag c
        | some (tag, off), none =>
          match s.reqByTag tag with
          | some (_, _, r) => (match r.op with
            | .st _ | .gadd .. => s.takeBack p.src.pkgNum tag off [some []]
            | _ => s)
          | none => s
        | none, _ => s
      s.goOnHeld
    | _ => s

/-- `PKT_ACK` (13 R435). -/
def execPktAck (die : Fin 16) (l : Landed) (s : State) : Out :=
  s.take ⟨l, die⟩ .ack (fun s => s.ackEnds ⟨l, die⟩)

/-- `PKT_NACK` (12 R400). -/
def execPktNack (die : Fin 16) (l : Landed) (s : State) : Out :=
  s.take ⟨l, die⟩ .nack (fun s => s.ackEnds ⟨l, die⟩)

/-- Credits granted by the other end (13 R436). -/
def Link.granted (x : Link) (l : List Nat) : Link :=
  { x with cred := (upTo 16).foldl (fun c k => spPut 0 c k (spGet 0 c k + l.getD k 0)) x.cred }

/-- `PKT_CREDIT`: the other end of a link grants credits (13 R436). -/
def execPktCredit (die : Fin 16) (port : Fin 7) (vc : Fin 4) (time : Nat) (p : Packet) (s : State) : Out :=
  let a : Arrived := p.cameBy die port vc time
  s.take a .credit (fun s => match a.p.req with
    | .credit l => s.setLinkAt a.fromEnd ((s.linkAt a.fromEnd).granted l)
    | _ => s)

/-- `PKT_ADVERT`: the other end of a link states what it takes (13 R444). -/
def execPktAdvert (die : Fin 16) (port : Fin 7) (x : OnVc) (s : State) : Out :=
  let a : Arrived := ⟨⟨x, port⟩, die⟩
  s.take a .advert (fun s => match a.p.req with
    | .advert sift _ l => s.setLinkAt a.fromEnd ((s.linkAt a.fromEnd).advised sift l)
    | _ => s)

/-- A release's marker of a path has come; it counts once (13 R455). -/
def Incoming.marked (q : Incoming) (path need : Nat) : Incoming :=
  { q with got := if q.got.contains path then q.got else path :: q.got, need }

/-- A marker of a release (13 R455). -/
def State.takeFlush (s : State) (p : Packet) : State :=
  let n := p.seq.toNat
  let mine (q : Incoming) : Bool := q.p.src.pkgNum == p.src.pkgNum && s.seqHere q.p == n && q.p.tag == p.tag && q.p.rel
  if s.net.inc.any mine then
    { s with net := { s.net with inc := s.net.inc.map (fun q => if mine q then q.marked p.off.toNat p.npath.toNat else q) } }
  else
    let e := s.earlyOf p n
    let s := s.dropEarly p n
    { s with net := { s.net with
      early := (p.src.pkgNum, n, p.tag.toNat, if e.1.contains p.off.toNat then e.1 else p.off.toNat :: e.1, p.npath.toNat) :: s.net.early } }

/-- `PKT_FLUSH`: a marker of a release (13 R455). -/
def execPktFlush (die : Fin 16) (l : Landed) (s : State) : Out :=
  let a : Arrived := ⟨l, die⟩
  s.take a .flush (fun s => if s.staysNear a.p then s.takeFlush a.p else s.forward a.die.val a.p a.vc)

/-! ## Windows and modes (13 R448 to R456) -/

/-- The input that a CLOSE counts for: its own, or, where that has closed the window, a failed one of its vc whose CLOSE comes by another route
(13 R439). -/
def State.closeInput (s : State) (die vc n : Nat) : Nat × Nat × Nat :=
  let own := (die, omuno, vc)
  if s.closedOn own ≤ n then own
  else match (s.inputs n).find? (fun k => k.2.2 == vc && (s.link k.1 omuno).st == .failed && s.closedOn k ≤ n) with
    | some k => k
    | none => own

/-- A CLOSE counts for an input; one that comes after its packets' time is logged (13 R450, R451). -/
def State.takeClose (s : State) (die vc n : Nat) : State :=
  let k := s.closeInput die vc n
  let w := s.net.win
  let s' := { s with net := { s.net with win := { w with closes := (k, max (s.closedOn k) (n + 1)) :: w.closes.filter (fun c => c.1 != k) } } }
  let s' := if !s.holdsClose n && s'.holdsClose n && n + 2 ≤ s.windowOf s.dtime then s'.logEvent .windowLate die omuno n else s'
  s'.goOnHeld

/-- `PKT_CLOSE`: a window is closed on a vc of an Omuno port (13 R450). -/
def execPktClose (die : Fin 16) (port : Fin 7) (vc : Fin 4) (x : Timed) (s : State) : Out :=
  let a : Arrived := x.p.cameBy die port vc x.time
  s.take a .close (fun s => if a.port.val = omuno then s.takeClose a.die.val a.vc.val a.p.window.toNat else s)

/-- Whether a window is closed when it ends: a scope runs in windows in it, or starts to at the next (13 R450, R456). -/
def Windows.closesAt (w : Windows) (n : Nat) : Bool :=
  w.modeAt false n || w.modeAt true n || w.pend.any (fun p => p.2.1 && p.2.2.1 == n + 1)

/-- `WINDOW_END`: the end of the first window not yet closed (13 R450, R456): CLOSE is owed on every Omuno port. Windows that ended while no scope ran in
windows pass. -/
def execWindowEnd (s : State) : Out :=
  .next (
    let w := s.net.win
    let now := s.windowOf s.dtime
    if now ≤ w.cur then s
    else if w.closesAt w.cur then
      ({ s with net := { s.net with win := { w with cur := w.cur + 1, owed := w.owed ++ s.omunoOut.map (fun d => (d, w.cur)) } } }).goOnNet
    else
      let skip := (w.pend.filter (fun p => p.2.1 && w.cur + 1 < p.2.2.1)).foldl (fun n p => min n (p.2.2.1 - 1)) now
      { s with net := { s.net with win := { w with cur := skip } } })

/-- A change of a scope's mode is announced; a winlen other than this package's is logged and reported while windows run (13 R456). -/
def State.takeMode (s : State) (fabric windowed : Bool) (first winlen : Nat) : State :=
  let x := s.net.win
  let s := { s with net := { s.net with win := { x with pend := (fabric, windowed, first, winlen) :: x.pend.filter (fun p => p.1 != fabric) } } }
  if winlen ≠ x.winlen ∧ (x.panelW ∨ x.fabricW) then (s.report .winlen).logEvent .winlen 0 0 winlen else s

/-- `PKT_MODE`: the switch layer announces a change of a scope's mode (13 R456). -/
def execPktMode (die : Fin 16) (port : Fin 7) (vc : Fin 4) (x : Timed) (s : State) : Out :=
  let a : Arrived := x.p.cameBy die port vc x.time
  s.take a .mode (fun s => match a.p.req with
    | .mode fabric windowed first winlen => s.takeMode fabric windowed first winlen
    | _ => s)

/-- An announced change as it comes: the mode and winlen of the scope from its window on (13 R456). -/
def Windows.change (x : Windows) (fabric windowed : Bool) (winlen : Nat) : Windows :=
  { x with
    pend := x.pend.filter (fun p => p.1 != fabric), winlen
    panelW := if fabric then x.panelW else windowed, fabricW := if fabric then windowed else x.fabricW }

/-- `SCOPE_MODE_CHANGE`: an announced change comes at its window (13 R456). -/
def execScopeModeChange (fabric : Bool) (s : State) : Out :=
  .next (
    let x := s.net.win
    match x.pend.find? (fun p => p.1 == fabric) with
    | none => s
    | some (_, windowed, w, n) =>
      if x.cur < w then s
      else
        let s := { s with net := { s.net with win := x.change fabric windowed n } }
        { s with net := { s.net with win := { s.net.win with cur := s.windowOf s.dtime } } })

/-- `PKT_DRAIN` (13 R443). -/
def execPktDrain (die : Fin 16) (l : Landed) (s : State) : Out :=
  let a : Arrived := ⟨l, die⟩
  s.take a .drain (fun s =>
    let r := s.net.routing
    { s with net := { s.net with routing := { r with wait := r.wait.filter (· != a.fromEnd) } } })

/-! ## The failure of a link (13 R439) -/

/-- `LINK_FAILED`: 20 µs of training have passed (13 R439): the packets of the link's ends are rewound and go by other routes, or fail; the link is
awaited no more in a routing update. -/
def execLinkFailed (die : Fin 16) (port : Fin 7) (s : State) : Out :=
  .next (
    let x := s.link die.val port.val
    if !(x.st == .training || x.st == .retraining) || s.dtime < x.since + 20000 then s
    else
      let l := linkEnds die.val port.val
      let ps := l.map (fun k => (endDie k, (s.rewound k).filter (fun o => !o.p.kind.ofLink)))
      let s := s.dropWire l
      let s := s.setSt (linkPorts die.val port.val) (fun x => { x with st := .failed })
      let s := s.renew (l.map (fun k => (k, [])))
      let r := s.net.routing
      let s := { s with net := { s.net with routing := { r with wait := r.wait.filter (fun k => !l.contains k), due := r.due.filter (fun k => !l.contains k) } } }
      let s := ((s.choosePtp.logEvent .linkFailed die.val port.val 0).holdTimers l x.since)
      (ps.foldl (fun s p =>
        (p.2.foldl (fun s o => if o.p.kind = .close then s else s.forward p.1 o.p o.vc) s).reclose p.2) s).goOnNet)

/-! ## The clock (13 R445 to R447) -/

/-- err has passed the guard: the clock is LOST, which the switch layer is told (13 R447, R456). -/
def State.checkGuard (s : State) : State :=
  let c := s.net.clock
  if (c.st = .locked ∨ c.st = .holdover) ∧ !s.clockGood then ((s.setClock { c with st := .lost, good := 0 }).report .lost).logEvent .datumLost 0 0 0 else s

/-- The clock locks (13 R447). -/
def State.lock (s : State) : State := (s.setClock { s.net.clock with st := .locked, once := true, good := 0 }).logEvent .datumLocked 0 0 0

/-- The state of the clock after a Sync that it has used: consecutive Syncs within the guard are counted, and 64 of them while LOCKED are told to the
switch layer (13 R447, R456). -/
def State.syncState (s : State) : State :=
  let s := s.setClock { s.net.clock with good := if s.clockGood then s.net.clock.good + 1 else 0 }
  let c := s.net.clock
  match c.st with
  | .acquire => if 16 ≤ c.good then s.lock else s
  | .lost => if 64 ≤ c.good then s.lock else s
  | .holdover => if s.clockGood then s.setClock { c with st := .locked, good := 0 } else s.checkGuard
  | .locked => (if c.good = 64 then s.report .locked else s).checkGuard
  | .free => s

/-- A Sync that the clock uses, with the offset from the master measured by it (13 R446, R447): before the first lock a clock that is behind may be stepped
forward, which is free; the offset is filtered (log entry 20). -/
def State.useSync (s : State) (offset : Int) : State :=
  let (k, s) := if s.net.clock.once ∨ 0 ≤ offset then (0, s) else s.choose 2
  let s := if k = 1 then { s with dtime := (s.dtime + (-offset).toNat) % 2 ^ 64 } else s
  let c := s.net.clock
  (s.setClock { c with synced := true, offset := Config.ptpFilter c.offset (if k = 1 then 0 else offset), syncAt := s.dtime }).syncState

/-- Lexicographic order of data sets (13 R445: the best master clock algorithm). -/
def rankLt : List Nat → List Nat → Bool
  | _, [] => false
  | [], _ :: _ => true
  | a :: s, b :: t => a < b || (a == b && rankLt s t)

/-- An Announce: the best master is selected (13 R445, R447). -/
def Clock.announce (c : Clock) (src : Nat) (rank : List Nat) : Clock :=
  let sel : Clock := { c with
    master := some (src, rank), got := none, pair := none, asked := none
    delay := none, st := if c.st = .free then .acquire else c.st }
  match c.master with
  | none => sel
  | some (m, r) => if m = src then { c with master := some (src, rank) } else if rankLt rank r then sel else c

/-- The Delay_Req of the clock, sent by its port (13 R445). -/
def State.askDelay (s : State) : State :=
  let c := s.net.clock
  let s := s.setClock { c with asked := some (c.asks, none), asks := c.asks + 1 }
  s.queueAt (portKey c.port omuno) (s.linkPacket (portKey c.port omuno) .sync (.sync (.delayReq c.domain c.asks))) 2

/-- A Follow_Up gives the time at which its Sync was sent (13 R445): the pair measures the offset, and a Delay_Req goes out. -/
def State.followUp (s : State) (t1 t2 : Nat) : State :=
  let c := s.net.clock
  let s := (s.setClock { c with got := none, pair := some (t1, t2) }).askDelay
  match c.delay with
  | some d => s.useSync (Int.ofNat t2 - Int.ofNat t1 - d)
  | none => s

/-- A Delay_Resp gives the path delay (13 R445); the first one lets the Sync it was measured with be used. -/
def State.delayResp (s : State) (t3 t4 : Nat) : State :=
  let c := s.net.clock
  match c.pair with
  | none => s
  | some (t1, t2) =>
    let d := ((Int.ofNat t2 - Int.ofNat t1) + (Int.ofNat t4 - Int.ofNat t3)) / 2
    let s := s.setClock { c with asked := none, delay := some d }
    if c.delay.isNone then s.useSync (Int.ofNat t2 - Int.ofNat t1 - d) else s

/-- A PTP message on the clock's port and of its domain (13 R445): only the selected master's are used, and those of unsupported kinds, or for a master,
are discarded. -/
def State.takeSync (s : State) (time : Nat) (m : SyncMsg) : State :=
  let c := s.net.clock
  let mine (domain src : Nat) : Bool := domain == c.domain && c.master.any (fun x => x.1 == src)
  match m with
  | .announce domain src rank => if domain = c.domain then s.setClock (c.announce src rank) else s
  | .sync domain src seq => if mine domain src then s.setClock { c with got := some (seq, time) } else s
  | .followUp domain src seq t => match c.got with
    | some (n, t2) => if mine domain src && n == seq then s.followUp t t2 else s
    | none => s
  | .delayResp domain src seq t => match c.asked with
    | some (n, some t3) => if mine domain src && n == seq then s.delayResp t3 t else s
    | _ => s
  | .delayReq .. | .unsupported => s

/-- `PKT_SYNC`: a PTP message; those of other ports are discarded (13 R445, R447). -/
def execPktSync (die : Fin 16) (l : Landed) (s : State) : Out :=
  let a : Arrived := ⟨l, die⟩
  s.take a .sync (fun s => match a.p.req with
    | .sync m => if s.net.clock.chosen ∧ a.port.val = omuno ∧ a.die.val = s.net.clock.port then s.takeSync a.time m else s
    | _ => s)

/-- The interval of Sync in ns: 2^-13 s (13 R445). -/
def syncInterval : Nat := 122071

/-- `SYNC_MISSED` (13 R447): more than an interval has passed since the last Sync. Whether the master is lost with it, so that another may be selected, is free
(log entry 20). -/
def execSyncMissed (s : State) : Out :=
  .next (
    let c := s.net.clock
    if !c.synced || s.dtime ≤ c.syncAt + syncInterval then s
    else
      let (k, s) := s.choose 2
      let c := { c with st := if c.st = .locked then .holdover else c.st, good := 0 }
      s.setClock (if k = 1 then { c with master := none, got := none, pair := none, asked := none, delay := none } else c))

/-- `ERR_EXCEEDS_GUARD` (13 R447). -/
def execErrExceedsGuard (s : State) : Out := .next s.checkGuard

end Sys2Proof.Machine
end

