-- ==== Sys2Proof/Machine/ErgRing.lean ====
section
/-!
DEFINITION. The Erg channels (14 R474 to R478): the token, a holder's flits, yielding to an urgent one, and regeneration.
-/

namespace Sys2Proof.Machine

/-- A channel, by the die that reads it. -/
def State.ergCh (s : State) (ch : Nat) : Erg := (assoc s.net.erg ch).getD {}

/-- A channel put. -/
def State.setErg (s : State) (ch : Nat) (e : Erg) : State := { s with net := { s.net with erg := assocPut s.net.erg ch e } }

/-- The next die of a channel's ring (14 R474). -/
def nextDie (d : Nat) : Nat := (d + 1) % 16

/-- Whether a die has flits pending for the reader of a channel: while uw is 1 only urgent and critical ones count (14 R474, R476). -/
def State.ergPending (s : State) (ch die : Nat) (uw : Bool) : Bool :=
  let k := ergKey die ch
  let s := s.topUp k
  s.endUp k && match (s.linkAt k).replay with
    | (_, o) :: _ => !uw || o.cls != 0
    | [] => (s.linkAt k).rbuf.length < 512 && (s.choice k (!uw)).isSome

/-- The token emitted to a die: its seq goes up and the reader's timer starts again (14 R474, R477). -/
def Erg.emit (e : Erg) (dst now : Nat) (uw : Bool) : Erg :=
  { e with seq := (e.seq + 1) % 65536, uw, holder := none, used := 0, left := none, at' := dst, emitted := now, urg := [], given := [] }

/-- The token passes a die that has nothing for it. -/
def Erg.passOn (e : Erg) (die : Nat) : Erg := { e with at' := nextDie die }

/-- The newest token a die has seen. -/
def Erg.sawAt (e : Erg) (die : Nat) : Option (Nat × Nat) := (e.seen.find? (fun x => x.1 == die)).map (·.2)

/-- Whether a die discards a token: an older epoch, or a seq not above the last of its epoch (14 R477). -/
def Erg.stale (e : Erg) (die epoch seq : Nat) : Bool :=
  match e.sawAt die with
  | none => false
  | some (ep, sq) =>
    let back := (epoch + 256 - ep) % 256
    128 ≤ back || (back == 0 && (seq == sq || 32768 ≤ (seq + 65536 - sq) % 65536))

/-- A token arrives at a die (14 R474 to R477): a stale one is discarded; the reader clears uw and emits; a die with flits for the reader absorbs it; any
other passes it on. -/
def State.tokenAt (s : State) (ch die epoch seq : Nat) (uw : Bool) : State :=
  let e := s.ergCh ch
  if e.stale die epoch seq || e.holder.isSome || e.at' != die || epoch != e.epoch || seq != e.seq || uw != e.uw then s
  else
    let e := { e with seen := (die, epoch, seq) :: e.seen.filter (fun x => x.1 != die) }
    if die = ch then s.setErg ch (e.emit (nextDie die) s.dtime false)
    else if s.ergPending ch die e.uw then s.setErg ch { e with holder := some die, used := 0, left := none, given := [] }
    else s.setErg ch (e.passOn die)

/-- `ERG_TOKEN_ARRIVAL` (14 R474). -/
def execErgTokenArrival (ch : Fin 16) (die : Fin 16) (epoch : BitVec 8) (seq : BitVec 16) (uw : Bool) (s : State) : Out :=
  .next (s.tokenAt ch.val die.val epoch.toNat seq.toNat uw)

/-- `PKT_TOKEN`: the control slot's token, as a packet (13 R431, 14 R474). -/
def execPktToken (die : Fin 16) (port : Fin 7) (vc : Fin 4) (time : Nat) (p : Packet) (s : State) : Out :=
  let a : Arrived := p.cameBy die port vc time
  s.take a .token (fun s => match a.p.req with
    | .token ch epoch seq uw => s.tokenAt ch.val a.die.val epoch seq uw
    | _ => s)

/-- A holder that has no flit left, has sent its share, or has yielded, emits the token again (14 R474 to R476). -/
def State.ergSettle (s : State) (ch : Nat) : State :=
  let e := s.ergCh ch
  match e.holder with
  | none => s
  | some d =>
    if !s.ergPending ch d e.uw || e.hold ≤ e.used || e.left == some 0 then
      s.setErg ch (e.emit (nextDie d) s.dtime (e.uw || e.left.isSome))
    else s

/-- The packet whose tail an end has sent last, from its head. -/
def Link.wholeSent (x : Link) : List OutPkt :=
  match x.rbuf.getLast? with
  | some (_, o) => if o.sent + 1 = o.p.flits ∧ !o.p.kind.ofLink then [{ o with sent := 0 }] else []
  | none => []

/-- A die that holds the token of a channel sends one flit on it, under the class rules of every link (13 R434; 14 R475, R476). -/
def State.ergFlit (s : State) (ch die : Nat) : State :=
  let e := s.ergCh ch
  let k := ergKey die ch
  if e.holder ≠ some die ∨ !s.endUp k then s
  else
    let fresh := (s.linkAt k).replay.isEmpty
    let r := s.slotAt k (!e.uw)
    if !r.2 then r.1.ergSettle ch
    else (r.1.setErg ch { e with
      used := e.used + 1, left := e.left.map (· - 1), given := if fresh then e.given ++ (r.1.linkAt k).wholeSent else e.given }).ergSettle ch

/-- `FLIT_TRANSMIT` (13 R434, 14 R475): at the Erg transmit port, a flit on the first channel whose token the die holds. -/
def execFlitTransmit (die : Fin 16) (port : Fin 7) (s : State) : Out :=
  .next (
    (if port.val = ergTx then
      match (upTo 16).find? (fun c => (s.ergCh c).holder == some die.val) with
      | some c => s.ergFlit c die.val
      | none => s
    else s.flitSlot die.val port.val).goOnNet)

/-- `ERG_URGENT_REQUEST`: a die with an urgent flit for a channel asks the holder to yield within 4 flits (14 R476). -/
def execErgUrgentRequest (ch : Fin 16) (die : Fin 16) (s : State) : Out :=
  .next (
    let e := s.ergCh ch.val
    match e.holder with
    | none => s
    | some h =>
      if h = die.val ∨ (s.pick (ergKey die.val ch.val) 1).isNone then s
      else s.setErg ch.val { e with urg := die.val :: e.urg.filter (· != die.val), left := some (e.left.getD 4) })

/-- Whether a packet that was sent whole has been acknowledged; of a packet of another package this is not known here. -/
def State.isAcked (s : State) (p : Packet) : Bool :=
  s.isMine p && p.cls != .critical && p.dests.all (fun d => !(s.txTriple d p.cls).unack.any (fun u => u.1 == p.seqFor d))

/-- The packets that a writer has still to send when its channel's token is made anew: those sent whole in its hold and not acknowledged, and every other
from its head (14 R477). -/
def State.resend (s : State) (ch : Nat) (given : List OutPkt) (die : Nat) : State :=
  let k := ergKey die ch
  let x := s.linkAt k
  s.setLinkAt k { x with out := given.filter (fun o => !s.isAcked o.p) ++ x.out.map (fun o => { o with sent := 0 }) }

/-- `ERG_TOKEN_REGEN`: 2 µs after the last emission the reader makes a new token and discards every partial packet (14 R477). -/
def execErgTokenRegen (ch : Fin 16) (s : State) : Out :=
  .next (
    let e := s.ergCh ch.val
    if s.regs.ready ≠ .ready ∨ s.dtime < e.emitted + 2000 then s
    else
      let dies := (upTo 16).filter (· != ch.val)
      let s := dies.foldl (fun s d => s.resend ch.val (if e.holder = some d then e.given else []) d) s
      let s := s.setSt (dies.map (fun d => ergKey ch.val d)) (fun x => { x with asm := [] })
      let e := { e with
        regens := min 0xFFFF (e.regens + 1), epoch := (e.epoch + 1) % 256, seq := 0, uw := false, holder := none, used := 0, left := none
        at' := nextDie ch.val, emitted := s.dtime, urg := [], given := [] }
      (s.setErg ch.val e).logEvent .ergToken ch.val 0 0)

/-- `ERGSTAT` (14 R478). -/
def State.ergstat (s : State) (die : Nat) : Nat :=
  let e := s.ergCh die
  e.hold % 256 + 2 ^ 16 * (e.holder.getD 0) + 2 ^ 22 * bit e.holder.isSome + 2 ^ 23 * bit e.uw + 2 ^ 24 * e.seq + 2 ^ 40 * e.epoch + 2 ^ 48 * e.regens

end Sys2Proof.Machine
end

