-- ==== Sys2Proof/Machine/Host.lean ====
section
/-!
DEFINITION. The host interface (15): registers and their access (R483 to R487), host commands (R491, R492), page-fault replies (R494), the event log (R496), Plumb
(R498), link trace registers (R499), power (R503), host accesses to memory (R482, R500), and segment migration (06 R196).
-/

namespace Sys2Proof.Machine

/-! ## Contexts (15 R492) -/

/-- A qword of a context's table entry. -/
def State.ctxWord (s : State) (c i : Nat) : Nat := s.numPa (s.regs.ctxbase + 64 * c + 8 * i) 8

/-- Whether a qword of an entry is refused (15 R492). -/
def ctxWordBad (i x : Nat) : Bool :=
  match i with
  | 0 => bits x 63 52 != 0 || bits x 12 1 != 0 || !bitAt x 0 || !(homeOf x == 0 || homeOf x == 1)
  | 1 => bits x 63 52 != 0 || bits x 3 0 != 0 || homeOf x != 0
  | 2 => 65536 < x
  | 3 => 512 < bits x 15 0 + bits x 31 16 || 1984 < bits x 47 32 + bits x 63 48
  | 4 => bits x 63 52 != 0 || bits x 9 0 != 0 || !(homeOf x == 0 || homeOf x == 1)
  | 5 => 16 < x
  | _ => x != 0

/-- Whether qwords of an entry can be read and are taken. -/
def State.ctxOk (s : State) (c : Nat) (l : List Nat) : Bool :=
  let a := s.regs.ctxbase + 64 * c
  homesOk [0, 1] a 64 && (s.firstBad (.pa a) 64).isNone && l.all (fun i => !ctxWordBad i (s.ctxWord c i))

/-- The context that an entry describes. -/
def State.ctxOf (s : State) (c : Nat) : Ctx :=
  let w := s.ctxWord c
  { segPa := bits (w 0) 51 13 * 2 ^ 13, platPa := bits (w 1) 51 4 * 2 ^ 4, platN := bits (w 2) 16 0, sp1base := bits (w 3) 15 0
    sp1size := bits (w 3) 31 16, sp2base := bits (w 3) 47 32, sp2size := bits (w 3) 63 48, apPa := bits (w 4) 51 10 * 2 ^ 10, fn := bits (w 5) 4 0 }

/-- A context put. -/
def State.setCtx (s : State) (c : Nat) (x : Ctx) : State := { s with ctxs := assocPut s.ctxs c x }

/-- Every core changed. -/
def State.mapCores (s : State) (f : Core → Core) : State := { s with cores := s.cores.map (fun c => (c.1, f c.2)) }

/-- Translations discarded in every core. -/
def State.dropTlbs (s : State) (p : TlbEnt → Bool) : State := s.mapCores (fun k => { k with tlb := k.tlb.filter (fun e => !p e) })

/-- Plat cache entries of a context discarded in every core. -/
def State.dropPlats (s : State) (ctx : Nat) : State := s.mapCores (fun k => { k with plat := k.plat.filter (fun e => e.ctx != ctx) })

/-- Whether a launch or a graph of a context is queued, resident or running (15 R491). -/
def State.ctxBusy (s : State) (c : Nat) : Bool := s.launches.any (fun x => x.st != .done && x.pkt.ctx == c) || s.graphs.any (fun g => g.ctx == c)

/-- What a command finds of its context: error 4 where there is none, 2 where it is another function's. -/
def State.ctxErr (s : State) (fn : Fin 17) (c : Nat) : Nat :=
  match s.ctx c with
  | none => 4
  | some x => if fn = 0 ∨ x.fn = fn.val then 0 else 2

/-- `CTX_CREATE`. -/
def State.ctxCreate (s : State) (fn : Fin 17) (c : Nat) : State × Nat :=
  if 4096 ≤ c then (s, 4)
  else if (s.ctx c).isSome then (s, 3)
  else if !s.ctxOk c (upTo 8) then (s, 4)
  else if fn ≠ 0 ∧ (s.ctxOf c).fn ≠ fn.val then (s, 2)
  else (s.setCtx c (s.ctxOf c), 0)

/-- `CTX_DESTROY`; what cores hold of the context goes with it (log entry 21). -/
def State.ctxDestroy (s : State) (fn : Fin 17) (c : Nat) : State × Nat :=
  if s.ctxErr fn c ≠ 0 then (s, s.ctxErr fn c)
  else if s.ctxBusy c then (s, 3)
  else ((({ s with ctxs := assocDel s.ctxs c }).dropTlbs (fun e => e.ctx == c)).dropPlats c, 0)

/-- Whether a translation is one that a `TLB_INV` discards. -/
def invHits (c va kind : Nat) (e : TlbEnt) : Bool :=
  e.ctx == c && (kind == 0 || (kind == 1 && e.va ≤ va && va < e.va + e.size) || (kind == 2 && segOf e.va == segOf va))

/-- `TLB_INV`. -/
def State.tlbInv (s : State) (fn : Fin 17) (c va kind : Nat) : State × Nat :=
  if s.ctxErr fn c ≠ 0 then (s, s.ctxErr fn c)
  else if 2 < kind ∨ (kind = 0 ∧ !s.ctxOk c [0]) then (s, 4)
  else
    let s := match s.ctx c with
      | some x => if kind = 0 then s.setCtx c { x with segPa := (s.ctxOf c).segPa } else s
      | none => s
    (s.dropTlbs (invHits c va kind), 0)

/-- `PLAT_INV`. -/
def State.platInv (s : State) (fn : Fin 17) (c : Nat) : State × Nat :=
  if s.ctxErr fn c ≠ 0 then (s, s.ctxErr fn c)
  else if !s.ctxOk c [1, 2, 4] then (s, 4)
  else
    let y := s.ctxOf c
    let s := match s.ctx c with
      | some x => s.setCtx c { x with platPa := y.platPa, platN := y.platN, apPa := y.apPa }
      | none => s
    (s.dropPlats c, 0)

/-- Whether a range was translated by an entry that a `TLB_INV` matches: its page covers the address, or its segment is the address's. -/
def Rng.used (r : Rng) (va kind : Nat) : Bool :=
  match r.va with
  | some v => kind == 0 || (kind == 1 && r.page != 0 && v / r.page == va / r.page) || (kind == 2 && segOf v == segOf va)
  | none => false

/-- Whether an access under way used a translation of a `TLB_INV` (15 R491, 06 R193): an access, a formed target or an unanswered request of the
context. -/
def State.invWaits (s : State) (c va kind : Nat) : Bool :=
  let hit (r : Rng) : Bool := r.used va kind
  let used (b : Bank) : Bool := b.ctx == c
    && (b.acc.out.any (fun a => a.rngs.any hit) || b.fab.targets.any (fun t => t.elems.any (fun p => p.2.any hit))
      || b.fab.reqs.any (fun r => r.ans.isNone && r.elems.any (fun p => p.2.any hit)))
  s.cores.any (fun k => used k.2.b0 || used k.2.b1) || s.launches.any (fun x => x.saved.any (fun p => used p.2))

/-! ## Migration (06 R196) -/

/-- Entries under a table: where each lies, and the size and the address of its page or of the table that it points to. -/
def State.tableEntries (s : State) : Nat → Nat → List (Nat × Nat × Nat)
  | 0, _ => []
  | lvl + 1, t =>
    if !tableHome t then []
    else (upTo 512).flatMap (fun i =>
      let a := t + 8 * i
      let e := s.numPa a 8
      let pa := bits e 51 12 * 2 ^ 12
      if !bitAt e 0 then []
      else if lvl = 0 then [(a, if bitAt e 2 then 2 ^ 16 else 2 ^ 12, pa)]
      else if bitAt e 2 then (if lvl = 1 then [(a, 2 ^ 21, pa)] else if lvl = 2 then [(a, 2 ^ 30, pa)] else [])
      else (a, 2 ^ 12, pa) :: s.tableEntries lvl pa)

/-- The entries of a segment, its segment entry first. -/
def State.segEntries (s : State) (c : Ctx) (seg : Nat) : List (Nat × Nat × Nat) :=
  let a := c.segPa + 16 * seg
  let e := s.numPa a 16
  let t := bits e 51 12 * 2 ^ 12
  if bitAt e 0 then (a, 2 ^ 12, t) :: s.tableEntries 4 t else []

/-- `MIGRATE`: the segment goes to HOLD. The size of a pair's pages is that of the segment's page at the source, or 4 KiB (log entry 22). -/
def State.migrate (s : State) (fn : Fin 17) (c seg pa n : Nat) : State × Nat :=
  if s.ctxErr fn c ≠ 0 then (s, s.ctxErr fn c)
  else match s.ctx c with
    | none => (s, 4)
    | some x =>
      if 512 ≤ seg ∨ !homesOk [0, 1] pa (16 * n) ∨ (s.firstBad (.pa pa) (16 * n)).isSome then (s, 4)
      else if s.migs.any (fun m => m.ctx == c && m.seg == seg) then (s, 3)
      else
        let ents := s.segEntries x seg
        let pairs := (upTo n).map (fun i =>
          let src := s.numPa (pa + 16 * i) 8
          (src, s.numPa (pa + 16 * i + 8) 8, ((ents.find? (fun e => e.2.2 == src)).map (fun e => e.2.1)).getD 4096))
        ({ s with migs := s.migs ++ [⟨fn, c, seg, pairs, 0⟩] }, 0)

/-- Whether an access of A to a segment is under way. -/
def State.segUsed (s : State) (c seg : Nat) : Bool :=
  let used (b : Bank) : Bool := b.ctx == c && b.acc.out.any (fun a => a.rngs.any (fun r => match r.va with | some v => segOf v == seg | none => false))
  s.cores.any (fun k => used k.2.b0 || used k.2.b1) || s.launches.any (fun x => x.saved.any (fun p => used p.2))

/-- A page copied, with the bytes of it that cannot be read. -/
def State.copyPage (s : State) (src dst n : Nat) : State :=
  let lost := s.bad.filter (fun a => src ≤ a && a < src + n)
  let s := s.writePa dst (s.readPa src n)
  { s with bad := s.bad ++ (lost.map (fun a => dst + (a - src))).filter (fun a => !s.bad.contains a) }

/-- `MIGRATION_COPY`: once nothing is under way in the held segment, the next pair is copied (06 R196). -/
def execMigrationCopy (idx : Nat) (s : State) : Out :=
  .next (match (s.migs.drop idx).head? with
    | none => s
    | some m =>
      if spGet 0 s.busy (512 * m.ctx + m.seg) ≠ 0 ∨ s.segUsed m.ctx m.seg then s
      else match (m.pairs.drop m.done).head? with
        | none => s
        | some (src, dst, n) => { s.copyPage src dst n with migs := listSet s.migs idx { m with done := m.done + 1 } })

/-- A physical address after a migration. -/
def movedPa (pairs : List (Nat × Nat × Nat)) (a : Nat) : Nat :=
  match pairs.find? (fun p => p.1 ≤ a && a < p.1 + p.2.2) with
  | some p => p.2.1 + (a - p.1)
  | none => a

/-- A range after a migration. -/
def Rng.moved (pairs : List (Nat × Nat × Nat)) (r : Rng) : Rng :=
  match r.pl with
  | .pa a => { r with pl := .pa (movedPa pairs a) }
  | .sp0 .. => r

/-- A granule's place after a migration. -/
def Place.moved (pairs : List (Nat × Nat × Nat)) (g : Place) : Place :=
  match g with
  | .pa a => .pa (movedPa pairs a)
  | .sp0 .. => g

/-- What a bank holds of moved pages: formed targets, requests held at their home, and a parked watch. -/
def Bank.moved (b : Bank) (pairs : List (Nat × Nat × Nat)) : Bank :=
  let mv (e : Nat × List Rng) : Nat × List Rng := (e.1, e.2.map (Rng.moved pairs))
  { b with
    fab := { b.fab with
      targets := b.fab.targets.map (fun t => { t with elems := t.elems.map mv })
      reqs := b.fab.reqs.map (fun r => if r.near then r else { r with elems := r.elems.map mv }) }
    acc := { b.acc with park := b.acc.park.map (fun p => match p with
      | .waita id d g till => .waita id d (g.moved pairs) till
      | x => x) } }

/-- An entry of the segment, or of its tables, rewritten where it lies now: it points to where its page or table is. -/
def State.rebindEntry (s : State) (pairs : List (Nat × Nat × Nat)) (a : Nat) : State :=
  let a := movedPa pairs a
  let old := s.numPa a 8
  let pa := bits old 51 12 * 2 ^ 12
  s.writePa a (leBytes 8 (old - pa + movedPa pairs pa % 2 ^ 52 / 2 ^ 12 * 2 ^ 12))

/-- `MIGRATION_REBIND`: the segment's entry and tables point to the destinations, and no core holds a translation of it (06 R196; log entry 22). -/
def execMigrationRebind (idx : Nat) (s : State) : Out :=
  .next (match (s.migs.drop idx).head? with
    | none => s
    | some m =>
      if m.done < m.pairs.length then s
      else
        let s := match s.ctx m.ctx with
          | none => s
          | some x => (s.segEntries x m.seg).foldl (fun (s : State) (e : Nat × Nat × Nat) => s.rebindEntry m.pairs e.1) s
        let s := s.dropTlbs (fun e => e.ctx == m.ctx && segOf e.va == m.seg)
        let s := s.mapBanks (fun _ b => b.moved m.pairs)
        { s with migs := s.migs.eraseIdx idx, watches := s.watches.map (fun w : Watch => { w with g := w.g.moved m.pairs }) })

/-! ## Page-fault replies (15 R491, R494; 05 R165, R170, R506; 09 R330; 12 R400) -/

/-- A reply to a core's part of a launch. -/
def State.replyPart (s : State) (e : FqEnt) (mapped : Bool) : State :=
  match e.launch with
  | none => s
  | some id =>
    match s.placeOf id e.core with
    | none => s
    | some l =>
      let b := s.partOf id l
      if e.agent = 0 ∨ e.agent = 9 then
        if mapped then
          let away := (s.launch id).any (fun x => x.st == .preempted)
          let s := s.modPart id l (fun b =>
            let b := { b with st := if b.st = .faultwait then .ready else b.st, acc := { b.acc with pf := none } }
            if away then b.toSaving else b)
          ((s.tryRun id).selectBank l.core).arbiter
        else (s.modPart id l (fun b => { b with acc := { b.acc with pf := none } })).partFault id l.core .page (b.eng .A).pc e.va
      else
        let n := e.agent - 1
        let pc := ((b.chan n).cmds.head?).elim 0 (·.pc)
        let s := s.modPart id l (fun b => b.putChan n { b.chan n with pf := none })
        if mapped then s else s.partFault id l.core .page pc e.va

/-- A reply to a read by the launch machinery. -/
def State.replyLaunch (s : State) (id : Nat) (mapped : Bool) : State :=
  match s.launch id with
  | none => s
  | some x =>
    let s := s.modLaunch id (fun x => { x with pf := none })
    let status := if x.pfSched then 3 else 4
    if mapped then s
    else match x.st with
      | .queued => (s.completeNow id status).arbiter
      | .dispatch => s.failLoad id status
      | _ => s

/-- A reply to a remote request. -/
def State.replyInc (s : State) (id : Nat) (mapped : Bool) : State :=
  match s.net.inc.find? (fun q => q.id == id) with
  | none => s
  | some q =>
    if mapped then s.modInc id (fun q => { q with pf := none })
    else (s.answerInc q (.error 2)).goOnHeld

/-- `FAULT_REPLY`. -/
def State.faultReply (s : State) (fn : Fin 17) (idx code : Nat) : State × Nat :=
  let x := s.fn fn.val
  if 1 < code then (s, 4)
  else match x.fq.find? (fun e => e.idx == idx && !e.answered) with
    | none => (s, 4)
    | some e =>
      let s := s.setFn fn.val { x with fq := x.fq.map (fun y => if y = e then { y with answered := true } else y) }
      let mapped := code == 0
      (if e.agent = 11 then (e.launch.elim s (fun id => s.replyLaunch id mapped))
       else if e.agent = 10 then (e.launch.elim s (fun id => s.replyInc id mapped))
       else s.replyPart e mapped, 0)

/-! ## Identity and firmware (15 R501, R502) -/

/-- `DEVID` (15 R484). -/
def State.devid (s : State) : Nat := 0x16A0 + 2 ^ 16 * bit s.part.a480

/-- `ENMASK`n (15 R484). -/
def State.enmask (s : State) (n : Nat) : Nat := (upTo 64).foldl (fun a b => a + 2 ^ b * bit (s.enabled (64 * n + b))) 0

/-- The report of `ATTEST` without its signature (15 R502). -/
def State.attestReport (s : State) (nonce : List Byte) : List Byte :=
  nonce ++ padTo 64 0 ((Config.sha512 s.part.running).take 64) ++ leBytes 4 s.part.svn ++ leBytes 4 s.devid ++ leBytes 8 s.part.serial
    ++ (upTo 8).flatMap (fun n => leBytes 8 (s.enmask n)) ++ List.replicate 304 0

/-- `ATTEST`. -/
def State.attest (s : State) (nonce buf : Nat) : State × Nat :=
  if !homesOk [0, 1] nonce 64 || !homesOk [0, 1] buf 1024 || (s.firstBad (.pa nonce) 64).isSome then (s, 4)
  else
    let r := s.attestReport (s.readPa nonce 64)
    (s.writePa buf (r ++ padTo 512 0 ((Config.attestSign r).take 512)), 0)

/-- Whether an image passes the checks of 15 R501; 1 and 2 are the causes of FAIL. -/
def State.imageFault (s : State) (img : List Byte) : Nat :=
  if !Config.signatureOk img then 1 else if Config.imageSvn img < s.part.minsvn then 2 else 0

/-- `FW_LOAD`. -/
def State.fwLoad (s : State) (pa n : Nat) : State × Nat :=
  if !homesOk [0, 1] pa n || (s.firstBad (.pa pa) n).isSome then (s, 4)
  else
    let img := s.readPa pa n
    if s.imageFault img ≠ 0 then (s, 4) else ({ s with part := { s.part with flash := img } }, 0)

/-! ## Commands (15 R491) -/

/-- A command runs: the state after and its error code. -/
def State.runCmd (s : State) (c : HCmd) : State × Nat :=
  let a (i : Nat) : Nat := c.args.getD i 0
  match c.op with
  | 0x01 => s.ctxCreate c.fn (a 0)
  | 0x02 => s.ctxDestroy c.fn (a 0)
  | 0x03 => s.tlbInv c.fn (a 0) (a 1) (a 2)
  | 0x04 => s.platInv c.fn (a 0)
  | 0x05 => s.migrate c.fn (a 0) (a 1) (a 2) (a 3)
  | 0x06 => s.faultReply c.fn (a 0) (a 1)
  | 0x07 =>
    if c.fn ≠ 0 then (s, 2)
    else if !homesOk [0, 1] (a 0) (a 1) || (s.firstBad (.pa (a 0)) (a 1)).isSome then (s, 4)
    else (s.loadRoutes (s.readPa (a 0) (a 1)), 0)
  | 0x08 => if c.fn ≠ 0 then (s, 2) else if !s.net.routing.loaded then (s, 3) else (s.commitRoutes c.fn, 0)
  | 0x09 => s.attest (a 0) (a 1)
  | 0x0A => if c.fn ≠ 0 then (s, 2) else s.fwLoad (a 0) (a 1)
  | _ => (s, 1)

/-- The oldest command runs, if it has not. -/
def State.runCmds (s : State) : State :=
  match s.regs.cmds with
  | [] => s
  | c :: t =>
    if c.out.isSome || s.regs.ready != .ready then s
    else
      let (s, e) := s.runCmd c
      { s with regs := { s.regs with cmds := { c with out := some e } :: t } }

/-- A write of `HCMD`: the function is BUSY, and commands run one at a time in the order of these writes. -/
def State.hostCmd (s : State) (fn : Fin 17) (op : Nat) : State :=
  let x := s.fn fn.val
  if !s.regsOpen fn || x.st == .busy then s
  else
    let s := s.setFn fn.val { x with st := .busy, err := 0 }
    State.runCmds { s with regs := { s.regs with cmds := s.regs.cmds ++ [⟨fn, op, x.harg, none⟩] } }

/-- `HCMD_CTX_CREATE` (15 R492). -/
def execHcmdCtxCreate (fn : Fin 17) (s : State) : Out := .next (s.hostCmd fn 0x01)
/-- `HCMD_CTX_DESTROY` (15 R491). -/
def execHcmdCtxDestroy (fn : Fin 17) (s : State) : Out := .next (s.hostCmd fn 0x02)
/-- `HCMD_TLB_INV` (06 R193, 15 R491). -/
def execHcmdTlbInv (fn : Fin 17) (s : State) : Out := .next (s.hostCmd fn 0x03)
/-- `HCMD_PLAT_INV` (15 R491). -/
def execHcmdPlatInv (fn : Fin 17) (s : State) : Out := .next (s.hostCmd fn 0x04)
/-- `HCMD_MIGRATE` (06 R196). -/
def execHcmdMigrate (fn : Fin 17) (s : State) : Out := .next (s.hostCmd fn 0x05)
/-- `HCMD_FAULT_REPLY` (15 R491). -/
def execHcmdFaultReply (fn : Fin 17) (s : State) : Out := .next (s.hostCmd fn 0x06)
/-- `HCMD_ROUTE_LOAD` (13 R443). -/
def execHcmdRouteLoad (fn : Fin 17) (s : State) : Out := .next (s.hostCmd fn 0x07)
/-- `HCMD_ROUTE_COMMIT` (13 R443). -/
def execHcmdRouteCommit (fn : Fin 17) (s : State) : Out := .next (s.hostCmd fn 0x08)
/-- `HCMD_ATTEST` (15 R502). -/
def execHcmdAttest (fn : Fin 17) (s : State) : Out := .next (s.hostCmd fn 0x09)
/-- `HCMD_FW_LOAD` (15 R501). -/
def execHcmdFwLoad (fn : Fin 17) (s : State) : Out := .next (s.hostCmd fn 0x0A)
/-- `HCMD_UNKNOWN` (15 R491): an opcode of no command. -/
def execHcmdUnknown (fn : Fin 17) (op : BitVec 64) (s : State) : Out :=
  .next (if 1 ≤ op.toNat ∧ op.toNat ≤ 10 then s else s.hostCmd fn op.toNat)

/-- Whether a command that has run is done (15 R491). -/
def State.cmdDone (s : State) (c : HCmd) : Bool :=
  let a (i : Nat) : Nat := c.args.getD i 0
  match c.op, c.out with
  | _, none => false
  | 0x03, some 0 => !s.invWaits (a 0) (a 1) (a 2)
  | 0x05, some 0 => !s.migs.any (fun m => m.ctx == a 0 && m.seg == a 1)
  | 0x08, some 0 => !s.net.routing.draining
  | _, some _ => true

/-- `HOST_COMMAND_DONE`: the oldest command ends, vector 64 is sent, and the next one runs (15 R490, R491). -/
def execHostCommandDone (fn : Fin 17) (s : State) : Out :=
  .next (
    let s := s.goOnRoutes
    match s.regs.cmds with
    | [] => s
    | c :: t =>
      if c.fn ≠ fn ∨ !s.cmdDone c then s
      else
        let e := c.out.getD 0
        let s := s.setFn fn.val { s.fn fn.val with st := if e = 0 then .done else .error, err := e }
        State.runCmds (({ s with regs := { s.regs with cmds := t } }).msix fn.val 64))

/-! ## Queue, fault-queue and event-log registers (15 R487, R494, R496) -/

/-- `QCFG_WRITE` (15 R487): heads offered before the queue was disabled are offered no more when it is enabled again. -/
def execQcfgWrite (fn : Fin 17) (q : Fin 64) (v : BitVec 64) (s : State) : Out :=
  .next (
    let k := s.queue q.val
    let x := v.toNat
    let lg := bits x 4 0
    let vec := bits x 22 16
    if !s.regsOpen fn || (fn != 0 && fn.val != k.fn) || lg < 4 || 16 < lg || 64 ≤ vec then s
    else
      let on := bitAt x 8
      let k' := { k with lg := if k.en then k.lg else lg, vec, fn := if fn = 0 then bits x 28 24 else k.fn }
      if on && !k.en then
        if homeOf k.base = 0 ∨ homeOf k.base = 1 then
          let s := { s with launches := s.launches.filter (fun y : Launch => !(y.queue == q.val && y.st == LaunchSt.queued)) }
          s.setQueue q.val { k' with en := true, ridx := k.widx, cidx := k.widx, done := [] }
        else (s.setQueue q.val k').logEvent .queueOverrun 0 0 q.val
      else (s.setQueue q.val { k' with en := on }).arbiter)

/-- Remote requests whose page faults wait for a queue are tried again. -/
def State.reportIncs (s : State) : State := (s.net.inc.map (·.id)).foldl (fun s id => s.reportInc id) s

/-- `FQCFG_WRITE` (15 R494). -/
def execFqcfgWrite (fn : Fin 17) (v : BitVec 64) (s : State) : Out :=
  .next (
    let x := s.fn fn.val
    let lg := bits v.toNat 4 0
    let on := bitAt v.toNat 8
    if !s.regsOpen fn || lg < 4 || 12 < lg then s
    else
      let y := { x with fqlg := if x.fqen then x.fqlg else lg, fqen := on }
      ((s.setFn fn.val (if on && !x.fqen then { y with fqhead := x.fqtail } else y)).reportAll).reportIncs)

/-- `FQTAIL_WRITE`: room for faults that wait (15 R494). -/
def execFqtailWrite (fn : Fin 17) (v : BitVec 64) (s : State) : Out :=
  .next (if !s.regsOpen fn then s else ((s.setFn fn.val { s.fn fn.val with fqtail := v.toNat }).reportAll).reportIncs)

/-- The event log put. -/
def State.setEv (s : State) (e : EvLog) : State := { s with regs := { s.regs with ev := e } }

/-- `EVCFG_WRITE` (15 R496). -/
def execEvcfgWrite (v : BitVec 64) (s : State) : Out :=
  .next (
    let e := s.regs.ev
    let lg := bits v.toNat 4 0
    let on := bitAt v.toNat 8
    if !s.regsOpen 0 || lg < 8 || 20 < lg then s
    else
      let y := { e with lg := if e.en then e.lg else lg, en := on }
      s.setEv (if on && !e.en then { y with head := e.tail, mark := false } else y))

/-- `EVTAIL_WRITE`: when room returns, `E_LOG_LOST` is logged (15 R496). -/
def execEvtailWrite (v : BitVec 64) (s : State) : Out :=
  .next (
    if !s.regsOpen 0 then s
    else
      let e := { s.regs.ev with tail := v.toNat }
      if e.mark && e.en && e.head - e.tail < 2 ^ e.lg then (s.setEv { e with mark := false }).logEvent .logLost 0 0 e.lost else s.setEv e)

/-! ## Plumb (15 R498) -/

/-- Plumb put. -/
def State.setPlumb (s : State) (p : Plumb) : State := { s with regs := { s.regs with plumb := p } }

/-- The sending ends of a port: the Erg transmit port has one for each channel that its die writes, the Erg receive port none. -/
def sendEnds (die port : Nat) : List Nat := if port < 5 then [portKey die port] else if port = ergTx then linkEnds die port else []

/-- `LNKSTAT` (13 R458): of all the ends of the port, within the field's range (log entry 19). -/
def State.lnkstat (s : State) (die port : Nat) : Nat :=
  let x := s.link die port
  let st := match x.st with | .down => 0 | .training => 1 | .up => 2 | .retraining => 3 | .failed => 4
  let l := (sendEnds die port).map s.linkAt
  let sum (f : Link → Nat) : Nat := l.foldl (fun n x => n + f x) 0
  min 512 (sum (·.rbuf.length)) + 2 ^ 16 * st + 2 ^ 22 * bit s.net.routing.act + 2 ^ 23 * bit (!l.isEmpty && l.all (·.sift))
    + 2 ^ 32 * x.retrains + 2 ^ 48 * min 0xFFFF (sum (·.replays))

/-- The inspection CSRs (04 R133, 06 R220, 08 R297, 09 R334, 10 R364, 11 R391, 12 R425, 14 R479). -/
def inspects (n : Nat) : Bool :=
  [0x001, 0x104, 0x188, 0x18A, 0x204, 0x301, 0x401, 0x502, 0x503, 0x580].contains n
    || [(0x011, 0x015), (0x020, 0x023), (0x040, 0x05F), (0x180, 0x187), (0x190, 0x19F), (0x510, 0x51F)].any (fun r => r.1 ≤ n && n ≤ r.2)

/-- What a selected source reads (15 R498): an inspection CSR is that of the bank the core runs. -/
def State.sample (s : State) (sel : Nat) : Nat :=
  match bits sel 3 0 with
  | 1 => s.dtime
  | 2 =>
    let c := bits sel 13 4
    match (s.core c).run with
    | some k => if inspects (bits sel 26 16) then s.csrNum ⟨c, k⟩ (bits sel 26 16) else 0
    | none => 0
  | 3 => s.lnkstat (bits sel 7 4) (bits sel 10 8)
  | 4 => s.ergstat (bits sel 7 4)
  | 5 => s.regs.pwrnow
  | _ => 0

/-- `PLUMBTRIG_WRITE` (15 R498). -/
def execPlumbtrigWrite (v : BitVec 64) (s : State) : Out :=
  .next (
    if !s.regsOpen 0 then s
    else
      let p := s.regs.plumb
      let mode := bits v.toNat 1 0
      let code := bits v.toNat 31 16
      if mode = 1 then
        s.setPlumb (if p.due then { p with mode := 0, code, miss := p.miss + 1 } else { p with mode := 0, code, due := true })
      else s.setPlumb { p with mode, code })

/-- `PLUMB_CAPTURE`: every selected source is sampled once the trigger has fired (15 R498). -/
def execPlumbCapture (s : State) : Out :=
  .next (
    let p := s.regs.plumb
    let now := p.mode == 2 && p.at' ≤ s.dtime
    if !p.due && !now then s
    else
      let val := p.sel.foldl (fun v x => if bits x.2 3 0 = 0 then v else spPut 0 v x.1 (s.sample x.2)) p.val
      let s := s.setPlumb { p with val, seq := p.seq + 1, due := false, mode := if now then 0 else p.mode }
      (s.logEvent .plumb 0 0 (p.seq + 1)).msix 0 67)

/-! ## Link trace, power and the other registers (15 R484, R499, R503; 13 R459; 14 R478) -/

/-- `LTRCFG_WRITE` (15 R499). -/
def execLtrcfgWrite (die : Fin 16) (v : BitVec 64) (s : State) : Out :=
  .next (
    if !s.regsOpen 0 then s
    else
      let x := s.ltr die.val
      let n := v.toNat
      let y := { x with port := bits n 2 0, tx := bitAt n 3, cls := bits n 5 4, head := bitAt n 6 }
      let on := bitAt n 8 && (x.en || homeOf x.base == 0)
      s.setLtr die.val (if on && !x.en then { y with en := true, idx := 0, lost := false } else { y with en := on }))

/-- `PWRLIM_WRITE` (15 R503). -/
def execPwrlimWrite (v : BitVec 64) (s : State) : Out :=
  .next (if !s.regsOpen 0 then s else { s with regs := { s.regs with pwrlim := min 7500 (max 1000 (bits v.toNat 12 0)) } })

/-- `POWER_THROTTLE`: a measured average above the limit lowers the core clock by 100 MHz, to no less than 1.0 GHz (15 R503). -/
def execPowerThrottle (watts : BitVec 13) (s : State) : Out :=
  .next (
    let s := { s with regs := { s.regs with pwrnow := watts.toNat } }
    if watts.toNat ≤ s.regs.pwrlim ∨ s.regs.clock ≤ 1000 then s
    else ({ s with regs := { s.regs with clock := s.regs.clock - 100 } }).logEvent .powerLimit 0 0 0)

/-- The offset that stands for VF Enable of the SR-IOV capability, which lies outside BAR0 (15 R486, log entry 11). -/
def vfEnableOff : Nat := 2 ^ 32

/-- The assigned bits of a qword of an export window (15 R495). -/
def expwinBits (i v : Nat) : Nat :=
  if i % 2 = 0 then bits v 56 12 * 2 ^ 12 + v % 4 else bits v 52 32 * 2 ^ 32 + bits v 11 0

/-- A write of a register of function 0 that has no row of its own. -/
def State.writeReg (s : State) (off v : Nat) : State :=
  let r := s.regs
  if off = 0x2000 then { s with regs := { r with ctxbase := bits v 51 12 * 2 ^ 12 } }
  else if off = 0x2008 then { s with regs := { r with premargin := v } }
  else if off = 0x2010 then { s with regs := { r with frto := min 400 (max 10 v) } }
  else if off = 0x2028 then
    s.setClock { s.net.clock with domain := if bits v 55 48 < 128 then bits v 55 48 else s.net.clock.domain, asym := bits v 31 16 }
  else if off = 0x2040 then (if r.ev.en then s else s.setEv { r.ev with base := v })
  else if off = vfEnableOff then { s with regs := { r with vfen := bitAt v 0 } }
  else if off % 8 ≠ 0 then s
  else if 0x20000 ≤ off ∧ off < 0x20100 then { s with regs := { r with expwin := spPut 0 r.expwin ((off - 0x20000) / 8) (expwinBits ((off - 0x20000) / 8) v) } }
  else if 0x30000 ≤ off ∧ off < 0x30100 then s.setPlumb { r.plumb with sel := spPut 0 r.plumb.sel ((off - 0x30000) / 8) (bits v 26 0) }
  else if off = 0x30208 then s.setPlumb { r.plumb with at' := v }
  else if 0x100000 ≤ off ∧ off < 0x200000 then
    let die := (off - 0x100000) / 0x10000
    let x := s.ltr die
    match off % 0x10000 with
    | 0x40 => s.setErg die { s.ergCh die with hold := max 16 (v % 256) }
    | 0x88 => if x.en then s else s.setLtr die { x with base := v / 4096 * 4096 }
    | 0x90 => if bits v 4 0 < 8 ∨ 20 < bits v 4 0 then s else s.setLtr die { x with lg := bits v 4 0 }
    | _ => s
  else s

/-- `REGISTER_WRITE`: the registers without a row of their own (15 R484); what a function has no right to, and what is read-only, ignores it. -/
def execRegisterWrite (fn : Fin 17) (off : Nat) (v : BitVec 64) (s : State) : Out :=
  .next (
    let x := s.fn fn.val
    let n := v.toNat
    if off = vfEnableOff ∧ fn = 0 then s.writeReg off n
    else if !s.regsOpen fn then s
    else if 0x1008 ≤ off ∧ off ≤ 0x1020 ∧ off % 8 = 0 then s.setFn fn.val { x with harg := listSet x.harg ((off - 0x1008) / 8) n }
    else if off = 0x1030 then (if x.fqen then s else s.setFn fn.val { x with fqbase := n })
    else if 0x10000 ≤ off ∧ off < 0x11000 then
      let q := (off - 0x10000) / 0x40
      let k := s.queue q
      if off % 0x40 = 0 ∧ (fn = 0 ∨ k.fn = fn.val) ∧ !k.en then s.setQueue q { k with base := bits n 51 8 * 2 ^ 8 } else s
    else if fn = 0 then s.writeReg off n
    else s)

/-! ### What the registers read (15 R484 to R487, R494 to R499; 13 R458, R459; 14 R478) -/

/-- `READY` as function 0 reads it (15 R485). -/
def State.readyReg (s : State) : Nat :=
  (match s.regs.ready with
    | .reset => 0 | .fwverify => 1 | .hbmtrain => 2 | .linktrain => 3 | .selftest => 4 | .ready => 5 | .fail => 6)
  + 2 ^ 16 * s.regs.badStacks + 2 ^ 32 * s.regs.cause

/-- `DSYNC` (13 R459). -/
def State.dsync (s : State) : Nat :=
  let c := s.net.clock
  (match c.st with | .free => 0 | .acquire => 1 | .locked => 2 | .holdover => 3 | .lost => 4)
  + 2 ^ 4 * c.port + 2 ^ 16 * c.asym + 2 ^ 32 * s.clockErr + 2 ^ 48 * c.domain

/-- Registers of a queue's block (15 R487). -/
def Queue.read (k : Queue) (off : Nat) : Nat :=
  match off with
  | 0x00 => k.base
  | 0x08 => k.lg + 2 ^ 8 * bit k.en + 2 ^ 16 * k.vec + 2 ^ 24 * k.fn
  | 0x10 => k.widx
  | 0x18 => k.ridx
  | 0x20 => k.cidx
  | _ => 0

/-- Registers of a die's block (15 R484, R499). -/
def State.dieRead (s : State) (die off : Nat) : Nat :=
  let x := s.ltr die
  if off < 0x38 ∧ off % 8 = 0 then s.lnkstat die (off / 8)
  else match off with
    | 0x40 => s.ergstat die
    | 0x80 => x.port + 2 ^ 3 * bit x.tx + 2 ^ 4 * x.cls + 2 ^ 6 * bit x.head + 2 ^ 8 * bit x.en
    | 0x88 => x.base
    | 0x90 => x.lg
    | 0x98 => x.idx % 2 ^ 48 + 2 ^ 63 * bit x.lost
    | _ => 0

/-- Registers that function 0 alone has (15 R484, R496, R498). -/
def State.readReg (s : State) (off : Nat) : Nat :=
  let r := s.regs
  match off with
  | 0x2000 => r.ctxbase
  | 0x2008 => r.premargin
  | 0x2010 => r.frto
  | 0x2018 => s.dtime
  | 0x2020 => s.windowOf s.dtime % 2 ^ 48 + 2 ^ 48 * (s.net.win.winlen / 10)
  | 0x2028 => s.dsync
  | 0x2030 => r.pwrlim
  | 0x2038 => r.pwrnow
  | 0x2040 => r.ev.base
  | 0x2048 => r.ev.lg + 2 ^ 8 * bit r.ev.en
  | 0x2050 => r.ev.head
  | 0x2058 => r.ev.tail
  | 0x2060 => r.ev.lost
  | 0x30200 => r.plumb.mode + 2 ^ 16 * r.plumb.code
  | 0x30208 => r.plumb.at'
  | 0x30210 => r.plumb.seq
  | 0x30218 => r.plumb.miss
  | _ =>
    if 0x8000 ≤ off ∧ off < 0x9000 then ofLe ((padTo 4096 0 s.part.idcert |>.drop (off - 0x8000)).take 8)
    else if 0x20000 ≤ off ∧ off < 0x20100 then spGet 0 r.expwin ((off - 0x20000) / 8)
    else if 0x30000 ≤ off ∧ off < 0x30100 then spGet 0 r.plumb.sel ((off - 0x30000) / 8)
    else if 0x30100 ≤ off ∧ off < 0x30200 then spGet 0 r.plumb.val ((off - 0x30100) / 8)
    else if 0x100000 ≤ off ∧ off < 0x200000 then s.dieRead ((off - 0x100000) / 0x10000) (off % 0x10000)
    else 0

/-- What a function reads at an offset of BAR0 (15 R483 to R487): below READY all but identity and `READY` read 0, and so does what belongs to another
function. -/
def State.barRead (s : State) (fn : Fin 17) (off : Nat) : BitVec 64 :=
  let x := s.fn fn.val
  BitVec.ofNat 64 (
    if off % 8 ≠ 0 then 0
    else if off = 0x00 then s.devid
    else if off = 0x08 then s.part.serial
    else if off = 0x10 then (if fn = 0 then s.readyReg else if s.regs.ready = .ready ∧ s.regs.vfen = true then 5 else 0)
    else if 0x40 ≤ off ∧ off < 0x80 then s.enmask ((off - 0x40) / 8)
    else if !s.regsOpen fn then 0
    else if 0x1008 ≤ off ∧ off ≤ 0x1020 then x.harg.getD ((off - 0x1008) / 8) 0
    else match off with
      | 0x1028 => (match x.st with | .idle => 0 | .busy => 1 | .done => 2 | .error => 3) + 2 ^ 8 * x.err
      | 0x1030 => x.fqbase
      | 0x1038 => x.fqlg + 2 ^ 8 * bit x.fqen
      | 0x1040 => x.fqhead
      | 0x1048 => x.fqtail
      | _ =>
        if 0x10000 ≤ off ∧ off < 0x11000 then
          let k := s.queue ((off - 0x10000) / 0x40)
          if fn = 0 ∨ k.fn = fn.val then k.read (off % 0x40) else 0
        else if fn = 0 then s.readReg off
        else 0)

/-! ## Host accesses and scrubbing (15 R482, R500) -/

/-- The die whose stack serves an address, or die 0 for host memory (01 R16, 06 R189). -/
def homeDie (pa : Nat) : Nat := if homeOf pa = 0 then bits pa 39 36 else 0

/-- An access of the host goes from die 0 to another die's stack over the mesh (01 R16), 4,096 bytes a packet (log entry 12). -/
def State.sendHost (s : State) (kind : PKind) (pa n : Nat) (req : Nat → Nat → PReq) (data : Nat → Nat → List Byte) : State :=
  (upTo ((n + 4095) / 4096)).foldl (fun s i =>
    let a := pa + 4096 * i
    let k := min 4096 (n - 4096 * i)
    let (id, s) := s.newId
    let s := if kind = .write then { s with regs := { s.regs with writes := s.regs.writes ++ [(id % 2 ^ 32, a, k)] } } else s
    s.sendSeq 0 (s.packet 0 (s.myAddr (homeDie pa)) kind .bulk .host id 0 (req a k) (data a k)) 0) s

/-- `HOST_MEMORY_ACCESS`: a host access reaches host memory or die 0's stack, or goes over the mesh to another's; one to a page that is being moved is
held at its home (06 R196). A read of bytes that cannot be corrected completes with an abort and is logged. -/
def execHostMemoryAccess (acc : HostAcc) (s : State) : Out :=
  .next (match acc with
    | .write pa data =>
      if !homesOk [0, 1] pa data.length then s
      else if homeDie pa ≠ 0 then
        let part (a k : Nat) : List Byte := (data.drop (a - pa)).take k
        s.sendHost .write pa data.length (fun a k => .hostWrite a (part a k)) part
      else if s.movingRngs [⟨.pa pa, data.length, none, 0⟩] then s else s.writePa pa data
    | .read pa n =>
      if !homesOk [0, 1] pa n then s
      else if homeDie pa ≠ 0 then s.sendHost .read pa n .hostRead (fun _ _ => [])
      else if s.movingRngs [⟨.pa pa, n, none, 0⟩] then s
      else match s.firstBad (.pa pa) n with
        | some a => s.logEvent .eccUncorr 0 0 a
        | none => s
    | .poison pa n =>
      if !homesOk [1] pa n then s else { s with bad := s.bad ++ (natsFrom pa n).filter (fun a => !s.bad.contains a) })

/-- `PATROL_SCRUB` (15 R500): a corrected byte is logged; bytes of a unit that cannot be corrected are logged and stay so. -/
def execPatrolScrub (pa : Nat) (found : Scrub) (s : State) : Out :=
  .next (match found with
    | .clean => s
    | .corrected => s.logEvent .eccCorr 0 0 pa
    | .uncorrectable =>
      let u := unitOf pa
      let s := { s with bad := s.bad ++ (natsFrom (pa / u * u) u).filter (fun a => !s.bad.contains a) }
      s.logEvent .eccUncorr 0 0 (pa / u * u))

/-! ## Bring-up (15 R485, R486, R501) -/

/-- Bring-up put into a state. -/
def State.toReady (s : State) (r : ReadySt) : State := { s with regs := { s.regs with ready := r } }

/-- Bring-up fails with a cause. -/
def State.failWith (s : State) (cause : Nat) : State := { s with regs := { s.regs with ready := .fail, cause } }

/-- `DEVICE_RESET`: everything is as after reset but what the part keeps, the bytes of memory (log entry 2), and the model's own fields. -/
def execDeviceReset (s : State) : Out :=
  .next { State.reset with
    part := s.part, mem := s.mem, bad := s.bad, nextId := s.nextId, freeCtr := s.freeCtr, agenda := s.agenda, rr := s.rr }

/-- `FWVERIFY`: RESET passes to FWVERIFY, and there the boot ROM checks the image of the flash (15 R501). -/
def execFwverify (s : State) : Out :=
  .next (
    let p := s.part
    match s.regs.ready with
    | .reset => s.toReady .fwverify
    | .fwverify =>
      if s.imageFault p.flash ≠ 0 then s.failWith (s.imageFault p.flash)
      else ({ s with part := { p with running := p.flash, svn := Config.imageSvn p.flash, minsvn := max p.minsvn (Config.imageSvn p.flash) } }).toReady .hbmtrain
    | _ => s)

/-- `HBMTRAIN`: every stack is trained, and any failure fails the device (15 R486). -/
def execHbmtrain (failed : BitVec 16) (s : State) : Out :=
  .next (
    if s.regs.ready ≠ .hbmtrain then s
    else if failed = 0 then s.toReady .linktrain
    else { s with regs := { s.regs with badStacks := failed.toNat } }.failWith 3)

/-- Dies reached over mesh links that trained, grown step by step. -/
def meshReach (up : Nat → Nat → Bool) : Nat → List Nat → List Nat
  | 0, l => l
  | k + 1, l => meshReach up k ((upTo 16).filter (fun d => l.contains d
      || (upTo 4).any (fun p => up d p && (match meshTo d p with | some e => l.contains e | none => false))))

/-- `LINKTRAIN`: links that train come up and the others fail; a die that the mesh does not reach fails the device (15 R486). -/
def execLinktrain (down : List (Nat × Nat)) (s : State) : Out :=
  .next (
    let up (d p : Nat) : Bool := hasLink d p && !down.contains (d, p) && (match meshTo d p with
      | some e => !down.contains (e, meshBack p)
      | none => true)
    if s.regs.ready ≠ .linktrain then s
    else if (meshReach up 16 [0]).length < 16 then s.failWith 4
    else
      let ports := (upTo 16).flatMap (fun d => (upTo 7).map (fun p => (d, p)))
      let s := ports.foldl (fun s x =>
        if !hasLink x.1 x.2 then s
        else if up x.1 x.2 then s.setLink x.1 x.2 { s.link x.1 x.2 with st := .up }
        else (s.setLink x.1 x.2 { s.link x.1 x.2 with st := .failed }).logEvent .linkFailed x.1 x.2 0) s
      let ends := (upTo 16).flatMap (fun d => (upTo 5).map (portKey d) ++ linkEnds d ergTx)
      let s := s.renew ((ends.filter s.endUp).map (fun k => (k, (s.linkAt k).out)))
      let s := (upTo 16).foldl (fun s e => s.setErg e { s.ergCh e with at' := nextDie e, emitted := s.dtime }) s
      (s.choosePtp).toReady .selftest)

/-- `SELFTEST` (15 R486). -/
def execSelftest (ok : Bool) (s : State) : Out :=
  .next (if s.regs.ready ≠ .selftest then s else if ok then s.toReady .ready else s.failWith 5)

end Sys2Proof.Machine
end

