-- ==== Sys2Proof/Machine/Dispatch.lean ====
section
/-!
DEFINITION. The dispatch: one arm per constructor of `Instr`, each one direct call of its meaning.
-/

namespace Sys2Proof.Machine

open Sys2Proof

/-- What an operation or event does. -/
def exec (i : Instr) (s : State) : Host.Outcome State Fault Refusal :=
  match i with
  | .nop m => Sys2Proof.Machine.execNop m s
  | .add m d a b => Sys2Proof.Machine.execAdd m d a b s
  | .sub m d a b => Sys2Proof.Machine.execSub m d a b s
  | .mul m d a b => Sys2Proof.Machine.execMul m d a b s
  | .and m d a b => Sys2Proof.Machine.execAnd m d a b s
  | .or m d a b => Sys2Proof.Machine.execOr m d a b s
  | .xor m d a b => Sys2Proof.Machine.execXor m d a b s
  | .shl m d a b => Sys2Proof.Machine.execShl m d a b s
  | .shr m d a b => Sys2Proof.Machine.execShr m d a b s
  | .li m xc d imm => Sys2Proof.Machine.execLi m xc d imm s
  | .mov m d a => Sys2Proof.Machine.execMov m d a s
  | .movFromDs m d => Sys2Proof.Machine.execMovFromDs m d s
  | .movToDa m a => Sys2Proof.Machine.execMovToDa m a s
  | .movToDv m a => Sys2Proof.Machine.execMovToDv m a s
  | .movToDt m a => Sys2Proof.Machine.execMovToDt m a s
  | .cmp m cc nq d a b => Sys2Proof.Machine.execCmp m cc nq d a b s
  | .br m off => Sys2Proof.Machine.execBr m off s
  | .brc m off => Sys2Proof.Machine.execBrc m off s
  | .call m off => Sys2Proof.Machine.execCall m off s
  | .ret m => Sys2Proof.Machine.execRet m s
  | .loop m lc cnt off => Sys2Proof.Machine.execLoop m lc cnt off s
  | .endl m lc rot => Sys2Proof.Machine.execEndl m lc rot s
  | .lexit m cancel off => Sys2Proof.Machine.execLexit m cancel off s
  | .semSigImm m sem val => Sys2Proof.Machine.execSemSigImm m sem val s
  | .semSigReg m sem r => Sys2Proof.Machine.execSemSigReg m sem r s
  | .semWaitImm m sem val => Sys2Proof.Machine.execSemWaitImm m sem val s
  | .semWaitReg m sem r => Sys2Proof.Machine.execSemWaitReg m sem r s
  | .drain m => Sys2Proof.Machine.execDrain m s
  | .cairn m lvl => Sys2Proof.Machine.execCairn m lvl s
  | .iter m off => Sys2Proof.Machine.execIter m off s
  | .stagep m => Sys2Proof.Machine.execStagep m s
  | .exit m => Sys2Proof.Machine.execExit m s
  | .trap m code => Sys2Proof.Machine.execTrap m code s
  | .csrRd m r csr => Sys2Proof.Machine.execCsrRd m r csr s
  | .csrWr m r csr => Sys2Proof.Machine.execCsrWr m r csr s
  | .scheduleEntryEnter l => Sys2Proof.Machine.execScheduleEntryEnter l s
  | .ld m ma sz z dst => Sys2Proof.Machine.execLd m ma sz z dst s
  | .st m ma sz src => Sys2Proof.Machine.execSt m ma sz src s
  | .adda m d a b => Sys2Proof.Machine.execAdda m d a b s
  | .lia m xc d imm => Sys2Proof.Machine.execLia m xc d imm s
  | .mova m d a => Sys2Proof.Machine.execMova m d a s
  | .movaToDs m a => Sys2Proof.Machine.execMovaToDs m a s
  | .movaToDv m a => Sys2Proof.Machine.execMovaToDv m a s
  | .movaToDt m a => Sys2Proof.Machine.execMovaToDt m a s
  | .tdSet m td ix r => Sys2Proof.Machine.execTdSet m td ix r s
  | .tdGet m td ix r => Sys2Proof.Machine.execTdGet m td ix r s
  | .tmov m td ch st oa ob => Sys2Proof.Machine.execTmov m td ch st oa ob s
  | .qbind m td q wr oa ob => Sys2Proof.Machine.execQbind m td q wr oa ob s
  | .qend m q => Sys2Proof.Machine.execQend m q s
  | .streamFetch l q => Sys2Proof.Machine.execStreamFetch l q s
  | .streamDrain l q => Sys2Proof.Machine.execStreamDrain l q s
  | .segqState m d a => Sys2Proof.Machine.execSegqState m d a s
  | .segqProbe m d a => Sys2Proof.Machine.execSegqProbe m d a s
  | .tlbinvAll m => Sys2Proof.Machine.execTlbinvAll m s
  | .tlbinvPage m a => Sys2Proof.Machine.execTlbinvPage m a s
  | .tlbinvSeg m a => Sys2Proof.Machine.execTlbinvSeg m a s
  | .astat m d => Sys2Proof.Machine.execAstat m d s
  | .astatClr m d a => Sys2Proof.Machine.execAstatClr m d a s
  | .astatMiss m d => Sys2Proof.Machine.execAstatMiss m d s
  | .accessPerform l id => Sys2Proof.Machine.execAccessPerform l id s
  | .pageFault l => Sys2Proof.Machine.execPageFault l s
  | .fenceAcq m scope => Sys2Proof.Machine.execFenceAcq m scope s
  | .fenceRel m scope => Sys2Proof.Machine.execFenceRel m scope s
  | .fenceAr m scope => Sys2Proof.Machine.execFenceAr m scope s
  | .fenceSc m scope => Sys2Proof.Machine.execFenceSc m scope s
  | .fenceXp m => Sys2Proof.Machine.execFenceXp m s
  | .amo m ma w8 op ord scope z nr d ra => Sys2Proof.Machine.execAmo m ma w8 op ord scope z nr d ra s
  | .cas m ma w8 ord scope z d ra => Sys2Proof.Machine.execCas m ma w8 ord scope z d ra s
  | .gadd m ma fmt ord scope d => Sys2Proof.Machine.execGadd m ma fmt ord scope d s
  | .grd m ma fmt rm ord scope d ra => Sys2Proof.Machine.execGrd m ma fmt rm ord scope d ra s
  | .gclr m ma ord scope d => Sys2Proof.Machine.execGclr m ma ord scope d s
  | .waita m ma w8 scope d ra => Sys2Proof.Machine.execWaita m ma w8 scope d ra s
  | .waitaTimeout l => Sys2Proof.Machine.execWaitaTimeout l s
  | .wakea m ma scope d => Sys2Proof.Machine.execWakea m ma scope d s
  | .convey m ma d => Sys2Proof.Machine.execConvey m ma d s
  | .platQ m ma d => Sys2Proof.Machine.execPlatQ m ma d s
  | .platWait m ma d => Sys2Proof.Machine.execPlatWait m ma d s
  | .platWaitTimeout l => Sys2Proof.Machine.execPlatWaitTimeout l s
  | .platShare m ma d => Sys2Proof.Machine.execPlatShare m ma d s
  | .cp m td ch kind oa ob => Sys2Proof.Machine.execCp m td ch kind oa ob s
  | .cpl m td ch kind oa ob rc rs => Sys2Proof.Machine.execCpl m td ch kind oa ob rc rs s
  | .cpring m g mode prod cons => Sys2Proof.Machine.execCpring m g mode prod cons s
  | .cpwpRd m a ch => Sys2Proof.Machine.execCpwpRd m a ch s
  | .cpwpWait m a ch => Sys2Proof.Machine.execCpwpWait m a ch s
  | .cpwpDs m ch => Sys2Proof.Machine.execCpwpDs m ch s
  | .cpcan m ch => Sys2Proof.Machine.execCpcan m ch s
  | .cpcanAll m => Sys2Proof.Machine.execCpcanAll m s
  | .siftEnc m ch pasp sasp rp rmap rsec rn => Sys2Proof.Machine.execSiftEnc m ch pasp sasp rp rmap rsec rn s
  | .siftDec m ch dst sasp rmap rsec rn => Sys2Proof.Machine.execSiftDec m ch dst sasp rmap rsec rn s
  | .accmov m acc ch st asp base => Sys2Proof.Machine.execAccmov m acc ch st asp base s
  | .chunkPublish l ch => Sys2Proof.Machine.execChunkPublish l ch s
  | .copyComplete l ch => Sys2Proof.Machine.execCopyComplete l ch s
  | .channelPageFault l ch => Sys2Proof.Machine.execChannelPageFault l ch s
  | .spillWriteback l ch => Sys2Proof.Machine.execSpillWriteback l ch s
  | .mxShape m rm1 cm1 nq nd => Sys2Proof.Machine.execMxShape m rm1 cm1 nq nd s
  | .mxMma m acc ga gb ka kb w src set => Sys2Proof.Machine.execMxMma m acc ga gb ka kb w src set s
  | .mxGer m acc ga gb ka kb w src set => Sys2Proof.Machine.execMxGer m acc ga gb ka kb w src set s
  | .mxBatch m acc ga gb nm1 ka kb set => Sys2Proof.Machine.execMxBatch m acc ga gb nm1 ka kb set s
  | .mxZero m acc => Sys2Proof.Machine.execMxZero m acc s
  | .mxLdacc m acc g kp add z => Sys2Proof.Machine.execMxLdacc m acc g kp add z s
  | .mxStacc m acc g rm ov z => Sys2Proof.Machine.execMxStacc m acc g rm ov z s
  | .mxAccadd m d src int neg => Sys2Proof.Machine.execMxAccadd m d src int neg s
  | .mxAccmov m d src swap => Sys2Proof.Machine.execMxAccmov m d src swap s
  | .mxCseq m imm => Sys2Proof.Machine.execMxCseq m imm s
  | .mxRing m td g => Sys2Proof.Machine.execMxRing m td g s
  | .mxPop m g => Sys2Proof.Machine.execMxPop m g s
  | .mxFmt m g fmt => Sys2Proof.Machine.execMxFmt m g fmt s
  | .mxScale m g val => Sys2Proof.Machine.execMxScale m g val s
  | .mxTrn m acc => Sys2Proof.Machine.execMxTrn m acc s
  | .mxMode m negp za zb => Sys2Proof.Machine.execMxMode m negp za zb s
  | .mxSemWait m sem val => Sys2Proof.Machine.execMxSemWait m sem val s
  | .mxSemSig m sem val => Sys2Proof.Machine.execMxSemSig m sem val s
  | .mxStat m clr => Sys2Proof.Machine.execMxStat m clr s
  | .matrixPassStart l => Sys2Proof.Machine.execMatrixPassStart l s
  | .vadd m ctl ty rm d a b => Sys2Proof.Machine.execVadd m ctl ty rm d a b s
  | .vsub m ctl ty rm d a b => Sys2Proof.Machine.execVsub m ctl ty rm d a b s
  | .vmul m ctl ty rm d a b => Sys2Proof.Machine.execVmul m ctl ty rm d a b s
  | .vfma m ctl ty rm np nc d a b c => Sys2Proof.Machine.execVfma m ctl ty rm np nc d a b c s
  | .vmin m ctl ty z d a b => Sys2Proof.Machine.execVmin m ctl ty z d a b s
  | .vmax m ctl ty z d a b => Sys2Proof.Machine.execVmax m ctl ty z d a b s
  | .vabs m ctl ty z d a => Sys2Proof.Machine.execVabs m ctl ty z d a s
  | .vneg m ctl ty z d a => Sys2Proof.Machine.execVneg m ctl ty z d a s
  | .viadd m ctl ty z sat d a b => Sys2Proof.Machine.execViadd m ctl ty z sat d a b s
  | .visub m ctl ty z sat d a b => Sys2Proof.Machine.execVisub m ctl ty z sat d a b s
  | .vimul m ctl ty z sat hi d a b => Sys2Proof.Machine.execVimul m ctl ty z sat hi d a b s
  | .vand m ctl ty d a b => Sys2Proof.Machine.execVand m ctl ty d a b s
  | .vor m ctl ty d a b => Sys2Proof.Machine.execVor m ctl ty d a b s
  | .vxor m ctl ty d a b => Sys2Proof.Machine.execVxor m ctl ty d a b s
  | .vshl m ctl ty d a b => Sys2Proof.Machine.execVshl m ctl ty d a b s
  | .vshr m ctl ty z d a b => Sys2Proof.Machine.execVshr m ctl ty z d a b s
  | .vcmp m k ty z cc kd a b => Sys2Proof.Machine.execVcmp m k ty z cc kd a b s
  | .vcmpq m k ty z all cc kd a b => Sys2Proof.Machine.execVcmpq m k ty z all cc kd a b s
  | .vsel m k ty d a b => Sys2Proof.Machine.execVsel m k ty d a b s
  | .vrsum m k ty z rm q sat d a => Sys2Proof.Machine.execVrsum m k ty z rm q sat d a s
  | .vrmax m k ty z q d a => Sys2Proof.Machine.execVrmax m k ty z q d a s
  | .vcvt m ctl dst src sz dz ov part rnd d a => Sys2Proof.Machine.execVcvt m ctl dst src sz dz ov part rnd d a s
  | .vqmax m ty zd a b => Sys2Proof.Machine.execVqmax m ty zd a b s
  | .vqcvt m ty rnd part zs d a b => Sys2Proof.Machine.execVqcvt m ty rnd part zs d a b s
  | .vdq m ctl ty rm part zs d a b => Sys2Proof.Machine.execVdq m ctl ty rm part zs d a b s
  | .vperm m ctl ty d a b => Sys2Proof.Machine.execVperm m ctl ty d a b s
  | .vshuf m ctl ty kind d a => Sys2Proof.Machine.execVshuf m ctl ty kind d a s
  | .vrcpe m ctl ty d a => Sys2Proof.Machine.execVrcpe m ctl ty d a s
  | .vrsqe m ctl ty d a => Sys2Proof.Machine.execVrsqe m ctl ty d a s
  | .vpushc m k ty d a => Sys2Proof.Machine.execVpushc m k ty d a s
  | .vpopc m ty form d cb => Sys2Proof.Machine.execVpopc m ty form d cb s
  | .vmov m form => Sys2Proof.Machine.execVmov m form s
  | .vbcast m xc d imm => Sys2Proof.Machine.execVbcast m xc d imm s
  | .vsetl m xc kd imm => Sys2Proof.Machine.execVsetl m xc kd imm s
  | .vaccRd m acc d line col h vt rm ov => Sys2Proof.Machine.execVaccRd m acc d line col h vt rm ov s
  | .vaccWr m acc a line col h vt rm add => Sys2Proof.Machine.execVaccWr m acc a line col h vt rm add s
  | .viota m ctl ty pfx d => Sys2Proof.Machine.execViota m ctl ty pfx d s
  | .vcnt m ty q d ka => Sys2Proof.Machine.execVcnt m ty q d ka s
  | .vpopq m ctl count d => Sys2Proof.Machine.execVpopq m ctl count d s
  | .vstat m clr => Sys2Proof.Machine.execVstat m clr s
  | .txPlan m p spec => Sys2Proof.Machine.execTxPlan m p spec s
  | .txFwd m p td => Sys2Proof.Machine.execTxFwd m p td s
  | .txFwdRing m p gi go => Sys2Proof.Machine.execTxFwdRing m p gi go s
  | .txInv m p td => Sys2Proof.Machine.execTxInv m p td s
  | .txInvRing m p gi go => Sys2Proof.Machine.execTxInvRing m p gi go s
  | .txStage m p form st inv => Sys2Proof.Machine.execTxStage m p form st inv s
  | .txTwid m dst outer pos q => Sys2Proof.Machine.execTxTwid m dst outer pos q s
  | .txRfwd m p td => Sys2Proof.Machine.execTxRfwd m p td s
  | .txRfwdRing m p gi go => Sys2Proof.Machine.execTxRfwdRing m p gi go s
  | .txRinv m p td => Sys2Proof.Machine.execTxRinv m p td s
  | .txRinvRing m p gi go => Sys2Proof.Machine.execTxRinvRing m p gi go s
  | .txLeg m td g order d0 => Sys2Proof.Machine.execTxLeg m td g order d0 s
  | .txScale m form c rm => Sys2Proof.Machine.execTxScale m form c rm s
  | .txDigrev m p td => Sys2Proof.Machine.execTxDigrev m p td s
  | .txDigrevRing m p gi go => Sys2Proof.Machine.execTxDigrevRing m p gi go s
  | .txRing m td g => Sys2Proof.Machine.execTxRing m td g s
  | .txSemWait m sem val => Sys2Proof.Machine.execTxSemWait m sem val s
  | .txSemSig m sem val => Sys2Proof.Machine.execTxSemSig m sem val s
  | .txStat m clr => Sys2Proof.Machine.execTxStat m clr s
  | .txCplx m td g conj kp bc => Sys2Proof.Machine.execTxCplx m td g conj kp bc s
  | .fbLd m td h ds z acq => Sys2Proof.Machine.execFbLd m td h ds z acq s
  | .fbSt m td h rel => Sys2Proof.Machine.execFbSt m td h rel s
  | .fbAmo m td h nr z ord op ra rb => Sys2Proof.Machine.execFbAmo m td h nr z ord op ra rb s
  | .fbGadd m td h fmt rel ra => Sys2Proof.Machine.execFbGadd m td h fmt rel ra s
  | .fbFenceAcq m scope => Sys2Proof.Machine.execFbFenceAcq m scope s
  | .fbFenceRel m scope => Sys2Proof.Machine.execFbFenceRel m scope s
  | .fbFenceAr m scope => Sys2Proof.Machine.execFbFenceAr m scope s
  | .fbFenceSc m scope => Sys2Proof.Machine.execFbFenceSc m scope s
  | .fbMcst m td h ack rel ap => Sys2Proof.Machine.execFbMcst m td h ack rel ap s
  | .fbMcld m td h red q z ap => Sys2Proof.Machine.execFbMcld m td h red q z ap s
  | .fbSub m td n lvl rp => Sys2Proof.Machine.execFbSub m td n lvl rp s
  | .fbUnsub m n => Sys2Proof.Machine.execFbUnsub m n s
  | .fbSflush m => Sys2Proof.Machine.execFbSflush m s
  | .fbColl m fc scope xc oa slot => Sys2Proof.Machine.execFbColl m fc scope xc oa slot s
  | .fbCwait m fc v => Sys2Proof.Machine.execFbCwait m fc v s
  | .fbTimeNow m => Sys2Proof.Machine.execFbTimeNow m s
  | .fbTimeWin m => Sys2Proof.Machine.execFbTimeWin m s
  | .fbTimeUntil m n => Sys2Proof.Machine.execFbTimeUntil m n s
  | .fbStat m clr => Sys2Proof.Machine.execFbStat m clr s
  | .slotTimeReached l id => Sys2Proof.Machine.execSlotTimeReached l id s
  | .remoteRequestArrival r => Sys2Proof.Machine.execRemoteRequestArrival r s
  | .remoteReply l id => Sys2Proof.Machine.execRemoteReply l id s
  | .requestTimeout l id => Sys2Proof.Machine.execRequestTimeout l id s
  | .subInstall l n => Sys2Proof.Machine.execSubInstall l n s
  | .granuleSend l entry => Sys2Proof.Machine.execGranuleSend l entry s
  | .granuleDeliver idx => Sys2Proof.Machine.execGranuleDeliver idx s
  | .collectiveStart inst => Sys2Proof.Machine.execCollectiveStart inst s
  | .collectiveTimeout inst => Sys2Proof.Machine.execCollectiveTimeout inst s
  | .collectiveChunk inst ix j chunk => Sys2Proof.Machine.execCollectiveChunk inst ix j chunk s
  | .collectiveComplete inst => Sys2Proof.Machine.execCollectiveComplete inst s
  | .collectivePeerStop inst => Sys2Proof.Machine.execCollectivePeerStop inst s
  | .qwidxWrite fn q v => Sys2Proof.Machine.execQwidxWrite fn q v s
  | .packetCheck q => Sys2Proof.Machine.execPacketCheck q s
  | .headerCheck q => Sys2Proof.Machine.execHeaderCheck q s
  | .deadlineReached => Sys2Proof.Machine.execDeadlineReached s
  | .bankLoaded l => Sys2Proof.Machine.execBankLoaded l s
  | .coreHalted core => Sys2Proof.Machine.execCoreHalted core s
  | .evictionSaved l => Sys2Proof.Machine.execEvictionSaved l s
  | .barrierRelease launch lvl place => Sys2Proof.Machine.execBarrierRelease launch lvl place s
  | .barrierTimeout launch lvl place => Sys2Proof.Machine.execBarrierTimeout launch lvl place s
  | .watchdogExpiry core => Sys2Proof.Machine.execWatchdogExpiry core s
  | .launchEnd launch => Sys2Proof.Machine.execLaunchEnd launch s
  | .completionRecord launch => Sys2Proof.Machine.execCompletionRecord launch s
  | .meridianGraphStart q => Sys2Proof.Machine.execMeridianGraphStart q s
  | .meridianNodeReady g node => Sys2Proof.Machine.execMeridianNodeReady g node s
  | .meridianGraphStop g => Sys2Proof.Machine.execMeridianGraphStop g s
  | .migrationCopy idx => Sys2Proof.Machine.execMigrationCopy idx s
  | .migrationRebind idx => Sys2Proof.Machine.execMigrationRebind idx s
  | .hcmdCtxCreate fn => Sys2Proof.Machine.execHcmdCtxCreate fn s
  | .hcmdCtxDestroy fn => Sys2Proof.Machine.execHcmdCtxDestroy fn s
  | .hcmdTlbInv fn => Sys2Proof.Machine.execHcmdTlbInv fn s
  | .hcmdPlatInv fn => Sys2Proof.Machine.execHcmdPlatInv fn s
  | .hcmdMigrate fn => Sys2Proof.Machine.execHcmdMigrate fn s
  | .hcmdFaultReply fn => Sys2Proof.Machine.execHcmdFaultReply fn s
  | .hcmdRouteLoad fn => Sys2Proof.Machine.execHcmdRouteLoad fn s
  | .hcmdRouteCommit fn => Sys2Proof.Machine.execHcmdRouteCommit fn s
  | .hcmdAttest fn => Sys2Proof.Machine.execHcmdAttest fn s
  | .hcmdFwLoad fn => Sys2Proof.Machine.execHcmdFwLoad fn s
  | .hcmdUnknown fn op => Sys2Proof.Machine.execHcmdUnknown fn op s
  | .hostCommandDone fn => Sys2Proof.Machine.execHostCommandDone fn s
  | .qcfgWrite fn q v => Sys2Proof.Machine.execQcfgWrite fn q v s
  | .qcancel fn q v => Sys2Proof.Machine.execQcancel fn q v s
  | .fqcfgWrite fn v => Sys2Proof.Machine.execFqcfgWrite fn v s
  | .fqtailWrite fn v => Sys2Proof.Machine.execFqtailWrite fn v s
  | .evcfgWrite v => Sys2Proof.Machine.execEvcfgWrite v s
  | .evtailWrite v => Sys2Proof.Machine.execEvtailWrite v s
  | .plumbtrigWrite v => Sys2Proof.Machine.execPlumbtrigWrite v s
  | .plumbCapture => Sys2Proof.Machine.execPlumbCapture s
  | .ltrcfgWrite die v => Sys2Proof.Machine.execLtrcfgWrite die v s
  | .pwrlimWrite v => Sys2Proof.Machine.execPwrlimWrite v s
  | .powerThrottle watts => Sys2Proof.Machine.execPowerThrottle watts s
  | .registerWrite fn off v => Sys2Proof.Machine.execRegisterWrite fn off v s
  | .hostMemoryAccess acc => Sys2Proof.Machine.execHostMemoryAccess acc s
  | .deviceReset => Sys2Proof.Machine.execDeviceReset s
  | .fwverify => Sys2Proof.Machine.execFwverify s
  | .hbmtrain failed => Sys2Proof.Machine.execHbmtrain failed s
  | .linktrain down => Sys2Proof.Machine.execLinktrain down s
  | .selftest ok => Sys2Proof.Machine.execSelftest ok s
  | .patrolScrub pa found => Sys2Proof.Machine.execPatrolScrub pa found s
  | .flitTransmit die port => Sys2Proof.Machine.execFlitTransmit die port s
  | .flitReceive die port f => Sys2Proof.Machine.execFlitReceive die port f s
  | .linkTrained die port => Sys2Proof.Machine.execLinkTrained die port s
  | .linkFailed die port => Sys2Proof.Machine.execLinkFailed die port s
  | .linkReset die port => Sys2Proof.Machine.execLinkReset die port s
  | .pktWrite die l => Sys2Proof.Machine.execPktWrite die l s
  | .pktRead die l => Sys2Proof.Machine.execPktRead die l s
  | .pktResp die l => Sys2Proof.Machine.execPktResp die l s
  | .pktAmo die l => Sys2Proof.Machine.execPktAmo die l s
  | .pktGadd die l => Sys2Proof.Machine.execPktGadd die l s
  | .pktMcwrite die l => Sys2Proof.Machine.execPktMcwrite die l s
  | .pktMcread die l => Sys2Proof.Machine.execPktMcread die l s
  | .pktGranule die l => Sys2Proof.Machine.execPktGranule die l s
  | .pktChunk die l => Sys2Proof.Machine.execPktChunk die l s
  | .pktAck die l => Sys2Proof.Machine.execPktAck die l s
  | .pktNack die l => Sys2Proof.Machine.execPktNack die l s
  | .pktCredit die port vc time p => Sys2Proof.Machine.execPktCredit die port vc time p s
  | .pktFlush die l => Sys2Proof.Machine.execPktFlush die l s
  | .pktClose die port vc x => Sys2Proof.Machine.execPktClose die port vc x s
  | .pktSync die l => Sys2Proof.Machine.execPktSync die l s
  | .pktDrain die l => Sys2Proof.Machine.execPktDrain die l s
  | .pktToken die port vc time p => Sys2Proof.Machine.execPktToken die port vc time p s
  | .pktMode die port vc x => Sys2Proof.Machine.execPktMode die port vc x s
  | .pktAdvert die port x => Sys2Proof.Machine.execPktAdvert die port x s
  | .windowEnd => Sys2Proof.Machine.execWindowEnd s
  | .scopeModeChange fabric => Sys2Proof.Machine.execScopeModeChange fabric s
  | .syncMissed => Sys2Proof.Machine.execSyncMissed s
  | .ergTokenArrival ch die epoch seq uw => Sys2Proof.Machine.execErgTokenArrival ch die epoch seq uw s
  | .ergUrgentRequest ch die => Sys2Proof.Machine.execErgUrgentRequest ch die s
  | .ergTokenRegen ch => Sys2Proof.Machine.execErgTokenRegen ch s
  | .lossOfLaneLock die port => Sys2Proof.Machine.execLossOfLaneLock die port s
  | .errExceedsGuard => Sys2Proof.Machine.execErrExceedsGuard s
  | .timeUntilReached l => Sys2Proof.Machine.execTimeUntilReached l s

end Sys2Proof.Machine
end

