-- ==== Sys2Proof/Machine/Turns.lean ====
section
/-!
DEFINITION. Whose move it is (log entries 3, 4, 9): the passing of time, the default order of turns, the fetch of an engine's word (02 R51 to
R52), and how a program is placed for the first step (log entry 8).
-/

namespace Sys2Proof.Machine

/-! ## Time -/

/-- The word of the pass window that starts next (10 R342). -/
def Bank.nextPass (b : Bank) : Option WinEnt :=
  match b.mx.run with
  | some w => if b.mx.mid || b.mx.owed then none else some w
  | none => b.mx.win.head?

/-- Whether a word of the pass window consumes the head slot of a ring. -/
def WinEnt.consumes (w : WinEnt) (g : Nat) : Bool := [w.opA, w.opB].any (fun o => o.any (fun x => x.g.val == g && x.src == .head))

/-- Whether an engine of M, A or T stands at a word of a ring, or M's next pass does, whose head slot a copy of another core has still to fill
(04 R131). -/
def Bank.ringFar (b : Bank) (core : Nat) : Bool :=
  b.car.rings.any (fun p =>
    let r := p.2
    !r.modeR && (r.chan.any (fun c => c.1 != core)) && r.slotSt r.head != .full
      && (b.nextPass.any (fun w => w.consumes p.1) || ([.A, .M, .T] : List Engine).any (fun e => match b.meet e with
        | .own i => (Instr.needs i).contains (.ring (Fin.ofNat 16 p.1))
        | _ => false)))

/-- Whether a copy of a bank waits for a slot of another core's ring (04 R131). -/
def State.slotFar (s : State) (l : Loc) : Bool :=
  (s.bank l).car.ch.any (fun p => match p.2.cmds with
    | x :: _ => (match x.kind with
      | .toRing _ _ _ g (some q) _ => q != l && x.slot.isNone && (match (s.bank q).ring g with
        | some r => !r.modeR && r.slotSt r.tail != .empty
        | none => false)
      | _ => false)
    | [] => false)

/-- Whether F waits in `FB.CWAIT` or `FB.TIME.until`, or at the issue of an `FB.COLL` for room in Traverse (04 R131). -/
def State.fWaits (s : State) (l : Loc) : Bool :=
  let b := s.bank l
  match b.meet .F with
  | .own (.fbCwait m fc v) => b.tokensOk (Instr.hd (.fbCwait m fc v)) && (spGet 0 b.fab.fc fc.val).toNat < v.toNat
  | .own (.fbTimeUntil m n) => b.tokensOk (Instr.hd (.fbTimeUntil m n)) && s.dtime < s.slotTime b n.toNat
  | .own (.fbColl m fc sc xc oa slot) => b.tokensOk (Instr.hd (.fbColl m fc sc xc oa slot))
      && (16 ≤ s.postCount (· == l.core) || 128 ≤ s.postCount (fun c => dieOf c == dieOf l.core))
  | _ => false

/-- Whether S waits at a `STAGEP` for room in a full hand-over queue (04 R131). -/
def State.stageFull (s : State) (l : Loc) : Bool :=
  let b := s.bank l
  match b.meet .S, b.launch.bind s.launch with
  | .flow (.stagep _), some x => b.quiet && x.hdr.elim 1 (·.stages) > b.seq.stage + 1 && x.cores.length ≤ (x.handed (b.seq.stage + 1)).length
  | _, _ => false


/-- Barriers of a running launch count the Datum time that passes (05 R156). -/
def Launch.ages (x : Launch) (ns : Nat) : Launch :=
  if x.st = .running then { x with bars := x.bars.map (fun b => { b with age := b.age.map (· + ns) }) } else x

/-! ## Fetch -/

/-- What an engine does with the word at its program counter (02 R51): a word it neither owns nor observes is passed, a word whose check fails
ends the launch, and a word of its own, a flow word or a target is run. -/
inductive Fetched where
  | done (s : State)
  | run (i : Instr) (s : State)
  deriving DecidableEq, Repr

/-- The fetch of one engine: it waits for its slip bound (02 R52), and a parked A waits (07 R242). -/
def State.fetch (s : State) : Fetched :=
  let l := s.cur.loc
  let e := s.cur.eng
  let b := s.here
  let go (i : Instr) : Fetched := if b.slipOk e then .run i s else .done s
  if !b.live || (e == .A && b.acc.park.isSome) then .done s
  else match b.meet e with
    | .fault c => .done (s.faultAt l c (b.eng e).pc 0)
    | .skip => .done (if b.slipOk e then s.setBank l (b.skip e) else s)
    | .flow i => go i
    | .own i => go i
    | .target i => go i

/-- The cursor put on an engine of the bank that runs on a core; a core that runs none selects one first (05 R167). -/
def State.pointAt (s : State) (core : Nat) (e : Engine) (eager : Bool) : Option State :=
  let s := if (s.core core).run.isNone then s.selectBank core else s
  (s.core core).run.map (fun b => { s with cur := ⟨⟨core, b⟩, e, eager⟩ })

/-! ## The watchdog, and time -/

/-- The bank that has the turn after A's try at the word it meets; `run` is what a word does. -/
def State.tryA (s : State) (l : Loc) (run : Instr → State → Out) : Option Bank :=
  match ({ s with cur := ⟨l, .A, false⟩ }).fetch with
  | .run i t => (match run i t with | .next u => some (u.bank l) | _ => none)
  | .done t => some (t.bank l)

/-- Whether A waits at issue for a segment that is being migrated (04 R131, 06 R196): its word would go on if no migration were under way. -/
def State.segHeld (s : State) (l : Loc) (run : Instr → State → Out) : Bool :=
  s.migs.any (fun m => m.ctx == (s.bank l).ctx)
    && s.tryA l run == some (s.bank l) && ({ s with migs := [] }).tryA l run != some (s.bank l)

/-- Whether the watchdog of a running bank holds in a cycle (04 R131). -/
def State.dogHeld (s : State) (l : Loc) (run : Instr → State → Out) : Bool :=
  let b := s.bank l
  b.seq.cairn.isSome || (b.seq.iterReq && b.seq.stage == 0) || b.acc.park.isSome || b.acc.pf.isSome || b.car.ch.any (fun c => c.2.pf.isSome)
    || s.fWaits l || s.stageFull l || b.ringFar l.core || s.slotFar l || s.segHeld l run

/-- The watchdog of a running bank counts cycles, to 2^20 (04 R131, R133). -/
def State.count (s : State) (run : Instr → State → Out) (cycles core : Nat) : State :=
  match (s.core core).run with
  | none => s
  | some k =>
    let l : Loc := ⟨core, k⟩
    let b := s.bank l
    if b.st ≠ .run ∨ s.dogHeld l run then s else s.setBank l { b with seq := { b.seq with wdog := min (2 ^ 20) (b.seq.wdog + cycles) } }

/-- Time passes: core clock cycles and Datum time, and the counters that count them. -/
def State.elapse (s : State) (run : Instr → State → Out) (cycles ns : Nat) : State :=
  let s := (s.cores.map (·.1)).foldl (fun s c => s.count run cycles c) s
  { s with
    dtime := (s.dtime + ns) % 2 ^ 64
    cycle := s.cycle + cycles
    launches := s.launches.map (fun x => x.ages ns)
    trav := { s.trav with insts := s.trav.insts.map (fun i => if i.started then i else { i with age := i.age + ns }) } }

/-! ## The default order (log entry 3) -/

/-- What a bank may have to do beside its engines' words. -/
def Bank.chores (b : Bank) (l : Loc) : List Instr :=
  (match b.st with
    | .loading => [.bankLoaded l]
    | .halting => [.coreHalted l.core]
    | .saving => [.evictionSaved l]
    | _ => [])
  ++ b.acc.out.map (fun a => .accessPerform l a.id)
  ++ (if b.acc.pf.isSome then [.pageFault l] else [])
  ++ (match b.acc.park with | some (.waita ..) => [.waitaTimeout l] | some (.plat ..) => [.platWaitTimeout l] | none => [])
  ++ b.acc.q.map (fun q => if q.2.wr then .streamDrain l (Fin.ofNat 8 q.1) else .streamFetch l (Fin.ofNat 8 q.1))
  ++ b.car.ch.flatMap (fun c => if c.2.cmds.isEmpty then [] else
      let ch : Fin 8 := Fin.ofNat 8 c.1
      [.chunkPublish l ch, .copyComplete l ch, .channelPageFault l ch, .spillWriteback l ch])
  ++ (if b.car.sched.isEmpty then [] else [.scheduleEntryEnter l])
  ++ (if b.mx.win.isEmpty && b.mx.run.isNone then [] else [.matrixPassStart l])
  ++ b.fab.reqs.flatMap (fun r => [.slotTimeReached l r.id, .remoteRequestArrival (.own l r.id), .remoteReply l r.id, .requestTimeout l r.id])
  ++ b.fab.subs.map (fun u => .subInstall l (Fin.ofNat 16 u.1))
  ++ (upTo b.fab.fan.length).map (fun i => .granuleSend l i)

/-- What launches, queues and graphs may have to do. -/
def State.launchChores (s : State) : List Instr :=
  s.queues.flatMap (fun q => if q.2.en then
      let n : Fin 64 := Fin.ofNat 64 q.1
      [.packetCheck n, .headerCheck n, .meridianGraphStart n] else [])
  ++ s.launches.flatMap (fun x => match x.st with
    | .queued | .preempted => [.deadlineReached]
    | .running => x.bars.flatMap (fun b => [.barrierRelease x.id b.lvl b.place, .barrierTimeout x.id b.lvl b.place])
    | .ending => [.launchEnd x.id, .completionRecord x.id]
    | .dispatch | .done => [])
  ++ s.graphs.flatMap (fun g => (upTo g.nodes.length).map (fun n => .meridianNodeReady g.id n) ++ [.meridianGraphStop g.id])

/-- What Traverse, the subscriptions, migrations and commands may have to do. -/
def State.partChores (s : State) : List Instr :=
  s.trav.insts.flatMap (fun i => [.collectiveStart i.id, .collectiveTimeout i.id, .collectiveComplete i.id, .collectivePeerStop i.id]
    ++ (if i.started then (upTo i.set.length).flatMap (fun a => (upTo i.set.length).flatMap (fun b =>
      (upTo (i.posts.head?.elim 0 (fun p => pairChunks p.blk))).map (fun c => .collectiveChunk i.id a b c))) else []))
  ++ (if s.transit.isEmpty then [] else [.granuleDeliver 0])
  ++ (upTo s.migs.length).flatMap (fun i => [.migrationCopy i, .migrationRebind i])
  ++ s.regs.cmds.map (fun c => .hostCommandDone c.fn)
  ++ (upTo s.net.inc.length).map (fun i => .remoteRequestArrival (.incoming i))
  ++ (if s.net.win.cur < s.windowOf s.dtime then [.windowEnd] else [])
  ++ (if s.regs.plumb.due || s.regs.plumb.mode == 2 then [.plumbCapture] else [])

/-- A packet that has arrived is taken, by the row of its kind (13 R431). -/
def State.takePacket (s : State) (a : Arrived) : Out :=
  match a.p.kind with
  | .write => execPktWrite a.die a.toLanded s
  | .read => execPktRead a.die a.toLanded s
  | .resp => execPktResp a.die a.toLanded s
  | .amo => execPktAmo a.die a.toLanded s
  | .gadd => execPktGadd a.die a.toLanded s
  | .mcwrite => execPktMcwrite a.die a.toLanded s
  | .mcread => execPktMcread a.die a.toLanded s
  | .granule => execPktGranule a.die a.toLanded s
  | .chunk => execPktChunk a.die a.toLanded s
  | .ack => execPktAck a.die a.toLanded s
  | .nack => execPktNack a.die a.toLanded s
  | .credit => execPktCredit a.die a.port a.vc a.time a.p s
  | .flush => execPktFlush a.die a.toLanded s
  | .close => execPktClose a.die a.port a.vc a.toTimed s
  | .sync => execPktSync a.die a.toLanded s
  | .drain => execPktDrain a.die a.toLanded s
  | .token => execPktToken a.die a.port a.vc a.time a.p s
  | .mode => execPktMode a.die a.port a.vc a.toTimed s
  | .advert => execPktAdvert a.die a.port a.toOnVc s
  | .other _ => .next s

/-- What comes about on the links of the package. -/
def State.netTurn (s : State) (t : NetTurn) : Out :=
  match t with
  | .flit die port f => execFlitReceive die port f s
  | .packet a => s.takePacket a
  | .trained die port => execLinkTrained die port s
  | .failed die port => execLinkFailed die port s
  | .token ch =>
    let e := s.ergCh ch.val
    execErgTokenArrival ch (Fin.ofNat 16 e.at') (BitVec.ofNat 8 e.epoch) (BitVec.ofNat 16 e.seq) e.uw s
  | .mode fabric => execScopeModeChange fabric s

/-- Whether an end has something to send. -/
def Link.busy (x : Link) (up : Bool) : Bool := up && (!x.out.isEmpty || !x.replay.isEmpty || !x.greeted || x.repays)

/-- What the links of the package may have to do: flits and packets that have come, training, the tokens of channels that a die waits for, and a
change of mode. -/
def State.netChores (s : State) : List NetTurn :=
  s.net.wire.map (fun w => .flit (Fin.ofNat 16 (endDie w.1)) (Fin.ofNat 7 (if w.1 < 112 then endPort w.1 else ergRx)) w.2)
  ++ s.net.arrived.map NetTurn.packet
  ++ s.net.links.flatMap (fun x => if x.1 < 112 && (x.2.st == .training || x.2.st == .retraining) then
      [.trained (Fin.ofNat 16 (endDie x.1)) (Fin.ofNat 7 (endPort x.1)), .failed (Fin.ofNat 16 (endDie x.1)) (Fin.ofNat 7 (endPort x.1))] else [])
  ++ s.net.erg.flatMap (fun c => if c.2.holder.isNone && s.net.links.any (fun x => 112 ≤ x.1 && endFar x.1 == c.1 && x.2.busy (s.endUp x.1)) then
      [.token (Fin.ofNat 16 c.1)] else [])
  ++ s.net.win.pend.map (fun p => .mode p.1)

/-- The ports that have a flit slot to use. -/
def State.portTurns (s : State) : List Turn :=
  s.net.links.flatMap (fun x => if x.1 < 112 && x.2.busy (s.endUp x.1) && endPort x.1 < 5 then
      [Turn.port (Fin.ofNat 16 (endDie x.1)) (Fin.ofNat 7 (endPort x.1))] else [])
  ++ s.net.erg.filterMap (fun c => c.2.holder.map (fun d => Turn.port (Fin.ofNat 16 d) (Fin.ofNat 7 ergTx)))

/-- The turns that may come when none is given: every engine of every core, what may come about of itself, and a cycle. -/
def State.possible (s : State) : List Turn :=
  s.cores.flatMap (fun p => allEngines.map (fun e => Turn.engine p.1 e true)
    ++ (p.2.b0.chores ⟨p.1, 0⟩ ++ p.2.b1.chores ⟨p.1, 1⟩ ++ (if p.2.run.isSome then [Instr.watchdogExpiry p.1] else [])).map Turn.event)
  ++ s.cores.flatMap (fun p => [(⟨p.1, 0⟩ : Loc), ⟨p.1, 1⟩].filterMap (fun l => (s.bank l).tx.work.map (fun _ => Turn.transform l)))
  ++ (s.launchChores ++ s.partChores).map Turn.event ++ s.netChores.map Turn.net ++ s.portTurns
  ++ (if s.regs.ready == .ready || s.regs.ready == .fail then [] else [.train]) ++ [.elapse 1 1]

/-- The turn that comes when none is given. -/
def State.defaultTurn (s : State) : Turn :=
  let l := s.possible
  ((l.drop (s.rr % l.length)).head?).getD (.elapse 1 1)

/-- The next turn, and the state with it taken from the agenda. -/
def State.takeTurn (s : State) : Turn × State :=
  match s.agenda with
  | t :: r => (t, { s with agenda := r })
  | [] => (s.defaultTurn, { s with rr := s.rr + 1 })

/-! ## A program placed for the first step (log entry 8) -/

/-- The launch that the placed word belongs to. -/
def placedPacket : Packet256 :=
  { typ := 1, pre := false, miss := false, notify := false, ctx := 0, tag := 0, deadline := 2 ^ 64 - 1, image := 0, crec := 0, save := 0
    dies := 0, ncores := 1, cairnTo := 10 ^ 9, nloops := 0, slotlen := 500, counts := [0, 0, 0, 0, 0, 0]
    params := [0, 0, 0, 0, 0, 0, 0, 0], sched := 0, nsched := 0, res := false }

/-- A header that declares everything (05 R139). -/
def placedHeader : Header :=
  { textlen := 65536, regs := [64, 32, 32, 8, 8, 8, 8, 8], acc := 1024, rings := 16, stages := 1, ntd := 64, slipw := 1024
    spad := 262144, semmask := 2 ^ 32 - 1, ceils := List.replicate 32 2047 }

/-- Its launch, running on core 0. -/
def placedLaunch (id : Nat) : Launch :=
  { id, st := .running, queue := 0, slot := 0, fn := 0, pkt := placedPacket, hdr := some placedHeader, step := 0, node := none
    cores := [⟨0, 0⟩], walker := 0, hand := [], iterQ := [], ended := [], iters := 0, bars := [], fault := none, nfault := []
    held := [], status := 0, pcs := [], tdisp := 0, tend := 0, saved := [], pf := none, pfSched := false, preq := false, key := [] }

/-- The engine that fetches a word: the one it is for (02 R38), or S. -/
def engineOf (w : Nat) : Engine :=
  match tagOf w with
  | 1 => .A | 2 => .M | 3 => .V | 4 => .T | 5 => .F | _ => .S

/-- The words of a number, the first in its low 32 bits. -/
def wordsFrom : Nat → Nat → Nat → Sparse Nat
  | 0, _, _ => []
  | n + 1, k, w => if w % 2 ^ 32 = 0 then wordsFrom n (k + 1) (w / 2 ^ 32) else (k, w % 2 ^ 32) :: wordsFrom n (k + 1) (w / 2 ^ 32)

/-- Words put over the text from an index on. -/
def Bank.placeText (b : Bank) (pc : Nat) (w : Nat) : Bank :=
  { b with text := (wordsFrom 8 0 w).foldl (fun t p => spPut 0 t (pc + p.1) p.2) (spPutN 0 b.text pc (List.replicate 8 0)) }

/-- A state in which core 0 runs a launch and the engine of the word has the next turn, with the word at its program counter. -/
def State.placeWord (s : State) (w : Nat) : State :=
  let e := engineOf (w % 2 ^ 32)
  let id := s.newId.1
  let b := (s.bank ⟨0, 0⟩)
  let b := { b with st := .run, launch := some id, hdr := placedHeader }.placeText (b.eng e).pc w
  let s := s.setBank ⟨0, 0⟩ b
  let k := { s.core 0 with run := some 0 }
  { s.setCore 0 k with
    nextId := s.nextId + 1
    launches := s.launches ++ [placedLaunch id]
    agenda := .engine 0 e true :: s.agenda
    regs := { s.regs with ready := .ready } }

end Sys2Proof.Machine
end

