-- ==== Sys2Proof/Machine/Step.lean ====
section
/-!
DEFINITION. The step of the machine: the next turn is taken, and the engine or event it names moves (log entry 3).
-/

namespace Sys2Proof.Machine

/-- One engine goes one word on. -/
def stepEngine (s : State) : Host.Outcome State Fault Refusal :=
  match s.fetch with
  | .done s => .next s
  | .run i s => exec i s

/-- Bring-up goes on, its training and tests coming out well (15 R485, R486). -/
def stepTrain (s : State) : Host.Outcome State Fault Refusal :=
  match s.regs.ready with
  | .reset | .fwverify => execFwverify s
  | .hbmtrain => execHbmtrain 0 s
  | .linktrain => execLinktrain [] s
  | .selftest => execSelftest true s
  | .ready | .fail => .next s

/-- One turn. -/
def stepTurn (t : Turn) (s : State) : Host.Outcome State Fault Refusal :=
  match t with
  | .engine core e eager =>
    match s.pointAt core e eager with
    | some s => stepEngine s
    | none => .next s
  | .event i => if (Instr.head i).isSome then .next s else exec i s
  | .transform l => .next (s.onBank l Bank.stepT)
  | .net t => s.netTurn t
  | .port die port => execFlitTransmit die port s
  | .train => stepTrain s
  | .elapse cycles ns => .next (s.elapse exec cycles ns)

/-- One step. Once bring-up has failed and nothing more is to come, the machine stops (15 R485). -/
def step (s : State) : Host.Outcome State Fault Refusal :=
  if s.regs.ready = .fail ∧ s.agenda = [] then .fault .bringUpFailed
  else stepTurn s.takeTurn.1 s.takeTurn.2

/-- The state with the instruction whose bits are `w` where the next step fetches (log entry 8). -/
def State.withFetchWord (s : State) (nbits w : Nat) : State := s.placeWord (w % 2 ^ nbits)

end Sys2Proof.Machine
end

