-- ==== Sys2Proof/Safety.lean ====
section
/-!
DEFINITION. What counts as a safe run (no step of it ends in a fault of the model or a refusal), and the terms that claims about a step are made in:
the pieces of a bank, what a word leaves as it was, and how its engine moves on.
-/

namespace Sys2Proof

/-- A number of steps that all answer a next state. -/
def Safety.runs : Nat → Machine.State → Bool
  | 0, _ => true
  | n + 1, s => match Machine.step s with
    | .next s => Safety.runs n s
    | _ => false

/-- A state from which every number of steps answers a next state. -/
def Safety.Safe (s : Machine.State) : Prop := ∀ n, Safety.runs n s = true

end Sys2Proof

namespace Sys2Proof.Machine

/-! ## Pieces of a bank -/

/-- A piece of a context bank: a register file, a unit's own registers, a queue, a table. -/
inductive BankPart where
  | sregs | aregs | vregs | kregs | zregs | bufs | cells | mregs | mbinds | window | tplans | twork
  | aflags | mflags | vflags | tflags | fflags
  | share | accesses | streams | parked | fabric | counters | copies | own
  | ds | da | dv | dt | cq
  | sems | ctl | rings | records
  deriving DecidableEq, Repr

/-- The pieces that the retirement of a word may change (02 R42; 04 R100, 08 R268, 10 R343, 11 R369): semaphores, written control registers, ring slots,
tensor records, results of S and V, the statuses of M, V and T, and an entry of `ds` that takes one, and T's started word. -/
def BankPart.late : BankPart → Bool
  | .sems | .ctl | .rings | .records | .sregs | .vregs | .kregs | .zregs | .bufs | .cells | .streams | .mflags | .vflags | .tflags | .ds | .twork => true
  | _ => false

/-- The entries of a queue without their visibility (04 R102). -/
def Bank.entries (b : Bank) (q : QName) : List (Nat × Reg64) := (b.queues.get q).map (fun x => (x.walk, x.val))

/-- Two banks agree on a piece. -/
def BankPart.same (b c : Bank) : BankPart → Prop
  | .sregs => b.seq.s = c.seq.s
  | .aregs => b.acc.a = c.acc.a
  | .vregs => b.vec.v = c.vec.v
  | .kregs => b.vec.k = c.vec.k
  | .zregs => b.vec.z = c.vec.z
  | .bufs => b.vec.cb = c.vec.cb ∧ b.vec.stage = c.vec.stage
  | .cells => b.mx.acc = c.mx.acc ∧ b.mx.sat = c.mx.sat
  | .mregs => b.mx.rows = c.mx.rows ∧ b.mx.cols = c.mx.cols ∧ b.mx.cseq = c.mx.cseq ∧ b.mx.negp = c.mx.negp ∧ b.mx.za = c.mx.za ∧ b.mx.zb = c.mx.zb
  | .mbinds => b.mx.bind = c.mx.bind
  | .window => b.mx.win = c.mx.win ∧ b.mx.run = c.mx.run ∧ b.mx.mid = c.mx.mid ∧ b.mx.owed = c.mx.owed ∧ b.mx.raised = c.mx.raised
  | .tplans => b.tx.plans = c.tx.plans ∧ b.tx.bind = c.tx.bind
  | .aflags => b.acc.flags = c.acc.flags ∧ b.acc.conf = c.acc.conf ∧ b.acc.misses = c.acc.misses
  | .mflags => b.mx.flags = c.mx.flags
  | .vflags => b.vec.flags = c.vec.flags
  | .twork => b.tx.work = c.tx.work
  | .tflags => b.tx.flags = c.tx.flags
  | .fflags => b.fab.flags = c.fab.flags ∧ b.fab.mcfail = c.fab.mcfail ∧ b.fab.late = c.fab.late ∧ b.fab.fmc = c.fab.fmc
  | .share => b.acc.sp0 = c.acc.sp0 ∧ b.acc.bad = c.acc.bad
  | .accesses => b.acc.out = c.acc.out ∧ b.acc.relBar = c.acc.relBar ∧ b.acc.acqBar = c.acc.acqBar ∧ b.acc.xpBar = c.acc.xpBar
  | .streams => b.acc.q = c.acc.q
  | .parked => b.acc.park = c.acc.park ∧ b.acc.pf = c.acc.pf
  | .fabric => b.fab.targets = c.fab.targets ∧ b.fab.reqs = c.fab.reqs ∧ b.fab.acqBar = c.fab.acqBar ∧ b.fab.relBar = c.fab.relBar ∧ b.fab.fenced = c.fab.fenced ∧ b.fab.fenceIds = c.fab.fenceIds
      ∧ b.fab.subs = c.fab.subs ∧ b.fab.fan = c.fab.fan ∧ b.fab.drift = c.fab.drift ∧ b.fab.fdrift = c.fab.fdrift
  | .counters => b.fab.fc = c.fab.fc
  | .copies => b.car.ch = c.car.ch ∧ b.car.sched = c.car.sched
  | .own => b.launch = c.launch ∧ b.ctx = c.ctx ∧ b.hdr = c.hdr ∧ b.text = c.text ∧ b.evict = c.evict ∧ b.seq.t0 = c.seq.t0 ∧ b.seq.iterno = c.seq.iterno
      ∧ b.seq.arrive = c.seq.arrive ∧ b.seq.cairn = c.seq.cairn ∧ b.seq.iterReq = c.seq.iterReq ∧ b.seq.iterAns = c.seq.iterAns
      ∧ b.seq.stage = c.seq.stage ∧ b.seq.place = c.seq.place ∧ b.seq.wbase = c.seq.wbase ∧ b.seq.kept = c.seq.kept
  | .ds => b.entries .ds = c.entries .ds
  | .da => b.entries .da = c.entries .da
  | .dv => b.entries .dv = c.entries .dv
  | .dt => b.entries .dt = c.entries .dt
  | .cq => b.entries .cq = c.entries .cq
  | .sems => b.seq.sem = c.seq.sem
  | .ctl => b.seq.slipw = c.seq.slipw ∧ b.mx.shown = c.mx.shown ∧ b.car.csched = c.car.csched
  | .rings => b.car.rings = c.car.rings
  | .records => b.acc.td = c.acc.td

/-- No word has issued without retiring, and no signal waits for room. -/
def Bank.calm (b : Bank) : Prop := ∀ e, (b.eng e).rets = [] ∧ (b.eng e).pend = []

/-- Two engines agree on everything but tokens and the words that have still to retire. -/
def EngSt.sameWalk (x y : EngSt) : Prop :=
  x.pc = y.pc ∧ x.walk = y.walk ∧ x.stack = y.stack ∧ x.lc = y.lc ∧ x.start = y.start ∧ x.sten = y.sten ∧ x.boq = y.boq ∧ x.rot = y.rot
    ∧ x.loops = y.loops

/-! ## What a word leaves -/

/-- The package beside the bank that has the turn is as it was: memory, contexts, queues, registers of the host, links, time, every other bank but for
its state. Unless the word's core has taken a fault, the launches and the states of the banks are as they were too. -/
def Kept (s t : State) : Prop :=
  t.part = s.part ∧ t.mem = s.mem ∧ t.bad = s.bad ∧ t.ctxs = s.ctxs ∧ t.queues = s.queues ∧ t.graphs = s.graphs ∧ t.watches = s.watches
    ∧ t.platw = s.platw ∧ t.migs = s.migs ∧ t.transit = s.transit ∧ t.busy = s.busy ∧ t.trav = s.trav ∧ t.regs = s.regs ∧ t.net = s.net
    ∧ t.dtime = s.dtime ∧ t.cycle = s.cycle ∧ t.nextId = s.nextId ∧ t.freeCtr = s.freeCtr ∧ t.cur = s.cur ∧ t.agenda = s.agenda ∧ t.rr = s.rr
    ∧ (∀ c, (t.core c).run = (s.core c).run ∧ (t.core c).tlb = (s.core c).tlb ∧ (t.core c).plat = (s.core c).plat)
    ∧ (∀ l, l ≠ s.cur.loc → ({ t.bank l with st := (s.bank l).st } : Bank) = s.bank l)
    ∧ (t.here.flt = none → t.launches = s.launches ∧ ∀ l, (t.bank l).st = (s.bank l).st)

/-- Every piece of the bank that has the turn but for some is as it was; what retirement changes, if no earlier word was in flight. -/
def Frame (ex : List BankPart) (s t : State) : Prop :=
  Kept s t ∧ ∀ p, p ∉ ex → (p.late = true → s.here.calm) → BankPart.same t.here s.here p

/-- An engine goes past a word: to a target, or to the word behind it and its extension words. The other engines stay where they are. -/
def Moved (s t : State) (e : Engine) (ext : Nat) (jump : Option Nat) : Prop :=
  (t.here.eng e).pc = jump.getD ((s.here.eng e).pc + 1 + ext) ∧ (t.here.eng e).walk = (s.here.eng e).walk + 1 + ext
    ∧ ∀ f, f ≠ e → (t.here.eng f).sameWalk (s.here.eng f)

/-- The engine's loop counters, starts, return addresses, branch outcomes and rotation are as they were. -/
def SameLoops (s t : State) (e : Engine) : Prop :=
  (t.here.eng e).sameWalk { s.here.eng e with pc := (t.here.eng e).pc, walk := (t.here.eng e).walk }

/-- A word may issue: its core issues, and the tokens it waits for are there (02 R41). -/
def Ready (i : Instr) (s : State) : Prop := s.here.live = true ∧ s.here.tokensOk (Instr.hd i) = true

/-- The signals of a word fit (02 R42). -/
def Fits (i : Instr) (b : Bank) : Prop :=
  b.roomBefore (Instr.hd i).eng (Instr.hd i).dep.sp = true ∧ b.roomAfter (Instr.hd i).eng (Instr.hd i).dep.sn = true

/-- A word completes: `exec` answers a next state of which `R` holds, its engine has gone past it, and what it does not name is as it was. -/
def Does (i : Instr) (s : State) (ex : List BankPart) (R : State → Prop) : Prop :=
  ∃ t, exec i s = .next t ∧ R t ∧ Frame ex s t ∧ Moved s t (Instr.hd i).eng (Instr.hd i).ext none ∧ SameLoops s t (Instr.hd i).eng

/-- A word completes: `exec` answers a next state in which the bank that has the turn agrees with `b` in every piece, in those that retirement changes if no
earlier word is in flight and the word's signals fit; the package beside it is as in `u`, and the word's engine has gone past it. -/
def Gives (i : Instr) (s u : State) (b : Bank) : Prop :=
  ∃ t, exec i s = .next t ∧ Kept u t ∧ (∀ p : BankPart, (p.late = true → s.here.calm ∧ Fits i s.here) → BankPart.same t.here b p)
    ∧ Moved s t (Instr.hd i).eng (Instr.hd i).ext none ∧ SameLoops s t (Instr.hd i).eng

/-- An engine meets a word to run it: S may issue it, any other engine may observe it (02 R56); a parked A does neither (07 R242). -/
def Meets (i : Instr) (s : State) : Prop :=
  if s.cur.eng = .S then Ready i s else s.here.live = true ∧ (s.cur.eng = .A → s.here.acc.park = none)

/-- A flow word completes on the engine that has the turn, and leaves each engine's walk as `g` says. -/
def Flows (i : Instr) (s : State) (ex : List BankPart) (g : Engine → EngSt) (R : State → Prop) : Prop :=
  ∃ t, exec i s = .next t ∧ R t ∧ Frame ex s t ∧ ∀ e, (t.here.eng e).sameWalk (g e)

/-- A word that every engine passes completes: the bank that has the turn agrees with `b`, the package beside it is as in `u`, and each engine's walk is as `g`
says. -/
def Passes (i : Instr) (s u : State) (b : Bank) (g : Engine → EngSt) : Prop :=
  ∃ t, exec i s = .next t ∧ Kept u t ∧ (∀ p : BankPart, (p.late = true → s.here.calm ∧ Fits i s.here) → BankPart.same t.here b p)
    ∧ ∀ e, (t.here.eng e).sameWalk (g e)

/-- The issue of a word whose effects at issue are done: it pops its tokens, joins the words that have still to retire, its engine moves on, and what may
retire retires (02 R41, R42, R51). -/
def State.issue (s : State) (i : Instr) (p : Plain) : State :=
  (s.setBank s.cur.loc (s.here.issued (Instr.hd i) p)).noteFault s.cur.loc

end Sys2Proof.Machine
end

