-- ==== Sys2Proof/Certificates/Slice0/Obligations.lean ====
section
/-!
DEFINITION. The statements made of the model, for the provers.
-/

namespace Sys2Proof.Machine

/-! ## Terms of the statements -/

/-- The dependency bits of a word whose extension words have none. -/
def headDep (h : BitVec 4) : Dep := ⟨h, 0, 0, 0⟩

/-- Entry of a value in a queue at a walk position, before the first entry of a later word (04 R102). -/
def entered (l : List (Nat × Reg64)) (w : Nat) (v : Reg64) : List (Nat × Reg64) :=
  l.takeWhile (fun x => decide (x.1 ≤ w)) ++ (w, v) :: l.dropWhile (fun x => decide (x.1 ≤ w))

/-- A word of S completes, and writes one register as it retires: at once if no earlier word is in flight and its signals fit (04 R100). A write of `s0` is
discarded and `s0` reads zero (04 R99). -/
def SetsS (i : Instr) (s : State) (ex : List BankPart) (d : SReg) (v : Reg64) (R : State → Prop) : Prop :=
  Does i s (.sregs :: ex) (fun t =>
    (s.here.calm → Fits i s.here → ∀ r, t.here.sreg r = if r = 0 then 0 else if r = d then v else s.here.sreg r) ∧ R t)

/-- No word of S that has issued has still to write one of these registers (04 R100). -/
def SFree (s : State) (regs : List SReg) : Prop := s.here.pending .S (regs.map (·.val)) = false

end Sys2Proof.Machine

open Sys2Proof Sys2Proof.Machine

/-! ## Sequencer words (04) -/

/-- R105: the integer words of S write `sd` from `sa` and `sb`; shifts by 64 or more give 0. Nothing else changes.
R104, R106, R107: `NOP` changes nothing; `LI` and `MOV` write a register; `MOV sd, ds` takes the head of `ds`; `MOV` into `da`, `dv`, `dt` enters one
entry at the word's walk position.
R108: `CMP` computes a bit under its condition, into `sd` and, unless `.nq`, into `CQ`.
R104, R105: the words of the eight and of `NOP`. -/
def Obligations.ScalarWords : Prop :=
  (∀ (s : State) (m : Dep) (d a b : SReg), SFree s [d, a, b] →
    let x := s.here.sreg a
    let y := s.here.sreg b
    (Ready (.add m d a b) s → SetsS (.add m d a b) s [] d (x + y) (fun _ => True))
    ∧ (Ready (.sub m d a b) s → SetsS (.sub m d a b) s [] d (x - y) (fun _ => True))
    ∧ (Ready (.mul m d a b) s → SetsS (.mul m d a b) s [] d (x * y) (fun _ => True))
    ∧ (Ready (.and m d a b) s → SetsS (.and m d a b) s [] d (x &&& y) (fun _ => True))
    ∧ (Ready (.or m d a b) s → SetsS (.or m d a b) s [] d (x ||| y) (fun _ => True))
    ∧ (Ready (.xor m d a b) s → SetsS (.xor m d a b) s [] d (x ^^^ y) (fun _ => True))
    ∧ (Ready (.shl m d a b) s → SetsS (.shl m d a b) s [] d (if y.toNat < 64 then BitVec.ofNat 64 (x.toNat * 2 ^ y.toNat) else 0) (fun _ => True))
    ∧ (Ready (.shr m d a b) s → SetsS (.shr m d a b) s [] d (if y.toNat < 64 then BitVec.ofNat 64 (x.toNat / 2 ^ y.toNat) else 0) (fun _ => True)))
  ∧ ((∀ (s : State) (m : Dep) (d a : SReg),
      let w := s.here.engs.S.walk
      (Ready (.nop m) s → Does (.nop m) s [] (fun _ => True))
      ∧ (∀ xc imm, Ready (.li m xc d imm) s → SFree s [d] → SetsS (.li m xc d imm) s [] d imm (fun _ => True))
      ∧ (Ready (.mov m d a) s → SFree s [d, a] → SetsS (.mov m d a) s [] d (s.here.sreg a) (fun _ => True))
      ∧ (∀ v, Ready (.movFromDs m d) s → SFree s [d] → s.here.peek .ds w = some v →
          SetsS (.movFromDs m d) s [.ds] d v (fun t => t.here.entries .ds = (s.here.entries .ds).drop 1))
      ∧ (Ready (.movToDa m a) s → SFree s [a] → s.here.room .da 1 = true →
          Does (.movToDa m a) s [.da] (fun t => t.here.entries .da = entered (s.here.entries .da) w (s.here.sreg a)))
      ∧ (Ready (.movToDv m a) s → SFree s [a] → s.here.room .dv 1 = true →
          Does (.movToDv m a) s [.dv] (fun t => t.here.entries .dv = entered (s.here.entries .dv) w (s.here.sreg a)))
      ∧ (Ready (.movToDt m a) s → SFree s [a] → s.here.room .dt 1 = true →
          Does (.movToDt m a) s [.dt] (fun t => t.here.entries .dt = entered (s.here.entries .dt) w (s.here.sreg a))))
    ∧ (∀ (s : State) (m : Dep) (cc : Cond) (d a b : SReg), SFree s [d, a, b] →
      let x := s.here.sreg a
      let y := s.here.sreg b
      let c : Bool := match cc with
        | .eq => decide (x = y) | .ne => decide (x ≠ y) | .lt => decide (x.toInt < y.toInt) | .ge => decide (y.toInt ≤ x.toInt)
        | .ltu => decide (x.toNat < y.toNat) | .geu => decide (y.toNat ≤ x.toNat) | .tst => decide (x &&& y ≠ 0) | .tnz => decide (x &&& y = 0)
      let v : Reg64 := if c then 1 else 0
      (Ready (.cmp m cc true d a b) s → SetsS (.cmp m cc true d a b) s [] d v (fun _ => True))
      ∧ (Ready (.cmp m cc false d a b) s → s.here.room .cq 1 = true →
          SetsS (.cmp m cc false d a b) s [.cq] d v (fun t => t.here.entries .cq = entered (s.here.entries .cq) s.here.engs.S.walk v))))
  ∧ (∀ (h : BitVec 4) (d a b : SReg),
    let w (op : Nat) : List Nat := [2 ^ 25 * h.toNat + 2 ^ 18 * op + 2 ^ 12 * d.val + 2 ^ 6 * a.val + b.val]
    let m := headDep h
    decode (w 1) = .ok (.add m d a b, []) ∧ decode (w 2) = .ok (.sub m d a b, []) ∧ decode (w 3) = .ok (.mul m d a b, [])
    ∧ decode (w 4) = .ok (.and m d a b, []) ∧ decode (w 5) = .ok (.or m d a b, []) ∧ decode (w 6) = .ok (.xor m d a b, [])
    ∧ decode (w 7) = .ok (.shl m d a b, []) ∧ decode (w 8) = .ok (.shr m d a b, []))
  ∧ (∀ (h : BitVec 4) (n : Nat), n < 2 ^ 18 → decode [2 ^ 25 * h.toNat + n] = if n = 0 then .ok (.nop (headDep h), []) else .error .reserved)

/-! ### Semaphores (R117, R118) -/

namespace Sys2Proof.Machine

/-- A wait on a semaphore completes once the count is high enough, and takes its value off the count (04 R118). -/
def Waits (i : Instr) (s : State) (ex : List BankPart) (n : Fin 32) (v : Nat) : Prop :=
  Ready i s → s.here.calm → v ≤ s.here.semCeil n → v ≤ s.here.semCount n →
    Does i s (.sems :: ex) (fun t => ∀ k, t.here.semCount k = if k = n then s.here.semCount n - v else s.here.semCount k)

/-- A signal on a semaphore adds its value to the count as the word retires, if the sum does not pass the ceiling (04 R118). -/
def Signals (i : Instr) (s : State) (n : Fin 32) (v : Nat) : Prop :=
  Ready i s → s.here.calm → Fits i s.here → s.here.semCount n + v ≤ s.here.semCeil n →
    Does i s [.sems] (fun t => ∀ k, t.here.semCount k = if k = n then s.here.semCount n + v else s.here.semCount k)

end Sys2Proof.Machine

/-- R118, 10 R361, 11 R389: `SEM.WAIT`, `MX.SEM.wait` and `TX.SEM.wait` take their value off the count once it is that high; `SEM.SIG`, `MX.SEM.sig` and
`TX.SEM.sig` add theirs as they retire. Said of a turn in which no earlier word is in flight; a word of M leaves its window at once where no other is in it.
R118: past the ceiling a wait faults at once and a signal as it retires, both with `F_SEM_CEIL`; the count stays. A wait above the count does not issue.
The words of `SEM.SIG` and `SEM.WAIT`. -/
def Obligations.Semaphores : Prop :=
  (∀ (s : State) (m : Dep) (n : Fin 32),
    (∀ val : BitVec 12, Waits (.semWaitImm m n val) s [] n val.toNat ∧ Signals (.semSigImm m n val) s n val.toNat)
    ∧ (∀ r : SReg, Waits (.semWaitReg m n r) s [] n (s.here.sreg r).toNat ∧ Signals (.semSigReg m n r) s n (s.here.sreg r).toNat)
    ∧ (∀ val : BitVec 11, s.cur.eager = false →
        (s.here.mx.win.length < 16 → s.here.mx.run.isSome = true → Waits (.mxSemWait m n val) s [.window] n val.toNat)
        ∧ (s.here.mx.win = [] → s.here.mx.run = none → Waits (.mxSemWait m n val) s [] n val.toNat ∧ Signals (.mxSemSig m n val) s n val.toNat))
    ∧ (∀ val : BitVec 11, s.cur.eager = false → Waits (.txSemWait m n val) s [] n val.toNat ∧ Signals (.txSemSig m n val) s n val.toNat))
  ∧ (∀ (s : State) (m : Dep) (n : Fin 32), s.here.calm →
    let high (i : Instr) (v : Nat) : Prop := Ready i s → s.here.semCeil n < v → ∃ t, exec i s = .next t
      ∧ t.here.flt = some ⟨.semCeil, s.here.engs.S.pc, 0⟩ ∧ t.here.seq.sem = s.here.seq.sem ∧ t.here.engs = s.here.engs
    let low (i : Instr) (v : Nat) : Prop := Ready i s → v ≤ s.here.semCeil n → s.here.semCount n < v → ∃ t, exec i s = .next t ∧ t.here = s.here
    let past (i : Instr) (v : Nat) : Prop := Ready i s → Fits i s.here → s.here.semCeil n < s.here.semCount n + v →
      ∃ t, exec i s = .next t ∧ t.here.flt = some ⟨.semCeil, s.here.engs.S.pc, 0⟩ ∧ t.here.seq.sem = s.here.seq.sem
    (∀ val : BitVec 12, high (.semWaitImm m n val) val.toNat ∧ low (.semWaitImm m n val) val.toNat ∧ past (.semSigImm m n val) val.toNat)
    ∧ (∀ r : SReg, high (.semWaitReg m n r) (s.here.sreg r).toNat ∧ low (.semWaitReg m n r) (s.here.sreg r).toNat
        ∧ past (.semSigReg m n r) (s.here.sreg r).toNat))
  ∧ (∀ (h : BitVec 4) (n : Fin 32) (val : BitVec 12) (u r : Fin 64),
    let w (op : Nat) : Nat := 2 ^ 25 * h.toNat + 2 ^ 18 * op + 2 ^ 13 * n.val
    let m := headDep h
    decode [w 0x13 + val.toNat] = .ok (.semSigImm m n val, []) ∧ decode [w 0x14 + val.toNat] = .ok (.semWaitImm m n val, [])
    ∧ (decode [w 0x13 + 2 ^ 12 + 2 ^ 6 * u.val + r.val] = if u = 0 then .ok (.semSigReg m n r, []) else .error .reserved)
    ∧ (decode [w 0x14 + 2 ^ 12 + 2 ^ 6 * u.val + r.val] = if u = 0 then .ok (.semWaitReg m n r, []) else .error .reserved))

/-! ### Control registers (R132, R133; 02 R53; 09 R320) -/

/-- R132, 02 R53, 09 R320: `CSR.rd` reads a register as it stands at issue; `CSR.wr` sets `SLIPW` to a value cut to 16 to 4096, raises `CSCHED`, and does
nothing to a register that software cannot write.
R133 and the tables it gathers: what some control registers of a core read, among them 02 R62, the fields of `BOQOCC`,
and `CQOCC`, whose count stops at the first entry that is not visible.
02 R53: a bank that is placed begins with the header's `SLIPW`, or 1024.
Rests on log entry 48. -/
def Obligations.ControlRegisters : Prop :=
  (∀ (s : State) (m : Dep) (r : SReg) (csr : BitVec 11), s.here.csrPending = false → SFree s [r] →
    (Ready (.csrRd m r csr) s → SetsS (.csrRd m r csr) s [] r (s.csrVal s.cur.loc csr.toNat) (fun _ => True))
    ∧ (Ready (.csrWr m r csr) s → s.here.calm → Fits (.csrWr m r csr) s.here →
        Does (.csrWr m r csr) s [.ctl] (fun t =>
          t.here.seq.slipw = (if csr.toNat = 0x010 then max 16 (min 4096 ((s.here.sreg r).toNat % 2 ^ 13)) else s.here.seq.slipw)
          ∧ t.here.car.csched = (if csr.toNat = 0x189 then BitVec.ofNat 32 (max s.here.car.csched.toNat ((s.here.sreg r).toNat % 2 ^ 32)) else s.here.car.csched)
          ∧ t.here.mx.shown = s.here.mx.shown)))
  ∧ (∀ (s : State) (l : Loc),
    let b := s.bank l
    s.csrVal l 0x000 = BitVec.ofNat 64 b.seq.stage ∧ s.csrVal l 0x001 = BitVec.ofNat 64 s.cycle ∧ s.csrVal l 0x010 = BitVec.ofNat 64 b.seq.slipw
    ∧ s.csrVal l 0x014 = BitVec.ofNat 64 b.seq.wdog
    ∧ (let v := (s.csrVal l 0x012).toNat
       v < 2 ^ 35 ∧ ∀ x ∈ [(Engine.A, 0), (.M, 7), (.V, 14), (.T, 21), (.F, 28)], v / 2 ^ x.2 % 2 ^ 7 = (b.eng x.1).boq.length % 2 ^ 7)
    ∧ (b.queues.cq.length ≤ 16 →
       let v := (s.csrVal l 0x013).toNat
       let vis := b.queues.cq.takeWhile (·.vis)
       v / 2 ^ 16 = vis.length ∧ ∀ i, i < 16 → v / 2 ^ i % 2 = ((vis.drop i).head?.map (fun x => x.val.toNat % 2)).getD 0)
    ∧ (∀ n : Fin 4, s.csrVal l (0x020 + n.val) = spGet 0 b.engs.S.lc n.val)
    ∧ (∀ n : Fin 32, s.csrVal l (0x040 + n.val) = BitVec.ofNat 64 (b.semCount n + 2 ^ 16 * b.semCeil n + 2 ^ 28 * (if bitAt b.hdr.semmask n.val then 1 else 0)))
    ∧ s.csrVal l 0x101 = BitVec.ofNat 64 b.hdr.spad
    ∧ (∀ n : Fin 8, s.csrVal l (0x180 + n.val) = (b.chan n.val).cwp)
    ∧ s.csrVal l 0x189 = BitVec.ofNat 64 b.car.csched.toNat
    ∧ s.csrVal l 0x200 = BitVec.ofNat 64 b.mx.flags.toNat ∧ s.csrVal l 0x201 = b.mx.shown ∧ s.csrVal l 0x202 = BitVec.ofNat 64 b.mx.cseq.toNat
    ∧ s.csrVal l 0x300 = BitVec.ofNat 64 b.vec.flags.toNat ∧ s.csrVal l 0x400 = BitVec.ofNat 64 b.tx.flags.toNat
    ∧ s.csrVal l 0x501 = b.fab.fmc ∧ s.csrVal l 0x505 = BitVec.ofNat 64 b.fab.fdrift
    ∧ (∀ n : Fin 16, s.csrVal l (0x510 + n.val) = BitVec.ofNat 64 (spGet 0 b.fab.fc n.val).toNat))
  ∧ (∀ (d : List Byte) (image : Nat) (h : Header), parseHeader d image = some h →
    (h.slipw = if blkNum d 0x1E 2 = 0 then 1024 else blkNum d 0x1E 2) ∧ 16 ≤ h.slipw ∧ h.slipw ≤ 4096)
  ∧ (∀ (s : State) (x : Launch) (h : Header) (l : Loc) (place : Nat), x.hdr = some h → ((s.placeAt x l place).bank l).seq.slipw = h.slipw)

/-! ### Flow words (R109 to R115; 02 R56 to R59) -/

/-- R109: `BR` takes every engine to its target; `CALL` pushes the next index on the engine's own stack and goes to its target; `RET` pops the stack.
R109, 02 R57, R59: a conditional branch of S takes the head of `CQ`, goes by it, and publishes it to the five other engines; each of these takes its
own copy. A call over sixteen deep and a return from an empty stack take `F_STACK`. -/
def Obligations.Branches : Prop :=
  (∀ (s : State) (m : Dep) (off : BitVec 18),
    let e := s.cur.eng
    let x := s.here.eng e
    let there : Nat := ((x.pc : Int) + off.toInt).toNat
    let on (y : EngSt) : Engine → EngSt := fun f => if f = e then { y with walk := x.walk + 1 } else s.here.eng f
    (Meets (.br m off) s → Flows (.br m off) s [] (on { x with pc := there }) (fun _ => True))
    ∧ (Meets (.call m off) s → x.stack.length < 16 → Flows (.call m off) s [] (on { x with pc := there, stack := (x.pc + 1) :: x.stack }) (fun _ => True))
    ∧ (∀ a rest, Meets (.ret m) s → x.stack = a :: rest → Flows (.ret m) s [] (on { x with pc := a, stack := rest }) (fun _ => True)))
  ∧ (∀ (s : State) (m : Dep) (off : BitVec 18),
    let e := s.cur.eng
    let x := s.here.eng e
    let there : Nat := ((x.pc : Int) + off.toInt).toNat
    (∀ v, e = .S → Meets (.brc m off) s → s.here.peek .cq x.walk = some v → s.here.boqRoom = true →
      Flows (.brc m off) s [.cq]
        (fun f => if f = .S then { x with pc := if v = 1 then there else x.pc + 1, walk := x.walk + 1 }
          else { s.here.eng f with boq := (s.here.eng f).boq ++ [⟨v, []⟩] })
        (fun t => t.here.entries .cq = (s.here.entries .cq).drop 1))
    ∧ (∀ o rest, e ≠ .S → Meets (.brc m off) s → x.boq = o :: rest →
      Flows (.brc m off) s []
        (fun f => if f = e then { x with pc := if o.val = 1 then there else x.pc + 1, walk := x.walk + 1, boq := rest } else s.here.eng f) (fun _ => True))
    ∧ (Meets (.call m off) s → 16 ≤ x.stack.length → ∃ t, exec (.call m off) s = .next t ∧ t.here.flt = some ⟨.stack, x.pc, 0⟩ ∧ t.here.engs = s.here.engs)
    ∧ (Meets (.ret m) s → x.stack = [] → ∃ t, exec (.ret m) s = .next t ∧ t.here.flt = some ⟨.stack, x.pc, 0⟩ ∧ t.here.engs = s.here.engs))

/-- R111, R113: `LOOP` loads the engine's counter and start, or skips a loop of count 0; `LEXIT` leaves a loop when the outcome is 1. The count in a
register and the outcome of `LEXIT` are published by S.
R112, R115: `ENDL` counts down and goes back to the start while the count is not 0; `ENDL.rot` turns A's base registers and V's scale registers by
one and shifts the stage-enable register. -/
def Obligations.Loops : Prop :=
  (∀ (s : State) (m : Dep) (lc : Fin 4) (off : BitVec 17),
    let e := s.cur.eng
    let x := s.here.eng e
    let w := x.walk + 1
    let entering (n : Reg64) (f : EngSt) : EngSt := { f with
      pc := if n = 0 then f.pc + off.toNat + 1 else f.pc + 1 + 1, walk := f.walk + 2, lc := spPut 0 f.lc lc.val n, start := spPut 0 f.start lc.val (f.pc + 2)
      loops := spPut 0 f.loops lc.val (spGet 0 f.loops lc.val + 1)
      sten := if (assoc s.here.hdr.rots lc.val).isSome then (if n = 0 then 0xFF else 0x01) else f.sten }
    (∀ n : BitVec 15, Meets (.loop m lc (.imm n) off) s →
      Flows (.loop m lc (.imm n) off) s [] (fun f => if f = e then entering (n.zeroExtend 64) x else s.here.eng f) (fun _ => True))
    ∧ (∀ r : SReg, e = .S → Meets (.loop m lc (.reg r) off) s → SFree s [r] → s.here.boqRoom = true →
      Flows (.loop m lc (.reg r) off) s []
        (fun f => if f = .S then entering (s.here.sreg r) x else { s.here.eng f with boq := (s.here.eng f).boq ++ [⟨s.here.sreg r, []⟩] }) (fun _ => True))
    ∧ (∀ (r : SReg) (o : BoqEnt) (rest : List BoqEnt), e ≠ .S → Meets (.loop m lc (.reg r) off) s → x.boq = o :: rest →
      Flows (.loop m lc (.reg r) off) s [] (fun f => if f = e then entering o.val { x with boq := rest } else s.here.eng f) (fun _ => True))
    ∧ (∀ (c : Bool) (o : BoqEnt) (rest : List BoqEnt) (k : Nat) (rot : Bool), e ≠ .S → Meets (.lexit m c off) s →
      x.boq = o :: rest → s.here.endlAt (x.pc + off.toNat) = some (k, rot) →
      Flows (.lexit m c off) s (if e = .A ∧ c = true then [.copies] else [])
        (fun f => if f = e then (if o.val = 1 then { x with pc := x.pc + off.toNat + 1, walk := w, boq := rest, lc := spPut 0 x.lc k 0
                                                            sten := if rot then 0xFF else x.sten }
          else { x with pc := x.pc + 1, walk := w, boq := rest }) else s.here.eng f)
        (fun t => e = .A → c = true → t.here.car.ch = if o.val = 1 then (s.here.stopCopies false (fun q => q.armedFor x.loops k)).car.ch else s.here.car.ch))
    ∧ (∀ (c : Bool) (v : Reg64) (k : Nat) (rot : Bool), e = .S → Meets (.lexit m c off) s → s.here.peek .cq x.walk = some v → s.here.boqRoom = true →
      s.here.endlAt (x.pc + off.toNat) = some (k, rot) →
      Flows (.lexit m c off) s [.cq]
        (fun f => if f = .S then (if v = 1 then { x with pc := x.pc + off.toNat + 1, walk := w, lc := spPut 0 x.lc k 0, sten := if rot then 0xFF else x.sten }
            else { x with pc := x.pc + 1, walk := w })
          else { s.here.eng f with boq := (s.here.eng f).boq ++ [⟨v, []⟩] })
        (fun t => t.here.entries .cq = (s.here.entries .cq).drop 1)))
  ∧ (∀ (s : State) (m : Dep) (lc : Fin 4),
    let e := s.cur.eng
    let x := s.here.eng e
    let c := spGet 0 x.lc lc.val
    let next : Nat := if c - 1 ≠ 0 then spGet 0 x.start lc.val else x.pc + 1
    (∀ rot, Meets (.endl m lc rot) s → c = 0 → Flows (.endl m lc rot) s [] (fun f => if f = e then { x with pc := x.pc + 1, walk := x.walk + 1 } else s.here.eng f)
      (fun _ => True))
    ∧ (Meets (.endl m lc false) s → c ≠ 0 →
      Flows (.endl m lc false) s [] (fun f => if f = e then { x with pc := next, walk := x.walk + 1, lc := spPut 0 x.lc lc.val (c - 1) } else s.here.eng f)
        (fun _ => True))
    ∧ (∀ r : Rot, Meets (.endl m lc true) s → c ≠ 0 → assoc s.here.hdr.rots lc.val = some r → r.nb ≤ 8 → r.nz ≤ 8 →
      (e = .A → s.here.pending .A (natsFrom 32 r.nb) = false) → (e = .V → s.here.pending .V (natsFrom 64 r.nz) = false) →
      Flows (.endl m lc true) s (if e = .A then [.aregs] else if e = .V then [.zregs] else [])
        (fun f => if f = e then { x with
            pc := next, walk := x.walk + 1, lc := spPut 0 x.lc lc.val (c - 1), rot := spPut 0 x.rot lc.val (spGet 0 x.rot lc.val + 1)
            sten := if c - 1 ≠ 0 then (x.sten <<< 1) ||| (if r.ec < (c - 1).toNat then 1 else 0) else 0xFF } else s.here.eng f)
        (fun t =>
          (∀ q : AReg, t.here.areg q = match q with
            | .b n => if e = .A ∧ n.val < r.nb then s.here.areg (.b (Fin.ofNat 8 ((n.val + r.nb - 1) % r.nb))) else s.here.areg q
            | .a _ => s.here.areg q)
          ∧ ∀ n : Fin 8, t.here.zreg n = if e = .V ∧ n.val < r.nz then s.here.zreg (Fin.ofNat 8 ((n.val + r.nz - 1) % r.nz)) else s.here.zreg n)))

/-! ### Stopping words, iterations, the end of a launch (04 R121 to R127; 05 R146 to R172) -/

namespace Sys2Proof.Machine

/-- S runs a stopping word at which its core is quiet (04 R121). -/
def Quiet (i : Instr) (s : State) : Prop := s.cur.eng = .S ∧ Ready i s ∧ s.here.quiet = true ∧ s.posted s.cur.loc = false

/-- Every engine goes past a word without extension words. -/
def State.allPast (s : State) : Engine → EngSt := fun e => (s.here.eng e).pass 0 none

/-- The core publishes to no subscriber, and no granule of it is on its way (12 R415). -/
def NoGranules (s : State) : Prop := s.here.fab.fan = [] ∧ ∀ t ∈ s.transit, t.pub ≠ s.cur.loc

/-- The index registers of S loaded (04 R126). -/
def Bank.loadS (b : Bank) (idx : List Reg64) : Bank := (upTo 6).foldl (fun b j => b.setSreg (Fin.ofNat 64 (56 + j)) (idx.getD j 0)) b

/-- S at an `ITER` that it may issue. -/
def Iterates (m : Dep) (off : BitVec 18) (s : State) (x : Launch) : Prop :=
  s.cur.eng = .S ∧ Ready (.iter m off) s ∧ s.here.launch.bind s.launch = some x ∧ s.here.boqRoom = true ∧ SFree s [56, 57, 58, 59, 60, 61]

end Sys2Proof.Machine

/-- R122, R125, 05 R149, R151: at `DRAIN` and `STAGEP` a quiet core's six engines pass. `STAGEP` hands the iteration to the next stage, or counts it
complete in the last stage; with no iteration it takes `F_STAGE`.
Rests on log entry 24. -/
def Obligations.DrainAndStage : Prop := ∀ (s : State) (m : Dep),
  (Quiet (.drain m) s → Passes (.drain m) s s s.here s.allPast)
  ∧ (∀ (n : Nat) (x : Launch), Quiet (.stagep m) s → s.here.seq.iterno = some n → s.here.launch.bind s.launch = some x → x.iterQ = [] →
      let stages := x.hdr.elim 1 (·.stages)
      let k := s.here.seq.stage
      let b : Bank := { s.here with seq := { s.here.seq with iterno := none } }
      (stages ≤ k + 1 → Passes (.stagep m) s (s.modLaunch x.id (fun y => { y with iters := y.iters + 1 })) b s.allPast)
      ∧ (k + 1 < stages → (x.handed (k + 1)).length < x.cores.length →
          Passes (.stagep m) s (s.modLaunch x.id (fun y => { y with hand := (k + 1, y.handed (k + 1) ++ [n]) :: y.hand.filter (fun h => h.1 != k + 1) })) b s.allPast))
  ∧ (Quiet (.stagep m) s → s.here.seq.iterno = none →
      ∃ t, exec (.stagep m) s = .next t ∧ t.here.flt = some ⟨.stage, s.here.engs.S.pc, 0⟩ ∧ t.here.engs = s.here.engs)

/-- R126, 05 R146 to R148: at `ITER` S gets the next iteration of the launch's loops, loads its indices into `s56` to `s61` and publishes it; with none
left every engine jumps. A loads `a26` to `a31` from its own copy; the others only pass. Said of stage 0 with no other request waiting.
Rests on log entry 24. -/
def Obligations.Iterations : Prop := ∀ (s : State) (m : Dep) (off : BitVec 18),
  let e := s.cur.eng
  let x := s.here.eng e
  let there : Nat := ((x.pc : Int) + off.toInt).toNat
  (∀ l : Launch, Iterates m off s l → s.here.seq.stage = 0 → s.here.seq.iterReq = false → s.here.seq.iterAns = none → l.iterQ = [] →
    l.hdr.elim 1 (·.stages) ≤ 1 →
    let n := l.walker
    let idx := unrank l.pkt.nest n
    let regs := (upTo 6).map (fun j => BitVec.ofNat 64 (idx.getD j 0))
    let done := if s.here.seq.iterno.isSome then 1 else 0
    (n < totalIters l.pkt.nest →
      Passes (.iter m off) s (s.modLaunch l.id (fun _ => { l with walker := n + 1, iters := l.iters + done }))
        (({ s.here with seq := { s.here.seq with iterno := some n } } : Bank).loadS regs)
        (fun f => if f = .S then x.pass 0 none else { s.here.eng f with boq := (s.here.eng f).boq ++ [⟨0, if f = .A then regs else []⟩] }))
    ∧ (totalIters l.pkt.nest ≤ n →
      Passes (.iter m off) s (s.modLaunch l.id (fun _ => { l with iters := l.iters + done }))
        { s.here with seq := { s.here.seq with iterno := none } }
        (fun f => if f = .S then x.pass 0 (some there) else { s.here.eng f with boq := (s.here.eng f).boq ++ [⟨1, []⟩] })))
  ∧ (∀ (o : BoqEnt) (rest : List BoqEnt), e ≠ .S → Meets (.iter m off) s → x.boq = o :: rest → (e = .A → s.here.pending .A (natsFrom 26 6) = false) →
    Passes (.iter m off) s s (if e = .A ∧ o.val ≠ 1 then s.here.loadA o.idx else s.here)
      (fun f => if f = e then { x with boq := rest, pc := if o.val = 1 then there else x.pc + 1, walk := x.walk + 1 } else s.here.eng f))

/-- R127, 05 R171, R172: `TRAP` ends its launch with `F_TRAP` and its code: the fault is recorded with its core, index and time, every running bank of the
launch stops issuing, and nothing of the core moves on.
R124, 05 R153: at `EXIT` A stops the looping copies still armed and those of the schedule; once the core is quiet and no channel has a command its bank is
EMPTY, its core has ended its part, and the launch ends when every core has.
Rests on log entry 3. -/
def Obligations.Ends : Prop :=
  (∀ (s : State) (m : Dep) (code : BitVec 16) (x : Launch), Ready (.trap m code) s → s.here.launch = some x.id →
    s.launch x.id = some x → x.st = .running → x.fault = none →
    ∃ t, exec (.trap m code) s = .next t
      ∧ t.here.flt = some ⟨.trap, s.here.engs.S.pc, code.toNat⟩ ∧ t.here.engs = s.here.engs ∧ t.mem = s.mem
      ∧ (∃ y, t.launch x.id = some y ∧ y.st = .ending ∧ y.status = 1
          ∧ y.fault = some ⟨.trap, s.cur.loc.core, s.here.engs.S.pc, code.toNat, (assoc x.held s.cur.loc.core).getD s.dtime, s.here.pcs⟩)
      ∧ (∀ id, id ≠ x.id → t.launch id = s.launch id)
      ∧ (∀ l, (t.bank l).st = if (s.bank l).launch = some x.id ∧ (s.bank l).st = .run then .halting else (s.bank l).st)
      ∧ ∀ p, BankPart.same t.here s.here p)
  ∧ (∀ (s : State) (m : Dep),
    (s.cur.eng = .A → s.here.live = true → exec (.exit m) s = .next (s.setBank s.cur.loc (s.here.stopCopies true (·.long))))
    ∧ (∀ x : Launch, Quiet (.exit m) s → s.here.stopped = true → s.flushes s.cur.loc = true → s.here.launch = some x.id → s.launch x.id = some x → x.st = .running →
        let u := s.endPart s.cur.loc x.id
        exec (.exit m) s = .next (((u.serveAll x.id).selectBank s.cur.loc.core).arbiter)
        ∧ u.bank s.cur.loc = {} ∧ (NoGranules s → u.mem = s.mem)
        ∧ ∃ y, u.launch x.id = some y ∧ y.ended = s.cur.loc.core :: x.ended
          ∧ y.st = if x.cores.all (fun l => y.ended.contains l.core) then .ending else .running))

/-- R123, 05 R155 to R158: at `CAIRN` a quiet core arrives at its barrier; the barrier releases once every member has arrived: each waiting member's six
engines pass, with the same origin of slots, and the next generation begins.
Rests on log entries 3 and 45. -/
def Obligations.Barriers : Prop := ∀ (s : State) (m : Dep) (lvl : Level) (x : Launch),
  let here := barPlace lvl s.cur.loc.core
  (Quiet (.cairn m lvl) s → s.here.launch = some x.id → s.launch x.id = some x → s.here.seq.cairn = none → s.cur.eager = false → NoGranules s →
    ∃ t, exec (.cairn m lvl) s = .next t
      ∧ t.here = { s.here with seq := { s.here.seq with
          arrive := spPut 0 s.here.seq.arrive (Level.num lvl) (s.here.arrivals lvl + 1), cairn := some lvl, wdog := 0 } }
      ∧ (∃ y, t.launch x.id = some y ∧ (y.bar lvl here).last = s.dtime ∧ (y.bar lvl here).gen = (x.bar lvl here).gen
          ∧ (y.bar lvl here).age = some ((x.bar lvl here).age.getD 0))
      ∧ t.mem = s.mem)
  ∧ (∀ place : Nat, s.launch x.id = some x → x.st = .running → s.barReady x lvl place = true →
    let waiting (l : Loc) : Prop := l ∈ x.members lvl place ∧ (s.bank l).seq.cairn = some lvl
    x.cores.Nodup → (∀ l, waiting l → (s.bank l).calm ∧ (s.bank l).flt = none ∧ ∃ mm, (s.bank l).checked (s.bank l).engs.S.pc = .ok (.cairn mm lvl)) →
    ∃ t, exec (.barrierRelease x.id lvl place) s = .next t
      ∧ (∀ l, waiting l → (t.bank l).seq.cairn = none ∧ (t.bank l).seq.t0 = slotOrigin (x.bar lvl place).last x.pkt.slotlen
          ∧ ∀ e, ((t.bank l).eng e).pc = ((s.bank l).eng e).pc + 1 ∧ ((t.bank l).eng e).walk = ((s.bank l).eng e).walk + 1)
      ∧ (∀ l, ¬ waiting l → t.bank l = s.bank l)
      ∧ (∃ y, t.launch x.id = some y ∧ (y.bar lvl place).gen = (x.bar lvl place).gen + 1 ∧ (y.bar lvl place).age = none)
      ∧ t.mem = s.mem)

/-! ## Access words (06, 07) -/

namespace Sys2Proof.Machine

/-- A is not parked and may issue the word, in a turn that only issues (07 R242). -/
def AReady (i : Instr) (s : State) : Prop := Ready i s ∧ s.here.acc.park = none ∧ s.cur.eager = false

/-- The address of a MEM word (06 R197). -/
def State.eaOf (s : State) (ma : MemAddr) : Nat := (s.here.areg (.a ma.base) + ma.off.signExtend 64).toNat

/-- A word makes an access: it becomes outstanding with its bytes and its operation, behind what an acquire or a release before it orders (06 R181, 07 R247).
It waits while 64 are outstanding, while its segment moves, while a `TLBINV` has still to retire (06 R218), and, if it releases, until V has come as far. -/
def Accesses (i : Instr) (s : State) (asp : Asp) (ea n : Nat) (op : AccOp) (scope : Scope) (ord : Ord) (prep : Bank → Bank) : Prop :=
  ∀ (u : State) (r : List Rng), s.access s.cur.loc op.kind asp ea n op.writes homesA = (u, .ok r) → s.here.acc.out.length < 64 →
    ¬(asp = .virt ∧ s.held s.here.ctx ea n = true) → s.here.invalidating = false → (ord.releases = true → s.here.engs.A.walk ≤ s.here.engs.V.walk) →
    ¬(op.notHost = true ∧ inHost r = true) →
    Gives i s u.newId.2 ((prep u.here).withAcc ⟨2 * u.nextId, s.here.engs.A.walk, s.here.engs.A.pc, r, op, scope, none, []⟩ ord)

/-- A byte at a place. -/
def State.byteAt (s : State) : Place → Byte
  | .sp0 l o => spGet 0 (s.bank l).acc.sp0 o
  | .pa a => spGet 0 s.mem a

/-- A range has a byte. -/
def Rng.has (r : Rng) : Place → Prop
  | .sp0 l o => ∃ b, r.pl = .sp0 l b ∧ b ≤ o ∧ o < b + r.len
  | .pa a => ∃ b, r.pl = .pa b ∧ b ≤ a ∧ a < b + r.len

/-- What an access stores, given the bytes it finds: nothing, or as many bytes as its ranges have. -/
def AccOp.stores (op : AccOp) (old : List Byte) : Option (List Byte) :=
  match op with
  | .ld .. | .grd .. | .wakea _ => none
  | .st d => some d
  | .amo w8 o _ _ _ x => some (leBytes (w8n w8) (amoNew o (8 * w8n w8) (ofLe old) (x.toNat % 2 ^ (8 * w8n w8))))
  | .cas w8 _ _ e x => if ofLe old = e.toNat % 2 ^ (8 * w8n w8) then some (leBytes (w8n w8) x.toNat) else none
  | .gadd fmt x => some (leBytes 32 (gaddCell fmt x (ofLe old)))
  | .gclr x => some (leBytes 32 (gclrCell x))

/-- The registers of A that an access writes, given the bytes it finds. -/
def AccOp.loads (op : AccOp) (old : List Byte) : List (AReg × Reg64) :=
  match op with
  | .ld (.reg r) z => [(r, ext64 z (8 * old.length) (ofLe old))]
  | .amo w8 _ z nr d _ => if nr then [] else [(.a d, oldReg w8 z (ofLe old))]
  | .cas w8 z d _ _ => [(.a d, oldReg w8 z (ofLe old))]
  | .grd fmt rm d ra => [(.a ra, BitVec.ofNat 64 (grdCell fmt rm (ofLe old)).2.1), (.a d, BitVec.ofNat 64 (grdCell fmt rm (ofLe old)).1)]
  | _ => []

end Sys2Proof.Machine

/-- 06 R197 to R199: a load and a store become outstanding accesses of 2^sz bytes at base plus offset. A load into a queue reserves its entries as it
issues; a store from `da` takes as many entries as its bytes need.
Rests on log entries 6 and 26. -/
def Obligations.LoadsAndStores : Prop := ∀ (s : State) (m : Dep) (ma : MemAddr) (sz : Fin 7),
  let n := 2 ^ sz.val
  let ea := s.eaOf ma
  let b := s.here
  (∀ (z : Bool) (d : AReg), AReady (.ld m ma sz z (.reg d)) s → b.readyA [.a ma.base, d] = true →
    Accesses (.ld m ma sz z (.reg d)) s ma.asp ea n (.ld (.reg d) z) .self .rlx id)
  ∧ (∀ (z : Bool) (dst : LdDst) (q : QName), dst.queue = some q → AReady (.ld m ma sz z dst) s → b.readyA [.a ma.base] = true →
    b.room q (ceilDiv n 8) = true →
    Accesses (.ld m ma sz z dst) s ma.asp ea n (.ld dst z) .self .rlx (fun k => k.reserveN q b.engs.A.walk (ceilDiv n 8)))
  ∧ (∀ r : AReg, AReady (.st m ma sz (.reg r)) s → b.readyA [.a ma.base, r] = true →
    Accesses (.st m ma sz (.reg r)) s ma.asp ea n (.st (leBytes n (b.areg r).toNat)) .self .rlx id)
  ∧ (∀ (vs : List Reg64) (k : Bank), AReady (.st m ma sz .da) s → b.readyA [.a ma.base] = true → b.takeDa (ceilDiv n 8) = some (vs, k) →
    Accesses (.st m ma sz .da) s ma.asp ea n (.st ((vs.flatMap (fun v => leBytes 8 v.toNat)).take n)) .self .rlx
      (fun c => { c with queues := k.queues }))

/-- 07 R234 to R241, R244: atomics and grain words become outstanding accesses of 4, 8 or 32 bytes, with their scope and order; `WAKEA` releases.
07 R236: the new value of each atomic operation, on words of any width.
Rests on log entries 6 and 26. -/
def Obligations.Atomics : Prop :=
  (∀ (s : State) (m : Dep) (ma : MemAddr) (ord : Ord) (scope : Scope) (d ra : Fin 32),
    let ea := s.eaOf ma
    let b := s.here
    (∀ (w8 : Bool) (op : AmoOp) (z nr : Bool), AReady (.amo m ma w8 op ord scope z nr d ra) s →
      b.readyA ([.a ma.base, .a ra] ++ (if nr then [] else [.a d])) = true → ea % w8n w8 = 0 →
      Accesses (.amo m ma w8 op ord scope z nr d ra) s ma.asp ea (w8n w8) (.amo w8 op z nr d (b.ax ra)) scope ord id)
    ∧ (∀ (w8 z : Bool), AReady (.cas m ma w8 ord scope z d ra) s → b.readyA [.a ma.base, .a ra, .a d] = true → ea % w8n w8 = 0 →
      Accesses (.cas m ma w8 ord scope z d ra) s ma.asp ea (w8n w8) (.cas w8 z d (b.ax d) (b.ax ra)) scope ord id)
    ∧ (∀ fmt : GFmt, AReady (.gadd m ma fmt ord scope d) s → b.readyA [.a ma.base, .a d] = true → ea % 32 = 0 →
      Accesses (.gadd m ma fmt ord scope d) s ma.asp ea 32 (.gadd fmt (b.ax d)) scope ord id)
    ∧ (∀ (fmt : GFmt) (rm : RMode), AReady (.grd m ma fmt rm ord scope d ra) s → b.readyA [.a ma.base, .a d, .a ra] = true → ea % 32 = 0 →
      Accesses (.grd m ma fmt rm ord scope d ra) s ma.asp ea 32 (.grd fmt rm d ra) scope ord id)
    ∧ (AReady (.gclr m ma ord scope d) s → b.readyA [.a ma.base, .a d] = true → ea % 32 = 0 →
      Accesses (.gclr m ma ord scope d) s ma.asp ea 32 (.gclr (b.ax d)) scope ord id)
    ∧ (AReady (.wakea m ma scope d) s → b.readyA [.a ma.base, .a d] = true →
      Accesses (.wakea m ma scope d) s ma.asp ea 1 (.wakea (b.ax d)) scope .rel id))
  ∧ (∀ (w : Nat) (old x : BitVec w), 0 < w →
    let new (op : AmoOp) : BitVec w := BitVec.ofNat w (amoNew op w old.toNat x.toNat)
    new .add = old + x ∧ new .and = old &&& x ∧ new .or = old ||| x ∧ new .xor = old ^^^ x ∧ new .swap = x
    ∧ new .smin = (if x.slt old then x else old) ∧ new .smax = (if old.slt x then x else old)
    ∧ new .umin = (if x.ult old then x else old) ∧ new .umax = (if old.ult x then x else old))

/-- 06 R183, R184, R221, 07 R235, R262: an access that misses its space, its segment's pages, its homes or its alignment ends the launch with the fault of
that check, and does nothing else; one whose page is absent is a page fault, and its word stays.
Rests on log entry 26. -/
def Obligations.AccessFaults : Prop := ∀ (s : State) (m : Dep) (ma : MemAddr) (sz : Fin 7) (z : Bool) (d : Fin 32),
  let i : Instr := .ld m ma sz z (.reg (.a d))
  let ea := s.eaOf ma
  let n := 2 ^ sz.val
  let b := s.here
  AReady i s → b.readyA [.a ma.base, .a d] = true → b.invalidating = false →
  (∀ (u : State) (c : FCode), b.acc.out.length < 64 → ¬(ma.asp = .virt ∧ s.held b.ctx ea n = true) →
    s.access s.cur.loc .read ma.asp ea n false homesA = (u, .fault c) →
    exec i s = .next (s.faultAt s.cur.loc c b.engs.A.pc 0))
  ∧ (∀ (u : State) (va : Nat), b.acc.out.length < 64 → ¬(ma.asp = .virt ∧ s.held b.ctx ea n = true) →
    s.access s.cur.loc .read ma.asp ea n false homesA = (u, .page va) →
    ∃ t, exec i s = .next t ∧ t.here.acc.pf = some ⟨va, false, 0, false, false⟩ ∧ t.here.live = false ∧ t.here.engs = b.engs ∧ t.mem = s.mem)
  ∧ (ma.asp = .sp0 → (s.access s.cur.loc .read ma.asp ea n false homesA).2
      = if ea + n ≤ b.hdr.spad then .ok [⟨.sp0 s.cur.loc ea, n, none, 0⟩] else .fault .bounds)
  ∧ (ma.asp = .virt → 2 ^ 57 < ea + n → (s.access s.cur.loc .read ma.asp ea n false homesA).2 = .fault .addr)
  ∧ (∀ (ord : Ord) (scope : Scope) (fmt : GFmt), AReady (.gadd m ma fmt ord scope d) s → ea % 32 ≠ 0 →
      exec (.gadd m ma fmt ord scope d) s = .next (s.faultAt s.cur.loc .align b.engs.A.pc 0))

/-- 06 R181, R182, R199, 07 R235 to R241: an outstanding access performs: it stores at its ranges and nowhere else, and its registers take what it
finds there.
Rests on log entry 6. -/
def Obligations.AccessPerforms : Prop := ∀ (s u : State) (l : Loc) (a : Acc), (s.bank l).acc.out.find? (fun x => x.id == a.id) = some a →
  s.accReady l a = true → (a.unit l.core = none ∨ a.old.isSome = true) → s.platCheck l.core (s.bank l).ctx a.op.kind a.rngs = (u, none) →
  (a.op.reads = true → s.badRngs a.rngs = none) →
  let old := a.old.getD (s.readRngs a.rngs)
  ∃ t, exec (.accessPerform l a.id) s = .next t
    ∧ (∀ x, (∀ r ∈ a.rngs, ¬ r.has x) ∨ a.op.stores old = none → t.byteAt x = s.byteAt x)
    ∧ (∀ d, a.op.stores old = some d → d.length = (a.rngs.map (·.len)).sum → a.rngs.Pairwise (fun x y => x.overlaps y = false) → t.readRngs a.rngs = d)
    ∧ ((s.bank l).acc.park = none → ∀ r : AReg, (t.bank l).areg r = ((a.op.loads old).find? (fun p => p.1 == r)).elim ((s.bank l).areg r) (·.2))
    ∧ (t.bank l).acc.out = ((s.bank l).acc.out.filter (fun x => x.id != a.id)).map (fun x => { x with after := without a.id x.after })

/-- 06 R200, R201: `LIA`, `ADDA` and `MOVA` write a register of A or enter one entry in a queue; a source is a register or the entry of `da`. -/
def Obligations.AccessArithmetic : Prop := ∀ (s : State) (m : Dep) (d : AReg) (a b : ASrc),
  let k := s.here
  let w := k.engs.A.walk
  (∀ xc imm, AReady (.lia m xc d imm) s → k.readyA [d] = true → Gives (.lia m xc d imm) s s (k.setAreg d imm))
  ∧ (∀ x y k1 k2, AReady (.adda m d a b) s → k.readyA [d] = true → k.takeA a = some (x, k1) → k1.takeA b = some (y, k2) →
      Gives (.adda m d a b) s s (k2.setAreg d (x + y)))
  ∧ (∀ x k1, k.takeA a = some (x, k1) →
      (AReady (.mova m d a) s → k.readyA [d] = true → Gives (.mova m d a) s s (k1.setAreg d x))
      ∧ (AReady (.movaToDs m a) s → k.room .ds 1 = true → Gives (.movaToDs m a) s s (k1.reserve .ds w x))
      ∧ (AReady (.movaToDv m a) s → k.room .dv 1 = true → Gives (.movaToDv m a) s s (k1.reserve .dv w x))
      ∧ (AReady (.movaToDt m a) s → k.room .dt 1 = true → Gives (.movaToDt m a) s s (k1.reserve .dt w x)))
  ∧ (∀ r : AReg, k.readyA [r] = true → k.takeA (.reg r) = some (k.areg r, k))
  ∧ (∀ x, k.peek .da w = some x → ∃ c, k.takeA .da = some (x, c) ∧ c.entries .da = (k.entries .da).drop 1 ∧ ∀ p, p ≠ .da → BankPart.same c k p)

/-- 06 R207, R211, R212, R214: `TD.SET` writes a qword of the record table as it retires, `TD.GET` reads one; `QBIND` captures a record and an origin for a
stream, and `QEND` ends a stream that has drained.
07 R255: the fetches of a stream come after the stores and atomics issued before its `QBIND`.
06 R217 to R219: `SEGQ` reads a segment's state and probes a translation, once an earlier `TLBINV` has retired; `TLBINV` discards entries of the core's TLB;
`ASTAT` reads A's status, and clears the bits that its source names.
Rests on log entries 23 and 26. -/
def Obligations.RecordsAndStatus : Prop :=
  (∀ (s : State) (m : Dep) (td : Fin 64) (i : Fin 12) (r : Fin 32) (q : Fin 8) (wr : Bool) (oa ob : Fin 32),
    let k := s.here
    let t := (upTo 12).map (fun j => spGet 0 k.acc.td (12 * td.val + j))
    let org := originOf (k.ax oa) (k.ax ob)
    (AReady (.tdSet m td i r) s → k.readyA [.a r] = true →
      Gives (.tdSet m td i r) s s { k with acc := { k.acc with td := spPut 0 k.acc.td (12 * td.val + i.val) (k.ax r) } })
    ∧ (AReady (.tdGet m td i r) s → k.readyA [.a r] = true → k.tdReady td = true →
      Gives (.tdGet m td i r) s s (k.setAreg (.a r) (spGet 0 k.acc.td (12 * td.val + i.val))))
    ∧ (AReady (.qbind m td q wr oa ob) s → k.readyA [.a oa, .a ob] = true → k.tdReady td = true → recFault t (some org) = none →
      ¬((tdescOf t).fill = 3 ∧ (tdescOf t).reaches org = true) → (k.bound q = true → k.endable q = true) →
      Gives (.qbind m td q wr oa ob) s s { k with
        acc := { k.acc with q := assocPut k.acc.q q.val ⟨k.engs.A.walk, k.engs.A.pc, t, org, wr, [], 0, 0, k.acc.acqBar ++ k.acc.xpBar ++ k.writeIds⟩ }
        vec := { k.vec with stage := assocDel k.vec.stage q.val } })
    ∧ (AReady (.qend m q) s → k.endable q = true →
      Gives (.qend m q) s s { k with acc := { k.acc with q := assocDel k.acc.q q.val }, vec := { k.vec with stage := assocDel k.vec.stage q.val } })
    ∧ (∀ (f : FCode), AReady (.qbind m td q wr oa ob) s → k.readyA [.a oa, .a ob] = true → k.tdReady td = true → recFault t (some org) = some f →
      exec (.qbind m td q wr oa ob) s = .next (s.faultAt s.cur.loc f k.engs.A.pc 0)))
  ∧ (∀ (s : State) (m : Dep) (d : AReg) (a : ASrc),
    let k := s.here
    let core := s.cur.loc.core
    (AReady (.astat m d) s → k.readyA [d] = true → k.grdOut = false →
      Gives (.astat m d) s s (k.setAreg d (BitVec.ofNat 64 (k.acc.flags.toNat + 256 * (if k.acc.conf then 1 else 0)))))
    ∧ (AReady (.astatMiss m d) s → k.readyA [d] = true → Gives (.astatMiss m d) s s (k.setAreg d (BitVec.ofNat 64 k.acc.misses)))
    ∧ (AReady (.tlbinvAll m) s →
      Gives (.tlbinvAll m) s (s.setTlb core ((s.core core).tlb.filter (fun e => e.ctx != k.ctx))) k)
    ∧ (∀ x k1, k.takeA a = some (x, k1) →
      (AReady (.astatClr m d a) s → k.readyA [d] = true → k.grdOut = false →
        Gives (.astatClr m d a) s s ((k1.clearA x).setAreg d (BitVec.ofNat 64 (k.acc.flags.toNat + 256 * (if k.acc.conf then 1 else 0)))))
      ∧ (AReady (.tlbinvPage m a) s →
        Gives (.tlbinvPage m a) s ((s.setBank s.cur.loc k1).setTlb core
          ((s.core core).tlb.filter (fun e => !(e.ctx == k.ctx && decide (e.va ≤ x.toNat) && decide (x.toNat < e.va + e.size))))) k1)
      ∧ (AReady (.tlbinvSeg m a) s →
        Gives (.tlbinvSeg m a) s ((s.setBank s.cur.loc k1).setTlb core
          ((s.core core).tlb.filter (fun e => !(e.ctx == k.ctx && bits e.va 56 48 == bits x.toNat 56 48)))) k1)
      ∧ (AReady (.segqState m d a) s → k.readyA [d] = true → k.invalidating = false →
        Gives (.segqState m d a) s s (k1.setAreg d (BitVec.ofNat 64 (s.segState k.ctx x.toNat))))
      ∧ (AReady (.segqProbe m d a) s → k.readyA [d] = true → k.invalidating = false →
        let u := (s.setBank s.cur.loc k1).segProbe s.cur.loc x.toNat
        Gives (.segqProbe m d a) s u.1 (u.1.here.setAreg d (BitVec.ofNat 64 u.2)))))

/-- 07 R245 to R247, R257: a fence waits at issue for the reads or for everything before it, and puts what comes later behind what it waits for.
Rests on log entries 6 and 26. -/
def Obligations.Fences : Prop := ∀ (s : State) (m : Dep) (scope : Scope),
  let k := s.here
  let there := k.engs.A.walk ≤ k.engs.V.walk
  let rel : Bank := { k with acc := { k.acc with relBar := k.acc.relBar ++ k.relIds } }
  (AReady (.fenceAcq m scope) s → k.readIds = [] → Gives (.fenceAcq m scope) s s k)
  ∧ (AReady (.fenceRel m scope) s → there → Gives (.fenceRel m scope) s s rel)
  ∧ (AReady (.fenceAr m scope) s → there → k.readIds = [] → Gives (.fenceAr m scope) s s rel)
  ∧ (AReady (.fenceSc m scope) s → there → k.relIds = [] → Gives (.fenceSc m scope) s s k)
  ∧ (AReady (.fenceXp m) s → there → Gives (.fenceXp m) s s { k with acc := { k.acc with
      xpBar := k.acc.xpBar ++ k.storeIds
      q := k.acc.q.map (fun p => (p.1, if p.2.wr then p.2 else { p.2 with after := p.2.after ++ k.storeIds })) } })
  ∧ (AReady (.fenceAcq m scope) s → k.readIds ≠ [] → exec (.fenceAcq m scope) s = .next s)
  ∧ (AReady (.fenceSc m scope) s → k.relIds ≠ [] → exec (.fenceSc m scope) s = .next s)

/-- 07 R242, R243: `WAITA` reads its granule once: a value that differs ends it with 0; otherwise A parks, its watch is registered, and it ends with 1 at a
write to the granule and with 2 at its timeout.
Rests on log entry 26. -/
def Obligations.AddressWaits : Prop := ∀ (s : State) (m : Dep) (ma : MemAddr) (w8 : Bool) (scope : Scope) (d ra : Fin 32),
  let i : Instr := .waita m ma w8 scope d ra
  let n := w8n w8
  let k := s.here
  let ea := s.eaOf ma
  (∀ (u v : State) (r : List Rng), AReady i s → k.readyA [.a ma.base, .a d, .a ra] = true → ea % n = 0 → ¬(ma.asp = .virt ∧ s.held k.ctx ea n = true) → k.invalidating = false →
    s.access s.cur.loc .watch ma.asp ea n false homesA = (u, .ok r) → inHost r = false → (∀ a ∈ k.acc.out, overlap a.rngs r = false) → k.acc.acqBar = [] →
    u.platCheck s.cur.loc.core k.ctx .watch r = (v, none) → s.badRngs r = none →
    let c : Bank := { v.here with acc := { v.here.acc with acqBar := k.readIds } }
    (ofLe (s.readRngs r) ≠ (k.ax ra).toNat % 2 ^ (8 * n) → Gives i s v.newId.2 (c.setAreg (.a d) 0))
    ∧ (∀ x rest, ofLe (s.readRngs r) = (k.ax ra).toNat % 2 ^ (8 * n) → r = x :: rest →
        let till := if k.ax d = 0 then none else some (s.dtime + (k.ax d).toNat)
        Gives i s ((v.newId.2.setBank s.cur.loc c).addWatch s.cur.loc x.pl)
          { ((v.newId.2.setBank s.cur.loc c).addWatch s.cur.loc x.pl).here with
            acc := { ((v.newId.2.setBank s.cur.loc c).addWatch s.cur.loc x.pl).here.acc with park := some (.waita (2 * v.nextId) d x.pl.gran till) } }))
  ∧ (∀ (l : Loc) (id : Nat) (g : Place) (x : Nat), (s.bank l).acc.park = some (.waita id d g (some x)) → x ≤ s.dtime →
    ∃ t, exec (.waitaTimeout l) s = .next t ∧ (t.bank l).acc.park = none ∧ (∀ w ∈ t.watches, w.l ≠ l) ∧ t.mem = s.mem
      ∧ ∀ q : AReg, (t.bank l).areg q = if q = .a d then 2 else (s.bank l).areg q)
  ∧ (∀ (l : Loc) (id g a : Nat) (data : List Byte) (till : Option Nat), (s.bank l).acc.park = some (.waita id d (.pa g) till) →
    (⟨l, .pa g⟩ : Watch) ∈ s.watches → (∀ w ∈ s.watches, w.l = l → w.g = .pa g) → g < a + data.length → a < g + 64 →
    ((s.writePa a data).bank l).acc.park = none ∧ (∀ w ∈ (s.writePa a data).watches, w.l ≠ l)
      ∧ ∀ q : AReg, ((s.writePa a data).bank l).areg q = if q = .a d then 1 else (s.bank l).areg q)

/-- 07 R228, R230 to R232: `CONVEY` hands an exclusive parcel to another core with its generation raised, `PLAT.share` makes it shared, `PLAT.q` reads its
report, and `PLAT.wait` reads it once the core may read the parcel, else A parks until a change or its timeout.
07 R224 to R226, R228: the verdict on an access to a parcel by its mode and owner, and what a change of an entry writes: only the entry's qword, and no
core keeps a copy of it.
Rests on log entry 26. -/
def Obligations.Parcels : Prop :=
  (∀ (s : State) (m : Dep) (ma : MemAddr) (d : Fin 32),
    let k := s.here
    let ea := s.eaOf ma
    let l := s.cur.loc
    let ready := k.readyA [.a ma.base, .a d] = true
    let owned (u v : State) (r : List Rng) (idx p0 p1 : Nat) : Prop := k.quietA = true ∧ k.invalidating = false ∧ s.held k.ctx ea 1 = false
      ∧ s.access l .read .virt ea 1 false homesA = (u, .ok r) ∧ u.platLookup l.core k.ctx ea = (v, .entry idx p0 p1) ∧ platMode p0 = 0 ∧ platOwner p1 = l.core
    (∀ u v r idx p0 p1, AReady (.convey m ma d) s → ready → owned u v r idx p0 p1 → s.enabled (k.ax d).toNat = true →
      let w := ((v.platDrop k.ctx idx).writePlat k.ctx idx 8 ((k.ax d).toNat + 2 ^ 32 * ((platGen p1 + 1) % 2 ^ 32))).wakePlat k.ctx p0
      Gives (.convey m ma d) s w w.here)
    ∧ (∀ u v r idx p0 p1, AReady (.platShare m ma d) s → ready → owned u v r idx p0 p1 →
      let q0 := p0 % 2 ^ 62 + 2 ^ 62
      let q1 := 2 ^ 32 * ((platGen p1 + 1) % 2 ^ 32)
      let w := (((v.platDrop k.ctx idx).writePlat k.ctx idx 0 q0).writePlat k.ctx idx 8 q1).wakePlat k.ctx q0
      Gives (.platShare m ma d) s w (w.here.setAreg (.a d) (BitVec.ofNat 64 (reportOf l.core (.entry idx q0 q1)))))
    ∧ (∀ v p, AReady (.platQ m ma d) s → ready → ea < 2 ^ 57 → s.platLookup l.core k.ctx ea = (v, p) → p ≠ .bad →
      Gives (.platQ m ma d) s v (v.here.setAreg (.a d) (BitVec.ofNat 64 (reportOf l.core p))))
    ∧ (∀ v p, AReady (.platWait m ma d) s → ready → ea < 2 ^ 57 → s.platLookup l.core k.ctx ea = (v, p) → p ≠ .bad →
      (parcelReadable l.core p = true → Gives (.platWait m ma d) s v (v.here.setAreg (.a d) (BitVec.ofNat 64 (reportOf l.core p))))
      ∧ (parcelReadable l.core p = false → s.platw.length < 256 →
          let till := if k.ax d = 0 then none else some (s.dtime + (k.ax d).toNat)
          let u := v.newId.2
          Gives (.platWait m ma d) s { u with platw := u.platw ++ [⟨l, k.ctx, ea⟩] }
            { u.here with acc := { u.here.acc with park := some (.plat (2 * v.nextId) d ea till) } }))
    ∧ (∀ (id va till : Nat) (y : Loc) (v : State) (p : Parcel), (s.bank y).acc.park = some (.plat id d va (some till)) → till ≤ s.dtime →
      s.platLookup y.core (s.bank y).ctx va = (v, p) →
      ∃ t, exec (.platWaitTimeout y) s = .next t ∧ (t.bank y).acc.park = none ∧ (∀ w ∈ t.platw, w.l ≠ y) ∧ t.mem = s.mem
        ∧ (p = .bad → (s.bank y).flt = none → (t.bank y).flt = some ⟨.plat, (s.bank y).pcOf id, 0⟩)
        ∧ (p ≠ .bad → ∀ q : AReg, (t.bank y).areg q = if q = .a d then BitVec.ofNat 64 (reportOf y.core p + 16) else (s.bank y).areg q)))
  ∧ ((∀ (core : Nat) (k : PKindAcc) (p0 p1 : Nat), platMode p0 < 3 →
      platVerdict core k p0 p1 =
        if platMode p0 = 0 then (if platOwner p1 ≠ core then some .owner else if k = .grain ∨ k = .grd then some .atomic else none)
        else if platMode p0 = 1 then (if k = .write ∨ k = .atomic ∨ k = .grain then some .readonly else none) else none)
    ∧ (∀ (s : State) (ctx idx off v : Nat) (c : Ctx), s.ctx ctx = some c →
      let t := (s.platDrop ctx idx).writePlat ctx idx off v
      (∀ a, spGet 0 t.mem a = if c.platPa + 16 * idx + off ≤ a ∧ a < c.platPa + 16 * idx + off + 8
        then (leBytes 8 v).getD (a - (c.platPa + 16 * idx + off)) 0 else spGet 0 s.mem a)
      ∧ ∀ core, ∀ e ∈ (t.core core).plat, ¬(e.ctx = ctx ∧ e.idx = idx)))

/-! ## Copy words (09; 06 R209, R210) -/

namespace Sys2Proof.Machine

/-- A word queues a command on its channel, behind the stores and atomics before it; its signals come when the command completes (02 R44, 09 R301, R311, R333).
The command is made of what the word finds in `k`, and queued in `c`. -/
def Queues' (i : Instr) (s : State) (m : Dep) (ch : Fin 8) (kind : CmdKind) (long : Bool) (count : Nat) (buf : Option Nat) (k c : Bank) : Prop :=
  Gives i s s.newId.2 (c.enqueue ch.val
    { id := 2 * s.nextId, walk := k.engs.A.walk, pc := k.engs.A.pc, kind, sp := m.sp, sn := m.sn, long, count, iter := 0, before := 0, off := 0
      slot := none, slotN := 0, stop := false, buf, sten := k.engs.A.sten, rot := k.engs.A.rot, loops := k.engs.A.loops, busy := []
      after := k.writeIds ++ k.acc.xpBar, sect := 0, fin := [], spill := [] })

/-- The slots or buffers of a ring and its image may hold the window of a record (09 R312). -/
def RingFits (r : Ring) (t : List Reg64) (org : List Int) : Prop :=
  (tdescOf t).imgBytes org ≤ r.size ∧ ∀ x ∈ r.bases, x % 64 = 0 ∧ ((tdescOf t).ilv ≠ 0 → x % 2048 = 0)

end Sys2Proof.Machine

/-- R301, R308, R311 to R314, 04 R116: `CP` queues one move of a window and `CPL` as many as its count register says, with its step: to another window, to
a ring of the core or of another core, or from a ring. A ring whose stage is off moves nothing, and the copy only signals.
Rests on log entry 27. -/
def Obligations.Copies : Prop := ∀ (s : State) (m : Dep) (td : Fin 64) (ch : Fin 8) (kind : CpKind) (oa ob rc rs : Fin 32)
    (i : Instr) (regs : List (Fin 32)) (step : List Int) (long : Bool) (count : Nat),
  let k := s.here
  let t := k.td td
  let org := originOf (k.ax oa) (k.ax ob)
  let core := s.cur.loc.core
  ((i = .cp m td ch kind oa ob ∧ regs = [oa, ob] ∧ step = [0, 0, 0, 0] ∧ long = false ∧ count = 1)
    ∨ (i = .cpl m td ch kind oa ob rc rs ∧ regs = [oa, ob, rc, rs] ∧ step = halves (k.ax rs).toNat ∧ long = true ∧ count = (k.ax rc).toNat)) →
  AReady i s → k.copyReady (regs ++ (CpKind.far kind).1) (td :: (CpKind.far kind).2) ch = true → recFault t (some org) = none → trapReach t org = false →
  match kind with
  | .toRec tdd rx =>
    let u := k.td tdd
    let od := halves (k.ax rx).toNat
    recFault u (some od) = none → trapReach u od = false → (tdescOf t).fmt = (tdescOf u).fmt → (tdescOf t).count = (tdescOf u).count →
      ((tdescOf t).vx4 = true → (tdescOf t).w 0 = (tdescOf u).w 0) → Queues' i s m ch (.toRec t u org od) long count none k k
  | .toRing g se sem => ∀ r, k.ring g = some r → r.prod = .copy → (r.modeR = false → r.chan = none ∨ r.chan = some (core, ch.val)) →
      (long = true → r.modeR = false) →
      (long = false → k.idle .A r = true → Gives i s s (if se then k.semSignal sem 1 k.engs.A.pc else k))
      ∧ (k.idle .A r = false → RingFits r t org →
        Queues' i s m ch (.toRing t org step g none (if se then some sem else none)) long count (if r.modeR then some (k.bufBase .A r) else none) k
          (if r.modeR then k.noteSent g r (k.bufBase .A r) else k.setRing g { r with chan := some (core, ch.val) }))
  | .toPeer g se sem rx => ∀ p, s.placed k.launch ((k.ax rx).toNat % 2 ^ 10) = some p →
      (p ≠ s.cur.loc ∨ long = true ∨ (∀ r, k.ring g = some r → r.prod ≠ .copy) → Queues' i s m ch (.toRing t org step g (some p) (if se then some sem else none)) long count none k k)
      ∧ (∀ r, p = s.cur.loc → long = false → k.ring g = some r → r.prod = .copy →
        (k.idle .A r = true → Gives i s s (if se then k.semSignal sem 1 k.engs.A.pc else k))
        ∧ (k.idle .A r = false → Queues' i s m ch (.toRing t org step g (some p) (if se then some sem else none)) long count
            (if r.modeR then some (k.bufBase .A r) else none) k (if r.modeR then k.noteSent g r (k.bufBase .A r) else k)))
  | .drain g _ => ∀ r, k.ring g = some r → r.cons = .copy → (long = true → r.modeR = false) →
      (long = false → k.idle .A r = true → Gives i s s k)
      ∧ (k.idle .A r = false → RingFits r t org →
        Queues' i s m ch (.drain t org step g) long count (if r.modeR then some (k.bufBase .A r) else none) k k)

/-- 06 R209, R210, R321, R326: `TMOV`, `SIFT` and `ACCMOV` queue their commands, once their addresses and records pass their checks.
R305, R315 to R318, R320: `CPRING` configures a ring whose slots lie in the share; `CPWP` reads a channel's write pointer or waits for it; `CPCAN`
drops what a channel has not begun and tells what runs to stop; a released entry of the schedule enters its channel.
Rests on log entries 25 and 27. -/
def Obligations.RingsAndChannels : Prop :=
  (∀ (s : State) (m : Dep) (ch : Fin 8),
    let k := s.here
    let x (r : Fin 32) : Nat := (k.ax r).toNat
    (∀ (td : Fin 64) (st : Bool) (oa ob : Fin 32), AReady (.tmov m td ch st oa ob) s → k.copyReady [oa, ob] [td] ch = true →
      let t := k.td td
      let org := originOf (k.ax oa) (k.ax ob)
      recCheck t (some org) k.hdr.spad = none → trapReach t org = false → Queues' (.tmov m td ch st oa ob) s m ch (.tmov t org st) false 1 none k k)
    ∧ (∀ (pasp sasp : Asp) (rp rmap rsec rn : Fin 32), k.copyReady [rp, rmap, rsec, rn] [] ch = true → x rp % 64 = 0 → x rmap % 64 = 0 → x rsec % 64 = 0 →
      (AReady (.siftEnc m ch pasp sasp rp rmap rsec rn) s → 0 < x rn → x rn ≤ 2 ^ 24 →
        Queues' (.siftEnc m ch pasp sasp rp rmap rsec rn) s m ch (.siftEnc pasp (x rp) sasp (x rmap) (x rsec) (x rn)) false 1 none k k)
      ∧ (AReady (.siftDec m ch (.plain pasp rp) sasp rmap rsec rn) s → 0 < x rn → x rn ≤ 2 ^ 24 →
        Queues' (.siftDec m ch (.plain pasp rp) sasp rmap rsec rn) s m ch (.siftDec (.at pasp (x rp)) sasp (x rmap) (x rsec) (x rn)) false 1 none k k)
      ∧ (AReady (.siftEnc m ch pasp sasp rp rmap rsec rn) s → x rn = 0 → Gives (.siftEnc m ch pasp sasp rp rmap rsec rn) s s k))
    ∧ (∀ (g : Fin 16) (sasp : Asp) (rmap rsec rn : Fin 32) (r : Ring), AReady (.siftDec m ch (.ring g) sasp rmap rsec rn) s →
      k.copyReady [rmap, rsec, rn] [] ch = true → x rmap % 64 = 0 → x rsec % 64 = 0 → 0 < x rn → x rn ≤ 2 ^ 24 → k.ring g = some r → r.prod = .copy →
      (r.modeR = false → r.chan = none ∨ r.chan = some (s.cur.loc.core, ch.val)) → k.idle .A r = false → 512 * x rn ≤ r.size →
      Queues' (.siftDec m ch (.ring g) sasp rmap rsec rn) s m ch (.siftDec (.ring g) sasp (x rmap) (x rsec) (x rn)) false 1
        (if r.modeR then some (k.bufBase .A r) else none) k
        (if r.modeR then k.noteSent g r (k.bufBase .A r) else k.setRing g { r with chan := some (s.cur.loc.core, ch.val) }))
    ∧ (∀ (acc : Fin 1024) (st : Bool) (asp : Asp) (base : Fin 32), AReady (.accmov m acc ch st asp base) s → k.copyReady [base] [] ch = true →
      (x base % 64 = 0 → Queues' (.accmov m acc ch st asp base) s m ch (.accmov acc.val st asp (x base)) false 1 none k k)
      ∧ (x base % 64 ≠ 0 → exec (.accmov m acc ch st asp base) s = .next (s.faultAt s.cur.loc .calign k.engs.A.pc 0))))
  ∧ (∀ (s : State) (m : Dep) (ch : Fin 8) (a : Fin 32),
    let k := s.here
    (∀ (g : Fin 16) (mode : RingMode) (prod cons : RingEnd), AReady (.cpring m g mode prod cons) s →
      k.pending .A (k.cpringRegs mode) = false → k.cpringReady s.cur.loc g (RingMode.isC mode) cons = true →
      (∀ x ∈ (k.ringOf mode prod cons).bases, x % 64 = 0 ∧ x + (k.ringOf mode prod cons).size ≤ k.hdr.spad) →
      Gives (.cpring m g mode prod cons) s s (k.configRing g (k.ringOf mode prod cons)))
    ∧ (AReady (.cpwpRd m a ch) s → k.readyA [.a a] = true → Gives (.cpwpRd m a ch) s s (k.setAreg (.a a) (k.chan ch.val).cwp))
    ∧ (AReady (.cpwpWait m a ch) s → k.readyA [.a a] = true → (k.ax a).toNat ≤ (k.chan ch.val).cwp.toNat → Gives (.cpwpWait m a ch) s s k)
    ∧ (AReady (.cpwpWait m a ch) s → (k.chan ch.val).cwp.toNat < (k.ax a).toNat → exec (.cpwpWait m a ch) s = .next s)
    ∧ (AReady (.cpwpDs m ch) s → k.room .ds 1 = true → Gives (.cpwpDs m ch) s s (k.reserve .ds k.engs.A.walk (k.chan ch.val).cwp))
    ∧ (∀ i : Instr, i = .cpcan m ch ∨ i = .cpcanAll m → AReady i s →
      Does i s [.copies, .accesses, .streams, .fabric, .sems, .ctl, .rings, .records] (fun t => ∀ n : Fin 8, i = .cpcanAll m ∨ n = ch →
        (t.here.chan n.val).cmds.map (fun c => (c.id, c.stop)) = match (k.chan n.val).cmds with
          | [] => []
          | x :: _ => if x.iter ≠ 0 ∨ x.off ≠ 0 ∨ x.slot.isSome = true ∨ x.busy ≠ [] then [(x.id, true)] else []))
    ∧ (∀ (l : Loc) (n : Nat) (e : SchedEnt), s.served l = true → (s.bank l).st ≠ .halting → (s.bank l).nextSched = some (n, e) → recFault e.tdr (some e.org) = none →
      ∃ t, exec (.scheduleEntryEnter l) s = .next t ∧ (t.bank l).car.sched = (s.bank l).car.sched.eraseIdx n ∧ t.mem = s.mem
        ∧ ∃ c, ((t.bank l).chan e.ch.val).cmds = ((s.bank l).chan e.ch.val).cmds ++ [c] ∧ c.id = 2 * s.nextId
          ∧ c.kind = .toRing e.tdr e.org e.step e.ring none e.sem ∧ c.count = e.count ∧ c.iter = 0 ∧ c.off = 0))

/-- R302, R303, R313, R314: a chunk of a copy moves the bytes of its items one after another: no byte that it does not write changes, and where what it writes
overlaps nothing that it reads or writes, each range written has the bytes of its source.
R303, R304, R330: chunks count from the start of the command, and the end of an iteration also publishes (log entry 46); publishing advances the channel's
write pointer by its bytes; a command that is over leaves its channel.
Rests on log entries 27 and 46. -/
def Obligations.Chunks : Prop :=
  (∀ (s u v w z : State) (l : Loc) (its : List Item) (det : Nat) (rs ws : List (List Rng)),
    s.resolveAll l false (its.map (fun x => (x.src, x.len))) = (u, .ok rs) → u.resolveAll l true (its.map (fun x => (x.dst, x.len))) = (v, .ok ws) →
    v.platCheck l.core (s.bank l).ctx .read rs.flatten = (w, none) → w.platCheck l.core (s.bank l).ctx .write ws.flatten = (z, none) →
    v.tHolds (rs.flatten ++ ws.flatten) = false → s.badRngs rs.flatten = none →
    (∀ x ∈ its, match x.src, x.dst with | .acc .., _ => False | _, .acc .. => False | _, _ => True) →
    ∃ t, s.moveItems l its det = .ok t
      ∧ (∀ x, (∀ r ∈ ws.flatten, ¬ r.has x) → t.byteAt x = s.byteAt x)
      ∧ (ws.flatten.Pairwise (fun x y => x.overlaps y = false) → (∀ x ∈ rs.flatten, ∀ y ∈ ws.flatten, x.overlaps y = false) →
          ∀ (n : Nat) (it : Item) (r o : List Rng), its[n]? = some it → rs[n]? = some r → ws[n]? = some o → o ≠ [] →
          (o.map (·.len)).sum = (s.takeEnd l it.src it.len r).length → t.readRngs o = s.takeEnd l it.src it.len r))
  ∧ (∀ (s : State) (l : Loc) (ch : Fin 8) (x : Cmd) (rest : List Cmd), ((s.bank l).chan ch.val).cmds = x :: rest →
    s.chanLive l ch.val = true → x.after = [] →
    (∀ u : State, x.finished = false → s.copyHeld l x = false → (∃ t o b, x.kind = .tmov t o b) ∨ (∃ t u o p, x.kind = .toRec t u o p) →
      let hi := min (x.len l) (x.off + (512 - (x.before + x.off) % 512))
      let its := sliceItems x.off hi 0 (x.items l)
      let b := s.takeBusy l ch.val x (itemSegs its)
      s.segWait (s.bank l).ctx x (itemSegs its) = false → b.1.moveItems l its (copyDetail ch.val ((x.before + x.off) / 512)) = .ok u →
      exec (.chunkPublish l ch) s = .next (u.published l ch.val b.2 hi)
      ∧ ((u.published l ch.val b.2 hi).bank l).chan ch.val = { (u.bank l).chan ch.val with
          cwp := ((u.bank l).chan ch.val).cwp + BitVec.ofNat 64 (hi - x.off)
          cmds := (if x.len l ≤ hi then { b.2 with before := x.before + x.len l, off := 0, iter := x.iter + 1, slot := none, busy := [] }
            else { b.2 with off := hi }) :: ((u.bank l).chan ch.val).cmds.drop 1 })
    ∧ (x.finished = true → x.slot = none →
      ∃ t, exec (.copyComplete l ch) s = .next t ∧ ((t.bank l).chan ch.val).cmds.map (·.id) = rest.map (·.id) ∧ t.mem = s.mem))

/-- R323 to R325: the encoding of Sift is lossless: the sectors of any block of 512 bytes decode to it, in the mode that the encoder chose. -/
def Obligations.SiftLossless : Prop := ∀ y : List Byte, y.length = 512 → unsiftBlock (siftBlock y).1 (siftBlock y).2 = some y

/-! ## Matrix words (10) -/

namespace Sys2Proof.Machine

/-- No word stands at the head of M's window that would leave it at once (10 R342): one is under way, or the head works on slots. -/
def Steady (k : Bank) : Prop := k.mx.run = none → ∀ w rest, k.mx.win = w :: rest → w.instant = false

/-- M may issue the word into its window of sixteen, in a turn that only issues (10 R341). -/
def MReady (i : Instr) (s : State) : Prop := Ready i s ∧ s.here.mx.win.length < 16 ∧ s.cur.eager = false ∧ Steady s.here

/-- M has nothing to do: no word waits, is under way or has still to retire. -/
def MIdle (k : Bank) : Prop := k.mx.run = none ∧ k.mx.win = [] ∧ k.calm

/-- Earlier words stand before the one at hand. -/
def MBusy (k : Bank) : Prop := k.mx.run.isSome = true ∨ k.mx.win ≠ []

/-- A word that works on no slot enters the window with its operand, and leaves it at once where it is alone; then the bank is `b` (10 R341, R342). -/
def Leaves (i : Instr) (s : State) (op : Option Opnd) (k b : Bank) : Prop :=
  (MBusy s.here → Gives i s s (k.enterWin i op none)) ∧ (MIdle s.here → Gives i s s b)

/-- A ring that M names at its walk position: A has come as far, and the ring is configured (09 R310). -/
def NamesRing (k : Bank) (g : Fin 16) (r : Ring) : Prop := k.engs.M.walk ≤ k.engs.A.walk ∧ k.ringAt g k.engs.M.walk = some r

/-- The operand that M consumes from a ring: its bound record and scale, and where its slot lies (10 R345, R349, R355). -/
def Consumes (k : Bank) (g : Fin 16) (r : Ring) (o : Opnd) : Prop :=
  NamesRing k g r ∧ r.cons = .m ∧ ∃ x, k.mbind g = some x ∧ o = ⟨g, x.tdr, x.scale, k.opSrc .M r⟩

/-- The window of a tile word is a matrix of at most 32 by 32 elements of a format that tiles have, and fits its ring's slots (10 R355, R359). -/
def TileFits (o : Opnd) (r : Ring) : Prop :=
  let d := tdescOf o.tdr
  d.fmt ∈ [0, 1, 2, 3, 4, 5, 6, 7, 8, 9, 0xB] ∧ d.elems0 ≤ 32 ∧ dimOf d.win 1 ≤ 32 ∧ d.flat 2 = true ∧ o.fits r = true

/-- M runs the word at the head of its window (10 R342 to R344): it leaves the window and takes effect in one move, and is done with the next. -/
def Runs (s : State) (l : Loc) (w : WinEnt) (R : State → Prop) : Prop :=
  ∀ rest, (s.bank l).live = true → (s.bank l).mx.run = none → (s.bank l).mx.win = w :: rest →
    ∃ t u, exec (.matrixPassStart l) s = .next t ∧ exec (.matrixPassStart l) t = .next u
      ∧ R t ∧ (t.bank l).mx.win = rest ∧ (t.bank l).mx.run = some w ∧ t.mem = s.mem
      ∧ (∀ m, m ≠ l → ({ t.bank m with st := (s.bank m).st } : Bank) = s.bank m)
      ∧ BankPart.same (t.bank l) (s.bank l) .aregs ∧ BankPart.same (t.bank l) (s.bank l) .vregs ∧ BankPart.same (t.bank l) (s.bank l) .sregs
      ∧ BankPart.same (t.bank l) (s.bank l) .mregs ∧ BankPart.same (t.bank l) (s.bank l) .mbinds ∧ BankPart.same (t.bank l) (s.bank l) .mflags
      ∧ (u.bank l).mx.run = none ∧ u.mem = s.mem

/-- The cells of a slot after a word: each of its 32 rows and columns as `f` says; every other cell is as it was (10 R340). -/
def Cells (s t : State) (l : Loc) (slot : Nat) (f : Nat → Nat → AccCell) : Prop :=
  (∀ i j, i < 32 → j < 32 → (t.bank l).cell slot (32 * i + j) = f i j)
  ∧ ∀ n k, n ≠ slot → k < 1024 → (t.bank l).cell n k = (s.bank l).cell n k

end Sys2Proof.Machine

/-- 10 R345, R348 to R350, R356, R357, R360, R363: `MX.SHAPE` grants the least shape that covers its request and reports it, `MX.CSEQ` and `MX.MODE` set M's
registers, `MX.RING`, `MX.FMT` and `MX.SCALE` set a ring's binding, `MX.POP` pops a slot once it is FULL, and `MX.STAT` reports M's status: each as it leaves the
window, for the words behind it.
10 R341, R352 to R360: every word of M enters the pass window with the operands it found; `MX.STACC` reserves its slot.
Rests on log entry 30. -/
def Obligations.MatrixWords : Prop :=
  (∀ (s : State) (m : Dep) (g : Fin 16),
    let k := s.here
    let w := k.engs.M.walk
    (∀ (rm1 cm1 : Fin 32) (nq nd : Bool) (r c : Nat), MReady (.mxShape m rm1 cm1 nq nd) s → (nq = false → k.room .cq 1 = true) → (nd = false → k.room .ds 1 = true) →
      (r, c) ∈ [(8, 32), (16, 16), (16, 32), (32, 16), (32, 32)] → rm1.val < r → cm1.val < c →
      (∀ p ∈ [(8, 32), (16, 16), (16, 32), (32, 16), (32, 32)], rm1.val < p.1 → cm1.val < p.2 → r * c < p.1 * p.2 ∨ r * c = p.1 * p.2 ∧ r ≤ p.1) →
      let eq : Nat := if r = rm1.val + 1 ∧ c = cm1.val + 1 then 1 else 0
      let b : Bank := if nq then k else k.reserve .cq w (BitVec.ofNat 64 eq)
      let b : Bank := if nd then b else b.reserve .ds w (BitVec.ofNat 64 (r + 256 * c + 65536 * eq))
      Leaves (.mxShape m rm1 cm1 nq nd) s none b { b with mx := { b.mx with rows := r, cols := c, shown := BitVec.ofNat 64 (r + 256 * c) } })
    ∧ (∀ imm, MReady (.mxCseq m imm) s → Leaves (.mxCseq m imm) s none k { k with mx := { k.mx with cseq := imm } })
    ∧ (∀ negp za zb, MReady (.mxMode m negp za zb) s → Leaves (.mxMode m negp za zb) s none k { k with mx := { k.mx with negp, za, zb } })
    ∧ (∀ (td : Fin 64) (r : Ring), MReady (.mxRing m td g) s → recFault (k.td td) none = none → NamesRing k g r → (r.prod = .m ∨ r.cons = .m) →
      Leaves (.mxRing m td g) s (some ⟨g, k.td td, none, .idle⟩) k { k with mx := { k.mx with bind := assocPut k.mx.bind g.val ⟨k.td td, none⟩ } })
    ∧ (∀ (fmt : TFmt) (r : Ring) (x : RBind), MReady (.mxFmt m g fmt) s → NamesRing k g r → (r.prod = .m ∨ r.cons = .m) → k.mbind g = some x →
      let old := (tdescOf x.tdr).fmt
      let new := tfmtCode fmt
      ((old ∈ [0, 8, 9] ∧ new ∈ [0, 8, 9]) ∨ (old ∈ [1, 4, 5] ∧ new ∈ [1, 4, 5]) →
        Leaves (.mxFmt m g fmt) s (some ⟨g, withFmt x.tdr new, x.scale, .idle⟩) k
          { k with mx := { k.mx with bind := assocPut k.mx.bind g.val { x with tdr := withFmt x.tdr new } } })
      ∧ (¬((old ∈ [0, 8, 9] ∧ new ∈ [0, 8, 9]) ∨ (old ∈ [1, 4, 5] ∧ new ∈ [1, 4, 5])) →
        ∃ t, exec (.mxFmt m g fmt) s = .next t ∧ t.here.flt = some ⟨.mfmt, k.engs.M.pc, 0⟩ ∧ t.here.mx = k.mx))
    ∧ (∀ (val : Option (BitVec 16)) (r : Ring) (x : RBind), MReady (.mxScale m g val) s → NamesRing k g r → (r.prod = .m ∨ r.cons = .m) → k.mbind g = some x →
      (tdescOf x.tdr).fmt ∈ [8, 9, 0xA] →
      Leaves (.mxScale m g val) s (some ⟨g, x.tdr, val, .idle⟩) k { k with mx := { k.mx with bind := assocPut k.mx.bind g.val { x with scale := val } } })
    ∧ (∀ r : Ring, NamesRing k g r → r.cons = .m → MReady (.mxPop m g) s →
      Leaves (.mxPop m g) s none k (if r.modeR = false ∧ r.slotSt r.head = .full then k.setRing g r.pop else k))
    ∧ (∀ clr, MReady (.mxStat m clr) s → k.room .ds 1 = true →
      let b := k.reserve .ds w 0
      let c := b.fill .ds w [k.mx.flags.zeroExtend 64]
      Leaves (.mxStat m clr) s none b { c with mx := { c.mx with flags := if clr then 0 else k.mx.flags } }))
  ∧ (∀ (s : State) (m : Dep) (acc : Fin 1024) (ga gb g : Fin 16) (ka kb set : Bool),
    let k := s.here
    (∀ (i : Instr) (src : Fin 1024) (x : Bool) (y : Bool), i = .mxZero m acc ∨ i = .mxTrn m acc ∨ i = .mxAccmov m acc src x ∨ i = .mxAccadd m acc src x y →
      MReady i s → Gives i s s (k.enterWin i none none))
    ∧ (∀ (ra rb : Ring) (oa ob : Opnd) (wt : Option (SemUse 16)) (sg : Option (SemUse 8)) (ger : Bool), Consumes k ga ra oa → Consumes k gb rb ob →
      k.passFault ger (oa, ra) (ob, rb) = none →
      let i : Instr := if ger then .mxGer m acc ga gb ka kb wt sg set else .mxMma m acc ga gb ka kb wt sg set
      MReady i s →
      (wt = none → Gives i s s (k.enterWin i (some oa) (some ob)))
      ∧ (∀ u, wt = some u → u.vm1.val + 1 ≤ k.semCeil u.sem → u.vm1.val + 1 ≤ k.semCount u.sem →
          Gives i s s ((k.setSem u.sem (k.semCount u.sem - (u.vm1.val + 1))).enterWin i (some oa) (some ob))))
    ∧ (∀ (nm1 : Fin 16) (ra rb : Ring) (oa ob : Opnd), Consumes k ga ra oa → Consumes k gb rb ob → k.passFault false (oa, ra) (ob, rb) = none →
      MReady (.mxBatch m acc ga gb nm1 ka kb set) s →
      Gives (.mxBatch m acc ga gb nm1 ka kb set) s s (k.enterWin (.mxBatch m acc ga gb nm1 ka kb set) (some oa) (some ob)))
    ∧ (∀ (kp add z : Bool) (r : Ring) (o : Opnd), Consumes k g r o → TileFits o r → MReady (.mxLdacc m acc g kp add z) s →
      Gives (.mxLdacc m acc g kp add z) s s (k.enterWin (.mxLdacc m acc g kp add z) (some o) none))
    ∧ (∀ (rm : RMode) (ov : Ov) (z : Bool) (r : Ring) (x : RBind), NamesRing k g r → r.prod = .m → k.mbind g = some x →
      TileFits ⟨g, x.tdr, x.scale, k.opSrc .M r⟩ r → MReady (.mxStacc m acc g rm ov z) s →
      (r.modeR = true → Gives (.mxStacc m acc g rm ov z) s s (k.enterWin (.mxStacc m acc g rm ov z) (some ⟨g, x.tdr, x.scale, k.opSrc .M r⟩) none))
      ∧ (r.modeR = false → r.slotSt r.tail = .empty →
        Gives (.mxStacc m acc g rm ov z) s s
          ((k.setRing g (r.reserve [(r.base + r.size * r.slotOf r.tail, r.size)])).enterWin (.mxStacc m acc g rm ov z)
            (some ⟨g, x.tdr, x.scale, .buf (r.base + r.size * r.slotOf r.tail)⟩) none))))

/-- 10 R342, R358: what the words on whole slots do as they reach the head of the window: clear, transpose, move or swap, and add or subtract cell by cell.
Rests on log entry 30. -/
def Obligations.SlotWords : Prop := ∀ (s : State) (l : Loc) (w : WinEnt) (m : Dep) (d x : Fin 1024),
  let c (n i j : Nat) : AccCell := (s.bank l).cell n (32 * i + j)
  (s.bank l).slotHeld d.val = false → (s.bank l).slotHeld x.val = false →
  (w.instr = .mxZero m d → Runs s l w (fun t => Cells s t l d.val (fun _ _ => 0) ∧ (t.bank l).satBit d.val = false))
  ∧ (w.instr = .mxTrn m d → Runs s l w (fun t => Cells s t l d.val (fun i j => c d.val j i)))
  ∧ (w.instr = .mxAccmov m d x false → Runs s l w (fun t => Cells s t l d.val (c x.val) ∧ (t.bank l).satBit d.val = (s.bank l).satBit x.val))
  ∧ (w.instr = .mxAccmov m d x true → Runs s l w (fun t =>
      (∀ i j, i < 32 → j < 32 → (t.bank l).cell d.val (32 * i + j) = c x.val i j ∧ (t.bank l).cell x.val (32 * i + j) = c d.val i j)
      ∧ (∀ n k, n ≠ d.val → n ≠ x.val → k < 1024 → (t.bank l).cell n k = (s.bank l).cell n k)
      ∧ (t.bank l).satBit d.val = (s.bank l).satBit x.val ∧ (t.bank l).satBit x.val = (s.bank l).satBit d.val))
  ∧ (∀ neg, w.instr = .mxAccadd m d x true neg → Runs s l w (fun t => Cells s t l d.val (fun i j =>
      let v : Int := (c d.val i j).toInt + (if neg then -1 else 1) * (c x.val i j).toInt
      BitVec.ofInt 80 (max (-(2 ^ 79)) (min (2 ^ 79 - 1) v)))))
  ∧ (∀ neg, w.instr = .mxAccadd m d x false neg → Runs s l w (fun t => Cells s t l d.val (fun i j => (addCell false neg (c d.val i j) (c x.val i j)).1)))

namespace Sys2Proof.Machine

/-- A pass of M finds an operand at its base: what it reads there is published, held by no T word and correctable (09 R307, 11 R370, 15 R500). -/
def Finds (b : Bank) (l : Loc) (w : WinEnt) (o : Opnd) (p : Nat) : Prop := b.opBase l .M o w.walk o.reads = some p ∧ b.badRuns (o.reads p) = none

end Sys2Proof.Machine

/-- 10 R347, R351, R353, R354: an INT8 pass under code 00 adds to each cell of the granted shape, or with `.set` to 0, the exact sum of the products of its
operands' elements, saturated to 80 bits once; other cells stay. `MX.GER` has one product per cell. An idle ring makes every product 0 (04 R116). A batch runs one
pass at a time, on slots in a row, and pops its slots after each (09 R306).
Rests on log entry 30. -/
def Obligations.IntegerPass : Prop := ∀ (s : State) (l : Loc) (w : WinEnt) (m : Dep) (acc : Fin 1024) (ga gb nm1 : Fin 16) (ka kb set ger : Bool)
    (wt : Option (SemUse 16)) (sg : Option (SemUse 8)) (oa ob : Opnd) (pa pb slot : Nat),
  let b := s.bank l
  let n := if ger then 1 else (tdescOf oa.tdr).elems0
  let x (i k : Nat) : Int := if ger then b.opInt oa b.mx.za pa i 0 else b.opInt oa b.mx.za pa k i
  let y (j k : Nat) : Int := if ger then b.opInt ob b.mx.zb pb j 0 else b.opInt ob b.mx.zb pb k j
  let p (i j k : Nat) : Int := if oa.src = .idle ∨ ob.src = .idle then 0 else x i k * y j k
  let new (i j : Nat) : AccCell :=
    if i < b.mx.rows ∧ j < b.mx.cols then
      let v : Int := (if set then 0 else (b.cell slot (32 * i + j)).toInt) + ((upTo n).map (p i j)).sum
      BitVec.ofInt 80 (max (-(2 ^ 79)) (min (2 ^ 79 - 1) v))
    else b.cell slot (32 * i + j)
  w.opA = some oa → w.opB = some ob →
  (b.mx.cseq = 0 → b.mx.negp = false → (tdescOf oa.tdr).fmt = 0 → (tdescOf ob.tdr).fmt = 0 → b.slotHeld slot = false →
    Finds b l w oa pa → Finds b l w ob pb →
    (w.instr = (if ger then .mxGer m acc ga gb ka kb wt sg set else .mxMma m acc ga gb ka kb wt sg set) → slot = acc.val →
      Runs s l w (fun t => Cells s t l slot new))
    ∧ (w.instr = .mxBatch m acc ga gb nm1 ka kb set → ger = false → slot = acc.val + w.done →
      b.popsDue w.opA w.walk = false → b.popsDue w.opB w.walk = false → b.live = true →
      b.mx.run = none ∧ b.mx.win.head? = some w ∨ b.mx.run = some w ∧ b.mx.mid = false ∧ b.mx.owed = false →
      ∃ t, exec (.matrixPassStart l) s = .next t ∧ Cells s t l slot new ∧ (t.bank l).mx.run = some w ∧ (t.bank l).mx.mid = true))
  ∧ (w.instr = .mxBatch m acc ga gb nm1 ka kb set → b.mx.run = some w → b.mx.mid = true → b.flt = none →
    (∀ q, b.popsOf ka w.opA w.walk = some q ∨ b.popsOf kb w.opB w.walk = some q → q.2.slotSt q.2.head = .full) →
    ∃ t, exec (.matrixPassStart l) s = .next t ∧ (t.bank l).mx.mid = false ∧ (t.bank l).mx.owed = false
      ∧ (t.bank l).mx.run = (if w.done = nm1.val then none else some { w with done := w.done + 1 })
      ∧ (b.calm → w.done ≠ nm1.val → ∀ g, (t.bank l).ring g = ((b.popNow ka w.opA w.walk).popNow kb w.opB w.walk).ring g))

/-- 10 R346, R351, R353, 03 R96: a floating-point pass forms its operands' elements, takes them in groups through the codes of `CSEQ`, and joins each group
into its cell. An idle ring makes every product +0 (04 R116).
Rests on log entries 29 and 30. -/
def Obligations.FloatPass : Prop := ∀ (s : State) (l : Loc) (w : WinEnt) (m : Dep) (acc : Fin 1024) (ga gb : Fin 16) (ka kb set ger : Bool)
    (wt : Option (SemUse 16)) (sg : Option (SemUse 8)) (oa ob : Opnd) (pa pb gr kc : Nat),
  let b := s.bank l
  let n := if ger then 1 else (tdescOf oa.tdr).elems0
  let idle : Bool := oa.src == .idle || ob.src == .idle
  let zeros : List Fl := (upTo n).map (fun _ => .fin false 0 1 0)
  let x (i : Nat) : List Fl := if idle then zeros else (upTo n).map (fun k => if ger then (b.opElem oa pa i 0).1 else (b.opElem oa pa k i).1)
  let y (j : Nat) : List Fl := if idle then zeros else (upTo n).map (fun k => if ger then (b.opElem ob pb j 0).1 else (b.opElem ob pb k j).1)
  w.instr = (if ger then .mxGer m acc ga gb ka kb wt sg set else .mxMma m acc ga gb ka kb wt sg set) → w.opA = some oa → w.opB = some ob →
  (tdescOf oa.tdr).fmt ≠ 0 → pairOf (tdescOf oa.tdr).fmt (tdescOf ob.tdr).fmt = some (gr, kc) →
  b.slotHeld acc.val = false → Finds b l w oa pa → Finds b l w ob pb →
  Runs s l w (fun t => Cells s t l acc.val (fun i j =>
    if i < b.mx.rows ∧ j < b.mx.cols then (cellF b.mx.cseq (!idle && b.mx.negp) gr kc n set (x i) (y j) (b.cell acc.val (32 * i + j))).1
    else b.cell acc.val (32 * i + j)))

/-- 10 R359: `MX.LDACC` loads a tile into the cells of its window; `MX.STACC` stores the cells of its window to its slot, and no other byte of the share; into an
idle ring it stores nothing (04 R116).
Rests on log entry 30. -/
def Obligations.TileWords : Prop := ∀ (s : State) (l : Loc) (w : WinEnt) (m : Dep) (acc : Fin 1024) (g : Fin 16) (o : Opnd) (p : Nat),
  let b := s.bank l
  let d := o.desc p
  let rows := dimOf d.win 1
  let cols := d.elems0
  w.opA = some o → b.slotHeld acc.val = false → rows ≤ 32 → cols ≤ 32 →
  (∀ kp add z, w.instr = .mxLdacc m acc g kp add z → Finds b l w o p →
    Runs s l w (fun t => Cells s t l acc.val (fun i j =>
      if i < rows ∧ j < cols then (ldCell d.fmt (if o.src = .idle then 0 else b.imgNum d (j + d.w 0 * i)) add z (b.cell acc.val (32 * i + j))).1
      else b.cell acc.val (32 * i + j))))
  ∧ (∀ rm ov z, w.instr = .mxStacc m acc g rm ov z → o.src = .buf p → (o.reads p).any b.tHolds = false →
    let byte (i j k : Nat) : Nat := d.imgByte (j + d.w 0 * i) k
    Runs s l w (fun t =>
      (∀ a, (∀ i j k, i < rows → j < cols → k < d.es → byte i j k ≠ a) → spGet 0 (t.bank l).acc.sp0 a = spGet 0 b.acc.sp0 a)
      ∧ ((∀ i j k i' j' k', i < rows → j < cols → k < d.es → i' < rows → j' < cols → k' < d.es → byte i j k = byte i' j' k' → i = i' ∧ j = j' ∧ k = k') →
        ∀ i j, i < rows → j < cols →
          (t.bank l).imgRead d (j + d.w 0 * i) = leBytes d.es (stCell d.fmt rm ov z (b.cell acc.val (32 * i + j))).1)))
  ∧ (∀ rm ov z, w.instr = .mxStacc m acc g rm ov z → o.src = .idle → Runs s l w (fun t => BankPart.same (t.bank l) b .share))

/-! ## Vector words (08) -/

namespace Sys2Proof.Machine

/-- V may issue the word, and no earlier word of V has still to write what it names (08 R269). -/
def VReady (i : Instr) (s : State) : Prop := Ready i s ∧ s.here.pending .V (Instr.vcodes i) = false

/-- A word has written a destination of V, a register or a vector of a stream, as it retired (08 R267, R268). -/
def Bank.putV (b : Bank) (d : VDst) (v : VecReg) : Bank := (b.takeDst d).apply b.engs.V.pc (b.dstEff v d)

/-- A word has raised flags of V as it retired (08 R268, R270). -/
def Bank.raiseV (b : Bank) (f : FlagBits) : Bank := b.setStatus .V (b.status .V ||| f)

/-- Flags of several elements ORed together (08 R270). -/
def orFlags (n : Nat) (f : Nat → FlagBits) : FlagBits := (upTo n).foldl (fun g e => g ||| f e) 0

/-- A word writes a destination of V from a bank whose sources it has taken: elements of width `w` as `el` says, and their flags. A destination in a stream
must have room. -/
def Writes (i : Instr) (s : State) (w : Nat) (d : VDst) (k : Bank) (el : Nat → Nat) (fl : FlagBits) : Prop :=
  k.roomV d = .ok → ∃ v : VecReg, (∀ e, e < 4096 / w → elemOf v w e = el e % 2 ^ w) ∧ Gives i s s ((k.putV d v).raiseV fl)

/-- An element-wise word (08 R268): its active elements are computed, and raise flags; the others are zeroed or kept. -/
def Elementwise (i : Instr) (s : State) (ctl : VCtl) (w : Nat) (d : VDst) (k : Bank) (el : Nat → Nat × FlagBits) : Prop :=
  let on (e : Nat) : Bool := (k.kreg ctl.k).getLsbD e
  Writes i s w d k (fun e => if on e then (el e).1 else if ctl.zm then 0 else elemOf (k.oldV d) w e)
    (orFlags (4096 / w) (fun e => if on e then (el e).2 else 0))

/-- The greatest and the least number of `n` bits, and a result taken modulo 2^n or saturated (08 R273, 03 R79). -/
def intoBits (z sat : Bool) (n : Nat) (x : Int) : Nat × FlagBits :=
  let lo : Int := if z then 0 else -(2 ^ (n - 1) : Nat)
  let hi : Int := if z then (2 ^ n : Nat) - 1 else (2 ^ (n - 1) : Nat) - 1
  let y := if sat then max lo (min hi x) else x
  ((y % (2 ^ n : Nat)).toNat, if sat ∧ y ≠ x then fSAT else 0)

end Sys2Proof.Machine

/-- R264, R267, 06 R213: a source of V is a register, the entry of `dv` in every lane, or the oldest vector that a read stream holds; the registers read
back what is written; `k0` reads all ones and keeps nothing. -/
def Obligations.VectorOperands : Prop := ∀ (k : Bank) (n r : Fin 32) (x : VecReg) (q : Fin 8) (g h : Fin 8) (y : Reg256),
  k.takeV (.v n) = .ok (k.vreg n) k
  ∧ (∀ v, k.peek .dv k.engs.V.walk = some v → ∃ z c, k.takeV .dv = .ok z c ∧ (∀ e, e < 64 → elemOf z 64 e = v.toNat)
      ∧ c.entries .dv = (k.entries .dv).drop 1 ∧ ∀ p, p ≠ .dv → BankPart.same c k p)
  ∧ (∀ (b : Stream) (v : HeldVec) (t : List HeldVec), k.engs.V.walk ≤ k.engs.A.walk → assoc k.acc.q q.val = some b → b.walk < k.engs.V.walk → b.wr = false →
      b.used < b.vectors → b.held = v :: t → k.takeV (.q q) = .ok v.x (k.putQ q { b with held := t, used := b.used + 1 }))
  ∧ (k.setVreg n x).vreg r = (if r = n then x else k.vreg r)
  ∧ (k.setKreg g y).kreg h = (if h = 0 then BitVec.allOnes 256 else if h = g then y else k.kreg h)
  ∧ (k.setZreg g y).zreg h = (if h = g then y else k.zreg h)

/-- R268, R270 to R272, 03 R81, R82: the floating-point element words round each active element once; `VMIN`, `VMAX`, `VABS` and `VNEG` are exact. -/
def Obligations.VectorArithmetic : Prop := ∀ (s : State) (m : Dep) (ctl : VCtl) (ty : VTy) (rm : RMode) (z np nc : Bool) (d : VDst) (a b c : VSrc)
    (x y v : VecReg) (k1 k2 k3 : Bank),
  let w := ty.width
  let read (u : VecReg) (e : Nat) : Fl := ty.ffmt.read (elemOf u w e)
  let once (p : Fl × FlagBits) : Nat × FlagBits := ((ty.ffmt.round rm 0 p.1).1, p.2 ||| (ty.ffmt.round rm 0 p.1).2)
  s.here.takeV a = .ok x k1 →
  (VReady (.vabs m ctl ty z d a) s → Elementwise (.vabs m ctl ty z d a) s ctl w d k1 (fun e => absElem ty z (elemOf x w e)))
  ∧ (VReady (.vneg m ctl ty z d a) s → Elementwise (.vneg m ctl ty z d a) s ctl w d k1 (fun e => negElem ty (elemOf x w e)))
  ∧ (k1.takeV b = .ok y k2 →
    (VReady (.vadd m ctl ty rm d a b) s → Elementwise (.vadd m ctl ty rm d a b) s ctl w d k2 (fun e => once (Fl.add rm (read x e) (read y e))))
    ∧ (VReady (.vsub m ctl ty rm d a b) s → Elementwise (.vsub m ctl ty rm d a b) s ctl w d k2 (fun e => once (Fl.add rm (read x e) (read y e).negate)))
    ∧ (VReady (.vmul m ctl ty rm d a b) s → Elementwise (.vmul m ctl ty rm d a b) s ctl w d k2 (fun e => once (Fl.mul (read x e) (read y e))))
    ∧ (VReady (.vmin m ctl ty z d a b) s → Elementwise (.vmin m ctl ty z d a b) s ctl w d k2 (fun e =>
        if ty.isFloat then ((ty.ffmt.round .rne 0 (flMin (read x e) (read y e)).1).1, (flMin (read x e) (read y e)).2)
        else (if intOf z w (elemOf y w e) < intOf z w (elemOf x w e) then elemOf y w e else elemOf x w e, 0)))
    ∧ (VReady (.vmax m ctl ty z d a b) s → Elementwise (.vmax m ctl ty z d a b) s ctl w d k2 (fun e =>
        if ty.isFloat then ((ty.ffmt.round .rne 0 (flMax (read x e) (read y e)).1).1, (flMax (read x e) (read y e)).2)
        else (if intOf z w (elemOf x w e) < intOf z w (elemOf y w e) then elemOf y w e else elemOf x w e, 0)))
    ∧ (k2.takeV c = .ok v k3 → VReady (.vfma m ctl ty rm np nc d a b c) s →
      Elementwise (.vfma m ctl ty rm np nc d a b c) s ctl w d k3 (fun e =>
        once (Fl.fma rm (if np then (read x e).negate else read x e) (read y e) (if nc then (read v e).negate else read v e)))))

/-- R273: the integer element words compute exactly and wrap or saturate; the bitwise words and shifts act on the elements' bits, and a shift by the width or
more gives zeros, or copies of the sign. -/
def Obligations.VectorIntegers : Prop := ∀ (s : State) (m : Dep) (ctl : VCtl) (ty : VTy) (z sat : Bool) (d : VDst) (a b : VSrc) (x y : VecReg) (k1 k2 : Bank),
  let w := ty.width
  let p (e : Nat) : Int := intOf z w (elemOf x w e)
  let q (e : Nat) : Int := intOf z w (elemOf y w e)
  s.here.takeV a = .ok x k1 → k1.takeV b = .ok y k2 →
  (VReady (.viadd m ctl ty z sat d a b) s → Elementwise (.viadd m ctl ty z sat d a b) s ctl w d k2 (fun e => intoBits z sat w (p e + q e)))
  ∧ (VReady (.visub m ctl ty z sat d a b) s → Elementwise (.visub m ctl ty z sat d a b) s ctl w d k2 (fun e => intoBits z sat w (p e - q e)))
  ∧ (VReady (.vimul m ctl ty z sat false d a b) s → Elementwise (.vimul m ctl ty z sat false d a b) s ctl w d k2 (fun e => intoBits z sat w (p e * q e)))
  ∧ (VReady (.vimul m ctl ty z sat true d a b) s → Elementwise (.vimul m ctl ty z sat true d a b) s ctl w d k2 (fun e =>
      ((p e * q e / (2 ^ w : Nat) % (2 ^ w : Nat)).toNat, 0)))
  ∧ (VReady (.vand m ctl ty d a b) s → Elementwise (.vand m ctl ty d a b) s ctl w d k2 (fun e => (elemOf x w e &&& elemOf y w e, 0)))
  ∧ (VReady (.vor m ctl ty d a b) s → Elementwise (.vor m ctl ty d a b) s ctl w d k2 (fun e => (elemOf x w e ||| elemOf y w e, 0)))
  ∧ (VReady (.vxor m ctl ty d a b) s → Elementwise (.vxor m ctl ty d a b) s ctl w d k2 (fun e => (elemOf x w e ^^^ elemOf y w e, 0)))
  ∧ (VReady (.vshl m ctl ty d a b) s → Elementwise (.vshl m ctl ty d a b) s ctl w d k2 (fun e =>
      (if elemOf y w e < w then elemOf x w e * 2 ^ elemOf y w e % 2 ^ w else 0, 0)))
  ∧ (VReady (.vshr m ctl ty z d a b) s → Elementwise (.vshr m ctl ty z d a b) s ctl w d k2 (fun e =>
      (if z then (if elemOf y w e < w then elemOf x w e / 2 ^ elemOf y w e else 0)
        else ((BitVec.ofNat w (elemOf x w e)).sshiftRight (elemOf y w e)).toNat, 0)))

/-- R274 to R279: `VCMP` writes a bit for each active element and 0 for the rest; `VCMPQ` also publishes whether any, or all, of them hold; `VSEL`, `VSETL`,
`VCNT` and `VIOTA` select, make, count and number. -/
def Obligations.VectorPredicates : Prop := ∀ (s : State) (m : Dep) (k kd : Fin 8) (ty : VTy) (z all q : Bool) (cc : VCond) (d : VDst) (a b : VSrc)
    (x y : VecReg) (k1 k2 : Bank),
  let w := ty.width
  let n := s.here
  let at' (e : Nat) : Bool × FlagBits := cmpElem ty z cc (elemOf x w e) (elemOf y w e)
  let on (c : Bank) (e : Nat) : Bool := (c.kreg k).getLsbD e
  let flags : FlagBits := orFlags ty.elems (fun e => if on k2 e then (at' e).2 else 0)
  let isBits (r : Reg256) : Prop := ∀ e, e < 256 → r.getLsbD e = (decide (e < ty.elems) && on k2 e && (at' e).1)
  (n.takeV a = .ok x k1 → k1.takeV b = .ok y k2 →
    (VReady (.vcmp m k ty z cc kd a b) s → ∃ r, isBits r ∧ Gives (.vcmp m k ty z cc kd a b) s s ((k2.setKreg kd r).raiseV flags))
    ∧ (VReady (.vcmpq m k ty z all cc kd a b) s → n.room .cq 1 = true → ∃ r, isBits r ∧
        let hit : Bool := if all then decide (∀ e, e < ty.elems → on k2 e = true → (at' e).1 = true) else decide (∃ e, e < ty.elems ∧ on k2 e = true ∧ (at' e).1 = true)
        Gives (.vcmpq m k ty z all cc kd a b) s s (((k2.reserve .cq n.engs.V.walk (if hit then 1 else 0)).setKreg kd r).raiseV flags))
    ∧ (VReady (.vsel m k ty d a b) s → Writes (.vsel m k ty d a b) s w d k2 (fun e => if on k2 e then elemOf x w e else elemOf y w e) 0))
  ∧ (∀ xc imm, VReady (.vsetl m xc kd imm) s → ∃ r : Reg256, (∀ e, e < 256 → r.getLsbD e = decide ((e : Int) < imm.toInt))
      ∧ Gives (.vsetl m xc kd imm) s s (n.setKreg kd r))
  ∧ (VReady (.vcnt m ty q d k) s → (q = true → n.room .ds 1 = true) →
      let c := ((upTo ty.elems).filter (on n)).length
      let n' := if q then n.reserve .ds n.engs.V.walk (BitVec.ofNat 64 c) else n
      Writes (.vcnt m ty q d k) s w d n' (fun _ => c) 0)
  ∧ (∀ ctl, VReady (.viota m ctl ty true d) s → Writes (.viota m ctl ty true d) s w d n (fun e => ((upTo e).filter (fun j => (n.kreg ctl.k).getLsbD j)).length) 0)
  ∧ (∀ ctl, VReady (.viota m ctl ty false d) s → Elementwise (.viota m ctl ty false d) s ctl w d n (fun e => (e, 0)))

/-- R280, 03 R98: `VRSUM` and `VRMAX` reduce the active elements along the fixed tree into element 0, and with `.q` into `ds`. An integer sum that wraps is the
sum modulo 2^w; an integer maximum is the greatest active element. -/
def Obligations.VectorReductions : Prop := ∀ (s : State) (m : Dep) (k : Fin 8) (ty : VTy) (z q sat : Bool) (rm : RMode) (d : VDst) (a : VSrc) (x : VecReg) (k1 : Bank),
  let w := ty.width
  let on (e : Nat) : Bool := (k1.kreg k).getLsbD e
  let act := (upTo ty.elems).filter on
  let into (i : Instr) (r : Nat × FlagBits) : Prop :=
    let v : Reg64 := if ty.isFloat ∨ z = true then BitVec.ofNat 64 (r.1 % 2 ^ w) else BitVec.ofInt 64 (signedOf w r.1)
    let k2 := if q then k1.reserve .ds s.here.engs.V.walk v else k1
    Writes i s w d k2 (fun e => if e = 0 then r.1 else 0) r.2
  s.here.takeV a = .ok x k1 → (q = true → k1.room .ds 1 = true) →
  (VReady (.vrsum m k ty z rm q sat d a) s →
    into (.vrsum m k ty z rm q sat d a) (reduceVec ty (k1.kreg k) x 0 (if ty.isFloat then flop2 ty rm (Fl.add rm) else fun p r => intoBits z sat w (intOf z w p + intOf z w r))))
  ∧ (VReady (.vrmax m k ty z q d a) s → into (.vrmax m k ty z q d a) (reduceVec ty (k1.kreg k) x (maxIdent ty z) (pickElem ty z false)))
  ∧ (ty.isFloat = false → (reduceVec ty (k1.kreg k) x 0 (intop2 ty z false (· + ·))).1 = (act.map (fun e => elemOf x w e)).sum % 2 ^ w)
  ∧ (ty.isFloat = false → act ≠ [] → let r := (reduceVec ty (k1.kreg k) x (maxIdent ty z) (pickElem ty z false)).1
      (∃ e ∈ act, r = elemOf x w e) ∧ ∀ e ∈ act, intOf z w (elemOf x w e) ≤ intOf z w r)

/-- R281 to R285: the moves between registers of V, queues and predicates, the broadcast, and the permutations. -/
def Obligations.VectorMoves : Prop := ∀ (s : State) (m : Dep) (ctl : VCtl) (ty : VTy) (d : VDst) (a b : VSrc) (z k : Fin 8) (lane : Fin 64) (x y : VecReg) (k1 k2 : Bank),
  let w := ty.width
  let n := s.here
  let v := n.engs.V.walk
  (n.takeV a = .ok x k1 →
    (VReady (.vmov m (.copy ctl ty d a)) s → Elementwise (.vmov m (.copy ctl ty d a)) s ctl w d k1 (fun e => (elemOf x w e, 0)))
    ∧ (VReady (.vmov m (.ds a lane)) s → n.room .ds 1 = true → Gives (.vmov m (.ds a lane)) s s (k1.reserve .ds v (BitVec.ofNat 64 (elemOf x 64 lane.val))))
    ∧ (VReady (.vmov m (.da a lane)) s → n.room .da 1 = true → Gives (.vmov m (.da a lane)) s s (k1.reserve .da v (BitVec.ofNat 64 (elemOf x 64 lane.val))))
    ∧ (VReady (.vmov m (.tz z a)) s → Gives (.vmov m (.tz z a)) s s (k1.setZreg z (x.truncate 256)))
    ∧ (VReady (.vmov m (.tk k a)) s → Gives (.vmov m (.tk k a)) s s (k1.setKreg k (x.truncate 256)))
    ∧ (∀ kind : ShufKind, shufSrc kind = none → VReady (.vshuf m ctl ty kind d a) s →
        Elementwise (.vshuf m ctl ty kind d a) s ctl w d k1 (fun e => (shufElem ty x 0 e kind, 0)))
    ∧ (k1.takeV b = .ok y k2 →
      (VReady (.vperm m ctl ty d a b) s → Elementwise (.vperm m ctl ty d a b) s ctl w d k2 (fun e =>
        (if elemOf y w e < ty.elems then elemOf x w (elemOf y w e) else 0, 0)))
      ∧ (∀ kind : ShufKind, shufSrc kind = some b → VReady (.vshuf m ctl ty kind d a) s →
        Elementwise (.vshuf m ctl ty kind d a) s ctl w d k2 (fun e => (shufElem ty x y e kind, 0)))))
  ∧ (VReady (.vmov m (.fz d z)) s → n.roomV d = .ok → Gives (.vmov m (.fz d z)) s s (n.putV d ((n.zreg z).zeroExtend 4096)))
  ∧ (VReady (.vmov m (.fk d k)) s → n.roomV d = .ok → Gives (.vmov m (.fk d k)) s s (n.putV d ((n.kreg k).zeroExtend 4096)))
  ∧ (∀ xc imm, VReady (.vbcast m xc d imm) s → Writes (.vbcast m xc d imm) s 64 d n (fun _ => imm.toNat) 0)
  ∧ (∀ (count : Fin 32) (vs : List Reg64), n.takeDv count.val = some (vs, k1) → VReady (.vpopq m ctl count d) s →
      Writes (.vpopq m ctl count d) s 64 d k1 (fun e => if e < count.val ∧ (k1.kreg ctl.k).getLsbD e = true then (vs.getD e 0).toNat
        else if ctl.zm then 0 else elemOf (k1.oldV d) 64 e) 0)

/-- R286 to R289, 03 R87 to R92: conversions element by element, reciprocal seeds, and the scales, elements and values of VX4.
Rests on log entries 29 and 44. -/
def Obligations.VectorConversions : Prop := ∀ (s : State) (m : Dep) (ctl : VCtl) (ty : VTy) (rm : RMode) (d : VDst) (a b : VSrc) (zs : Fin 8) (x y : VecReg) (k1 k2 : Bank),
  let w := ty.width
  let n := s.here
  n.takeV a = .ok x k1 →
  (∀ (dst src : CTy) (sz dz : Bool) (ov : Ov) (part : Fin 8) (rnd : VRnd) (r : VecReg) (kr : Bank),
    (match rnd with | .mode _ => r = 0 ∧ kr = k1 | .sr c => k1.takeV c = .ok r kr) → VReady (.vcvt m ctl dst src sz dz ov part rnd d a) s →
    let mm := min src.elems dst.elems
    let s0 := if dst.elems < src.elems then part.val * mm else 0
    let d0 := if src.elems < dst.elems then part.val * mm else 0
    let el (e : Nat) : Nat × FlagBits :=
      if d0 ≤ e ∧ e < d0 + mm ∧ (kr.kreg ctl.k).getLsbD (e - d0) = true then
        convElem dst src sz dz ov rnd.mode' (rndField r e) (elemOf x src.width (s0 + (e - d0)))
      else if d0 ≤ e ∧ e < d0 + mm ∧ ctl.zm = true then (0, 0) else (elemOf (kr.oldV d) dst.width e, 0)
    Writes (.vcvt m ctl dst src sz dz ov part rnd d a) s dst.width d kr (fun e => (el e).1) (orFlags dst.elems (fun e => (el e).2)))
  ∧ (VReady (.vrcpe m ctl ty d a) s → Elementwise (.vrcpe m ctl ty d a) s ctl w d k1 (fun e => rcpElem ty (elemOf x w e)))
  ∧ (VReady (.vrsqe m ctl ty d a) s → Elementwise (.vrsqe m ctl ty d a) s ctl w d k1 (fun e => rsqElem ty (elemOf x w e)))
  ∧ (k1.takeV b = .ok y k2 →
    (VReady (.vqmax m ty zs a b) s →
      let q (g : Nat) : Nat × FlagBits := quantScale ((upTo 8).map (fun j => ty.ffmt.read (elemOf x w (8 * g + j)))) (bf16F.read (elemOf y 16 0))
      ∃ v : Reg256, (∀ g, g < 32 → v.toNat / 2 ^ (8 * g) % 2 ^ 8 = if g < ty.elems / 8 then (q g).1 % 2 ^ 8 else 0)
        ∧ Gives (.vqmax m ty zs a b) s s ((k2.setZreg zs v).raiseV (orFlags (ty.elems / 8) (fun g => (q g).2))))
    ∧ (∀ (part : Fin 16), VReady (.vdq m ctl ty rm part zs d a b) s →
      Elementwise (.vdq m ctl ty rm part zs d a b) s ctl w d k2 (fun e =>
        let p := (e2m1 (elemOf x 4 (part.val * ty.elems + e))).mul (e3m5F (scaleByte (k2.zreg zs) (e / 8)))
        let q := p.1.mul (bf16F.read (elemOf y 16 0))
        ((ty.ffmt.round rm 0 q.1).1, p.2 ||| q.2 ||| (ty.ffmt.round rm 0 q.1).2)))
    ∧ (∀ (part : Fin 16) (rnd : VRnd) (r : VecReg) (kr : Bank),
      (match rnd with | .mode _ => r = 0 ∧ kr = k2 | .sr c => k2.takeV c = .ok r kr) → VReady (.vqcvt m ty rnd part zs d a b) s →
      let lo := part.val * ty.elems
      let el (e : Nat) : Nat × FlagBits := if lo ≤ e ∧ e < lo + ty.elems then
        quantElem rnd.mode' (rndField r e) (scaleByte (kr.zreg zs) ((e - lo) / 8)) (bf16F.read (elemOf y 16 0)) (ty.ffmt.read (elemOf x w (e - lo)))
        else (elemOf (kr.oldV d) 4 e, 0)
      Writes (.vqcvt m ty rnd part zs d a b) s 4 d kr (fun e => (el e).1) (orFlags 1024 (fun e => (el e).2))))

/-- R291 to R296: `VPUSHC` appends the active elements to a buffer or to a stream's staging; `VPOPC` takes a vector from a buffer; `VACC` reads and writes lines
of an accumulator slot; `VSTAT` pushes V's status and can clear it.
Rests on log entry 30. -/
def Obligations.VectorBuffers : Prop := ∀ (s : State) (m : Dep) (k : Fin 8) (ty : VTy) (d : VDst) (a : VSrc) (c : Fin 4) (acc : Fin 1024) (line : Fin 32) (col : Bool) (h : Fin 8)
    (vt : AccTy) (rm : RMode) (ov : Ov) (x : VecReg) (k1 : Bank),
  let w := ty.width
  let n := s.here
  let held : List Nat := ((assoc n.vec.cb c.val).map (·.elems)).getD []
  let put (b : Bank) (l : List Nat) : Bank := { b with vec := { b.vec with cb := if l = [] then assocDel b.vec.cb c.val else assocPut b.vec.cb c.val ⟨ty, l⟩ } }
  let same : Prop := held = [] ∨ (assoc n.vec.cb c.val).map (·.ty) = some ty
  (n.takeV a = .ok x k1 → VReady (.vpushc m k ty (.cb c) a) s → same →
    let l := ((upTo ty.elems).filter (fun e => (k1.kreg k).getLsbD e)).map (elemOf x w)
    held.length + l.length ≤ 2 * ty.elems → Gives (.vpushc m k ty (.cb c) a) s s (put k1 (held ++ l)))
  ∧ (∀ (q : Fin 8) (flush : Bool), n.takeV a = .ok x k1 → VReady (.vpushc m k ty (.q q flush) a) s →
    let stage : List Nat := ((assoc k1.vec.stage q.val).map (·.elems)).getD []
    let l := stage ++ ((upTo ty.elems).filter (fun e => (k1.kreg k).getLsbD e)).map (elemOf x w)
    let whole : List VecReg := if l.length < ty.elems then [] else [vecOf w (l.take ty.elems)]
    let left := if l.length < ty.elems then l else l.drop ty.elems
    let vs := whole ++ (if flush = true ∧ left ≠ [] then [vecOf w left] else [])
    let rest := if flush then [] else left
    (stage = [] ∨ (assoc k1.vec.stage q.val).map (·.ty) = some ty) → stage.length < ty.elems → k1.engs.V.walk ≤ k1.engs.A.walk → k1.streamRoom q vs.length = .ok →
    let c := (k1.spend q vs.length).applyAll k1.engs.V.pc (k1.vectorEffs q 0 vs)
    Gives (.vpushc m k ty (.q q flush) a) s s { c with vec := { c.vec with
      stage := if rest = [] then assocDel c.vec.stage q.val else assocPut c.vec.stage q.val ⟨ty, rest⟩ } })
  ∧ (same → ty.elems ≤ held.length → VReady (.vpopc m ty .full d c) s →
      Writes (.vpopc m ty .full d c) s w d (put n (held.drop ty.elems)) (fun e => held.getD e 0) 0)
  ∧ (∀ kE : Fin 8, same → VReady (.vpopc m ty (.tail kE) d c) s →
      ∃ r : Reg256, (∀ e, e < 256 → r.getLsbD e = decide (e < min held.length ty.elems)) ∧
        Writes (.vpopc m ty (.tail kE) d c) s w d ((put n (held.drop ty.elems)).setKreg kE r) (fun e => held.getD e 0) 0)
  ∧ (n.slotBusy acc.val = false →
    let cell (b : Bank) (j : Nat) : AccCell := b.cell acc.val (if col then 32 * j + line.val else 32 * line.val + j)
    (VReady (.vaccRd m acc d line col h vt rm ov) s →
      let el (e : Nat) : Nat × FlagBits := if 32 * h.val ≤ e ∧ e < 32 * h.val + 32 then accElem vt rm ov (cell n (e - 32 * h.val)) else (elemOf (n.oldV d) vt.width e, 0)
      Writes (.vaccRd m acc d line col h vt rm ov) s vt.width d n (fun e => (el e).1) (orFlags (4096 / vt.width) (fun e => (el e).2)))
    ∧ (∀ add, n.takeV a = .ok x k1 → VReady (.vaccWr m acc a line col h vt rm add) s →
      let i : Instr := .vaccWr m acc a line col h vt rm add
      ∃ b : Bank, Gives i s s b ∧ (∀ j, j < 32 → cell b j = (accPut vt add (elemOf x vt.width (32 * h.val + j)) (cell n j)).1)
        ∧ (∀ nn kk, kk < 1024 → (nn ≠ acc.val ∨ ∀ j, j < 32 → kk ≠ (if col then 32 * j + line.val else 32 * line.val + j)) → b.cell nn kk = n.cell nn kk)
        ∧ (∀ p, p ≠ .cells → p ≠ .vflags → BankPart.same b k1 p)))
  ∧ (∀ clr, VReady (.vstat m clr) s → n.room .ds 1 = true →
      let b := (n.reserve .ds n.engs.V.walk 0).fill .ds n.engs.V.walk [n.vec.flags.zeroExtend 64]
      Gives (.vstat m clr) s s { b with vec := { b.vec with flags := if clr then 0 else n.vec.flags } })

/-! ## Transform words (11) -/

namespace Sys2Proof.Machine

/-- T may issue the word: its previous word has retired (11 R369). -/
def TReady (i : Instr) (s : State) : Prop := Ready i s ∧ s.here.engs.T.rets = []

/-- T's steps written in the share (11 R371). -/
def Bank.written (b : Bank) (l : List TStep) : Bank := l.foldl (fun c x => c.putPieces x.writes) b

/-- T starts a word on images (11 R369 to R371): it holds their extents and has its steps still to do. In an eager turn with nothing else in flight, and where
there is no step, it goes on to its end: its steps are written, and it retires with its effects and flags (log entry 3). -/
def Starts (i : Instr) (s : State) (b : Bank) (imgs : List TImg) (effs : List Eff) (r : TDone) : Prop :=
  let w := s.here.engs.T.walk
  let ext := (imgs.filter (fun t => !t.idle)).map (fun t => t.d.extent)
  s.here.underWay s.cur.loc ext = false →
  (s.cur.eager = false → r.1 ≠ [] → Gives i s s { b with tx := { b.tx with work := some ⟨w, ext, 0, 0, r.1⟩ } })
  ∧ (s.cur.eager = true ∨ r.1 = [] → s.here.calm → Fits i s.here →
      Gives i s s ((b.written r.1).applyAll s.here.engs.T.pc (effs ++ [.flags .T r.2, .txDone])))

/-- The record of an image word passes its checks: its image lies in the share and holds no uncorrectable byte (11 R381 steps 3, 7 and 8). -/
def ImageOk (k : Bank) (td : Fin 64) (fmts : List Nat) (along : Nat) : Prop :=
  let d := tdescOf (k.td td)
  recCheck (k.td td) none k.hdr.spad = none ∧ d.fmt ∈ fmts ∧ d.along = along ∧ k.imgBad ⟨d, false⟩ = none

/-- A ring that a word of T names, on one of its sides: A has come as far, it is bound, and its slots are of the image's size, or it is idle
(11 R381 steps 4 to 6; 04 R116). -/
def BoundRing (k : Bank) (g : Fin 16) (r : Ring) (tdr : List Reg64) : Prop :=
  k.engs.T.walk ≤ k.engs.A.walk ∧ k.ringAt g k.engs.T.walk = some r ∧ (∃ x, k.tbind g = some x ∧ x.tdr = tdr) ∧ k.slotFits tdr r = true

/-- A ring that a word of T on a core names as its input: bound, and published or idle. -/
def InRing (k : Bank) (l : Loc) (g : Fin 16) (r : Ring) (t : TImg) (tdr : List Reg64) : Prop :=
  BoundRing k g r tdr ∧ r.cons = .t ∧ k.tSrc l g r tdr = some t ∧ k.imgBad t = none

/-- A ring that a word of T names as its output: bound, with its tail slot free (it is reserved in `b`), and what the word does to it as it retires. -/
def OutRing (k : Bank) (g : Fin 16) (t : TImg) (b : Bank) (effs : List Eff) (tdr : List Reg64) : Prop :=
  ∃ r, BoundRing k g r tdr ∧ r.prod = .t ∧ k.tDst g r tdr = some (t, b, effs)

end Sys2Proof.Machine

/-- R368, R372, R377, R378, R380, R382: in image mode a transform word replaces every row of its image by the rows of its plan: whole transforms, one stage,
the digit reversal, and the real transforms.
Rests on log entries 3, 13, 14 and 31. -/
def Obligations.TransformImages : Prop := ∀ (s : State) (m : Dep) (p : Fin 8) (td : Fin 64) (x : Plan) (st : Fin 32) (inv : Bool),
  let k := s.here
  let t : TImg := ⟨tdescOf (k.td td), false⟩
  let by' (i : Instr) (f : List Cx → RowPasses) : Prop := TReady i s → Starts i s k [t] [] (k.rowsInto t t (fun _ row => f row))
  assoc k.tx.plans p.val = some x →
  (x.real = false → ImageOk k td [x.cf] x.n →
    by' (.txFwd m p td) (fullRow x.ff false x.radix) ∧ by' (.txInv m p td) (fullRow x.ff true x.radix)
    ∧ (st.val < x.radix.length → by' (.txStage m p (.image td) st inv) (fun row => onePass st.val (stageRow x.ff inv x.radix st.val row)))
    ∧ by' (.txDigrev m p td) (fun row => onePass 0 (revRow x.radix row, 0)))
  ∧ (x.real = true → ImageOk k td [x.cf] (x.n / 2 + 1) →
    by' (.txRfwd m p td) (fun row => rfwdRow x.ff x.radix x.n (row.take (x.n / 2)))
    ∧ by' (.txRinv m p td) (fun row => (rinvRow x.ff x.radix x.n row).mapLast (· ++ [(0, 0)])))
  ∧ (TReady (.txFwd m p td) s → s.cur.eager = false → x.real = true →
      ∃ u, exec (.txFwd m p td) s = .next u ∧ u.here.flt = some ⟨.tplan, k.engs.T.pc, 0⟩ ∧ u.here.acc.sp0 = k.acc.sp0)

/-- R368, R377 to R383: in ring mode a transform word computes the rows of its input slot into its output slot; as it retires the input is popped and the
output is FULL.
Rests on log entries 3, 14 and 31. -/
def Obligations.TransformRings : Prop := ∀ (s : State) (m : Dep) (p : Fin 8) (gi go : Fin 16) (x : Plan) (st : Fin 32) (inv : Bool) (ri : Ring) (src dst : TImg)
    (b : Bank) (effs : List Eff) (ti to' : List Reg64),
  let k := s.here
  let d := tdescOf ti
  let e := tdescOf to'
  let by' (i : Instr) (f : List Cx → RowPasses) : Prop :=
    TReady i s → Starts i s b [src, dst] ((if ri.modeR then [] else [.ringPop gi k.engs.T.walk]) ++ effs) (k.rowsInto src dst (fun _ row => f row))
  let scaled (src : TImg) (rm : RMode) (c : Fl) (row : List Cx) : RowPasses :=
    let r := scaleRow src.d rm c row
    onePass 0 (r.1, if src.idle then 0 else r.2)
  d.rows = e.rows →
  (InRing k s.cur.loc gi ri src ti → OutRing k go dst b effs to' →
    (assoc k.tx.plans p.val = some x →
      (x.real = false → d.fmt = x.cf → e.fmt = x.cf → d.along = x.n → e.along = x.n →
        by' (.txFwdRing m p gi go) (fullRow x.ff false x.radix) ∧ by' (.txInvRing m p gi go) (fullRow x.ff true x.radix)
        ∧ (st.val < x.radix.length → by' (.txStage m p (.ring gi go) st inv) (fun row => onePass st.val (stageRow x.ff inv x.radix st.val row)))
        ∧ by' (.txDigrevRing m p gi go) (fun row => onePass 0 (revRow x.radix row, 0)))
      ∧ (x.real = true → d.fmt = x.rf → e.fmt = x.cf → d.along = x.n → e.along = x.n / 2 + 1 →
        by' (.txRfwdRing m p gi go) (fun row => rfwdRow x.ff x.radix x.n (packReal row)))
      ∧ (x.real = true → d.fmt = x.cf → e.fmt = x.rf → d.along = x.n / 2 + 1 → e.along = x.n →
        by' (.txRinvRing m p gi go) (fun row => (rinvRow x.ff x.radix x.n row).mapRows unpackReal)))
    ∧ (∀ (pw : BitVec 16) (rm : RMode), d.fmt = e.fmt → d.fmt ∈ [6, 7, 0x0C, 0x0D] → d.along = e.along →
      by' (.txScale m (.ring gi go) (.pow2 pw) rm) (scaled src rm (.fin false 1 1 pw.toInt))))
  ∧ (∀ (w : Reg64) (rm : RMode), k.peek .dt k.engs.T.walk = some w → InRing (k.drop .dt) s.cur.loc gi ri src ti → OutRing (k.drop .dt) go dst b effs to' →
      d.fmt = e.fmt → d.fmt ∈ [6, 7, 0x0C, 0x0D] → d.along = e.along →
      by' (.txScale m (.ring gi go) .dt rm) (scaled src rm (fp64F.read w.toNat)))

/-- R383, R384: `TX.SCALE` multiplies every component by a power of two or by the entry of `dt`; `TX.CPLX` multiplies every element by one of the ring's, or by
the one of its column.
Rests on log entries 3 and 31. -/
def Obligations.TransformPointwise : Prop := ∀ (s : State) (m : Dep) (td : Fin 64) (g : Fin 16) (rm : RMode) (conj kp bc : Bool),
  let k := s.here
  let d := tdescOf (k.td td)
  let t : TImg := ⟨d, false⟩
  (∀ pw : BitVec 16, TReady (.txScale m (.image td) (.pow2 pw) rm) s → ImageOk k td [6, 7, 0x0C, 0x0D] d.along →
    Starts (.txScale m (.image td) (.pow2 pw) rm) s k [t] [] (k.rowsInto t t (fun _ row => onePass 0 (scaleRow d rm (.fin false 1 1 pw.toInt) row))))
  ∧ (∀ w, TReady (.txScale m (.image td) .dt rm) s → k.peek .dt k.engs.T.walk = some w → ImageOk k td [6, 7, 0x0C, 0x0D] d.along →
    Starts (.txScale m (.image td) .dt rm) s (k.drop .dt) [t] [] (k.rowsInto t t (fun _ row => onePass 0 (scaleRow d rm (fp64F.read w.toNat) row))))
  ∧ (∀ (r : Ring) (h : TImg) (th : List Reg64), TReady (.txCplx m td g conj kp bc) s → ImageOk k td [0x0C, 0x0D] d.along → InRing k s.cur.loc g r h th →
    ((tdescOf th).fmt = d.fmt ∨ (tdescOf th).fmt = d.fmt - 6) → (tdescOf th).count = (if bc then d.along else d.count) →
    let el (r n : Nat) (row : List Cx) : Cx × FlagBits :=
      cplxElem d.comp (!h.d.complex) conj (row.getD n (0, 0)) (k.multElem h (if bc then n else d.rowUnit r n))
    Starts (.txCplx m td g conj kp bc) s k [t, h] (if kp || r.modeR then [] else [.ringPop g k.engs.T.walk])
      (k.rowsInto t t (fun r row =>
        let l := (upTo row.length).map (fun n => el r n row)
        onePass 0 (l.map (·.1), if h.idle then 0 else l.foldl (fun f x => f ||| x.2) 0))))

/-- R372 to R374, R385 to R390: `TX.PLAN` sets a plan whose radices multiply to its length; `TX.TWID` and `TX.LEG` fill an image with a table; `TX.RING` binds a
ring; `TX.STAT` pushes T's status.
Rests on log entries 3, 13 and 25. -/
def Obligations.TransformTables : Prop := ∀ (s : State) (m : Dep) (p : Fin 8) (td : Fin 64) (g : Fin 16),
  let k := s.here
  let d := tdescOf (k.td td)
  (∀ (spec : PlanSpec) (x : Plan), TReady (.txPlan m p spec) s → s.cur.eager = false →
    (spec.auto = true → planOf spec (some (autoRadix (if spec.real then spec.n.toNat / 2 else spec.n.toNat))) = some x →
      Gives (.txPlan m p spec) s s { k with tx := { k.tx with plans := assocPut k.tx.plans p.val x } })
    ∧ (∀ w, spec.auto = false → k.peek .dt k.engs.T.walk = some w → planOf spec (readRadix w) = some x →
      Gives (.txPlan m p spec) s s { k.drop .dt with tx := { k.tx with plans := assocPut k.tx.plans p.val x } }))
  ∧ (∀ (outer pos : Bool) (q : BitVec 21), 0 < q.toNat → q.toNat ≤ 2 ^ 20 →
    let tw (d : TDesc) (e : Nat) : Cx := twiddle d.comp pos (if outer then (d.coord e).getD 0 0 * (d.coord e).getD 1 0 % q.toNat else e % q.toNat) q.toNat
    (TReady (.txTwid m (.image td) outer pos q) s → recCheck (k.td td) none k.hdr.spad = none → d.fmt ∈ [0x0C, 0x0D] →
      Starts (.txTwid m (.image td) outer pos q) s k [⟨d, false⟩] [] ((⟨d, false⟩ : TImg).fillSteps (tw d), 0))
    ∧ (∀ (t : TImg) (b : Bank) (effs : List Eff) (th : List Reg64), TReady (.txTwid m (.ring g) outer pos q) s → OutRing k g t b effs th →
      (tdescOf th).fmt ∈ [0x0C, 0x0D] → Starts (.txTwid m (.ring g) outer pos q) s b [t] effs (t.fillSteps (tw t.d), 0)))
  ∧ (∀ (order : BitVec 12) (d0 : BitVec 13) (t : TImg) (b : Bank) (effs : List Eff) (th : List Reg64), TReady (.txLeg m td g order d0) s →
    ImageOk k td [6, 7] d.along → OutRing k g t b effs th → (tdescOf th).fmt = d.fmt → dimOf (tdescOf th).win 0 = d.along → dimOf (tdescOf th).win 2 = 1 →
    dimOf (tdescOf th).win 3 = 1 →
    let node (i : Nat) : List Nat × FlagBits := legNode d.comp order.toNat d0.toNat (t.d.w 1) (k.rowElem ⟨d, false⟩ 0 i).1
    Starts (.txLeg m td g order d0) s b [t, ⟨d, false⟩] effs
      (t.fillSteps (fun e => (if e % t.d.w 0 < d.along then (node (e % t.d.w 0)).1.getD (e / t.d.w 0) 0 else 0, 0)),
        if t.idle then 0 else orFlags d.along (fun i => (node i).2)))
  ∧ (∀ r : Ring, TReady (.txRing m td g) s → s.cur.eager = false → recFault (k.td td) none = none → k.engs.T.walk ≤ k.engs.A.walk →
    k.ringAt g k.engs.T.walk = some r → (r.prod = .t ∨ r.cons = .t) →
    Gives (.txRing m td g) s s { k with tx := { k.tx with bind := assocPut k.tx.bind g.val ⟨k.td td, none⟩ } })
  ∧ (∀ clr, TReady (.txStat m clr) s → s.cur.eager = false → k.room .ds 1 = true →
    let b := (k.reserve .ds k.engs.T.walk 0).fill .ds k.engs.T.walk [k.tx.flags.zeroExtend 64]
    Gives (.txStat m clr) s s { b with tx := { b.tx with flags := if clr then 0 else k.tx.flags } })

/-- R368, R370: computing rows of one image into another: if the bytes of the image lie apart, each row reads as computed from the source as it was before the
word, and no byte beside the image changes. Source and target are one image, or lie apart. A word that fills an image leaves each element as its function says.
R371: T writes at most 4,096 elements from one progress point to the next; stopped at one it stays as it is, and running it writes one step and stands at the
step's end, with the stage it has reached and the elements it has written. -/
def Obligations.RowsComputed : Prop :=
  (∀ (b : Bank) (src dst : TImg) (f : Nat → List Cx → RowPasses) (g : Nat → Cx),
    let d := dst.d
    let w := d.comp.width
    let c := b.rowsInto src dst f
    let u := b.written c.1
    let v := b.written (dst.fillSteps g)
    let low (x : Cx) : Cx := if d.complex then (x.1 % 2 ^ w, x.2 % 2 ^ w) else (x.1 % 2 ^ w, 0)
    dst.idle = false → d.fmt ∈ [6, 7, 0x0C, 0x0D] → 0 < d.w 0 → 0 < d.w 1 →
    (∀ e k e' k', e < d.count → e' < d.count → k < d.es → k' < d.es → d.imgByte e k = d.imgByte e' k' → e = e' ∧ k = k') →
    ((src = dst ∨ src.idle = true ∨ ∀ r n k e' k', r < d.rows → n < src.d.along → k < src.d.es → e' < d.count → k' < d.es →
        src.d.imgByte (src.d.rowUnit r n) k ≠ d.imgByte e' k') →
      (∀ r, r < d.rows → ((f r (b.rowRead src r)).last []).length = d.along ∧ ∀ x ∈ (f r (b.rowRead src r)).1, x.2.length ≤ d.along) →
      (∀ a, (∀ e k, e < d.count → k < d.es → d.imgByte e k ≠ a) → spGet 0 u.acc.sp0 a = spGet 0 b.acc.sp0 a)
      ∧ (∀ r n, r < d.rows → n < d.along → u.rowElem dst r n = low (((f r (b.rowRead src r)).last []).getD n (0, 0)))
      ∧ c.2 = orFlags d.rows (fun r => (f r (b.rowRead src r)).2)
      ∧ ∀ x ∈ c.1, x.elems ≤ 4096)
    ∧ (∀ a, (∀ e k, e < d.count → k < d.es → d.imgByte e k ≠ a) → spGet 0 v.acc.sp0 a = spGet 0 b.acc.sp0 a)
    ∧ (∀ e, e < d.count → v.multElem dst e = low (g e)) ∧ ∀ x ∈ dst.fillSteps g, x.elems ≤ 4096)
  ∧ (∀ (b : Bank) (w : TWork) (x : TStep) (rest : List TStep), b.tx.work = some w → w.steps = x :: rest →
    (b.live = false → b.stepT = b)
    ∧ (b.live = true → rest ≠ [] →
      b.stepT.tx = { b.tx with work := some { w with stage := x.stage, elem := w.elem + x.elems, steps := rest } }
      ∧ b.stepT.acc = (b.putPieces x.writes).acc ∧ b.stepT.engs = b.engs))

/-- R373, R374: the plans that `.auto` makes: a length has one if and only if it is a product of 2, 3, 5 and 7 within the range; its radices then multiply to
the length.
R378: the digit reversal is a permutation of a row: it is undone by the digit reversal of the radices in the opposite order. -/
def Obligations.PlansAndDigits : Prop :=
  (∀ (spec : PlanSpec), spec.auto = true →
    let l := if spec.real then spec.n.toNat / 2 else spec.n.toNat
    let x := planOf spec (some (autoRadix l))
    (x.isSome = true ↔ (if spec.real then spec.n.toNat % 2 = 0 ∧ 2 ≤ spec.n.toNat else 1 ≤ spec.n.toNat) ∧ spec.n.toNat ≤ 2 ^ 20
        ∧ ∃ a b c d : Nat, l = 2 ^ a * 3 ^ b * 5 ^ c * 7 ^ d)
    ∧ ∀ y, x = some y → y.radix.prod = l ∧ ∀ r ∈ y.radix, r ∈ [2, 3, 4, 5, 7, 8])
  ∧ (∀ (radix : List Nat) (n : Nat), (∀ r ∈ radix, 0 < r) → n < radix.prod →
    revOf radix n < radix.prod ∧ revOf radix.reverse (revOf radix n) = n)

/-! ## Fabric words (12, 14) -/

namespace Sys2Proof.Machine

/-- A forms the target of a word of F: it goes past the word without its tokens, and the target waits for F (12 R395, R396). -/
def Forms (i : Instr) (s u : State) (t : Target) : Prop :=
  s.cur.eng = .A → s.here.live = true → s.here.acc.park = none → s.cur.eager = false → s.here.fab.targets.length < 16 →
  ∃ v, exec i s = .next v ∧ Kept u v ∧ (∀ p : BankPart, p ≠ .fabric → BankPart.same v.here u.here p)
    ∧ v.here.fab = { u.here.fab with targets := u.here.fab.targets ++ [t] }
    ∧ ∀ e, v.here.eng e = if e = .A then (s.here.eng .A).pass (Instr.hd i).ext none else s.here.eng e

/-- A forms the target of a word with a window: its checks pass and, but for a multicast, every part of the window with a home translates (12 R396, R402). -/
def FormsWindow (i : Instr) (s : State) (f : Form) : Prop :=
  let k := s.here
  let t := k.td f.td
  let d := tdescOf t
  let org := originOf (k.ax f.h.oa) (k.ax f.h.ob)
  let parts := homeParts d org f.store
  let target (elems : List (Nat × List Rng)) (offs : List (Nat × Nat × Nat)) (members : List Nat) : Target :=
    ⟨k.engs.A.walk, k.engs.A.pc, t, org, k.ax f.ra, k.ax f.rb, elems, offs, members⟩
  k.readyA ((f.h.oa :: f.h.ob :: f.regs).map AReg.a) = true → k.tdReady f.td = true → k.invalidating = false → s.formFault f t org = none →
  (∀ n, f.ap = some n → Forms i s s (target [] parts (s.aperture k.ctx n)))
  ∧ (∀ (u : State) (r : List Rng) (elems : List (Nat × List Rng)), f.ap = none → (d.asp = .virt → ∀ p ∈ parts, s.held k.ctx p.2.1 p.2.2 = false) →
      s.formParts s.cur.loc d.asp f.store (sortOn (·.2.1) parts) = (u, .ok r, elems) → (f.noHost = true → inHost (elems.flatMap (·.2)) = false) →
      Forms i s u (target (sortOn (·.1) elems) [] []))

/-- F may issue the word, in a turn that only issues, with fewer than 256 requests outstanding and no acquire before it that has not completed
(12 R395, R407). -/
def FReady (i : Instr) (s : State) : Prop :=
  Ready i s ∧ s.cur.eng ≠ .A ∧ s.cur.eager = false ∧ s.here.fab.acqBar = [] ∧ s.here.fab.reqs.length < 256

/-- What a release leaves for the writes after it (12 R407, R408): out of windows they come behind every earlier request; at PANEL and FABRIC scope they are
its release. -/
def FabSt.behind (f : FabSt) (scope : Scope) (windowed : Bool) : FabSt :=
  let wide : Bool := decide (scope = .panel ∨ scope = .fabric)
  { f with relBar := if windowed then f.relBar else f.relBar ++ f.allIds, fenced := f.fenced || wide
           fenceIds := if wide then (f.reqs.filter (fun r => r.op.writes)).map (·.id) else f.fenceIds }

/-- A word of F takes its target from the head of the queue and makes a request of it (12 R395, R403 to R409); it waits while an earlier request has still to
write the image that it reads (R406). -/
def Requests (i : Instr) (s : State) (h : FabHead) (t : Target) (op : FOp) (rel acq : Bool) (ds : Nat) (src : List Nat) (img : Option (Nat × Nat)) : Prop :=
  FReady i s → s.here.headTarget = some t → s.here.room .ds ds = true → (rel = true → s.relReady h.scope = true) →
  (∀ x, img = some x → ∀ r ∈ s.here.fab.reqs, r.image.any (meets x) = false) → (∀ a ∈ src, a ∉ s.here.acc.bad) →
  let k := s.here
  let fab : FabSt := if rel then k.fab.behind h.scope (s.windowed h.scope) else k.fab
  let rel' : Bool := rel || (op.writes && fab.fenced && decide (h.scope = .panel ∨ h.scope = .fabric))
  let q : FReq := { id := 2 * s.nextId, walk := k.engs.F.walk, pc := k.engs.F.pc, op, scope := h.scope, cls := h.cls, elems := t.elems, offs := t.offs
                    members := t.members, slotAt := h.slot.map (fun n => s.slotTime k n.toNat), gone := false, sentAt := none, rest := 0, via := []
                    rel := rel', win := none, after := if op.writes || rel then fab.relBar else [], before := if rel' then fab.fenceIds else []
                    near := (nearParts t.elems).isEmpty, got := [], ans := none }
  let b := k.reserveN .ds k.engs.F.walk ds
  let u := (s.newId.2.setBank s.cur.loc { b with fab := { fab with
    targets := k.fab.targets.drop 1, acqBar := if acq then k.fab.readIds ++ [q.id] else [] } }).addReq q
  u.here.flt = none → u.here.engs = k.engs → Gives i s u u.here

/-- A fence of F (12 R407): an acquire waits for the earlier reads, `sc` for every earlier request; a release makes later writes come after the earlier
requests, and in windows it waits until they are sent. -/
def FencesF (i : Instr) (s : State) (scope : Scope) (acq rel sc : Bool) : Prop :=
  let k := s.here
  FReady i s → (acq = true → k.fab.readIds = []) → (sc = true → k.fab.reqs = []) → (rel = true → s.relReady scope = true) →
    Gives i s s (if rel then { k with fab := k.fab.behind scope (s.windowed scope) } else k)

end Sys2Proof.Machine

/-- R395, R396, R402, R403 to R405, R411, R412, R414, R420: as A passes a word of F it forms the word's target from its own registers and records; a window
that no check stops and whose pages are there. A misaligned block of a collective is `F_CALIGN`.
Rests on log entry 32. -/
def Obligations.FabricTargets : Prop := ∀ (s : State) (m : Dep) (td : Fin 64) (h : FabHead) (ra rb : Fin 32),
  (∀ ds z acq, FormsWindow (.fbLd m td h ds z acq) s
    { td, h, image := !ds, store := false, shape := fun d => !ds || (oneElem d && d.es ≤ 8 && !d.vx4) })
  ∧ (∀ rel, FormsWindow (.fbSt m td h rel) s { td, h, image := true, store := true })
  ∧ (∀ nr z ord op, FormsWindow (.fbAmo m td h nr z ord op ra rb) s
    { td, h, regs := [ra, rb], ra, rb, image := false, store := true, single := true, noHost := decide (op ∉ [.amo .add, .amo .swap, .cas])
      shape := fun d => oneElem d && (d.fmt == 2 || d.fmt == 3) })
  ∧ (∀ fmt rel, FormsWindow (.fbGadd m td h fmt rel ra) s
    { td, h, regs := [ra], ra, image := false, store := true, single := true, noHost := true, shape := fun d => oneElem d && d.fmt == 0x0E })
  ∧ (∀ (ack rel : Bool) (ap : Fin 64), FormsWindow (.fbMcst m td h ack rel ap) s { td, h, image := true, store := true, ap := some ap.val })
  ∧ (∀ (red : Red) (q z : Bool) (ap : Fin 64), FormsWindow (.fbMcld m td h red q z ap) s
    { td, h, image := true, store := false, ap := some ap.val
      shape := fun d => if red = .sum then d.fmt == 0x0E else [2, 3, 6, 7].contains d.fmt })
  ∧ (∀ (n : Fin 16) (lvl : SubLevel), s.here.readyA [.a ra] = true → s.here.tdReady td = true → recCheck (s.here.td td) none s.here.hdr.spad = none →
    Forms (.fbSub m td n lvl ra) s s ⟨s.here.engs.A.walk, s.here.engs.A.pc, s.here.td td, [0, 0, 0, 0], s.here.ax ra, 0, [], [], []⟩)
  ∧ (∀ (fc : Fin 16) (scope : Scope) (xc : Fin 4) (slot : Option (BitVec 8)), s.here.readyA [.a ra] = true → s.here.invalidating = false →
    ((s.here.ax ra).toNat % 64 = 0 → Forms (.fbColl m fc scope xc ra slot) s s
      ⟨s.here.engs.A.walk, s.here.engs.A.pc, [], [0, 0, 0, 0], s.here.ax ra, 0, [], [], []⟩)
    ∧ ((s.here.ax ra).toNat % 64 ≠ 0 → s.cur.eng = .A → s.here.live = true → s.here.acc.park = none → s.cur.eager = false → s.here.fab.targets.length < 16 →
      exec (.fbColl m fc scope xc ra slot) s = .next (s.faultAt s.cur.loc .calign s.here.engs.A.pc 0)))

/-- R395, R400, R403 to R412: F takes the target of its word and makes a request: a load, a store with the bytes of the image as they stand, an atomic, a
grain addition, a multicast; a request without a slot goes out at once, at this package or by packets.
Rests on log entries 12 and 32. -/
def Obligations.FabricRequests : Prop := ∀ (s : State) (m : Dep) (td : Fin 64) (h : FabHead) (t : Target),
  let k := s.here
  (∀ ds z acq, Requests (.fbLd m td h ds z acq) s h t (.ld t.tdr t.org ds z) false acq (if ds then 1 else 0) [] none)
  ∧ (∀ rel, Requests (.fbSt m td h rel) s h t (.st (k.storeData t (t.elems.map (·.1)))) rel false 0 (t.srcBytes (t.elems.map (·.1)))
      (some t.image))
  ∧ (∀ nr z (ord : Ord) op ra rb, Requests (.fbAmo m td h nr z ord op ra rb) s h t (.amo op ((tdescOf t.tdr).fmt == 3) nr z t.ra t.rb)
      ord.releases ord.acquires (if nr then 0 else 1) [] none)
  ∧ (∀ fmt rel ra, Requests (.fbGadd m td h fmt rel ra) s h t (.gadd fmt t.ra) rel false 0 [] none)
  ∧ (∀ ack rel ap, Requests (.fbMcst m td h ack rel ap) s h t (.mcst (k.storeData t (t.offs.map (·.1))) ack) rel false (if ack then 1 else 0)
      (t.srcBytes (t.offs.map (·.1))) (some t.image))
  ∧ (∀ red q z ap, Requests (.fbMcld m td h red q z ap) s h t (.mcld t.tdr t.org red q z) false false (if q then 1 else 0) [] none)
  ∧ (∀ q : FReq, q.slotAt = none → q.gone = false → q.after = [] → k.req q.id = none → (∀ r ∈ k.fab.reqs, r.cls = q.cls → r.gone = true) →
    let ps := s.farPackets s.cur.loc q
    let out : FReq := { q with gone := true, win := if q.rel && s.windowed q.scope then some (s.windowOf s.dtime) else none }
    let sent (q : FReq) : Bank := { k with fab := { k.fab with reqs := k.fab.reqs ++ [q] } }
    let routed (p : Packet) : Bool := Config.routed (s.net.routing.bank s.net.routing.act) p.dst.pkgNum
    (ps = [] → (s.addReq q).here = sent ({ out with sentAt := some s.dtime } : FReq).settled ∧ (s.addReq q).mem = s.mem ∧ (s.addReq q).net = s.net)
    ∧ (ps ≠ [] → (∀ p ∈ ps, p.kind = .mcwrite ∨ p.kind = .mcread ∨ routed p = true) →
        ∃ v : State, s.addReq q = ps.foldl (fun s p => s.sendSeq (dieOf s.cur.loc.core) p 0) v ∧ v.here = sent { out with rest := ps.length }
          ∧ v.net = s.net ∧ v.mem = s.mem)
    ∧ (ps ≠ [] → (∃ p ∈ ps, p.kind ≠ .mcwrite ∧ p.kind ≠ .mcread ∧ routed p = false) →
        (s.addReq q).here = sent { out with sentAt := some s.dtime, ans := some (.fail 7) }))

/-- R407, R413, R414, R417, R418, R420 to R424, 14 R464: the words of F without a window: fences, counter waits, time, status, subscriptions, and the post of
a collective, whose signals come when it completes.
Rests on log entries 23 and 32. -/
def Obligations.FabricWords : Prop := ∀ (s : State) (m : Dep),
  let k := s.here
  let l := s.cur.loc
  let push (v : Reg64) : Bank := k.reserve .ds k.engs.F.walk v
  (∀ scope, FencesF (.fbFenceAcq m scope) s scope true false false ∧ FencesF (.fbFenceRel m scope) s scope false true false
    ∧ FencesF (.fbFenceAr m scope) s scope true true false ∧ FencesF (.fbFenceSc m scope) s scope true true true)
  ∧ (∀ (fc : Fin 16) (v : BitVec 14), FReady (.fbCwait m fc v) s → v.toNat ≤ (spGet 0 k.fab.fc fc.val).toNat →
    Gives (.fbCwait m fc v) s s { k with fab := { k.fab with fc := spPut 0 k.fab.fc fc.val (spGet 0 k.fab.fc fc.val - v.zeroExtend 16) } })
  ∧ (FReady (.fbTimeNow m) s → k.room .ds 1 = true → Gives (.fbTimeNow m) s s (push (BitVec.ofNat 64 s.dtime)))
  ∧ (FReady (.fbTimeWin m) s → k.room .ds 1 = true →
    Gives (.fbTimeWin m) s s (push (BitVec.ofNat 64 (s.windowOf s.dtime % 2 ^ 63 + 2 ^ 63 * (if s.net.win.panelW then 0 else 1)))))
  ∧ (∀ n, s.slotTime k n.toNat ≤ s.dtime →
    (FReady (.fbTimeUntil m n) s → Gives (.fbTimeUntil m n) s s k)
    ∧ (Ready (.fbTimeUntil m n) s → k.fab.acqBar = [] → k.meet .F = .own (.fbTimeUntil m n) → k.slipOk .F = true →
      ∃ v, exec (.timeUntilReached l) s = .next v ∧ v.mem = s.mem ∧ v.here.fab = k.fab ∧ (v.here.eng .F).sameWalk ((k.eng .F).pass 0 none)))
  ∧ (∀ clr, FReady (.fbStat m clr) s → k.mcldOut = false → k.room .ds 1 = true →
    let b := push (BitVec.ofNat 64 (k.fab.flags.toNat + 2 ^ 8 * (if k.fab.mcfail then 1 else 0) + 2 ^ 9 * (if k.fab.late then 1 else 0)))
    Gives (.fbStat m clr) s s (if clr then { b with fab := { b.fab with flags := 0, mcfail := false, late := false, fmc := 0 } } else b))
  ∧ (∀ (td : Fin 64) (n : Fin 16) (lvl : SubLevel) (rp : Fin 32) (t : Target) (x : Launch), FReady (.fbSub m td n lvl rp) s → k.headTarget = some t →
    k.launch.bind s.launch = some x →
    let d := tdescOf t.tdr
    let pub := bits t.ra.toNat 9 0
    (∀ p ∈ x.cores, p.core = pub → x.cores.find? (fun q => q.core == pub) = some p → s.subFault l x n t lvl = none →
      Gives (.fbSub m td n lvl rp) s s.newId.2 { k with fab := { k.fab with
        targets := k.fab.targets.drop 1
        subs := assocPut k.fab.subs n.val ⟨.pending, p, bits t.ra.toNat 63 32, d.spbase, d.isz, lvl, 2 * s.nextId⟩ } })
    ∧ (assoc k.fab.subs n.val ≠ none ∨ pub = l.core ∨ (∀ p ∈ x.cores, p.core ≠ pub) →
      exec (.fbSub m td n lvl rp) s = .next (s.faultAt l .subs k.engs.F.pc 0)))
  ∧ (∀ n : Fin 16, FReady (.fbUnsub m n) s →
    (assoc k.fab.subs n.val = none → Gives (.fbUnsub m n) s s k)
    ∧ (∀ u id, assoc k.fab.subs n.val = some u → k.launch = some id → u.st ≠ .pending →
      let v := s.flushSub l n u id
      let w := v.endSub l n u id
      (∀ t ∈ v.transit, ¬(t.pub = u.pub ∧ t.sub = l ∧ t.slot = n)) → w.here.engs = k.engs →
      Gives (.fbUnsub m n) s w w.here ∧ assoc w.here.fab.subs n.val = none))
  ∧ (FReady (.fbSflush m) s → s.flushes l = true → (s.flushFan l).here.engs = k.engs →
    Gives (.fbSflush m) s (s.flushFan l) (s.flushFan l).here ∧ ∀ t ∈ (s.flushFan l).transit, t.pub ≠ l)
  ∧ (∀ (fc : Fin 16) (scope : Scope) (xc : Fin 4) (oa : Fin 32) (slot : Option (BitVec 8)) (t : Target) (x : Launch) (u : State) (blk : CollBlock),
    FReady (.fbColl m fc scope xc oa slot) s → k.headTarget = some t → k.launch.bind s.launch = some x → (∀ r ∈ k.fab.reqs, r.op.writes = false) →
    (∀ r ∈ k.fab.reqs, r.image.any (meets (t.ra.toNat, 256)) = false) → s.postCount (· == l.core) < 16 → s.postCount (fun c => dieOf c == dieOf l.core) < 128 → t.ra.toNat + 256 ≤ k.hdr.spad →
    (∀ a ∈ natsFrom t.ra.toNat 256, a ∉ k.acc.bad) → s.checkBlock l x scope (k.sp0Read t.ra.toNat 256) = (u, .ok blk) →
    u.endedFor (s.whoOf l.core) blk = none → (∀ i ∈ u.trav.insts, ∀ q ∈ i.posts, q.pid ≠ 2 * u.nextId) →
    let at' := slot.map (fun n => u.slotTime k n.toNat)
    let late := at'.any (fun a => decide (a < u.dtime ∧ u.clockErrAt a ≤ 50))
    let p : Post := { who := s.whoOf l.core, pid := 2 * u.nextId, blk, own := true, launch := x.id, fc, sp := m.sp, sn := m.sn, pc := k.engs.F.pc, scope
                      slotAt := at', told := false }
    let v := u.newId.2.setBank l { u.here with fab := { u.here.fab with targets := u.here.fab.targets.drop 1, late := u.here.fab.late || late } }
    let v := (if late then v.logEvent .slotLate (dieOf l.core) 0 0 else v).addPost p x.pkt.cairnTo
    let w := (v.instOf p.pid true).elim v (fun i => v.tellPosts i.id)
    (∃ i ∈ v.trav.insts, i.cid = blk.cid ∧ p ∈ i.posts) ∧ (w.here.engs = k.engs → Gives (.fbColl m fc scope xc oa slot) s w w.here))

namespace Sys2Proof.Machine

/-- The part of a launch on a core is in its bank (05 R168). -/
def Resident (s : State) (l : Loc) (id : Nat) : Prop :=
  (s.bank l).launch = some id ∧ ∃ x, s.launch id = some x ∧ assoc x.saved l.core = none

/-- The bytes that a request of F writes at its home, given those it finds there (12 R403 to R405). -/
def FOp.puts (op : FOp) (e : Nat) (old : List Byte) : Option (List Byte) :=
  match op with
  | .st data => some ((assoc data e).getD [])
  | .amo (.amo k) w8 _ _ x _ => some (leBytes (w8n w8) (amoNew k (8 * w8n w8) (ofLe old) (x.toNat % 2 ^ (8 * w8n w8))))
  | .amo .cas w8 _ _ x y => if ofLe old = y.toNat % 2 ^ (8 * w8n w8) then some (leBytes (w8n w8) (x.toNat % 2 ^ (8 * w8n w8))) else none
  | .gadd fmt x => some (leBytes 32 (gaddCell fmt x (ofLe old)))
  | _ => none

/-- The code of the fault that a bank has taken. -/
def Bank.fcode (b : Bank) : Option FCode := b.flt.map (·.code)

end Sys2Proof.Machine

/-- R397, R398, R400, R403 to R409, R411: a request of F performs at its home on this package: it writes its bytes there and no others, and is answered with
what it found; the reply gives the answer to the core and the request is done; a failed or late answer is `F_REMOTE`.
Rests on log entries 12 and 32. -/
def Obligations.FabricReplies : Prop := ∀ (s : State) (l : Loc) (id : Nat) (q : FReq), (s.bank l).req id = some q →
  let b := s.bank l
  let done (t : State) : Prop := (t.bank l).fab.allIds = b.fab.allIds.filter (fun x => x != id)
  (q.gone = false → q.after = [] → s.slotDue q = true → b.goesAfter q = false → s.farPackets l q = [] → ∃ t, exec (.slotTimeReached l id) s = .next t
    ∧ (t.bank l).req id = some ({ q with gone := true, win := if q.rel && s.windowed q.scope then some (s.windowOf s.dtime) else none
                                         sentAt := some s.dtime } : FReq).settled ∧ t.mem = s.mem)
  ∧ (∀ k, Resident s l k →
    (∀ (e : Nat) (rs : List Rng), q.gone = true → q.near = false → q.ans = none → s.nearTime b q = true → q.got = [] → (∀ data ack, q.op ≠ .mcst data ack) → b.fabEarlier q = false → q.elems = [(e, rs)] →
      q.offs = [] → q.members = [] → nearParts q.elems = q.elems → s.movingRngs rs = false → s.badRngs rs = none →
      let old := s.readRngs rs
      ∃ t, exec (.remoteRequestArrival (.own l id)) s = .next t
        ∧ (∀ x, (∀ r ∈ rs, ¬ r.has x) ∨ q.op.puts e old = none → t.byteAt x = s.byteAt x)
        ∧ (∀ d, q.op.puts e old = some d → d.length = (rs.map (·.len)).sum → rs.Pairwise (fun x y => x.overlaps y = false) → t.readRngs rs = d)
        ∧ ∃ r, (t.bank l).req id = some r ∧ r.ans = some (.ok [(e, if q.op.reads then old else [])]))
    ∧ (∀ c, q.ans = some (.fail c) → b.mayReply q = true → b.flt = none → ∃ t, exec (.remoteReply l id) s = .next t ∧ done t ∧ t.mem = s.mem
        ∧ (t.bank l).flt = some ⟨.fremote, q.pc, c⟩)
    ∧ (∀ back t org z, q.ans = some (.ok back) → b.mayReply q = true →
      (q.op = .ld t org false z → ∃ v, exec (.remoteReply l id) s = .next v ∧ done v ∧ v.mem = s.mem
        ∧ (v.bank l).acc.sp0 = (b.windowPut t org back).acc.sp0 ∧ (v.bank l).entries .ds = b.entries .ds)
      ∧ (q.op = .ld t org true z → ∃ v, exec (.remoteReply l id) s = .next v ∧ done v ∧ v.mem = s.mem
        ∧ (v.bank l).acc.sp0 = b.acc.sp0 ∧ (v.bank l).entries .ds = (b.fill .ds q.walk [dsValue t org z back]).entries .ds))
    ∧ (∀ back op w8 nr z x y, q.ans = some (.ok back) → b.mayReply q = true → q.op = .amo op w8 nr z x y → ∃ v, exec (.remoteReply l id) s = .next v ∧ done v ∧ v.mem = s.mem
        ∧ (v.bank l).acc.sp0 = b.acc.sp0
        ∧ (v.bank l).entries .ds = (if nr then b else b.fill .ds q.walk [oldReg w8 z (ofLe (back.flatMap (·.2)))]).entries .ds)
    ∧ (∀ ms data ack, q.ans = some (.members ms) → b.mayReply q = true → q.op = .mcst data ack → ∃ v, exec (.remoteReply l id) s = .next v ∧ done v ∧ v.mem = s.mem
        ∧ (v.bank l).entries .ds = (if ack then b.fill .ds q.walk [failBits ms] else b).entries .ds
        ∧ (v.bank l).fab.fmc = (if ack then b.fab.fmc else b.fab.fmc ||| failBits ms)
        ∧ (v.bank l).fab.mcfail = (if ack then b.fab.mcfail else b.fab.mcfail || failBits ms != 0))
    ∧ (∀ t0, q.ans = none → q.sentAt = some t0 → t0 + 1000 * s.regs.frto < s.dtime → s.routeBusy q = false → b.mayReply q = true → b.flt = none →
      ∃ v, exec (.requestTimeout l id) s = .next v ∧ done v ∧ v.mem = s.mem ∧ (v.bank l).flt = some ⟨.fremote, q.pc, 6⟩))

/-- R413 to R419: a publisher installs a fan-out entry or refuses it with `F_SUBS`; a pending granule is sent with its latest bytes, and at its subscriber it
writes the bytes its mask names, or, while the slot is parked, enters the drift log.
Rests on log entries 17 and 32. -/
def Obligations.Subscriptions : Prop := ∀ (s : State) (l : Loc),
  let b := s.bank l
  (∀ (n : Fin 16) (u : Sub) (id : Nat), assoc b.fab.subs n.val = some u → Resident s l id → Resident s u.pub id → u.st = .pending → b.finishes = true →
    let p := s.bank u.pub
    (u.off % 64 = 0 → u.off + u.len ≤ p.hdr.spad → p.fab.fan.length < 32 →
      ∃ t, exec (.subInstall l n) s = .next t ∧ t.mem = s.mem ∧ (t.bank u.pub).fab.fan = p.fab.fan ++ [⟨l, n, u.off, u.base, u.len, u.lvl, [], []⟩]
        ∧ assoc (t.bank l).fab.subs n.val = some { u with st := if s.parksNow id then .parked else .active })
    ∧ (u.off % 64 ≠ 0 ∨ p.hdr.spad < u.off + u.len ∨ 32 ≤ p.fab.fan.length → b.flt = none →
      ∃ t, exec (.subInstall l n) s = .next t ∧ t.mem = s.mem ∧ (t.bank u.pub).fab.fan = p.fab.fan ∧ assoc (t.bank l).fab.subs n.val = none
        ∧ (t.bank l).fcode = some .subs))
  ∧ (∀ (i id : Nat) (f : Fan) (g : Gran) (rest : List Gran), b.launch = some id → b.fab.fan[i]? = some f → f.left = [] → f.pend = g :: rest →
    ∃ t, exec (.granuleSend l i) s = .next t ∧ t.mem = s.mem ∧ (t.bank l).fab.fan = b.fab.fan.set i { f with pend := rest }
      ∧ t.transit = s.transit ++ [⟨l, f.sub, id, f.slot, f.off, f.base, g.idx, g.mask, b.sp0Read (f.off + 64 * g.idx) 64⟩])
  ∧ (∀ (i : Nat) (g : Transit) (u : Sub), s.transit[i]? = some g → (∀ x ∈ s.transit.take i, ¬(x.pub = g.pub ∧ x.sub = g.sub ∧ x.slot = g.slot)) →
    s.granHeld g = false → Resident s g.sub g.launch → assoc (s.bank g.sub).fab.subs g.slot.val = some u → g.data.length = 64 →
    let k := s.bank g.sub
    let a := g.base + 64 * g.idx
    (u.st = .active → ∃ t, exec (.granuleDeliver i) s = .next t ∧ t.mem = s.mem ∧ t.transit = s.transit.eraseIdx i
      ∧ ∀ o, spGet 0 (t.bank g.sub).acc.sp0 o = if a ≤ o ∧ o < a + 64 ∧ bitAt g.mask (o - a) = true then g.data.getD (o - a) 0 else spGet 0 k.acc.sp0 o)
    ∧ (u.st = .parked → k.fab.drift.length < 3276 → ∃ t, exec (.granuleDeliver i) s = .next t ∧ t.transit = s.transit.eraseIdx i
      ∧ (t.bank g.sub).fab.drift = k.fab.drift ++ [⟨g.mask, g.slot, g.idx, g.data⟩] ∧ (t.bank g.sub).acc.sp0 = k.acc.sp0))

/-- 14 R464 to R467, R470, R472, R507: a collective starts when every member has posted blocks that agree; a chunk copies a part of a member's image into
another's; with every chunk delivered each member's counter is raised by one; a timeout, or the end of a member's launch, ends the others with
`F_COLLTIME` or `F_COLLPEER`.
Rests on log entries 12, 15, 33 and 34. -/
def Obligations.Collectives : Prop := ∀ (s : State) (id : Nat) (x : Inst), s.inst id = some x →
  let told (u t : State) (x : Inst) (p : Post) (l : Loc) (c : FCode) : Prop :=
    p ∈ x.posts → p.own = true → u.placeOf p.launch (p.who % 1024) = some l → Resident u l p.launch → (u.bank l).flt = none → (t.bank l).fcode = some c
  (∀ y : Inst, (s.tellPosts id).inst id = some y → y.started = false → y.full = true →
    let u := s.tellPosts id
    let agree (ok : CollBlock → CollBlock → Bool) : Prop := ∀ p ∈ y.posts, y.disagree p.blk.members ok = none
    (agree collSame → agree shapesMeet → ∃ t, exec (.collectiveStart id) s = .next t ∧ t.mem = u.mem ∧ (∀ l, t.bank l = u.bank l)
      ∧ t.inst id = some { y with started := true })
    ∧ (¬ agree collSame → ∃ t, exec (.collectiveStart id) s = .next t ∧ t.mem = u.mem ∧ t.inst id = none ∧ ∀ p l, told u t y p l .collmatch)
    ∧ (agree collSame → ¬ agree shapesMeet → ∃ t, exec (.collectiveStart id) s = .next t ∧ t.mem = u.mem ∧ t.inst id = none ∧ ∀ p l, told u t y p l .collshape))
  ∧ (x.started = false → x.full = false → x.limit ≤ x.age →
    ∃ t, exec (.collectiveTimeout id) s = .next t ∧ t.mem = s.mem ∧ t.inst id = none ∧ ∀ p l, told s t x p l .colltime)
  ∧ (∀ (i j c : Nat) (p src dst : Post) (ls ld : Loc), x.posts.head? = some p → x.post (p.blk.members.getD i 0) = some src →
    x.post (p.blk.members.getD j 0) = some dst → s.postLoc src = some ls → s.postLoc dst = some ld → x.started = true → src.own = true → dst.own = true →
    i < p.blk.members.length → j < p.blk.members.length → c < pairChunks src.blk → (i, j, c) ∉ x.done → (i, j, c) ∉ x.sent →
    s.postDue src = true → (s.bank ls).unitsHeld (tdescOf src.blk.src) ((chunkOf src.blk c).map (srcUnit src.blk j)) = false → s.mayLand src dst i c = true →
    (s.bank ls).chunkBad src.blk j c = none → dieOf ls.core = dieOf (dst.who % 1024) → src.blk.op ≠ .grainred →
    ∃ t y, exec (.collectiveChunk id i j c) s = .next t ∧ t.mem = s.mem
      ∧ (t.bank ld).acc.sp0 = ((s.bank ld).chunkWrite src.blk dst.blk i c ((s.bank ls).chunkRead src.blk j c)).acc.sp0
      ∧ (∀ l, l ≠ ld → (t.bank l).acc.sp0 = (s.bank l).acc.sp0) ∧ t.inst id = some y ∧ y.done = x.done ++ [(i, j, c)])
  ∧ (∀ (p : Post) (l1 l2 : List Post) (l : Loc), x.started = true → x.allDone = true → x.posts = l1 ++ p :: l2 → p.own = true →
    (∀ q ∈ l1 ++ l2, q.own = true → q.who % 1024 ≠ p.who % 1024) → s.placeOf p.launch (p.who % 1024) = some l → Resident s l p.launch →
    ∃ t, exec (.collectiveComplete id) s = .next t ∧ t.mem = s.mem ∧ t.inst id = none
      ∧ ((spGet 0 (s.bank l).fab.fc p.fc.val).toNat < 65535 → ∀ n, spGet 0 (t.bank l).fab.fc n
          = if n = p.fc.val then spGet 0 (s.bank l).fab.fc n + 1 else spGet 0 (s.bank l).fab.fc n)
      ∧ ((spGet 0 (s.bank l).fab.fc p.fc.val).toNat = 65535 → (s.bank l).flt = none → (t.bank l).fcode = some .fcount))
  ∧ ((∃ p ∈ x.posts, p.own = true ∧ s.launchOver p.launch = true) → (x.posts.map (·.who)).Nodup →
    ∃ t, exec (.collectivePeerStop id) s = .next t ∧ t.mem = s.mem ∧ t.inst id = none
      ∧ ∀ p l, s.launchOver p.launch = false → told s t x p l .collpeer)

/-! ## Launches (05) -/

namespace Sys2Proof.Machine

/-- A launch is DONE with a status. -/
def DoneWith (s : State) (id status : Nat) : Prop := ∃ y, s.launch id = some y ∧ y.st = .done ∧ y.status = status

/-- A read by the launch machinery succeeds (05 R506). -/
def Reads (s : State) (ctx va n : Nat) (t : State) (d : List Byte) : Prop := s.mread ctx va n = (t, .ok d)

end Sys2Proof.Machine

/-- R135, R136, R138 to R143, R161, R506, 15 R487: a doorbell moves the write index unless it would overrun the ring; the packet at a queue's head becomes a
launch, or completes as BAD_PACKET; its header is read and kept, or it completes as BAD_KERNEL; a placed bank is loaded, or restored (R168).
R176 to R179: a graph whose node table is legal starts, a node whose predecessors have completed the step is submitted, and a graph that has ended writes its
record.
Rests on log entries 17, 24, 41 and 49. -/
def Obligations.Dispatch : Prop :=
  (∀ (s : State) (fn : Fin 17) (q : Fin 64) (v : BitVec 64),
    let k := s.queue q.val
    let w := v.toNat % 2 ^ 32
    let allowed : Prop := s.regsOpen fn = true ∧ (fn = 0 ∨ fn.val = k.fn)
    let full : Prop := 2 ^ k.lg < (w + 2 ^ 32 - k.cidx) % 2 ^ 32
    (¬ allowed → exec (.qwidxWrite fn q v) s = .next s)
    ∧ (allowed → full → exec (.qwidxWrite fn q v) s = .next (s.logEvent .queueOverrun 0 0 q.val))
    ∧ (allowed → ¬ full → ∃ t, exec (.qwidxWrite fn q v) s = .next t ∧ t.mem = s.mem ∧ t.launches = s.launches
        ∧ ∀ p, t.queue p = if p = q.val then { k with widx := w } else s.queue p))
  ∧ (∀ (s : State) (q : Fin 64),
    let k := s.queue q.val
    let a := k.slotAt k.ridx
    let p := parsePacket (s.readPa a 256)
    let new := newLaunch (2 * s.nextId) q.val k.ridx k.fn p 0 none
    s.regs.ready = .ready → k.en = true → s.headOf q.val = none → k.ridx ≠ k.widx → k.ridx ∉ k.done →
    (k.cidx = k.ridx ∨ 2 ^ k.lg < (k.cidx + 2 ^ 32 - k.ridx) % 2 ^ 32) →
    s.hostWrites a 256 = false →
    (homesOk [0, 1] a 256 = true → s.firstBad (.pa a) 256 = none → s.launch new.id = none →
      (s.packetBad p k.fn = false → ∃ u : State, exec (.packetCheck q) s = .next u.arbiter ∧ u.launches = s.launches ++ [new] ∧ u.mem = s.mem
        ∧ ∀ n, u.queue n = s.queue n)
      ∧ (s.packetBad p k.fn = true → ∃ u : State, exec (.packetCheck q) s = .next u.arbiter ∧ DoneWith u new.id 3 ∧ (u.queue q.val).ridx = (k.ridx + 1) % 2 ^ 32))
    ∧ (∀ b, homesOk [0, 1] a 256 = true → s.firstBad (.pa a) 256 = some b → ∃ t, exec (.packetCheck q) s = .next t
        ∧ t.launches.map (·.id) = s.launches.map (·.id)
        ∧ (t.queue q.val).ridx = (k.ridx + 1) % 2 ^ 32))
  ∧ (∀ (s u : State) (q : Fin 64) (x : Launch), s.headOf q.val = some x → s.launch x.id = some x → x.hdr = none → x.pf = none → x.pkt.typ = 0 →
    (∀ d h, Reads s x.pkt.ctx x.pkt.image 256 u d → parseHeader d x.pkt.image = some h →
      (h.stages ≤ u.coreCount x.pkt → ∃ w : State, exec (.headerCheck q) s = .next w.arbiter ∧ w.launch x.id = some { x with hdr := some h } ∧ w.mem = u.mem)
      ∧ (u.coreCount x.pkt < h.stages → ∃ w : State, exec (.headerCheck q) s = .next w.arbiter ∧ DoneWith w x.id 4))
    ∧ (∀ d, Reads s x.pkt.ctx x.pkt.image 256 u d → parseHeader d x.pkt.image = none →
        ∃ w : State, exec (.headerCheck q) s = .next w.arbiter ∧ DoneWith w x.id 4)
    ∧ (∀ va, s.mread x.pkt.ctx x.pkt.image 256 = (u, .page va) → ∃ t y p, exec (.headerCheck q) s = .next t ∧ t.launch x.id = some y
        ∧ y.pf = some p ∧ p.va = va))
  ∧ (∀ s : State, (s.candidates = [] → exec .deadlineReached s = .next s)
    ∧ ∀ x, s.candidates = [x] → x.st = .queued →
      (s.late x = true → x.pkt.miss = true → ∃ t, exec .deadlineReached s = .next t ∧ DoneWith t x.id 2)
      ∧ (∀ cores, ¬(s.late x = true ∧ x.pkt.miss = true) → s.launch x.id = some x → s.fit x [] = some cores → cores.Nodup →
        ∃ t y, exec .deadlineReached s = .next t ∧ t.launch x.id = some y ∧ y.st = .dispatch ∧ y.tdisp = s.dtime ∧ y.cores.map (·.core) = cores
          ∧ ∀ l ∈ y.cores, (t.bank l).st = .loading ∧ (t.bank l).launch = some x.id ∧ (t.bank l).ctx = x.pkt.ctx ∧ (t.bank l).hdr = x.hdr.getD {}))
  ∧ (∀ (s u v w : State) (l : Loc) (x : Launch) (text td sch : List Byte),
    let b := s.bank l
    let h := b.hdr
    let ents := (chunksOf 32 (x.pkt.nsched + 1) sch).map (schedOf h (tableOf td))
    b.launch.bind s.launch = some x → b.st = .loading → x.st = .dispatch → x.pf = none → assoc x.saved l.core = none →
    Reads s x.pkt.ctx (x.pkt.image + h.textoff) (4 * h.textlen) u text → Reads u x.pkt.ctx (x.pkt.image + h.tdoff) (96 * h.ntd) v td →
    Reads v x.pkt.ctx x.pkt.sched (32 * x.pkt.nsched) w sch → ents.all (·.isSome) = true →
    ∃ z : State, exec (.bankLoaded l) s = .next (z.tryRun x.id).arbiter ∧ z.mem = w.mem
      ∧ z.bank l = b.loaded (sparseOf (numsOf 4 text)) (tableOf td) (ents.filterMap id))
  ∧ (∀ (s u v w : State) (l : Loc) (x : Launch) (k : Bank) (sp ac dr : List Byte),
    let b := s.bank l
    let a := saveBase x.pkt k.hdr l.core + saveRegs
    let a2 := a + k.hdr.spad
    b.launch.bind s.launch = some x → b.st = .loading → x.st = .dispatch → x.pf = none → assoc x.saved l.core = some k → k.seq.kept = false →
    Reads s x.pkt.ctx a k.hdr.spad u sp → Reads u x.pkt.ctx a2 (10240 * k.hdr.acc) v ac → Reads v x.pkt.ctx (a2 + 10240 * k.hdr.acc) (80 * k.fab.drift.length) w dr →
    ∃ z : State, exec (.bankLoaded l) s = .next (z.tryRun x.id).arbiter ∧ z.mem = w.mem ∧ (z.bank l).st = .ready ∧ (z.bank l).acc.sp0 = spPutN 0 [] 0 sp
      ∧ (∀ e, ((z.bank l).eng e).pc = (k.eng e).pc ∧ ((z.bank l).eng e).walk = (k.eng e).walk + k.seq.wbase)
      ∧ (∀ p : BankPart, p ∉ [.share, .cells, .fabric, .own] → BankPart.same (z.bank l) k p)
      ∧ ∃ y, z.launch x.id = some y ∧ assoc y.saved l.core = none)
  ∧ (∀ (s : State) (l : Loc) (x : Launch) (k : Bank), (s.bank l).launch.bind s.launch = some x → (s.bank l).st = .loading → x.st = .dispatch → x.pf = none →
    assoc x.saved l.core = some k → k.seq.kept = true →
    ∃ z : State, exec (.bankLoaded l) s = .next (z.tryRun x.id).arbiter ∧ z.mem = s.mem ∧ (z.bank l).st = .ready
      ∧ (∀ e, ((z.bank l).eng e).pc = (k.eng e).pc ∧ ((z.bank l).eng e).walk = (k.eng e).walk + k.seq.wbase)
      ∧ (∀ p : BankPart, p ≠ .own → BankPart.same (z.bank l) k p) ∧ ∃ y, z.launch x.id = some y ∧ assoc y.saved l.core = none)
  ∧ (∀ (s u v : State) (q : Fin 64) (x : Launch) (d : List Byte) (nodes : List GNode),
    let n := x.pkt.counts.getD 1 0
    let ents := (chunksOf 384 (n + 1) d).map nodeOf
    s.headOf q.val = some x → x.pkt.typ = 1 → (s.queue q.val).en = true → s.graphNext x = true → Reads s x.pkt.ctx x.pkt.image (384 * n) u d →
    ents.all (·.isSome) = true → u.readSuccs x.pkt.ctx x.pkt.image (ents.filterMap id) = (v, .ok nodes) → graphBad nodes = false →
    ∃ t g, exec (.meridianGraphStart q) s = .next t ∧ t.graphs = v.graphs ++ [g] ∧ g.nodes = nodes ∧ g.steps = x.pkt.counts.getD 0 0 ∧ g.stop = none
      ∧ g.fin = List.replicate n 0 ∧ t.launches = v.launches.filter (fun y => y.id != x.id) ∧ t.mem = v.mem)
  ∧ (∀ (s w : State) (gid n : Nat) (g : Graph) (nd : GNode) (d : List Byte) (h : Header),
    let k := g.subm.getD n 0
    let p := nd.packet k g.period
    let new := newLaunch (2 * s.nextId) 64 0 g.fn p k (some (gid, n))
    let u : State := { s.newId.2 with
      graphs := s.graphs.map (fun y : Graph => if y.id = gid then { y with subm := listSet y.subm n (k + 1) } else y), launches := s.launches ++ [new] }
    s.graph gid = some g → (∀ x ∈ s.launches, ¬(x.node = some (gid, n) ∧ x.st = .queued ∧ x.hdr = none)) → g.ready n = true → g.nodes[n]? = some nd →
    s.launch new.id = none → u.packetBad p g.fn = false → p.typ = 0 → Reads u p.ctx p.image 256 w d → parseHeader d p.image = some h →
    h.stages ≤ w.coreCount p →
    ∃ z : State, exec (.meridianNodeReady gid n) s = .next z.arbiter ∧ z.launch new.id = some { new with hdr := some h }
      ∧ z.graph gid = some { g with subm := listSet g.subm n (k + 1) })
  ∧ (∀ (s : State) (gid : Nat) (g : Graph), s.graph gid = some g → s.nodeRuns gid = false →
    (g.stop.isSome = true ∨ g.cancel = true ∨ ∀ k ∈ g.fin, k = g.steps) →
    ∃ u : State, exec (.meridianGraphStop gid) s = .next u.arbiter ∧ u.graph gid = none ∧ u.queue g.queue = (s.queue g.queue).complete g.slot
      ∧ u.regs.msix = s.regs.msix ++ (if g.notify then [((s.queue g.queue).fn, (s.queue g.queue).vec)] else [])
      ∧ ∀ v a va pg, s.hasRecord g.ctx g.fn g.crec = true → s.walkAll g.ctx g.crec 64 true [0, 1] = (v, .ok [⟨.pa a, 64, va, pg⟩]) → u.readPa a 64 = g.record s.dtime)

/-- R131, R150, R166, R168, R171 to R175, 15 R487, R488: a halting bank halts, and once every core of a launch has, the launch is pre-empted; a saving bank is
freed. A watchdog or barrier that expires is a fault of its launch. An ending launch leaves its banks, then writes its record, moves its queue's
completion index and sends its interrupt; a cancelled one ends as CANCELLED.
Rests on log entries 16, 17, 41 and 49. -/
def Obligations.LaunchEnds : Prop :=
  (∀ (s : State) (l : Loc) (x : Launch),
    let b := s.bank l
    let other : Loc := ⟨l.core, if l.bank = 0 then 1 else 0⟩
    b.launch = some x.id → s.launch x.id = some x → x.st = .running → b.st = .halting → b.flt = none → b.acc.out = [] → b.acc.pf = none →
    b.calm → b.mx.mid = false → b.fab.reqs = [] → b.fab.fan = [] → (∀ t ∈ s.transit, t.pub ≠ l) → (∀ p ∈ b.fab.subs, p.2.st ≠ .pending) → b.atSlots = true →
    (s.bank other).launch = none → (s.bank other).st ≠ .halting →
    ∃ u : State, exec (.coreHalted l.core) s = .next (u.selectBank l.core).arbiter ∧ u.mem = s.mem
      ∧ (u.core l.core).run = (if (s.core l.core).run = some l.bank then none else (s.core l.core).run)
      ∧ (x.preq = false → u.launch x.id = some x ∧ (u.bank l).st = .ready)
      ∧ (x.preq = true → l ∈ x.live → (∀ p ∈ x.live, p ≠ l → s.resident x.id p = true → (s.bank p).st ≠ .run ∧ (s.bank p).st ≠ .halting) →
          u.launch x.id = some { x with st := .preempted, preq := false } ∧ (u.bank l).st = if b.evict then .saving else .ready))
  ∧ (∀ (s : State) (l : Loc) (x : Launch),
    let b := s.bank l
    b.launch.bind s.launch = some x → b.st = .saving → x.st = .preempted → b.acc.out = [] → b.fab.reqs = [] →
    (∀ i ∈ s.trav.insts, i.started = true → ∀ p ∈ i.posts, ¬(p.own = true ∧ p.launch = x.id ∧ p.who % 1024 = l.core)) →
    ∃ u y kept, exec (.evictionSaved l) s = .next (State.arbiter u) ∧ u.bank l = {} ∧ u.launch x.id = some y ∧ assoc y.saved l.core = some (b.packed kept)
      ∧ ∀ e, ((b.packed kept).eng e).walk = (b.eng e).walk - b.wmin)
  ∧ (∀ (s : State) (x : Launch) (lvl : Level) (place : Nat) (l : Loc) (a : Nat), s.launch x.id = some x → x.st = .running →
    (x.bar lvl place).age = some a → x.pkt.cairnTo ≤ a → (x.members lvl place).find? (fun l => (s.bank l).seq.cairn == some lvl) = some l →
    (s.bank l).flt = none →
    ∃ t d, exec (.barrierTimeout x.id lvl place) s = .next t ∧ t.mem = s.mem ∧ (t.bank l).flt = some ⟨.barrier, (s.bank l).engs.S.pc, d⟩
      ∧ ∀ p ∈ x.members lvl place, (s.bank p).arrivals lvl ≤ (x.bar lvl place).gen →
          d ≤ p.core ∧ ∃ r ∈ x.members lvl place, r.core = d ∧ (s.bank r).arrivals lvl ≤ (x.bar lvl place).gen)
  ∧ (∀ (s : State) (core : Nat) (k : Fin 2), (s.core core).run = some k →
    let l : Loc := ⟨core, k⟩
    let b := s.bank l
    (b.seq.wdog < 2 ^ 20 → exec (.watchdogExpiry core) s = .next s)
    ∧ (2 ^ 20 ≤ b.seq.wdog → b.st = .run → b.flt = none → ∃ t e, exec (.watchdogExpiry core) s = .next t ∧ t.mem = s.mem
        ∧ (t.bank l).flt = some ⟨.deadlock, (b.eng e).pc, 0⟩ ∧ ∀ f, (b.eng e).walk ≤ (b.eng f).walk))
  ∧ (∀ (s : State) (id : Nat) (x : Launch), s.launch id = some x → x.st = .ending →
    let here := x.live.filter (fun l => s.resident id l)
    let u := here.foldl (fun s l => s.wind l) ((s.stopInsts id).stopLaunch id)
    here.all u.wound = true → (∀ l ∈ here, u.resident id l = true) →
    ∃ t y, exec (.launchEnd id) s = .next t ∧ t.mem = u.mem ∧ (∀ l ∈ here, t.bank l = {}) ∧ (∀ g ∈ t.transit, g.launch ≠ id)
      ∧ t.launch id = some y ∧ y.live = [] ∧ y.saved = [] ∧ y.tend = u.dtime)
  ∧ (∀ (s : State) (id : Nat) (x : Launch), s.launch id = some x → x.st = .ending → x.live = [] →
    let r := s.launchRecord { x with tend := if x.tend = 0 then s.dtime else x.tend }
    ∃ u : State, exec (.completionRecord id) s = .next u.arbiter ∧ (∃ y, u.launch id = some y ∧ y.st = .done)
      ∧ (x.queue < 64 → u.queue x.queue = (s.queue x.queue).complete x.slot)
      ∧ (x.node = none → u.regs.msix = s.regs.msix ++ (if x.pkt.notify then [((s.queue x.queue).fn, (s.queue x.queue).vec)] else []))
      ∧ (∀ v a va pg, s.hasRecord x.pkt.ctx x.fn x.pkt.crec = true → s.walkAll x.pkt.ctx x.pkt.crec 64 true [0, 1] = (v, .ok [⟨.pa a, 64, va, pg⟩]) →
          u.readPa a 64 = r)
      ∧ r.length = 64 ∧ (∀ k : Fin 4, r.getD k.val 0 = BitVec.ofNat 8 (x.pkt.tag / 256 ^ k.val)) ∧ r.getD 4 0 = BitVec.ofNat 8 (x.status + (if x.pkt.deadline < s.dtime then 128 else 0)))
  ∧ (∀ (s : State) (fn : Fin 17) (q : Fin 64) (v : BitVec 64) (x : Launch), s.regsOpen fn = true → (fn = 0 ∨ fn.val = (s.queue q.val).fn) →
    s.launches.find? (fun x => x.queue == q.val && x.slot == v.toNat % 2 ^ 32 && x.st != .done) = some x → s.launch x.id = some x →
    ∃ u : State, exec (.qcancel fn q v) s = .next u.arbiter
      ∧ (x.st = .queued → DoneWith u x.id 5)
      ∧ (x.st = .running ∨ x.st = .dispatch ∨ x.st = .preempted → (∃ y, u.launch x.id = some y ∧ y.st = .ending ∧ y.status = 5)
          ∧ ∀ l, (s.bank l).launch = some x.id → (u.bank l).st ≠ .run))

namespace Sys2Proof.Machine

/-- A page fault joins the fault queue of the context's owner (15 R494): the entry's bytes, the index, and the interrupt. -/
def Reported (s t : State) (fn : Nat) (va ctx agent : Nat) (write : Bool) (core : Nat) : Prop :=
  let f := s.fn fn
  (t.fn fn).fqhead = f.fqhead + 1 ∧ t.regs.msix = s.regs.msix ++ [(fn, 65)]
    ∧ t.readPa (f.fqbase + 32 * (f.fqhead % 2 ^ f.fqlg)) 32 = leBytes 8 va ++ leBytes 2 ctx ++ leBytes 1 agent ++ leBytes 1 (if write then 1 else 0)
        ++ leBytes 2 core ++ leBytes 2 0 ++ leBytes 8 s.dtime ++ leBytes 8 0

end Sys2Proof.Machine

/-- R169, 06 R196, R212, R215, R216, 09 R330, R331, 15 R494: a read stream fetches its next vector and a write stream stores its oldest one; a core whose A
met a page fault drains, waits in FAULTWAIT and reports it, and a channel reports its own; a decoded block that waits in the spill buffer is written. A page
that moves is copied, and with all copied the entries of its segment name the new pages.
Rests on log entries 22, 26 and 27. -/
def Obligations.StreamsAndPages : Prop :=
  (∀ (s u v : State) (l : Loc) (n : Fin 8) (q : Stream) (rs : List (List Rng)),
    let b := s.bank l
    let d := tdescOf q.tdr
    let hs := q.homed q.done
    assoc b.acc.q n.val = some q → b.live = true → s.heldAny b.ctx d.asp hs = false →
    (q.wr = false → q.held.length < 4 → q.done < q.vectors → q.after = [] →
      s.gather l d.asp false homesA (hs.map (fun x => (x.2, x.1.len))) = (u, .ok rs) → u.tHolds rs.flatten = false → u.platCheck l.core b.ctx .read rs.flatten = (v, none) →
      v.badRngs rs.flatten = none →
      ∃ t, exec (.streamFetch l n) s = .next t ∧ t.mem = s.mem ∧ assoc (t.bank l).acc.q n.val = some { q with
        held := q.held ++ [⟨0, q.assemble q.done ((hs.zip rs).map (fun x => (x.1.1.unit, s.readRngs x.2))), []⟩], done := q.done + 1 })
    ∧ (∀ h rest, q.wr = true → q.held = h :: rest → h.after = [] →
      s.gather l d.asp true homesA (hs.map (fun x => (x.2, x.1.len))) = (u, .ok rs) → u.tHolds rs.flatten = false → u.platCheck l.core b.ctx .write rs.flatten = (v, none) →
      ∃ t y, exec (.streamDrain l n) s = .next t ∧ assoc (t.bank l).acc.q n.val = some y ∧ y.held.map (·.x) = rest.map (·.x) ∧ y.done = q.done + 1
        ∧ (∀ x, (∀ r ∈ rs.flatten, ¬ r.has x) → t.byteAt x = s.byteAt x)
        ∧ (rs.flatten.Pairwise (fun x y => x.overlaps y = false) → ∀ (p : Piece) (a : Nat) (r : List Rng), ((p, a), r) ∈ hs.zip rs →
            let data := ((vecBytes h.x).drop (p.unit * d.es + p.off - 512 * q.done)).take p.len
            data.length = (r.map (·.len)).sum → t.readRngs r = data)))
  ∧ (∀ (s : State) (l : Loc) (p : PageFault),
    let b := s.bank l
    let f := s.ctxFn b.ctx
    b.acc.pf = some p → p.drained = false → p.queued = false → b.acc.out = [] → b.flt = none →
    b.calm → b.mx.mid = false → b.fab.fan = [] → (∀ t ∈ s.transit, t.pub ≠ l) →
    ∃ t, exec (.pageFault l) s = .next t ∧ (t.bank l).st = .faultwait
      ∧ (t.core l.core).run = (if (s.core l.core).run = some l.bank then none else (s.core l.core).run)
      ∧ (t.bank l).acc.pf = some { p with drained := true, queued := (s.fn f).fqRoom }
      ∧ ((s.fn f).fqRoom = true → Reported s t f p.va b.ctx p.agent p.write l.core) ∧ ((s.fn f).fqRoom = false → t.mem = s.mem))
  ∧ (∀ (s : State) (l : Loc) (ch : Fin 8) (c : Chan) (p : PageFault),
    let b := s.bank l
    let f := s.ctxFn b.ctx
    assoc b.car.ch ch.val = some c → c.pf = some p → p.queued = false →
    ((s.fn f).fqRoom = false → exec (.channelPageFault l ch) s = .next s)
    ∧ ((s.fn f).fqRoom = true → ∃ t, exec (.channelPageFault l ch) s = .next t ∧ Reported s t f p.va b.ctx p.agent p.write l.core
        ∧ assoc (t.bank l).car.ch ch.val = some { c with pf := some { p with queued := true } }))
  ∧ (∀ (s u : State) (l : Loc) (ch : Fin 8) (x : Cmd) (rest : List Cmd) (a : Asp) (va : Nat) (asp : Asp) (map sec n blk : Nat) (y : List Byte) (more : List (Nat × List Byte)),
    ((s.bank l).chan ch.val).cmds = x :: rest → x.kind = .siftDec (.at a va) asp map sec n → x.spill = (blk, y) :: more → s.chanLive l ch.val = true →
    s.copyHeld l x = false → s.moveItems l [⟨512, .bytes y, .addr a ((va + 512 * blk) % 2 ^ 64)⟩] (copyDetail ch.val blk) = .ok u →
    exec (.spillWriteback l ch) s = .next (u.blockWritten l ch.val x blk)
    ∧ ∀ c, ((u.blockWritten l ch.val x blk).bank l).chan ch.val = c → ∃ z, c.cmds.head? = some z ∧ z.id = x.id ∧ ∀ q ∈ z.spill, q ∈ more ∧ q.1 ≠ blk)
  ∧ (∀ (s : State) (i : Nat) (m : Migration), s.migs[i]? = some m →
    (∀ src dst n, spGet 0 s.busy (512 * m.ctx + m.seg) = 0 → s.segUsed m.ctx m.seg = false → m.pairs[m.done]? = some (src, dst, n) →
      ∃ t, exec (.migrationCopy i) s = .next t ∧ t.readPa dst n = s.readPa src n ∧ (∀ a, ¬(dst ≤ a ∧ a < dst + n) → spGet 0 t.mem a = spGet 0 s.mem a)
        ∧ t.migs = s.migs.set i { m with done := m.done + 1 })
    ∧ (m.pairs.length ≤ m.done → ∃ t, exec (.migrationRebind i) s = .next t ∧ t.migs = s.migs.eraseIdx i
        ∧ (∀ c e, e ∈ (t.core c).tlb → ¬(e.ctx = m.ctx ∧ segOf e.va = m.seg))
        ∧ ∀ x, s.ctx m.ctx = some x →
          let ents := (s.segEntries x m.seg).map (fun e => movedPa m.pairs e.1)
          ents.Pairwise (fun e f => e + 8 ≤ f ∨ f + 8 ≤ e) →
          (∀ a, (∀ e ∈ ents, ¬(e ≤ a ∧ a < e + 8)) → spGet 0 t.mem a = spGet 0 s.mem a)
          ∧ ∀ e ∈ ents,
            let old := s.numPa e 8
            let pa := bits old 51 12 * 2 ^ 12
            t.numPa e 8 = old - pa + movedPa m.pairs pa % 2 ^ 52 / 2 ^ 12 * 2 ^ 12))

/-! ## Host interface (15) -/

namespace Sys2Proof.Machine

/-- A function may command the device, and no other command is in flight (15 R485, R486, R491). -/
def Commands (s : State) (fn : Fin 17) : Prop :=
  s.regs.ready = .ready ∧ (fn = 0 ∨ s.regs.vfen = true) ∧ (s.fn fn.val).st ≠ .busy ∧ s.regs.cmds = []

/-- A command runs: its function is BUSY, and the command waits for its end with an error code, 0 for none (15 R491). -/
def Ran (s t : State) (fn : Fin 17) (op e : Nat) : Prop :=
  (t.fn fn.val).st = .busy ∧ t.regs.cmds = [⟨fn, op, (s.fn fn.val).harg, some e⟩]

/-- An argument of a function's command. -/
def State.harg (s : State) (fn : Fin 17) (i : Nat) : Nat := (s.fn fn.val).harg.getD i 0

/-- The error of a command on a context that is not the function's (15 R491). -/
def State.ownErr (s : State) (fn : Fin 17) (c : Nat) : Nat :=
  match s.ctx c with
  | none => 4
  | some x => if fn = 0 ∨ fn.val = x.fn then 0 else 2

end Sys2Proof.Machine

/-- R491, R492, R501, R502, 06 R193, R196, 13 R443: the host's commands: contexts created and destroyed, cached translations and parcels dropped, a segment's
pages queued to move, a fault answered, routes loaded and committed, the report signed, an image verified and stored; and a command's end.
Rests on log entries 21, 22, 35, 36 and 37. -/
def Obligations.HostCommands : Prop := ∀ (s : State) (fn : Fin 17), Commands s fn →
  let a (i : Nat) : Nat := s.harg fn i
  let c := a 0
  let err := s.ownErr fn c
  (∃ t e, exec (.hcmdCtxCreate fn) s = .next t ∧ Ran s t fn 1 e ∧ t.mem = s.mem
    ∧ e = (if 4096 ≤ c then 4 else if s.ctx c ≠ none then 3 else if s.ctxOk c (upTo 8) = false then 4 else if fn ≠ 0 ∧ (s.ctxOf c).fn ≠ fn.val then 2 else 0)
    ∧ ∀ k, t.ctx k = if e = 0 ∧ k = c then some (s.ctxOf c) else s.ctx k)
  ∧ (∃ t e, exec (.hcmdCtxDestroy fn) s = .next t ∧ Ran s t fn 2 e ∧ t.mem = s.mem ∧ e = (if err ≠ 0 then err else if s.ctxBusy c then 3 else 0)
    ∧ (∀ k, t.ctx k = if e = 0 ∧ k = c then none else s.ctx k)
    ∧ (e = 0 → ∀ k, (∀ x ∈ (t.core k).tlb, x.ctx ≠ c) ∧ ∀ x ∈ (t.core k).plat, x.ctx ≠ c))
  ∧ (∃ t e, exec (.hcmdTlbInv fn) s = .next t ∧ Ran s t fn 3 e ∧ t.mem = s.mem
    ∧ e = (if err ≠ 0 then err else if 2 < a 2 ∨ (a 2 = 0 ∧ s.ctxOk c [0] = false) then 4 else 0)
    ∧ (e = 0 → ∀ k, ∀ x ∈ (t.core k).tlb, x.ctx = c → (a 2 ≠ 0 ∧ (a 2 = 1 → ¬(x.va ≤ a 1 ∧ a 1 < x.va + x.size)) ∧ (a 2 = 2 → segOf x.va ≠ segOf (a 1))))
    ∧ ∀ x, s.ctx c = some x → t.ctx c = some (if e = 0 ∧ a 2 = 0 then { x with segPa := (s.ctxOf c).segPa } else x))
  ∧ (∃ t e, exec (.hcmdPlatInv fn) s = .next t ∧ Ran s t fn 4 e ∧ t.mem = s.mem
    ∧ e = (if err ≠ 0 then err else if s.ctxOk c [1, 2, 4] = false then 4 else 0) ∧ (e = 0 → ∀ k, ∀ x ∈ (t.core k).plat, x.ctx ≠ c)
    ∧ ∀ x, s.ctx c = some x →
        t.ctx c = some (if e = 0 then { x with platPa := (s.ctxOf c).platPa, platN := (s.ctxOf c).platN, apPa := (s.ctxOf c).apPa } else x))
  ∧ (∃ t e, exec (.hcmdMigrate fn) s = .next t ∧ Ran s t fn 5 e ∧ t.mem = s.mem
    ∧ e = (if err ≠ 0 then err else if 512 ≤ a 1 ∨ homesOk [0, 1] (a 2) (16 * a 3) = false ∨ s.firstBad (.pa (a 2)) (16 * a 3) ≠ none then 4
        else if s.migs.any (fun m => m.ctx == c && m.seg == a 1) then 3 else 0)
    ∧ (e ≠ 0 → t.migs = s.migs)
    ∧ (e = 0 → ∃ m, t.migs = s.migs ++ [m] ∧ m.fn = fn ∧ m.ctx = c ∧ m.seg = a 1 ∧ m.done = 0
        ∧ m.pairs.map (fun p => (p.1, p.2.1)) = (upTo (a 3)).map (fun i => (s.numPa (a 2 + 16 * i) 8, s.numPa (a 2 + 16 * i + 8) 8))))
  ∧ ((1 < a 1 ∨ (∀ x ∈ (s.fn fn.val).fq, x.idx = c → x.answered = true)) → ∃ t, exec (.hcmdFaultReply fn) s = .next t ∧ Ran s t fn 6 4 ∧ t.mem = s.mem)
  ∧ (∀ (e : FqEnt) (id : Nat) (l : Loc), (s.fn fn.val).fq.find? (fun x => x.idx == c && !x.answered) = some e → e.launch = some id →
    s.placeOf id e.core = some l → Resident s l id → e.agent < 10 →
    (a 1 = 0 → (e.agent = 0 ∨ e.agent = 9) → ∃ u : State,
      let w := ((u.tryRun id).selectBank l.core).arbiter
      let b := { s.bank l with st := if (s.bank l).st = .faultwait then .ready else (s.bank l).st, acc := { (s.bank l).acc with pf := none } }
      exec (.hcmdFaultReply fn) s = .next { w with regs := { w.regs with cmds := [⟨fn, 6, (s.fn fn.val).harg, some 0⟩] } }
        ∧ u.bank l = (if (s.launch id).any (fun x => x.st == .preempted) then b.toSaving else b) ∧ u.mem = s.mem)
    ∧ (a 1 = 1 → (e.agent = 0 ∨ e.agent = 9) → (s.bank l).flt = none → ∃ t, exec (.hcmdFaultReply fn) s = .next t ∧ Ran s t fn 6 0
        ∧ (t.bank l).flt = some ⟨.page, ((s.bank l).eng .A).pc, e.va⟩)
    ∧ (a 1 = 0 → 1 ≤ e.agent → e.agent ≤ 8 → ∃ t, exec (.hcmdFaultReply fn) s = .next t ∧ Ran s t fn 6 0 ∧ t.mem = s.mem
        ∧ ((t.bank l).chan (e.agent - 1)).pf = none ∧ ((t.bank l).chan (e.agent - 1)).cmds = ((s.bank l).chan (e.agent - 1)).cmds)
    ∧ (a 1 = 1 → 1 ≤ e.agent → e.agent ≤ 8 → (s.bank l).flt = none → ∃ t, exec (.hcmdFaultReply fn) s = .next t ∧ Ran s t fn 6 0
        ∧ (t.bank l).fcode = some .page))
  ∧ (∃ t e, exec (.hcmdRouteLoad fn) s = .next t ∧ Ran s t fn 7 e ∧ t.mem = s.mem
    ∧ e = (if fn ≠ 0 then 2 else if homesOk [0, 1] c (a 1) = false ∨ s.firstBad (.pa c) (a 1) ≠ none then 4 else 0)
    ∧ (e ≠ 0 → t.net.routing = s.net.routing)
    ∧ (e = 0 → t.net.routing = { s.net.routing with
        loaded := true
        bank0 := if s.net.routing.act then s.readPa c (a 1) else s.net.routing.bank0
        bank1 := if s.net.routing.act then s.net.routing.bank1 else s.readPa c (a 1) }))
  ∧ (∃ t e, exec (.hcmdRouteCommit fn) s = .next t ∧ Ran s t fn 8 e
    ∧ e = (if fn ≠ 0 then 2 else if s.net.routing.loaded = false then 3 else 0)
    ∧ t.net.routing.bank0 = s.net.routing.bank0 ∧ t.net.routing.bank1 = s.net.routing.bank1
    ∧ t.net.routing.act = (if e = 0 then !s.net.routing.act else s.net.routing.act)
    ∧ (e ≠ 0 → t.mem = s.mem ∧ t.net = s.net)
    ∧ (e = 0 → ∀ (d : Fin 16) (p : Fin 5), (s.link d.val p.val).st = .up → t.mem = s.mem ∧ t.net.routing.draining = true
        ∧ portKey d.val p.val ∈ t.net.routing.wait
        ∧ ∃ o, (t.link d.val p.val).out = (s.link d.val p.val).out ++ [o] ∧ o.p.kind = .drain ∧ o.p.ver = !s.net.routing.act))
  ∧ (∃ t e, exec (.hcmdAttest fn) s = .next t ∧ Ran s t fn 9 e
    ∧ e = (if homesOk [0, 1] c 64 = false ∨ homesOk [0, 1] (a 1) 1024 = false ∨ s.firstBad (.pa c) 64 ≠ none then 4 else 0) ∧ (e ≠ 0 → t.mem = s.mem)
    ∧ (e = 0 → t.readPa (a 1) 512 = s.attestReport (s.readPa c 64) ∧ t.readPa (a 1) 64 = s.readPa c 64
        ∧ t.readPa (a 1 + 512) 512 = padTo 512 0 ((Config.attestSign (s.attestReport (s.readPa c 64))).take 512)
        ∧ ∀ x, ¬(a 1 ≤ x ∧ x < a 1 + 1024) → spGet 0 t.mem x = spGet 0 s.mem x))
  ∧ (∃ t e, exec (.hcmdFwLoad fn) s = .next t ∧ Ran s t fn 10 e ∧ t.mem = s.mem
    ∧ e = (if fn ≠ 0 then 2 else if homesOk [0, 1] c (a 1) = false ∨ s.firstBad (.pa c) (a 1) ≠ none ∨ Config.signatureOk (s.readPa c (a 1)) = false
          ∨ Config.imageSvn (s.readPa c (a 1)) < s.part.minsvn then 4 else 0)
    ∧ t.part = if e = 0 then { s.part with flash := s.readPa c (a 1) } else s.part)
  ∧ (∀ op : BitVec 64, ¬(1 ≤ op.toNat ∧ op.toNat ≤ 10) → ∃ t, exec (.hcmdUnknown fn op) s = .next t ∧ Ran s t fn op.toNat 1 ∧ t.mem = s.mem)
  ∧ (∀ (u : State) (x : HCmd) (e : Nat), u.regs.cmds = [x] → x.fn = fn → x.out = some e → u.net.routing.draining = false → u.cmdDone x = true →
    ∃ t, exec (.hostCommandDone fn) u = .next t ∧ t.mem = u.mem ∧ t.regs.cmds = [] ∧ t.regs.msix = u.regs.msix ++ [(fn.val, 64)]
      ∧ (t.fn fn.val).st = (if e = 0 then .done else .error) ∧ (t.fn fn.val).err = e)

/-- R483 to R487, R490, R494 to R501, R503: what the writes of the host's registers do, what a register that may not be written keeps, how the registers
read while the device comes up, host accesses, the steps of bring-up, and reset.
Rests on log entries 2, 11, 36 and 37. -/
def Obligations.HostRegisters : Prop :=
  (∀ (s : State) (fn : Fin 17) (q : Fin 64) (v : BitVec 64),
    let k := s.queue q.val
    let x := v.toNat
    let allowed : Prop := s.regsOpen fn = true ∧ (fn = 0 ∨ fn.val = k.fn) ∧ 4 ≤ bits x 4 0 ∧ bits x 4 0 ≤ 16 ∧ bits x 22 16 < 64
    let k' : Queue := { k with lg := if k.en then k.lg else bits x 4 0, vec := bits x 22 16, fn := if fn = 0 then bits x 28 24 else k.fn }
    let home : Prop := homeOf k.base = 0 ∨ homeOf k.base = 1
    (¬ allowed → exec (.qcfgWrite fn q v) s = .next s)
    ∧ (allowed → bitAt x 8 = true → k.en = false → home → ∃ t, exec (.qcfgWrite fn q v) s = .next t ∧ t.mem = s.mem
        ∧ ∀ p, t.queue p = if p = q.val then { k' with en := true, ridx := k.widx, cidx := k.widx, done := [] } else s.queue p)
    ∧ (allowed → bitAt x 8 = true → k.en = false → ¬ home → ∃ t, exec (.qcfgWrite fn q v) s = .next t ∧ t.queue q.val = k')
    ∧ (allowed → bitAt x 8 = false ∨ k.en = true → ∃ u : State, exec (.qcfgWrite fn q v) s = .next u.arbiter ∧ u.mem = s.mem
        ∧ ∀ p, u.queue p = if p = q.val then { k' with en := bitAt x 8 } else s.queue p))
  ∧ (∀ (s : State) (fn : Fin 17) (v : BitVec 64),
    let x := s.fn fn.val
    let lg := bits v.toNat 4 0
    let on := bitAt v.toNat 8
    (s.regsOpen fn = true → 4 ≤ lg → lg ≤ 12 → ∃ t, exec (.fqcfgWrite fn v) s = .next t ∧ (t.fn fn.val).fqlg = (if x.fqen then x.fqlg else lg)
        ∧ (t.fn fn.val).fqen = on ∧ (on = true → x.fqen = false → x.fqtail ≤ (t.fn fn.val).fqhead))
    ∧ (¬(s.regsOpen fn = true ∧ 4 ≤ lg ∧ lg ≤ 12) → exec (.fqcfgWrite fn v) s = .next s)
    ∧ (s.regsOpen fn = true → ∃ t, exec (.fqtailWrite fn v) s = .next t ∧ (t.fn fn.val).fqtail = v.toNat)
    ∧ (s.regsOpen fn = false → exec (.fqtailWrite fn v) s = .next s)
    ∧ (s.regsOpen fn = true → ∀ i : Fin 4, ∃ t, exec (.registerWrite fn (0x1008 + 8 * i.val) v) s = .next t ∧ t.mem = s.mem
        ∧ (t.fn fn.val).harg = x.harg.set i.val v.toNat)
    ∧ (s.regs.ready ≠ .ready → s.regs.ready ≠ .fail → ∀ off, off ≠ 0 → off ≠ 8 → off ≠ 0x10 → ¬(0x40 ≤ off ∧ off < 0x80) → s.barRead fn off = 0))
  ∧ (∀ (s : State) (v : BitVec 64), s.regsOpen 0 = true →
    let ev := s.regs.ev
    let p := s.regs.plumb
    let n := v.toNat
    let lg := bits n 4 0
    (8 ≤ lg → lg ≤ 20 → ∃ t, exec (.evcfgWrite v) s = .next t ∧ t.mem = s.mem
        ∧ t.regs.ev.lg = (if ev.en then ev.lg else lg) ∧ t.regs.ev.en = bitAt n 8
        ∧ t.regs.ev.head = (if bitAt n 8 = true ∧ ev.en = false then ev.tail else ev.head) ∧ t.regs.ev.tail = ev.tail ∧ t.regs.ev.lost = ev.lost)
    ∧ (¬(8 ≤ lg ∧ lg ≤ 20) → exec (.evcfgWrite v) s = .next s)
    ∧ (∃ t, exec (.evtailWrite v) s = .next t ∧ t.regs.ev.tail = n
        ∧ t.regs.ev.head = ev.head + (if ev.mark = true ∧ ev.en = true ∧ ev.head - n < 2 ^ ev.lg then 1 else 0))
    ∧ (∃ t, exec (.plumbtrigWrite v) s = .next t ∧ t.mem = s.mem ∧ t.regs.plumb = if bits n 1 0 = 1
        then (if p.due then { p with mode := 0, code := bits n 31 16, miss := p.miss + 1 } else { p with mode := 0, code := bits n 31 16, due := true })
        else { p with mode := bits n 1 0, code := bits n 31 16 })
    ∧ (∀ die : Fin 16, ∃ t, exec (.ltrcfgWrite die v) s = .next t ∧ t.mem = s.mem ∧ ∀ d, t.ltr d = if d = die.val then
        (let x := s.ltr d
         let on := bitAt n 8 && (x.en || homeOf x.base == 0)
         { x with port := bits n 2 0, tx := bitAt n 3, cls := bits n 5 4, head := bitAt n 6, en := on, idx := if on && !x.en then 0 else x.idx
                  lost := if on && !x.en then false else x.lost }) else s.ltr d)
    ∧ (∃ t, exec (.pwrlimWrite v) s = .next t ∧ t.mem = s.mem ∧ t.regs.pwrlim = min 7500 (max 1000 (bits n 12 0)))
    ∧ (∃ t, exec (.registerWrite 0 0x2000 v) s = .next t ∧ t.mem = s.mem ∧ t.regs.ctxbase = bits n 51 12 * 4096)
    ∧ (∃ t, exec (.registerWrite 0 0x2008 v) s = .next t ∧ t.mem = s.mem ∧ t.regs.premargin = n)
    ∧ (∃ t, exec (.registerWrite 0 0x2010 v) s = .next t ∧ t.mem = s.mem ∧ t.regs.frto = min 400 (max 10 n))
    ∧ (∀ k : Fin 32, ∃ t, exec (.registerWrite 0 (0x20000 + 8 * k.val) v) s = .next t ∧ t.mem = s.mem
        ∧ ∀ j, spGet 0 t.regs.expwin j = if j = k.val then expwinBits k.val n else spGet 0 s.regs.expwin j)
    ∧ (∀ q : Fin 64, (s.queue q.val).en = false → ∃ t, exec (.registerWrite 0 (0x10000 + 64 * q.val) v) s = .next t ∧ t.mem = s.mem
        ∧ t.queue q.val = { s.queue q.val with base := bits n 51 8 * 256 })
    ∧ (∀ q : Fin 64, (s.queue q.val).en = true → exec (.registerWrite 0 (0x10000 + 64 * q.val) v) s = .next s))
  ∧ (∀ s : State,
    let p := s.regs.plumb
    (p.due = true ∨ (p.mode = 2 ∧ p.at' ≤ s.dtime) → spWf 0 p.sel = true → ∃ t, exec .plumbCapture s = .next t ∧ t.regs.plumb.seq = p.seq + 1
        ∧ t.regs.msix.getLast? = some (0, 67)
        ∧ ∀ n, spGet 0 t.regs.plumb.val n = if bits (spGet 0 p.sel n) 3 0 = 0 then spGet 0 p.val n else s.sample (spGet 0 p.sel n))
    ∧ (¬(p.due = true ∨ (p.mode = 2 ∧ p.at' ≤ s.dtime)) → exec .plumbCapture s = .next s)
    ∧ (∀ w : BitVec 13, ∃ t, exec (.powerThrottle w) s = .next t ∧ t.regs.pwrnow = w.toNat
        ∧ t.regs.clock = if s.regs.pwrlim < w.toNat ∧ 1000 < s.regs.clock then s.regs.clock - 100 else s.regs.clock))
  ∧ (∀ s : State,
    (∀ pa data, homesOk [0, 1] pa data.length = true → homeDie pa = 0 → s.movingRngs [⟨.pa pa, data.length, none, 0⟩] = false →
      ∃ t, exec (.hostMemoryAccess (.write pa data)) s = .next t
        ∧ ∀ a, spGet 0 t.mem a = if pa ≤ a ∧ a < pa + data.length then data.getD (a - pa) 0 else spGet 0 s.mem a)
    ∧ (∀ pa data, homesOk [0, 1] pa data.length = false → exec (.hostMemoryAccess (.write pa data)) s = .next s)
    ∧ (∀ pa n, homesOk [0, 1] pa n = false ∨ homeDie pa = 0 → s.firstBad (.pa pa) n = none → exec (.hostMemoryAccess (.read pa n)) s = .next s)
    ∧ (∀ pa, homeDie pa ≠ 0 → s.net.routing.bank0 = [] → s.net.routing.bank1 = [] → s.net.pend = [] → (s.txTriple (s.myAddr 0).pkgNum .bulk).unack.length < 4096 →
      s.endUp (ergKey 0 (homeDie pa)) = false → s.endFailed (portKey 0 (xyPort 0 (homeDie pa))) = false →
      let sends (a : HostAcc) (kind : PKind) (req : PReq) : Prop := ∃ t o, exec (.hostMemoryAccess a) s = .next t ∧ t.mem = s.mem
        ∧ (t.link 0 (xyPort 0 (homeDie pa))).out = (s.link 0 (xyPort 0 (homeDie pa))).out ++ [o]
        ∧ o.p.kind = kind ∧ o.p.req = req ∧ o.cls = 0 ∧ o.vc = 0 ∧ o.sent = 0 ∧ o.p.dst = s.myAddr (homeDie pa)
      (∀ data, homesOk [0, 1] pa data.length = true → 1 ≤ data.length → data.length ≤ 4096 → sends (.write pa data) .write (.hostWrite pa data))
      ∧ (∀ n, homesOk [0, 1] pa n = true → 1 ≤ n → n ≤ 4096 → sends (.read pa n) .read (.hostRead pa n)))
    ∧ (∀ pa, exec (.patrolScrub pa .clean) s = .next s ∧ exec (.patrolScrub pa .corrected) s = .next (s.logEvent .eccCorr 0 0 pa)
        ∧ ∃ t : State, exec (.patrolScrub pa .uncorrectable) s = .next (t.logEvent .eccUncorr 0 0 (pa / unitOf pa * unitOf pa)) ∧ t.mem = s.mem
          ∧ ∀ a, a ∈ t.bad ↔ a ∈ s.bad ∨ (pa / unitOf pa * unitOf pa ≤ a ∧ a < pa / unitOf pa * unitOf pa + unitOf pa)))
  ∧ (∀ s : State,
    let r := s.regs
    let fails (i : Instr) (cause : Nat) : Prop := ∃ t, exec i s = .next t ∧ t.regs.ready = .fail ∧ t.regs.cause = cause ∧ t.mem = s.mem
    let passes (i : Instr) (to' : ReadySt) : Prop := ∃ t, exec i s = .next t ∧ t.regs.ready = to'
    (∃ t, exec .deviceReset s = .next t ∧ t.part = s.part ∧ t.mem = s.mem ∧ t.regs = State.reset.regs ∧ t.net = State.reset.net ∧ t.launches = [] ∧ t.ctxs = []
        ∧ t.dtime = 0 ∧ (∀ q, t.queue q = {}) ∧ ∀ l, t.bank l = {})
    ∧ (r.ready = .reset → passes .fwverify .fwverify)
    ∧ (r.ready = .fwverify → (Config.signatureOk s.part.flash = false → fails .fwverify 1)
        ∧ (Config.signatureOk s.part.flash = true → Config.imageSvn s.part.flash < s.part.minsvn → fails .fwverify 2)
        ∧ (Config.signatureOk s.part.flash = true → s.part.minsvn ≤ Config.imageSvn s.part.flash → ∃ t, exec .fwverify s = .next t ∧ t.regs.ready = .hbmtrain
            ∧ t.part = { s.part with running := s.part.flash, svn := Config.imageSvn s.part.flash, minsvn := Config.imageSvn s.part.flash }))
    ∧ (r.ready = .hbmtrain → passes (.hbmtrain 0) .linktrain ∧ ∀ f : BitVec 16, f ≠ 0 → fails (.hbmtrain f) 3)
    ∧ (∀ down : List (Nat × Nat), r.ready = .linktrain →
        let up (d p : Nat) : Bool := hasLink d p && !down.contains (d, p) && (match meshTo d p with | some e => !down.contains (e, meshBack p) | none => true)
        ((meshReach up 16 [0]).length < 16 → fails (.linktrain down) 4)
        ∧ (16 ≤ (meshReach up 16 [0]).length → ∃ t, exec (.linktrain down) s = .next t ∧ t.regs.ready = .selftest
            ∧ ∀ d p, d < 16 → p < 7 → hasLink d p = true → (t.link d p).st = if up d p then .up else .failed))
    ∧ (r.ready = .selftest → passes (.selftest true) .ready ∧ fails (.selftest false) 5)
    ∧ (∀ (i : Instr), i ∈ [.fwverify, .hbmtrain 0, .linktrain [], .selftest true] → r.ready = .ready ∨ r.ready = .fail → exec i s = .next s))

/-! ## Links, packets, windows, clock and Erg (12 R400, 13, 14 R474 to R478) -/

namespace Sys2Proof.Machine

/-- A port is being trained (13 R438, R439). -/
def Training (x : Link) : Prop := x.st = .training ∨ x.st = .retraining

/-- Some ports come to a state, and every other port stays in its own. -/
def Ports (s t : State) (l : List Nat) (st : LinkSt) : Prop := ∀ k, (t.linkAt k).st = if k ∈ l then st else (s.linkAt k).st

/-- A link retrains: its ports' states, their counts and the time (13 R438). -/
def Retrains (s t : State) (die : Fin 16) (port : Fin 7) : Prop :=
  let l := linkPorts die.val port.val
  Ports s t l .retraining ∧ t.net.arrived = s.net.arrived ∧ t.net.inc = s.net.inc
    ∧ ∀ k ∈ l, (t.linkAt k).retrains = min 0xFFFF ((s.linkAt k).retrains + 1) ∧ (t.linkAt k).since = s.dtime

/-- A flit leaves an end: over a link of the package it is on its way to the other end; without a link trace memory is as before. -/
def Crosses (s t : State) (k : Nat) (f : Flit) : Prop :=
  t.net.wire = s.net.wire ++ (match peerOf k with | some e => [(e, f)] | none => []) ∧ ((s.ltr (endDie k)).en = false → t.mem = s.mem)

/-- A packet of a kind has arrived whole and has not been taken. -/
def Here (s : State) (a : Arrived) (kind : PKind) : Prop := a ∈ s.net.arrived ∧ a.p.kind = kind

/-- Whether another packet came by the port of this one before it, and has not been taken. -/
def State.led (s : State) (a : Arrived) : Bool := (s.net.arrived.takeWhile (fun x => x != a)).any (fun x => x.die == a.die && x.port == a.port)

/-- The state with a packet taken. -/
def State.taken (s : State) (a : Arrived) : State := { s with net := { s.net with arrived := s.net.arrived.erase a } }

/-- A packet is for this die of this package. -/
def State.forDie (s : State) (a : Arrived) : Prop := s.staysNear a.p = true ∧ a.p.dst.die.toNat = a.die.val

/-- A held packet that is no request and whose turn and time have come. -/
def State.goable (s : State) (q : Incoming) : Bool := !PKind.asks q.p.kind && s.inTurn q.p && s.timely q && s.mayHear q.p.req

end Sys2Proof.Machine

/-- R433, R434, R436 to R439, R441, R444: a flit slot sends a replayed flit first, then, if the retry buffer has room, the flit that R434 chooses, which is kept
in the buffer and spends a credit; a receiver takes the next good flit and refuses any other; a link that refuses 16, or loses lane lock, retrains; what
training's end, failure and reset leave; and what CREDIT and ADVERT do. When lane, credits and reports arrive is the outside's.
Rests on log entries 12, 19 and 39. -/
def Obligations.Links : Prop :=
  (∀ (s : State) (die : Fin 16) (port : Fin 7), port ≠ 6 →
    let k := portKey die.val port.val
    let u := s.topUp k
    let x := u.linkAt k
    let free : Prop := s.endUp k = true ∧ port.val < 5 ∧ hasLink die.val port.val = true
    (¬ free → exec (.flitTransmit die port) s = .next s.goOnNet)
    ∧ (free → x.replay = [] → (512 ≤ x.rbuf.length ∨ u.choice k true = none) → ∃ v : State, exec (.flitTransmit die port) s = .next v.goOnNet
        ∧ v.linkAt k = { (u.countSlot k none).linkAt k with turn := [] } ∧ v.net.wire = s.net.wire ∧ v.mem = s.mem)
    ∧ (∀ n o l, free → x.replay = (n, o) :: l → ∃ (v : State) (f : Flit), exec (.flitTransmit die port) s = .next v.goOnNet ∧ Crosses s v k f
        ∧ f.crcOk = true ∧ f.abort = false ∧ f.lseq = BitVec.ofNat 10 n ∧ f.vc = o.vc ∧ f.cls.val = o.cls.val ∧ f.lack = x.lack
        ∧ v.linkAt k = { (u.countSlot k (some o.cls)).linkAt k with replay := l })
    ∧ (∀ i o, free → x.replay = [] → x.rbuf.length < 512 → u.choice k true = some (i, o) → ∃ (v : State) (f : Flit) (q : OutPkt) (l : List OutPkt),
        let y := v.linkAt k
        exec (.flitTransmit die port) s = .next v.goOnNet ∧ Crosses s v k f
        ∧ f.crcOk = true ∧ f.abort = false ∧ f.lseq = BitVec.ofNat 10 x.lseq ∧ f.vc = o.vc ∧ f.cls.val = o.cls.val ∧ f.lack = x.lack
        ∧ f.tail = (o.sent + 1 == q.p.flits) ∧ f.head = (if o.sent = 0 then some q.p else none)
        ∧ y.rbuf = x.rbuf ++ [(x.lseq, q)] ∧ y.lseq = (x.lseq + 1) % 1024 ∧ y.replay = [] ∧ y.st = x.st
        ∧ y.noBulk = ((u.countSlot k (some o.cls)).linkAt k).noBulk ∧ y.noUrg = ((u.countSlot k (some o.cls)).linkAt k).noUrg
        ∧ y.out = (if o.sent + 1 = q.p.flits then x.out.eraseIdx i else listSet x.out i { q with sent := o.sent + 1 }) ++ l
        ∧ (∀ z ∈ l, z.p.kind = .flush) ∧ (u.flushRel k o.p = false → l = [])
        ∧ (∀ n, spGet 0 y.cred n = if n = 4 * o.vc.val + o.cls.val then spGet 0 x.cred n - 1 else spGet 0 x.cred n)
        ∧ q.cls = o.cls ∧ q.vc = o.vc ∧ q.sent = o.sent ∧ q.p.kind = o.p.kind ∧ q.p.seq = o.p.seq ∧ q.p.tag = o.p.tag ∧ q.p.rel = o.p.rel
        ∧ q.p.ver = o.p.ver ∧ q.p.dst = o.p.dst ∧ (x.sift = true → o.p.kind ≠ .credit → q.p.req = o.p.req)
        ∧ q.p.window = (if o.sent = 0 ∧ port.val = 4 ∧ s.isMine o.p = true ∧ o.p.sent = false ∧ o.p.cls ≠ .critical
            then (if s.windowed o.p.scope then BitVec.ofNat 48 (s.windowOf s.dtime) else 0) else o.p.window)))
  ∧ (∀ (s : State) (k : Nat),
    let x := s.linkAt k
    (∀ c : Option (Fin 3), (s.countSlot k c).linkAt k = { x with
      noBulk := if (s.pick k 0).isSome = true ∧ c ≠ some 0 then x.noBulk + 1 else 0
      noUrg := if (s.pick k 1).isSome = true ∧ (s.pick k 2).isSome = true ∧ c ≠ some 1 then x.noUrg + 1 else 0 })
    ∧ (∀ i o, s.choice k true = some (i, o) → x.out[i]? = some o ∧ 0 < spGet 0 x.cred (4 * o.vc.val + o.cls.val)
      ∧ (∀ j q, j < i → x.out[j]? = some q → q.cls = o.cls → q.vc = o.vc → q.sent = 0 ∧ (o.sent ≠ 0 ∨ s.mayStart k q (x.out.take j) = false))
      ∧ (o.sent = 0 → s.mayStart k o (x.out.take i) = true)
      ∧ (if (s.pick k 0).isSome = true ∧ 7 ≤ x.noBulk then o.cls = 0 else if (s.pick k 1).isSome = true ∧ 15 ≤ x.noUrg then o.cls = 1
          else ∀ c : Fin 3, o.cls < c → s.pick k c = none))
    ∧ (let owes : Bool := x.owe.any (fun p => if p.1 = 14 then 2 ≤ p.2 else buffers p.1 ≤ 2 * p.2)
      let puts (y : Link) (kind : PKind) : Prop := ∃ o, (s.topUp k).linkAt k = { y with out := y.out ++ [o] } ∧ o.p.kind = kind ∧ o.cls = 2 ∧ o.vc = 3
      (x.greeted = false → puts { x with greeted := true } .advert)
      ∧ (x.greeted = true → x.out.any (fun o => o.p.kind == .credit) = false → owes = true → puts x .credit)
      ∧ (x.greeted = true → x.out.any (fun o => o.p.kind == .credit) = true ∨ owes = false → s.topUp k = s)))
  ∧ (∀ (s : State) (die : Fin 16) (port : Fin 7) (f : Flit),
    (s.flitTo die.val port.val f = none → exec (.flitReceive die port f) s = .next s)
    ∧ (port.val = 4 → s.flitTo die.val port.val f = some (portKey die.val 4))
    ∧ (∀ k, s.flitTo die.val port.val f = some k →
      let x := s.linkAt k
      let refused : Prop := f.crcOk = false ∨ f.lseq.toNat ≠ x.rx ∨ (f.abort = true ∧ f.tail = false)
      (s.endUp k = false → exec (.flitReceive die port f) s = .next s)
      ∧ (s.endUp k = true → refused → x.refused < 15 → peerOf k ≠ some k → ∃ t, exec (.flitReceive die port f) s = .next t
          ∧ t.linkAt k = { x with refused := x.refused + 1 } ∧ t.net.arrived = s.net.arrived
          ∧ ∀ e, peerOf k = some e → (t.linkAt e).replay = if x.refused = 0 then s.unreceived e else (s.linkAt e).replay)
      ∧ (s.endUp k = true → refused → 15 ≤ x.refused → ∃ t, exec (.flitReceive die port f) s = .next t ∧ Retrains s t die port)
      ∧ (s.endUp k = true → ¬ refused → ∃ t, exec (.flitReceive die port f) s = .next t
        ∧ let y := t.linkAt k
          let key := 4 * f.vc.val + f.cls.val
          let part : Option (Nat × Packet) := match f.head with | some p => some (s.dtime, p) | none => assoc x.asm key
          y.rx = (x.rx + 1) % 1024 ∧ y.rxAny = true ∧ y.refused = 0 ∧ y.lseq = x.lseq ∧ y.out = x.out ∧ y.cred = x.cred
          ∧ y.rbuf = (match f.lack with
              | none => x.rbuf
              | some n => x.rbuf.filter (fun e => 512 ≤ (n.toNat + 1024 - e.1) % 1024))
          ∧ (f.lack = none → y.replay = x.replay)
          ∧ (∀ n, spGet 0 y.owe n = if f.cls ≠ 3 ∧ n = key then spGet 0 x.owe n + 1 else spGet 0 x.owe n)
          ∧ (f.cls = 3 → y.asm = x.asm ∧ y.discarded = x.discarded + 1 ∧ t.net.arrived = s.net.arrived)
          ∧ (f.cls ≠ 3 → f.abort = true → (∀ n, assoc y.asm n = if n = key then none else assoc x.asm n) ∧ t.net.arrived = s.net.arrived)
          ∧ (f.cls ≠ 3 → f.abort = false → part = none → y.asm = x.asm ∧ t.net.arrived = s.net.arrived)
          ∧ (∀ tm p, f.cls ≠ 3 → f.abort = false → part = some (tm, p) →
            (f.tail = false → (∀ n, assoc y.asm n = if n = key then some (tm, p) else assoc x.asm n) ∧ t.net.arrived = s.net.arrived)
            ∧ (f.tail = true → (∀ n, assoc y.asm n = if n = key then none else assoc x.asm n)
                ∧ if p.legal then y.discarded = x.discarded ∧ t.net.arrived = s.net.arrived ++ [p.cameBy die port f.vc tm]
                  else y.discarded = x.discarded + 1 ∧ t.net.arrived = s.net.arrived)))))
  ∧ (∀ (s : State) (die : Fin 16) (port : Fin 7),
    let x := s.link die.val port.val
    let ports := linkPorts die.val port.val
    let ends := linkEnds die.val port.val
    (x.st = .up → ∃ t, exec (.lossOfLaneLock die port) s = .next t ∧ Retrains s t die port)
    ∧ (x.st ≠ .up → exec (.lossOfLaneLock die port) s = .next s)
    ∧ (Training x → s.dtime ≤ x.since + 20000 → ∃ t, exec (.linkTrained die port) s = .next t ∧ Ports s t ports .up ∧ t.mem = s.mem
        ∧ ∀ k ∈ ends, (t.linkAt k).out = (s.linkAt k).out ∧ (t.linkAt (hears k)).greeted = false
          ∧ (x.st = .retraining → (t.linkAt k).rbuf = s.unreceived k ∧ (t.linkAt k).replay = s.unreceived k)
          ∧ (x.st = .training → (t.linkAt k).rbuf = [] ∧ (t.linkAt k).lseq = 0))
    ∧ (¬(Training x ∧ s.dtime ≤ x.since + 20000) → exec (.linkTrained die port) s = .next s)
    ∧ (x.st ≠ .down → ∃ t, exec (.linkReset die port) s = .next t ∧ Ports s t ports .training ∧ (∀ k ∈ ports, (t.linkAt k).since = s.dtime)
        ∧ ∀ k ∈ ends, (t.linkAt k).rbuf = [] ∧ (t.linkAt k).replay = [] ∧ (t.linkAt k).lseq = 0
          ∧ (t.linkAt k).out = (s.rewound k).filter (fun o => !(o.p.kind == .credit || o.p.kind == .advert))
          ∧ (t.linkAt (hears k)).asm = [] ∧ (t.linkAt (hears k)).rx = 0)
    ∧ (x.st = .down → exec (.linkReset die port) s = .next s)
    ∧ (Training x → x.since + 20000 ≤ s.dtime → ∃ t, exec (.linkFailed die port) s = .next t ∧ Ports s t ports .failed
        ∧ ∀ k ∈ ends, (t.linkAt k).rbuf = [] ∧ (t.linkAt k).lseq = 0)
    ∧ (Training x → x.since + 20000 ≤ s.dtime → port.val = 4 → ∃ u : State,
        let l := (s.rewound (portKey die.val 4)).filter (fun o => !PKind.ofLink o.p.kind)
        exec (.linkFailed die port) s = .next (State.goOnNet
          ((l.foldl (fun v o => if o.p.kind = .close then v else v.forward die.val o.p o.vc) u).reclose l))
        ∧ Ports s u [portKey die.val 4] .failed ∧ u.net.inc = s.net.inc ∧ u.net.arrived = s.net.arrived
        ∧ ∀ k, (u.linkAt k).out = if k = portKey die.val 4 then [] else (s.linkAt k).out)
    ∧ (¬(Training x ∧ x.since + 20000 ≤ s.dtime) → exec (.linkFailed die port) s = .next s))
  ∧ (∀ (s : State) (a : Arrived),
    let x := s.linkAt a.fromEnd
    (¬ Here s a .credit → exec (.pktCredit a.die a.port a.vc a.time a.p) s = .next s) ∧ (¬ Here s a .advert → exec (.pktAdvert a.die a.port a.toOnVc) s = .next s)
    ∧ (∀ l, Here s a .credit → a.p.req = .credit l → ∃ v : State, exec (.pktCredit a.die a.port a.vc a.time a.p) s = .next v.goOnNet ∧ v.mem = s.mem
        ∧ v.net.arrived = s.net.arrived.erase a ∧ (∀ k, k ≠ a.fromEnd → v.linkAt k = s.linkAt k) ∧ (v.linkAt a.fromEnd).out = x.out
        ∧ ∀ n, spGet 0 (v.linkAt a.fromEnd).cred n = spGet 0 x.cred n + if n < 16 then l.getD n 0 else 0)
    ∧ (∀ b n l, Here s a .advert → a.p.req = .advert b n l → ∃ v : State, exec (.pktAdvert a.die a.port a.toOnVc) s = .next v.goOnNet ∧ v.mem = s.mem
        ∧ v.net.arrived = s.net.arrived.erase a ∧ (∀ k, k ≠ a.fromEnd → v.linkAt k = s.linkAt k)
        ∧ (v.linkAt a.fromEnd).sift = b ∧ (v.linkAt a.fromEnd).heard = true
        ∧ (x.heard = true → (v.linkAt a.fromEnd).cred = x.cred)
        ∧ (x.heard = false → ∀ c : Fin 16, c ≠ 14 → spGet 0 (v.linkAt a.fromEnd).cred c.val = l.getD c.val 0)))

/-- R400, R435, R440, 13 R430, R431, R439: what a packet that has arrived does: one for another die or package goes on by an end that routing allows, or
fails; a duplicate is discarded, and acknowledged again when it has performed; another is kept for its turn, in seq order. A held reply reaches its request
and is acknowledged; a held request is checked and refused with its cause, or performed and answered. An ACK or a NACK frees its packet, and a NACK's cause
ends its request. FLUSH markers are counted, a path once.
Rests on log entries 12 and 40. -/
def Obligations.Packets : Prop := ∀ (s : State) (a : Arrived),
  let p := a.p
  let rest := s.taken a
  let n := s.seqHere p
  let triple := s.rxTriple p.src.pkgNum p.cls
  let ahead := (n + 2 ^ 32 - triple.next) % 2 ^ 32
  (∀ c ∈ [(Instr.pktWrite a.die a.toLanded, PKind.write), (.pktRead a.die a.toLanded, .read), (.pktResp a.die a.toLanded, .resp), (.pktAmo a.die a.toLanded, .amo), (.pktGadd a.die a.toLanded, .gadd),
      (.pktMcwrite a.die a.toLanded, .mcwrite), (.pktMcread a.die a.toLanded, .mcread), (.pktGranule a.die a.toLanded, .granule), (.pktChunk a.die a.toLanded, .chunk)],
    (¬ Here s a c.2 → exec c.1 s = .next s)
    ∧ (Here s a c.2 →
      (¬ s.forDie a → exec c.1 s = .next (rest.forward a.die.val p a.vc).goOnNet)
      ∧ (s.forDie a → 4096 ≤ ahead → exec c.1 s = .next (rest.ackTo a.die.val p (assoc triple.nacks n)).goOnNet)
      ∧ (s.forDie a → ahead < 4096 → n ∈ triple.rec' → ∃ v : State, exec c.1 s = .next v.goOnNet ∧ v.mem = s.mem ∧ v.net.rxt = s.net.rxt
          ∧ v.net.inc = s.net.inc.map (fun q =>
              if q.p.src.pkgNum = p.src.pkgNum ∧ q.p.cls = p.cls ∧ s.seqHere q.p = n then { q with dups := q.dups + 1 } else q))
      ∧ (s.forDie a → ahead < 4096 → n ∉ triple.rec' → ∃ (w : State) (q : Incoming), exec c.1 s = .next w.goOnHeld.goOnNet
          ∧ w.net.inc = s.net.inc ++ [q] ∧ q.p = p ∧ q.die = a.die.val ∧ q.pf = none ∧ q.dups = 0 ∧ w.mem = s.mem ∧ w.launches = s.launches
          ∧ w.cores = s.cores ∧ w.net.links = s.net.links ∧ w.rxTriple p.src.pkgNum p.cls = { triple with rec' := n :: triple.rec' })))
  ∧ (∀ (u : State) (die : Nat) (q : Packet) (vc : Fin 4) (k : Nat), ¬(u.staysNear q = true ∧ q.dst.die.toNat = die) → q.kind ≠ .flush →
      (u.outs die q = [k] → u.forward die q vc = u.queueAt k q vc) ∧ (u.outs die q = [] → u.forward die q vc = u.failPacket q)
      ∧ (∀ id l r, u.isMine q = true → PKind.asks q.kind = true → u.reqByTag q.tag.toNat = some (id, l, r) → u.placeOf id l.core = some l → Resident u l id →
          (u.bank l).flt = none → ((u.failPacket q).bank l).flt = some ⟨.flink, r.pc, 0⟩ ∧ (u.failPacket q).mem = u.mem))
  ∧ (∀ (u : State) (die : Nat) (q : Packet) (cause : Option Nat), ∃ r : Packet, u.ackTo die q cause = u.forward die r 2
      ∧ r.kind = (if cause.isSome then .nack else .ack) ∧ r.cls = .critical ∧ r.dst = q.src ∧ r.seq = BitVec.ofNat 32 (u.seqHere q) ∧ r.tag = q.tag
      ∧ r.off = q.off ∧ r.req = .acked q.cls cause)
  ∧ (∀ (u : State) (q : Incoming) (cause : Option Nat), ∃ v : State, u.settleInc q cause = v.ackAll q.die q.p cause q.dups ∧ v.mem = u.mem
      ∧ v.net.inc = u.net.inc.filter (fun r => r.id != q.id) ∧ v.net.links = u.net.links
      ∧ (v.rxTriple q.p.src.pkgNum q.p.cls).next = (u.seqHere q.p + 1) % 2 ^ 32
      ∧ (∀ c, cause = some c → assoc (v.rxTriple q.p.src.pkgNum q.p.cls).nacks (u.seqHere q.p) = some c))
  ∧ (∀ (u : State) (m : Nat), (∀ q ∈ u.net.inc, u.goable q = false) → State.goOnInc m u = u)
  ∧ (∀ (u : State) (m : Nat) (q : Incoming), u.net.inc.find? u.goable = some q →
      let v := u.settleInc q none
      State.goOnInc (m + 1) u = State.goOnInc m (v.takePlain q.p) ∧ (q.p.kind ≠ .chunk → (v.takePlain q.p).mem = u.mem)
      ∧ (q.p.kind = .granule → v.takePlain q.p = v)
      ∧ (∀ k l r, q.p.kind = .resp → q.p.req = .none → v.reqByTag q.p.tag.toNat = some (k, l, r) → (v.takePlain q.p).partOf k l
          = (v.partOf k l).modReq r.id (fun r => r.takes q.p.src.pkgNum q.p.off.toNat [some q.p.data]))
      ∧ (q.p.kind = .resp → q.p.req = .none → v.reqByTag q.p.tag.toNat = none → v.takePlain q.p = v))
  ∧ (∀ (idx : Nat) (q : Incoming), s.net.inc[idx]? = some q →
      let w := bits q.p.off.toNat 35 32
      let off := bits q.p.off.toNat 31 0
      let win := spGet 0 s.regs.expwin (2 * w)
      let top := spGet 0 s.regs.expwin (2 * w + 1)
      let ready : Prop := PKind.asks q.p.kind = true ∧ q.pf = none ∧ s.inTurn q.p = true ∧ s.timely q = true
      let shut : Prop := bitAt win 0 = false ∨ 4096 * bits top 52 32 < off + PReq.bytes q.p.req
      (¬ ready → exec (.remoteRequestArrival (.incoming idx)) s = .next s)
      ∧ (ready → PReq.ofHost q.p.req = false → shut → exec (.remoteRequestArrival (.incoming idx)) s = .next (s.settleInc q (some 0)).goOnHeld)
      ∧ (ready → PReq.ofHost q.p.req = false → ¬ shut → PReq.writes q.p.req = true → bitAt win 1 = false →
          exec (.remoteRequestArrival (.incoming idx)) s = .next (s.settleInc q (some 1)).goOnHeld)
      ∧ (∀ u c, ready → s.checkRequest q.p = (u, .fail c) → exec (.remoteRequestArrival (.incoming idx)) s = .next (u.settleInc q (some c)).goOnHeld)
      ∧ (∀ u ctx va, ready → s.checkRequest q.p = (u, .page ctx va) → ∃ t, exec (.remoteRequestArrival (.incoming idx)) s = .next t
          ∧ (u.mem = s.mem) ∧ ∀ r ∈ t.net.inc, r.id = q.id → r.pf.isSome = true)
      ∧ (∀ u r, ready → s.checkRequest q.p = (u, .ok r) → u.movingRngs r = true ∨ u.tHolds r = true →
          exec (.remoteRequestArrival (.incoming idx)) s = .next u)
      ∧ (∀ u r, ready → s.checkRequest q.p = (u, .ok r) → u.movingRngs r = false → u.tHolds r = false →
          let old := u.readRngs r
          ∃ v : State, v.net = u.net ∧ v.mem = (match q.p.req with
              | .write d | .mwrite _ _ d | .hostWrite _ d => (u.writeRngs r d).mem
              | .sectors l => (u.writeRngs r (l.flatMap (fun b => (unsiftBlock b.1 b.2).getD (List.replicate 512 0)))).mem
              | .amo op w8 x y => (match famoNew op (8 * w8n w8) (ofLe old) x y with
                  | some z => (u.writeRngs r (leBytes (w8n w8) z)).mem
                  | none => u.mem)
              | .gadd fmt x => (u.writeRngs r (leBytes 32 (gaddCell fmt x (ofLe old)))).mem
              | _ => u.mem)
            ∧ (PReq.answers q.p.req = false → exec (.remoteRequestArrival (.incoming idx)) s = .next (v.settleInc q none).goOnHeld)
            ∧ (PReq.answers q.p.req = true → ∃ x : Packet,
                exec (.remoteRequestArrival (.incoming idx)) s = .next ((v.settleInc q none).sendSeq q.die x 2).goOnHeld
                ∧ x.kind = .resp ∧ x.cls = q.p.cls ∧ x.data = old ∧ x.tag = q.p.tag ∧ x.off = q.p.off ∧ x.dst = q.p.src)))
  ∧ (∀ c ∈ [(Instr.pktAck a.die a.toLanded, PKind.ack), (.pktNack a.die a.toLanded, .nack)],
    (¬ Here s a c.2 → exec c.1 s = .next s)
    ∧ (Here s a c.2 → ¬ s.forDie a → exec c.1 s = .next (rest.forward a.die.val p a.vc).goOnNet)
    ∧ (∀ k e, Here s a c.2 → s.forDie a → p.req = .acked k e → ∃ v : State, exec c.1 s = .next v.goOnHeld.goOnNet ∧ v.mem = s.mem
        ∧ (v.txTriple p.src.pkgNum k).unack = (s.txTriple p.src.pkgNum k).unack.filter (fun u => u.1 != p.seq.toNat)
        ∧ ∀ i l r tag off, (s.txTriple p.src.pkgNum k).unack.find? (fun u => u.1 == p.seq.toNat) = some (p.seq.toNat, tag, off) →
          s.reqByTag tag = some (i, l, r) → v.partOf i l = match e, r.op with
            | some c, _ => (s.partOf i l).modReq r.id (fun q => { q with ans := some (.fail c) })
            | none, .st _ | none, .gadd .. => (s.partOf i l).modReq r.id (fun q => q.takes p.src.pkgNum off [some []])
            | none, _ => s.partOf i l)
    ∧ (Here s a c.2 → s.forDie a → (∀ k e, p.req ≠ .acked k e) → exec c.1 s = .next rest.goOnNet))
  ∧ (let waits (q : Incoming) : Bool := q.p.src.pkgNum == p.src.pkgNum && s.seqHere q.p == p.seq.toNat && q.p.tag == p.tag && q.p.rel
    (¬ Here s a .flush ∨ s.led a = true → exec (.pktFlush a.die a.toLanded) s = .next s)
    ∧ (Here s a .flush → s.led a = false → s.staysNear p = false → exec (.pktFlush a.die a.toLanded) s = .next (rest.forward a.die.val p a.vc).goOnNet)
    ∧ (Here s a .flush → s.led a = false → s.staysNear p = true → s.net.inc.any waits = true → ∃ v : State, exec (.pktFlush a.die a.toLanded) s = .next v.goOnNet ∧ v.mem = s.mem
        ∧ v.net.inc = s.net.inc.map (fun q => if waits q then
            { q with got := if p.off.toNat ∈ q.got then q.got else p.off.toNat :: q.got, need := p.npath.toNat } else q))
    ∧ (Here s a .flush → s.led a = false → s.staysNear p = true → s.net.inc.any waits = false → ∃ v : State, exec (.pktFlush a.die a.toLanded) s = .next v.goOnNet ∧ v.mem = s.mem
        ∧ v.net.inc = s.net.inc ∧ (v.earlyOf p p.seq.toNat).2 = p.npath.toNat
        ∧ ∀ x, x ∈ (v.earlyOf p p.seq.toNat).1 ↔ x = p.off.toNat ∨ x ∈ (s.earlyOf p p.seq.toNat).1))

/-- R443, R445 to R447, R450, R451, R456, R474 to R477: CLOSE and DRAIN are noted and go on; a window's end owes CLOSE; a scope's mode changes at its window; the
clock's states; and the Erg channel's token: its arrival, a holder's flits, the urgent request and its regeneration. The filter of the offset is free, and
how reports reach the switch layer is not laid out (log entry 20).
Rests on log entries 12, 20 and 38. -/
def Obligations.WindowsAndErg : Prop :=
  (∀ (s : State) (a : Arrived),
    let win := s.net.win
    let ck := s.net.clock
    let n := a.p.window.toNat
    let key := s.closeInput a.die.val a.vc.val n
    (¬ Here s a .close ∨ s.led a = true → exec (.pktClose a.die a.port a.vc a.toTimed) s = .next s)
    ∧ (Here s a .close → s.led a = false → a.port.val ≠ 4 → exec (.pktClose a.die a.port a.vc a.toTimed) s = .next (s.taken a).goOnNet)
    ∧ (Here s a .close → s.led a = false → a.port.val = 4 → ∃ v : State, exec (.pktClose a.die a.port a.vc a.toTimed) s = .next v.goOnHeld.goOnNet ∧ v.net.inc = s.net.inc
        ∧ v.net.links = s.net.links ∧ (∀ k, v.closedOn k = if k = key then max (s.closedOn key) (n + 1) else s.closedOn k)
        ∧ v.regs.ev.head + v.regs.ev.lost = s.regs.ev.head + s.regs.ev.lost
            + (if s.holdsClose n = false ∧ v.holdsClose n = true ∧ n + 2 ≤ s.windowOf s.dtime then 1 else 0))
    ∧ (¬ Here s a .drain ∨ s.led a = true → exec (.pktDrain a.die a.toLanded) s = .next s)
    ∧ (Here s a .drain → s.led a = false → ∃ v : State, exec (.pktDrain a.die a.toLanded) s = .next v.goOnNet ∧ v.mem = s.mem ∧ v.net.links = s.net.links
        ∧ v.net.routing = { s.net.routing with wait := s.net.routing.wait.filter (fun k => k != a.fromEnd) })
    ∧ (¬ Here s a .mode → exec (.pktMode a.die a.port a.vc a.toTimed) s = .next s)
    ∧ (∀ fabric windowed w len, Here s a .mode → a.p.req = .mode fabric windowed w len → ∃ v : State, exec (.pktMode a.die a.port a.vc a.toTimed) s = .next v.goOnNet
        ∧ (let told : Prop := len ≠ win.winlen ∧ (win.panelW = true ∨ win.fabricW = true)
          v.net.win.pend = (fabric, windowed, w, len) :: win.pend.filter (fun p => p.1 != fabric)
          ∧ v.net.win.panelW = win.panelW ∧ v.net.win.fabricW = win.fabricW ∧ v.net.win.winlen = win.winlen
          ∧ (told → v.net.win.reports = win.reports ++ [.winlen] ∧ v.regs.ev.head + v.regs.ev.lost = s.regs.ev.head + s.regs.ev.lost + 1)
          ∧ (¬ told → v.net.win.reports = win.reports ∧ v.regs = s.regs)))
    ∧ (¬ Here s a .sync → exec (.pktSync a.die a.toLanded) s = .next s)
    ∧ (Here s a .sync → ¬(ck.chosen = true ∧ a.port.val = 4 ∧ a.die.val = ck.port) → exec (.pktSync a.die a.toLanded) s = .next (s.taken a).goOnNet)
    ∧ (∀ m, Here s a .sync → ck.chosen = true → a.port.val = 4 → a.die.val = ck.port → a.p.req = .sync m →
        exec (.pktSync a.die a.toLanded) s = .next ((s.taken a).takeSync a.time m).goOnNet)
    ∧ (¬ Here s a .token → exec (.pktToken a.die a.port a.vc a.time a.p) s = .next s)
    ∧ (∀ ch e q uw, Here s a .token → a.p.req = .token ch e q uw →
        exec (.pktToken a.die a.port a.vc a.time a.p) s = .next ((s.taken a).tokenAt ch.val a.die.val e q uw).goOnNet))
  ∧ (∀ s : State,
    let r := s.net.routing
    (s.net.win.owed = [] → s.goOnNet = s.goOnRoutes) ∧ (r.draining = false → s.goOnRoutes = s)
    ∧ (∀ d n, s.net.win.owed = [(d, n)] → s.closeReady d n = true → ∃ v : State, s.goOnNet = v.goOnRoutes ∧ v.net.win.owed = [] ∧ v.mem = s.mem
        ∧ ∃ l, (v.link d 4).out = (s.link d 4).out ++ l ∧ l.map (fun (o : OutPkt) => (o.p.kind, o.vc.val, o.p.window)) =
            (upTo 4).map (fun c => (.close, c, BitVec.ofNat 48 n)))
    ∧ (r.draining = true → r.wait = [] → (∀ d, d < 16 → s.oldAt d = false) → (∀ k ∈ r.due, endDie k < 16) →
        s.goOnRoutes.net.routing = { r with wait := [], due := [], draining := false, loaded := false, fn := none }
        ∧ ∀ k ∈ r.due, ∃ o ∈ (s.goOnRoutes.linkAt k).out, o.p.kind = .drain))
  ∧ (∀ s : State,
    let win := s.net.win
    let ck := s.net.clock
    (s.windowOf s.dtime ≤ win.cur → exec .windowEnd s = .next s)
    ∧ (win.cur < s.windowOf s.dtime → win.closesAt win.cur = true → ∃ v : State, exec .windowEnd s = .next v.goOnNet ∧ v.mem = s.mem
        ∧ v.net.links = s.net.links ∧ v.net.win = { win with cur := win.cur + 1, owed := win.owed ++ s.omunoOut.map (fun d => (d, win.cur)) })
    ∧ (win.cur < s.windowOf s.dtime → win.closesAt win.cur = false → ∃ t, exec .windowEnd s = .next t ∧ t.mem = s.mem
        ∧ win.cur < t.net.win.cur ∧ t.net.win.cur ≤ s.windowOf s.dtime)
    ∧ (∀ fabric : Bool,
      (win.pend.find? (fun p => p.1 == fabric) = none → exec (.scopeModeChange fabric) s = .next s)
      ∧ (∀ windowed w n, win.pend.find? (fun p => p.1 == fabric) = some (fabric, windowed, w, n) →
          (win.cur < w → exec (.scopeModeChange fabric) s = .next s)
          ∧ (w ≤ win.cur → ∃ t, exec (.scopeModeChange fabric) s = .next t ∧ t.mem = s.mem ∧ t.net.win.panelW = (if fabric then win.panelW else windowed)
              ∧ t.net.win.fabricW = (if fabric then windowed else win.fabricW) ∧ t.net.win.winlen = n
              ∧ t.net.win.pend = win.pend.filter (fun p => p.1 != fabric))))
    ∧ (ck.synced = true → ck.syncAt + 122071 < s.dtime → ∃ t, exec .syncMissed s = .next t ∧ t.mem = s.mem ∧ t.net.clock.good = 0
        ∧ t.net.clock.st = (if ck.st = .locked then .holdover else ck.st) ∧ (t.net.clock.master = ck.master ∨ t.net.clock.master = none))
    ∧ (ck.synced = false ∨ s.dtime ≤ ck.syncAt + 122071 → exec .syncMissed s = .next s)
    ∧ (let err := if ck.synced then min 0xFFFF (ck.offset + ck.asym + (s.dtime - ck.syncAt) / 10 ^ 7) else 0xFFFF
      (¬((ck.st = .locked ∨ ck.st = .holdover) ∧ 50 < err) → exec .errExceedsGuard s = .next s)
      ∧ (ck.st = .locked ∨ ck.st = .holdover → 50 < err → ∃ t, exec .errExceedsGuard s = .next t ∧ t.net.clock = { ck with st := .lost, good := 0 }
          ∧ t.net.win.reports = win.reports ++ [.lost]))
    ∧ (∀ (time domain src seq t t2 : Nat) (rank : List Nat) (d : Int),
      (domain ≠ ck.domain → s.takeSync time (.announce domain src rank) = s)
      ∧ (domain = ck.domain → ck.master = none → (s.takeSync time (.announce domain src rank)).net.clock.master = some (src, rank)
          ∧ (s.takeSync time (.announce domain src rank)).net.clock.st = if ck.st = .free then .acquire else ck.st)
      ∧ (domain = ck.domain → ck.master = some (src, rank) → s.takeSync time (.sync domain src seq) = s.setClock { ck with got := some (seq, time) })
      ∧ (domain = ck.domain → ck.master = some (src, rank) → ck.got = some (seq, t2) → ck.delay = some d →
          s.takeSync time (.followUp domain src seq t) = ((s.setClock { ck with got := none, pair := some (t, t2) }).askDelay).useSync (Int.ofNat t2 - Int.ofNat t - d))
      ∧ s.takeSync time .unsupported = s ∧ s.takeSync time (.delayReq domain seq) = s)
    ∧ (∀ offset : Int, ck.once = true ∨ 0 ≤ offset →
      let v := s.useSync offset
      let ok : Bool := decide (min 0xFFFF (Config.ptpFilter ck.offset offset + ck.asym) ≤ 50)
      let g := if ok then ck.good + 1 else 0
      v.dtime = s.dtime ∧ v.net.clock.synced = true ∧ v.net.clock.syncAt = s.dtime ∧ v.net.clock.offset = Config.ptpFilter ck.offset offset
        ∧ v.net.clock.st = (match ck.st with
          | .acquire => if 16 ≤ g then .locked else .acquire
          | .lost => if 64 ≤ g then .locked else .lost
          | .holdover => if ok then .locked else .lost
          | .locked => if ok then .locked else .lost
          | .free => .free)
        ∧ (v.net.clock.st = ck.st → ck.st ≠ .holdover → v.net.clock.good = g)))
  ∧ (∀ (s : State) (ch die : Fin 16) (epoch : BitVec 8) (seq : BitVec 16) (uw : Bool),
      let e := s.ergCh ch.val
      let live : Prop := e.stale die.val epoch.toNat seq.toNat = false ∧ e.holder = none ∧ e.at' = die.val ∧ epoch.toNat = e.epoch ∧ seq.toNat = e.seq ∧ uw = e.uw
      exec (.ergTokenArrival ch die epoch seq uw) s = .next (s.tokenAt ch.val die.val epoch.toNat seq.toNat uw)
      ∧ (¬ live → exec (.ergTokenArrival ch die epoch seq uw) s = .next s)
      ∧ (live → ∃ y : Erg, exec (.ergTokenArrival ch die epoch seq uw) s = .next (s.setErg ch.val y) ∧ y.epoch = e.epoch
          ∧ y.sawAt die.val = some (epoch.toNat, seq.toNat)
          ∧ (die = ch → y.seq = (e.seq + 1) % 65536 ∧ y.uw = false ∧ y.holder = none ∧ y.at' = (ch.val + 1) % 16 ∧ y.emitted = s.dtime)
          ∧ (die ≠ ch → s.ergPending ch.val die.val uw = false → y.holder = none ∧ y.at' = (die.val + 1) % 16 ∧ y.seq = e.seq ∧ y.uw = uw
              ∧ y.emitted = e.emitted)
          ∧ (die ≠ ch → s.ergPending ch.val die.val uw = true → y.holder = some die.val ∧ y.used = 0 ∧ y.left = none ∧ y.seq = e.seq ∧ y.uw = uw
              ∧ y.emitted = e.emitted)))
  ∧ (∀ (s : State) (die : Fin 16), ((∀ c : Fin 16, (s.ergCh c.val).holder ≠ some die.val) → exec (.flitTransmit die 6) s = .next s.goOnNet)
    ∧ (∀ ch : Fin 16, (s.ergCh ch.val).holder = some die.val → (∀ c < ch, (s.ergCh c.val).holder ≠ some die.val) →
      let e := s.ergCh ch.val
      let k := ergKey die.val ch.val
      let u := s.topUp k
      let x := u.linkAt k
      let emitted (y z : Erg) : Prop := y.seq = (z.seq + 1) % 65536 ∧ y.uw = (z.uw || z.left.isSome) ∧ y.holder = none ∧ y.at' = (die.val + 1) % 16
        ∧ y.emitted = s.dtime ∧ y.urg = []
      (s.endUp k = false → exec (.flitTransmit die 6) s = .next s.goOnNet)
      ∧ (s.endUp k = true → (x.replay ≠ [] ∨ (x.rbuf.length < 512 ∧ (u.choice k (!e.uw)).isSome = true)) → ∃ v : State,
          let y := v.ergCh ch.val
          let left := e.left.map (fun n => n - 1)
          exec (.flitTransmit die 6) s = .next v.goOnNet
          ∧ (e.hold ≤ e.used + 1 ∨ left = some 0 → emitted y e)
          ∧ ((y.holder = some die.val ∧ y.used = e.used + 1 ∧ y.left = left ∧ y.seq = e.seq) ∨ emitted y e)
          ∧ (x.replay = [] → (v.linkAt k).lseq = (x.lseq + 1) % 1024 ∧ (v.linkAt k).rbuf.length = x.rbuf.length + 1))
      ∧ (s.endUp k = true → x.replay = [] → (512 ≤ x.rbuf.length ∨ u.choice k (!e.uw) = none) → ∃ v : State,
          exec (.flitTransmit die 6) s = .next v.goOnNet ∧ (emitted (v.ergCh ch.val) e ∨ v.ergCh ch.val = e) ∧ v.net.wire = s.net.wire)))
  ∧ (∀ (s : State) (ch die : Fin 16),
      let e := s.ergCh ch.val
      let asks : Prop := (∃ h, e.holder = some h ∧ h ≠ die.val) ∧ (s.pick (ergKey die.val ch.val) 1).isSome = true
      let given (d : Nat) : List OutPkt := if e.holder = some d then e.given.filter (fun o => !s.isAcked o.p) else []
      (¬ asks → exec (.ergUrgentRequest ch die) s = .next s)
      ∧ (asks → ∃ t, exec (.ergUrgentRequest ch die) s = .next t ∧ t.mem = s.mem ∧ (t.ergCh ch.val).left = some (e.left.getD 4)
          ∧ (t.ergCh ch.val).holder = e.holder ∧ t.net.links = s.net.links)
      ∧ (s.regs.ready ≠ .ready ∨ s.dtime < e.emitted + 2000 → exec (.ergTokenRegen ch) s = .next s)
      ∧ (s.regs.ready = .ready → e.emitted + 2000 ≤ s.dtime → ∃ t, exec (.ergTokenRegen ch) s = .next t ∧ t.ergCh ch.val = { e with
          regens := min 0xFFFF (e.regens + 1), epoch := (e.epoch + 1) % 256, seq := 0, uw := false, holder := none, used := 0, left := none
          at' := (ch.val + 1) % 16, emitted := s.dtime, urg := [], given := [] }
          ∧ (die ≠ ch → (t.linkAt (ergKey ch.val die.val)).asm = []
              ∧ (t.linkAt (ergKey die.val ch.val)).out = given die.val ++ (s.linkAt (ergKey die.val ch.val)).out.map (fun o => { o with sent := 0 }))))

/-! ## The whole machine (02) -/

namespace Sys2Proof.Machine

/-- The turn of an engine of a bank that runs on a core, as `step` gives it to `exec`. -/
def State.turnOf (s : State) (r : List Turn) (core : Nat) (b : Fin 2) (e : Engine) (eager : Bool) : State :=
  { s with agenda := r, cur := ⟨⟨core, b⟩, e, eager⟩ }

/-- The engine runs this word: its own, a flow word, or a word of F whose target A forms (02 R51, R56, 12 R396). -/
abbrev RunsWord (e : Engine) (w : Nat) : Prop :=
  tagOf w = e.tag ∨ (tagOf w = 0 ∧ flowOp (opOf w) = true) ∨ (e = .A ∧ tagOf w = 5 ∧ targetOp (opOf w) = true)

end Sys2Proof.Machine

/-- 02 R37, R38, R48, R65 to R70: the words of a well-formed instruction, before a word that is no extension word, decode to it and leave what follows; they
are its head and as many extension words as it has, each of 32 bits. -/
def Obligations.DecodeEncode : Prop := ∀ (i : Instr) (rest : List Nat), i.wf = true → (∀ w, rest.head? = some w → fld w 29 3 ≠ 6) →
  decode (encode i ++ rest) = .ok (i, rest) ∧ (encode i).length = 1 + (Instr.hd i).ext ∧ ∀ w ∈ encode i, w < 2 ^ 32

/-- 06 R189 with log entry 1: whatever a step does, memory keeps its canonical form.
Rests on log entry 1. -/
def Obligations.StepKeepsMemory : Prop := ∀ s t : State, Memory.wf s.mem = true → step s = .next t → Memory.wf t.mem = true

/-- Reset memory has the canonical form.
Rests on log entry 1. -/
def Obligations.ResetMemory : Prop := Memory.wf State.reset.mem = true

/-- 02 R51, R52, R56, R60, R63, R64, with log entry 3: a step whose turn is an engine's runs the instruction its words decode to, with what precedes it: the
turn taken, the cursor put on the engine, and the slip bound. A word that the checks of decode refuse ends the launch with its fault; a word of another
engine is passed. A step whose turn is an event, or a link's, runs it; a turn of time adds to the clocks.
Rests on log entries 3 and 43. -/
def Obligations.StepRunsDecoded : Prop :=
  (∀ (s : State) (r : List Turn) (core : Nat) (b : Fin 2) (e : Engine) (eager : Bool),
    s.agenda = .engine core e eager :: r → (s.core core).run = some b →
    let k := s.bank ⟨core, b⟩
    let u := s.turnOf r core b e eager
    let pc := (k.eng e).pc
    let w := k.word pc
    k.live = true → (e = .A → k.acc.park = none) →
    (k.hdr.textlen ≤ pc ∨ tagOf w = 7 ∨ (tagOf w = 6 ∧ pc = 0) → step s = .next (u.faultAt ⟨core, b⟩ .illegal pc 0))
    ∧ (pc < k.hdr.textlen → RunsWord e w →
      (∀ i rest, decode (w :: k.after pc) = .ok (i, rest) → k.targetOk pc i = true → (Instr.needs i).all (Need.ok k) = true →
        step s = if (k.eng e).walk - k.wmin < k.seq.slipw then exec i u else .next u)
      ∧ (∀ i rest, decode (w :: k.after pc) = .ok (i, rest) → k.targetOk pc i = false → step s = .next (u.faultAt ⟨core, b⟩ .illegal pc 0))
      ∧ (∀ i rest, decode (w :: k.after pc) = .ok (i, rest) → k.targetOk pc i = true → (Instr.needs i).all (Need.ok k) = false →
        step s = .next (u.faultAt ⟨core, b⟩ .resource pc 0))
      ∧ (∀ err, decode (w :: k.after pc) = .error err →
        step s = .next (u.faultAt ⟨core, b⟩ (match err with | .illegal => .illegal | .reserved => .reserved) pc 0)))
    ∧ (pc < k.hdr.textlen → (tagOf w = 6 ∧ 0 < pc) ∨ (¬ RunsWord e w ∧ tagOf w ≠ 7 ∧ tagOf w ≠ 6) →
      step s = .next (if (k.eng e).walk - k.wmin < k.seq.slipw then u.setBank ⟨core, b⟩ (k.skip e) else u)))
  ∧ (∀ (s : State) (r : List Turn) (i : Instr), s.agenda = .event i :: r →
    step s = if (Instr.head i).isSome then .next { s with agenda := r } else exec i { s with agenda := r })
  ∧ (∀ (s : State) (r : List Turn) (cycles ns : Nat), s.agenda = .elapse cycles ns :: r → ∃ t, step s = .next t ∧ t.mem = s.mem
      ∧ t.dtime = (s.dtime + ns) % 2 ^ 64 ∧ t.cycle = s.cycle + cycles)
  ∧ (∀ (s : State) (r : List Turn) (die : Fin 16) (port : Fin 7), s.agenda = .port die port :: r →
    step s = exec (.flitTransmit die port) { s with agenda := r })
  ∧ (∀ (s : State) (r : List Turn) (l : Loc), s.agenda = .transform l :: r → step s = .next (({ s with agenda := r } : State).onBank l Bank.stepT))
  ∧ (∀ (s : State) (r : List Turn) (n : NetTurn), s.agenda = .net n :: r → step s = match n with
      | .flit die port f => exec (.flitReceive die port f) { s with agenda := r }
      | .trained die port => exec (.linkTrained die port) { s with agenda := r }
      | .failed die port => exec (.linkFailed die port) { s with agenda := r }
      | .mode fabric => exec (.scopeModeChange fabric) { s with agenda := r }
      | .packet a => State.takePacket { s with agenda := r } a
      | .token ch =>
        let e := s.ergCh ch.val
        exec (.ergTokenArrival ch (Fin.ofNat 16 e.at') (BitVec.ofNat 8 e.epoch) (BitVec.ofNat 16 e.seq) e.uw) { s with agenda := r })
  ∧ (∀ s : State, s.agenda = [] → s.regs.ready = .fail → step s = .fault .bringUpFailed)

/-- Words that the spec's own tables give decode to what those tables say: 02 R71, 04 R117, R131, 06 R210, 07 R246, 08 R299, 09 R311, 10 R352, 11 R383,
12 R401, each word written out from its listing. -/
def Obligations.DecodedWords : Prop :=
  decode [0x02041083] = .ok (.add (headDep 1) 1 2 3, []) ∧ decode [0x00245634, 0xC0000004] = .ok (.li (headDep 0) 1 5 0x1234, [])
  ∧ decode [0x3004746D, 0xC0000040] = .ok (.st (headDep 8) ⟨.sp0, 3, 1, 64⟩ 3 (.reg (.a 7)), [])
  ∧ decode [0x004C6002] = .ok (.semSigImm (headDep 0) 3 2, []) ∧ decode [0x006C6810] = .ok (.csrWr (headDep 0) 6 0x10, [])
  ∧ decode [0x24240000, 0xC0110000] = .ok (.tmov (headDep 2) 0 0 false 1 2, [])
  ∧ decode [0x2048706E, 0xC0000000, 0xC0601C00] = .ok (.amo (headDep 0) ⟨.virt, 3, 2, 0⟩ true .add .rlx .launch false false 7 6, [])
  ∧ decode [0x60684103, 0xC00800C1] = .ok (.vshuf (headDep 0) ⟨0, false⟩ .i64 (.slide (.v 3) 1) (.v 4) (.v 4), [])
  ∧ decode [0x202C5344, 0xC042C200, 0xC0638000] = .ok (.cpl (headDep 0) 5 2 (.toRing 3 true 1) 4 5 6 7, [])
  ∧ decode [0x50040001, 0xC0421108] = .ok (.mxMma (headDep 8) 0 0 1 false false (some ⟨1, 0⟩) (some ⟨2, 0⟩) true, [])
  ∧ decode [0x80080354] = .ok (.txInvRing (headDep 0) 2 3 4, [])
  ∧ decode [0xA0004905, 0xC0218000] = .ok (.fbLd (headDep 0) 4 ⟨.panel, .bulk, 1, 2, 3, none⟩ false false true, [])
  ∧ decode [0x00000001] = .error .reserved ∧ decode [0x00700000] = .error .illegal ∧ decode [0x00245634] = .error .illegal
end

