-- ==== Sys2Proof/Laws/Encoding.lean ====
section
/-!
SUPPORT. The fields of an assembled word, and what the decoder makes of one: the operand decoders of each engine see its operand bits and payloads.
-/

namespace Sys2Proof

/-- A field below other bits. -/
theorem fld_low (k o lo n top : Nat) (h : lo + n ≤ top) : fld (k * 2 ^ top + o) lo n = fld o lo n := by
  unfold fld
  obtain ⟨c, rfl⟩ := Nat.exists_eq_add_of_le h
  have e : k * 2 ^ (lo + n + c) + o = o + 2 ^ lo * (2 ^ n * (k * 2 ^ c)) := by
    rw [Nat.pow_add, Nat.pow_add]; ring
  rw [e, Nat.add_mul_div_left _ _ (Nat.two_pow_pos lo), Nat.add_mul_mod_self_left]

/-- A field above other bits. -/
theorem fld_high (k o lo n : Nat) (h : o < 2 ^ lo) : fld (k * 2 ^ lo + o) lo n = k % 2 ^ n := by
  unfold fld
  rw [Nat.mul_comm, Nat.mul_add_div (Nat.two_pow_pos lo), Nat.div_eq_of_lt h, Nat.add_zero]

/-- A well-formed word has the dependency bits of its words only, and operands that its entry admits. The head of a constructor is found by `rfl`. -/
theorem wf_parts {i : Instr} {h : Head} (hw : i.wf = true) (hh : i.head = some h) : h.wf = true ∧ i.operandsOk = true := by
  unfold Instr.wf at hw; rw [hh] at hw; simpa using hw

theorem wf_dep0 {i : Instr} {e : Engine} {m : Dep} (hw : i.wf = true) (hh : i.head = some ⟨e, m, 0⟩) : m.x1 = 0 ∧ m.x2 = 0 ∧ m.x3 = 0 := by
  simpa [Head.wf, and_assoc] using (wf_parts hw hh).1

theorem wf_dep1 {i : Instr} {e : Engine} {m : Dep} (hw : i.wf = true) (hh : i.head = some ⟨e, m, 1⟩) : m.x2 = 0 ∧ m.x3 = 0 := by
  simpa [Head.wf] using (wf_parts hw hh).1

theorem wf_dep2 {i : Instr} {e : Engine} {m : Dep} (hw : i.wf = true) (hh : i.head = some ⟨e, m, 2⟩) : m.x3 = 0 := by
  simpa [Head.wf] using (wf_parts hw hh).1

/-- A field that holds a whole number. -/
theorem fld_all (k n : Nat) (h : k < 2 ^ n) : fld k 0 n = k := by
  simp [fld, Nat.mod_eq_of_lt h]

theorem fld_zero (lo n : Nat) : fld 0 lo n = 0 := by simp [fld]

/-- The head word of an assembled word. -/
def headWord (tag op : Nat) (d : BitVec 4) (o : Nat) : Nat := tag * 2 ^ 29 + d.toNat * 2 ^ 25 + op * 2 ^ 18 + o

theorem fld_headWord (tag op o lo n : Nat) (d : BitVec 4) (h : lo + n ≤ 18) : fld (headWord tag op d o) lo n = fld o lo n := by
  have e : headWord tag op d o = (tag * 2 ^ 11 + d.toNat * 2 ^ 7 + op) * 2 ^ 18 + o := by unfold headWord; ring
  rw [e, fld_low _ _ _ _ _ h]

theorem headWord_tag (tag op o : Nat) (d : BitVec 4) (ht : tag < 8) (hop : op < 2 ^ 7) (ho : o < 2 ^ 18) : fld (headWord tag op d o) 29 3 = tag := by
  have hd := d.isLt
  unfold fld headWord; omega

theorem headWord_dep (tag op o : Nat) (d : BitVec 4) (hop : op < 2 ^ 7) (ho : o < 2 ^ 18) : fld (headWord tag op d o) 25 4 = d.toNat := by
  have hd := d.isLt
  unfold fld headWord; omega

theorem headWord_op (tag op o : Nat) (d : BitVec 4) (hop : op < 2 ^ 7) (ho : o < 2 ^ 18) : fld (headWord tag op d o) 18 7 = op := by
  have hd := d.isLt
  unfold fld headWord; omega

theorem headWord_lt (tag op o : Nat) (d : BitVec 4) (ht : tag < 8) (hop : op < 2 ^ 7) (ho : o < 2 ^ 18) : headWord tag op d o < 2 ^ 32 := by
  have hd := d.isLt
  unfold headWord; omega

/-- An extension word. -/
def extWord (d : BitVec 4) (p : Nat) : Nat := 6 * 2 ^ 29 + d.toNat * 2 ^ 25 + p

theorem extWord_tag (d : BitVec 4) (p : Nat) (h : p < 2 ^ 25) : fld (extWord d p) 29 3 = 6 := by
  have hd := d.isLt
  unfold fld extWord; omega

theorem extWord_dep (d : BitVec 4) (p : Nat) (h : p < 2 ^ 25) : fld (extWord d p) 25 4 = d.toNat := by
  have hd := d.isLt
  unfold fld extWord; omega

theorem extWord_pay (d : BitVec 4) (p : Nat) (h : p < 2 ^ 25) : fld (extWord d p) 0 25 = p := by
  have hd := d.isLt
  unfold fld extWord; omega

theorem extWord_lt (d : BitVec 4) (p : Nat) (h : p < 2 ^ 25) : extWord d p < 2 ^ 32 := by
  have hd := d.isLt
  unfold extWord; omega

theorem assemble_eq (tag op o : Nat) (m : Dep) (ps : List Nat) :
    assemble tag op m o ps = headWord tag op m.h o :: (ps.zip [m.x1, m.x2, m.x3]).map (fun pd => extWord pd.2 pd.1) := rfl

/-- The operands of a word of any engine. -/
def decodeOperands (tag op h p1 p2 p3 : Nat) (m : Dep) : Except DErr Instr :=
  match tag with
  | 0 => decodeS op h p1 p2 p3 m
  | 1 => decodeA op h p1 p2 p3 m
  | 2 => decodeM op h p1 m
  | 3 => decodeV op h p1 p2 p3 m
  | 4 => decodeT op h p1 m
  | _ => decodeF op h p1 p2 p3 m

/-- What decoding answers once the operands of a word are read. -/
def decoded (r : Except DErr Instr) (rest : List Nat) : Except DErr (Instr × List Nat) :=
  match r with
  | .ok i => if i.wf then .ok (i, rest) else .error .illegal
  | .error e => .error e

theorem decoded_ok (i : Instr) (rest : List Nat) (h : i.wf = true) : decoded (.ok i) rest = .ok (i, rest) := by simp [decoded, h]

/-- The decoder on the words of a head and `e` extension words (02 R48, R63). -/
theorem decode_words (tag op h : Nat) (m : Dep) (xs rest : List Nat) (htag : fld h 29 3 = tag) (hop : fld h 18 7 = op)
    (he : extCount tag op h = some xs.length) (hx : ∀ x ∈ xs, fld x 29 3 = 6) (hr : ∀ w, rest.head? = some w → fld w 29 3 ≠ 6)
    (hm : depOf h xs = m) :
    decode (h :: (xs ++ rest)) =
      decoded (decodeOperands tag op h (fld (xs.getD 0 0) 0 25) (fld (xs.getD 1 0) 0 25) (fld (xs.getD 2 0) 0 25) m) rest := by
  have hok : extsOk xs.length (xs ++ rest) = true := by
    simp only [extsOk, List.take_left']
    cases rest with
    | nil => simp; exact hx
    | cons w t => simp; exact ⟨hx, hr w rfl⟩
  have htk : (xs ++ rest).take xs.length = xs := List.take_left' rfl
  subst hm
  have key : decodeHead h (xs ++ rest) =
      (match decodeOperands tag op h (fld (xs.getD 0 0) 0 25) (fld (xs.getD 1 0) 0 25) (fld (xs.getD 2 0) 0 25) (depOf h xs) with
      | .ok i => if i.wf then .ok (i, xs.length) else .error .illegal
      | .error e => .error e) := by
    unfold decodeHead
    simp only [htag, hop, he, hok, htk, if_true]
    rfl
  simp only [decode, key]
  generalize decodeOperands tag op h _ _ _ _ = r
  cases r with
  | error e => rfl
  | ok i => by_cases hw : i.wf <;> simp [decoded, hw]

/-- The decoder on an assembled word without payload. -/
theorem decode_assemble0 (tag op o : Nat) (m : Dep) (rest : List Nat) (ht : tag < 6) (hop : op < 2 ^ 7) (ho : o < 2 ^ 18)
    (he : extCount tag op (headWord tag op m.h o) = some 0) (h1 : m.x1 = 0) (h2 : m.x2 = 0) (h3 : m.x3 = 0)
    (hr : ∀ w, rest.head? = some w → fld w 29 3 ≠ 6) :
    decode (assemble tag op m o [] ++ rest) = decoded (decodeOperands tag op (headWord tag op m.h o) 0 0 0 m) rest := by
  have := decode_words tag op (headWord tag op m.h o) m [] rest (headWord_tag _ _ _ _ (by omega) hop ho) (headWord_op _ _ _ _ hop ho) he
    (by simp) hr (by rcases m with ⟨h, x1, x2, x3⟩; simp_all [depOf, headWord_dep _ _ _ _ hop ho, fld_zero])
  simpa [assemble_eq, fld_zero] using this

/-- The decoder on an assembled word with one payload. -/
theorem decode_assemble1 (tag op o p : Nat) (m : Dep) (rest : List Nat) (ht : tag < 6) (hop : op < 2 ^ 7) (ho : o < 2 ^ 18) (hp : p < 2 ^ 25)
    (he : extCount tag op (headWord tag op m.h o) = some 1) (h2 : m.x2 = 0) (h3 : m.x3 = 0)
    (hr : ∀ w, rest.head? = some w → fld w 29 3 ≠ 6) :
    decode (assemble tag op m o [p] ++ rest) = decoded (decodeOperands tag op (headWord tag op m.h o) p 0 0 m) rest := by
  have := decode_words tag op (headWord tag op m.h o) m [extWord m.x1 p] rest (headWord_tag _ _ _ _ (by omega) hop ho) (headWord_op _ _ _ _ hop ho) he
    (by simp [extWord_tag _ _ hp]) hr
    (by rcases m with ⟨h, x1, x2, x3⟩; simp_all [depOf, headWord_dep _ _ _ _ hop ho, extWord_dep _ _ hp, fld_zero])
  simpa [assemble_eq, extWord_pay _ _ hp, fld_zero] using this

/-- The decoder on an assembled word with two payloads. -/
theorem decode_assemble2 (tag op o p q : Nat) (m : Dep) (rest : List Nat) (ht : tag < 6) (hop : op < 2 ^ 7) (ho : o < 2 ^ 18) (hp : p < 2 ^ 25)
    (hq : q < 2 ^ 25) (he : extCount tag op (headWord tag op m.h o) = some 2) (h3 : m.x3 = 0) (hr : ∀ w, rest.head? = some w → fld w 29 3 ≠ 6) :
    decode (assemble tag op m o [p, q] ++ rest) = decoded (decodeOperands tag op (headWord tag op m.h o) p q 0 m) rest := by
  have := decode_words tag op (headWord tag op m.h o) m [extWord m.x1 p, extWord m.x2 q] rest (headWord_tag _ _ _ _ (by omega) hop ho)
    (headWord_op _ _ _ _ hop ho) he (by simp [extWord_tag _ _ hp, extWord_tag _ _ hq]) hr
    (by rcases m with ⟨h, x1, x2, x3⟩; simp_all [depOf, headWord_dep _ _ _ _ hop ho, extWord_dep _ _ hp, extWord_dep _ _ hq, fld_zero])
  simpa [assemble_eq, extWord_pay _ _ hp, extWord_pay _ _ hq, fld_zero] using this

/-- The decoder on an assembled word with three payloads. -/
theorem decode_assemble3 (tag op o p q r : Nat) (m : Dep) (rest : List Nat) (ht : tag < 6) (hop : op < 2 ^ 7) (ho : o < 2 ^ 18) (hp : p < 2 ^ 25)
    (hq : q < 2 ^ 25) (hr3 : r < 2 ^ 25) (he : extCount tag op (headWord tag op m.h o) = some 3)
    (hr : ∀ w, rest.head? = some w → fld w 29 3 ≠ 6) :
    decode (assemble tag op m o [p, q, r] ++ rest) = decoded (decodeOperands tag op (headWord tag op m.h o) p q r m) rest := by
  have := decode_words tag op (headWord tag op m.h o) m [extWord m.x1 p, extWord m.x2 q, extWord m.x3 r] rest (headWord_tag _ _ _ _ (by omega) hop ho)
    (headWord_op _ _ _ _ hop ho) he (by simp [extWord_tag _ _ hp, extWord_tag _ _ hq, extWord_tag _ _ hr3]) hr
    (by simp [depOf, headWord_dep _ _ _ _ hop ho, extWord_dep _ _ hp, extWord_dep _ _ hq, extWord_dep _ _ hr3])
  simpa [assemble_eq, extWord_pay _ _ hp, extWord_pay _ _ hq, extWord_pay _ _ hr3] using this

end Sys2Proof
end

