-- ==== Sys2Proof/Laws/Sparse.lean ====
section
/-!
SUPPORT. Sparse tables: what is read after a put, and the canonical form, which every put keeps.
-/

namespace Sys2Proof.Machine

variable {α : Type}

/-! ## Reading after a put -/

theorem spGet_spErase_same (d : α) (m : Sparse α) (i : Nat) : spGet d (spErase m i) i = d := by
  induction m with
  | nil => rfl
  | cons p t ih =>
    obtain ⟨k, v⟩ := p
    by_cases h : k = i
    · simp [spErase, h, ih]
    · simp [spErase, spGet, h, ih]

theorem spGet_spErase_ne (d : α) (m : Sparse α) {i j : Nat} (h : j ≠ i) : spGet d (spErase m i) j = spGet d m j := by
  induction m with
  | nil => rfl
  | cons p t ih =>
    obtain ⟨k, v⟩ := p
    by_cases hk : k = i
    · have : ¬ k = j := fun e => h (e ▸ hk)
      subst hk
      simp [spErase, spGet, ih, this]
    · simp [spErase, spGet, hk, ih]

theorem spGet_spIns_ne (d : α) (m : Sparse α) {i j : Nat} (x : α) (h : j ≠ i) : spGet d (spIns m i x) j = spGet d m j := by
  have h' : ¬ i = j := fun e => h e.symm
  induction m with
  | nil => simp [spIns, spGet, h']
  | cons p t ih =>
    obtain ⟨k, v⟩ := p
    by_cases hk : i < k
    · simp [spIns, spGet, hk, h']
    · simp [spIns, spGet, hk, ih]

/-- The table does not list a key. -/
def spFree (m : Sparse α) (i : Nat) : Prop := ∀ p ∈ m, p.1 ≠ i

theorem spFree_spErase (m : Sparse α) (i : Nat) : spFree (spErase m i) i := by
  induction m with
  | nil => intro p hp; cases hp
  | cons q t ih =>
    obtain ⟨k, v⟩ := q
    by_cases hk : k = i
    · simpa [spErase, hk] using ih
    · intro p hp
      simp only [spErase, hk, if_false, List.mem_cons] at hp
      rcases hp with rfl | hp
      · exact hk
      · exact ih p hp

theorem spGet_spIns_same (d : α) (m : Sparse α) (i : Nat) (x : α) (h : spFree m i) : spGet d (spIns m i x) i = x := by
  induction m with
  | nil => simp [spIns, spGet]
  | cons p t ih =>
    obtain ⟨k, v⟩ := p
    have hk : k ≠ i := h (k, v) (List.mem_cons_self ..)
    by_cases hl : i < k
    · simp [spIns, spGet, hl]
    · simp [spIns, spGet, hl, hk]
      exact ih (fun p hp => h p (List.mem_cons_of_mem _ hp))

variable [DecidableEq α]

/-- What was put is read. -/
theorem spGet_spPut_same (d : α) (m : Sparse α) (i : Nat) (x : α) : spGet d (spPut d m i x) i = x := by
  unfold spPut
  split
  · next h => subst h; exact spGet_spErase_same ..
  · exact spGet_spIns_same _ _ _ _ (spFree_spErase m i)

/-- Every other key reads as before. -/
theorem spGet_spPut_ne (d : α) (m : Sparse α) {i j : Nat} (x : α) (h : j ≠ i) : spGet d (spPut d m i x) j = spGet d m j := by
  unfold spPut
  split
  · exact spGet_spErase_ne _ _ h
  · rw [spGet_spIns_ne _ _ _ h, spGet_spErase_ne _ _ h]

/-- A run of values put leaves the keys outside it. -/
theorem spGet_spPutN_out (d : α) (l : List α) : ∀ (m : Sparse α) (i j : Nat), (j < i ∨ i + l.length ≤ j) → spGet d (spPutN d m i l) j = spGet d m j := by
  induction l with
  | nil => intros; rfl
  | cons x t ih =>
    intro m i j h
    simp only [List.length_cons] at h
    rw [spPutN, ih _ _ _ (by omega), spGet_spPut_ne _ _ _ (by omega)]

/-- A run of values put is read, value by value. -/
theorem spGet_spPutN_in (d : α) (l : List α) : ∀ (m : Sparse α) (i k : Nat), k < l.length → spGet d (spPutN d m i l) (i + k) = l.getD k d := by
  induction l with
  | nil => intro m i k h; simp at h
  | cons x t ih =>
    intro m i k h
    cases k with
    | zero => simp [spPutN, spGet_spPutN_out, spGet_spPut_same]
    | succ k =>
      simp only [List.length_cons] at h
      have := ih (spPut d m i x) (i + 1) k (by omega)
      rw [spPutN, show i + (k + 1) = i + 1 + k by omega, this]
      simp

omit [DecidableEq α] in
theorem spGetN_length (d : α) (m : Sparse α) (i n : Nat) : (spGetN d m i n).length = n := by
  induction n generalizing i with
  | zero => rfl
  | succ n ih => simp [spGetN, ih]

omit [DecidableEq α] in
theorem spGetN_congr (d : α) (m m' : Sparse α) (i n : Nat) (h : ∀ k, k < n → spGet d m (i + k) = spGet d m' (i + k)) :
    spGetN d m i n = spGetN d m' i n := by
  induction n generalizing i with
  | zero => rfl
  | succ n ih =>
    simp only [spGetN]
    rw [ih (i + 1) (fun k hk => by simpa [Nat.add_assoc, Nat.add_comm 1] using h (k + 1) (by omega)), show spGet d m i = spGet d m' i from h 0 (by omega)]

/-- A run of values put reads back whole. -/
theorem spGetN_spPutN (d : α) (l : List α) : ∀ (m : Sparse α) (i : Nat), spGetN d (spPutN d m i l) i l.length = l := by
  induction l with
  | nil => intros; rfl
  | cons x t ih =>
    intro m i
    have h : spGet d (spPutN d (spPut d m i x) (i + 1) t) i = x := by
      rw [spGet_spPutN_out _ _ _ _ _ (by omega), spGet_spPut_same]
    simp only [List.length_cons, spGetN, spPutN, h, ih]

/-- A read of bytes that a run of values put does not touch. -/
theorem spGetN_spPutN_out (d : α) (l : List α) (m : Sparse α) (i j n : Nat) (h : j + n ≤ i ∨ i + l.length ≤ j) :
    spGetN d (spPutN d m i l) j n = spGetN d m j n :=
  spGetN_congr _ _ _ _ _ (fun k hk => spGet_spPutN_out _ _ _ _ _ (by omega))

/-! ## The canonical form -/

theorem spWfFrom_mono (d : α) {lo hi : Option Nat} (m : Sparse α) (h : spWfFrom d hi m = true)
    (hl : ∀ l, lo = some l → ∃ k, hi = some k ∧ l ≤ k) : spWfFrom d lo m = true := by
  cases m with
  | nil => rfl
  | cons p t =>
    obtain ⟨k, v⟩ := p
    simp only [spWfFrom, Bool.and_eq_true] at h ⊢
    refine ⟨⟨?_, h.1.2⟩, h.2⟩
    cases lo with
    | none => rfl
    | some l =>
      obtain ⟨k', rfl, hk⟩ := hl l rfl
      have := h.1.1
      simp only [decide_eq_true_eq] at this ⊢
      omega

theorem spWfFrom_lt (d : α) {lo : Nat} (m : Sparse α) (h : spWfFrom d (some lo) m = true) : ∀ p ∈ m, lo < p.1 := by
  induction m generalizing lo with
  | nil => intro p hp; cases hp
  | cons q t ih =>
    obtain ⟨k, v⟩ := q
    simp only [spWfFrom, Bool.and_eq_true, decide_eq_true_eq] at h
    intro p hp
    rcases List.mem_cons.1 hp with rfl | hp
    · exact h.1.1
    · have := ih h.2 p hp
      omega

theorem spErase_free (d : α) {lo : Option Nat} (m : Sparse α) (i : Nat) (_ : spWfFrom d lo m = true) (hi : spFree m i) : spErase m i = m := by
  induction m generalizing lo with
  | nil => rfl
  | cons p t ih =>
    obtain ⟨k, v⟩ := p
    have hk : k ≠ i := hi (k, v) (List.mem_cons_self ..)
    simp only [spWfFrom, Bool.and_eq_true] at *
    rename_i h
    simp [spErase, hk, ih h.2 (fun p hp => hi p (List.mem_cons_of_mem _ hp))]

theorem spWfFrom_spErase (d : α) {lo : Option Nat} (m : Sparse α) (i : Nat) (h : spWfFrom d lo m = true) : spWfFrom d lo (spErase m i) = true := by
  induction m generalizing lo with
  | nil => rfl
  | cons p t ih =>
    obtain ⟨k, v⟩ := p
    simp only [spWfFrom, Bool.and_eq_true] at h
    by_cases hk : k = i
    · simp only [spErase, hk, if_true]
      refine spWfFrom_mono d _ (ih h.2) (fun l hl => ⟨k, rfl, ?_⟩)
      subst hl
      have := h.1.1
      simp only [decide_eq_true_eq] at this
      omega
    · simp only [spErase, hk, if_false, spWfFrom, Bool.and_eq_true]
      exact ⟨h.1, ih h.2⟩

theorem spWfFrom_spIns (d : α) {lo : Option Nat} (m : Sparse α) (i : Nat) (x : α) (h : spWfFrom d lo m = true) (hx : x ≠ d) (hi : spFree m i)
    (hl : ∀ l, lo = some l → l < i) : spWfFrom d lo (spIns m i x) = true := by
  induction m generalizing lo with
  | nil =>
    cases lo with
    | none => simp [spIns, spWfFrom, hx]
    | some l => simp [spIns, spWfFrom, hx, hl l rfl]
  | cons p t ih =>
    obtain ⟨k, v⟩ := p
    simp only [spWfFrom, Bool.and_eq_true] at h
    have hk : k ≠ i := hi (k, v) (List.mem_cons_self ..)
    by_cases hlt : i < k
    · simp only [spIns, hlt, if_true, spWfFrom, Bool.and_eq_true, bne_iff_ne, ne_eq, decide_eq_true_eq]
      refine ⟨⟨?_, hx⟩, ⟨trivial, by simpa using h.1.2⟩, h.2⟩
      cases lo with
      | none => rfl
      | some l => simpa using hl l rfl
    · simp only [spIns, hlt, if_false, spWfFrom, Bool.and_eq_true]
      exact ⟨h.1, ih h.2 (fun p hp => hi p (List.mem_cons_of_mem _ hp)) (fun l e => by injection e; omega)⟩

/-- A put keeps the canonical form. -/
theorem spWf_spPut (d : α) (m : Sparse α) (i : Nat) (x : α) (h : spWf d m = true) : spWf d (spPut d m i x) = true := by
  unfold spWf spPut at *
  split
  · exact spWfFrom_spErase d m i h
  · next hx => exact spWfFrom_spIns d _ i x (spWfFrom_spErase d m i h) hx (spFree_spErase m i) (fun l e => by cases e)

/-- A run of puts keeps the canonical form. -/
theorem spWf_spPutN (d : α) (l : List α) : ∀ (m : Sparse α) (i : Nat), spWf d m = true → spWf d (spPutN d m i l) = true := by
  induction l with
  | nil => intro m i h; exact h
  | cons x t ih => intro m i h; exact ih _ _ (spWf_spPut d m i x h)

/-! ## Puts of what is there -/

theorem spErase_get_default (d : α) {lo : Option Nat} (m : Sparse α) (i : Nat) (h : spWfFrom d lo m = true) (hd : spGet d m i = d) : spErase m i = m := by
  induction m generalizing lo with
  | nil => rfl
  | cons p t ih =>
    obtain ⟨k, v⟩ := p
    simp only [spWfFrom, Bool.and_eq_true, bne_iff_ne, ne_eq] at h
    by_cases hk : k = i
    · simp only [spGet, hk, if_true] at hd
      exact absurd hd (by simpa using h.1.2)
    · simp only [spGet, hk, if_false] at hd
      simp [spErase, hk, ih h.2 hd]

theorem spIns_spErase_get (d : α) {lo : Option Nat} (m : Sparse α) (i : Nat) (h : spWfFrom d lo m = true) (hd : spGet d m i ≠ d) :
    spIns (spErase m i) i (spGet d m i) = m := by
  induction m generalizing lo with
  | nil => simp [spGet] at hd
  | cons p t ih =>
    obtain ⟨k, v⟩ := p
    simp only [spWfFrom, Bool.and_eq_true] at h
    by_cases hk : k = i
    · subst hk
      have hf : spFree t k := fun p hp => by have := spWfFrom_lt d t h.2 p hp; omega
      simp only [spErase, if_true, spGet, spErase_free d t k h.2 hf]
      cases t with
      | nil => rfl
      | cons q u =>
        have := spWfFrom_lt d (q :: u) h.2 q (List.mem_cons_self ..)
        simp [spIns, this]
    · simp only [spGet, hk, if_false] at hd
      have hi : ¬ i < k := by
        intro hlt
        apply hd
        have hf : spFree t i := fun p hp => by have := spWfFrom_lt d t h.2 p hp; omega
        rw [← spErase_free d t i h.2 hf]
        exact spGet_spErase_same ..
      simp [spErase, spGet, hk, spIns, hi, ih h.2 hd]

/-- Putting back what is read changes nothing. -/
theorem spPut_self (d : α) (m : Sparse α) (i : Nat) (h : spWf d m = true) : spPut d m i (spGet d m i) = m := by
  unfold spPut
  split
  · next hd => exact spErase_get_default d m i h hd
  · next hd => exact spIns_spErase_get d m i h hd

omit [DecidableEq α] in
theorem spErase_spIns (m : Sparse α) (i : Nat) (x : α) (h : spFree m i) : spErase (spIns m i x) i = m := by
  induction m with
  | nil => simp [spIns, spErase]
  | cons p t ih =>
    obtain ⟨k, v⟩ := p
    have hk : k ≠ i := h (k, v) (List.mem_cons_self ..)
    have ht : spFree t i := fun p hp => h p (List.mem_cons_of_mem _ hp)
    have he : ∀ t : Sparse α, spFree t i → spErase t i = t := by
      intro t ht
      induction t with
      | nil => rfl
      | cons q u ihu =>
        obtain ⟨k', v'⟩ := q
        have : k' ≠ i := ht (k', v') (List.mem_cons_self ..)
        simp [spErase, this, ihu (fun p hp => ht p (List.mem_cons_of_mem _ hp))]
    by_cases hl : i < k
    · simp [spIns, hl, spErase, hk, he t ht]
    · simp [spIns, hl, spErase, hk, ih ht]

omit [DecidableEq α] in
theorem spErase_spErase (m : Sparse α) (i : Nat) : spErase (spErase m i) i = spErase m i := by
  induction m with
  | nil => rfl
  | cons p t ih =>
    obtain ⟨k, v⟩ := p
    by_cases hk : k = i <;> simp [spErase, hk, ih]

/-- Of two puts at a key the later one counts. -/
theorem spPut_spPut (d : α) (m : Sparse α) (i : Nat) (x y : α) : spPut d (spPut d m i x) i y = spPut d m i y := by
  have h : spErase (spPut d m i x) i = spErase m i := by
    unfold spPut
    split
    · exact spErase_spErase m i
    · exact spErase_spIns _ _ _ (spFree_spErase m i)
  simp only [spPut, h] at *

end Sys2Proof.Machine
end

