-- ==== Sys2Proof/Laws/State.lean ====
section
/-!
SUPPORT. What every update of the state leaves: one lemma per field and update, and what is read back at the place that an update writes.
-/

namespace Sys2Proof.Machine

/-! ## Updates of the package -/

@[simp] theorem setCore_part (s : State) (c : Nat) (k : Core) : (s.setCore c k).part = s.part := rfl
@[simp] theorem setCore_mem (s : State) (c : Nat) (k : Core) : (s.setCore c k).mem = s.mem := rfl
@[simp] theorem setCore_bad (s : State) (c : Nat) (k : Core) : (s.setCore c k).bad = s.bad := rfl
@[simp] theorem setCore_ctxs (s : State) (c : Nat) (k : Core) : (s.setCore c k).ctxs = s.ctxs := rfl
@[simp] theorem setCore_launches (s : State) (c : Nat) (k : Core) : (s.setCore c k).launches = s.launches := rfl
@[simp] theorem setCore_queues (s : State) (c : Nat) (k : Core) : (s.setCore c k).queues = s.queues := rfl
@[simp] theorem setCore_graphs (s : State) (c : Nat) (k : Core) : (s.setCore c k).graphs = s.graphs := rfl
@[simp] theorem setCore_watches (s : State) (c : Nat) (k : Core) : (s.setCore c k).watches = s.watches := rfl
@[simp] theorem setCore_platw (s : State) (c : Nat) (k : Core) : (s.setCore c k).platw = s.platw := rfl
@[simp] theorem setCore_migs (s : State) (c : Nat) (k : Core) : (s.setCore c k).migs = s.migs := rfl
@[simp] theorem setCore_transit (s : State) (c : Nat) (k : Core) : (s.setCore c k).transit = s.transit := rfl
@[simp] theorem setCore_busy (s : State) (c : Nat) (k : Core) : (s.setCore c k).busy = s.busy := rfl
@[simp] theorem setCore_trav (s : State) (c : Nat) (k : Core) : (s.setCore c k).trav = s.trav := rfl
@[simp] theorem setCore_regs (s : State) (c : Nat) (k : Core) : (s.setCore c k).regs = s.regs := rfl
@[simp] theorem setCore_net (s : State) (c : Nat) (k : Core) : (s.setCore c k).net = s.net := rfl
@[simp] theorem setCore_dtime (s : State) (c : Nat) (k : Core) : (s.setCore c k).dtime = s.dtime := rfl
@[simp] theorem setCore_cycle (s : State) (c : Nat) (k : Core) : (s.setCore c k).cycle = s.cycle := rfl
@[simp] theorem setCore_nextId (s : State) (c : Nat) (k : Core) : (s.setCore c k).nextId = s.nextId := rfl
@[simp] theorem setCore_freeCtr (s : State) (c : Nat) (k : Core) : (s.setCore c k).freeCtr = s.freeCtr := rfl
@[simp] theorem setCore_cur (s : State) (c : Nat) (k : Core) : (s.setCore c k).cur = s.cur := rfl
@[simp] theorem setCore_agenda (s : State) (c : Nat) (k : Core) : (s.setCore c k).agenda = s.agenda := rfl
@[simp] theorem setCore_rr (s : State) (c : Nat) (k : Core) : (s.setCore c k).rr = s.rr := rfl

@[simp] theorem setBank_part (s : State) (l : Loc) (b : Bank) : (s.setBank l b).part = s.part := rfl
@[simp] theorem setBank_mem (s : State) (l : Loc) (b : Bank) : (s.setBank l b).mem = s.mem := rfl
@[simp] theorem setBank_bad (s : State) (l : Loc) (b : Bank) : (s.setBank l b).bad = s.bad := rfl
@[simp] theorem setBank_ctxs (s : State) (l : Loc) (b : Bank) : (s.setBank l b).ctxs = s.ctxs := rfl
@[simp] theorem setBank_launches (s : State) (l : Loc) (b : Bank) : (s.setBank l b).launches = s.launches := rfl
@[simp] theorem setBank_queues (s : State) (l : Loc) (b : Bank) : (s.setBank l b).queues = s.queues := rfl
@[simp] theorem setBank_graphs (s : State) (l : Loc) (b : Bank) : (s.setBank l b).graphs = s.graphs := rfl
@[simp] theorem setBank_watches (s : State) (l : Loc) (b : Bank) : (s.setBank l b).watches = s.watches := rfl
@[simp] theorem setBank_platw (s : State) (l : Loc) (b : Bank) : (s.setBank l b).platw = s.platw := rfl
@[simp] theorem setBank_migs (s : State) (l : Loc) (b : Bank) : (s.setBank l b).migs = s.migs := rfl
@[simp] theorem setBank_transit (s : State) (l : Loc) (b : Bank) : (s.setBank l b).transit = s.transit := rfl
@[simp] theorem setBank_busy (s : State) (l : Loc) (b : Bank) : (s.setBank l b).busy = s.busy := rfl
@[simp] theorem setBank_trav (s : State) (l : Loc) (b : Bank) : (s.setBank l b).trav = s.trav := rfl
@[simp] theorem setBank_regs (s : State) (l : Loc) (b : Bank) : (s.setBank l b).regs = s.regs := rfl
@[simp] theorem setBank_net (s : State) (l : Loc) (b : Bank) : (s.setBank l b).net = s.net := rfl
@[simp] theorem setBank_dtime (s : State) (l : Loc) (b : Bank) : (s.setBank l b).dtime = s.dtime := rfl
@[simp] theorem setBank_cycle (s : State) (l : Loc) (b : Bank) : (s.setBank l b).cycle = s.cycle := rfl
@[simp] theorem setBank_nextId (s : State) (l : Loc) (b : Bank) : (s.setBank l b).nextId = s.nextId := rfl
@[simp] theorem setBank_freeCtr (s : State) (l : Loc) (b : Bank) : (s.setBank l b).freeCtr = s.freeCtr := rfl
@[simp] theorem setBank_cur (s : State) (l : Loc) (b : Bank) : (s.setBank l b).cur = s.cur := rfl
@[simp] theorem setBank_agenda (s : State) (l : Loc) (b : Bank) : (s.setBank l b).agenda = s.agenda := rfl
@[simp] theorem setBank_rr (s : State) (l : Loc) (b : Bank) : (s.setBank l b).rr = s.rr := rfl

@[simp] theorem modLaunch_part (s : State) (id : Nat) (f : Launch → Launch) : (s.modLaunch id f).part = s.part := rfl
@[simp] theorem modLaunch_mem (s : State) (id : Nat) (f : Launch → Launch) : (s.modLaunch id f).mem = s.mem := rfl
@[simp] theorem modLaunch_bad (s : State) (id : Nat) (f : Launch → Launch) : (s.modLaunch id f).bad = s.bad := rfl
@[simp] theorem modLaunch_ctxs (s : State) (id : Nat) (f : Launch → Launch) : (s.modLaunch id f).ctxs = s.ctxs := rfl
@[simp] theorem modLaunch_cores (s : State) (id : Nat) (f : Launch → Launch) : (s.modLaunch id f).cores = s.cores := rfl
@[simp] theorem modLaunch_queues (s : State) (id : Nat) (f : Launch → Launch) : (s.modLaunch id f).queues = s.queues := rfl
@[simp] theorem modLaunch_graphs (s : State) (id : Nat) (f : Launch → Launch) : (s.modLaunch id f).graphs = s.graphs := rfl
@[simp] theorem modLaunch_watches (s : State) (id : Nat) (f : Launch → Launch) : (s.modLaunch id f).watches = s.watches := rfl
@[simp] theorem modLaunch_platw (s : State) (id : Nat) (f : Launch → Launch) : (s.modLaunch id f).platw = s.platw := rfl
@[simp] theorem modLaunch_migs (s : State) (id : Nat) (f : Launch → Launch) : (s.modLaunch id f).migs = s.migs := rfl
@[simp] theorem modLaunch_transit (s : State) (id : Nat) (f : Launch → Launch) : (s.modLaunch id f).transit = s.transit := rfl
@[simp] theorem modLaunch_busy (s : State) (id : Nat) (f : Launch → Launch) : (s.modLaunch id f).busy = s.busy := rfl
@[simp] theorem modLaunch_trav (s : State) (id : Nat) (f : Launch → Launch) : (s.modLaunch id f).trav = s.trav := rfl
@[simp] theorem modLaunch_regs (s : State) (id : Nat) (f : Launch → Launch) : (s.modLaunch id f).regs = s.regs := rfl
@[simp] theorem modLaunch_net (s : State) (id : Nat) (f : Launch → Launch) : (s.modLaunch id f).net = s.net := rfl
@[simp] theorem modLaunch_dtime (s : State) (id : Nat) (f : Launch → Launch) : (s.modLaunch id f).dtime = s.dtime := rfl
@[simp] theorem modLaunch_cycle (s : State) (id : Nat) (f : Launch → Launch) : (s.modLaunch id f).cycle = s.cycle := rfl
@[simp] theorem modLaunch_nextId (s : State) (id : Nat) (f : Launch → Launch) : (s.modLaunch id f).nextId = s.nextId := rfl
@[simp] theorem modLaunch_freeCtr (s : State) (id : Nat) (f : Launch → Launch) : (s.modLaunch id f).freeCtr = s.freeCtr := rfl
@[simp] theorem modLaunch_cur (s : State) (id : Nat) (f : Launch → Launch) : (s.modLaunch id f).cur = s.cur := rfl
@[simp] theorem modLaunch_agenda (s : State) (id : Nat) (f : Launch → Launch) : (s.modLaunch id f).agenda = s.agenda := rfl
@[simp] theorem modLaunch_rr (s : State) (id : Nat) (f : Launch → Launch) : (s.modLaunch id f).rr = s.rr := rfl

@[simp] theorem stopLaunch_part (s : State) (id : Nat) : (s.stopLaunch id).part = s.part := rfl
@[simp] theorem stopLaunch_mem (s : State) (id : Nat) : (s.stopLaunch id).mem = s.mem := rfl
@[simp] theorem stopLaunch_bad (s : State) (id : Nat) : (s.stopLaunch id).bad = s.bad := rfl
@[simp] theorem stopLaunch_ctxs (s : State) (id : Nat) : (s.stopLaunch id).ctxs = s.ctxs := rfl
@[simp] theorem stopLaunch_launches (s : State) (id : Nat) : (s.stopLaunch id).launches = s.launches := rfl
@[simp] theorem stopLaunch_queues (s : State) (id : Nat) : (s.stopLaunch id).queues = s.queues := rfl
@[simp] theorem stopLaunch_graphs (s : State) (id : Nat) : (s.stopLaunch id).graphs = s.graphs := rfl
@[simp] theorem stopLaunch_watches (s : State) (id : Nat) : (s.stopLaunch id).watches = s.watches := rfl
@[simp] theorem stopLaunch_platw (s : State) (id : Nat) : (s.stopLaunch id).platw = s.platw := rfl
@[simp] theorem stopLaunch_migs (s : State) (id : Nat) : (s.stopLaunch id).migs = s.migs := rfl
@[simp] theorem stopLaunch_transit (s : State) (id : Nat) : (s.stopLaunch id).transit = s.transit := rfl
@[simp] theorem stopLaunch_busy (s : State) (id : Nat) : (s.stopLaunch id).busy = s.busy := rfl
@[simp] theorem stopLaunch_trav (s : State) (id : Nat) : (s.stopLaunch id).trav = s.trav := rfl
@[simp] theorem stopLaunch_regs (s : State) (id : Nat) : (s.stopLaunch id).regs = s.regs := rfl
@[simp] theorem stopLaunch_net (s : State) (id : Nat) : (s.stopLaunch id).net = s.net := rfl
@[simp] theorem stopLaunch_dtime (s : State) (id : Nat) : (s.stopLaunch id).dtime = s.dtime := rfl
@[simp] theorem stopLaunch_cycle (s : State) (id : Nat) : (s.stopLaunch id).cycle = s.cycle := rfl
@[simp] theorem stopLaunch_nextId (s : State) (id : Nat) : (s.stopLaunch id).nextId = s.nextId := rfl
@[simp] theorem stopLaunch_freeCtr (s : State) (id : Nat) : (s.stopLaunch id).freeCtr = s.freeCtr := rfl
@[simp] theorem stopLaunch_cur (s : State) (id : Nat) : (s.stopLaunch id).cur = s.cur := rfl
@[simp] theorem stopLaunch_agenda (s : State) (id : Nat) : (s.stopLaunch id).agenda = s.agenda := rfl
@[simp] theorem stopLaunch_rr (s : State) (id : Nat) : (s.stopLaunch id).rr = s.rr := rfl

@[simp] theorem newId_snd_part (s : State) : (s.newId.2).part = s.part := rfl
@[simp] theorem newId_snd_mem (s : State) : (s.newId.2).mem = s.mem := rfl
@[simp] theorem newId_snd_bad (s : State) : (s.newId.2).bad = s.bad := rfl
@[simp] theorem newId_snd_ctxs (s : State) : (s.newId.2).ctxs = s.ctxs := rfl
@[simp] theorem newId_snd_cores (s : State) : (s.newId.2).cores = s.cores := rfl
@[simp] theorem newId_snd_launches (s : State) : (s.newId.2).launches = s.launches := rfl
@[simp] theorem newId_snd_queues (s : State) : (s.newId.2).queues = s.queues := rfl
@[simp] theorem newId_snd_graphs (s : State) : (s.newId.2).graphs = s.graphs := rfl
@[simp] theorem newId_snd_watches (s : State) : (s.newId.2).watches = s.watches := rfl
@[simp] theorem newId_snd_platw (s : State) : (s.newId.2).platw = s.platw := rfl
@[simp] theorem newId_snd_migs (s : State) : (s.newId.2).migs = s.migs := rfl
@[simp] theorem newId_snd_transit (s : State) : (s.newId.2).transit = s.transit := rfl
@[simp] theorem newId_snd_busy (s : State) : (s.newId.2).busy = s.busy := rfl
@[simp] theorem newId_snd_trav (s : State) : (s.newId.2).trav = s.trav := rfl
@[simp] theorem newId_snd_regs (s : State) : (s.newId.2).regs = s.regs := rfl
@[simp] theorem newId_snd_net (s : State) : (s.newId.2).net = s.net := rfl
@[simp] theorem newId_snd_dtime (s : State) : (s.newId.2).dtime = s.dtime := rfl
@[simp] theorem newId_snd_cycle (s : State) : (s.newId.2).cycle = s.cycle := rfl
@[simp] theorem newId_snd_freeCtr (s : State) : (s.newId.2).freeCtr = s.freeCtr := rfl
@[simp] theorem newId_snd_cur (s : State) : (s.newId.2).cur = s.cur := rfl
@[simp] theorem newId_snd_agenda (s : State) : (s.newId.2).agenda = s.agenda := rfl
@[simp] theorem newId_snd_rr (s : State) : (s.newId.2).rr = s.rr := rfl

@[simp] theorem choose_snd_part (s : State) (n : Nat) : ((s.choose n).2).part = s.part := rfl
@[simp] theorem choose_snd_mem (s : State) (n : Nat) : ((s.choose n).2).mem = s.mem := rfl
@[simp] theorem choose_snd_bad (s : State) (n : Nat) : ((s.choose n).2).bad = s.bad := rfl
@[simp] theorem choose_snd_ctxs (s : State) (n : Nat) : ((s.choose n).2).ctxs = s.ctxs := rfl
@[simp] theorem choose_snd_cores (s : State) (n : Nat) : ((s.choose n).2).cores = s.cores := rfl
@[simp] theorem choose_snd_launches (s : State) (n : Nat) : ((s.choose n).2).launches = s.launches := rfl
@[simp] theorem choose_snd_queues (s : State) (n : Nat) : ((s.choose n).2).queues = s.queues := rfl
@[simp] theorem choose_snd_graphs (s : State) (n : Nat) : ((s.choose n).2).graphs = s.graphs := rfl
@[simp] theorem choose_snd_watches (s : State) (n : Nat) : ((s.choose n).2).watches = s.watches := rfl
@[simp] theorem choose_snd_platw (s : State) (n : Nat) : ((s.choose n).2).platw = s.platw := rfl
@[simp] theorem choose_snd_migs (s : State) (n : Nat) : ((s.choose n).2).migs = s.migs := rfl
@[simp] theorem choose_snd_transit (s : State) (n : Nat) : ((s.choose n).2).transit = s.transit := rfl
@[simp] theorem choose_snd_busy (s : State) (n : Nat) : ((s.choose n).2).busy = s.busy := rfl
@[simp] theorem choose_snd_trav (s : State) (n : Nat) : ((s.choose n).2).trav = s.trav := rfl
@[simp] theorem choose_snd_regs (s : State) (n : Nat) : ((s.choose n).2).regs = s.regs := rfl
@[simp] theorem choose_snd_net (s : State) (n : Nat) : ((s.choose n).2).net = s.net := rfl
@[simp] theorem choose_snd_dtime (s : State) (n : Nat) : ((s.choose n).2).dtime = s.dtime := rfl
@[simp] theorem choose_snd_cycle (s : State) (n : Nat) : ((s.choose n).2).cycle = s.cycle := rfl
@[simp] theorem choose_snd_nextId (s : State) (n : Nat) : ((s.choose n).2).nextId = s.nextId := rfl
@[simp] theorem choose_snd_cur (s : State) (n : Nat) : ((s.choose n).2).cur = s.cur := rfl
@[simp] theorem choose_snd_agenda (s : State) (n : Nat) : ((s.choose n).2).agenda = s.agenda := rfl
@[simp] theorem choose_snd_rr (s : State) (n : Nat) : ((s.choose n).2).rr = s.rr := rfl

@[simp] theorem fresh_snd_part (s : State) : (s.fresh.2).part = s.part := rfl
@[simp] theorem fresh_snd_mem (s : State) : (s.fresh.2).mem = s.mem := rfl
@[simp] theorem fresh_snd_bad (s : State) : (s.fresh.2).bad = s.bad := rfl
@[simp] theorem fresh_snd_ctxs (s : State) : (s.fresh.2).ctxs = s.ctxs := rfl
@[simp] theorem fresh_snd_cores (s : State) : (s.fresh.2).cores = s.cores := rfl
@[simp] theorem fresh_snd_launches (s : State) : (s.fresh.2).launches = s.launches := rfl
@[simp] theorem fresh_snd_queues (s : State) : (s.fresh.2).queues = s.queues := rfl
@[simp] theorem fresh_snd_graphs (s : State) : (s.fresh.2).graphs = s.graphs := rfl
@[simp] theorem fresh_snd_watches (s : State) : (s.fresh.2).watches = s.watches := rfl
@[simp] theorem fresh_snd_platw (s : State) : (s.fresh.2).platw = s.platw := rfl
@[simp] theorem fresh_snd_migs (s : State) : (s.fresh.2).migs = s.migs := rfl
@[simp] theorem fresh_snd_transit (s : State) : (s.fresh.2).transit = s.transit := rfl
@[simp] theorem fresh_snd_busy (s : State) : (s.fresh.2).busy = s.busy := rfl
@[simp] theorem fresh_snd_trav (s : State) : (s.fresh.2).trav = s.trav := rfl
@[simp] theorem fresh_snd_regs (s : State) : (s.fresh.2).regs = s.regs := rfl
@[simp] theorem fresh_snd_net (s : State) : (s.fresh.2).net = s.net := rfl
@[simp] theorem fresh_snd_dtime (s : State) : (s.fresh.2).dtime = s.dtime := rfl
@[simp] theorem fresh_snd_cycle (s : State) : (s.fresh.2).cycle = s.cycle := rfl
@[simp] theorem fresh_snd_nextId (s : State) : (s.fresh.2).nextId = s.nextId := rfl
@[simp] theorem fresh_snd_cur (s : State) : (s.fresh.2).cur = s.cur := rfl
@[simp] theorem fresh_snd_agenda (s : State) : (s.fresh.2).agenda = s.agenda := rfl
@[simp] theorem fresh_snd_rr (s : State) : (s.fresh.2).rr = s.rr := rfl

@[simp] theorem notePage_part (s : State) (l : Loc) (va : Nat) (w : Bool) (ag : Nat) : (s.notePage l va w ag).part = s.part := rfl
@[simp] theorem notePage_mem (s : State) (l : Loc) (va : Nat) (w : Bool) (ag : Nat) : (s.notePage l va w ag).mem = s.mem := rfl
@[simp] theorem notePage_bad (s : State) (l : Loc) (va : Nat) (w : Bool) (ag : Nat) : (s.notePage l va w ag).bad = s.bad := rfl
@[simp] theorem notePage_ctxs (s : State) (l : Loc) (va : Nat) (w : Bool) (ag : Nat) : (s.notePage l va w ag).ctxs = s.ctxs := rfl
@[simp] theorem notePage_launches (s : State) (l : Loc) (va : Nat) (w : Bool) (ag : Nat) : (s.notePage l va w ag).launches = s.launches := rfl
@[simp] theorem notePage_queues (s : State) (l : Loc) (va : Nat) (w : Bool) (ag : Nat) : (s.notePage l va w ag).queues = s.queues := rfl
@[simp] theorem notePage_graphs (s : State) (l : Loc) (va : Nat) (w : Bool) (ag : Nat) : (s.notePage l va w ag).graphs = s.graphs := rfl
@[simp] theorem notePage_watches (s : State) (l : Loc) (va : Nat) (w : Bool) (ag : Nat) : (s.notePage l va w ag).watches = s.watches := rfl
@[simp] theorem notePage_platw (s : State) (l : Loc) (va : Nat) (w : Bool) (ag : Nat) : (s.notePage l va w ag).platw = s.platw := rfl
@[simp] theorem notePage_migs (s : State) (l : Loc) (va : Nat) (w : Bool) (ag : Nat) : (s.notePage l va w ag).migs = s.migs := rfl
@[simp] theorem notePage_transit (s : State) (l : Loc) (va : Nat) (w : Bool) (ag : Nat) : (s.notePage l va w ag).transit = s.transit := rfl
@[simp] theorem notePage_busy (s : State) (l : Loc) (va : Nat) (w : Bool) (ag : Nat) : (s.notePage l va w ag).busy = s.busy := rfl
@[simp] theorem notePage_trav (s : State) (l : Loc) (va : Nat) (w : Bool) (ag : Nat) : (s.notePage l va w ag).trav = s.trav := rfl
@[simp] theorem notePage_regs (s : State) (l : Loc) (va : Nat) (w : Bool) (ag : Nat) : (s.notePage l va w ag).regs = s.regs := rfl
@[simp] theorem notePage_net (s : State) (l : Loc) (va : Nat) (w : Bool) (ag : Nat) : (s.notePage l va w ag).net = s.net := rfl
@[simp] theorem notePage_dtime (s : State) (l : Loc) (va : Nat) (w : Bool) (ag : Nat) : (s.notePage l va w ag).dtime = s.dtime := rfl
@[simp] theorem notePage_cycle (s : State) (l : Loc) (va : Nat) (w : Bool) (ag : Nat) : (s.notePage l va w ag).cycle = s.cycle := rfl
@[simp] theorem notePage_nextId (s : State) (l : Loc) (va : Nat) (w : Bool) (ag : Nat) : (s.notePage l va w ag).nextId = s.nextId := rfl
@[simp] theorem notePage_freeCtr (s : State) (l : Loc) (va : Nat) (w : Bool) (ag : Nat) : (s.notePage l va w ag).freeCtr = s.freeCtr := rfl
@[simp] theorem notePage_cur (s : State) (l : Loc) (va : Nat) (w : Bool) (ag : Nat) : (s.notePage l va w ag).cur = s.cur := rfl
@[simp] theorem notePage_agenda (s : State) (l : Loc) (va : Nat) (w : Bool) (ag : Nat) : (s.notePage l va w ag).agenda = s.agenda := rfl
@[simp] theorem notePage_rr (s : State) (l : Loc) (va : Nat) (w : Bool) (ag : Nat) : (s.notePage l va w ag).rr = s.rr := rfl

@[simp] theorem onHere_part (s : State) (f : Bank → Bank) : (s.onHere f).part = s.part := rfl
@[simp] theorem onHere_mem (s : State) (f : Bank → Bank) : (s.onHere f).mem = s.mem := rfl
@[simp] theorem onHere_bad (s : State) (f : Bank → Bank) : (s.onHere f).bad = s.bad := rfl
@[simp] theorem onHere_ctxs (s : State) (f : Bank → Bank) : (s.onHere f).ctxs = s.ctxs := rfl
@[simp] theorem onHere_launches (s : State) (f : Bank → Bank) : (s.onHere f).launches = s.launches := rfl
@[simp] theorem onHere_queues (s : State) (f : Bank → Bank) : (s.onHere f).queues = s.queues := rfl
@[simp] theorem onHere_graphs (s : State) (f : Bank → Bank) : (s.onHere f).graphs = s.graphs := rfl
@[simp] theorem onHere_watches (s : State) (f : Bank → Bank) : (s.onHere f).watches = s.watches := rfl
@[simp] theorem onHere_platw (s : State) (f : Bank → Bank) : (s.onHere f).platw = s.platw := rfl
@[simp] theorem onHere_migs (s : State) (f : Bank → Bank) : (s.onHere f).migs = s.migs := rfl
@[simp] theorem onHere_transit (s : State) (f : Bank → Bank) : (s.onHere f).transit = s.transit := rfl
@[simp] theorem onHere_busy (s : State) (f : Bank → Bank) : (s.onHere f).busy = s.busy := rfl
@[simp] theorem onHere_trav (s : State) (f : Bank → Bank) : (s.onHere f).trav = s.trav := rfl
@[simp] theorem onHere_regs (s : State) (f : Bank → Bank) : (s.onHere f).regs = s.regs := rfl
@[simp] theorem onHere_net (s : State) (f : Bank → Bank) : (s.onHere f).net = s.net := rfl
@[simp] theorem onHere_dtime (s : State) (f : Bank → Bank) : (s.onHere f).dtime = s.dtime := rfl
@[simp] theorem onHere_cycle (s : State) (f : Bank → Bank) : (s.onHere f).cycle = s.cycle := rfl
@[simp] theorem onHere_nextId (s : State) (f : Bank → Bank) : (s.onHere f).nextId = s.nextId := rfl
@[simp] theorem onHere_freeCtr (s : State) (f : Bank → Bank) : (s.onHere f).freeCtr = s.freeCtr := rfl
@[simp] theorem onHere_cur (s : State) (f : Bank → Bank) : (s.onHere f).cur = s.cur := rfl
@[simp] theorem onHere_agenda (s : State) (f : Bank → Bank) : (s.onHere f).agenda = s.agenda := rfl
@[simp] theorem onHere_rr (s : State) (f : Bank → Bank) : (s.onHere f).rr = s.rr := rfl

@[simp] theorem setTlb_part (s : State) (c : Nat) (t : List TlbEnt) : (s.setTlb c t).part = s.part := rfl
@[simp] theorem setTlb_mem (s : State) (c : Nat) (t : List TlbEnt) : (s.setTlb c t).mem = s.mem := rfl
@[simp] theorem setTlb_bad (s : State) (c : Nat) (t : List TlbEnt) : (s.setTlb c t).bad = s.bad := rfl
@[simp] theorem setTlb_ctxs (s : State) (c : Nat) (t : List TlbEnt) : (s.setTlb c t).ctxs = s.ctxs := rfl
@[simp] theorem setTlb_launches (s : State) (c : Nat) (t : List TlbEnt) : (s.setTlb c t).launches = s.launches := rfl
@[simp] theorem setTlb_queues (s : State) (c : Nat) (t : List TlbEnt) : (s.setTlb c t).queues = s.queues := rfl
@[simp] theorem setTlb_graphs (s : State) (c : Nat) (t : List TlbEnt) : (s.setTlb c t).graphs = s.graphs := rfl
@[simp] theorem setTlb_watches (s : State) (c : Nat) (t : List TlbEnt) : (s.setTlb c t).watches = s.watches := rfl
@[simp] theorem setTlb_platw (s : State) (c : Nat) (t : List TlbEnt) : (s.setTlb c t).platw = s.platw := rfl
@[simp] theorem setTlb_migs (s : State) (c : Nat) (t : List TlbEnt) : (s.setTlb c t).migs = s.migs := rfl
@[simp] theorem setTlb_transit (s : State) (c : Nat) (t : List TlbEnt) : (s.setTlb c t).transit = s.transit := rfl
@[simp] theorem setTlb_busy (s : State) (c : Nat) (t : List TlbEnt) : (s.setTlb c t).busy = s.busy := rfl
@[simp] theorem setTlb_trav (s : State) (c : Nat) (t : List TlbEnt) : (s.setTlb c t).trav = s.trav := rfl
@[simp] theorem setTlb_regs (s : State) (c : Nat) (t : List TlbEnt) : (s.setTlb c t).regs = s.regs := rfl
@[simp] theorem setTlb_net (s : State) (c : Nat) (t : List TlbEnt) : (s.setTlb c t).net = s.net := rfl
@[simp] theorem setTlb_dtime (s : State) (c : Nat) (t : List TlbEnt) : (s.setTlb c t).dtime = s.dtime := rfl
@[simp] theorem setTlb_cycle (s : State) (c : Nat) (t : List TlbEnt) : (s.setTlb c t).cycle = s.cycle := rfl
@[simp] theorem setTlb_nextId (s : State) (c : Nat) (t : List TlbEnt) : (s.setTlb c t).nextId = s.nextId := rfl
@[simp] theorem setTlb_freeCtr (s : State) (c : Nat) (t : List TlbEnt) : (s.setTlb c t).freeCtr = s.freeCtr := rfl
@[simp] theorem setTlb_cur (s : State) (c : Nat) (t : List TlbEnt) : (s.setTlb c t).cur = s.cur := rfl
@[simp] theorem setTlb_agenda (s : State) (c : Nat) (t : List TlbEnt) : (s.setTlb c t).agenda = s.agenda := rfl
@[simp] theorem setTlb_rr (s : State) (c : Nat) (t : List TlbEnt) : (s.setTlb c t).rr = s.rr := rfl

@[simp] theorem setPlat_part (s : State) (c : Nat) (t : List PlatEnt) : (s.setPlat c t).part = s.part := rfl
@[simp] theorem setPlat_mem (s : State) (c : Nat) (t : List PlatEnt) : (s.setPlat c t).mem = s.mem := rfl
@[simp] theorem setPlat_bad (s : State) (c : Nat) (t : List PlatEnt) : (s.setPlat c t).bad = s.bad := rfl
@[simp] theorem setPlat_ctxs (s : State) (c : Nat) (t : List PlatEnt) : (s.setPlat c t).ctxs = s.ctxs := rfl
@[simp] theorem setPlat_launches (s : State) (c : Nat) (t : List PlatEnt) : (s.setPlat c t).launches = s.launches := rfl
@[simp] theorem setPlat_queues (s : State) (c : Nat) (t : List PlatEnt) : (s.setPlat c t).queues = s.queues := rfl
@[simp] theorem setPlat_graphs (s : State) (c : Nat) (t : List PlatEnt) : (s.setPlat c t).graphs = s.graphs := rfl
@[simp] theorem setPlat_watches (s : State) (c : Nat) (t : List PlatEnt) : (s.setPlat c t).watches = s.watches := rfl
@[simp] theorem setPlat_platw (s : State) (c : Nat) (t : List PlatEnt) : (s.setPlat c t).platw = s.platw := rfl
@[simp] theorem setPlat_migs (s : State) (c : Nat) (t : List PlatEnt) : (s.setPlat c t).migs = s.migs := rfl
@[simp] theorem setPlat_transit (s : State) (c : Nat) (t : List PlatEnt) : (s.setPlat c t).transit = s.transit := rfl
@[simp] theorem setPlat_busy (s : State) (c : Nat) (t : List PlatEnt) : (s.setPlat c t).busy = s.busy := rfl
@[simp] theorem setPlat_trav (s : State) (c : Nat) (t : List PlatEnt) : (s.setPlat c t).trav = s.trav := rfl
@[simp] theorem setPlat_regs (s : State) (c : Nat) (t : List PlatEnt) : (s.setPlat c t).regs = s.regs := rfl
@[simp] theorem setPlat_net (s : State) (c : Nat) (t : List PlatEnt) : (s.setPlat c t).net = s.net := rfl
@[simp] theorem setPlat_dtime (s : State) (c : Nat) (t : List PlatEnt) : (s.setPlat c t).dtime = s.dtime := rfl
@[simp] theorem setPlat_cycle (s : State) (c : Nat) (t : List PlatEnt) : (s.setPlat c t).cycle = s.cycle := rfl
@[simp] theorem setPlat_nextId (s : State) (c : Nat) (t : List PlatEnt) : (s.setPlat c t).nextId = s.nextId := rfl
@[simp] theorem setPlat_freeCtr (s : State) (c : Nat) (t : List PlatEnt) : (s.setPlat c t).freeCtr = s.freeCtr := rfl
@[simp] theorem setPlat_cur (s : State) (c : Nat) (t : List PlatEnt) : (s.setPlat c t).cur = s.cur := rfl
@[simp] theorem setPlat_agenda (s : State) (c : Nat) (t : List PlatEnt) : (s.setPlat c t).agenda = s.agenda := rfl
@[simp] theorem setPlat_rr (s : State) (c : Nat) (t : List PlatEnt) : (s.setPlat c t).rr = s.rr := rfl

@[simp] theorem setFn_part (s : State) (f : Nat) (x : FnSt) : (s.setFn f x).part = s.part := rfl
@[simp] theorem setFn_mem (s : State) (f : Nat) (x : FnSt) : (s.setFn f x).mem = s.mem := rfl
@[simp] theorem setFn_bad (s : State) (f : Nat) (x : FnSt) : (s.setFn f x).bad = s.bad := rfl
@[simp] theorem setFn_ctxs (s : State) (f : Nat) (x : FnSt) : (s.setFn f x).ctxs = s.ctxs := rfl
@[simp] theorem setFn_cores (s : State) (f : Nat) (x : FnSt) : (s.setFn f x).cores = s.cores := rfl
@[simp] theorem setFn_launches (s : State) (f : Nat) (x : FnSt) : (s.setFn f x).launches = s.launches := rfl
@[simp] theorem setFn_queues (s : State) (f : Nat) (x : FnSt) : (s.setFn f x).queues = s.queues := rfl
@[simp] theorem setFn_graphs (s : State) (f : Nat) (x : FnSt) : (s.setFn f x).graphs = s.graphs := rfl
@[simp] theorem setFn_watches (s : State) (f : Nat) (x : FnSt) : (s.setFn f x).watches = s.watches := rfl
@[simp] theorem setFn_platw (s : State) (f : Nat) (x : FnSt) : (s.setFn f x).platw = s.platw := rfl
@[simp] theorem setFn_migs (s : State) (f : Nat) (x : FnSt) : (s.setFn f x).migs = s.migs := rfl
@[simp] theorem setFn_transit (s : State) (f : Nat) (x : FnSt) : (s.setFn f x).transit = s.transit := rfl
@[simp] theorem setFn_busy (s : State) (f : Nat) (x : FnSt) : (s.setFn f x).busy = s.busy := rfl
@[simp] theorem setFn_trav (s : State) (f : Nat) (x : FnSt) : (s.setFn f x).trav = s.trav := rfl
@[simp] theorem setFn_net (s : State) (f : Nat) (x : FnSt) : (s.setFn f x).net = s.net := rfl
@[simp] theorem setFn_dtime (s : State) (f : Nat) (x : FnSt) : (s.setFn f x).dtime = s.dtime := rfl
@[simp] theorem setFn_cycle (s : State) (f : Nat) (x : FnSt) : (s.setFn f x).cycle = s.cycle := rfl
@[simp] theorem setFn_nextId (s : State) (f : Nat) (x : FnSt) : (s.setFn f x).nextId = s.nextId := rfl
@[simp] theorem setFn_freeCtr (s : State) (f : Nat) (x : FnSt) : (s.setFn f x).freeCtr = s.freeCtr := rfl
@[simp] theorem setFn_cur (s : State) (f : Nat) (x : FnSt) : (s.setFn f x).cur = s.cur := rfl
@[simp] theorem setFn_agenda (s : State) (f : Nat) (x : FnSt) : (s.setFn f x).agenda = s.agenda := rfl
@[simp] theorem setFn_rr (s : State) (f : Nat) (x : FnSt) : (s.setFn f x).rr = s.rr := rfl

@[simp] theorem msix_part (s : State) (f v : Nat) : (s.msix f v).part = s.part := rfl
@[simp] theorem msix_mem (s : State) (f v : Nat) : (s.msix f v).mem = s.mem := rfl
@[simp] theorem msix_bad (s : State) (f v : Nat) : (s.msix f v).bad = s.bad := rfl
@[simp] theorem msix_ctxs (s : State) (f v : Nat) : (s.msix f v).ctxs = s.ctxs := rfl
@[simp] theorem msix_cores (s : State) (f v : Nat) : (s.msix f v).cores = s.cores := rfl
@[simp] theorem msix_launches (s : State) (f v : Nat) : (s.msix f v).launches = s.launches := rfl
@[simp] theorem msix_queues (s : State) (f v : Nat) : (s.msix f v).queues = s.queues := rfl
@[simp] theorem msix_graphs (s : State) (f v : Nat) : (s.msix f v).graphs = s.graphs := rfl
@[simp] theorem msix_watches (s : State) (f v : Nat) : (s.msix f v).watches = s.watches := rfl
@[simp] theorem msix_platw (s : State) (f v : Nat) : (s.msix f v).platw = s.platw := rfl
@[simp] theorem msix_migs (s : State) (f v : Nat) : (s.msix f v).migs = s.migs := rfl
@[simp] theorem msix_transit (s : State) (f v : Nat) : (s.msix f v).transit = s.transit := rfl
@[simp] theorem msix_busy (s : State) (f v : Nat) : (s.msix f v).busy = s.busy := rfl
@[simp] theorem msix_trav (s : State) (f v : Nat) : (s.msix f v).trav = s.trav := rfl
@[simp] theorem msix_net (s : State) (f v : Nat) : (s.msix f v).net = s.net := rfl
@[simp] theorem msix_dtime (s : State) (f v : Nat) : (s.msix f v).dtime = s.dtime := rfl
@[simp] theorem msix_cycle (s : State) (f v : Nat) : (s.msix f v).cycle = s.cycle := rfl
@[simp] theorem msix_nextId (s : State) (f v : Nat) : (s.msix f v).nextId = s.nextId := rfl
@[simp] theorem msix_freeCtr (s : State) (f v : Nat) : (s.msix f v).freeCtr = s.freeCtr := rfl
@[simp] theorem msix_cur (s : State) (f v : Nat) : (s.msix f v).cur = s.cur := rfl
@[simp] theorem msix_agenda (s : State) (f v : Nat) : (s.msix f v).agenda = s.agenda := rfl
@[simp] theorem msix_rr (s : State) (f v : Nat) : (s.msix f v).rr = s.rr := rfl

@[simp] theorem setQueue_part (s : State) (q : Nat) (x : Queue) : (s.setQueue q x).part = s.part := rfl
@[simp] theorem setQueue_mem (s : State) (q : Nat) (x : Queue) : (s.setQueue q x).mem = s.mem := rfl
@[simp] theorem setQueue_bad (s : State) (q : Nat) (x : Queue) : (s.setQueue q x).bad = s.bad := rfl
@[simp] theorem setQueue_ctxs (s : State) (q : Nat) (x : Queue) : (s.setQueue q x).ctxs = s.ctxs := rfl
@[simp] theorem setQueue_cores (s : State) (q : Nat) (x : Queue) : (s.setQueue q x).cores = s.cores := rfl
@[simp] theorem setQueue_launches (s : State) (q : Nat) (x : Queue) : (s.setQueue q x).launches = s.launches := rfl
@[simp] theorem setQueue_graphs (s : State) (q : Nat) (x : Queue) : (s.setQueue q x).graphs = s.graphs := rfl
@[simp] theorem setQueue_watches (s : State) (q : Nat) (x : Queue) : (s.setQueue q x).watches = s.watches := rfl
@[simp] theorem setQueue_platw (s : State) (q : Nat) (x : Queue) : (s.setQueue q x).platw = s.platw := rfl
@[simp] theorem setQueue_migs (s : State) (q : Nat) (x : Queue) : (s.setQueue q x).migs = s.migs := rfl
@[simp] theorem setQueue_transit (s : State) (q : Nat) (x : Queue) : (s.setQueue q x).transit = s.transit := rfl
@[simp] theorem setQueue_busy (s : State) (q : Nat) (x : Queue) : (s.setQueue q x).busy = s.busy := rfl
@[simp] theorem setQueue_trav (s : State) (q : Nat) (x : Queue) : (s.setQueue q x).trav = s.trav := rfl
@[simp] theorem setQueue_regs (s : State) (q : Nat) (x : Queue) : (s.setQueue q x).regs = s.regs := rfl
@[simp] theorem setQueue_net (s : State) (q : Nat) (x : Queue) : (s.setQueue q x).net = s.net := rfl
@[simp] theorem setQueue_dtime (s : State) (q : Nat) (x : Queue) : (s.setQueue q x).dtime = s.dtime := rfl
@[simp] theorem setQueue_cycle (s : State) (q : Nat) (x : Queue) : (s.setQueue q x).cycle = s.cycle := rfl
@[simp] theorem setQueue_nextId (s : State) (q : Nat) (x : Queue) : (s.setQueue q x).nextId = s.nextId := rfl
@[simp] theorem setQueue_freeCtr (s : State) (q : Nat) (x : Queue) : (s.setQueue q x).freeCtr = s.freeCtr := rfl
@[simp] theorem setQueue_cur (s : State) (q : Nat) (x : Queue) : (s.setQueue q x).cur = s.cur := rfl
@[simp] theorem setQueue_agenda (s : State) (q : Nat) (x : Queue) : (s.setQueue q x).agenda = s.agenda := rfl
@[simp] theorem setQueue_rr (s : State) (q : Nat) (x : Queue) : (s.setQueue q x).rr = s.rr := rfl

@[simp] theorem setLinkAt_part (s : State) (k : Nat) (x : Link) : (s.setLinkAt k x).part = s.part := rfl
@[simp] theorem setLinkAt_mem (s : State) (k : Nat) (x : Link) : (s.setLinkAt k x).mem = s.mem := rfl
@[simp] theorem setLinkAt_bad (s : State) (k : Nat) (x : Link) : (s.setLinkAt k x).bad = s.bad := rfl
@[simp] theorem setLinkAt_ctxs (s : State) (k : Nat) (x : Link) : (s.setLinkAt k x).ctxs = s.ctxs := rfl
@[simp] theorem setLinkAt_cores (s : State) (k : Nat) (x : Link) : (s.setLinkAt k x).cores = s.cores := rfl
@[simp] theorem setLinkAt_launches (s : State) (k : Nat) (x : Link) : (s.setLinkAt k x).launches = s.launches := rfl
@[simp] theorem setLinkAt_queues (s : State) (k : Nat) (x : Link) : (s.setLinkAt k x).queues = s.queues := rfl
@[simp] theorem setLinkAt_graphs (s : State) (k : Nat) (x : Link) : (s.setLinkAt k x).graphs = s.graphs := rfl
@[simp] theorem setLinkAt_watches (s : State) (k : Nat) (x : Link) : (s.setLinkAt k x).watches = s.watches := rfl
@[simp] theorem setLinkAt_platw (s : State) (k : Nat) (x : Link) : (s.setLinkAt k x).platw = s.platw := rfl
@[simp] theorem setLinkAt_migs (s : State) (k : Nat) (x : Link) : (s.setLinkAt k x).migs = s.migs := rfl
@[simp] theorem setLinkAt_transit (s : State) (k : Nat) (x : Link) : (s.setLinkAt k x).transit = s.transit := rfl
@[simp] theorem setLinkAt_busy (s : State) (k : Nat) (x : Link) : (s.setLinkAt k x).busy = s.busy := rfl
@[simp] theorem setLinkAt_trav (s : State) (k : Nat) (x : Link) : (s.setLinkAt k x).trav = s.trav := rfl
@[simp] theorem setLinkAt_regs (s : State) (k : Nat) (x : Link) : (s.setLinkAt k x).regs = s.regs := rfl
@[simp] theorem setLinkAt_dtime (s : State) (k : Nat) (x : Link) : (s.setLinkAt k x).dtime = s.dtime := rfl
@[simp] theorem setLinkAt_cycle (s : State) (k : Nat) (x : Link) : (s.setLinkAt k x).cycle = s.cycle := rfl
@[simp] theorem setLinkAt_nextId (s : State) (k : Nat) (x : Link) : (s.setLinkAt k x).nextId = s.nextId := rfl
@[simp] theorem setLinkAt_freeCtr (s : State) (k : Nat) (x : Link) : (s.setLinkAt k x).freeCtr = s.freeCtr := rfl
@[simp] theorem setLinkAt_cur (s : State) (k : Nat) (x : Link) : (s.setLinkAt k x).cur = s.cur := rfl
@[simp] theorem setLinkAt_agenda (s : State) (k : Nat) (x : Link) : (s.setLinkAt k x).agenda = s.agenda := rfl
@[simp] theorem setLinkAt_rr (s : State) (k : Nat) (x : Link) : (s.setLinkAt k x).rr = s.rr := rfl

@[simp] theorem setTx_part (s : State) (t : TxTriple) : (s.setTx t).part = s.part := rfl
@[simp] theorem setTx_mem (s : State) (t : TxTriple) : (s.setTx t).mem = s.mem := rfl
@[simp] theorem setTx_bad (s : State) (t : TxTriple) : (s.setTx t).bad = s.bad := rfl
@[simp] theorem setTx_ctxs (s : State) (t : TxTriple) : (s.setTx t).ctxs = s.ctxs := rfl
@[simp] theorem setTx_cores (s : State) (t : TxTriple) : (s.setTx t).cores = s.cores := rfl
@[simp] theorem setTx_launches (s : State) (t : TxTriple) : (s.setTx t).launches = s.launches := rfl
@[simp] theorem setTx_queues (s : State) (t : TxTriple) : (s.setTx t).queues = s.queues := rfl
@[simp] theorem setTx_graphs (s : State) (t : TxTriple) : (s.setTx t).graphs = s.graphs := rfl
@[simp] theorem setTx_watches (s : State) (t : TxTriple) : (s.setTx t).watches = s.watches := rfl
@[simp] theorem setTx_platw (s : State) (t : TxTriple) : (s.setTx t).platw = s.platw := rfl
@[simp] theorem setTx_migs (s : State) (t : TxTriple) : (s.setTx t).migs = s.migs := rfl
@[simp] theorem setTx_transit (s : State) (t : TxTriple) : (s.setTx t).transit = s.transit := rfl
@[simp] theorem setTx_busy (s : State) (t : TxTriple) : (s.setTx t).busy = s.busy := rfl
@[simp] theorem setTx_trav (s : State) (t : TxTriple) : (s.setTx t).trav = s.trav := rfl
@[simp] theorem setTx_regs (s : State) (t : TxTriple) : (s.setTx t).regs = s.regs := rfl
@[simp] theorem setTx_dtime (s : State) (t : TxTriple) : (s.setTx t).dtime = s.dtime := rfl
@[simp] theorem setTx_cycle (s : State) (t : TxTriple) : (s.setTx t).cycle = s.cycle := rfl
@[simp] theorem setTx_nextId (s : State) (t : TxTriple) : (s.setTx t).nextId = s.nextId := rfl
@[simp] theorem setTx_freeCtr (s : State) (t : TxTriple) : (s.setTx t).freeCtr = s.freeCtr := rfl
@[simp] theorem setTx_cur (s : State) (t : TxTriple) : (s.setTx t).cur = s.cur := rfl
@[simp] theorem setTx_agenda (s : State) (t : TxTriple) : (s.setTx t).agenda = s.agenda := rfl
@[simp] theorem setTx_rr (s : State) (t : TxTriple) : (s.setTx t).rr = s.rr := rfl

@[simp] theorem setRx_part (s : State) (t : RxTriple) : (s.setRx t).part = s.part := rfl
@[simp] theorem setRx_mem (s : State) (t : RxTriple) : (s.setRx t).mem = s.mem := rfl
@[simp] theorem setRx_bad (s : State) (t : RxTriple) : (s.setRx t).bad = s.bad := rfl
@[simp] theorem setRx_ctxs (s : State) (t : RxTriple) : (s.setRx t).ctxs = s.ctxs := rfl
@[simp] theorem setRx_cores (s : State) (t : RxTriple) : (s.setRx t).cores = s.cores := rfl
@[simp] theorem setRx_launches (s : State) (t : RxTriple) : (s.setRx t).launches = s.launches := rfl
@[simp] theorem setRx_queues (s : State) (t : RxTriple) : (s.setRx t).queues = s.queues := rfl
@[simp] theorem setRx_graphs (s : State) (t : RxTriple) : (s.setRx t).graphs = s.graphs := rfl
@[simp] theorem setRx_watches (s : State) (t : RxTriple) : (s.setRx t).watches = s.watches := rfl
@[simp] theorem setRx_platw (s : State) (t : RxTriple) : (s.setRx t).platw = s.platw := rfl
@[simp] theorem setRx_migs (s : State) (t : RxTriple) : (s.setRx t).migs = s.migs := rfl
@[simp] theorem setRx_transit (s : State) (t : RxTriple) : (s.setRx t).transit = s.transit := rfl
@[simp] theorem setRx_busy (s : State) (t : RxTriple) : (s.setRx t).busy = s.busy := rfl
@[simp] theorem setRx_trav (s : State) (t : RxTriple) : (s.setRx t).trav = s.trav := rfl
@[simp] theorem setRx_regs (s : State) (t : RxTriple) : (s.setRx t).regs = s.regs := rfl
@[simp] theorem setRx_dtime (s : State) (t : RxTriple) : (s.setRx t).dtime = s.dtime := rfl
@[simp] theorem setRx_cycle (s : State) (t : RxTriple) : (s.setRx t).cycle = s.cycle := rfl
@[simp] theorem setRx_nextId (s : State) (t : RxTriple) : (s.setRx t).nextId = s.nextId := rfl
@[simp] theorem setRx_freeCtr (s : State) (t : RxTriple) : (s.setRx t).freeCtr = s.freeCtr := rfl
@[simp] theorem setRx_cur (s : State) (t : RxTriple) : (s.setRx t).cur = s.cur := rfl
@[simp] theorem setRx_agenda (s : State) (t : RxTriple) : (s.setRx t).agenda = s.agenda := rfl
@[simp] theorem setRx_rr (s : State) (t : RxTriple) : (s.setRx t).rr = s.rr := rfl

@[simp] theorem setClock_part (s : State) (c : Clock) : (s.setClock c).part = s.part := rfl
@[simp] theorem setClock_mem (s : State) (c : Clock) : (s.setClock c).mem = s.mem := rfl
@[simp] theorem setClock_bad (s : State) (c : Clock) : (s.setClock c).bad = s.bad := rfl
@[simp] theorem setClock_ctxs (s : State) (c : Clock) : (s.setClock c).ctxs = s.ctxs := rfl
@[simp] theorem setClock_cores (s : State) (c : Clock) : (s.setClock c).cores = s.cores := rfl
@[simp] theorem setClock_launches (s : State) (c : Clock) : (s.setClock c).launches = s.launches := rfl
@[simp] theorem setClock_queues (s : State) (c : Clock) : (s.setClock c).queues = s.queues := rfl
@[simp] theorem setClock_graphs (s : State) (c : Clock) : (s.setClock c).graphs = s.graphs := rfl
@[simp] theorem setClock_watches (s : State) (c : Clock) : (s.setClock c).watches = s.watches := rfl
@[simp] theorem setClock_platw (s : State) (c : Clock) : (s.setClock c).platw = s.platw := rfl
@[simp] theorem setClock_migs (s : State) (c : Clock) : (s.setClock c).migs = s.migs := rfl
@[simp] theorem setClock_transit (s : State) (c : Clock) : (s.setClock c).transit = s.transit := rfl
@[simp] theorem setClock_busy (s : State) (c : Clock) : (s.setClock c).busy = s.busy := rfl
@[simp] theorem setClock_trav (s : State) (c : Clock) : (s.setClock c).trav = s.trav := rfl
@[simp] theorem setClock_regs (s : State) (c : Clock) : (s.setClock c).regs = s.regs := rfl
@[simp] theorem setClock_dtime (s : State) (c : Clock) : (s.setClock c).dtime = s.dtime := rfl
@[simp] theorem setClock_cycle (s : State) (c : Clock) : (s.setClock c).cycle = s.cycle := rfl
@[simp] theorem setClock_nextId (s : State) (c : Clock) : (s.setClock c).nextId = s.nextId := rfl
@[simp] theorem setClock_freeCtr (s : State) (c : Clock) : (s.setClock c).freeCtr = s.freeCtr := rfl
@[simp] theorem setClock_cur (s : State) (c : Clock) : (s.setClock c).cur = s.cur := rfl
@[simp] theorem setClock_agenda (s : State) (c : Clock) : (s.setClock c).agenda = s.agenda := rfl
@[simp] theorem setClock_rr (s : State) (c : Clock) : (s.setClock c).rr = s.rr := rfl

@[simp] theorem setErg_part (s : State) (c : Nat) (e : Erg) : (s.setErg c e).part = s.part := rfl
@[simp] theorem setErg_mem (s : State) (c : Nat) (e : Erg) : (s.setErg c e).mem = s.mem := rfl
@[simp] theorem setErg_bad (s : State) (c : Nat) (e : Erg) : (s.setErg c e).bad = s.bad := rfl
@[simp] theorem setErg_ctxs (s : State) (c : Nat) (e : Erg) : (s.setErg c e).ctxs = s.ctxs := rfl
@[simp] theorem setErg_cores (s : State) (c : Nat) (e : Erg) : (s.setErg c e).cores = s.cores := rfl
@[simp] theorem setErg_launches (s : State) (c : Nat) (e : Erg) : (s.setErg c e).launches = s.launches := rfl
@[simp] theorem setErg_queues (s : State) (c : Nat) (e : Erg) : (s.setErg c e).queues = s.queues := rfl
@[simp] theorem setErg_graphs (s : State) (c : Nat) (e : Erg) : (s.setErg c e).graphs = s.graphs := rfl
@[simp] theorem setErg_watches (s : State) (c : Nat) (e : Erg) : (s.setErg c e).watches = s.watches := rfl
@[simp] theorem setErg_platw (s : State) (c : Nat) (e : Erg) : (s.setErg c e).platw = s.platw := rfl
@[simp] theorem setErg_migs (s : State) (c : Nat) (e : Erg) : (s.setErg c e).migs = s.migs := rfl
@[simp] theorem setErg_transit (s : State) (c : Nat) (e : Erg) : (s.setErg c e).transit = s.transit := rfl
@[simp] theorem setErg_busy (s : State) (c : Nat) (e : Erg) : (s.setErg c e).busy = s.busy := rfl
@[simp] theorem setErg_trav (s : State) (c : Nat) (e : Erg) : (s.setErg c e).trav = s.trav := rfl
@[simp] theorem setErg_regs (s : State) (c : Nat) (e : Erg) : (s.setErg c e).regs = s.regs := rfl
@[simp] theorem setErg_dtime (s : State) (c : Nat) (e : Erg) : (s.setErg c e).dtime = s.dtime := rfl
@[simp] theorem setErg_cycle (s : State) (c : Nat) (e : Erg) : (s.setErg c e).cycle = s.cycle := rfl
@[simp] theorem setErg_nextId (s : State) (c : Nat) (e : Erg) : (s.setErg c e).nextId = s.nextId := rfl
@[simp] theorem setErg_freeCtr (s : State) (c : Nat) (e : Erg) : (s.setErg c e).freeCtr = s.freeCtr := rfl
@[simp] theorem setErg_cur (s : State) (c : Nat) (e : Erg) : (s.setErg c e).cur = s.cur := rfl
@[simp] theorem setErg_agenda (s : State) (c : Nat) (e : Erg) : (s.setErg c e).agenda = s.agenda := rfl
@[simp] theorem setErg_rr (s : State) (c : Nat) (e : Erg) : (s.setErg c e).rr = s.rr := rfl

@[simp] theorem queueAt_part (s : State) (k : Nat) (p : Packet) (v : Fin 4) : (s.queueAt k p v).part = s.part := rfl
@[simp] theorem queueAt_mem (s : State) (k : Nat) (p : Packet) (v : Fin 4) : (s.queueAt k p v).mem = s.mem := rfl
@[simp] theorem queueAt_bad (s : State) (k : Nat) (p : Packet) (v : Fin 4) : (s.queueAt k p v).bad = s.bad := rfl
@[simp] theorem queueAt_ctxs (s : State) (k : Nat) (p : Packet) (v : Fin 4) : (s.queueAt k p v).ctxs = s.ctxs := rfl
@[simp] theorem queueAt_cores (s : State) (k : Nat) (p : Packet) (v : Fin 4) : (s.queueAt k p v).cores = s.cores := rfl
@[simp] theorem queueAt_launches (s : State) (k : Nat) (p : Packet) (v : Fin 4) : (s.queueAt k p v).launches = s.launches := rfl
@[simp] theorem queueAt_queues (s : State) (k : Nat) (p : Packet) (v : Fin 4) : (s.queueAt k p v).queues = s.queues := rfl
@[simp] theorem queueAt_graphs (s : State) (k : Nat) (p : Packet) (v : Fin 4) : (s.queueAt k p v).graphs = s.graphs := rfl
@[simp] theorem queueAt_watches (s : State) (k : Nat) (p : Packet) (v : Fin 4) : (s.queueAt k p v).watches = s.watches := rfl
@[simp] theorem queueAt_platw (s : State) (k : Nat) (p : Packet) (v : Fin 4) : (s.queueAt k p v).platw = s.platw := rfl
@[simp] theorem queueAt_migs (s : State) (k : Nat) (p : Packet) (v : Fin 4) : (s.queueAt k p v).migs = s.migs := rfl
@[simp] theorem queueAt_transit (s : State) (k : Nat) (p : Packet) (v : Fin 4) : (s.queueAt k p v).transit = s.transit := rfl
@[simp] theorem queueAt_busy (s : State) (k : Nat) (p : Packet) (v : Fin 4) : (s.queueAt k p v).busy = s.busy := rfl
@[simp] theorem queueAt_trav (s : State) (k : Nat) (p : Packet) (v : Fin 4) : (s.queueAt k p v).trav = s.trav := rfl
@[simp] theorem queueAt_regs (s : State) (k : Nat) (p : Packet) (v : Fin 4) : (s.queueAt k p v).regs = s.regs := rfl
@[simp] theorem queueAt_dtime (s : State) (k : Nat) (p : Packet) (v : Fin 4) : (s.queueAt k p v).dtime = s.dtime := rfl
@[simp] theorem queueAt_cycle (s : State) (k : Nat) (p : Packet) (v : Fin 4) : (s.queueAt k p v).cycle = s.cycle := rfl
@[simp] theorem queueAt_nextId (s : State) (k : Nat) (p : Packet) (v : Fin 4) : (s.queueAt k p v).nextId = s.nextId := rfl
@[simp] theorem queueAt_freeCtr (s : State) (k : Nat) (p : Packet) (v : Fin 4) : (s.queueAt k p v).freeCtr = s.freeCtr := rfl
@[simp] theorem queueAt_cur (s : State) (k : Nat) (p : Packet) (v : Fin 4) : (s.queueAt k p v).cur = s.cur := rfl
@[simp] theorem queueAt_agenda (s : State) (k : Nat) (p : Packet) (v : Fin 4) : (s.queueAt k p v).agenda = s.agenda := rfl
@[simp] theorem queueAt_rr (s : State) (k : Nat) (p : Packet) (v : Fin 4) : (s.queueAt k p v).rr = s.rr := rfl

@[simp] theorem dropInc_part (s : State) (id : Nat) : (s.dropInc id).part = s.part := rfl
@[simp] theorem dropInc_mem (s : State) (id : Nat) : (s.dropInc id).mem = s.mem := rfl
@[simp] theorem dropInc_bad (s : State) (id : Nat) : (s.dropInc id).bad = s.bad := rfl
@[simp] theorem dropInc_ctxs (s : State) (id : Nat) : (s.dropInc id).ctxs = s.ctxs := rfl
@[simp] theorem dropInc_cores (s : State) (id : Nat) : (s.dropInc id).cores = s.cores := rfl
@[simp] theorem dropInc_launches (s : State) (id : Nat) : (s.dropInc id).launches = s.launches := rfl
@[simp] theorem dropInc_queues (s : State) (id : Nat) : (s.dropInc id).queues = s.queues := rfl
@[simp] theorem dropInc_graphs (s : State) (id : Nat) : (s.dropInc id).graphs = s.graphs := rfl
@[simp] theorem dropInc_watches (s : State) (id : Nat) : (s.dropInc id).watches = s.watches := rfl
@[simp] theorem dropInc_platw (s : State) (id : Nat) : (s.dropInc id).platw = s.platw := rfl
@[simp] theorem dropInc_migs (s : State) (id : Nat) : (s.dropInc id).migs = s.migs := rfl
@[simp] theorem dropInc_transit (s : State) (id : Nat) : (s.dropInc id).transit = s.transit := rfl
@[simp] theorem dropInc_busy (s : State) (id : Nat) : (s.dropInc id).busy = s.busy := rfl
@[simp] theorem dropInc_trav (s : State) (id : Nat) : (s.dropInc id).trav = s.trav := rfl
@[simp] theorem dropInc_regs (s : State) (id : Nat) : (s.dropInc id).regs = s.regs := rfl
@[simp] theorem dropInc_dtime (s : State) (id : Nat) : (s.dropInc id).dtime = s.dtime := rfl
@[simp] theorem dropInc_cycle (s : State) (id : Nat) : (s.dropInc id).cycle = s.cycle := rfl
@[simp] theorem dropInc_nextId (s : State) (id : Nat) : (s.dropInc id).nextId = s.nextId := rfl
@[simp] theorem dropInc_freeCtr (s : State) (id : Nat) : (s.dropInc id).freeCtr = s.freeCtr := rfl
@[simp] theorem dropInc_cur (s : State) (id : Nat) : (s.dropInc id).cur = s.cur := rfl
@[simp] theorem dropInc_agenda (s : State) (id : Nat) : (s.dropInc id).agenda = s.agenda := rfl
@[simp] theorem dropInc_rr (s : State) (id : Nat) : (s.dropInc id).rr = s.rr := rfl

@[simp] theorem setLtr_part (s : State) (d : Nat) (x : Ltr) : (s.setLtr d x).part = s.part := rfl
@[simp] theorem setLtr_mem (s : State) (d : Nat) (x : Ltr) : (s.setLtr d x).mem = s.mem := rfl
@[simp] theorem setLtr_bad (s : State) (d : Nat) (x : Ltr) : (s.setLtr d x).bad = s.bad := rfl
@[simp] theorem setLtr_ctxs (s : State) (d : Nat) (x : Ltr) : (s.setLtr d x).ctxs = s.ctxs := rfl
@[simp] theorem setLtr_cores (s : State) (d : Nat) (x : Ltr) : (s.setLtr d x).cores = s.cores := rfl
@[simp] theorem setLtr_launches (s : State) (d : Nat) (x : Ltr) : (s.setLtr d x).launches = s.launches := rfl
@[simp] theorem setLtr_queues (s : State) (d : Nat) (x : Ltr) : (s.setLtr d x).queues = s.queues := rfl
@[simp] theorem setLtr_graphs (s : State) (d : Nat) (x : Ltr) : (s.setLtr d x).graphs = s.graphs := rfl
@[simp] theorem setLtr_watches (s : State) (d : Nat) (x : Ltr) : (s.setLtr d x).watches = s.watches := rfl
@[simp] theorem setLtr_platw (s : State) (d : Nat) (x : Ltr) : (s.setLtr d x).platw = s.platw := rfl
@[simp] theorem setLtr_migs (s : State) (d : Nat) (x : Ltr) : (s.setLtr d x).migs = s.migs := rfl
@[simp] theorem setLtr_transit (s : State) (d : Nat) (x : Ltr) : (s.setLtr d x).transit = s.transit := rfl
@[simp] theorem setLtr_busy (s : State) (d : Nat) (x : Ltr) : (s.setLtr d x).busy = s.busy := rfl
@[simp] theorem setLtr_trav (s : State) (d : Nat) (x : Ltr) : (s.setLtr d x).trav = s.trav := rfl
@[simp] theorem setLtr_net (s : State) (d : Nat) (x : Ltr) : (s.setLtr d x).net = s.net := rfl
@[simp] theorem setLtr_dtime (s : State) (d : Nat) (x : Ltr) : (s.setLtr d x).dtime = s.dtime := rfl
@[simp] theorem setLtr_cycle (s : State) (d : Nat) (x : Ltr) : (s.setLtr d x).cycle = s.cycle := rfl
@[simp] theorem setLtr_nextId (s : State) (d : Nat) (x : Ltr) : (s.setLtr d x).nextId = s.nextId := rfl
@[simp] theorem setLtr_freeCtr (s : State) (d : Nat) (x : Ltr) : (s.setLtr d x).freeCtr = s.freeCtr := rfl
@[simp] theorem setLtr_cur (s : State) (d : Nat) (x : Ltr) : (s.setLtr d x).cur = s.cur := rfl
@[simp] theorem setLtr_agenda (s : State) (d : Nat) (x : Ltr) : (s.setLtr d x).agenda = s.agenda := rfl
@[simp] theorem setLtr_rr (s : State) (d : Nat) (x : Ltr) : (s.setLtr d x).rr = s.rr := rfl

@[simp] theorem setPlumb_part (s : State) (p : Plumb) : (s.setPlumb p).part = s.part := rfl
@[simp] theorem setPlumb_mem (s : State) (p : Plumb) : (s.setPlumb p).mem = s.mem := rfl
@[simp] theorem setPlumb_bad (s : State) (p : Plumb) : (s.setPlumb p).bad = s.bad := rfl
@[simp] theorem setPlumb_ctxs (s : State) (p : Plumb) : (s.setPlumb p).ctxs = s.ctxs := rfl
@[simp] theorem setPlumb_cores (s : State) (p : Plumb) : (s.setPlumb p).cores = s.cores := rfl
@[simp] theorem setPlumb_launches (s : State) (p : Plumb) : (s.setPlumb p).launches = s.launches := rfl
@[simp] theorem setPlumb_queues (s : State) (p : Plumb) : (s.setPlumb p).queues = s.queues := rfl
@[simp] theorem setPlumb_graphs (s : State) (p : Plumb) : (s.setPlumb p).graphs = s.graphs := rfl
@[simp] theorem setPlumb_watches (s : State) (p : Plumb) : (s.setPlumb p).watches = s.watches := rfl
@[simp] theorem setPlumb_platw (s : State) (p : Plumb) : (s.setPlumb p).platw = s.platw := rfl
@[simp] theorem setPlumb_migs (s : State) (p : Plumb) : (s.setPlumb p).migs = s.migs := rfl
@[simp] theorem setPlumb_transit (s : State) (p : Plumb) : (s.setPlumb p).transit = s.transit := rfl
@[simp] theorem setPlumb_busy (s : State) (p : Plumb) : (s.setPlumb p).busy = s.busy := rfl
@[simp] theorem setPlumb_trav (s : State) (p : Plumb) : (s.setPlumb p).trav = s.trav := rfl
@[simp] theorem setPlumb_net (s : State) (p : Plumb) : (s.setPlumb p).net = s.net := rfl
@[simp] theorem setPlumb_dtime (s : State) (p : Plumb) : (s.setPlumb p).dtime = s.dtime := rfl
@[simp] theorem setPlumb_cycle (s : State) (p : Plumb) : (s.setPlumb p).cycle = s.cycle := rfl
@[simp] theorem setPlumb_nextId (s : State) (p : Plumb) : (s.setPlumb p).nextId = s.nextId := rfl
@[simp] theorem setPlumb_freeCtr (s : State) (p : Plumb) : (s.setPlumb p).freeCtr = s.freeCtr := rfl
@[simp] theorem setPlumb_cur (s : State) (p : Plumb) : (s.setPlumb p).cur = s.cur := rfl
@[simp] theorem setPlumb_agenda (s : State) (p : Plumb) : (s.setPlumb p).agenda = s.agenda := rfl
@[simp] theorem setPlumb_rr (s : State) (p : Plumb) : (s.setPlumb p).rr = s.rr := rfl

/-! ## Updates of a bank -/

@[simp] theorem Bank.setEng_st (b : Bank) (e : Engine) (x : EngSt) : (b.setEng e x).st = b.st := rfl
@[simp] theorem Bank.setEng_launch (b : Bank) (e : Engine) (x : EngSt) : (b.setEng e x).launch = b.launch := rfl
@[simp] theorem Bank.setEng_ctx (b : Bank) (e : Engine) (x : EngSt) : (b.setEng e x).ctx = b.ctx := rfl
@[simp] theorem Bank.setEng_hdr (b : Bank) (e : Engine) (x : EngSt) : (b.setEng e x).hdr = b.hdr := rfl
@[simp] theorem Bank.setEng_text (b : Bank) (e : Engine) (x : EngSt) : (b.setEng e x).text = b.text := rfl
@[simp] theorem Bank.setEng_queues (b : Bank) (e : Engine) (x : EngSt) : (b.setEng e x).queues = b.queues := rfl
@[simp] theorem Bank.setEng_seq (b : Bank) (e : Engine) (x : EngSt) : (b.setEng e x).seq = b.seq := rfl
@[simp] theorem Bank.setEng_acc (b : Bank) (e : Engine) (x : EngSt) : (b.setEng e x).acc = b.acc := rfl
@[simp] theorem Bank.setEng_mx (b : Bank) (e : Engine) (x : EngSt) : (b.setEng e x).mx = b.mx := rfl
@[simp] theorem Bank.setEng_vec (b : Bank) (e : Engine) (x : EngSt) : (b.setEng e x).vec = b.vec := rfl
@[simp] theorem Bank.setEng_tx (b : Bank) (e : Engine) (x : EngSt) : (b.setEng e x).tx = b.tx := rfl
@[simp] theorem Bank.setEng_fab (b : Bank) (e : Engine) (x : EngSt) : (b.setEng e x).fab = b.fab := rfl
@[simp] theorem Bank.setEng_car (b : Bank) (e : Engine) (x : EngSt) : (b.setEng e x).car = b.car := rfl
@[simp] theorem Bank.setEng_flt (b : Bank) (e : Engine) (x : EngSt) : (b.setEng e x).flt = b.flt := rfl
@[simp] theorem Bank.setEng_evict (b : Bank) (e : Engine) (x : EngSt) : (b.setEng e x).evict = b.evict := rfl

@[simp] theorem Bank.setSreg_st (b : Bank) (n : SReg) (v : Reg64) : (b.setSreg n v).st = b.st := by unfold Bank.setSreg; split <;> rfl
@[simp] theorem Bank.setSreg_launch (b : Bank) (n : SReg) (v : Reg64) : (b.setSreg n v).launch = b.launch := by unfold Bank.setSreg; split <;> rfl
@[simp] theorem Bank.setSreg_ctx (b : Bank) (n : SReg) (v : Reg64) : (b.setSreg n v).ctx = b.ctx := by unfold Bank.setSreg; split <;> rfl
@[simp] theorem Bank.setSreg_hdr (b : Bank) (n : SReg) (v : Reg64) : (b.setSreg n v).hdr = b.hdr := by unfold Bank.setSreg; split <;> rfl
@[simp] theorem Bank.setSreg_text (b : Bank) (n : SReg) (v : Reg64) : (b.setSreg n v).text = b.text := by unfold Bank.setSreg; split <;> rfl
@[simp] theorem Bank.setSreg_engs (b : Bank) (n : SReg) (v : Reg64) : (b.setSreg n v).engs = b.engs := by unfold Bank.setSreg; split <;> rfl
@[simp] theorem Bank.setSreg_queues (b : Bank) (n : SReg) (v : Reg64) : (b.setSreg n v).queues = b.queues := by unfold Bank.setSreg; split <;> rfl
@[simp] theorem Bank.setSreg_acc (b : Bank) (n : SReg) (v : Reg64) : (b.setSreg n v).acc = b.acc := by unfold Bank.setSreg; split <;> rfl
@[simp] theorem Bank.setSreg_mx (b : Bank) (n : SReg) (v : Reg64) : (b.setSreg n v).mx = b.mx := by unfold Bank.setSreg; split <;> rfl
@[simp] theorem Bank.setSreg_vec (b : Bank) (n : SReg) (v : Reg64) : (b.setSreg n v).vec = b.vec := by unfold Bank.setSreg; split <;> rfl
@[simp] theorem Bank.setSreg_tx (b : Bank) (n : SReg) (v : Reg64) : (b.setSreg n v).tx = b.tx := by unfold Bank.setSreg; split <;> rfl
@[simp] theorem Bank.setSreg_fab (b : Bank) (n : SReg) (v : Reg64) : (b.setSreg n v).fab = b.fab := by unfold Bank.setSreg; split <;> rfl
@[simp] theorem Bank.setSreg_car (b : Bank) (n : SReg) (v : Reg64) : (b.setSreg n v).car = b.car := by unfold Bank.setSreg; split <;> rfl
@[simp] theorem Bank.setSreg_flt (b : Bank) (n : SReg) (v : Reg64) : (b.setSreg n v).flt = b.flt := by unfold Bank.setSreg; split <;> rfl
@[simp] theorem Bank.setSreg_evict (b : Bank) (n : SReg) (v : Reg64) : (b.setSreg n v).evict = b.evict := by unfold Bank.setSreg; split <;> rfl

@[simp] theorem Bank.setAreg_st (b : Bank) (r : AReg) (v : Reg64) : (b.setAreg r v).st = b.st := rfl
@[simp] theorem Bank.setAreg_launch (b : Bank) (r : AReg) (v : Reg64) : (b.setAreg r v).launch = b.launch := rfl
@[simp] theorem Bank.setAreg_ctx (b : Bank) (r : AReg) (v : Reg64) : (b.setAreg r v).ctx = b.ctx := rfl
@[simp] theorem Bank.setAreg_hdr (b : Bank) (r : AReg) (v : Reg64) : (b.setAreg r v).hdr = b.hdr := rfl
@[simp] theorem Bank.setAreg_text (b : Bank) (r : AReg) (v : Reg64) : (b.setAreg r v).text = b.text := rfl
@[simp] theorem Bank.setAreg_engs (b : Bank) (r : AReg) (v : Reg64) : (b.setAreg r v).engs = b.engs := rfl
@[simp] theorem Bank.setAreg_queues (b : Bank) (r : AReg) (v : Reg64) : (b.setAreg r v).queues = b.queues := rfl
@[simp] theorem Bank.setAreg_seq (b : Bank) (r : AReg) (v : Reg64) : (b.setAreg r v).seq = b.seq := rfl
@[simp] theorem Bank.setAreg_mx (b : Bank) (r : AReg) (v : Reg64) : (b.setAreg r v).mx = b.mx := rfl
@[simp] theorem Bank.setAreg_vec (b : Bank) (r : AReg) (v : Reg64) : (b.setAreg r v).vec = b.vec := rfl
@[simp] theorem Bank.setAreg_tx (b : Bank) (r : AReg) (v : Reg64) : (b.setAreg r v).tx = b.tx := rfl
@[simp] theorem Bank.setAreg_fab (b : Bank) (r : AReg) (v : Reg64) : (b.setAreg r v).fab = b.fab := rfl
@[simp] theorem Bank.setAreg_car (b : Bank) (r : AReg) (v : Reg64) : (b.setAreg r v).car = b.car := rfl
@[simp] theorem Bank.setAreg_flt (b : Bank) (r : AReg) (v : Reg64) : (b.setAreg r v).flt = b.flt := rfl
@[simp] theorem Bank.setAreg_evict (b : Bank) (r : AReg) (v : Reg64) : (b.setAreg r v).evict = b.evict := rfl

@[simp] theorem Bank.reserve_st (b : Bank) (q : QName) (w : Nat) (v : Reg64) : (b.reserve q w v).st = b.st := rfl
@[simp] theorem Bank.reserve_launch (b : Bank) (q : QName) (w : Nat) (v : Reg64) : (b.reserve q w v).launch = b.launch := rfl
@[simp] theorem Bank.reserve_ctx (b : Bank) (q : QName) (w : Nat) (v : Reg64) : (b.reserve q w v).ctx = b.ctx := rfl
@[simp] theorem Bank.reserve_hdr (b : Bank) (q : QName) (w : Nat) (v : Reg64) : (b.reserve q w v).hdr = b.hdr := rfl
@[simp] theorem Bank.reserve_text (b : Bank) (q : QName) (w : Nat) (v : Reg64) : (b.reserve q w v).text = b.text := rfl
@[simp] theorem Bank.reserve_engs (b : Bank) (q : QName) (w : Nat) (v : Reg64) : (b.reserve q w v).engs = b.engs := rfl
@[simp] theorem Bank.reserve_seq (b : Bank) (q : QName) (w : Nat) (v : Reg64) : (b.reserve q w v).seq = b.seq := rfl
@[simp] theorem Bank.reserve_acc (b : Bank) (q : QName) (w : Nat) (v : Reg64) : (b.reserve q w v).acc = b.acc := rfl
@[simp] theorem Bank.reserve_mx (b : Bank) (q : QName) (w : Nat) (v : Reg64) : (b.reserve q w v).mx = b.mx := rfl
@[simp] theorem Bank.reserve_vec (b : Bank) (q : QName) (w : Nat) (v : Reg64) : (b.reserve q w v).vec = b.vec := rfl
@[simp] theorem Bank.reserve_tx (b : Bank) (q : QName) (w : Nat) (v : Reg64) : (b.reserve q w v).tx = b.tx := rfl
@[simp] theorem Bank.reserve_fab (b : Bank) (q : QName) (w : Nat) (v : Reg64) : (b.reserve q w v).fab = b.fab := rfl
@[simp] theorem Bank.reserve_car (b : Bank) (q : QName) (w : Nat) (v : Reg64) : (b.reserve q w v).car = b.car := rfl
@[simp] theorem Bank.reserve_flt (b : Bank) (q : QName) (w : Nat) (v : Reg64) : (b.reserve q w v).flt = b.flt := rfl
@[simp] theorem Bank.reserve_evict (b : Bank) (q : QName) (w : Nat) (v : Reg64) : (b.reserve q w v).evict = b.evict := rfl

@[simp] theorem Bank.drop_st (b : Bank) (q : QName) : (b.drop q).st = b.st := rfl
@[simp] theorem Bank.drop_launch (b : Bank) (q : QName) : (b.drop q).launch = b.launch := rfl
@[simp] theorem Bank.drop_ctx (b : Bank) (q : QName) : (b.drop q).ctx = b.ctx := rfl
@[simp] theorem Bank.drop_hdr (b : Bank) (q : QName) : (b.drop q).hdr = b.hdr := rfl
@[simp] theorem Bank.drop_text (b : Bank) (q : QName) : (b.drop q).text = b.text := rfl
@[simp] theorem Bank.drop_engs (b : Bank) (q : QName) : (b.drop q).engs = b.engs := rfl
@[simp] theorem Bank.drop_seq (b : Bank) (q : QName) : (b.drop q).seq = b.seq := rfl
@[simp] theorem Bank.drop_acc (b : Bank) (q : QName) : (b.drop q).acc = b.acc := rfl
@[simp] theorem Bank.drop_mx (b : Bank) (q : QName) : (b.drop q).mx = b.mx := rfl
@[simp] theorem Bank.drop_vec (b : Bank) (q : QName) : (b.drop q).vec = b.vec := rfl
@[simp] theorem Bank.drop_tx (b : Bank) (q : QName) : (b.drop q).tx = b.tx := rfl
@[simp] theorem Bank.drop_fab (b : Bank) (q : QName) : (b.drop q).fab = b.fab := rfl
@[simp] theorem Bank.drop_car (b : Bank) (q : QName) : (b.drop q).car = b.car := rfl
@[simp] theorem Bank.drop_flt (b : Bank) (q : QName) : (b.drop q).flt = b.flt := rfl
@[simp] theorem Bank.drop_evict (b : Bank) (q : QName) : (b.drop q).evict = b.evict := rfl

@[simp] theorem Bank.show_st (b : Bank) (q : QName) (w : Nat) : (b.show q w).st = b.st := rfl
@[simp] theorem Bank.show_launch (b : Bank) (q : QName) (w : Nat) : (b.show q w).launch = b.launch := rfl
@[simp] theorem Bank.show_ctx (b : Bank) (q : QName) (w : Nat) : (b.show q w).ctx = b.ctx := rfl
@[simp] theorem Bank.show_hdr (b : Bank) (q : QName) (w : Nat) : (b.show q w).hdr = b.hdr := rfl
@[simp] theorem Bank.show_text (b : Bank) (q : QName) (w : Nat) : (b.show q w).text = b.text := rfl
@[simp] theorem Bank.show_engs (b : Bank) (q : QName) (w : Nat) : (b.show q w).engs = b.engs := rfl
@[simp] theorem Bank.show_seq (b : Bank) (q : QName) (w : Nat) : (b.show q w).seq = b.seq := rfl
@[simp] theorem Bank.show_acc (b : Bank) (q : QName) (w : Nat) : (b.show q w).acc = b.acc := rfl
@[simp] theorem Bank.show_mx (b : Bank) (q : QName) (w : Nat) : (b.show q w).mx = b.mx := rfl
@[simp] theorem Bank.show_vec (b : Bank) (q : QName) (w : Nat) : (b.show q w).vec = b.vec := rfl
@[simp] theorem Bank.show_tx (b : Bank) (q : QName) (w : Nat) : (b.show q w).tx = b.tx := rfl
@[simp] theorem Bank.show_fab (b : Bank) (q : QName) (w : Nat) : (b.show q w).fab = b.fab := rfl
@[simp] theorem Bank.show_car (b : Bank) (q : QName) (w : Nat) : (b.show q w).car = b.car := rfl
@[simp] theorem Bank.show_flt (b : Bank) (q : QName) (w : Nat) : (b.show q w).flt = b.flt := rfl
@[simp] theorem Bank.show_evict (b : Bank) (q : QName) (w : Nat) : (b.show q w).evict = b.evict := rfl

@[simp] theorem Bank.fill_st (b : Bank) (q : QName) (w : Nat) (v : List Reg64) : (b.fill q w v).st = b.st := rfl
@[simp] theorem Bank.fill_launch (b : Bank) (q : QName) (w : Nat) (v : List Reg64) : (b.fill q w v).launch = b.launch := rfl
@[simp] theorem Bank.fill_ctx (b : Bank) (q : QName) (w : Nat) (v : List Reg64) : (b.fill q w v).ctx = b.ctx := rfl
@[simp] theorem Bank.fill_hdr (b : Bank) (q : QName) (w : Nat) (v : List Reg64) : (b.fill q w v).hdr = b.hdr := rfl
@[simp] theorem Bank.fill_text (b : Bank) (q : QName) (w : Nat) (v : List Reg64) : (b.fill q w v).text = b.text := rfl
@[simp] theorem Bank.fill_engs (b : Bank) (q : QName) (w : Nat) (v : List Reg64) : (b.fill q w v).engs = b.engs := rfl
@[simp] theorem Bank.fill_seq (b : Bank) (q : QName) (w : Nat) (v : List Reg64) : (b.fill q w v).seq = b.seq := rfl
@[simp] theorem Bank.fill_acc (b : Bank) (q : QName) (w : Nat) (v : List Reg64) : (b.fill q w v).acc = b.acc := rfl
@[simp] theorem Bank.fill_mx (b : Bank) (q : QName) (w : Nat) (v : List Reg64) : (b.fill q w v).mx = b.mx := rfl
@[simp] theorem Bank.fill_vec (b : Bank) (q : QName) (w : Nat) (v : List Reg64) : (b.fill q w v).vec = b.vec := rfl
@[simp] theorem Bank.fill_tx (b : Bank) (q : QName) (w : Nat) (v : List Reg64) : (b.fill q w v).tx = b.tx := rfl
@[simp] theorem Bank.fill_fab (b : Bank) (q : QName) (w : Nat) (v : List Reg64) : (b.fill q w v).fab = b.fab := rfl
@[simp] theorem Bank.fill_car (b : Bank) (q : QName) (w : Nat) (v : List Reg64) : (b.fill q w v).car = b.car := rfl
@[simp] theorem Bank.fill_flt (b : Bank) (q : QName) (w : Nat) (v : List Reg64) : (b.fill q w v).flt = b.flt := rfl
@[simp] theorem Bank.fill_evict (b : Bank) (q : QName) (w : Nat) (v : List Reg64) : (b.fill q w v).evict = b.evict := rfl

@[simp] theorem Bank.setSem_st (b : Bank) (n : Fin 32) (v : Nat) : (b.setSem n v).st = b.st := rfl
@[simp] theorem Bank.setSem_launch (b : Bank) (n : Fin 32) (v : Nat) : (b.setSem n v).launch = b.launch := rfl
@[simp] theorem Bank.setSem_ctx (b : Bank) (n : Fin 32) (v : Nat) : (b.setSem n v).ctx = b.ctx := rfl
@[simp] theorem Bank.setSem_hdr (b : Bank) (n : Fin 32) (v : Nat) : (b.setSem n v).hdr = b.hdr := rfl
@[simp] theorem Bank.setSem_text (b : Bank) (n : Fin 32) (v : Nat) : (b.setSem n v).text = b.text := rfl
@[simp] theorem Bank.setSem_engs (b : Bank) (n : Fin 32) (v : Nat) : (b.setSem n v).engs = b.engs := rfl
@[simp] theorem Bank.setSem_queues (b : Bank) (n : Fin 32) (v : Nat) : (b.setSem n v).queues = b.queues := rfl
@[simp] theorem Bank.setSem_acc (b : Bank) (n : Fin 32) (v : Nat) : (b.setSem n v).acc = b.acc := rfl
@[simp] theorem Bank.setSem_mx (b : Bank) (n : Fin 32) (v : Nat) : (b.setSem n v).mx = b.mx := rfl
@[simp] theorem Bank.setSem_vec (b : Bank) (n : Fin 32) (v : Nat) : (b.setSem n v).vec = b.vec := rfl
@[simp] theorem Bank.setSem_tx (b : Bank) (n : Fin 32) (v : Nat) : (b.setSem n v).tx = b.tx := rfl
@[simp] theorem Bank.setSem_fab (b : Bank) (n : Fin 32) (v : Nat) : (b.setSem n v).fab = b.fab := rfl
@[simp] theorem Bank.setSem_car (b : Bank) (n : Fin 32) (v : Nat) : (b.setSem n v).car = b.car := rfl
@[simp] theorem Bank.setSem_flt (b : Bank) (n : Fin 32) (v : Nat) : (b.setSem n v).flt = b.flt := rfl
@[simp] theorem Bank.setSem_evict (b : Bank) (n : Fin 32) (v : Nat) : (b.setSem n v).evict = b.evict := rfl

@[simp] theorem Bank.takeFault_st (b : Bank) (c : FCode) (pc d : Nat) : (b.takeFault c pc d).st = b.st := by unfold Bank.takeFault; split <;> rfl
@[simp] theorem Bank.takeFault_launch (b : Bank) (c : FCode) (pc d : Nat) : (b.takeFault c pc d).launch = b.launch := by unfold Bank.takeFault; split <;> rfl
@[simp] theorem Bank.takeFault_ctx (b : Bank) (c : FCode) (pc d : Nat) : (b.takeFault c pc d).ctx = b.ctx := by unfold Bank.takeFault; split <;> rfl
@[simp] theorem Bank.takeFault_hdr (b : Bank) (c : FCode) (pc d : Nat) : (b.takeFault c pc d).hdr = b.hdr := by unfold Bank.takeFault; split <;> rfl
@[simp] theorem Bank.takeFault_text (b : Bank) (c : FCode) (pc d : Nat) : (b.takeFault c pc d).text = b.text := by unfold Bank.takeFault; split <;> rfl
@[simp] theorem Bank.takeFault_engs (b : Bank) (c : FCode) (pc d : Nat) : (b.takeFault c pc d).engs = b.engs := by unfold Bank.takeFault; split <;> rfl
@[simp] theorem Bank.takeFault_queues (b : Bank) (c : FCode) (pc d : Nat) : (b.takeFault c pc d).queues = b.queues := by unfold Bank.takeFault; split <;> rfl
@[simp] theorem Bank.takeFault_seq (b : Bank) (c : FCode) (pc d : Nat) : (b.takeFault c pc d).seq = b.seq := by unfold Bank.takeFault; split <;> rfl
@[simp] theorem Bank.takeFault_acc (b : Bank) (c : FCode) (pc d : Nat) : (b.takeFault c pc d).acc = b.acc := by unfold Bank.takeFault; split <;> rfl
@[simp] theorem Bank.takeFault_mx (b : Bank) (c : FCode) (pc d : Nat) : (b.takeFault c pc d).mx = b.mx := by unfold Bank.takeFault; split <;> rfl
@[simp] theorem Bank.takeFault_vec (b : Bank) (c : FCode) (pc d : Nat) : (b.takeFault c pc d).vec = b.vec := by unfold Bank.takeFault; split <;> rfl
@[simp] theorem Bank.takeFault_tx (b : Bank) (c : FCode) (pc d : Nat) : (b.takeFault c pc d).tx = b.tx := by unfold Bank.takeFault; split <;> rfl
@[simp] theorem Bank.takeFault_fab (b : Bank) (c : FCode) (pc d : Nat) : (b.takeFault c pc d).fab = b.fab := by unfold Bank.takeFault; split <;> rfl
@[simp] theorem Bank.takeFault_car (b : Bank) (c : FCode) (pc d : Nat) : (b.takeFault c pc d).car = b.car := by unfold Bank.takeFault; split <;> rfl
@[simp] theorem Bank.takeFault_evict (b : Bank) (c : FCode) (pc d : Nat) : (b.takeFault c pc d).evict = b.evict := by unfold Bank.takeFault; split <;> rfl

@[simp] theorem Bank.setRing_st (b : Bank) (g : Fin 16) (r : Ring) : (b.setRing g r).st = b.st := rfl
@[simp] theorem Bank.setRing_launch (b : Bank) (g : Fin 16) (r : Ring) : (b.setRing g r).launch = b.launch := rfl
@[simp] theorem Bank.setRing_ctx (b : Bank) (g : Fin 16) (r : Ring) : (b.setRing g r).ctx = b.ctx := rfl
@[simp] theorem Bank.setRing_hdr (b : Bank) (g : Fin 16) (r : Ring) : (b.setRing g r).hdr = b.hdr := rfl
@[simp] theorem Bank.setRing_text (b : Bank) (g : Fin 16) (r : Ring) : (b.setRing g r).text = b.text := rfl
@[simp] theorem Bank.setRing_engs (b : Bank) (g : Fin 16) (r : Ring) : (b.setRing g r).engs = b.engs := rfl
@[simp] theorem Bank.setRing_queues (b : Bank) (g : Fin 16) (r : Ring) : (b.setRing g r).queues = b.queues := rfl
@[simp] theorem Bank.setRing_seq (b : Bank) (g : Fin 16) (r : Ring) : (b.setRing g r).seq = b.seq := rfl
@[simp] theorem Bank.setRing_acc (b : Bank) (g : Fin 16) (r : Ring) : (b.setRing g r).acc = b.acc := rfl
@[simp] theorem Bank.setRing_mx (b : Bank) (g : Fin 16) (r : Ring) : (b.setRing g r).mx = b.mx := rfl
@[simp] theorem Bank.setRing_vec (b : Bank) (g : Fin 16) (r : Ring) : (b.setRing g r).vec = b.vec := rfl
@[simp] theorem Bank.setRing_tx (b : Bank) (g : Fin 16) (r : Ring) : (b.setRing g r).tx = b.tx := rfl
@[simp] theorem Bank.setRing_fab (b : Bank) (g : Fin 16) (r : Ring) : (b.setRing g r).fab = b.fab := rfl
@[simp] theorem Bank.setRing_flt (b : Bank) (g : Fin 16) (r : Ring) : (b.setRing g r).flt = b.flt := rfl
@[simp] theorem Bank.setRing_evict (b : Bank) (g : Fin 16) (r : Ring) : (b.setRing g r).evict = b.evict := rfl

@[simp] theorem Bank.setVreg_st (b : Bank) (n : Fin 32) (x : VecReg) : (b.setVreg n x).st = b.st := rfl
@[simp] theorem Bank.setVreg_launch (b : Bank) (n : Fin 32) (x : VecReg) : (b.setVreg n x).launch = b.launch := rfl
@[simp] theorem Bank.setVreg_ctx (b : Bank) (n : Fin 32) (x : VecReg) : (b.setVreg n x).ctx = b.ctx := rfl
@[simp] theorem Bank.setVreg_hdr (b : Bank) (n : Fin 32) (x : VecReg) : (b.setVreg n x).hdr = b.hdr := rfl
@[simp] theorem Bank.setVreg_text (b : Bank) (n : Fin 32) (x : VecReg) : (b.setVreg n x).text = b.text := rfl
@[simp] theorem Bank.setVreg_engs (b : Bank) (n : Fin 32) (x : VecReg) : (b.setVreg n x).engs = b.engs := rfl
@[simp] theorem Bank.setVreg_queues (b : Bank) (n : Fin 32) (x : VecReg) : (b.setVreg n x).queues = b.queues := rfl
@[simp] theorem Bank.setVreg_seq (b : Bank) (n : Fin 32) (x : VecReg) : (b.setVreg n x).seq = b.seq := rfl
@[simp] theorem Bank.setVreg_acc (b : Bank) (n : Fin 32) (x : VecReg) : (b.setVreg n x).acc = b.acc := rfl
@[simp] theorem Bank.setVreg_mx (b : Bank) (n : Fin 32) (x : VecReg) : (b.setVreg n x).mx = b.mx := rfl
@[simp] theorem Bank.setVreg_tx (b : Bank) (n : Fin 32) (x : VecReg) : (b.setVreg n x).tx = b.tx := rfl
@[simp] theorem Bank.setVreg_fab (b : Bank) (n : Fin 32) (x : VecReg) : (b.setVreg n x).fab = b.fab := rfl
@[simp] theorem Bank.setVreg_car (b : Bank) (n : Fin 32) (x : VecReg) : (b.setVreg n x).car = b.car := rfl
@[simp] theorem Bank.setVreg_flt (b : Bank) (n : Fin 32) (x : VecReg) : (b.setVreg n x).flt = b.flt := rfl
@[simp] theorem Bank.setVreg_evict (b : Bank) (n : Fin 32) (x : VecReg) : (b.setVreg n x).evict = b.evict := rfl

@[simp] theorem Bank.setKreg_st (b : Bank) (n : Fin 8) (x : Reg256) : (b.setKreg n x).st = b.st := by unfold Bank.setKreg; split <;> rfl
@[simp] theorem Bank.setKreg_launch (b : Bank) (n : Fin 8) (x : Reg256) : (b.setKreg n x).launch = b.launch := by unfold Bank.setKreg; split <;> rfl
@[simp] theorem Bank.setKreg_ctx (b : Bank) (n : Fin 8) (x : Reg256) : (b.setKreg n x).ctx = b.ctx := by unfold Bank.setKreg; split <;> rfl
@[simp] theorem Bank.setKreg_hdr (b : Bank) (n : Fin 8) (x : Reg256) : (b.setKreg n x).hdr = b.hdr := by unfold Bank.setKreg; split <;> rfl
@[simp] theorem Bank.setKreg_text (b : Bank) (n : Fin 8) (x : Reg256) : (b.setKreg n x).text = b.text := by unfold Bank.setKreg; split <;> rfl
@[simp] theorem Bank.setKreg_engs (b : Bank) (n : Fin 8) (x : Reg256) : (b.setKreg n x).engs = b.engs := by unfold Bank.setKreg; split <;> rfl
@[simp] theorem Bank.setKreg_queues (b : Bank) (n : Fin 8) (x : Reg256) : (b.setKreg n x).queues = b.queues := by unfold Bank.setKreg; split <;> rfl
@[simp] theorem Bank.setKreg_seq (b : Bank) (n : Fin 8) (x : Reg256) : (b.setKreg n x).seq = b.seq := by unfold Bank.setKreg; split <;> rfl
@[simp] theorem Bank.setKreg_acc (b : Bank) (n : Fin 8) (x : Reg256) : (b.setKreg n x).acc = b.acc := by unfold Bank.setKreg; split <;> rfl
@[simp] theorem Bank.setKreg_mx (b : Bank) (n : Fin 8) (x : Reg256) : (b.setKreg n x).mx = b.mx := by unfold Bank.setKreg; split <;> rfl
@[simp] theorem Bank.setKreg_tx (b : Bank) (n : Fin 8) (x : Reg256) : (b.setKreg n x).tx = b.tx := by unfold Bank.setKreg; split <;> rfl
@[simp] theorem Bank.setKreg_fab (b : Bank) (n : Fin 8) (x : Reg256) : (b.setKreg n x).fab = b.fab := by unfold Bank.setKreg; split <;> rfl
@[simp] theorem Bank.setKreg_car (b : Bank) (n : Fin 8) (x : Reg256) : (b.setKreg n x).car = b.car := by unfold Bank.setKreg; split <;> rfl
@[simp] theorem Bank.setKreg_flt (b : Bank) (n : Fin 8) (x : Reg256) : (b.setKreg n x).flt = b.flt := by unfold Bank.setKreg; split <;> rfl
@[simp] theorem Bank.setKreg_evict (b : Bank) (n : Fin 8) (x : Reg256) : (b.setKreg n x).evict = b.evict := by unfold Bank.setKreg; split <;> rfl

@[simp] theorem Bank.setZreg_st (b : Bank) (n : Fin 8) (x : Reg256) : (b.setZreg n x).st = b.st := rfl
@[simp] theorem Bank.setZreg_launch (b : Bank) (n : Fin 8) (x : Reg256) : (b.setZreg n x).launch = b.launch := rfl
@[simp] theorem Bank.setZreg_ctx (b : Bank) (n : Fin 8) (x : Reg256) : (b.setZreg n x).ctx = b.ctx := rfl
@[simp] theorem Bank.setZreg_hdr (b : Bank) (n : Fin 8) (x : Reg256) : (b.setZreg n x).hdr = b.hdr := rfl
@[simp] theorem Bank.setZreg_text (b : Bank) (n : Fin 8) (x : Reg256) : (b.setZreg n x).text = b.text := rfl
@[simp] theorem Bank.setZreg_engs (b : Bank) (n : Fin 8) (x : Reg256) : (b.setZreg n x).engs = b.engs := rfl
@[simp] theorem Bank.setZreg_queues (b : Bank) (n : Fin 8) (x : Reg256) : (b.setZreg n x).queues = b.queues := rfl
@[simp] theorem Bank.setZreg_seq (b : Bank) (n : Fin 8) (x : Reg256) : (b.setZreg n x).seq = b.seq := rfl
@[simp] theorem Bank.setZreg_acc (b : Bank) (n : Fin 8) (x : Reg256) : (b.setZreg n x).acc = b.acc := rfl
@[simp] theorem Bank.setZreg_mx (b : Bank) (n : Fin 8) (x : Reg256) : (b.setZreg n x).mx = b.mx := rfl
@[simp] theorem Bank.setZreg_tx (b : Bank) (n : Fin 8) (x : Reg256) : (b.setZreg n x).tx = b.tx := rfl
@[simp] theorem Bank.setZreg_fab (b : Bank) (n : Fin 8) (x : Reg256) : (b.setZreg n x).fab = b.fab := rfl
@[simp] theorem Bank.setZreg_car (b : Bank) (n : Fin 8) (x : Reg256) : (b.setZreg n x).car = b.car := rfl
@[simp] theorem Bank.setZreg_flt (b : Bank) (n : Fin 8) (x : Reg256) : (b.setZreg n x).flt = b.flt := rfl
@[simp] theorem Bank.setZreg_evict (b : Bank) (n : Fin 8) (x : Reg256) : (b.setZreg n x).evict = b.evict := rfl

@[simp] theorem Bank.putQ_st (b : Bank) (n : Fin 8) (x : Stream) : (b.putQ n x).st = b.st := rfl
@[simp] theorem Bank.putQ_launch (b : Bank) (n : Fin 8) (x : Stream) : (b.putQ n x).launch = b.launch := rfl
@[simp] theorem Bank.putQ_ctx (b : Bank) (n : Fin 8) (x : Stream) : (b.putQ n x).ctx = b.ctx := rfl
@[simp] theorem Bank.putQ_hdr (b : Bank) (n : Fin 8) (x : Stream) : (b.putQ n x).hdr = b.hdr := rfl
@[simp] theorem Bank.putQ_text (b : Bank) (n : Fin 8) (x : Stream) : (b.putQ n x).text = b.text := rfl
@[simp] theorem Bank.putQ_engs (b : Bank) (n : Fin 8) (x : Stream) : (b.putQ n x).engs = b.engs := rfl
@[simp] theorem Bank.putQ_queues (b : Bank) (n : Fin 8) (x : Stream) : (b.putQ n x).queues = b.queues := rfl
@[simp] theorem Bank.putQ_seq (b : Bank) (n : Fin 8) (x : Stream) : (b.putQ n x).seq = b.seq := rfl
@[simp] theorem Bank.putQ_mx (b : Bank) (n : Fin 8) (x : Stream) : (b.putQ n x).mx = b.mx := rfl
@[simp] theorem Bank.putQ_vec (b : Bank) (n : Fin 8) (x : Stream) : (b.putQ n x).vec = b.vec := rfl
@[simp] theorem Bank.putQ_tx (b : Bank) (n : Fin 8) (x : Stream) : (b.putQ n x).tx = b.tx := rfl
@[simp] theorem Bank.putQ_fab (b : Bank) (n : Fin 8) (x : Stream) : (b.putQ n x).fab = b.fab := rfl
@[simp] theorem Bank.putQ_car (b : Bank) (n : Fin 8) (x : Stream) : (b.putQ n x).car = b.car := rfl
@[simp] theorem Bank.putQ_flt (b : Bank) (n : Fin 8) (x : Stream) : (b.putQ n x).flt = b.flt := rfl
@[simp] theorem Bank.putQ_evict (b : Bank) (n : Fin 8) (x : Stream) : (b.putQ n x).evict = b.evict := rfl

@[simp] theorem Bank.pushBefore_st (b : Bank) (e : Engine) (n : Nat) : (b.pushBefore e n).st = b.st := rfl
@[simp] theorem Bank.pushBefore_launch (b : Bank) (e : Engine) (n : Nat) : (b.pushBefore e n).launch = b.launch := rfl
@[simp] theorem Bank.pushBefore_ctx (b : Bank) (e : Engine) (n : Nat) : (b.pushBefore e n).ctx = b.ctx := rfl
@[simp] theorem Bank.pushBefore_hdr (b : Bank) (e : Engine) (n : Nat) : (b.pushBefore e n).hdr = b.hdr := rfl
@[simp] theorem Bank.pushBefore_text (b : Bank) (e : Engine) (n : Nat) : (b.pushBefore e n).text = b.text := rfl
@[simp] theorem Bank.pushBefore_queues (b : Bank) (e : Engine) (n : Nat) : (b.pushBefore e n).queues = b.queues := rfl
@[simp] theorem Bank.pushBefore_seq (b : Bank) (e : Engine) (n : Nat) : (b.pushBefore e n).seq = b.seq := rfl
@[simp] theorem Bank.pushBefore_acc (b : Bank) (e : Engine) (n : Nat) : (b.pushBefore e n).acc = b.acc := rfl
@[simp] theorem Bank.pushBefore_mx (b : Bank) (e : Engine) (n : Nat) : (b.pushBefore e n).mx = b.mx := rfl
@[simp] theorem Bank.pushBefore_vec (b : Bank) (e : Engine) (n : Nat) : (b.pushBefore e n).vec = b.vec := rfl
@[simp] theorem Bank.pushBefore_tx (b : Bank) (e : Engine) (n : Nat) : (b.pushBefore e n).tx = b.tx := rfl
@[simp] theorem Bank.pushBefore_fab (b : Bank) (e : Engine) (n : Nat) : (b.pushBefore e n).fab = b.fab := rfl
@[simp] theorem Bank.pushBefore_car (b : Bank) (e : Engine) (n : Nat) : (b.pushBefore e n).car = b.car := rfl
@[simp] theorem Bank.pushBefore_flt (b : Bank) (e : Engine) (n : Nat) : (b.pushBefore e n).flt = b.flt := rfl
@[simp] theorem Bank.pushBefore_evict (b : Bank) (e : Engine) (n : Nat) : (b.pushBefore e n).evict = b.evict := rfl

@[simp] theorem Bank.pushAfter_st (b : Bank) (e : Engine) (n : Nat) : (b.pushAfter e n).st = b.st := rfl
@[simp] theorem Bank.pushAfter_launch (b : Bank) (e : Engine) (n : Nat) : (b.pushAfter e n).launch = b.launch := rfl
@[simp] theorem Bank.pushAfter_ctx (b : Bank) (e : Engine) (n : Nat) : (b.pushAfter e n).ctx = b.ctx := rfl
@[simp] theorem Bank.pushAfter_hdr (b : Bank) (e : Engine) (n : Nat) : (b.pushAfter e n).hdr = b.hdr := rfl
@[simp] theorem Bank.pushAfter_text (b : Bank) (e : Engine) (n : Nat) : (b.pushAfter e n).text = b.text := rfl
@[simp] theorem Bank.pushAfter_queues (b : Bank) (e : Engine) (n : Nat) : (b.pushAfter e n).queues = b.queues := rfl
@[simp] theorem Bank.pushAfter_seq (b : Bank) (e : Engine) (n : Nat) : (b.pushAfter e n).seq = b.seq := rfl
@[simp] theorem Bank.pushAfter_acc (b : Bank) (e : Engine) (n : Nat) : (b.pushAfter e n).acc = b.acc := rfl
@[simp] theorem Bank.pushAfter_mx (b : Bank) (e : Engine) (n : Nat) : (b.pushAfter e n).mx = b.mx := rfl
@[simp] theorem Bank.pushAfter_vec (b : Bank) (e : Engine) (n : Nat) : (b.pushAfter e n).vec = b.vec := rfl
@[simp] theorem Bank.pushAfter_tx (b : Bank) (e : Engine) (n : Nat) : (b.pushAfter e n).tx = b.tx := rfl
@[simp] theorem Bank.pushAfter_fab (b : Bank) (e : Engine) (n : Nat) : (b.pushAfter e n).fab = b.fab := rfl
@[simp] theorem Bank.pushAfter_car (b : Bank) (e : Engine) (n : Nat) : (b.pushAfter e n).car = b.car := rfl
@[simp] theorem Bank.pushAfter_flt (b : Bank) (e : Engine) (n : Nat) : (b.pushAfter e n).flt = b.flt := rfl
@[simp] theorem Bank.pushAfter_evict (b : Bank) (e : Engine) (n : Nat) : (b.pushAfter e n).evict = b.evict := rfl

@[simp] theorem Bank.putBuf_st (b : Bank) (n : Nat) (c : CBuf) : (b.putBuf n c).st = b.st := rfl
@[simp] theorem Bank.putBuf_launch (b : Bank) (n : Nat) (c : CBuf) : (b.putBuf n c).launch = b.launch := rfl
@[simp] theorem Bank.putBuf_ctx (b : Bank) (n : Nat) (c : CBuf) : (b.putBuf n c).ctx = b.ctx := rfl
@[simp] theorem Bank.putBuf_hdr (b : Bank) (n : Nat) (c : CBuf) : (b.putBuf n c).hdr = b.hdr := rfl
@[simp] theorem Bank.putBuf_text (b : Bank) (n : Nat) (c : CBuf) : (b.putBuf n c).text = b.text := rfl
@[simp] theorem Bank.putBuf_engs (b : Bank) (n : Nat) (c : CBuf) : (b.putBuf n c).engs = b.engs := rfl
@[simp] theorem Bank.putBuf_queues (b : Bank) (n : Nat) (c : CBuf) : (b.putBuf n c).queues = b.queues := rfl
@[simp] theorem Bank.putBuf_seq (b : Bank) (n : Nat) (c : CBuf) : (b.putBuf n c).seq = b.seq := rfl
@[simp] theorem Bank.putBuf_acc (b : Bank) (n : Nat) (c : CBuf) : (b.putBuf n c).acc = b.acc := rfl
@[simp] theorem Bank.putBuf_mx (b : Bank) (n : Nat) (c : CBuf) : (b.putBuf n c).mx = b.mx := rfl
@[simp] theorem Bank.putBuf_tx (b : Bank) (n : Nat) (c : CBuf) : (b.putBuf n c).tx = b.tx := rfl
@[simp] theorem Bank.putBuf_fab (b : Bank) (n : Nat) (c : CBuf) : (b.putBuf n c).fab = b.fab := rfl
@[simp] theorem Bank.putBuf_car (b : Bank) (n : Nat) (c : CBuf) : (b.putBuf n c).car = b.car := rfl
@[simp] theorem Bank.putBuf_flt (b : Bank) (n : Nat) (c : CBuf) : (b.putBuf n c).flt = b.flt := rfl
@[simp] theorem Bank.putBuf_evict (b : Bank) (n : Nat) (c : CBuf) : (b.putBuf n c).evict = b.evict := rfl

@[simp] theorem Bank.putStage_st (b : Bank) (n : Nat) (c : CBuf) : (b.putStage n c).st = b.st := rfl
@[simp] theorem Bank.putStage_launch (b : Bank) (n : Nat) (c : CBuf) : (b.putStage n c).launch = b.launch := rfl
@[simp] theorem Bank.putStage_ctx (b : Bank) (n : Nat) (c : CBuf) : (b.putStage n c).ctx = b.ctx := rfl
@[simp] theorem Bank.putStage_hdr (b : Bank) (n : Nat) (c : CBuf) : (b.putStage n c).hdr = b.hdr := rfl
@[simp] theorem Bank.putStage_text (b : Bank) (n : Nat) (c : CBuf) : (b.putStage n c).text = b.text := rfl
@[simp] theorem Bank.putStage_engs (b : Bank) (n : Nat) (c : CBuf) : (b.putStage n c).engs = b.engs := rfl
@[simp] theorem Bank.putStage_queues (b : Bank) (n : Nat) (c : CBuf) : (b.putStage n c).queues = b.queues := rfl
@[simp] theorem Bank.putStage_seq (b : Bank) (n : Nat) (c : CBuf) : (b.putStage n c).seq = b.seq := rfl
@[simp] theorem Bank.putStage_acc (b : Bank) (n : Nat) (c : CBuf) : (b.putStage n c).acc = b.acc := rfl
@[simp] theorem Bank.putStage_mx (b : Bank) (n : Nat) (c : CBuf) : (b.putStage n c).mx = b.mx := rfl
@[simp] theorem Bank.putStage_tx (b : Bank) (n : Nat) (c : CBuf) : (b.putStage n c).tx = b.tx := rfl
@[simp] theorem Bank.putStage_fab (b : Bank) (n : Nat) (c : CBuf) : (b.putStage n c).fab = b.fab := rfl
@[simp] theorem Bank.putStage_car (b : Bank) (n : Nat) (c : CBuf) : (b.putStage n c).car = b.car := rfl
@[simp] theorem Bank.putStage_flt (b : Bank) (n : Nat) (c : CBuf) : (b.putStage n c).flt = b.flt := rfl
@[simp] theorem Bank.putStage_evict (b : Bank) (n : Nat) (c : CBuf) : (b.putStage n c).evict = b.evict := rfl

@[simp] theorem Bank.setCell_st (b : Bank) (i k : Nat) (v : AccCell) : (b.setCell i k v).st = b.st := rfl
@[simp] theorem Bank.setCell_launch (b : Bank) (i k : Nat) (v : AccCell) : (b.setCell i k v).launch = b.launch := rfl
@[simp] theorem Bank.setCell_ctx (b : Bank) (i k : Nat) (v : AccCell) : (b.setCell i k v).ctx = b.ctx := rfl
@[simp] theorem Bank.setCell_hdr (b : Bank) (i k : Nat) (v : AccCell) : (b.setCell i k v).hdr = b.hdr := rfl
@[simp] theorem Bank.setCell_text (b : Bank) (i k : Nat) (v : AccCell) : (b.setCell i k v).text = b.text := rfl
@[simp] theorem Bank.setCell_engs (b : Bank) (i k : Nat) (v : AccCell) : (b.setCell i k v).engs = b.engs := rfl
@[simp] theorem Bank.setCell_queues (b : Bank) (i k : Nat) (v : AccCell) : (b.setCell i k v).queues = b.queues := rfl
@[simp] theorem Bank.setCell_seq (b : Bank) (i k : Nat) (v : AccCell) : (b.setCell i k v).seq = b.seq := rfl
@[simp] theorem Bank.setCell_acc (b : Bank) (i k : Nat) (v : AccCell) : (b.setCell i k v).acc = b.acc := rfl
@[simp] theorem Bank.setCell_vec (b : Bank) (i k : Nat) (v : AccCell) : (b.setCell i k v).vec = b.vec := rfl
@[simp] theorem Bank.setCell_tx (b : Bank) (i k : Nat) (v : AccCell) : (b.setCell i k v).tx = b.tx := rfl
@[simp] theorem Bank.setCell_fab (b : Bank) (i k : Nat) (v : AccCell) : (b.setCell i k v).fab = b.fab := rfl
@[simp] theorem Bank.setCell_car (b : Bank) (i k : Nat) (v : AccCell) : (b.setCell i k v).car = b.car := rfl
@[simp] theorem Bank.setCell_flt (b : Bank) (i k : Nat) (v : AccCell) : (b.setCell i k v).flt = b.flt := rfl
@[simp] theorem Bank.setCell_evict (b : Bank) (i k : Nat) (v : AccCell) : (b.setCell i k v).evict = b.evict := rfl

@[simp] theorem Bank.setSat_st (b : Bank) (i : Nat) (x : Bool) : (b.setSat i x).st = b.st := rfl
@[simp] theorem Bank.setSat_launch (b : Bank) (i : Nat) (x : Bool) : (b.setSat i x).launch = b.launch := rfl
@[simp] theorem Bank.setSat_ctx (b : Bank) (i : Nat) (x : Bool) : (b.setSat i x).ctx = b.ctx := rfl
@[simp] theorem Bank.setSat_hdr (b : Bank) (i : Nat) (x : Bool) : (b.setSat i x).hdr = b.hdr := rfl
@[simp] theorem Bank.setSat_text (b : Bank) (i : Nat) (x : Bool) : (b.setSat i x).text = b.text := rfl
@[simp] theorem Bank.setSat_engs (b : Bank) (i : Nat) (x : Bool) : (b.setSat i x).engs = b.engs := rfl
@[simp] theorem Bank.setSat_queues (b : Bank) (i : Nat) (x : Bool) : (b.setSat i x).queues = b.queues := rfl
@[simp] theorem Bank.setSat_seq (b : Bank) (i : Nat) (x : Bool) : (b.setSat i x).seq = b.seq := rfl
@[simp] theorem Bank.setSat_acc (b : Bank) (i : Nat) (x : Bool) : (b.setSat i x).acc = b.acc := rfl
@[simp] theorem Bank.setSat_vec (b : Bank) (i : Nat) (x : Bool) : (b.setSat i x).vec = b.vec := rfl
@[simp] theorem Bank.setSat_tx (b : Bank) (i : Nat) (x : Bool) : (b.setSat i x).tx = b.tx := rfl
@[simp] theorem Bank.setSat_fab (b : Bank) (i : Nat) (x : Bool) : (b.setSat i x).fab = b.fab := rfl
@[simp] theorem Bank.setSat_car (b : Bank) (i : Nat) (x : Bool) : (b.setSat i x).car = b.car := rfl
@[simp] theorem Bank.setSat_flt (b : Bank) (i : Nat) (x : Bool) : (b.setSat i x).flt = b.flt := rfl
@[simp] theorem Bank.setSat_evict (b : Bank) (i : Nat) (x : Bool) : (b.setSat i x).evict = b.evict := rfl

@[simp] theorem Bank.putChan_st (b : Bank) (n : Nat) (c : Chan) : (b.putChan n c).st = b.st := rfl
@[simp] theorem Bank.putChan_launch (b : Bank) (n : Nat) (c : Chan) : (b.putChan n c).launch = b.launch := rfl
@[simp] theorem Bank.putChan_ctx (b : Bank) (n : Nat) (c : Chan) : (b.putChan n c).ctx = b.ctx := rfl
@[simp] theorem Bank.putChan_hdr (b : Bank) (n : Nat) (c : Chan) : (b.putChan n c).hdr = b.hdr := rfl
@[simp] theorem Bank.putChan_text (b : Bank) (n : Nat) (c : Chan) : (b.putChan n c).text = b.text := rfl
@[simp] theorem Bank.putChan_engs (b : Bank) (n : Nat) (c : Chan) : (b.putChan n c).engs = b.engs := rfl
@[simp] theorem Bank.putChan_queues (b : Bank) (n : Nat) (c : Chan) : (b.putChan n c).queues = b.queues := rfl
@[simp] theorem Bank.putChan_seq (b : Bank) (n : Nat) (c : Chan) : (b.putChan n c).seq = b.seq := rfl
@[simp] theorem Bank.putChan_acc (b : Bank) (n : Nat) (c : Chan) : (b.putChan n c).acc = b.acc := rfl
@[simp] theorem Bank.putChan_mx (b : Bank) (n : Nat) (c : Chan) : (b.putChan n c).mx = b.mx := rfl
@[simp] theorem Bank.putChan_vec (b : Bank) (n : Nat) (c : Chan) : (b.putChan n c).vec = b.vec := rfl
@[simp] theorem Bank.putChan_tx (b : Bank) (n : Nat) (c : Chan) : (b.putChan n c).tx = b.tx := rfl
@[simp] theorem Bank.putChan_fab (b : Bank) (n : Nat) (c : Chan) : (b.putChan n c).fab = b.fab := rfl
@[simp] theorem Bank.putChan_flt (b : Bank) (n : Nat) (c : Chan) : (b.putChan n c).flt = b.flt := rfl
@[simp] theorem Bank.putChan_evict (b : Bank) (n : Nat) (c : Chan) : (b.putChan n c).evict = b.evict := rfl

/-! ## Reading back -/

@[simp] theorem Engs.get_set_same (g : Engs) (e : Engine) (x : EngSt) : (g.set e x).get e = x := by cases e <;> rfl

theorem Engs.get_set_ne (g : Engs) {e f : Engine} (x : EngSt) (h : f ≠ e) : (g.set e x).get f = g.get f := by
  cases e <;> cases f <;> first | rfl | exact absurd rfl h

@[simp] theorem Bank.eng_setEng_same (b : Bank) (e : Engine) (x : EngSt) : (b.setEng e x).eng e = x := Engs.get_set_same _ _ _

theorem Bank.eng_setEng_ne (b : Bank) {e f : Engine} (x : EngSt) (h : f ≠ e) : (b.setEng e x).eng f = b.eng f := Engs.get_set_ne _ _ h

theorem Bank.eng_setEng (b : Bank) (e f : Engine) (x : EngSt) : (b.setEng e x).eng f = if f = e then x else b.eng f := by
  split
  · next h => subst h; exact b.eng_setEng_same f x
  · next h => exact b.eng_setEng_ne x h

@[simp] theorem Queues.get_set_same (g : Queues) (n : QName) (x : List QEnt) : (g.set n x).get n = x := by cases n <;> rfl

theorem Queues.get_set_ne (g : Queues) {n m : QName} (x : List QEnt) (h : m ≠ n) : (g.set n x).get m = g.get m := by
  cases n <;> cases m <;> first | rfl | exact absurd rfl h

@[simp] theorem core_setCore_same (s : State) (c : Nat) (k : Core) : (s.setCore c k).core c = k := spGet_spPut_same ..

theorem core_setCore_ne (s : State) {c d : Nat} (k : Core) (h : d ≠ c) : (s.setCore c k).core d = s.core d := spGet_spPut_ne _ _ _ h

@[simp] theorem Core.bank_setBank_same (k : Core) (n : Fin 2) (b : Bank) : (k.setBank n b).bank n = b := by
  unfold Core.setBank Core.bank; split <;> rfl

theorem Core.bank_setBank_ne (k : Core) {n m : Fin 2} (b : Bank) (h : m ≠ n) : (k.setBank n b).bank m = k.bank m := by
  unfold Core.setBank Core.bank
  by_cases hn : n = 0 <;> by_cases hm : m = 0 <;> simp [hn, hm]
  · exact absurd (hm.trans hn.symm) h
  · omega

@[simp] theorem Core.setBank_run (k : Core) (n : Fin 2) (b : Bank) : (k.setBank n b).run = k.run := by unfold Core.setBank; split <;> rfl
@[simp] theorem Core.setBank_tlb (k : Core) (n : Fin 2) (b : Bank) : (k.setBank n b).tlb = k.tlb := by unfold Core.setBank; split <;> rfl
@[simp] theorem Core.setBank_plat (k : Core) (n : Fin 2) (b : Bank) : (k.setBank n b).plat = k.plat := by unfold Core.setBank; split <;> rfl

/-- The bank written is the bank read. -/
@[simp] theorem bank_setBank_same (s : State) (l : Loc) (b : Bank) : (s.setBank l b).bank l = b := by
  simp [State.setBank, State.bank]

/-- Every other bank is as it was. -/
theorem bank_setBank_ne (s : State) {l m : Loc} (b : Bank) (h : m ≠ l) : (s.setBank l b).bank m = s.bank m := by
  unfold State.setBank State.bank
  by_cases hc : m.core = l.core
  · have hb : m.bank ≠ l.bank := fun hb => h (by cases l; cases m; simp_all)
    rw [hc, core_setCore_same, Core.bank_setBank_ne _ _ hb]
  · rw [core_setCore_ne _ _ hc]

theorem core_setBank_rest (s : State) (l : Loc) (b : Bank) (c : Nat) :
    ((s.setBank l b).core c).run = (s.core c).run ∧ ((s.setBank l b).core c).tlb = (s.core c).tlb ∧ ((s.setBank l b).core c).plat = (s.core c).plat := by
  unfold State.setBank
  by_cases hc : c = l.core
  · subst hc; simp
  · rw [core_setCore_ne _ _ hc]; simp

@[simp] theorem here_setBank (s : State) (b : Bank) : (s.setBank s.cur.loc b).here = b := bank_setBank_same ..

@[simp] theorem here_onHere (s : State) (f : Bank → Bank) : (s.onHere f).here = f s.here := bank_setBank_same ..

/-- Putting twice is putting once. -/
theorem setBank_setBank (s : State) (l : Loc) (a b : Bank) : (s.setBank l a).setBank l b = s.setBank l b := by
  have hk : ((s.core l.core).setBank l.bank a).setBank l.bank b = (s.core l.core).setBank l.bank b := by
    unfold Core.setBank; split <;> rfl
  simp only [State.setBank, core_setCore_same, hk]
  simp only [State.setCore]
  rw [spPut_spPut]

/-- Putting back what is there changes nothing. -/
theorem setBank_self (s : State) (l : Loc) (h : spWf {} s.cores = true) : s.setBank l (s.bank l) = s := by
  have hk : (s.core l.core).setBank l.bank (s.bank l) = s.core l.core := by
    unfold State.bank Core.setBank Core.bank; split <;> rfl
  simp only [State.setBank, hk]
  simp only [State.setCore, State.core]
  rw [spPut_self _ _ _ h]

/-- `s0` reads zero (04 R99). -/
@[simp] theorem Bank.sreg_zero (b : Bank) : b.sreg 0 = 0 := rfl

theorem Bank.sreg_setSreg (b : Bank) (n m : SReg) (v : Reg64) :
    (b.setSreg n v).sreg m = if m = 0 then 0 else if m = n then v else b.sreg m := by
  unfold Bank.setSreg Bank.sreg
  by_cases hn : n = 0
  · by_cases hm : m = 0
    · simp [hm]
    · simp [hn, hm]
  · by_cases hm : m = 0
    · simp [hm]
    · by_cases h : m = n
      · subst h; simp [hn, spGet_spPut_same]
      · have : m.val ≠ n.val := fun e => h (Fin.ext e)
        simp [hn, hm, h, spGet_spPut_ne _ _ _ this]

theorem aregCode_inj {r q : AReg} (h : aregCode r = aregCode q) : r = q := by
  cases r <;> cases q <;> simp [aregCode, Fin.ext_iff] at h ⊢ <;> omega

theorem Bank.areg_setAreg (b : Bank) (r q : AReg) (v : Reg64) : (b.setAreg r v).areg q = if q = r then v else b.areg q := by
  unfold Bank.setAreg Bank.areg
  split
  · next h => subst h; exact spGet_spPut_same ..
  · next h => exact spGet_spPut_ne _ _ _ (fun e => h (aregCode_inj e))

theorem Bank.vreg_setVreg (b : Bank) (n m : Fin 32) (x : VecReg) : (b.setVreg n x).vreg m = if m = n then x else b.vreg m := by
  unfold Bank.setVreg Bank.vreg
  split
  · next h => subst h; exact spGet_spPut_same ..
  · next h => exact spGet_spPut_ne _ _ _ (fun e => h (Fin.ext e))

/-- `k0` reads all ones (08 R264). -/
@[simp] theorem Bank.kreg_zero (b : Bank) : b.kreg 0 = BitVec.allOnes 256 := rfl

theorem Bank.kreg_setKreg (b : Bank) (n m : Fin 8) (x : Reg256) :
    (b.setKreg n x).kreg m = if m = 0 then BitVec.allOnes 256 else if m = n then x else b.kreg m := by
  unfold Bank.setKreg Bank.kreg
  by_cases hn : n = 0
  · by_cases hm : m = 0 <;> simp [hn, hm]
  · by_cases hm : m = 0
    · simp [hm]
    · by_cases h : m = n
      · subst h; simp [hn, spGet_spPut_same]
      · have : m.val ≠ n.val := fun e => h (Fin.ext e)
        simp [hn, hm, h, spGet_spPut_ne _ _ _ this]

theorem Bank.zreg_setZreg (b : Bank) (n m : Fin 8) (x : Reg256) : (b.setZreg n x).zreg m = if m = n then x else b.zreg m := by
  unfold Bank.setZreg Bank.zreg
  split
  · next h => subst h; exact spGet_spPut_same ..
  · next h => exact spGet_spPut_ne _ _ _ (fun e => h (Fin.ext e))

end Sys2Proof.Machine
end

