-- ==== Sys2Proof/Laws/Settle.lean ====
section
/-!
SUPPORT. Retirement (02 R42 to R44): what it leaves as it was, said once for `settle`, and exactly what it does when no earlier word is in flight.
-/

namespace Sys2Proof.Machine

/-! ## Agreement on pieces -/

theorem BankPart.same_refl (b : Bank) (p : BankPart) : BankPart.same b b p := by cases p <;> simp [BankPart.same]

theorem BankPart.same_trans {a b c : Bank} {p : BankPart} (h : BankPart.same a b p) (k : BankPart.same b c p) : BankPart.same a c p := by
  cases p <;> simp only [BankPart.same] at * <;> simp_all

theorem BankPart.same_symm {a b : Bank} {p : BankPart} (h : BankPart.same a b p) : BankPart.same b a p := by
  cases p <;> simp only [BankPart.same] at * <;> simp_all

theorem EngSt.sameWalk_refl (x : EngSt) : x.sameWalk x := by simp [EngSt.sameWalk]

theorem EngSt.sameWalk_trans {x y z : EngSt} (h : x.sameWalk y) (k : y.sameWalk z) : x.sameWalk z := by
  simp only [EngSt.sameWalk] at *; simp_all

/-- What retirement may do to a bank: of the pieces only the late ones, of the engines only tokens and words in flight. -/
structure Settles (b c : Bank) : Prop where
  part : ∀ p, p.late = false → BankPart.same c b p
  walk : ∀ e, (c.eng e).sameWalk (b.eng e)
  st   : c.st = b.st
  wdog : c.seq.wdog = b.seq.wdog

theorem Settles.refl (b : Bank) : Settles b b := ⟨fun p _ => BankPart.same_refl b p, fun _ => EngSt.sameWalk_refl _, rfl, rfl⟩

theorem Settles.trans {a b c : Bank} (h : Settles a b) (k : Settles b c) : Settles a c :=
  ⟨fun p hp => BankPart.same_trans (k.part p hp) (h.part p hp), fun e => EngSt.sameWalk_trans (k.walk e) (h.walk e), k.st.trans h.st,
    k.wdog.trans h.wdog⟩

theorem Settles.setEng (b : Bank) (e : Engine) (x : EngSt) (h : x.sameWalk (b.eng e)) : Settles b (b.setEng e x) where
  part p hp := by cases p <;> simp [BankPart.same, BankPart.late, Bank.entries] at hp ⊢
  walk f := by
    rw [Bank.eng_setEng]
    split
    · next hf => subst hf; exact h
    · exact EngSt.sameWalk_refl _
  st := rfl
  wdog := rfl

/-! ## The primitives -/

theorem Bank.entries_show (b : Bank) (q r : QName) (w : Nat) : (b.show q w).entries r = b.entries r := by
  unfold Bank.entries Bank.show
  by_cases h : r = q
  · subst h
    simp only [Queues.get_set_same, List.map_map]
    congr 1
    funext x
    simp only [Function.comp]
    split <;> rfl
  · simp only [Queues.get_set_ne _ _ h]

/-- The pieces that an effect at retirement may change. -/
def Eff.parts : Eff → List BankPart
  | .sem _ _ => [.sems]
  | .vis _ _ => []
  | .csr _ _ => [.ctl]
  | .ringPop _ _ | .ringFull _ _ _ => [.rings]
  | .td _ _ => [.records]
  | .sreg _ _ => [.sregs]
  | .vreg _ _ => [.vregs]
  | .kreg _ _ => [.kregs]
  | .zreg _ _ => [.zregs]
  | .cbuf _ _ | .staging _ _ => [.bufs]
  | .vector _ _ _ _ => [.streams]
  | .cell _ _ _ | .satBit _ => [.cells]
  | .flags _ _ => [.mflags, .vflags, .tflags]
  | .stat _ _ _ => [.ds, .mflags, .vflags, .tflags]
  | .txDone => [.twork]

theorem Eff.parts_late (x : Eff) (p : BankPart) (h : p ∈ x.parts) : p.late = true := by
  cases x <;> cases p <;> simp [Eff.parts, BankPart.late] at h ⊢

/-- An effect at retirement leaves the pieces it does not name. -/
theorem Bank.apply_part (b : Bank) (pc : Nat) (x : Eff) (p : BankPart) (h : p ∉ x.parts) : BankPart.same (b.apply pc x) b p := by
  cases x with
  | sem n a =>
    simp only [Bank.apply, Bank.semSignal]
    split <;> (cases p <;> simp [BankPart.same, Bank.entries, Eff.parts, Bank.setSem] at h ⊢)
  | vis q w => cases p <;> simp [BankPart.same, Bank.apply, Bank.entries_show]
  | csr n v =>
    simp only [Bank.apply, Bank.csrSet]
    split
    · cases p <;> simp [BankPart.same, Bank.entries, Eff.parts] at h ⊢
    · split
      · cases p <;> simp [BankPart.same, Bank.entries, Eff.parts] at h ⊢
      · split
        · cases p <;> simp [BankPart.same, Bank.entries, Eff.parts] at h ⊢
        · exact BankPart.same_refl b p
  | ringPop g w =>
    simp only [Bank.apply]
    split
    · cases p <;> simp [BankPart.same, Bank.entries, Eff.parts, Bank.setRing] at h ⊢
    · exact BankPart.same_refl b p
  | ringFull g w k =>
    simp only [Bank.apply]
    split
    · cases p <;> simp [BankPart.same, Bank.entries, Eff.parts, Bank.setRing] at h ⊢
    · exact BankPart.same_refl b p
  | sreg n v => simp only [Bank.apply, Bank.setSreg]; split <;> (cases p <;> simp [BankPart.same, Bank.entries, Eff.parts] at h ⊢)
  | kreg n v => simp only [Bank.apply, Bank.setKreg]; split <;> (cases p <;> simp [BankPart.same, Bank.entries, Eff.parts] at h ⊢)
  | vector q id v l =>
    simp only [Bank.apply, Bank.giveVector]
    split
    · exact BankPart.same_refl b p
    · cases p <;> simp [BankPart.same, Bank.entries, Eff.parts, Bank.putQ] at h ⊢
  | flags e f => simp only [Bank.apply]; cases e <;> (cases p <;> simp [BankPart.same, Bank.entries, Eff.parts, Bank.setStatus] at h ⊢)
  | stat e c w =>
    have hf : BankPart.same (b.fill .ds w [(b.status e).zeroExtend 64]) b p := by
      cases p <;> simp [BankPart.same, Bank.entries, Eff.parts, Bank.fill, Queues.get, Queues.set] at h ⊢
    simp only [Bank.apply]
    split
    · refine BankPart.same_trans ?_ hf
      cases e <;> (cases p <;> simp [BankPart.same, Bank.entries, Eff.parts, Bank.setStatus] at h ⊢)
    · exact hf
  | cell s k v => cases p <;> simp [BankPart.same, Bank.entries, Eff.parts, Bank.apply, Bank.setCell] at h ⊢
  | satBit s => cases p <;> simp [BankPart.same, Bank.entries, Eff.parts, Bank.apply, Bank.setSat] at h ⊢
  | _ =>
    cases p <;> simp [BankPart.same, Bank.entries, Eff.parts, Bank.apply, Bank.setVreg, Bank.setZreg, Bank.putBuf, Bank.putStage] at h ⊢

theorem Bank.apply_engs (b : Bank) (pc : Nat) (x : Eff) : (b.apply pc x).engs = b.engs := by
  cases x with
  | sem n a => simp only [Bank.apply, Bank.semSignal]; split <;> simp
  | csr n v => simp only [Bank.apply, Bank.csrSet]; split; rfl; split; rfl; split <;> rfl
  | ringPop g w => simp only [Bank.apply]; split <;> rfl
  | ringFull g w k => simp only [Bank.apply]; split <;> rfl
  | vector q id v l => simp only [Bank.apply, Bank.giveVector]; split <;> rfl
  | stat e c w => simp only [Bank.apply]; split <;> (cases e <;> rfl)
  | flags e f => cases e <;> rfl
  | sreg n v => simp [Bank.apply]
  | kreg n v => simp [Bank.apply]
  | _ => rfl

/-- No effect at retirement but a signal makes a core take a fault. -/
theorem Bank.apply_flt (b : Bank) (pc : Nat) (x : Eff) (h : x.isSem = false) : (b.apply pc x).flt = b.flt := by
  cases x with
  | sem n a => simp [Eff.isSem] at h
  | csr n v => simp only [Bank.apply, Bank.csrSet]; split_ifs <;> rfl
  | ringPop g w => simp only [Bank.apply]; split <;> rfl
  | ringFull g w k => simp only [Bank.apply]; split <;> rfl
  | sreg n v => simp only [Bank.apply, Bank.setSreg]; split <;> rfl
  | kreg n v => simp only [Bank.apply, Bank.setKreg]; split <;> rfl
  | vector q id v l => simp only [Bank.apply, Bank.giveVector]; split <;> rfl
  | flags e f => cases e <;> rfl
  | stat e c w => simp only [Bank.apply]; split <;> (cases e <;> rfl)
  | _ => rfl

/-- An effect at retirement leaves the state of the bank and the watchdog. -/
theorem Bank.apply_st (b : Bank) (pc : Nat) (x : Eff) : (b.apply pc x).st = b.st ∧ (b.apply pc x).seq.wdog = b.seq.wdog := by
  cases x with
  | sem n a => simp only [Bank.apply, Bank.semSignal]; split <;> simp [Bank.setSem]
  | csr n v => simp only [Bank.apply, Bank.csrSet]; split; exact ⟨rfl, rfl⟩; split; exact ⟨rfl, rfl⟩; split <;> exact ⟨rfl, rfl⟩
  | ringPop g w => simp only [Bank.apply]; split <;> exact ⟨rfl, rfl⟩
  | ringFull g w k => simp only [Bank.apply]; split <;> exact ⟨rfl, rfl⟩
  | vector q id v l => simp only [Bank.apply, Bank.giveVector]; split <;> exact ⟨rfl, rfl⟩
  | stat e c w => simp only [Bank.apply]; split <;> (cases e <;> exact ⟨rfl, rfl⟩)
  | flags e f => cases e <;> exact ⟨rfl, rfl⟩
  | sreg n v => simp only [Bank.apply, Bank.setSreg]; split <;> exact ⟨rfl, rfl⟩
  | kreg n v => simp only [Bank.apply, Bank.setKreg]; split <;> exact ⟨rfl, rfl⟩
  | _ => exact ⟨rfl, rfl⟩

/-- An effect at retirement changes late pieces alone. -/
theorem Settles.apply (b : Bank) (pc : Nat) (x : Eff) : Settles b (b.apply pc x) where
  part p hp := b.apply_part pc x p (fun h => by simp [x.parts_late p h] at hp)
  walk e := by unfold Bank.eng; rw [b.apply_engs]; exact EngSt.sameWalk_refl _
  st := (b.apply_st pc x).1
  wdog := (b.apply_st pc x).2

/-- Effects without a signal happen one after the other. -/
theorem Bank.applyAll_foldl (pc : Nat) (l : List Eff) (h : ∀ x ∈ l, x.isSem = false) : ∀ b : Bank, Bank.applyAll pc l b = l.foldl (fun b x => b.apply pc x) b := by
  induction l with
  | nil => intro b; rfl
  | cons x t ih =>
    intro b
    simp only [Bank.applyAll, b.apply_flt pc x (h x (List.mem_cons_self ..)), if_true, List.foldl_cons]
    exact ih (fun y hy => h y (List.mem_cons_of_mem _ hy)) _

theorem Settles.applyAll (pc : Nat) (l : List Eff) : ∀ b, Settles b (Bank.applyAll pc l b) := by
  induction l with
  | nil => exact Settles.refl
  | cons x t ih =>
    intro b
    simp only [Bank.applyAll]
    split
    · exact (Settles.apply b pc x).trans (ih _)
    · exact Settles.apply b pc x

theorem Settles.pushBefore (b : Bank) (e : Engine) (n : Nat) : Settles b (b.pushBefore e n) := Settles.setEng _ _ _ (by simp [EngSt.sameWalk])

theorem Settles.pushAfter (b : Bank) (e : Engine) (n : Nat) : Settles b (b.pushAfter e n) := Settles.setEng _ _ _ (by simp [EngSt.sameWalk])

theorem Settles.foldl {β : Type} (f : Bank → β → Bank) (h : ∀ b x, Settles b (f b x)) (l : List β) : ∀ b, Settles b (l.foldl f b) := by
  induction l with
  | nil => exact Settles.refl
  | cons x t ih => exact fun b => (h b x).trans (ih _)

theorem Settles.flushPend (e : Engine) (l : List (Nat × Nat)) : ∀ hb ha b, Settles b (Bank.flushPend e hb ha l b).1 := by
  induction l with
  | nil => intro hb ha b; exact Settles.refl b
  | cons x t ih =>
    intro hb ha b
    simp only [Bank.flushPend]
    split
    · exact ih ..
    · exact ((Settles.pushBefore ..).trans (Settles.pushAfter ..)).trans (ih ..)

theorem Settles.retireEng (e : Engine) (n : Nat) : ∀ b, Settles b (Bank.retireEng e n b) := by
  induction n with
  | zero => exact Settles.refl
  | succ n ih =>
    intro b
    unfold Bank.retireEng
    split
    · exact Settles.refl b
    · split
      · next r t hr _ =>
        have h : Settles b (Bank.applyAll r.pc r.effs (b.setEng e { b.eng e with rets := t })) :=
          (Settles.setEng _ _ _ (by simp [EngSt.sameWalk])).trans (Settles.applyAll ..)
        dsimp only
        split
        · exact ((h.trans (Settles.pushBefore ..)).trans (Settles.pushAfter ..)).trans (ih _)
        · exact h.trans (Settles.setEng _ _ _ (by simp [EngSt.sameWalk]))
      · exact Settles.refl b

/-- Retirement changes late pieces, tokens and words in flight, and may make the core take a fault: nothing else. -/
theorem Bank.settle_settles (b : Bank) : Settles b b.settle :=
  Settles.foldl _ (fun b e => ((Settles.flushPend e _ false false b).trans (Settles.setEng _ _ _ (by simp [EngSt.sameWalk]))).trans
    (Settles.retireEng e _ _)) _ b

/-! ## The issue of a word -/

/-- A word's issue leaves every piece that retirement leaves. -/
theorem Bank.issued_part (b : Bank) (h : Head) (p : Plain) (q : BankPart) (hq : q.late = false) : BankPart.same (b.issued h p) b q := by
  unfold Bank.issued
  refine BankPart.same_trans ((Bank.settle_settles _).part q hq) ?_
  cases q <;> simp [BankPart.same, Bank.entries]

/-- A word's issue moves its engine's walk on. -/
theorem Bank.issued_self (b : Bank) (h : Head) (p : Plain) :
    ((b.issued h p).eng h.eng).sameWalk ((b.eng h.eng).pass h.ext p.jump) := by
  unfold Bank.issued
  refine EngSt.sameWalk_trans ((Bank.settle_settles _).walk h.eng) ?_
  have : (({ b.setEng h.eng ((((b.eng h.eng).popTokens h.dep).await h p).pass h.ext p.jump) with seq := { b.seq with wdog := 0 } } : Bank).eng h.eng)
      = (((b.eng h.eng).popTokens h.dep).await h p).pass h.ext p.jump := Bank.eng_setEng_same b h.eng _
  simp only [Bank.setEng_seq] at *
  rw [this]
  simp [EngSt.sameWalk, EngSt.pass, EngSt.await, EngSt.popTokens]

/-- The other engines stay where they are. -/
theorem Bank.issued_other (b : Bank) (h : Head) (p : Plain) (e : Engine) (he : e ≠ h.eng) : ((b.issued h p).eng e).sameWalk (b.eng e) := by
  unfold Bank.issued
  refine EngSt.sameWalk_trans ((Bank.settle_settles _).walk e) ?_
  have : (({ b.setEng h.eng ((((b.eng h.eng).popTokens h.dep).await h p).pass h.ext p.jump) with seq := { b.seq with wdog := 0 } } : Bank).eng e)
      = b.eng e := Bank.eng_setEng_ne b _ he
  simp only [Bank.setEng_seq] at *
  rw [this]
  exact EngSt.sameWalk_refl _

@[simp] theorem Bank.issued_st (b : Bank) (h : Head) (p : Plain) : (b.issued h p).st = b.st := (Bank.settle_settles _).st

/-! ## With no earlier word in flight -/

/-- An engine put back as it is. -/
theorem Bank.setEng_self (b : Bank) (e : Engine) : b.setEng e (b.eng e) = b := by cases e <;> rfl

/-- With no signal waiting, settling an engine is retiring its words. -/
theorem Bank.settleEng_calm (b : Bank) (e : Engine) (h : (b.eng e).pend = []) :
    b.settleEng e = Bank.retireEng e (b.eng e).rets.length b := by
  have k : b.setEng e { b.eng e with pend := [] } = b := by
    rw [show ({ b.eng e with pend := [] } : EngSt) = b.eng e by rw [← h]]; exact b.setEng_self e
  simp only [Bank.settleEng, h, Bank.flushPend, k]

theorem Bank.retireEng_nil (e : Engine) (n : Nat) (b : Bank) (h : (b.eng e).rets = []) : Bank.retireEng e n b = b := by
  cases n with
  | zero => rfl
  | succ n => unfold Bank.retireEng; rw [h]

/-- An engine with nothing in flight settles to itself. -/
theorem Bank.settleEng_nil (b : Bank) (e : Engine) (h : (b.eng e).rets = []) (k : (b.eng e).pend = []) : b.settleEng e = b := by
  rw [b.settleEng_calm e k, Bank.retireEng_nil e _ b h]

theorem Bank.applyAll_engs (pc : Nat) (l : List Eff) : ∀ b : Bank, (Bank.applyAll pc l b).engs = b.engs := by
  induction l with
  | nil => intro b; rfl
  | cons x t ih =>
    intro b
    simp only [Bank.applyAll]
    split
    · rw [ih, Bank.apply_engs]
    · exact Bank.apply_engs ..

theorem Bank.pushBefore_inflight (b : Bank) (e f : Engine) (n : Nat) :
    ((b.pushBefore e n).eng f).rets = (b.eng f).rets ∧ ((b.pushBefore e n).eng f).pend = (b.eng f).pend := by
  unfold Bank.pushBefore
  rw [Bank.eng_setEng]
  split
  · next h => subst h; exact ⟨rfl, rfl⟩
  · exact ⟨rfl, rfl⟩

theorem Bank.pushAfter_inflight (b : Bank) (e f : Engine) (n : Nat) :
    ((b.pushAfter e n).eng f).rets = (b.eng f).rets ∧ ((b.pushAfter e n).eng f).pend = (b.eng f).pend := by
  unfold Bank.pushAfter
  rw [Bank.eng_setEng]
  split
  · next h => subst h; exact ⟨rfl, rfl⟩
  · exact ⟨rfl, rfl⟩

/-- Retirement of one engine leaves what the others have in flight. -/
theorem Bank.retireEng_other (e f : Engine) (hf : f ≠ e) (n : Nat) : ∀ b : Bank,
    ((Bank.retireEng e n b).eng f).rets = (b.eng f).rets ∧ ((Bank.retireEng e n b).eng f).pend = (b.eng f).pend := by
  induction n with
  | zero => intro b; exact ⟨rfl, rfl⟩
  | succ n ih =>
    intro b
    unfold Bank.retireEng
    split
    · exact ⟨rfl, rfl⟩
    · next r t hr =>
      split
      · have key : ∀ c : Bank, (∀ g, (Bank.applyAll r.pc r.effs c).eng g = c.eng g) := by
          intro c g; unfold Bank.eng; rw [Bank.applyAll_engs]
        dsimp only
        split
        · rw [(ih _).1, (ih _).2, (Bank.pushAfter_inflight ..).1, (Bank.pushAfter_inflight ..).2, (Bank.pushBefore_inflight ..).1,
            (Bank.pushBefore_inflight ..).2, key, Bank.eng_setEng_ne _ _ hf]
          exact ⟨rfl, rfl⟩
        · rw [Bank.eng_setEng_ne _ _ hf, key, Bank.eng_setEng_ne _ _ hf]
          exact ⟨rfl, rfl⟩
      · exact ⟨rfl, rfl⟩

theorem Bank.settle_foldl_nil (l : List Engine) : ∀ b : Bank, (∀ f ∈ l, (b.eng f).rets = [] ∧ (b.eng f).pend = []) → l.foldl Bank.settleEng b = b := by
  induction l with
  | nil => intro b _; rfl
  | cons f t ih =>
    intro b h
    have hf := h f (List.mem_cons_self ..)
    rw [List.foldl_cons, b.settleEng_nil f hf.1 hf.2]
    exact ih b (fun g hg => h g (List.mem_cons_of_mem _ hg))

/-- Where only one engine has words in flight, settling is the retirement of its words. -/
theorem Bank.settle_one (b : Bank) (e : Engine) (hp : (b.eng e).pend = []) (h : ∀ f, f ≠ e → (b.eng f).rets = [] ∧ (b.eng f).pend = []) :
    b.settle = Bank.retireEng e (b.eng e).rets.length b := by
  have hs := b.settleEng_calm e hp
  have go : ∀ l l' : List Engine, (∀ f ∈ l, f ≠ e) → (∀ f ∈ l', f ≠ e) → (l ++ e :: l').foldl Bank.settleEng b = Bank.retireEng e (b.eng e).rets.length b := by
    intro l l' hl hl'
    rw [List.foldl_append, Bank.settle_foldl_nil l b (fun f hf => h f (hl f hf)), List.foldl_cons, hs]
    refine Bank.settle_foldl_nil l' _ (fun f hf => ?_)
    rw [(Bank.retireEng_other e f (hl' f hf) _ _).1, (Bank.retireEng_other e f (hl' f hf) _ _).2]
    exact h f (hl' f hf)
  unfold Bank.settle allEngines
  cases e
  · exact go [] [.A, .M, .V, .T, .F] (by simp) (by simp)
  · exact go [.S] [.M, .V, .T, .F] (by simp) (by simp)
  · exact go [.S, .A] [.V, .T, .F] (by simp) (by simp)
  · exact go [.S, .A, .M] [.T, .F] (by simp) (by simp)
  · exact go [.S, .A, .M, .V] [.F] (by simp) (by simp)
  · exact go [.S, .A, .M, .V, .T] [] (by simp) (by simp)

/-- The one word in flight retires at once if it waits for nothing, what it pops is FULL and its signals fit: its effects happen, and unless one of them
faults its signals are pushed. -/
theorem Bank.retireEng_one (e : Engine) (b : Bank) (r : Ret) (hr : (b.eng e).rets = [r]) :
    Bank.retireEng e 1 b = if r.waits.isEmpty && b.canPop r.effs && b.roomBefore e r.sp && b.roomAfter e r.sn then
      let c := Bank.applyAll r.pc r.effs (b.setEng e { b.eng e with rets := [] })
      if c.flt = b.flt then (c.pushBefore e r.sp).pushAfter e r.sn else c.setEng e { c.eng e with rets := [] }
      else b := by
  simp only [Bank.retireEng, hr]

/-- The word that issues with nothing else in flight. -/
theorem Bank.issued_calm (b : Bank) (h : Head) (p : Plain) (hc : b.calm) :
    b.issued h p = Bank.retireEng h.eng 1
      { b.setEng h.eng ((((b.eng h.eng).popTokens h.dep).await h p).pass h.ext p.jump) with seq := { b.seq with wdog := 0 } } := by
  have he : ∀ f, (({ b.setEng h.eng ((((b.eng h.eng).popTokens h.dep).await h p).pass h.ext p.jump) with seq := { b.seq with wdog := 0 } } : Bank).eng f)
      = (b.setEng h.eng ((((b.eng h.eng).popTokens h.dep).await h p).pass h.ext p.jump)).eng f := fun f => rfl
  unfold Bank.issued
  simp only [Bank.setEng_seq]
  rw [Bank.settle_one _ h.eng]
  · rw [he, Bank.eng_setEng_same]
    simp [EngSt.pass, EngSt.await, EngSt.popTokens, (hc h.eng).1]
  · rw [he, Bank.eng_setEng_same]
    simp [EngSt.pass, EngSt.await, EngSt.popTokens, (hc h.eng).2]
  · intro f hf
    rw [he, Bank.eng_setEng_ne _ _ hf]
    exact hc f

/-- Effects leave the pieces that none of them names. -/
theorem Bank.applyAll_part (pc : Nat) (l : List Eff) (p : BankPart) (h : ∀ x ∈ l, p ∉ x.parts) : ∀ b : Bank, BankPart.same (Bank.applyAll pc l b) b p := by
  induction l with
  | nil => intro b; exact BankPart.same_refl b p
  | cons x t ih =>
    intro b
    have h1 := b.apply_part pc x p (h x (List.mem_cons_self ..))
    simp only [Bank.applyAll]
    split
    · exact BankPart.same_trans (ih (fun y hy => h y (List.mem_cons_of_mem _ hy)) _) h1
    · exact h1

/-- A change of tokens, words in flight and the watchdog touches no piece. -/
theorem Bank.setEng_part (b : Bank) (e : Engine) (x : EngSt) (p : BankPart) : BankPart.same (b.setEng e x) b p := by
  cases p <;> simp [BankPart.same, Bank.entries]

/-- The retirement of one word leaves the pieces that none of its effects names. -/
theorem Bank.retireEng_part (b : Bank) (e : Engine) (r : Ret) (hr : (b.eng e).rets = [r]) (q : BankPart) (he : ∀ x ∈ r.effs, q ∉ x.parts) :
    BankPart.same (Bank.retireEng e 1 b) b q := by
  have k : BankPart.same (Bank.applyAll r.pc r.effs (b.setEng e { b.eng e with rets := [] })) b q :=
    BankPart.same_trans (Bank.applyAll_part _ _ q he _) (Bank.setEng_part ..)
  rw [Bank.retireEng_one _ _ _ hr]
  generalize Bank.applyAll r.pc r.effs (b.setEng e { b.eng e with rets := [] }) = c at k ⊢
  dsimp only
  split_ifs
  · exact BankPart.same_trans (Bank.setEng_part ..) (BankPart.same_trans (Bank.setEng_part ..) k)
  · exact BankPart.same_trans (Bank.setEng_part ..) k
  · exact BankPart.same_refl b q

/-- A piece that no effect of a word names stays at its issue, if nothing else is in flight. -/
theorem Bank.issued_late (b : Bank) (h : Head) (p : Plain) (hc : b.calm) (q : BankPart) (he : ∀ x ∈ p.effs, q ∉ x.parts) :
    BankPart.same (b.issued h p) b q := by
  rw [Bank.issued_calm b h p hc]
  refine BankPart.same_trans (Bank.retireEng_part _ h.eng ⟨(b.eng h.eng).walk, (b.eng h.eng).pc, if p.async then 0 else h.dep.sp,
    if p.async then 0 else h.dep.sn, p.waits, p.effs, p.writes⟩ ?_ q he) ?_
  · show ((b.setEng h.eng _).eng h.eng).rets = _
    rw [Bank.eng_setEng_same]
    simp [EngSt.pass, EngSt.await, EngSt.popTokens, (hc h.eng).1]
  · cases q <;> simp [BankPart.same, Bank.entries]

/-- What a word's issue leaves: every piece but the late ones, and of these, if no earlier word was in flight, those that none of its effects names. -/
theorem Bank.issued_frame (b : Bank) (h : Head) (p : Plain) (q : BankPart) (hq : q.late = true → b.calm ∧ ∀ x ∈ p.effs, q ∉ x.parts) :
    BankPart.same (b.issued h p) b q := by
  cases hl : q.late with
  | false => exact Bank.issued_part b h p q hl
  | true => exact Bank.issued_late b h p (hq hl).1 q (hq hl).2

/-! ## Effects at retirement, with no earlier word in flight -/

/-- Two banks agree on every piece. -/
def AllSame (b c : Bank) : Prop := ∀ q, BankPart.same b c q

theorem AllSame.refl (b : Bank) : AllSame b b := BankPart.same_refl b

theorem AllSame.trans {a b c : Bank} (h : AllSame a b) (k : AllSame b c) : AllSame a c := fun q => BankPart.same_trans (h q) (k q)

theorem AllSame.symm {a b : Bank} (h : AllSame a b) : AllSame b a := fun q => BankPart.same_symm (h q)

theorem AllSame.takeFault (b : Bank) (c : FCode) (pc d : Nat) : AllSame (b.takeFault c pc d) b := by
  intro q; cases q <;> simp [BankPart.same, Bank.entries]

/-- The entries of a queue, their values put. -/
def fillEntries (walk : Nat) : List (Nat × Reg64) → List Reg64 → List (Nat × Reg64)
  | [], _ => []
  | x :: t, vs =>
    if x.1 = walk then
      match vs with
      | v :: vs => (x.1, v) :: fillEntries walk t vs
      | [] => x :: t
    else x :: fillEntries walk t vs

theorem qFill_entries (w : Nat) (l : List QEnt) : ∀ vs, (qFill w l vs).map (fun x => (x.walk, x.val)) = fillEntries w (l.map (fun x => (x.walk, x.val))) vs := by
  induction l with
  | nil => intro vs; rfl
  | cons x t ih =>
    intro vs
    simp only [qFill, fillEntries, List.map_cons]
    split
    · cases vs with
      | nil => rfl
      | cons v vs => simp [ih]
    · simp [ih]

theorem Bank.entries_fill (b : Bank) (q : QName) (w : Nat) (l : List Reg64) : (b.fill q w l).entries q = fillEntries w (b.entries q) l := by
  simp [Bank.entries, Bank.fill, qFill_entries]

/-- The pieces that decide what an effect does agree: it acts alike. -/
theorem AllSame.apply {b c : Bank} (h : AllSame b c) (hf : b.flt = c.flt) (pc : Nat) (x : Eff) :
    AllSame (b.apply pc x) (c.apply pc x) ∧ (b.apply pc x).flt = (c.apply pc x).flt := by
  have hring : ∀ g w, b.ringAt g w = c.ringAt g w := fun g w => by unfold Bank.ringAt; rw [show b.car.rings = c.car.rings from h .rings]
  have other : ∀ q, q ∉ x.parts → BankPart.same (b.apply pc x) (c.apply pc x) q := fun q hq =>
    BankPart.same_trans (b.apply_part pc x q hq) (BankPart.same_trans (h q) (BankPart.same_symm (c.apply_part pc x q hq)))
  have hsem : b.seq.sem = c.seq.sem := h .sems
  have hhdr : b.hdr = c.hdr := (h .own).2.2.1
  have hm : b.mx.flags = c.mx.flags := h .mflags
  have hv : b.vec.flags = c.vec.flags := h .vflags
  have ht : b.tx.flags = c.tx.flags := h .tflags
  have hst : ∀ e, b.status e = c.status e := fun e => by cases e <;> simp [Bank.status, hm, hv, ht]
  have only : ∀ p : BankPart, x.parts = [p] → BankPart.same (b.apply pc x) (c.apply pc x) p → AllSame (b.apply pc x) (c.apply pc x) := by
    intro p hp hs q
    by_cases hq : q ∈ x.parts
    · rw [hp, List.mem_singleton] at hq; subst hq; exact hs
    · exact other q hq
  cases x with
  | sem n a =>
    have h1 : b.semCeil n = c.semCeil n := by unfold Bank.semCeil; rw [hhdr]
    have h2 : b.semCount n = c.semCount n := by unfold Bank.semCount; rw [hsem]
    refine ⟨only .sems rfl ?_, ?_⟩ <;> simp only [Bank.apply, Bank.semSignal, h1, h2] <;> split
    · simp [BankPart.same, hsem]
    · simp [BankPart.same, Bank.setSem, hsem]
    · unfold Bank.takeFault; rw [hf]; split
      · exact hf
      · rfl
    · exact hf
  | vis q w => exact ⟨fun p => other p (by simp [Eff.parts]), hf⟩
  | csr n v =>
    have h1 := h .ctl
    simp only [BankPart.same] at h1
    refine ⟨only .ctl rfl ?_, ?_⟩ <;> simp only [Bank.apply, Bank.csrSet, BankPart.same] <;> split_ifs <;>
      first | exact hf | simp [h1]
  | ringPop g w =>
    refine ⟨only .rings rfl ?_, ?_⟩ <;> simp only [Bank.apply, hring g w, BankPart.same] <;> split <;>
      first | exact hf | exact h .rings | simp [Bank.setRing, show b.car.rings = c.car.rings from h .rings]
  | ringFull g w k =>
    refine ⟨only .rings rfl ?_, ?_⟩ <;> simp only [Bank.apply, hring g w, BankPart.same] <;> split <;>
      first | exact hf | exact h .rings | simp [Bank.setRing, show b.car.rings = c.car.rings from h .rings]
  | td i v => exact ⟨only .records rfl (by simp [BankPart.same, Bank.apply, show b.acc.td = c.acc.td from h .records]), hf⟩
  | sreg n v =>
    refine ⟨only .sregs rfl ?_, ?_⟩ <;> simp only [Bank.apply, Bank.setSreg, BankPart.same] <;> split <;>
      first | exact hf | exact h .sregs | simp [show b.seq.s = c.seq.s from h .sregs]
  | vreg n v => exact ⟨only .vregs rfl (by simp [BankPart.same, Bank.apply, Bank.setVreg, show b.vec.v = c.vec.v from h .vregs]), hf⟩
  | kreg n v =>
    refine ⟨only .kregs rfl ?_, ?_⟩ <;> simp only [Bank.apply, Bank.setKreg, BankPart.same] <;> split <;>
      first | exact hf | exact h .kregs | simp [show b.vec.k = c.vec.k from h .kregs]
  | zreg n v => exact ⟨only .zregs rfl (by simp [BankPart.same, Bank.apply, Bank.setZreg, show b.vec.z = c.vec.z from h .zregs]), hf⟩
  | cbuf n v =>
    have hb := h .bufs
    simp only [BankPart.same] at hb
    exact ⟨only .bufs rfl (by simp [BankPart.same, Bank.apply, Bank.putBuf, hb]), hf⟩
  | staging n v =>
    have hb := h .bufs
    simp only [BankPart.same] at hb
    exact ⟨only .bufs rfl (by simp [BankPart.same, Bank.apply, Bank.putStage, hb]), hf⟩
  | vector q id v l =>
    have hq : b.acc.q = c.acc.q := h .streams
    have ha := h .accesses
    simp only [BankPart.same] at ha
    refine ⟨only .streams rfl ?_, ?_⟩ <;> simp only [Bank.apply, Bank.giveVector, hq, ha.2.1, ha.2.2.1, BankPart.same] <;> split <;>
      first | exact hf | exact hq | simp [Bank.putQ, hq]
  | cell s k v =>
    have hb := h .cells
    simp only [BankPart.same] at hb
    exact ⟨only .cells rfl (by simp [BankPart.same, Bank.apply, Bank.setCell, hb]), hf⟩
  | satBit s =>
    have hb := h .cells
    simp only [BankPart.same] at hb
    exact ⟨only .cells rfl (by simp [BankPart.same, Bank.apply, Bank.setSat, hb]), hf⟩
  | flags e f =>
    refine ⟨fun p => ?_, ?_⟩
    · by_cases hp : p ∈ (Eff.flags e f).parts
      · cases p <;> simp [Eff.parts] at hp <;> cases e <;> simp [BankPart.same, Bank.apply, Bank.setStatus, hst, hm, hv, ht]
      · exact other p hp
    · cases e <;> exact hf
  | stat e k w =>
    have hd : b.entries .ds = c.entries .ds := h .ds
    refine ⟨fun p => ?_, ?_⟩
    · by_cases hp : p ∈ (Eff.stat e k w).parts
      · have he : ∀ (b : Bank) f, (b.setStatus e f).entries .ds = b.entries .ds := fun b f => by cases e <;> rfl
        cases p <;> simp [Eff.parts] at hp <;> simp only [Bank.apply, BankPart.same] <;> split <;>
          first | (simp [he, Bank.entries_fill, hd, hst]; done) | (cases e <;> simp [Bank.setStatus, hm, hv, ht])
      · exact other p hp
    · simp only [Bank.apply]; split <;> cases e <;> exact hf
  | txDone => exact ⟨only .twork rfl rfl, hf⟩

/-- Effects act alike on banks that agree. -/
theorem AllSame.applyAll (pc : Nat) (l : List Eff) : ∀ {b c : Bank}, AllSame b c → b.flt = c.flt →
    AllSame (Bank.applyAll pc l b) (Bank.applyAll pc l c) ∧ (Bank.applyAll pc l b).flt = (Bank.applyAll pc l c).flt := by
  induction l with
  | nil => exact fun h hf => ⟨h, hf⟩
  | cons x t ih =>
    intro b c h hf
    have k := h.apply hf pc x
    simp only [Bank.applyAll, k.2, hf]
    split
    · exact ih k.1 k.2
    · exact k

/-- A word that issues with nothing else in flight, waits for nothing, pops FULL slots and whose signals fit has its effects at once. -/
theorem Bank.issued_effs (b : Bank) (h : Head) (p : Plain) (hc : b.calm) (hw : p.waits = []) (ha : p.async = false) (hp : b.canPop p.effs = true)
    (h1 : b.roomBefore h.eng h.dep.sp = true) (h2 : b.roomAfter h.eng h.dep.sn = true) :
    AllSame (b.issued h p) (Bank.applyAll (b.eng h.eng).pc p.effs b) := by
  rw [Bank.issued_calm b h p hc]
  generalize hb : ({ b.setEng h.eng ((((b.eng h.eng).popTokens h.dep).await h p).pass h.ext p.jump) with seq := { b.seq with wdog := 0 } } : Bank) = c
  have hr : (c.eng h.eng).rets = [⟨(b.eng h.eng).walk, (b.eng h.eng).pc, h.dep.sp, h.dep.sn, [], p.effs, p.writes⟩] := by
    subst hb
    show ((b.setEng h.eng _).eng h.eng).rets = _
    rw [Bank.eng_setEng_same]
    simp [EngSt.pass, EngSt.await, EngSt.popTokens, (hc h.eng).1, hw, ha]
  have hne : ∀ f, f ≠ h.eng → c.eng f = b.eng f := by
    intro f hf; subst hb; exact Bank.eng_setEng_ne b _ hf
  rw [Bank.retireEng_one _ _ _ hr]
  have k1 : c.roomBefore h.eng h.dep.sp = true := by
    unfold Bank.roomBefore at *; rw [hne _ (by cases h.eng <;> decide)]; exact h1
  have k2 : c.roomAfter h.eng h.dep.sn = true := by
    unfold Bank.roomAfter at *; rw [hne _ (by cases h.eng <;> decide)]; exact h2
  have k3 : c.canPop p.effs = true := by subst hb; exact hp
  simp only [List.isEmpty_nil, k1, k2, k3, Bool.and_self, if_true]
  have hcb : AllSame (c.setEng h.eng { c.eng h.eng with rets := [] }) b := fun q => by
    subst hb
    cases q <;> simp [BankPart.same, Bank.entries]
  have hk := AllSame.applyAll (b.eng h.eng).pc p.effs hcb (by subst hb; rfl)
  generalize Bank.applyAll (b.eng h.eng).pc p.effs (c.setEng h.eng { c.eng h.eng with rets := [] }) = d at hk ⊢
  split_ifs
  · exact fun q => BankPart.same_trans (Bank.setEng_part ..) (BankPart.same_trans (Bank.setEng_part ..) (hk.1 q))
  · exact fun q => BankPart.same_trans (Bank.setEng_part ..) (hk.1 q)

end Sys2Proof.Machine
end

