-- ==== Sys2Proof/Laws/Issue.lean ====
section
/-!
SUPPORT. The issue of a word over the whole state (02 R41, R42, R51): what taking a fault leaves, and one lemma that gives the completion of a word of
a bank from what it does at issue.
-/

namespace Sys2Proof.Machine

/-! ## Cores mapped -/

theorem spGet_map (d : Core) (m : Sparse Core) (f : Nat × Core → Core) (c : Nat) (hd : ∀ i, f (i, d) = d) :
    spGet d (m.map (fun p => (p.1, f p))) c = f (c, spGet d m c) := by
  induction m with
  | nil => simp [spGet, hd]
  | cons p t ih =>
    obtain ⟨k, v⟩ := p
    by_cases h : k = c
    · subst h; simp [spGet]
    · simp [spGet, h, ih]

@[simp] theorem Bank.stopRun_empty (id : Nat) : ({} : Bank).stopRun id = {} := rfl

theorem core_stopLaunch (s : State) (id c : Nat) :
    (s.stopLaunch id).core c = { s.core c with b0 := (s.core c).b0.stopRun id, b1 := (s.core c).b1.stopRun id } := by
  simp only [State.core, State.stopLaunch]
  exact spGet_map {} s.cores (fun p => { p.2 with b0 := p.2.b0.stopRun id, b1 := p.2.b1.stopRun id }) c (fun _ => rfl)

theorem bank_stopLaunch (s : State) (id : Nat) (l : Loc) : (s.stopLaunch id).bank l = (s.bank l).stopRun id := by
  simp only [State.bank, core_stopLaunch, Core.bank]
  split <;> rfl

theorem Bank.stopRun_rest (b : Bank) (id : Nat) : { b.stopRun id with st := b.st } = b := by
  unfold Bank.stopRun; split <;> rfl

/-! ## Taking a fault -/

/-- A bank that has taken no fault ends nothing. -/
theorem noteFault_none (s : State) (l : Loc) (h : (s.bank l).flt = none) : s.noteFault l = s := by
  unfold State.noteFault; rw [h]

/-- Of the banks, taking a fault changes only their states. -/
theorem bank_noteFault (s : State) (l m : Loc) : { (s.noteFault l).bank m with st := (s.bank m).st } = s.bank m := by
  unfold State.noteFault
  split
  · split
    · rfl
    · rw [bank_stopLaunch]; exact Bank.stopRun_rest _ _
  · rfl

theorem bank_noteFault_of {α : Type} (f : Bank → α) (hf : ∀ b x, f { b with st := x } = f b) (s : State) (l m : Loc) :
    f ((s.noteFault l).bank m) = f (s.bank m) :=
  (hf _ (s.bank m).st).symm.trans (congrArg f (bank_noteFault s l m))

theorem core_noteFault (s : State) (l : Loc) (c : Nat) :
    ((s.noteFault l).core c).run = (s.core c).run ∧ ((s.noteFault l).core c).tlb = (s.core c).tlb ∧ ((s.noteFault l).core c).plat = (s.core c).plat := by
  unfold State.noteFault
  split
  · split
    · exact ⟨rfl, rfl, rfl⟩
    · rw [core_stopLaunch]; exact ⟨rfl, rfl, rfl⟩
  · exact ⟨rfl, rfl, rfl⟩

theorem noteFault_fields (s : State) (l : Loc) : ∃ ls cs, s.noteFault l = { s with launches := ls, cores := cs } := by
  unfold State.noteFault
  split
  · split
    · exact ⟨_, s.cores, rfl⟩
    · exact ⟨_, _, rfl⟩
  · exact ⟨s.launches, s.cores, rfl⟩

@[simp] theorem noteFault_mem (s : State) (l : Loc) : (s.noteFault l).mem = s.mem := by obtain ⟨_, _, h⟩ := noteFault_fields s l; rw [h]
@[simp] theorem noteFault_cur (s : State) (l : Loc) : (s.noteFault l).cur = s.cur := by obtain ⟨_, _, h⟩ := noteFault_fields s l; rw [h]

theorem BankPart.same_st (b c : Bank) (x : BankSt) (p : BankPart) : BankPart.same { b with st := x } c p ↔ BankPart.same b c p := by
  cases p <;> simp [BankPart.same, Bank.entries]

theorem here_noteFault_part (s : State) (c : Bank) (p : BankPart) (h : BankPart.same s.here c p) :
    BankPart.same (s.noteFault s.cur.loc).here c p := by
  have : { (s.noteFault s.cur.loc).bank s.cur.loc with st := (s.bank s.cur.loc).st } = s.bank s.cur.loc := bank_noteFault s s.cur.loc s.cur.loc
  unfold State.here at *
  rw [noteFault_cur, ← BankPart.same_st _ _ (s.bank s.cur.loc).st, this]
  exact h

theorem here_noteFault_eng (s : State) (e : Engine) : (s.noteFault s.cur.loc).here.eng e = s.here.eng e := by
  unfold State.here
  rw [noteFault_cur]
  exact bank_noteFault_of (fun b => b.eng e) (fun _ _ => rfl) _ _ _

/-! ## The issue of a word over a changed bank -/

/-- A change of the bank that has the turn, with a fault of it taken, keeps the rest of the package. -/
theorem kept_setBank (s : State) (b : Bank) (hs : b.st = s.here.st) : Kept s ((s.setBank s.cur.loc b).noteFault s.cur.loc) := by
  obtain ⟨ls, cs, h⟩ := noteFault_fields (s.setBank s.cur.loc b) s.cur.loc
  have hcur : ((s.setBank s.cur.loc b).noteFault s.cur.loc).cur = s.cur := by simp
  refine ⟨by rw [h]; rfl, by rw [h]; rfl, by rw [h]; rfl, by rw [h]; rfl, by rw [h]; rfl, by rw [h]; rfl, by rw [h]; rfl, by rw [h]; rfl,
    by rw [h]; rfl, by rw [h]; rfl, by rw [h]; rfl, by rw [h]; rfl, by rw [h]; rfl, by rw [h]; rfl, by rw [h]; rfl, by rw [h]; rfl,
    by rw [h]; rfl, by rw [h]; rfl, by rw [h]; rfl, by rw [h]; rfl, by rw [h]; rfl, ?_, ?_, ?_⟩
  · intro c
    have h1 := core_noteFault (s.setBank s.cur.loc b) s.cur.loc c
    have h2 := core_setBank_rest s s.cur.loc b c
    exact ⟨h1.1.trans h2.1, h1.2.1.trans h2.2.1, h1.2.2.trans h2.2.2⟩
  · intro l hl
    have := bank_noteFault (s.setBank s.cur.loc b) s.cur.loc l
    rw [bank_setBank_ne _ _ hl] at this
    exact this
  · intro hf
    have hb : (s.setBank s.cur.loc b).noteFault s.cur.loc = s.setBank s.cur.loc b := by
      apply noteFault_none
      unfold State.here at hf
      rw [hcur, bank_noteFault_of (fun b => b.flt) (fun _ _ => rfl)] at hf
      exact hf
    rw [hb]
    refine ⟨rfl, fun l => ?_⟩
    by_cases hl : l = s.cur.loc
    · subst hl; rw [bank_setBank_same]; exact hs
    · rw [bank_setBank_ne _ _ hl]

/-- Issuing over a replaced bank. -/
theorem issue_setBank (s : State) (b : Bank) (i : Instr) (p : Plain) :
    (s.setBank s.cur.loc b).issue i p = (s.setBank s.cur.loc (b.issued (Instr.hd i) p)).noteFault s.cur.loc := by
  unfold State.issue
  rw [setBank_cur, here_setBank, setBank_setBank]

/-- A ready word of a bank issues as its meaning says. -/
theorem bankWord_ok (i : Instr) (s : State) (f : Bank → Res Bank) (b : Bank) (p : Plain) (hr : Ready i s) (hf : f s.here = .ok b p) :
    bankWord i s f = .next ((s.setBank s.cur.loc b).issue i p) := by
  rw [issue_setBank]
  unfold bankWord Bank.tryIssue
  rw [hr.1, hr.2, hf]
  rfl

/-- What issues over a bank in which a word's own effects have been made completes the word. -/
theorem does_issue (i : Instr) (s : State) (ex : List BankPart) (R : State → Prop) (b : Bank) (p : Plain)
    (hx : exec i s = .next ((s.setBank s.cur.loc b).issue i p)) (hj : p.jump = none) (hst : b.st = s.here.st)
    (hw : ∀ e, (b.eng e).sameWalk (s.here.eng e)) (hc : s.here.calm → b.calm)
    (hp : ∀ q, q ∉ ex → BankPart.same b s.here q) (he : ∀ x ∈ p.effs, ∀ q ∈ x.parts, q ∈ ex)
    (hR : ∀ t, t = (s.setBank s.cur.loc b).issue i p → t.cur = s.cur →
      (∀ q : BankPart, (q.late = true → b.calm ∧ ∀ x ∈ p.effs, q ∉ x.parts) → BankPart.same t.here b q) → R t) : Does i s ex R := by
  rw [issue_setBank] at hx
  refine ⟨_, hx, ?_, ⟨kept_setBank s _ ((Bank.issued_st ..).trans hst), ?_⟩, ⟨?_, ?_, ?_⟩, ?_⟩
  · refine hR _ (issue_setBank ..).symm (by simp) (fun q hq => ?_)
    exact here_noteFault_part (s.setBank s.cur.loc _) b q (by rw [show (s.setBank s.cur.loc (b.issued (Instr.hd i) p)).here = b.issued (Instr.hd i) p from here_setBank s _]; exact Bank.issued_frame _ _ _ _ hq)
  · intro q hq hl
    refine here_noteFault_part (s.setBank s.cur.loc _) s.here q ?_
    rw [show (s.setBank s.cur.loc (b.issued (Instr.hd i) p)).here = b.issued (Instr.hd i) p from here_setBank s _]
    exact BankPart.same_trans (Bank.issued_frame _ _ _ q (fun h => ⟨hc (hl h), fun x hx hm => hq (he x hx q hm)⟩)) (hp q hq)
  all_goals
    have hh : ∀ e, (((s.setBank s.cur.loc (b.issued (Instr.hd i) p)).noteFault s.cur.loc).here).eng e = (b.issued (Instr.hd i) p).eng e := fun e => by
      have := here_noteFault_eng (s.setBank s.cur.loc (b.issued (Instr.hd i) p)) e
      rw [show (s.setBank s.cur.loc (b.issued (Instr.hd i) p)).here = b.issued (Instr.hd i) p from here_setBank s _] at this
      exact this
    have hs := Bank.issued_self b (Instr.hd i) p
    have hb := hw (Instr.hd i).eng
    simp only [EngSt.sameWalk, EngSt.pass, hj, Option.getD_none] at hs hb
  · rw [hh]; simp only [Option.getD_none]; rw [hs.1, hb.1]
  · rw [hh, hs.2.1, hb.2.1]
  · intro f hf; rw [hh]; exact EngSt.sameWalk_trans (Bank.issued_other b _ p f hf) (hw f)
  · unfold SameLoops
    rw [hh]
    simp only [EngSt.sameWalk]
    obtain ⟨_, _, h3, h4, h5, h6, h7, h8, h9⟩ := hs
    obtain ⟨_, _, k3, k4, k5, k6, k7, k8, k9⟩ := hb
    exact ⟨trivial, trivial, h3.trans k3, h4.trans k4, h5.trans k5, h6.trans k6, h7.trans k7, h8.trans k8, h9.trans k9⟩

/-- Every piece of a bank. -/
def allParts : List BankPart :=
  [.sregs, .aregs, .vregs, .kregs, .zregs, .bufs, .cells, .mregs, .mbinds, .window, .tplans, .twork, .aflags, .mflags, .vflags, .tflags, .fflags,
    .share, .accesses, .streams, .parked, .fabric, .counters, .copies, .own, .ds, .da, .dv, .dt, .cq, .sems, .ctl, .rings, .records]

theorem mem_allParts (p : BankPart) : p ∈ allParts := by cases p <;> decide

/-- A word that issues with nothing else in flight and whose signals fit completes with its effects at retirement. -/
theorem does_calm (i : Instr) (s : State) (ex : List BankPart) (R : State → Prop) (b : Bank) (p : Plain)
    (hx : exec i s = .next ((s.setBank s.cur.loc b).issue i p)) (hj : p.jump = none) (hst : b.st = s.here.st)
    (hw : ∀ e, b.eng e = s.here.eng e) (hc : s.here.calm) (hpw : p.waits = []) (hpa : p.async = false) (hpp : b.canPop p.effs = true) (hfit : Fits i s.here)
    (hp : ∀ q, q ∉ ex → BankPart.same (b.applyAll (s.here.eng (Instr.hd i).eng).pc p.effs) s.here q)
    (hR : ∀ t, t.cur = s.cur → AllSame t.here (b.applyAll (s.here.eng (Instr.hd i).eng).pc p.effs) → R t) : Does i s ex R := by
  have hcb : b.calm := fun e => by rw [hw]; exact hc e
  have hall := Bank.issued_effs b (Instr.hd i) p hcb hpw hpa hpp
    (by have := hfit.1; unfold Bank.roomBefore at *; rw [hw]; exact this) (by have := hfit.2; unfold Bank.roomAfter at *; rw [hw]; exact this)
  rw [hw] at hall
  obtain ⟨t, ht, ht', hk, hm, hl⟩ := does_issue i s allParts (fun t => t = (s.setBank s.cur.loc b).issue i p) b p hx hj hst
    (fun e => by rw [hw]; exact EngSt.sameWalk_refl _) (fun _ => hcb) (fun q hq => absurd (mem_allParts q) hq) (fun _ _ q _ => mem_allParts q)
    (fun _ h _ _ => h)
  have hts : AllSame t.here (b.applyAll (s.here.eng (Instr.hd i).eng).pc p.effs) := by
    rw [ht', issue_setBank]
    refine fun q => here_noteFault_part (s.setBank s.cur.loc _) _ q ?_
    rw [show (s.setBank s.cur.loc (b.issued (Instr.hd i) p)).here = b.issued (Instr.hd i) p from here_setBank s _]
    exact hall q
  exact ⟨t, ht, hR t (by rw [ht']; unfold State.issue; simp) hts, ⟨hk.1, fun q hq _ => BankPart.same_trans (hts q) (hp q hq)⟩, hm, hl⟩

/-! ## The fault that retirement may take -/

/-- The bank has taken no fault but one of a semaphore's ceiling. -/
def Bank.onlyCeil (b : Bank) : Prop := ∀ f, b.flt = some f → f.code = .semCeil

theorem Bank.onlyCeil_of_flt {b c : Bank} (h : c.onlyCeil) (e : b.flt = c.flt) : b.onlyCeil := fun f hf => h f (e ▸ hf)

theorem Bank.apply_onlyCeil (b : Bank) (pc : Nat) (x : Eff) (h : b.onlyCeil) : (b.apply pc x).onlyCeil := by
  cases hx : x.isSem with
  | false => exact Bank.onlyCeil_of_flt h (b.apply_flt pc x hx)
  | true =>
    cases x with
    | sem n a =>
      simp only [Bank.apply, Bank.semSignal]
      split
      · unfold Bank.takeFault
        split
        · exact h
        · intro f hf; injection hf with hf; subst hf; rfl
      · exact h
    | _ => simp [Eff.isSem] at hx

theorem Bank.applyAll_onlyCeil (pc : Nat) (l : List Eff) : ∀ b : Bank, b.onlyCeil → (Bank.applyAll pc l b).onlyCeil := by
  induction l with
  | nil => intro b h; exact h
  | cons x t ih =>
    intro b h
    simp only [Bank.applyAll]
    split
    · exact ih _ (b.apply_onlyCeil pc x h)
    · exact b.apply_onlyCeil pc x h

theorem Bank.retireEng_onlyCeil (e : Engine) (n : Nat) : ∀ b : Bank, b.onlyCeil → (Bank.retireEng e n b).onlyCeil := by
  induction n with
  | zero => intro b h; exact h
  | succ n ih =>
    intro b h
    unfold Bank.retireEng
    split
    · exact h
    · split
      · dsimp only
        split
        · exact ih _ (Bank.applyAll_onlyCeil _ _ _ h)
        · exact Bank.applyAll_onlyCeil _ _ _ h
      · exact h

theorem Bank.flushPend_flt (e : Engine) (l : List (Nat × Nat)) : ∀ hb ha (b : Bank), (Bank.flushPend e hb ha l b).1.flt = b.flt := by
  induction l with
  | nil => intros; rfl
  | cons x t ih =>
    intro hb ha b
    simp only [Bank.flushPend]
    split
    · exact ih ..
    · rw [ih]; rfl

theorem Bank.settle_onlyCeil (b : Bank) (h : b.onlyCeil) : b.settle.onlyCeil := by
  have hs : ∀ b : Bank, b.onlyCeil → ∀ e, (b.settleEng e).onlyCeil := fun b h e =>
    Bank.retireEng_onlyCeil e _ _ (Bank.onlyCeil_of_flt h (Bank.flushPend_flt e _ false false b))
  have : ∀ (l : List Engine) (b : Bank), b.onlyCeil → (l.foldl Bank.settleEng b).onlyCeil := by
    intro l
    induction l with
    | nil => intro b h; exact h
    | cons e t ih => intro b h; exact ih _ (hs b h e)
  exact this _ b h

/-- The issue of a word makes its core take no fault but `F_SEM_CEIL`. -/
theorem Bank.issued_onlyCeil (b : Bank) (h : Head) (p : Plain) (hb : b.flt = none) : (b.issued h p).onlyCeil :=
  Bank.settle_onlyCeil _ (fun f hf => by simp [hb] at hf)

theorem issue_flt (s : State) (b : Bank) (i : Instr) (p : Plain) :
    (((s.setBank s.cur.loc b).issue i p).bank s.cur.loc).flt = (b.issued (Instr.hd i) p).flt := by
  rw [issue_setBank, bank_noteFault_of (fun b => b.flt) (fun _ _ => rfl), bank_setBank_same]

/-- A word that issues logs no memory error. -/
theorem eccNote_issue (s : State) (b : Bank) (i : Instr) (p : Plain) (hb : b.flt = none) :
    eccNote s.cur.loc s (.next ((s.setBank s.cur.loc b).issue i p)) = .next ((s.setBank s.cur.loc b).issue i p) := by
  unfold eccNote
  simp only
  split
  · next f h1 h2 =>
    rw [issue_flt] at h2
    have := Bank.issued_onlyCeil b (Instr.hd i) p hb f h2
    rw [this]; rfl
  · rfl

theorem Ready.flt {i : Instr} {s : State} (h : Ready i s) : s.here.flt = none := by
  have := h.1
  simp only [Bank.live, Bool.and_eq_true, Option.isNone_iff_eq_none] at this
  exact this.1.2

/-- In a turn that only issues, a word's answer stands. -/
theorem eagerly_issue (f : State → Loc → State) (s : State) (b : Bank) (i : Instr) (p : Plain) (he : s.cur.eager = false) :
    eagerly f (.next ((s.setBank s.cur.loc b).issue i p)) = .next ((s.setBank s.cur.loc b).issue i p) := by
  have hc : ((s.setBank s.cur.loc b).issue i p).cur.eager = false := by rw [issue_setBank, noteFault_cur]; exact he
  simp [eagerly, hc]

/-- A ready word of T issues as its meaning says, in a turn that only issues. -/
theorem txWord_ok (i : Instr) (s : State) (f : Bank → Res Bank) (b : Bank) (p : Plain) (hr : Ready i s) (he : s.cur.eager = false)
    (hT : s.here.engs.T.rets = []) (hA : Instr.namesRing i = true → s.here.engs.T.walk ≤ s.here.engs.A.walk)
    (hf : f s.here = .ok b p) (hb : b.flt = none) : txWord i s f = .next ((s.setBank s.cur.loc b).issue i p) := by
  have hA' : (Instr.namesRing i && decide (s.here.engs.A.walk < s.here.engs.T.walk)) = false := by
    cases h : Instr.namesRing i with
    | false => rfl
    | true => simp [hA h]
  unfold txWord
  rw [bankWord_ok i s _ b p hr (by simp [hT, hA', hf]), eagerly_issue _ _ _ _ _ he, eccNote_issue s b i p hb]

/-- The head of M's window stays in it: no word there touches no slot, or one is under way. -/
theorem Bank.runRegs_stay (n : Nat) (b : Bank) (h : b.mx.run.isSome ∨ b.mx.win.head?.all (fun w => !w.instant) = true) : b.runRegs n = b := by
  cases n with
  | zero => rfl
  | succ n =>
    unfold Bank.runRegs
    split
    · next w t hr hw =>
      rcases h with h | h
      · simp [hr] at h
      · simp only [hw, List.head?_cons, Option.all_some, Bool.not_eq_true'] at h
        simp [h]
    · rfl

/-! ## Completion as agreement with a bank -/

/-- With nothing else in flight, a word that has something to wait for leaves every piece as its effects at issue left it. -/
theorem Bank.issued_wait (b : Bank) (h : Head) (p : Plain) (hc : b.calm) (hw : p.waits ≠ []) : AllSame (b.issued h p) b := by
  rw [Bank.issued_calm b h p hc, Bank.retireEng_one h.eng _ ⟨(b.eng h.eng).walk, (b.eng h.eng).pc, if p.async then 0 else h.dep.sp, if p.async then 0 else h.dep.sn,
    p.waits, p.effs, p.writes⟩ (by
      rw [show (({ b.setEng h.eng ((((b.eng h.eng).popTokens h.dep).await h p).pass h.ext p.jump) with seq := { b.seq with wdog := 0 } } : Bank).eng h.eng)
        = (((b.eng h.eng).popTokens h.dep).await h p).pass h.ext p.jump from Bank.eng_setEng_same b _ _]
      simp [EngSt.pass, EngSt.await, EngSt.popTokens, (hc h.eng).1])]
  have : p.waits.isEmpty = false := by cases h' : p.waits with | nil => exact absurd h' hw | cons _ _ => rfl
  simp only [this, Bool.false_and]
  intro q
  cases q <;> simp [BankPart.same, Bank.entries]

/-- Issue over a changed bank of a changed package gives that bank, with the word's effects at retirement. -/
theorem gives_issue (i : Instr) (s u : State) (b c : Bank) (p : Plain) (hx : exec i s = .next ((u.setBank u.cur.loc c).issue i p)) (hj : p.jump = none)
    (hst : c.st = u.here.st) (hw : ∀ e, c.eng e = s.here.eng e) (hb : ∀ q : BankPart, q.late = false → BankPart.same c b q)
    (hl : s.here.calm → Fits i s.here → ∀ q : BankPart, q.late = true →
      ((∀ x ∈ p.effs, q ∉ x.parts) ∧ BankPart.same c b q) ∨ (p.waits ≠ [] ∧ BankPart.same c b q)
      ∨ (p.waits = [] ∧ p.async = false ∧ c.canPop p.effs = true ∧ BankPart.same (c.applyAll (s.here.eng (Instr.hd i).eng).pc p.effs) b q)) :
    Gives i s u b := by
  rw [issue_setBank] at hx
  have hh : ((u.setBank u.cur.loc (c.issued (Instr.hd i) p)).here) = c.issued (Instr.hd i) p := here_setBank u _
  have hcalm : s.here.calm → c.calm := fun h e => by rw [hw]; exact h e
  have he : ∀ e, (((u.setBank u.cur.loc (c.issued (Instr.hd i) p)).noteFault u.cur.loc).here).eng e = (c.issued (Instr.hd i) p).eng e := fun e => by
    have := here_noteFault_eng (u.setBank u.cur.loc (c.issued (Instr.hd i) p)) e
    rw [hh] at this
    exact this
  refine ⟨_, hx, kept_setBank u _ ((Bank.issued_st ..).trans hst), fun q hq => ?_, ⟨?_, ?_, ?_⟩, ?_⟩
  · refine here_noteFault_part (u.setBank u.cur.loc _) b q ?_
    rw [hh]
    by_cases hlate : q.late = true
    · obtain ⟨hc, hf⟩ := hq hlate
      rcases hl hc hf q hlate with ⟨hv, h⟩ | ⟨hv, h⟩ | ⟨h1, h2, h3, h⟩
      · exact BankPart.same_trans (Bank.issued_late c _ p (hcalm hc) q hv) h
      · exact BankPart.same_trans (Bank.issued_wait c _ p (hcalm hc) hv q) h
      · have := Bank.issued_effs c (Instr.hd i) p (hcalm hc) h1 h2 h3
          (by have := hf.1; unfold Bank.roomBefore at *; rw [hw]; exact this) (by have := hf.2; unfold Bank.roomAfter at *; rw [hw]; exact this) q
        rw [hw] at this
        exact BankPart.same_trans this h
    · have hlate : q.late = false := by simpa using hlate
      exact BankPart.same_trans (Bank.issued_part c _ p q hlate) (hb q hlate)
  all_goals
    have hs := Bank.issued_self c (Instr.hd i) p
    rw [hw] at hs
    simp only [EngSt.sameWalk, EngSt.pass, hj, Option.getD_none] at hs
  · rw [he]; exact hs.1
  · rw [he]; exact hs.2.1
  · intro f hf; rw [he]; have := Bank.issued_other c _ p f hf; rw [hw] at this; exact this
  · unfold SameLoops; rw [he]; simp only [EngSt.sameWalk]; obtain ⟨_, _, h3⟩ := hs; exact ⟨trivial, trivial, h3⟩

/-- Issue over a bank, of a word whose only effects at retirement are that entries become visible. -/
theorem gives_vis (i : Instr) (s u : State) (b : Bank) (p : Plain) (hx : exec i s = .next ((u.setBank u.cur.loc b).issue i p)) (hj : p.jump = none)
    (hst : b.st = u.here.st) (hw : ∀ e, b.eng e = s.here.eng e) (he : ∀ x ∈ p.effs, x.parts = []) : Gives i s u b :=
  gives_issue i s u b b p hx hj hst hw (fun q _ => BankPart.same_refl b q) (fun _ _ q _ => .inl ⟨fun x hx => by simp [he x hx], BankPart.same_refl b q⟩)

/-- Issue over a bank, of a word that has something to wait for before it retires. -/
theorem gives_wait (i : Instr) (s u : State) (b : Bank) (p : Plain) (hx : exec i s = .next ((u.setBank u.cur.loc b).issue i p)) (hj : p.jump = none)
    (hst : b.st = u.here.st) (hw : ∀ e, b.eng e = s.here.eng e) (he : p.waits ≠ []) : Gives i s u b :=
  gives_issue i s u b b p hx hj hst hw (fun q _ => BankPart.same_refl b q) (fun _ _ q _ => .inr (.inl ⟨he, BankPart.same_refl b q⟩))

/-- Issue over a bank, of a word whose effects come as it retires. -/
theorem gives_effs (i : Instr) (s u : State) (c : Bank) (p : Plain) (hx : exec i s = .next ((u.setBank u.cur.loc c).issue i p)) (hj : p.jump = none)
    (hst : c.st = u.here.st) (hw : ∀ e, c.eng e = s.here.eng e) (h1 : p.waits = []) (h2 : p.async = false)
    (h3 : c.canPop p.effs = true) : Gives i s u (c.applyAll (s.here.eng (Instr.hd i).eng).pc p.effs) := by
  refine gives_issue i s u _ c p hx hj hst hw (fun q hq => BankPart.same_symm ?_) (fun _ _ q _ => .inr (.inr ⟨h1, h2, h3, BankPart.same_refl _ q⟩))
  exact (Settles.applyAll _ _ c).part q hq

end Sys2Proof.Machine
end

