-- ==== Sys2Proof/Laws/Registers.lean ====
section
/-!
SUPPORT. Register files and queues as claims speak of them: what a write of each leaves, and completion lemmas for words that write one register or one
queue.
-/

namespace Sys2Proof.Machine

/-! ## Queues (04 R102) -/

theorem Bank.entries_reserve (b : Bank) (q : QName) (w : Nat) (v : Reg64) : (b.reserve q w v).entries q = entered (b.entries q) w v := by
  unfold Bank.entries Bank.reserve entered
  simp only [Queues.get_set_same]
  induction b.queues.get q with
  | nil => rfl
  | cons x t ih =>
    by_cases h : x.walk ≤ w
    · simp [qInsert, h, ih]
    · simp [qInsert, h]

theorem Bank.entries_reserve_ne (b : Bank) {q r : QName} (w : Nat) (v : Reg64) (h : r ≠ q) : (b.reserve q w v).entries r = b.entries r := by
  unfold Bank.entries Bank.reserve
  simp only [Queues.get_set_ne _ _ h]

theorem Bank.entries_drop (b : Bank) (q : QName) : (b.drop q).entries q = (b.entries q).drop 1 := by
  unfold Bank.entries Bank.drop
  simp

theorem Bank.entries_drop_ne (b : Bank) {q r : QName} (h : r ≠ q) : (b.drop q).entries r = b.entries r := by
  unfold Bank.entries Bank.drop
  simp only [Queues.get_set_ne _ _ h]

/-- An effect that only shows a queue entry. -/
def Eff.isVis : Eff → Bool
  | .vis _ _ => true
  | _ => false

/-- The piece that a queue is. -/
def QName.part : QName → BankPart
  | .ds => .ds | .da => .da | .dv => .dv | .dt => .dt | .cq => .cq

theorem entries_of_part {t b : Bank} {q : QName} (h : BankPart.same t b q.part) : t.entries q = b.entries q := by cases q <;> exact h

theorem reserve_part (b : Bank) (q : QName) (w : Nat) (v : Reg64) (p : BankPart) (h : p ≠ q.part) : BankPart.same (b.reserve q w v) b p := by
  cases p <;> cases q <;> first | exact absurd rfl h | exact Bank.entries_reserve_ne _ _ _ (by decide) | simp [BankPart.same]

theorem drop_part (b : Bank) (q : QName) (p : BankPart) (h : p ≠ q.part) : BankPart.same (b.drop q) b p := by
  cases p <;> cases q <;> first | exact absurd rfl h | exact Bank.entries_drop_ne _ (by decide) | simp [BankPart.same]

@[simp] theorem Bank.reserve_eng (b : Bank) (q : QName) (w : Nat) (v : Reg64) (e : Engine) : (b.reserve q w v).eng e = b.eng e := rfl
@[simp] theorem Bank.drop_eng (b : Bank) (q : QName) (e : Engine) : (b.drop q).eng e = b.eng e := rfl

/-! ## Registers of S -/

theorem setSreg_part (b : Bank) (n : SReg) (v : Reg64) (q : BankPart) (h : q ≠ .sregs) : BankPart.same (b.setSreg n v) b q := by
  unfold Bank.setSreg
  split
  · exact BankPart.same_refl b q
  · cases q <;> simp [BankPart.same, Bank.entries] at h ⊢

@[simp] theorem Bank.setSreg_eng (b : Bank) (n : SReg) (v : Reg64) (e : Engine) : (b.setSreg n v).eng e = b.eng e := by
  unfold Bank.eng; rw [Bank.setSreg_engs]

theorem sreg_of_part {t b : Bank} (h : BankPart.same t b .sregs) (r : SReg) : t.sreg r = b.sreg r := by
  unfold Bank.sreg; rw [show t.seq.s = b.seq.s from h]

/-- A word of S that writes a register as it retires and otherwise changes a bank in named pieces completes. -/
theorem setsS_of (i : Instr) (s : State) (ex : List BankPart) (R : State → Prop) (d : SReg) (v : Reg64) (b : Bank) (p : Plain) (l : List Eff)
    (hx : exec i s = .next ((s.setBank s.cur.loc b).issue i p)) (hj : p.jump = none) (hpw : p.waits = []) (hpa : p.async = false)
    (he : p.effs = .sreg d v :: l) (hl : ∀ x ∈ l, x.isVis = true) (hst : b.st = s.here.st) (hw : ∀ e, b.eng e = s.here.eng e)
    (hs : BankPart.same b s.here .sregs) (hp : ∀ q, q ∉ ex → BankPart.same b s.here q)
    (hR : ∀ t, t.cur = s.cur → (∀ q : BankPart, q.late = false → BankPart.same t.here b q) → R t) : SetsS i s ex d v R := by
  have hvis : ∀ x ∈ l, x.parts = [] ∧ x.isSem = false := fun x hx => by have := hl x hx; cases x <;> simp [Eff.isVis, Eff.parts, Eff.isSem] at this ⊢
  refine does_issue i s _ _ b p hx hj hst (fun e => by rw [hw]; exact EngSt.sameWalk_refl _) (fun h e => by rw [hw]; exact h e)
    (fun q hq => hp q (fun h => hq (List.mem_cons_of_mem _ h))) (fun x hx q hq => ?_)
    (fun t ht htc hq => ⟨fun hc hf r => ?_, hR t htc (fun q hn => hq q (by simp [hn]))⟩)
  · rw [he, List.mem_cons] at hx
    rcases hx with rfl | hx
    · simp only [Eff.parts, List.mem_singleton] at hq; subst hq; exact List.mem_cons_self ..
    · rw [(hvis x hx).1] at hq; simp at hq
  · have hcb : b.calm := fun e => by rw [hw]; exact hc e
    have hpop : b.canPop p.effs = true := by
      unfold Bank.canPop
      rw [List.all_eq_true]
      intro x hx
      rw [he, List.mem_cons] at hx
      rcases hx with rfl | hx
      · rfl
      · have := hl x hx; cases x <;> simp [Eff.isVis] at this ⊢
    have hall := Bank.issued_effs b (Instr.hd i) p hcb hpw hpa hpop
      (by have := hf.1; unfold Bank.roomBefore at *; rw [hw]; exact this) (by have := hf.2; unfold Bank.roomAfter at *; rw [hw]; exact this) .sregs
    have hre : BankPart.same (b.applyAll (b.eng (Instr.hd i).eng).pc p.effs) (b.setSreg d v) .sregs := by
      rw [he]
      have h1 : (Bank.apply b (b.eng (Instr.hd i).eng).pc (.sreg d v)).flt = b.flt := b.apply_flt _ _ rfl
      simp only [Bank.applyAll, h1, if_true]
      exact Bank.applyAll_part _ l .sregs (fun x hx => by rw [(hvis x hx).1]; simp) _
    have ht' : BankPart.same t.here (b.issued (Instr.hd i) p) .sregs := by
      rw [ht, issue_setBank]
      refine here_noteFault_part (s.setBank s.cur.loc _) _ _ ?_
      rw [show (s.setBank s.cur.loc (b.issued (Instr.hd i) p)).here = b.issued (Instr.hd i) p from here_setBank s _]
      exact BankPart.same_refl ..
    rw [sreg_of_part (BankPart.same_trans ht' (BankPart.same_trans hall hre)), Bank.sreg_setSreg, sreg_of_part hs]

end Sys2Proof.Machine
end

