-- ==== Sys2Proof/Laws/Flow.lean ====
section
/-!
SUPPORT. Flow words (02 R56; 04 R109 to R115): what S leaves that issues one, and what another engine leaves that observes one.
-/

namespace Sys2Proof.Machine

/-- A flow word that issues over a bank in which its own effects have been made. -/
theorem flows_issue (i : Instr) (s : State) (ex : List BankPart) (g : Engine → EngSt) (R : State → Prop) (b : Bank) (p : Plain)
    (hx : exec i s = .next ((s.setBank s.cur.loc b).issue i p)) (hst : b.st = s.here.st)
    (hself : ((b.eng (Instr.hd i).eng).pass (Instr.hd i).ext p.jump).sameWalk (g (Instr.hd i).eng))
    (hoth : ∀ f, f ≠ (Instr.hd i).eng → (b.eng f).sameWalk (g f)) (hc : s.here.calm → b.calm)
    (hp : ∀ q, q ∉ ex → BankPart.same b s.here q) (he : p.effs.all Eff.isVis = true)
    (hR : ∀ t, t.cur = s.cur → (∀ q : BankPart, q.late = false → BankPart.same t.here b q) → R t) : Flows i s ex g R := by
  rw [issue_setBank] at hx
  have hh : ∀ e, (((s.setBank s.cur.loc (b.issued (Instr.hd i) p)).noteFault s.cur.loc).here).eng e = (b.issued (Instr.hd i) p).eng e := fun e => by
    have := here_noteFault_eng (s.setBank s.cur.loc (b.issued (Instr.hd i) p)) e
    rw [show (s.setBank s.cur.loc (b.issued (Instr.hd i) p)).here = b.issued (Instr.hd i) p from here_setBank s _] at this
    exact this
  have hpart : ∀ q, (q.late = true → b.calm) → BankPart.same ((s.setBank s.cur.loc (b.issued (Instr.hd i) p)).noteFault s.cur.loc).here b q := by
    intro q hq
    refine here_noteFault_part (s.setBank s.cur.loc _) b q ?_
    rw [show (s.setBank s.cur.loc (b.issued (Instr.hd i) p)).here = b.issued (Instr.hd i) p from here_setBank s _]
    exact Bank.issued_frame _ _ _ q (fun h => ⟨hq h, fun x hx => by
      have := List.all_eq_true.1 he x hx
      cases x <;> simp [Eff.isVis, Eff.parts] at this ⊢⟩)
  refine ⟨_, hx, hR _ (by simp) (fun q hq => hpart q (by simp [hq])), ⟨kept_setBank s _ ((Bank.issued_st ..).trans hst), fun q hq hl => ?_⟩, fun e => ?_⟩
  · exact BankPart.same_trans (hpart q (fun h => hc (hl h))) (hp q hq)
  · rw [hh]
    by_cases h : e = (Instr.hd i).eng
    · subst h; exact EngSt.sameWalk_trans (Bank.issued_self b _ p) hself
    · exact EngSt.sameWalk_trans (Bank.issued_other b _ p e h) (hoth e h)

/-- A flow word that S meets. -/
theorem flowWord_S (i : Instr) (s : State) (f : Engine → Bank → Res Bank) (b : Bank) (p : Plain) (he : s.cur.eng = .S) (hm : Meets i s)
    (hf : f .S s.here = .ok b p) : flowWord i s f = .next ((s.setBank s.cur.loc b).issue i p) := by
  unfold flowWord
  rw [if_pos he]
  unfold Meets at hm
  rw [if_pos he] at hm
  exact bankWord_ok i s _ b p hm hf

/-- A flow word that another engine observes: it moves on past it. -/
theorem flows_observe (i : Instr) (s : State) (f : Engine → Bank → Res Bank) (ex : List BankPart) (g : Engine → EngSt) (R : State → Prop) (b : Bank) (p : Plain)
    (hx : exec i s = flowWord i s f) (he : s.cur.eng ≠ .S) (hm : Meets i s) (hf : f s.cur.eng s.here = .ok b p) (hst : b.st = s.here.st)
    (hself : ((b.eng s.cur.eng).pass (Instr.hd i).ext p.jump).sameWalk (g s.cur.eng)) (hoth : ∀ f, f ≠ s.cur.eng → (b.eng f).sameWalk (g f))
    (hp : ∀ q, q ∉ ex → BankPart.same b s.here q)
    (hR : ∀ t, t.cur = s.cur → AllSame t.here b → R t) : Flows i s ex g R := by
  unfold Meets at hm
  rw [if_neg he] at hm
  have hp' : (s.cur.eng == .A && s.here.acc.park.isSome) = false := by
    by_cases h : s.cur.eng = .A
    · simp [hm.2 h]
    · cases hh : s.cur.eng <;> simp_all
  let c : Bank := { b.setEng s.cur.eng ((b.eng s.cur.eng).pass (Instr.hd i).ext p.jump) with seq := { b.seq with wdog := 0 } }
  have hx' : exec i s = .next ((s.setBank s.cur.loc c).noteFault s.cur.loc) := by
    rw [hx]
    unfold flowWord Bank.tryObserve
    rw [if_neg he, hf, hm.1, hp']
    rfl
  have hcp : AllSame c b := fun q => by cases q <;> simp [BankPart.same, Bank.entries, c]
  have htp : ∀ q, BankPart.same ((s.setBank s.cur.loc c).noteFault s.cur.loc).here b q := by
    intro q
    refine here_noteFault_part (s.setBank s.cur.loc c) b q ?_
    rw [show (s.setBank s.cur.loc c).here = c from here_setBank s _]
    exact hcp q
  refine ⟨_, hx', hR _ (by simp) htp, ⟨kept_setBank s _ hst, fun q hq _ => BankPart.same_trans (htp q) (hp q hq)⟩, fun e => ?_⟩
  have h1 := here_noteFault_eng (s.setBank s.cur.loc c) e
  rw [show (s.setBank s.cur.loc c).here = c from here_setBank s _] at h1
  rw [show ((s.setBank s.cur.loc c).noteFault s.cur.loc).here.eng e = c.eng e from h1]
  by_cases h : e = s.cur.eng
  · subst h
    rw [show c.eng s.cur.eng = (b.eng s.cur.eng).pass (Instr.hd i).ext p.jump from Bank.eng_setEng_same b _ _]
    exact hself
  · rw [show c.eng e = b.eng e from Bank.eng_setEng_ne b _ h]
    exact hoth e h

/-- Each engine's queue of outcomes gets the value that S publishes. -/
theorem Bank.boqPush_eng (b : Bank) (v : Reg64) (idx : List Reg64) (f : Engine) :
    (b.boqPush v idx).eng f = if f = .S then b.eng .S else { b.eng f with boq := (b.eng f).boq ++ [⟨v, if f = .A then idx else []⟩] } := by
  cases f <;> rfl

theorem Bank.boqPush_part (b : Bank) (v : Reg64) (idx : List Reg64) : AllSame (b.boqPush v idx) b := by
  intro q; cases q <;> simp [BankPart.same, Bank.entries, Bank.boqPush, boqEngines]

@[simp] theorem Bank.boqPush_st (b : Bank) (v : Reg64) (idx : List Reg64) : (b.boqPush v idx).st = b.st := rfl

theorem Bank.boqPush_calm (b : Bank) (v : Reg64) (idx : List Reg64) (h : b.calm) : (b.boqPush v idx).calm := by
  intro e
  rw [Bank.boqPush_eng]
  split
  · exact h .S
  · exact h e

end Sys2Proof.Machine
end

