-- ==== Sys2Proof/Laws/Memory.lean ====
section
/-!
SUPPORT. What a write of memory and an event in the log can do, and that every write of memory keeps its canonical form.
-/

namespace Sys2Proof.Machine

/-- A fold of bank writes changes the banks of the cores and nothing else. -/
theorem foldBanks_rest {α : Type} (l : List α) (g : α → Loc) (f : State → α → Bank) :
    ∀ s : State, ∃ c, l.foldl (fun s w => s.setBank (g w) (f s w)) s = { s with cores := c } := by
  induction l with
  | nil => intro s; exact ⟨s.cores, rfl⟩
  | cons w t ih =>
    intro s
    obtain ⟨c, h⟩ := ih (s.setBank (g w) (f s w))
    exact ⟨c, h⟩

/-- Ending watches changes banks and the list of watches, and nothing else. -/
theorem endWatches_rest (s : State) (pa n : Nat) : ∃ c w, s.endWatches pa n = { s with cores := c, watches := w } := by
  obtain ⟨c, h⟩ := foldBanks_rest (s.watches.filter
    (fun w => match w.g with | .pa g => decide (g < pa + n) && decide (pa < g + 64) | .sp0 _ _ => false))
    (·.l) (fun s w => (s.bank w.l).endPark 1) s
  exact ⟨c, _, congrArg (fun u : State => { u with watches := s.watches.filter (fun w => !(match w.g with
    | .pa g => decide (g < pa + n) && decide (pa < g + 64) | .sp0 _ _ => false)) }) h⟩

@[simp] theorem endWatches_mem (s : State) (pa n : Nat) : (s.endWatches pa n).mem = s.mem := by
  obtain ⟨c, w, h⟩ := endWatches_rest s pa n; rw [h]
@[simp] theorem endWatches_bad (s : State) (pa n : Nat) : (s.endWatches pa n).bad = s.bad := by
  obtain ⟨c, w, h⟩ := endWatches_rest s pa n; rw [h]
@[simp] theorem endWatches_net (s : State) (pa n : Nat) : (s.endWatches pa n).net = s.net := by
  obtain ⟨c, w, h⟩ := endWatches_rest s pa n; rw [h]
@[simp] theorem endWatches_regs (s : State) (pa n : Nat) : (s.endWatches pa n).regs = s.regs := by
  obtain ⟨c, w, h⟩ := endWatches_rest s pa n; rw [h]
@[simp] theorem endWatches_launches (s : State) (pa n : Nat) : (s.endWatches pa n).launches = s.launches := by
  obtain ⟨c, w, h⟩ := endWatches_rest s pa n; rw [h]
@[simp] theorem endWatches_dtime (s : State) (pa n : Nat) : (s.endWatches pa n).dtime = s.dtime := by
  obtain ⟨c, w, h⟩ := endWatches_rest s pa n; rw [h]
@[simp] theorem endWatches_part (s : State) (pa n : Nat) : (s.endWatches pa n).part = s.part := by
  obtain ⟨c, w, h⟩ := endWatches_rest s pa n; rw [h]

@[simp] theorem writePa_mem (s : State) (pa : Nat) (d : List Byte) : (s.writePa pa d).mem = spPutN 0 s.mem pa d := by simp [State.writePa]
@[simp] theorem writePa_net (s : State) (pa : Nat) (d : List Byte) : (s.writePa pa d).net = s.net := by simp [State.writePa]
@[simp] theorem writePa_regs (s : State) (pa : Nat) (d : List Byte) : (s.writePa pa d).regs = s.regs := by simp [State.writePa]
@[simp] theorem writePa_launches (s : State) (pa : Nat) (d : List Byte) : (s.writePa pa d).launches = s.launches := by simp [State.writePa]
@[simp] theorem writePa_dtime (s : State) (pa : Nat) (d : List Byte) : (s.writePa pa d).dtime = s.dtime := by simp [State.writePa]
@[simp] theorem writePa_part (s : State) (pa : Nat) (d : List Byte) : (s.writePa pa d).part = s.part := by simp [State.writePa]

/-- A byte read after a write that does not cover it. -/
theorem writePa_out (s : State) (pa a : Nat) (d : List Byte) (h : a < pa ∨ pa + d.length ≤ a) : spGet 0 (s.writePa pa d).mem a = spGet 0 s.mem a := by
  rw [writePa_mem]; exact spGet_spPutN_out 0 d s.mem pa a h

/-- A byte read after a write that covers it. -/
theorem writePa_in (s : State) (pa k : Nat) (d : List Byte) (h : k < d.length) : spGet 0 (s.writePa pa d).mem (pa + k) = d.getD k 0 := by
  rw [writePa_mem]; exact spGet_spPutN_in 0 d s.mem pa k h

/-- A read of what was written. -/
theorem readPa_writePa (s : State) (pa : Nat) (d : List Byte) : (s.writePa pa d).readPa pa d.length = d := by
  simp only [State.readPa, writePa_mem]; exact spGetN_spPutN 0 d s.mem pa

/-! ## The canonical form -/

theorem writePa_wf (s : State) (pa : Nat) (d : List Byte) (h : Memory.wf s.mem = true) : Memory.wf (s.writePa pa d).mem = true := by
  rw [writePa_mem]; exact spWf_spPutN 0 d s.mem pa h

theorem writePl_wf (s : State) (p : Place) (d : List Byte) (h : Memory.wf s.mem = true) : Memory.wf (s.writePl p d).mem = true := by
  cases p with
  | sp0 l o => exact h
  | pa a => exact writePa_wf s a d h

theorem writeRngs_wf (r : List Rng) : ∀ (s : State) (d : List Byte), Memory.wf s.mem = true → Memory.wf (s.writeRngs r d).mem = true := by
  induction r with
  | nil => intro s d h; exact h
  | cons x t ih => intro s d h; exact ih _ _ (writePl_wf s x.pl _ h)

theorem logEvent_wf (s : State) (c : EvCode) (die port detail : Nat) (h : Memory.wf s.mem = true) :
    Memory.wf (s.logEvent c die port detail).mem = true := by
  simp only [State.logEvent]
  split
  · exact h
  · split
    · exact h
    · exact writePa_wf _ _ _ h

/-! ## An event -/

@[simp] theorem logEvent_net (s : State) (c : EvCode) (die port detail : Nat) : (s.logEvent c die port detail).net = s.net := by
  simp only [State.logEvent]; split <;> [skip; split] <;> simp

@[simp] theorem logEvent_launches (s : State) (c : EvCode) (die port detail : Nat) : (s.logEvent c die port detail).launches = s.launches := by
  simp only [State.logEvent]; split <;> [skip; split] <;> simp

@[simp] theorem logEvent_dtime (s : State) (c : EvCode) (die port detail : Nat) : (s.logEvent c die port detail).dtime = s.dtime := by
  simp only [State.logEvent]; split <;> [skip; split] <;> simp

@[simp] theorem logEvent_part (s : State) (c : EvCode) (die port detail : Nat) : (s.logEvent c die port detail).part = s.part := by
  simp only [State.logEvent]; split <;> [skip; split] <;> simp

/-- An event is either written at the head of the log or counted as lost (15 R496). -/
theorem logEvent_counted (s : State) (c : EvCode) (die port detail : Nat) :
    (s.logEvent c die port detail).regs.ev.head + (s.logEvent c die port detail).regs.ev.lost = s.regs.ev.head + s.regs.ev.lost + 1 := by
  simp only [State.logEvent]; split <;> [skip; split] <;> simp <;> omega

end Sys2Proof.Machine
end

