-- ==== Sys2Proof/Laws/PerInstr.lean ====
section
/-!
SUPPORT. What holds of every instruction as syntax, one lemma per constructor.
-/

namespace Sys2Proof.Laws

open Sys2Proof

/-- The words of an encoded word: its head and as many extension words as it has; none for an event (02 R48). -/
def WordCount.Statement (i : Instr) : Prop :=
  (encode i).length = match i.head with
    | some h => 1 + h.ext
    | none => 0

/-- An encoded word has its head and one word per payload. -/
theorem assemble_length (tag op : Nat) (m : Dep) (o : Nat) (p : List Nat) (n : Nat) (h : p.length = n) (h3 : n ≤ 3) :
    (assemble tag op m o p).length = 1 + n := by
  simp [assemble, h, Nat.add_comm 1]; omega

theorem assemble_imm (tag op : Nat) (m : Dep) (o : Nat) (xc : Fin 4) (imm : BitVec 64) :
    (assemble tag op m o (immPayloads xc imm)).length = 1 + xc.val :=
  assemble_length _ _ _ _ _ _ (by simp [immPayloads]; omega) (by omega)

theorem assemble_mem (tag op : Nat) (m : Dep) (o : Nat) (ma : MemAddr) (p : Nat) :
    (assemble tag op m o (memPayloads ma p)).length = 1 + ma.xc.val :=
  assemble_length _ _ _ _ _ _ (by simp [memPayloads]; omega) (by omega)

theorem assemble_fab (tag op : Nat) (m : Dep) (o : Nat) (h : FabHead) (p : Nat) :
    (assemble tag op m o (fabPayloads h p)).length = 1 + h.xc.val :=
  assemble_length _ _ _ _ _ _ (by simp [fabPayloads]; omega) (by omega)

theorem WordCount.nop (m) : WordCount.Statement (.nop m) := rfl

theorem WordCount.add (m d a b) : WordCount.Statement (.add m d a b) := rfl

theorem WordCount.sub (m d a b) : WordCount.Statement (.sub m d a b) := rfl

theorem WordCount.mul (m d a b) : WordCount.Statement (.mul m d a b) := rfl

theorem WordCount.and (m d a b) : WordCount.Statement (.and m d a b) := rfl

theorem WordCount.or (m d a b) : WordCount.Statement (.or m d a b) := rfl

theorem WordCount.xor (m d a b) : WordCount.Statement (.xor m d a b) := rfl

theorem WordCount.shl (m d a b) : WordCount.Statement (.shl m d a b) := rfl

theorem WordCount.shr (m d a b) : WordCount.Statement (.shr m d a b) := rfl

theorem WordCount.li (m xc d imm) : WordCount.Statement (.li m xc d imm) := assemble_imm ..

theorem WordCount.mov (m d a) : WordCount.Statement (.mov m d a) := rfl

theorem WordCount.movFromDs (m d) : WordCount.Statement (.movFromDs m d) := rfl

theorem WordCount.movToDa (m a) : WordCount.Statement (.movToDa m a) := rfl

theorem WordCount.movToDv (m a) : WordCount.Statement (.movToDv m a) := rfl

theorem WordCount.movToDt (m a) : WordCount.Statement (.movToDt m a) := rfl

theorem WordCount.cmp (m cc nq d a b) : WordCount.Statement (.cmp m cc nq d a b) := rfl

theorem WordCount.br (m off) : WordCount.Statement (.br m off) := rfl

theorem WordCount.brc (m off) : WordCount.Statement (.brc m off) := rfl

theorem WordCount.call (m off) : WordCount.Statement (.call m off) := rfl

theorem WordCount.ret (m) : WordCount.Statement (.ret m) := rfl

theorem WordCount.loop (m lc cnt off) : WordCount.Statement (.loop m lc cnt off) := by cases cnt <;> rfl

theorem WordCount.endl (m lc rot) : WordCount.Statement (.endl m lc rot) := rfl

theorem WordCount.lexit (m cancel off) : WordCount.Statement (.lexit m cancel off) := rfl

theorem WordCount.semSigImm (m sem val) : WordCount.Statement (.semSigImm m sem val) := rfl

theorem WordCount.semSigReg (m sem r) : WordCount.Statement (.semSigReg m sem r) := rfl

theorem WordCount.semWaitImm (m sem val) : WordCount.Statement (.semWaitImm m sem val) := rfl

theorem WordCount.semWaitReg (m sem r) : WordCount.Statement (.semWaitReg m sem r) := rfl

theorem WordCount.drain (m) : WordCount.Statement (.drain m) := rfl

theorem WordCount.cairn (m lvl) : WordCount.Statement (.cairn m lvl) := rfl

theorem WordCount.iter (m off) : WordCount.Statement (.iter m off) := rfl

theorem WordCount.stagep (m) : WordCount.Statement (.stagep m) := rfl

theorem WordCount.exit (m) : WordCount.Statement (.exit m) := rfl

theorem WordCount.trap (m code) : WordCount.Statement (.trap m code) := rfl

theorem WordCount.csrRd (m r csr) : WordCount.Statement (.csrRd m r csr) := rfl

theorem WordCount.csrWr (m r csr) : WordCount.Statement (.csrWr m r csr) := rfl

theorem WordCount.scheduleEntryEnter (l) : WordCount.Statement (.scheduleEntryEnter l) := rfl

theorem WordCount.ld (m ma sz z dst) : WordCount.Statement (.ld m ma sz z dst) := by cases dst <;> exact assemble_mem ..

theorem WordCount.st (m ma sz src) : WordCount.Statement (.st m ma sz src) := assemble_mem ..

theorem WordCount.adda (m d a b) : WordCount.Statement (.adda m d a b) := rfl

theorem WordCount.lia (m xc d imm) : WordCount.Statement (.lia m xc d imm) := assemble_imm ..

theorem WordCount.mova (m d a) : WordCount.Statement (.mova m d a) := rfl

theorem WordCount.movaToDs (m a) : WordCount.Statement (.movaToDs m a) := rfl

theorem WordCount.movaToDv (m a) : WordCount.Statement (.movaToDv m a) := rfl

theorem WordCount.movaToDt (m a) : WordCount.Statement (.movaToDt m a) := rfl

theorem WordCount.tdSet (m td ix r) : WordCount.Statement (.tdSet m td ix r) := rfl

theorem WordCount.tdGet (m td ix r) : WordCount.Statement (.tdGet m td ix r) := rfl

theorem WordCount.tmov (m td ch st oa ob) : WordCount.Statement (.tmov m td ch st oa ob) := rfl

theorem WordCount.qbind (m td q wr oa ob) : WordCount.Statement (.qbind m td q wr oa ob) := rfl

theorem WordCount.qend (m q) : WordCount.Statement (.qend m q) := rfl

theorem WordCount.streamFetch (l q) : WordCount.Statement (.streamFetch l q) := rfl

theorem WordCount.streamDrain (l q) : WordCount.Statement (.streamDrain l q) := rfl

theorem WordCount.segqState (m d a) : WordCount.Statement (.segqState m d a) := rfl

theorem WordCount.segqProbe (m d a) : WordCount.Statement (.segqProbe m d a) := rfl

theorem WordCount.tlbinvAll (m) : WordCount.Statement (.tlbinvAll m) := rfl

theorem WordCount.tlbinvPage (m a) : WordCount.Statement (.tlbinvPage m a) := rfl

theorem WordCount.tlbinvSeg (m a) : WordCount.Statement (.tlbinvSeg m a) := rfl

theorem WordCount.astat (m d) : WordCount.Statement (.astat m d) := rfl

theorem WordCount.astatClr (m d a) : WordCount.Statement (.astatClr m d a) := rfl

theorem WordCount.astatMiss (m d) : WordCount.Statement (.astatMiss m d) := rfl

theorem WordCount.accessPerform (l id) : WordCount.Statement (.accessPerform l id) := rfl

theorem WordCount.pageFault (l) : WordCount.Statement (.pageFault l) := rfl

theorem WordCount.fenceAcq (m scope) : WordCount.Statement (.fenceAcq m scope) := rfl

theorem WordCount.fenceRel (m scope) : WordCount.Statement (.fenceRel m scope) := rfl

theorem WordCount.fenceAr (m scope) : WordCount.Statement (.fenceAr m scope) := rfl

theorem WordCount.fenceSc (m scope) : WordCount.Statement (.fenceSc m scope) := rfl

theorem WordCount.fenceXp (m) : WordCount.Statement (.fenceXp m) := rfl

theorem WordCount.amo (m ma w8 op ord scope z nr d ra) : WordCount.Statement (.amo m ma w8 op ord scope z nr d ra) := assemble_mem ..

theorem WordCount.cas (m ma w8 ord scope z d ra) : WordCount.Statement (.cas m ma w8 ord scope z d ra) := assemble_mem ..

theorem WordCount.gadd (m ma fmt ord scope d) : WordCount.Statement (.gadd m ma fmt ord scope d) := assemble_mem ..

theorem WordCount.grd (m ma fmt rm ord scope d ra) : WordCount.Statement (.grd m ma fmt rm ord scope d ra) := assemble_mem ..

theorem WordCount.gclr (m ma ord scope d) : WordCount.Statement (.gclr m ma ord scope d) := assemble_mem ..

theorem WordCount.waita (m ma w8 scope d ra) : WordCount.Statement (.waita m ma w8 scope d ra) := assemble_mem ..

theorem WordCount.waitaTimeout (l) : WordCount.Statement (.waitaTimeout l) := rfl

theorem WordCount.wakea (m ma scope d) : WordCount.Statement (.wakea m ma scope d) := assemble_mem ..

theorem WordCount.convey (m ma d) : WordCount.Statement (.convey m ma d) := assemble_mem ..

theorem WordCount.platQ (m ma d) : WordCount.Statement (.platQ m ma d) := assemble_mem ..

theorem WordCount.platWait (m ma d) : WordCount.Statement (.platWait m ma d) := assemble_mem ..

theorem WordCount.platWaitTimeout (l) : WordCount.Statement (.platWaitTimeout l) := rfl

theorem WordCount.platShare (m ma d) : WordCount.Statement (.platShare m ma d) := assemble_mem ..

theorem WordCount.cp (m td ch kind oa ob) : WordCount.Statement (.cp m td ch kind oa ob) := rfl

theorem WordCount.cpl (m td ch kind oa ob rc rs) : WordCount.Statement (.cpl m td ch kind oa ob rc rs) := rfl

theorem WordCount.cpring (m g mode prod cons) : WordCount.Statement (.cpring m g mode prod cons) := by cases mode <;> rfl

theorem WordCount.cpwpRd (m a ch) : WordCount.Statement (.cpwpRd m a ch) := rfl

theorem WordCount.cpwpWait (m a ch) : WordCount.Statement (.cpwpWait m a ch) := rfl

theorem WordCount.cpwpDs (m ch) : WordCount.Statement (.cpwpDs m ch) := rfl

theorem WordCount.cpcan (m ch) : WordCount.Statement (.cpcan m ch) := rfl

theorem WordCount.cpcanAll (m) : WordCount.Statement (.cpcanAll m) := rfl

theorem WordCount.siftEnc (m ch pasp sasp rp rmap rsec rn) : WordCount.Statement (.siftEnc m ch pasp sasp rp rmap rsec rn) := rfl

theorem WordCount.siftDec (m ch dst sasp rmap rsec rn) : WordCount.Statement (.siftDec m ch dst sasp rmap rsec rn) := by cases dst <;> rfl

theorem WordCount.accmov (m acc ch st asp base) : WordCount.Statement (.accmov m acc ch st asp base) := rfl

theorem WordCount.chunkPublish (l ch) : WordCount.Statement (.chunkPublish l ch) := rfl

theorem WordCount.copyComplete (l ch) : WordCount.Statement (.copyComplete l ch) := rfl

theorem WordCount.channelPageFault (l ch) : WordCount.Statement (.channelPageFault l ch) := rfl

theorem WordCount.spillWriteback (l ch) : WordCount.Statement (.spillWriteback l ch) := rfl

theorem WordCount.mxShape (m rm1 cm1 nq nd) : WordCount.Statement (.mxShape m rm1 cm1 nq nd) := rfl

theorem WordCount.mxMma (m acc ga gb ka kb w src set) : WordCount.Statement (.mxMma m acc ga gb ka kb w src set) := rfl

theorem WordCount.mxGer (m acc ga gb ka kb w src set) : WordCount.Statement (.mxGer m acc ga gb ka kb w src set) := rfl

theorem WordCount.mxBatch (m acc ga gb nm1 ka kb set) : WordCount.Statement (.mxBatch m acc ga gb nm1 ka kb set) := rfl

theorem WordCount.mxZero (m acc) : WordCount.Statement (.mxZero m acc) := rfl

theorem WordCount.mxLdacc (m acc g kp add z) : WordCount.Statement (.mxLdacc m acc g kp add z) := rfl

theorem WordCount.mxStacc (m acc g rm ov z) : WordCount.Statement (.mxStacc m acc g rm ov z) := rfl

theorem WordCount.mxAccadd (m d src int neg) : WordCount.Statement (.mxAccadd m d src int neg) := rfl

theorem WordCount.mxAccmov (m d src swap) : WordCount.Statement (.mxAccmov m d src swap) := rfl

theorem WordCount.mxCseq (m imm) : WordCount.Statement (.mxCseq m imm) := rfl

theorem WordCount.mxRing (m td g) : WordCount.Statement (.mxRing m td g) := rfl

theorem WordCount.mxPop (m g) : WordCount.Statement (.mxPop m g) := rfl

theorem WordCount.mxFmt (m g fmt) : WordCount.Statement (.mxFmt m g fmt) := rfl

theorem WordCount.mxScale (m g val) : WordCount.Statement (.mxScale m g val) := by cases val <;> rfl

theorem WordCount.mxTrn (m acc) : WordCount.Statement (.mxTrn m acc) := rfl

theorem WordCount.mxMode (m negp za zb) : WordCount.Statement (.mxMode m negp za zb) := rfl

theorem WordCount.mxSemWait (m sem val) : WordCount.Statement (.mxSemWait m sem val) := rfl

theorem WordCount.mxSemSig (m sem val) : WordCount.Statement (.mxSemSig m sem val) := rfl

theorem WordCount.mxStat (m clr) : WordCount.Statement (.mxStat m clr) := rfl

theorem WordCount.matrixPassStart (l) : WordCount.Statement (.matrixPassStart l) := rfl

theorem WordCount.vadd (m ctl ty rm d a b) : WordCount.Statement (.vadd m ctl ty rm d a b) := rfl

theorem WordCount.vsub (m ctl ty rm d a b) : WordCount.Statement (.vsub m ctl ty rm d a b) := rfl

theorem WordCount.vmul (m ctl ty rm d a b) : WordCount.Statement (.vmul m ctl ty rm d a b) := rfl

theorem WordCount.vfma (m ctl ty rm np nc d a b c) : WordCount.Statement (.vfma m ctl ty rm np nc d a b c) := rfl

theorem WordCount.vmin (m ctl ty z d a b) : WordCount.Statement (.vmin m ctl ty z d a b) := rfl

theorem WordCount.vmax (m ctl ty z d a b) : WordCount.Statement (.vmax m ctl ty z d a b) := rfl

theorem WordCount.vabs (m ctl ty z d a) : WordCount.Statement (.vabs m ctl ty z d a) := rfl

theorem WordCount.vneg (m ctl ty z d a) : WordCount.Statement (.vneg m ctl ty z d a) := rfl

theorem WordCount.viadd (m ctl ty z sat d a b) : WordCount.Statement (.viadd m ctl ty z sat d a b) := rfl

theorem WordCount.visub (m ctl ty z sat d a b) : WordCount.Statement (.visub m ctl ty z sat d a b) := rfl

theorem WordCount.vimul (m ctl ty z sat hi d a b) : WordCount.Statement (.vimul m ctl ty z sat hi d a b) := rfl

theorem WordCount.vand (m ctl ty d a b) : WordCount.Statement (.vand m ctl ty d a b) := rfl

theorem WordCount.vor (m ctl ty d a b) : WordCount.Statement (.vor m ctl ty d a b) := rfl

theorem WordCount.vxor (m ctl ty d a b) : WordCount.Statement (.vxor m ctl ty d a b) := rfl

theorem WordCount.vshl (m ctl ty d a b) : WordCount.Statement (.vshl m ctl ty d a b) := rfl

theorem WordCount.vshr (m ctl ty z d a b) : WordCount.Statement (.vshr m ctl ty z d a b) := rfl

theorem WordCount.vcmp (m k ty z cc kd a b) : WordCount.Statement (.vcmp m k ty z cc kd a b) := rfl

theorem WordCount.vcmpq (m k ty z all cc kd a b) : WordCount.Statement (.vcmpq m k ty z all cc kd a b) := rfl

theorem WordCount.vsel (m k ty d a b) : WordCount.Statement (.vsel m k ty d a b) := rfl

theorem WordCount.vrsum (m k ty z rm q sat d a) : WordCount.Statement (.vrsum m k ty z rm q sat d a) := rfl

theorem WordCount.vrmax (m k ty z q d a) : WordCount.Statement (.vrmax m k ty z q d a) := rfl

theorem WordCount.vcvt (m ctl dst src sz dz ov part rnd d a) : WordCount.Statement (.vcvt m ctl dst src sz dz ov part rnd d a) := rfl

theorem WordCount.vqmax (m ty zd a b) : WordCount.Statement (.vqmax m ty zd a b) := rfl

theorem WordCount.vqcvt (m ty rnd part zs d a b) : WordCount.Statement (.vqcvt m ty rnd part zs d a b) := rfl

theorem WordCount.vdq (m ctl ty rm part zs d a b) : WordCount.Statement (.vdq m ctl ty rm part zs d a b) := rfl

theorem WordCount.vperm (m ctl ty d a b) : WordCount.Statement (.vperm m ctl ty d a b) := rfl

theorem WordCount.vshuf (m ctl ty kind d a) : WordCount.Statement (.vshuf m ctl ty kind d a) := rfl

theorem WordCount.vrcpe (m ctl ty d a) : WordCount.Statement (.vrcpe m ctl ty d a) := rfl

theorem WordCount.vrsqe (m ctl ty d a) : WordCount.Statement (.vrsqe m ctl ty d a) := rfl

theorem WordCount.vpushc (m k ty d a) : WordCount.Statement (.vpushc m k ty d a) := by cases d <;> rfl

theorem WordCount.vpopc (m ty form d cb) : WordCount.Statement (.vpopc m ty form d cb) := by cases form <;> rfl

theorem WordCount.vmov (m form) : WordCount.Statement (.vmov m form) := by cases form <;> rfl

theorem WordCount.vbcast (m xc d imm) : WordCount.Statement (.vbcast m xc d imm) := assemble_imm ..

theorem WordCount.vsetl (m xc kd imm) : WordCount.Statement (.vsetl m xc kd imm) := assemble_imm ..

theorem WordCount.vaccRd (m acc d line col h vt rm ov) : WordCount.Statement (.vaccRd m acc d line col h vt rm ov) := rfl

theorem WordCount.vaccWr (m acc a line col h vt rm add) : WordCount.Statement (.vaccWr m acc a line col h vt rm add) := rfl

theorem WordCount.viota (m ctl ty pfx d) : WordCount.Statement (.viota m ctl ty pfx d) := rfl

theorem WordCount.vcnt (m ty q d ka) : WordCount.Statement (.vcnt m ty q d ka) := rfl

theorem WordCount.vpopq (m ctl count d) : WordCount.Statement (.vpopq m ctl count d) := rfl

theorem WordCount.vstat (m clr) : WordCount.Statement (.vstat m clr) := rfl

theorem WordCount.txPlan (m p spec) : WordCount.Statement (.txPlan m p spec) := rfl

theorem WordCount.txFwd (m p td) : WordCount.Statement (.txFwd m p td) := rfl

theorem WordCount.txFwdRing (m p gi go) : WordCount.Statement (.txFwdRing m p gi go) := rfl

theorem WordCount.txInv (m p td) : WordCount.Statement (.txInv m p td) := rfl

theorem WordCount.txInvRing (m p gi go) : WordCount.Statement (.txInvRing m p gi go) := rfl

theorem WordCount.txStage (m p form st inv) : WordCount.Statement (.txStage m p form st inv) := rfl

theorem WordCount.txTwid (m dst outer pos q) : WordCount.Statement (.txTwid m dst outer pos q) := by cases dst <;> rfl

theorem WordCount.txRfwd (m p td) : WordCount.Statement (.txRfwd m p td) := rfl

theorem WordCount.txRfwdRing (m p gi go) : WordCount.Statement (.txRfwdRing m p gi go) := rfl

theorem WordCount.txRinv (m p td) : WordCount.Statement (.txRinv m p td) := rfl

theorem WordCount.txRinvRing (m p gi go) : WordCount.Statement (.txRinvRing m p gi go) := rfl

theorem WordCount.txLeg (m td g order d0) : WordCount.Statement (.txLeg m td g order d0) := rfl

theorem WordCount.txScale (m form c rm) : WordCount.Statement (.txScale m form c rm) := by cases c <;> rfl

theorem WordCount.txDigrev (m p td) : WordCount.Statement (.txDigrev m p td) := rfl

theorem WordCount.txDigrevRing (m p gi go) : WordCount.Statement (.txDigrevRing m p gi go) := rfl

theorem WordCount.txRing (m td g) : WordCount.Statement (.txRing m td g) := rfl

theorem WordCount.txSemWait (m sem val) : WordCount.Statement (.txSemWait m sem val) := rfl

theorem WordCount.txSemSig (m sem val) : WordCount.Statement (.txSemSig m sem val) := rfl

theorem WordCount.txStat (m clr) : WordCount.Statement (.txStat m clr) := rfl

theorem WordCount.txCplx (m td g conj kp bc) : WordCount.Statement (.txCplx m td g conj kp bc) := rfl

theorem WordCount.fbLd (m td h ds z acq) : WordCount.Statement (.fbLd m td h ds z acq) := assemble_fab ..

theorem WordCount.fbSt (m td h rel) : WordCount.Statement (.fbSt m td h rel) := assemble_fab ..

theorem WordCount.fbAmo (m td h nr z ord op ra rb) : WordCount.Statement (.fbAmo m td h nr z ord op ra rb) := assemble_fab ..

theorem WordCount.fbGadd (m td h fmt rel ra) : WordCount.Statement (.fbGadd m td h fmt rel ra) := assemble_fab ..

theorem WordCount.fbFenceAcq (m scope) : WordCount.Statement (.fbFenceAcq m scope) := rfl

theorem WordCount.fbFenceRel (m scope) : WordCount.Statement (.fbFenceRel m scope) := rfl

theorem WordCount.fbFenceAr (m scope) : WordCount.Statement (.fbFenceAr m scope) := rfl

theorem WordCount.fbFenceSc (m scope) : WordCount.Statement (.fbFenceSc m scope) := rfl

theorem WordCount.fbMcst (m td h ack rel ap) : WordCount.Statement (.fbMcst m td h ack rel ap) := assemble_fab ..

theorem WordCount.fbMcld (m td h red q z ap) : WordCount.Statement (.fbMcld m td h red q z ap) := assemble_fab ..

theorem WordCount.fbSub (m td n lvl rp) : WordCount.Statement (.fbSub m td n lvl rp) := rfl

theorem WordCount.fbUnsub (m n) : WordCount.Statement (.fbUnsub m n) := rfl

theorem WordCount.fbSflush (m) : WordCount.Statement (.fbSflush m) := rfl

theorem WordCount.fbColl (m fc scope xc oa slot) : WordCount.Statement (.fbColl m fc scope xc oa slot) := assemble_length _ _ _ _ _ _ (by simp; omega) (Nat.le_of_lt_succ xc.isLt)

theorem WordCount.fbCwait (m fc v) : WordCount.Statement (.fbCwait m fc v) := rfl

theorem WordCount.fbTimeNow (m) : WordCount.Statement (.fbTimeNow m) := rfl

theorem WordCount.fbTimeWin (m) : WordCount.Statement (.fbTimeWin m) := rfl

theorem WordCount.fbTimeUntil (m n) : WordCount.Statement (.fbTimeUntil m n) := rfl

theorem WordCount.fbStat (m clr) : WordCount.Statement (.fbStat m clr) := rfl

theorem WordCount.slotTimeReached (l id) : WordCount.Statement (.slotTimeReached l id) := rfl

theorem WordCount.remoteRequestArrival (r) : WordCount.Statement (.remoteRequestArrival r) := rfl

theorem WordCount.remoteReply (l id) : WordCount.Statement (.remoteReply l id) := rfl

theorem WordCount.requestTimeout (l id) : WordCount.Statement (.requestTimeout l id) := rfl

theorem WordCount.subInstall (l n) : WordCount.Statement (.subInstall l n) := rfl

theorem WordCount.granuleSend (l entry) : WordCount.Statement (.granuleSend l entry) := rfl

theorem WordCount.granuleDeliver (idx) : WordCount.Statement (.granuleDeliver idx) := rfl

theorem WordCount.collectiveStart (inst) : WordCount.Statement (.collectiveStart inst) := rfl

theorem WordCount.collectiveTimeout (inst) : WordCount.Statement (.collectiveTimeout inst) := rfl

theorem WordCount.collectiveChunk (inst ix j chunk) : WordCount.Statement (.collectiveChunk inst ix j chunk) := rfl

theorem WordCount.collectiveComplete (inst) : WordCount.Statement (.collectiveComplete inst) := rfl

theorem WordCount.collectivePeerStop (inst) : WordCount.Statement (.collectivePeerStop inst) := rfl

theorem WordCount.qwidxWrite (fn q v) : WordCount.Statement (.qwidxWrite fn q v) := rfl

theorem WordCount.packetCheck (q) : WordCount.Statement (.packetCheck q) := rfl

theorem WordCount.headerCheck (q) : WordCount.Statement (.headerCheck q) := rfl

theorem WordCount.deadlineReached : WordCount.Statement .deadlineReached := rfl

theorem WordCount.bankLoaded (l) : WordCount.Statement (.bankLoaded l) := rfl

theorem WordCount.coreHalted (core) : WordCount.Statement (.coreHalted core) := rfl

theorem WordCount.evictionSaved (l) : WordCount.Statement (.evictionSaved l) := rfl

theorem WordCount.barrierRelease (launch lvl place) : WordCount.Statement (.barrierRelease launch lvl place) := rfl

theorem WordCount.barrierTimeout (launch lvl place) : WordCount.Statement (.barrierTimeout launch lvl place) := rfl

theorem WordCount.watchdogExpiry (core) : WordCount.Statement (.watchdogExpiry core) := rfl

theorem WordCount.launchEnd (launch) : WordCount.Statement (.launchEnd launch) := rfl

theorem WordCount.completionRecord (launch) : WordCount.Statement (.completionRecord launch) := rfl

theorem WordCount.meridianGraphStart (q) : WordCount.Statement (.meridianGraphStart q) := rfl

theorem WordCount.meridianNodeReady (g node) : WordCount.Statement (.meridianNodeReady g node) := rfl

theorem WordCount.meridianGraphStop (g) : WordCount.Statement (.meridianGraphStop g) := rfl

theorem WordCount.migrationCopy (idx) : WordCount.Statement (.migrationCopy idx) := rfl

theorem WordCount.migrationRebind (idx) : WordCount.Statement (.migrationRebind idx) := rfl

theorem WordCount.hcmdCtxCreate (fn) : WordCount.Statement (.hcmdCtxCreate fn) := rfl

theorem WordCount.hcmdCtxDestroy (fn) : WordCount.Statement (.hcmdCtxDestroy fn) := rfl

theorem WordCount.hcmdTlbInv (fn) : WordCount.Statement (.hcmdTlbInv fn) := rfl

theorem WordCount.hcmdPlatInv (fn) : WordCount.Statement (.hcmdPlatInv fn) := rfl

theorem WordCount.hcmdMigrate (fn) : WordCount.Statement (.hcmdMigrate fn) := rfl

theorem WordCount.hcmdFaultReply (fn) : WordCount.Statement (.hcmdFaultReply fn) := rfl

theorem WordCount.hcmdRouteLoad (fn) : WordCount.Statement (.hcmdRouteLoad fn) := rfl

theorem WordCount.hcmdRouteCommit (fn) : WordCount.Statement (.hcmdRouteCommit fn) := rfl

theorem WordCount.hcmdAttest (fn) : WordCount.Statement (.hcmdAttest fn) := rfl

theorem WordCount.hcmdFwLoad (fn) : WordCount.Statement (.hcmdFwLoad fn) := rfl

theorem WordCount.hcmdUnknown (fn op) : WordCount.Statement (.hcmdUnknown fn op) := rfl

theorem WordCount.hostCommandDone (fn) : WordCount.Statement (.hostCommandDone fn) := rfl

theorem WordCount.qcfgWrite (fn q v) : WordCount.Statement (.qcfgWrite fn q v) := rfl

theorem WordCount.qcancel (fn q v) : WordCount.Statement (.qcancel fn q v) := rfl

theorem WordCount.fqcfgWrite (fn v) : WordCount.Statement (.fqcfgWrite fn v) := rfl

theorem WordCount.fqtailWrite (fn v) : WordCount.Statement (.fqtailWrite fn v) := rfl

theorem WordCount.evcfgWrite (v) : WordCount.Statement (.evcfgWrite v) := rfl

theorem WordCount.evtailWrite (v) : WordCount.Statement (.evtailWrite v) := rfl

theorem WordCount.plumbtrigWrite (v) : WordCount.Statement (.plumbtrigWrite v) := rfl

theorem WordCount.plumbCapture : WordCount.Statement .plumbCapture := rfl

theorem WordCount.ltrcfgWrite (die v) : WordCount.Statement (.ltrcfgWrite die v) := rfl

theorem WordCount.pwrlimWrite (v) : WordCount.Statement (.pwrlimWrite v) := rfl

theorem WordCount.powerThrottle (watts) : WordCount.Statement (.powerThrottle watts) := rfl

theorem WordCount.registerWrite (fn off v) : WordCount.Statement (.registerWrite fn off v) := rfl

theorem WordCount.hostMemoryAccess (acc) : WordCount.Statement (.hostMemoryAccess acc) := rfl

theorem WordCount.deviceReset : WordCount.Statement .deviceReset := rfl

theorem WordCount.fwverify : WordCount.Statement .fwverify := rfl

theorem WordCount.hbmtrain (failed) : WordCount.Statement (.hbmtrain failed) := rfl

theorem WordCount.linktrain (down) : WordCount.Statement (.linktrain down) := rfl

theorem WordCount.selftest (ok) : WordCount.Statement (.selftest ok) := rfl

theorem WordCount.patrolScrub (pa found) : WordCount.Statement (.patrolScrub pa found) := rfl

theorem WordCount.flitTransmit (die port) : WordCount.Statement (.flitTransmit die port) := rfl

theorem WordCount.flitReceive (die port f) : WordCount.Statement (.flitReceive die port f) := rfl

theorem WordCount.linkTrained (die port) : WordCount.Statement (.linkTrained die port) := rfl

theorem WordCount.linkFailed (die port) : WordCount.Statement (.linkFailed die port) := rfl

theorem WordCount.linkReset (die port) : WordCount.Statement (.linkReset die port) := rfl

theorem WordCount.pktWrite (die l) : WordCount.Statement (.pktWrite die l) := rfl

theorem WordCount.pktRead (die l) : WordCount.Statement (.pktRead die l) := rfl

theorem WordCount.pktResp (die l) : WordCount.Statement (.pktResp die l) := rfl

theorem WordCount.pktAmo (die l) : WordCount.Statement (.pktAmo die l) := rfl

theorem WordCount.pktGadd (die l) : WordCount.Statement (.pktGadd die l) := rfl

theorem WordCount.pktMcwrite (die l) : WordCount.Statement (.pktMcwrite die l) := rfl

theorem WordCount.pktMcread (die l) : WordCount.Statement (.pktMcread die l) := rfl

theorem WordCount.pktGranule (die l) : WordCount.Statement (.pktGranule die l) := rfl

theorem WordCount.pktChunk (die l) : WordCount.Statement (.pktChunk die l) := rfl

theorem WordCount.pktAck (die l) : WordCount.Statement (.pktAck die l) := rfl

theorem WordCount.pktNack (die l) : WordCount.Statement (.pktNack die l) := rfl

theorem WordCount.pktCredit (die port vc time p) : WordCount.Statement (.pktCredit die port vc time p) := rfl

theorem WordCount.pktFlush (die l) : WordCount.Statement (.pktFlush die l) := rfl

theorem WordCount.pktClose (die port vc x) : WordCount.Statement (.pktClose die port vc x) := rfl

theorem WordCount.pktSync (die l) : WordCount.Statement (.pktSync die l) := rfl

theorem WordCount.pktDrain (die l) : WordCount.Statement (.pktDrain die l) := rfl

theorem WordCount.pktToken (die port vc time p) : WordCount.Statement (.pktToken die port vc time p) := rfl

theorem WordCount.pktMode (die port vc x) : WordCount.Statement (.pktMode die port vc x) := rfl

theorem WordCount.pktAdvert (die port x) : WordCount.Statement (.pktAdvert die port x) := rfl

theorem WordCount.windowEnd : WordCount.Statement .windowEnd := rfl

theorem WordCount.scopeModeChange (fabric) : WordCount.Statement (.scopeModeChange fabric) := rfl

theorem WordCount.syncMissed : WordCount.Statement .syncMissed := rfl

theorem WordCount.ergTokenArrival (ch die epoch seq uw) : WordCount.Statement (.ergTokenArrival ch die epoch seq uw) := rfl

theorem WordCount.ergUrgentRequest (ch die) : WordCount.Statement (.ergUrgentRequest ch die) := rfl

theorem WordCount.ergTokenRegen (ch) : WordCount.Statement (.ergTokenRegen ch) := rfl

theorem WordCount.lossOfLaneLock (die port) : WordCount.Statement (.lossOfLaneLock die port) := rfl

theorem WordCount.errExceedsGuard : WordCount.Statement .errExceedsGuard := rfl

theorem WordCount.timeUntilReached (l) : WordCount.Statement (.timeUntilReached l) := rfl

end Sys2Proof.Laws
end

