-- ==== Sys2Proof/Tests/Slice0.lean ====
section
/-!
SUPPORT. Tests: words of the spec's encodings, small steps, what the checks refuse, and states that meet the hypotheses of the statements.
-/

namespace Sys2Proof.Tests

open Sys2Proof Sys2Proof.Machine

set_option Elab.async false

/-! ## Small states -/

/-- Core 0 runs a launch in bank 0 of a READY package, and an engine has the turn; the bank is changed by `f`. -/
def turn (e : Engine) (f : Bank → Bank) : State :=
  let s : State := { State.reset.withFetchWord 32 0 with cur := ⟨⟨0, 0⟩, e, false⟩, agenda := [] }
  s.setBank ⟨0, 0⟩ (f (s.bank ⟨0, 0⟩))

/-- Core 0 runs a launch in bank 0 of a READY package, with a word at its engine's index. -/
def atWord (w : Nat) (f : Bank → Bank) : State :=
  let s := State.reset.withFetchWord 64 w
  s.setBank ⟨0, 0⟩ (f (s.bank ⟨0, 0⟩))

/-- A value of the state after one step. -/
def after {α : Type} (s : State) (g : State → α) : Option α :=
  match step s with
  | .next t => some (g t)
  | _ => none

/-- A head without tokens. -/
def hd0 : Dep := headDep 0

/-- Values in registers of S, of A. -/
def sr (l : List (SReg × Reg64)) (b : Bank) : Bank := l.foldl (fun b p => b.setSreg p.1 p.2) b
def ar (l : List (Fin 32 × Reg64)) (b : Bank) : Bank := l.foldl (fun b p => b.setAreg (.a p.1) p.2) b

/-- Every engine at an index and a walk position. -/
def allAt (pc walk : Nat) (b : Bank) : Bank :=
  [Engine.S, .A, .M, .V, .T, .F].foldl (fun b e => b.setEng e { b.eng e with pc, walk }) b

/-- A word in the program text. -/
def textAt (k w : Nat) (b : Bank) : Bank := { b with text := spPut 0 b.text k w }

/-- The engines' words in flight are looked at one engine at a time. -/
theorem calm_of {b : Bank} (h : ∀ e ∈ [Engine.S, .A, .M, .V, .T, .F], (b.eng e).rets = [] ∧ (b.eng e).pend = []) : b.calm := by
  intro e
  cases e <;> exact h _ (by decide)

/-- What an access finds, looked at. -/
theorem found_of {x : State × ARes} (p : State → List Rng → Bool) (h : (match x with | (u, .ok r) => p u r | _ => false) = true) :
    ∃ u r, x = (u, .ok r) ∧ p u r = true := by
  rcases x with ⟨u, r | c | va⟩
  · exact ⟨u, r, rfl, h⟩
  · simp at h
  · simp at h

/-- A context with one writable VIRT segment: its first GiB is package memory from 0 (06 R186 to R188), the second is host memory, and a Plat of three
entries: 8 KiB at 1 MiB owned by core 0, at 2 MiB shared, at 3 MiB owned by core 9 (07 R224). -/
def virt (s : State) : State :=
  let w (s : State) (a v n : Nat) : State := s.writePa a (leBytes n v)
  let s := w (w (w (w s 0x50000000 0x51000003 16) 0x51000000 0x52000001 8) 0x52000000 7 8) 0x52000008 (2 ^ 48 + 7) 8
  let s := w (w s 0x60000000 (0x100000 + 13 * 2 ^ 57) 8) 0x60000008 (5 * 2 ^ 32) 8
  let s := w (w s 0x60000010 (0x200000 + 13 * 2 ^ 57 + 2 ^ 62) 8) 0x60000018 (7 * 2 ^ 32) 8
  let s := w (w s 0x60000020 (0x300000 + 13 * 2 ^ 57) 8) 0x60000028 9 8
  { s with ctxs := [(0, ⟨0x50000000, 0x60000000, 3, 1, 1, 2, 1, 0x61000000, 0⟩)] }

/-- A has the turn in that context. -/
def aTurn (f : Bank → Bank) : State := virt (turn .A f)

/-! ## Small steps and worked values of the spec -/

/-- 04 R105: an addition is modulo 2^64. -/
theorem test_add_wraps : after (atWord 0x00041083 (sr [(2, 0xFFFFFFFFFFFFFFFF), (3, 3)])) (fun t => (t.here.sreg 1, t.here.engs.S.pc)) = some (2, 1) := by decide +kernel

/-- 04 R105: a shift by 64 gives 0. -/
theorem test_shl_64 : after (atWord 0x001C1083 (sr [(1, 9), (2, 0xFFFFFFFFFFFFFFFF), (3, 64)])) (fun t => t.here.sreg 1) = some 0 := by decide +kernel

/-- 04 R99: a write of `s0` is discarded. -/
theorem test_s0 : after (atWord 0x00040083 (sr [(2, 1), (3, 3)])) (fun t => (t.here.sreg 0, t.here.sreg 2)) = some (0, 1) := by decide +kernel

/-- 04 R127: `TRAP 0x2A`. -/
theorem test_trap : after (atWord 0x0068002A id) (fun t => t.launches.map (fun x => x.fault.map (fun f => (f.code, f.detail)))) = some [some (.trap, 0x2A)] := by decide +kernel

/-- 02 R38: a word of tag 7 ends the launch with F_ILLEGAL. -/
theorem test_tag_seven : after (atWord 0xE0000000 id) (fun t => t.launches.map (fun x => x.fault.map (·.code))) = some [some .illegal] := by decide +kernel

/-- 02, the worked example: the word at index 7 stores `a7` at `a3` + 64, all ones in eight bytes. -/
theorem test_store_bytes : after (atWord 0xC00000402004746D (ar [(3, 0x100), (7, 0xFFFFFFFFFFFFFFFE)]))
    (fun t => [0x13F, 0x140, 0x147, 0x148].map (spGet 0 t.here.acc.sp0)) = some [0, 0xFE, 0xFF, 0] := by decide +kernel

/-- 15 R485: from reset the device verifies its firmware first. -/
theorem test_reset_state : State.reset.regs.ready = .reset ∧ after { State.reset with agenda := [.train] } (fun t => decide (t.regs.ready = .reset)) = some false := by decide +kernel

/-- 03, worked conversions of FP64 0.1 under RNE, RTZ and RUP, each with NX. -/
theorem test_conversions : ∀ x ∈ [(fp32F, 0x3DCCCCCD, 0x3DCCCCCC, 0x3DCCCCCD), (fp16F, 0x2E66, 0x2E66, 0x2E67), (bf16F, 0x3DCD, 0x3DCC, 0x3DCD), (e5m2F, 0x2E, 0x2E, 0x2F),
    (e4m3F, 0x1D, 0x1C, 0x1D)], let r (rm : RMode) := x.1.round rm 0 (fp64F.read 0x3FB999999999999A)
      r .rne = (x.2.1, fNX) ∧ r .rtz = (x.2.2.1, fNX) ∧ r .rdn = (x.2.2.1, fNX) ∧ r .rup = (x.2.2.2, fNX) := by decide +kernel

/-- 03 R88: 450 into E4M3. -/
theorem test_e4m3_over : e4m3F.round .rne 0 (Fl.ofInt 450) = (0x7E, fNX) ∧ e4m3F.round .rup 0 (Fl.ofInt 450) = (0x7E, fOF ||| fNX) := by decide +kernel

/-- 03 R87: the worked stochastic roundings of 1 + 2^−9 to BF16. -/
theorem test_stochastic : [0x0000, 0xBFFF, 0xC000, 0xFFFF].map (fun rb => bf16F.round .sr rb (fp32F.read 0x3F804000))
    = [(0x3F80, fNX), (0x3F80, fNX), (0x3F81, fNX), (0x3F81, fNX)] := by decide +kernel

/-- 03 R89: −300.7 into INT8. -/
theorem test_to_int : (fp32F.read 0xC396599A).toInt .rne 0 .sat false 8 = (0x80, fSAT ||| fNX) ∧ (fp32F.read 0xC396599A).toInt .rne 0 .wrap false 8 = (0xD3, fNX) := by
  decide +kernel

/-- 03 R83: 1.0 and −2.5 in E80. -/
theorem test_e80 : e80F.round .rne 0 (Fl.ofInt 1) = (0x3FFF0000000000000000, 0) ∧ e80F.round .rne 0 (.fin true 5 2 0) = (0xC0004000000000000000, 0) := by decide +kernel

/-- 03 R92: the worked block. -/
theorem test_vx4_block :
    let x := [0x3E99999A, 0xBF99999A, 0x40200000, 0x40FCCCCD, 0, 0xBD4CCCCD, 0x408CCCCD, 0x41200000].map fp32F.read
    quantScale x (Fl.ofInt 1) = (0x76, 0) ∧ x.map (fun v => (quantElem .rne 0 0x76 (Fl.ofInt 1) v).1) = [0, 9, 3, 6, 0, 8, 5, 7] := by decide +kernel

/-- 03, the worked grain sum. -/
theorem test_grain_sum :
    let c := [Fl.fin false 3 2 0, .fin true 1 4 0, .fin false 3 1 (-22)].foldl grainAdd (0xFFEC * 2 ^ 224)
    c = 0x140000 + 0xFFEC * 2 ^ 224 + 2 ^ 240 ∧ (grainRead c fp64F .rne).1 = 0x3FF4000000000000 := by decide +kernel

/-- 08 R287: the worked seeds. -/
theorem test_seeds : (rcpElem .fp64 0x4008000000000000).1 = 0x3FD5540000000000 ∧ (rsqElem .fp64 0x4010000000000000).1 = 0x3FDFFE0000000000 := by decide +kernel

/-- 08 R280: the worked reduction of 1.0, 2^−24 and 2^−24. -/
theorem test_reduction : reduceVec .fp32 7 (vecOf 32 [0x3F800000, 0x33800000, 0x33800000]) 0 (sumNode .fp32 false .rne false) = (0x3F800000, fNX) := by decide +kernel

/-- 09, the worked block: mode 3 in one sector. -/
theorem test_sift_block :
    let y := (leBytes 8 0x3FF0000000000000) ++ List.replicate 32 0 ++ leBytes 8 0xC000000000000000 ++ List.replicate 464 (0 : Byte)
    let b := siftBlock y
    b.1 = 3 ∧ siftEntry 0 b = 3 ∧ b.2.length = 64 ∧ b.2.take 6 = [0x04, 0x48, 0x92, 0x24, 0x01, 0x92]
      ∧ b.2.drop 48 = [0, 0, 0xF0, 0x3F, 0, 0, 0xF0, 0x3F, 0, 0, 0, 0xC0, 0, 0, 0, 0xC0] := by decide +kernel

/-- 11, worked stage values: with radices 3 and 2, rev(n) = 2·(n mod 3) + n div 3. -/
theorem test_digit_reversal : (List.range 6).map (revOf [3, 2]) = [0, 2, 4, 1, 3, 5] := by decide +kernel

/-! ## Words written out from the encodings, and what decoding and well-formedness refuse -/

abbrev Stand (l : List (List Nat × Instr)) : Prop :=
  ∀ c ∈ l, decode c.1 = .ok (c.2, []) ∧ encode c.2 = c.1 ∧ c.2.wf = true

/-- Words of the sequencer class, bits placed by hand from 02 R65 and the entries of 04. -/
theorem test_words_sequencer_1 : Stand [
    ([0x00000000], .nop (headDep 0)),
    ([0x0207D0A3], .add (headDep 1) 61 2 35),
    ([0x040BD0A3], .sub (headDep 2) 61 2 35),
    ([0x060FD0A3], .mul (headDep 3) 61 2 35),
    ([0x0813D0A3], .and (headDep 4) 61 2 35),
    ([0x0A17D0A3], .or (headDep 5) 61 2 35),
    ([0x0C1BD0A3], .xor (headDep 6) 61 2 35),
    ([0x0E1FD0A3], .shl (headDep 7) 61 2 35),
    ([0x1023D0A3], .shr (headDep 8) 61 2 35),
    ([0x00245BFF, 0xC0000001, 0xC1000000], .li (headDep 0) 2 5 0xF8000000000007FF),
    ([0x00285180], .mov (headDep 0) 5 6),
    ([0x00285001], .movFromDs (headDep 0) 5)] := by decide +kernel

/-- Words of the sequencer class, bits placed by hand from 02 R65 and the entries of 04. -/
theorem test_words_sequencer_2 : Stand [
    ([0x00280182], .movToDa (headDep 0) 6),
    ([0x00280183], .movToDv (headDep 0) 6),
    ([0x00280184], .movToDt (headDep 0) 6),
    ([0x002C9207, 0xC0000014], .cmp (headDep 0) .ltu true 9 8 7),
    ([0x0033FFFE], .br (headDep 0) 0x3FFFE),
    ([0x00340003], .brc (headDep 0) 3),
    ([0x003A0000], .call (headDep 0) 0x20000),
    ([0x003C0000], .ret (headDep 0)),
    ([0x00428021, 0xC0000007], .loop (headDep 0) 2 (.reg 33) 7),
    ([0x00458000], .endl (headDep 0) 1 true),
    ([0x004A0009], .lexit (headDep 0) true 9),
    ([0x004C6802], .semSigImm (headDep 0) 3 0x802)] := by decide +kernel

/-- Words of the sequencer class, bits placed by hand from 02 R65 and the entries of 04. -/
theorem test_words_sequencer_3 : Stand [
    ([0x004C7004], .semSigReg (headDep 0) 3 4),
    ([0x0053CFFF], .semWaitImm (headDep 0) 30 0xFFF),
    ([0x00511004], .semWaitReg (headDep 0) 8 4),
    ([0x00540000], .drain (headDep 0)),
    ([0x005A0000], .cairn (headDep 0) .launch),
    ([0x005FFFFF], .iter (headDep 0) 0x3FFFF),
    ([0x00600000], .stagep (headDep 0)),
    ([0x00640000], .exit (headDep 0)),
    ([0x0068002A], .trap (headDep 0) 0x2A),
    ([0x006C5010], .csrRd (headDep 0) 5 0x10),
    ([0x006C6E0F], .csrWr (headDep 0) 6 0x60F)] := by decide +kernel

/-- Words of the access class, bits placed by hand from 02 R65 and the entries of 06, 07 and 09. -/
theorem test_words_access_1 : Stand [
    ([0x2002246E, 0xC1FFFFF8, 0xC0000020], .ld (headDep 0) ⟨.sp0, 3, 2, 0x1FFFFF8⟩ 3 true (.reg (.b 2))),
    ([0x2000007A, 0xC0000040, 0xC0000080], .ld (headDep 0) ⟨.virt, 3, 2, 64⟩ 6 false .dv),
    ([0x20068BF4], .st (headDep 0) ⟨.sp1, 31, 0, 0⟩ 5 .da),
    ([0x320A0A07], .adda (headDep 9) (.b 0) .da (.reg (.a 7))),
    ([0x200E7C05, 0xC0000000, 0xC0000000, 0xC0000004], .lia (headDep 0) 3 (.b 7) 0x4000000000000005),
    ([0x201038C0], .mova (headDep 0) (.a 3) (.reg (.b 3))),
    ([0x20100A01], .movaToDs (headDep 0) .da),
    ([0x20100182], .movaToDv (headDep 0) (.reg (.a 6))),
    ([0x20100183], .movaToDt (headDep 0) (.reg (.a 6))),
    ([0x20145201, 0xC0320000], .qbind (headDep 0) 5 2 true 3 4),
    ([0x20180006], .qend (headDep 0) 6),
    ([0x201FF000, 0xC09B0000], .tdSet (headDep 0) 63 11 9),
    ([0x2023F000, 0xC09A0000], .tdGet (headDep 0) 63 10 9)] := by decide +kernel

/-- Words of the access class, bits placed by hand from 02 R65 and the entries of 06, 07 and 09. -/
theorem test_words_access_2 : Stand [
    ([0x202450E1, 0xC0320000], .tmov (headDep 0) 5 7 true 3 4),
    ([0x20285040, 0xC0324260], .cp (headDep 0) 5 2 (.toRec 33 6) 3 4),
    ([0x2028594C, 0xC0321000], .cp (headDep 0) 5 2 (.drain 9 8) 3 4),
    ([0x202C5948, 0xC0325060, 0xC1190000], .cpl (headDep 0) 5 2 (.toPeer 9 true 8 6) 3 4 17 18),
    ([0x20300301, 0xC13FFFFF], .cpring (headDep 0) 3 (.c (.b 7) 63 0x1FFF) .copy .m),
    ([0x20300318, 0xC1500800], .cpring (headDep 0) 3 (.r 5 1 16) .t .copy),
    ([0x203440C0], .cpwpRd (headDep 0) 4 6),
    ([0x203440C1], .cpwpWait (headDep 0) 4 6),
    ([0x203400C2], .cpwpDs (headDep 0) 6),
    ([0x203800C0], .cpcan (headDep 0) 6),
    ([0x20380001], .cpcanAll (headDep 0)),
    ([0x203C008C, 0xC0110C80], .siftEnc (headDep 0) 4 .sp0 .sp1 1 2 3 4),
    ([0x203E0987, 0xC0010C80], .siftDec (headDep 0) 4 (.ring 9) .sp2 2 3 4)] := by decide +kernel

/-- Words of the access class, bits placed by hand from 02 R65 and the entries of 06, 07 and 09. -/
theorem test_words_access_3 : Stand [
    ([0x20425874, 0xC1E00000], .accmov (headDep 0) 600 3 true .sp0 30),
    ([0x20445800], .fenceAcq (headDep 0) .system),
    ([0x2044D000], .fenceRel (headDep 0) .fabric),
    ([0x20454800], .fenceAr (headDep 0) .panel),
    ([0x2045C000], .fenceSc (headDep 0) .host),
    ([0x20460000], .fenceXp (headDep 0)),
    ([0x2048706E, 0xC0000008, 0xC068DE00], .amo (headDep 0) ⟨.virt, 3, 2, 8⟩ true .swap .ar .launch true false 7 6),
    ([0x204C746A, 0xC0000008, 0xC0605000], .cas (headDep 0) ⟨.sp0, 3, 2, 8⟩ false .acq .cluster false 7 6),
    ([0x20507076, 0xC0000020, 0xC0019400], .gadd (headDep 0) ⟨.virt, 3, 2, 32⟩ .fp32 .rel .die 7),
    ([0x20547076, 0xC0000020, 0xC0905840], .grd (headDep 0) ⟨.virt, 3, 2, 32⟩ .fp64 .rup .acq .package 7 9),
    ([0x20587076, 0xC0000020, 0xC0009800], .gclr (headDep 0) ⟨.virt, 3, 2, 32⟩ .rel .package 7),
    ([0x205C706F, 0xC0000008, 0xC0900400, 0xC0000000], .waita (headDep 0) ⟨.virt, 3, 3, 8⟩ true .core 7 9),
    ([0x20607062, 0xC0000008, 0xC0001C00], .wakea (headDep 0) ⟨.virt, 3, 2, 8⟩ .launch 7)] := by decide +kernel

/-- Words of the access class, bits placed by hand from 02 R65 and the entries of 06, 07 and 09. -/
theorem test_words_access_4 : Stand [
    ([0x20647061, 0xC0000040], .convey (headDep 0) ⟨.virt, 3, 1, 64⟩ 7),
    ([0x20687062, 0xC0000040, 0xC0000000], .platQ (headDep 0) ⟨.virt, 3, 2, 64⟩ 7),
    ([0x20687062, 0xC0000040, 0xC0010000], .platWait (headDep 0) ⟨.virt, 3, 2, 64⟩ 7),
    ([0x20687062, 0xC0000040, 0xC0020000], .platShare (headDep 0) ⟨.virt, 3, 2, 64⟩ 7),
    ([0x206C7840], .segqState (headDep 0) (.a 7) (.reg (.b 1))),
    ([0x206C7841], .segqProbe (headDep 0) (.a 7) (.reg (.b 1))),
    ([0x20700000], .tlbinvAll (headDep 0)),
    ([0x20700241], .tlbinvPage (headDep 0) (.reg (.a 9))),
    ([0x20700242], .tlbinvSeg (headDep 0) (.reg (.a 9))),
    ([0x20749000], .astat (headDep 0) (.a 9)),
    ([0x20749201], .astatClr (headDep 0) (.a 9) (.reg (.a 8))),
    ([0x20749002], .astatMiss (headDep 0) (.a 9))] := by decide +kernel

/-- Words of the matrix class, bits placed by hand from 02 R65 and the entries of 10. -/
theorem test_words_matrix_1 : Stand [
    ([0x4002FF80], .mxShape (headDep 0) 23 31 true false),
    ([0x40065823, 0xC14BF378], .mxMma (headDep 0) 600 2 3 true false (some ⟨5, 15⟩) (some ⟨6, 7⟩) true),
    ([0x400A5823, 0xC0801310], .mxGer (headDep 0) 600 2 3 false true none (some ⟨6, 1⟩) false),
    ([0x400E5823, 0xC1F40000], .mxBatch (headDep 0) 600 2 3 15 true false true),
    ([0x40125800], .mxZero (headDep 0) 600),
    ([0x40165820, 0xC0140000], .mxLdacc (headDep 0) 600 2 true false true),
    ([0x401A5820, 0xC0E40000], .mxStacc (headDep 0) 600 2 .rdn .wrap true),
    ([0x401E5800, 0xC12CA000], .mxAccadd (headDep 0) 600 601 false true),
    ([0x40225800, 0xC12CC000], .mxAccmov (headDep 0) 600 601 true),
    ([0x4024AAAA, 0xC0001234], .mxCseq (headDep 0) 0x1234AAAA)] := by decide +kernel

/-- Words of the matrix class, bits placed by hand from 02 R65 and the entries of 10. -/
theorem test_words_matrix_2 : Stand [
    ([0x402BF900], .mxRing (headDep 0) 63 9),
    ([0x402C0900], .mxPop (headDep 0) 9),
    ([0x4030090A], .mxFmt (headDep 0) 9 .vx4),
    ([0x40340900, 0xC1003F80], .mxScale (headDep 0) 9 (some 0x3F80)),
    ([0x40340900, 0xC0000000], .mxScale (headDep 0) 9 none),
    ([0x403A5800], .mxTrn (headDep 0) 600),
    ([0x403E8000], .mxMode (headDep 0) true false true),
    ([0x404047FF], .mxSemWait (headDep 0) 2 0x7FF),
    ([0x40404801], .mxSemSig (headDep 0) 2 1),
    ([0x40460000], .mxStat (headDep 0) true)] := by decide +kernel

/-- Words of the vector class, bits placed by hand from 02 R65 and the entries of 08. -/
theorem test_words_vector_1 : Stand [
    ([0x60005A21, 0xC0F44000], .vadd (headDep 0) ⟨3, true⟩ .fp32 .rtz (.v 5) .dv (.q 1)),
    ([0x60045A21, 0xC0D08000], .vsub (headDep 0) ⟨3, false⟩ .bf16 .rup (.v 5) .dv (.q 1)),
    ([0x60085A21, 0xC0D8C000], .vmul (headDep 0) ⟨3, false⟩ .fp64 .rdn (.v 5) .dv (.q 1)),
    ([0x600C5A21, 0xC0CC2702], .vfma (headDep 0) ⟨3, false⟩ .fp16 .rne true false (.v 5) .dv (.q 1) (.q 7)),
    ([0x60105A21, 0xC0020000], .vmin (headDep 0) ⟨0, false⟩ .i16 true (.v 5) .dv (.q 1)),
    ([0x60145A21, 0xC0040000], .vmax (headDep 0) ⟨0, false⟩ .i32 false (.v 5) .dv (.q 1)),
    ([0x60185A00, 0xC00A0000], .vabs (headDep 0) ⟨0, false⟩ .i64 true (.v 5) .dv),
    ([0x601C5A00, 0xC0180000], .vneg (headDep 0) ⟨0, false⟩ .fp64 false (.v 5) .dv),
    ([0x60205A21, 0xC0020001], .viadd (headDep 0) ⟨0, false⟩ .i16 true true (.v 5) .dv (.q 1)),
    ([0x60245A21, 0xC0040001], .visub (headDep 0) ⟨0, false⟩ .i32 false true (.v 5) .dv (.q 1)),
    ([0x60285A21, 0xC0080002], .vimul (headDep 0) ⟨0, false⟩ .i64 false false true (.v 5) .dv (.q 1)),
    ([0x602C5A21, 0xC1D80000], .vand (headDep 0) ⟨7, false⟩ .fp64 (.v 5) .dv (.q 1)),
    ([0x60305A21, 0xC1D80000], .vor (headDep 0) ⟨7, false⟩ .fp64 (.v 5) .dv (.q 1)),
    ([0x60345A21, 0xC1D80000], .vxor (headDep 0) ⟨7, false⟩ .fp64 (.v 5) .dv (.q 1))] := by decide +kernel

/-- Words of the vector class, bits placed by hand from 02 R65 and the entries of 08. -/
theorem test_words_vector_2 : Stand [
    ([0x60385A21, 0xC1C40000], .vshl (headDep 0) ⟨7, false⟩ .i32 (.v 5) .dv (.q 1)),
    ([0x603C5A21, 0xC1C60000], .vshr (headDep 0) ⟨7, false⟩ .i32 true (.v 5) .dv (.q 1)),
    ([0x60406042, 0xC0940007], .vcmp (headDep 0) 2 .fp32 false .ord 6 (.v 1) (.v 2)),
    ([0x60446042, 0xC0820013], .vcmpq (headDep 0) 2 .i16 true true .le 6 (.v 1) (.v 2)),
    ([0x60485A21, 0xC1080000], .vsel (headDep 0) 4 .i64 (.v 5) .dv (.q 1)),
    ([0x604C5A00, 0xC10A0002], .vrsum (headDep 0) 4 .i64 true .rne false true (.v 5) .dv),
    ([0x60505A00, 0xC1180001], .vrmax (headDep 0) 4 .fp64 false true (.v 5) .dv),
    ([0x60545089, 0xC0010245], .vcvt (headDep 0) ⟨0, false⟩ .bf16 .fp32 false false .sat 1 (.sr (.v 9)) (.v 5) (.v 2)),
    ([0x60545080, 0xC0007076], .vcvt (headDep 0) ⟨0, false⟩ .i8 .fp64 false true .wrap 0 (.mode .rtz) (.v 5) (.v 2)),
    ([0x60581046, 0xC0140000], .vqmax (headDep 0) .fp32 1 (.v 1) (.v 6)),
    ([0x605C3046, 0xC0150972], .vqcvt (headDep 0) .fp32 (.sr (.v 9)) 7 2 (.v 3) (.v 1) (.v 6)),
    ([0x60603046, 0xC050C032], .vdq (headDep 0) ⟨1, false⟩ .bf16 .rdn 3 2 (.v 3) (.v 1) (.v 6)),
    ([0x60645A21, 0xC0500000], .vperm (headDep 0) ⟨1, false⟩ .bf16 (.v 5) .dv (.q 1)),
    ([0x60685A21, 0xC0080000], .vshuf (headDep 0) ⟨0, false⟩ .i64 (.ilvlo (.q 1)) (.v 5) .dv)] := by decide +kernel

/-- Words of the vector class, bits placed by hand from 02 R65 and the entries of 08. -/
theorem test_words_vector_3 : Stand [
    ([0x60685A21, 0xC0080020], .vshuf (headDep 0) ⟨0, false⟩ .i64 (.ilvhi (.q 1)) (.v 5) .dv),
    ([0x60685A21, 0xC0080040], .vshuf (headDep 0) ⟨0, false⟩ .i64 (.even (.q 1)) (.v 5) .dv),
    ([0x60685A21, 0xC0080060], .vshuf (headDep 0) ⟨0, false⟩ .i64 (.odd (.q 1)) (.v 5) .dv),
    ([0x60685A00, 0xC0080085], .vshuf (headDep 0) ⟨0, false⟩ .i64 (.xswap 5) (.v 5) .dv),
    ([0x60685A00, 0xC00800A0], .vshuf (headDep 0) ⟨0, false⟩ .i64 .rev (.v 5) .dv),
    ([0x60685A03, 0xC00800DF], .vshuf (headDep 0) ⟨0, false⟩ .i64 (.slide (.v 3) 31) (.v 5) .dv),
    ([0x606C5080, 0xC0180000], .vrcpe (headDep 0) ⟨0, false⟩ .fp64 (.v 5) (.v 2)),
    ([0x60705080, 0xC0140000], .vrsqe (headDep 0) ⟨0, false⟩ .fp32 (.v 5) (.v 2)),
    ([0x60743080, 0xC0940000], .vpushc (headDep 0) 2 .fp32 (.cb 3) (.v 2)),
    ([0x60763080, 0xC0940001], .vpushc (headDep 0) 2 .fp32 (.q 3 true) (.v 2)),
    ([0x60783080, 0xC0140000], .vpopc (headDep 0) .fp32 .full (.v 3) 2),
    ([0x60783080, 0xC0140401], .vpopc (headDep 0) .fp32 (.tail 4) (.v 3) 2),
    ([0x607C3080, 0xC0780000], .vmov (headDep 0) (.copy ⟨1, true⟩ .fp64 (.v 3) (.v 2))),
    ([0x607C0080, 0xC0003F01], .vmov (headDep 0) (.ds (.v 2) 63))] := by decide +kernel

/-- Words of the vector class, bits placed by hand from 02 R65 and the entries of 08. -/
theorem test_words_vector_4 : Stand [
    ([0x607C0080, 0xC0003F02], .vmov (headDep 0) (.da (.v 2) 63)),
    ([0x607C31C0, 0xC0000003], .vmov (headDep 0) (.fz (.v 3) 7)),
    ([0x607C7080, 0xC0000004], .vmov (headDep 0) (.tz 7 (.v 2))),
    ([0x607C31C0, 0xC0000005], .vmov (headDep 0) (.fk (.v 3) 7)),
    ([0x607C7080, 0xC0000006], .vmov (headDep 0) (.tk 7 (.v 2))),
    ([0x60821401, 0xC0000002], .vbcast (headDep 0) 1 (.q 1) 2049),
    ([0x608473FF], .vsetl (headDep 0) 0 7 0xFFFFFFFFFFFFFFFF),
    ([0x608A5884, 0xC1E91500], .vaccRd (headDep 0) 600 (.q 1) 30 true 1 .fp32 .rup .wrap),
    ([0x608E58A0, 0xC1E73700], .vaccWr (headDep 0) 600 .dv 30 false 7 .fp16 .rdn true),
    ([0x60905000, 0xC0880001], .viota (headDep 0) ⟨2, false⟩ .i64 true (.v 5)),
    ([0x609451C0, 0xC0040001], .vcnt (headDep 0) .i32 true (.v 5) 7),
    ([0x60985000, 0xC0A00010], .vpopq (headDep 0) ⟨2, true⟩ 16 (.v 5)),
    ([0x609E0000], .vstat (headDep 0) true)] := by decide +kernel

/-- Words of the transform class, bits placed by hand from 02 R65 and the entries of 11. -/
theorem test_words_transform_1 : Stand [
    ([0x80000060, 0xC1400400], .txPlan (headDep 0) 3 ⟨true, false, true, 1024⟩),
    ([0x8007F060], .txFwd (headDep 0) 3 63),
    ([0x80040475], .txFwdRing (headDep 0) 3 4 5),
    ([0x800BF060], .txInv (headDep 0) 3 63),
    ([0x80080475], .txInvRing (headDep 0) 3 4 5),
    ([0x8017F060], .txRfwd (headDep 0) 3 63),
    ([0x80140475], .txRfwdRing (headDep 0) 3 4 5),
    ([0x801BF060], .txRinv (headDep 0) 3 63),
    ([0x80180475], .txRinvRing (headDep 0) 3 4 5),
    ([0x8027F060], .txDigrev (headDep 0) 3 63),
    ([0x80240475], .txDigrevRing (headDep 0) 3 4 5)] := by decide +kernel

/-- Words of the transform class, bits placed by hand from 02 R65 and the entries of 11. -/
theorem test_words_transform_2 : Stand [
    ([0x800FF060, 0xC1480000], .txStage (headDep 0) 3 (.image 63) 20 true),
    ([0x8013F000, 0xC0000040], .txTwid (headDep 0) (.image 63) false false 64),
    ([0x80100918, 0xC1100000], .txTwid (headDep 0) (.ring 9) true true 0x100000),
    ([0x801FF900, 0xC1FFFFFF], .txLeg (headDep 0) 63 9 4095 8191),
    ([0x8023F000, 0xC060FFFA], .txScale (headDep 0) (.image 63) (.pow2 0xFFFA) .rdn),
    ([0x80200415, 0xC1000000], .txScale (headDep 0) (.ring 4 5) .dt .rne),
    ([0x80285300], .txRing (headDep 0) 5 3),
    ([0x802C47FF], .txSemWait (headDep 0) 2 0x7FF),
    ([0x802C4801], .txSemSig (headDep 0) 2 1),
    ([0x80320000], .txStat (headDep 0) true),
    ([0x8037F914], .txCplx (headDep 0) 63 9 true false true)] := by decide +kernel

/-- Words of the fabric class, bits placed by hand from 02 R65 and the entries of 12. -/
theorem test_words_fabric_1 : Stand [
    ([0xA0004965, 0xC021FFC0], .fbLd (headDep 0) 4 ⟨.panel, .urgent, 1, 2, 3, some 255⟩ true false true),
    ([0xA0044A09, 0xC0218000], .fbSt (headDep 0) 4 ⟨.fabric, .bulk, 1, 2, 3, none⟩ true),
    ([0xA008491E, 0xC0218000, 0xC063C800], .fbAmo (headDep 0) 4 ⟨.panel, .bulk, 2, 2, 3, none⟩ false true .ar .cas 6 7),
    ([0xA00C491A, 0xC0218000, 0xC0600000], .fbGadd (headDep 0) 4 ⟨.panel, .bulk, 2, 2, 3, none⟩ .fp32 true 6),
    ([0xA0100900], .fbFenceAcq (headDep 0) .panel),
    ([0xA0100904], .fbFenceRel (headDep 0) .panel),
    ([0xA0100908], .fbFenceAr (headDep 0) .panel),
    ([0xA010090C], .fbFenceSc (headDep 0) .panel),
    ([0xA014492A, 0xC0218000, 0xC0007E00], .fbMcst (headDep 0) 4 ⟨.panel, .bulk, 2, 2, 3, none⟩ true true 63),
    ([0xA018492A, 0xC0218000, 0xC0007E00], .fbMcld (headDep 0) 4 ⟨.panel, .bulk, 2, 2, 3, none⟩ .max true false 63)] := by decide +kernel

/-- Words of the fabric class, bits placed by hand from 02 R65 and the entries of 12. -/
theorem test_words_fabric_2 : Stand [
    ([0xA01C4304, 0xC0900000], .fbSub (headDep 0) 4 3 .launch 9),
    ([0xA0200300], .fbUnsub (headDep 0) 3),
    ([0xA0240000], .fbSflush (headDep 0)),
    ([0xA0283601, 0xC0200000], .fbColl (headDep 0) 3 .package 1 2 none),
    ([0xA02CC002], .fbCwait (headDep 0) 3 2),
    ([0xA0300000], .fbTimeNow (headDep 0)),
    ([0xA0310000], .fbTimeWin (headDep 0)),
    ([0xA03201F4], .fbTimeUntil (headDep 0) 500),
    ([0xA0360000], .fbStat (headDep 0) true)] := by decide +kernel

/-- What the checks of 02 R63 refuse, in their order: tag 7; an opcode that its tag does not have; a missing and a surplus extension word, a stray one; a
reserved field, before an unassigned value; unassigned values of `scope`, `sz`, `cls`, `asp` and operand codes; the values that entries refuse. -/
theorem test_decode_refuses :
    (∀ ws ∈ [[0xE0000000], [0x00700000], [0x20780000], [0x40480000], [0x60A00000, 0xC0000000], [0x80380000], [0xA0380000],
        [0x002C0000], [0x002C0000, 0xC0000000, 0xC0000000], [0x00040000, 0xC0000000], [0xC0000000],
        [0x20446000], [0x2000001C], [0xA00000C1, 0xC0000000], [0x20080A40], [0x00580000 + 5 * 2 ^ 15], [0x002C0000, 0xC0000008],
        [0x40041111, 0xC0000000], [0x2030000F, 0xC0000001], [0x60200000, 0xC0140000], [0x60980000, 0xC0000000], [0x80040010],
        [0x40410000 + 2 ^ 12]], decode ws = .error .illegal)
    ∧ ∀ ws ∈ [[0x00000001], [0x003C0001], [0x00680000 + 2 ^ 16], [0x20446001], [0x20000002, 0xC0000000, 0xC0000001], [0x40100001],
        [0x60000000, 0xC01400FF], [0x60980000, 0xC0040000], [0x80040200], [0xA0000001, 0xC0000001], [0x00240C00, 0xC0000000, 0xC0000000, 0xC0000010]],
      decode ws = .error .reserved := by
  refine ⟨?_, ?_⟩ <;> decide +kernel

/-- An address in a space with so many extension words and an offset. -/
def addr (asp : Asp) (xc : Fin 4) (off : BitVec 25) : MemAddr := ⟨asp, 1, xc, off⟩
/-- A head of a word of F with so many extension words. -/
def fhead (xc : Fin 4) : FabHead := ⟨.panel, .bulk, xc, 1, 2, none⟩

/-- Every check of the dependency bits, of immediates and of A's operands refuses a term (02 R48, R68, 04 R133, 06 R197, 07 R228 to R234, 09 R311, R315). -/
theorem test_wf_refuses_access : ∀ i ∈ ([
    .nop { x1 := 1 }, .cmp { x2 := 1 } .eq false 1 2 3, .lia { x3 := 1 } 2 (.a 1) 0,
    .li {} 0 1 512, .li {} 1 1 (2 ^ 34), .vbcast {} 2 (.v 1) (2 ^ 59), .lia {} 0 (.a 1) 512, .vsetl {} 0 1 512,
    .csrRd {} 1 0x002, .csrWr {} 1 0x610,
    .ld {} (addr .virt 0 8) 3 false (.reg (.a 1)), .ld {} (addr .virt 0 0) 4 false (.reg (.a 1)), .ld {} (addr .virt 1 0) 2 true (.reg (.a 1)),
    .ld {} (addr .virt 1 0) 3 false .ds, .st {} (addr .virt 0 8) 3 .da, .st {} (addr .virt 1 8) 4 (.reg (.a 1)),
    .amo {} (addr .virt 1 0) true .add .rlx .core false false 1 2, .amo {} (addr .virt 2 0) true .add .rlx .core false true 1 2,
    .cas {} (addr .virt 1 0) true .rlx .core false 1 2, .gadd {} (addr .sp0 2 0) .int .rlx .core 1, .gadd {} (addr .virt 1 0) .int .rlx .core 1,
    .grd {} (addr .sp0 2 0) .int .rne .rlx .core 1 2, .grd {} (addr .virt 2 0) .int .sr .rlx .core 1 2, .grd {} (addr .virt 1 0) .int .rne .rlx .core 1 2,
    .gclr {} (addr .sp0 2 0) .rlx .core 1, .gclr {} (addr .virt 1 0) .rlx .core 1, .waita {} (addr .virt 1 0) true .core 1 2, .wakea {} (addr .virt 1 0) .core 1,
    .convey {} (addr .sp0 1 0) 1, .convey {} (addr .virt 0 8) 1, .platQ {} (addr .sp1 2 0) 1, .platWait {} (addr .virt 1 0) 1, .platShare {} (addr .sp2 2 0) 1,
    .cpl {} 1 2 (.toRec 3 4) 5 6 7 8, .cpring {} 1 (.c (.a 1) 3 16) .m .m, .cpring {} 1 (.c (.a 1) 3 0) .copy .m, .cpring {} 1 (.r 1 2 0) .copy .m] : List Instr),
    i.wf = false := by decide +kernel

/-- Every check of the operands of M, V, T and F refuses a term, and an event is no word (08 R271 to R294, 10 R352, R359, 11 R379, R383, 12 R401). -/
theorem test_wf_refuses_engines : ∀ i ∈ ([
    .mxMma {} 0 1 1 false false none none false, .mxGer {} 0 1 1 false false none none false, .mxBatch {} 0 1 1 0 false false false,
    .mxStacc {} 0 1 .sr .sat false, .vadd {} ⟨0, false⟩ .i16 .rne (.v 1) (.v 2) (.v 3), .vsub {} ⟨0, false⟩ .fp32 .sr (.v 1) (.v 2) (.v 3),
    .vmul {} ⟨0, false⟩ .i64 .rne (.v 1) (.v 2) (.v 3), .vfma {} ⟨0, false⟩ .i32 .rne false false (.v 1) (.v 2) (.v 3) (.v 4),
    .vmin {} ⟨0, false⟩ .fp16 true (.v 1) (.v 2) (.v 3), .vmax {} ⟨0, false⟩ .fp16 true (.v 1) (.v 2) (.v 3), .vabs {} ⟨0, false⟩ .fp64 true (.v 1) (.v 2),
    .vneg {} ⟨0, false⟩ .bf16 true (.v 1) (.v 2), .viadd {} ⟨0, false⟩ .fp32 false false (.v 1) (.v 2) (.v 3),
    .visub {} ⟨0, false⟩ .fp32 false false (.v 1) (.v 2) (.v 3), .vimul {} ⟨0, false⟩ .fp32 false false false (.v 1) (.v 2) (.v 3),
    .vimul {} ⟨0, false⟩ .i32 false true true (.v 1) (.v 2) (.v 3), .vshl {} ⟨0, false⟩ .fp32 (.v 1) (.v 2) (.v 3), .vshr {} ⟨0, false⟩ .fp32 false (.v 1) (.v 2) (.v 3),
    .vcmp {} 0 .fp32 true .eq 1 (.v 2) (.v 3), .vcmp {} 0 .i32 false .un 1 (.v 2) (.v 3), .vcmpq {} 0 .fp32 true false .eq 1 (.v 2) (.v 3),
    .vcmpq {} 0 .i32 false true .ord 1 (.v 2) (.v 3), .vrsum {} 0 .fp32 false .rne false true (.v 1) (.v 2), .vrsum {} 0 .i32 false .rtz false false (.v 1) (.v 2),
    .vrsum {} 0 .fp32 false .sr false false (.v 1) (.v 2), .vrmax {} 0 .fp32 true false (.v 1) (.v 2),
    .vcvt {} ⟨0, false⟩ .i8 .e5m2 false false .sat 0 (.mode .rne) (.v 1) (.v 2), .vcvt {} ⟨0, false⟩ .i8 .fp32 true false .sat 0 (.mode .rne) (.v 1) (.v 2),
    .vcvt {} ⟨0, false⟩ .fp16 .fp32 false true .sat 0 (.mode .rne) (.v 1) (.v 2), .vcvt {} ⟨0, false⟩ .fp16 .fp32 false false .sat 2 (.mode .rne) (.v 1) (.v 2),
    .vcvt {} ⟨0, false⟩ .fp16 .fp32 false false .sat 0 (.mode .sr) (.v 1) (.v 2), .vqmax {} .i32 1 (.v 2) (.v 3), .vqcvt {} .i16 (.mode .rne) 0 1 (.v 2) (.v 3) (.v 4),
    .vqcvt {} .fp32 (.mode .rne) 8 1 (.v 2) (.v 3) (.v 4), .vdq {} ⟨0, false⟩ .fp16 .rne 4 1 (.v 2) (.v 3) (.v 4), .vdq {} ⟨0, false⟩ .i16 .rne 0 1 (.v 2) (.v 3) (.v 4),
    .vshuf {} ⟨0, false⟩ .i64 (.xswap 6) (.v 1) (.v 2), .vrcpe {} ⟨0, false⟩ .fp16 (.v 1) (.v 2), .vrsqe {} ⟨0, false⟩ .bf16 (.v 1) (.v 2),
    .vaccRd {} 0 (.v 1) 0 false 2 .fp64 .rne .sat, .vaccWr {} 0 (.v 1) 0 false 4 .fp32 .rne false, .vaccWr {} 0 (.v 1) 0 false 0 .fp32 .sr false,
    .viota {} ⟨0, false⟩ .fp32 false (.v 1), .viota {} ⟨0, true⟩ .i32 true (.v 1), .vcnt {} .fp32 false (.v 1) 2, .vpopq {} ⟨0, false⟩ 0 (.v 1),
    .vpopq {} ⟨0, false⟩ 17 (.v 1), .txFwdRing {} 0 1 1, .txInvRing {} 0 1 1, .txRfwdRing {} 0 1 1, .txRinvRing {} 0 1 1, .txDigrevRing {} 0 1 1,
    .txStage {} 0 (.ring 1 1) 0 false, .txScale {} (.ring 1 1) .dt .rne, .txScale {} (.image 1) .dt .sr, .fbLd {} 1 (fhead 0) false false false,
    .fbSt {} 1 (fhead 0) false, .fbAmo {} 1 (fhead 1) false false .rlx .cas 1 2, .fbGadd {} 1 (fhead 1) .int false 1, .fbMcst {} 1 (fhead 1) false false 1,
    .fbMcld {} 1 (fhead 1) .sum false false 1, .fbColl {} 1 .package 0 1 none, .deviceReset] : List Instr), i.wf = false := by decide +kernel

/-! ## States that meet the hypotheses of the statements

One theorem for each statement that has hypotheses: for each of its clauses a state, or several at the ends of the clause's ranges, and operands. -/

def sTurn : State :=
  turn .S (fun b => (((sr [(1, 0xFFFFFFFFFFFFFFFF), (2, 63), (3, 64), (4, 5), (5, 6), (6, 2043), (7, 5000), (8, 4097)] b).reserve .ds 0 9).show .ds 0).setSem 3 5)

/-- A shift by 63 and by 64, `s0` as a source and as a destination. -/
theorem meets_scalar_words :
    ((∀ i ∈ [Instr.add hd0 0 1 2, .sub hd0 63 0 2, .mul hd0 1 1 1, .and hd0 1 1 2, .or hd0 1 1 2, .xor hd0 1 1 2, .shl hd0 1 1 2, .shl hd0 1 1 3,
        .shr hd0 1 1 2, .shr hd0 1 1 3, .nop hd0, .li hd0 3 0 7, .mov hd0 63 1, .movFromDs hd0 0, .movToDa hd0 1, .movToDv hd0 1, .movToDt hd0 1,
        .cmp hd0 .lt true 1 1 2, .cmp hd0 .ltu false 1 1 2], Ready i sTurn ∧ Fits i sTurn.here)
    ∧ SFree sTurn [0, 1, 2, 3, 63] ∧ sTurn.here.peek .ds sTurn.here.engs.S.walk = some 9
    ∧ ∀ q ∈ [QName.da, .dv, .dt, .cq], sTurn.here.room q 1 = true)
    ∧ sTurn.here.calm := by
  refine ⟨?_, calm_of (by decide +kernel)⟩
  unfold Ready SFree Fits
  decide +kernel

def mTurn : State := turn .M (fun b => b.setSem 3 5)
def mRun : State := turn .M (fun b => { b.setSem 3 5 with mx := { b.mx with run := some ⟨.mxMode hd0 false false false, 0, 0, 0, none, none⟩ } })
def tTurn : State := turn .T (fun b => b.setSem 3 5)

/-- Waits for 0, for the whole count and for one more, a signal up to the ceiling 2047, and a wait and a signal past it. -/
theorem meets_semaphores :
    (∀ i ∈ [Instr.semWaitImm hd0 3 0, .semWaitImm hd0 3 5, .semWaitImm hd0 3 6, .semWaitReg hd0 3 4, .semWaitReg hd0 3 5, .semWaitReg hd0 3 7, .semSigImm hd0 3 2042, .semSigReg hd0 3 4,
        .semSigReg hd0 3 6, .semWaitImm hd0 3 2048, .semSigImm hd0 3 2043], Ready i sTurn ∧ Fits i sTurn.here)
    ∧ (∀ i ∈ [Instr.mxSemWait hd0 3 5, .mxSemSig hd0 3 2042], Ready i mTurn ∧ Fits i mTurn.here)
    ∧ (∀ i ∈ [Instr.txSemWait hd0 3 5, .txSemSig hd0 3 2042], Ready i tTurn ∧ Fits i tTurn.here)
    ∧ ((sTurn.here.sreg 4 = 5 ∧ sTurn.here.sreg 5 = 6 ∧ sTurn.here.sreg 6 = 2043 ∧ sTurn.here.sreg 7 = 5000) ∧ mTurn.cur.eager = false ∧ mTurn.here.mx.win = [] ∧ mTurn.here.mx.run = none
      ∧ tTurn.cur.eager = false ∧ mRun.cur.eager = false ∧ mRun.here.mx.win.length < 16 ∧ mRun.here.mx.run.isSome = true)
    ∧ (∀ s ∈ [sTurn, mTurn, mRun, tTurn], s.here.semCeil 3 = 2047 ∧ s.here.semCount 3 = 5) ∧ Ready (.mxSemWait hd0 3 5) mRun
    ∧ ∀ s ∈ [sTurn, mTurn, mRun, tTurn], s.here.calm := by
  refine ⟨?_, ?_, ?_, by decide +kernel, by decide +kernel, by unfold Ready; decide +kernel, ?_⟩
  iterate 3 (unfold Ready Fits; decide +kernel)
  intro s h
  refine calm_of ?_
  revert s
  decide +kernel

/-- `SLIPW` from a value above its range, `CSCHED`, and a register that software cannot write. -/
theorem meets_control_registers :
    (∀ k ∈ [0x000, 0x010, 0x189, 0x7FF], let csr := BitVec.ofNat 11 k
      Ready (.csrRd hd0 0 csr) sTurn ∧ Ready (.csrWr hd0 8 csr) sTurn ∧ Fits (.csrWr hd0 8 csr) sTurn.here)
    ∧ sTurn.here.csrPending = false ∧ SFree sTurn [0] ∧ SFree sTurn [8] ∧ sTurn.here.calm := by
  refine ⟨?_, ?_, ?_, ?_, calm_of ?_⟩
  · unfold Ready Fits; decide +kernel
  all_goals first | decide +kernel | (unfold SFree; decide +kernel)

/-- An engine at index 10 with return addresses, two branch outcomes and counters; `cq` has an entry; index 17 holds `ENDL` of counter 1, rotating. -/
def flowTurn (e : Engine) (calls : List Nat) : State :=
  let s := turn e (fun b => ((allAt 10 20 (textAt 17 0x00458000 (sr [(4, 0)] b))).reserve .cq 0 1).show .cq 0)
  s.onHere (fun b =>
    let b : Bank := { b with hdr := { b.hdr with rots := [(1, ⟨3, 8, 8⟩)] } }
    b.setEng e { b.eng e with stack := calls, boq := if e = .S then [] else [⟨1, []⟩, ⟨0, []⟩], lc := [(1, 3), (2, 1)], start := [(1, 5)] })

theorem meets_branches :
    (∀ e ∈ [Engine.S, .A, .M, .V, .T, .F], ∀ n ∈ [0, 1, 15, 16], let s := flowTurn e (List.replicate n 7)
      ∀ i ∈ [Instr.br hd0 0x3FFFE, .call hd0 4, .ret hd0, .brc hd0 0x3FFFE], Meets i s)
    ∧ ((flowTurn .S []).here.peek .cq 20 = some 1 ∧ (flowTurn .S []).here.boqRoom = true)
    ∧ ∀ e ∈ [Engine.A, .M, .V, .T, .F], ((flowTurn e []).here.eng e).boq = [⟨1, []⟩, ⟨0, []⟩] := by
  unfold Meets Ready
  decide +kernel

/-- Counts 0 and the largest, from the word and from a register; a counter at 0, at its last turn and before it; rotations of all eight registers. -/
theorem meets_loops :
    (∀ e ∈ [Engine.S, .A, .M, .V, .T, .F], let s := flowTurn e []
      ∀ i ∈ [Instr.loop hd0 1 (.imm 0) 7, .loop hd0 1 (.imm 0x7FFF) 7, .loop hd0 1 (.reg 4) 7, .lexit hd0 false 7, .lexit hd0 true 7, .endl hd0 0 false, .endl hd0 0 true,
        .endl hd0 2 false, .endl hd0 1 true], Meets i s)
    ∧ (∀ e ∈ [Engine.S, .A, .M, .V, .T, .F], let s := flowTurn e []
      s.here.endlAt 17 = some (1, true) ∧ spGet 0 (s.here.eng e).lc 0 = 0 ∧ spGet 0 (s.here.eng e).lc 1 = 3 ∧ spGet 0 (s.here.eng e).lc 2 = 1
      ∧ assoc s.here.hdr.rots 1 = some ⟨3, 8, 8⟩ ∧ s.here.pending .A (natsFrom 32 8) = false ∧ s.here.pending .V (natsFrom 64 8) = false)
    ∧ SFree (flowTurn .S []) [4] ∧ (flowTurn .S []).here.boqRoom = true ∧ (flowTurn .S []).here.peek .cq 20 = some 1 := by
  unfold Meets Ready SFree
  decide +kernel

/-- S at a word where every engine stands, its core quiet; the launch has a nest of 24 iterations. -/
def stopTurn (w : Nat) (it : Option Nat) (walker : Nat) (f : Launch → Launch) : State :=
  let s := turn .S (fun b => { textAt 5 w (allAt 5 9 b) with seq := { b.seq with iterno := it } })
  { s with launches := s.launches.map (fun x => f { x with walker, pkt := { x.pkt with nloops := 3, counts := [2, 3, 4, 1, 1, 1] } }) }

/-- The launch of a small state. -/
def theLaunch (s : State) : Launch := s.launches.headD (placedLaunch 0)

def drainTurn : State := stopTurn 0x00540000 none 0 id
def stagepLast : State := stopTurn 0x00600000 (some 7) 0 id
def stagepFirst : State := stopTurn 0x00600000 (some 7) 0 (fun x => { x with hdr := some { placedHeader with stages := 2 } })
def stagepNone : State := stopTurn 0x00600000 none 0 id

theorem meets_drain_and_stage :
    Quiet (.drain hd0) drainTurn
    ∧ (∀ s ∈ [stagepLast, stagepFirst], Quiet (.stagep hd0) s ∧ s.here.seq.iterno = some 7 ∧ s.here.launch.bind s.launch = some (theLaunch s)
      ∧ (theLaunch s).iterQ = [])
    ∧ ((theLaunch stagepLast).hdr.elim 1 (·.stages) ≤ stagepLast.here.seq.stage + 1)
    ∧ (stagepFirst.here.seq.stage + 1 < (theLaunch stagepFirst).hdr.elim 1 (·.stages) ∧ ((theLaunch stagepFirst).handed 1).length < (theLaunch stagepFirst).cores.length)
    ∧ Quiet (.stagep hd0) stagepNone ∧ stagepNone.here.seq.iterno = none := by
  unfold Quiet Ready
  decide +kernel

/-- The last iteration, and none left; the other engines' copies of both. -/
theorem meets_iterations :
    (∀ w ∈ [0, 23, 24], let s := stopTurn 0x005C0000 (some 3) w id
      (s.cur.eng = .S ∧ Ready (.iter hd0 4) s ∧ s.here.launch.bind s.launch = some (theLaunch s) ∧ s.here.boqRoom = true ∧ SFree s [56, 57, 58, 59, 60, 61])
      ∧ s.here.seq.stage = 0 ∧ s.here.seq.iterReq = false ∧ s.here.seq.iterAns = none ∧ (theLaunch s).iterQ = [] ∧ (theLaunch s).hdr.elim 1 (·.stages) ≤ 1
      ∧ totalIters (theLaunch s).pkt.nest = 24 ∧ (theLaunch s).walker = w)
    ∧ ∀ e ∈ [Engine.A, .M, .V, .T, .F], ∀ v ∈ [0, 1], let s := turn e (fun b => b.setEng e { b.eng e with boq := [⟨BitVec.ofNat 64 v, [1, 2, 3, 4, 5, 6]⟩] })
      Meets (.iter hd0 4) s ∧ (s.here.eng e).boq = [⟨BitVec.ofNat 64 v, [1, 2, 3, 4, 5, 6]⟩] ∧ s.here.pending .A (natsFrom 26 6) = false := by
  unfold Meets Ready SFree
  decide +kernel

theorem meets_ends :
    (let s := drainTurn
     Ready (.trap hd0 0xFFFF) s ∧ s.here.launch = some (theLaunch s).id ∧ s.launch (theLaunch s).id = some (theLaunch s) ∧ (theLaunch s).st = .running
      ∧ (theLaunch s).fault = none)
    ∧ ((turn .A id).cur.eng = .A ∧ (turn .A id).here.live = true)
    ∧ (let s := stopTurn 0x00580000 none 0 id
       Quiet (.exit hd0) s ∧ s.here.stopped = true ∧ s.flushes s.cur.loc = true ∧ s.here.launch = some (theLaunch s).id ∧ s.launch (theLaunch s).id = some (theLaunch s) ∧ (theLaunch s).st = .running ∧ NoGranules s) := by
  unfold Quiet Ready NoGranules
  decide +kernel

/-- Two cores of one cluster wait at their barrier. -/
def heldTurn : State :=
  let s := stopTurn 0x00588000 none 0 (fun x => { x with cores := [⟨0, 0⟩, ⟨1, 1⟩], bars := [⟨.cluster, 0, 0, some 3, 1000⟩] })
  let f (l : Loc) (s : State) : State := s.setBank l { s.here with seq := { s.here.seq with arrive := [(1, 1)], cairn := some .cluster } }
  f ⟨0, 0⟩ (f ⟨1, 1⟩ s)

theorem meets_barriers :
    (∀ lvl ∈ [(0, Level.core), (1, .cluster), (2, .die), (3, .package), (4, .launch)], let s := stopTurn (0x00580000 + 0x8000 * lvl.1) none 0 id
      Quiet (.cairn hd0 lvl.2) s ∧ s.here.launch = some (theLaunch s).id ∧ s.launch (theLaunch s).id = some (theLaunch s) ∧ s.here.seq.cairn = none
      ∧ s.cur.eager = false ∧ NoGranules s)
    ∧ (let x := theLaunch heldTurn
       heldTurn.launch x.id = some x ∧ x.st = .running ∧ heldTurn.barReady x .cluster 0 = true ∧ x.cores.Nodup
      ∧ (∀ l ∈ x.members .cluster 0, (heldTurn.bank l).seq.cairn = some .cluster ∧ (heldTurn.bank l).flt = none
          ∧ (heldTurn.bank l).checked (heldTurn.bank l).engs.S.pc = .ok (.cairn hd0 .cluster)))
    ∧ ∀ l ∈ (theLaunch heldTurn).members .cluster 0, (heldTurn.bank l).calm := by
  refine ⟨?_, ?_, ?_⟩
  · unfold Quiet Ready NoGranules; decide +kernel
  · decide +kernel
  · intro l h
    refine calm_of ?_
    revert l
    decide +kernel

/-- What `Accesses` supposes of an access. -/
def Reaches (s : State) (asp : Asp) (ea n : Nat) (op : AccOp) (ord : Ord) : Prop :=
  ∃ u r, s.access s.cur.loc op.kind asp ea n op.writes homesA = (u, .ok r) ∧ s.here.acc.out.length < 64 ∧ ¬(asp = .virt ∧ s.held s.here.ctx ea n = true)
    ∧ s.here.invalidating = false ∧ (ord.releases = true → s.here.engs.A.walk ≤ s.here.engs.V.walk) ∧ ¬(op.notHost = true ∧ inHost r = true)

theorem reaches_of {s : State} {asp : Asp} {ea n : Nat} {op : AccOp} {ord : Ord}
    (h : (match s.access s.cur.loc op.kind asp ea n op.writes homesA with
      | (_, .ok r) => decide (s.here.acc.out.length < 64 ∧ ¬(asp = .virt ∧ s.held s.here.ctx ea n = true)
          ∧ s.here.invalidating = false ∧ (ord.releases = true → s.here.engs.A.walk ≤ s.here.engs.V.walk) ∧ ¬(op.notHost = true ∧ inHost r = true))
      | _ => false) = true) : Reaches s asp ea n op ord := by
  obtain ⟨u, r, h, k⟩ := found_of (fun _ r => decide (s.here.acc.out.length < 64 ∧ ¬(asp = .virt ∧ s.held s.here.ctx ea n = true)
    ∧ s.here.invalidating = false ∧ (ord.releases = true → s.here.engs.A.walk ≤ s.here.engs.V.walk) ∧ ¬(op.notHost = true ∧ inHost r = true))) h
  exact ⟨u, r, h, of_decide_eq_true k⟩

/-- Bases in VIRT and in SP0: 0, the last 32 bytes of the share, the last bytes of a page; two entries in `da`. -/
def aOps : State :=
  aTurn (fun b => (((ar [(3, 0x3FFFE0), (4, 262112), (5, 77), (6, 0x1122334455667788), (7, 0x40000000), (9, 0x3FFFFFFD)] b).reserve .da 0 5).reserve .da 0 6).show .da 0)

def v3 : MemAddr := ⟨.virt, 3, 0, 0⟩
def p4 : MemAddr := ⟨.sp0, 4, 0, 0⟩

/-- Loads and stores of one byte, of the 32 last bytes of the share, and of eight bytes across two pages. -/
theorem meets_loads_and_stores :
    (∀ i ∈ [Instr.ld hd0 v3 0 true (.reg (.a 5)), .ld hd0 ⟨.virt, 9, 0, 0⟩ 3 false (.reg (.b 7)), .ld hd0 p4 5 false .ds, .ld hd0 v3 6 false .dv, .st hd0 p4 3 (.reg (.a 6)),
        .st hd0 v3 4 .da], AReady i aOps)
    ∧ aOps.here.readyA [.a 3, .a 4, .a 9, .a 5, .a 6, .b 7] = true ∧ aOps.here.room .ds 4 = true ∧ aOps.here.room .dv 8 = true
    ∧ (aOps.here.takeDa 2).isSome = true
    ∧ Reaches aOps .virt (aOps.eaOf v3) 1 (.ld (.reg (.a 5)) true) .rlx ∧ Reaches aOps .virt (aOps.eaOf ⟨.virt, 9, 0, 0⟩) 8 (.ld (.reg (.b 7)) false) .rlx
    ∧ Reaches aOps .sp0 (aOps.eaOf p4) 32 (.ld .ds false) .rlx ∧ Reaches aOps .virt (aOps.eaOf v3) 64 (.ld .dv false) .rlx
    ∧ Reaches aOps .sp0 (aOps.eaOf p4) 8 (.st (leBytes 8 0x1122334455667788)) .rlx ∧ Reaches aOps .virt (aOps.eaOf v3) 16 (.st (leBytes 16 5)) .rlx := by
  refine ⟨?_, by decide +kernel, by decide +kernel, by decide +kernel, by decide +kernel, ?_, ?_, ?_, ?_, ?_, ?_⟩
  · unfold AReady Ready; decide +kernel
  all_goals exact reaches_of (by decide +kernel)

theorem meets_atomics :
    (∀ i ∈ [Instr.amo hd0 v3 true .add .ar .system false true 0 6, .amo hd0 v3 false .umax .rlx .core true false 5 6, .cas hd0 p4 true .acq .launch false 5 6,
        .gadd hd0 v3 .fp64 .rel .package 5, .grd hd0 p4 .fp64 .rtz .rlx .core 5 6, .gclr hd0 v3 .rlx .core 5, .wakea hd0 v3 .core 5], AReady i aOps)
    ∧ aOps.here.readyA [.a 3, .a 4, .a 5, .a 6] = true ∧ aOps.eaOf v3 % 32 = 0 ∧ aOps.eaOf p4 % 32 = 0
    ∧ Reaches aOps .virt (aOps.eaOf v3) 8 (.amo true .add false true 0 7) .ar ∧ Reaches aOps .virt (aOps.eaOf v3) 4 (.amo false .umax true false 5 7) .rlx
    ∧ Reaches aOps .sp0 (aOps.eaOf p4) 8 (.cas true false 5 77 7) .acq ∧ Reaches aOps .virt (aOps.eaOf v3) 32 (.gadd .fp64 77) .rel
    ∧ Reaches aOps .sp0 (aOps.eaOf p4) 32 (.grd .fp64 .rtz 5 6) .rlx ∧ Reaches aOps .virt (aOps.eaOf v3) 32 (.gclr 77) .rlx
    ∧ Reaches aOps .virt (aOps.eaOf v3) 1 (.wakea 77) .rel := by
  refine ⟨?_, by decide +kernel, by decide +kernel, by decide +kernel, ?_, ?_, ?_, ?_, ?_, ?_, ?_⟩
  · unfold AReady Ready; decide +kernel
  all_goals exact reaches_of (by decide +kernel)

/-- One byte past the share, the last byte of VIRT and one past it, a page that is absent, a segment that is absent, an address off the grain. -/
def aFar : State :=
  aTurn (ar [(3, 262143), (4, 0x1FFFFFFFFFFFFFF), (5, 0x80000000), (6, 0x7000000000000), (7, 8)])

theorem meets_access_faults :
    (∀ i ∈ [Instr.ld hd0 ⟨.sp0, 3, 0, 0⟩ 1 true (.reg (.a 9)), .ld hd0 ⟨.sp0, 3, 0, 0⟩ 0 true (.reg (.a 9)), .ld hd0 ⟨.virt, 4, 0, 0⟩ 1 true (.reg (.a 9)),
        .ld hd0 ⟨.virt, 5, 0, 0⟩ 1 true (.reg (.a 9)), .ld hd0 ⟨.virt, 6, 0, 0⟩ 1 true (.reg (.a 9)), .gadd hd0 ⟨.virt, 7, 0, 0⟩ .int .rlx .core 9], AReady i aFar)
    ∧ aFar.here.readyA [.a 3, .a 4, .a 5, .a 6, .a 7, .a 9] = true ∧ aFar.here.acc.out.length < 64 ∧ aFar.here.invalidating = false
    ∧ (∀ r ∈ [4, 5, 6], ¬ aFar.held 0 (aFar.eaOf ⟨.virt, r, 0, 0⟩) 2 = true)
    ∧ (aFar.access ⟨0, 0⟩ .read .virt (aFar.eaOf ⟨.virt, 4, 0, 0⟩) 2 false homesA).2 = .fault .addr
    ∧ (aFar.access ⟨0, 0⟩ .read .virt (aFar.eaOf ⟨.virt, 5, 0, 0⟩) 2 false homesA).2 = .page 0x80000000
    ∧ 2 ^ 57 < aFar.eaOf ⟨.virt, 4, 0, 0⟩ + 2 ∧ aFar.eaOf ⟨.sp0, 3, 0, 0⟩ + 1 = aFar.here.hdr.spad ∧ aFar.eaOf ⟨.virt, 7, 0, 0⟩ % 32 ≠ 0 := by
  refine ⟨?_, ?_⟩
  · unfold AReady Ready; decide +kernel
  · decide +kernel

/-- An access of a bank that may perform: a store across two ranges, a load, an atomic, each the one outstanding. -/
def outTurn (op : AccOp) (r : List Rng) (old : Option (List Byte) := none) : State :=
  (turn .A id).onHere (fun b => { b with acc := { b.acc with out := [⟨4, 0, 0, r, op, .self, old, []⟩] } })

theorem meets_access_performs :
    ∀ x ∈ [(AccOp.st [1, 2, 3], [(⟨.pa 0xFFF, 1, none, 0⟩ : Rng), ⟨.pa 0x8000, 2, none, 0⟩]), (.ld (.reg (.a 5)) true, [⟨.sp0 ⟨0, 0⟩ 262143, 1, none, 0⟩]),
        (.cas true true 5 0 9, [⟨.pa 0x100, 8, none, 0⟩]), (.gadd .int 1, [⟨.pa 0x100, 32, none, 0⟩])], let s := outTurn x.1 x.2 (if x.1.reads then some (List.replicate 8 0) else none)
      ∀ a ∈ (s.bank ⟨0, 0⟩).acc.out, (s.bank ⟨0, 0⟩).acc.out.find? (fun y => y.id == a.id) = some a ∧ s.accReady ⟨0, 0⟩ a = true ∧ (a.unit 0 = none ∨ a.old.isSome = true)
        ∧ (s.platCheck 0 (s.bank ⟨0, 0⟩).ctx a.op.kind a.rngs).2 = none ∧ s.badRngs a.rngs = none ∧ (s.bank ⟨0, 0⟩).acc.park = none
        ∧ a.rngs.Pairwise (fun y z => y.overlaps z = false) := by
  decide +kernel

theorem meets_access_arithmetic :
    (∀ i ∈ [Instr.lia hd0 3 (.b 7) 7, .adda hd0 (.a 31) .da .da, .mova hd0 (.b 0) .da, .movaToDs hd0 (.reg (.a 5)), .movaToDv hd0 .da, .movaToDt hd0 (.reg (.b 7))], AReady i aOps)
    ∧ aOps.here.readyA [.a 31, .a 5, .b 0, .b 7] = true ∧ (∀ q ∈ [QName.ds, .dv, .dt], aOps.here.room q 1 = true)
    ∧ aOps.here.peek .da aOps.here.engs.A.walk = some 5 ∧ (aOps.here.takeA .da).isSome = true ∧ (aOps.here.takeA (.reg (.b 7))).isSome = true
    ∧ ((aOps.here.takeA .da).bind (fun x => x.2.takeA .da)).isSome = true := by
  refine ⟨?_, ?_⟩
  · unfold AReady Ready; decide +kernel
  · decide +kernel

/-- Record 2 is a matrix of 4 by 3 FP32 elements; record 63 is not a record. -/
def recTurn : State :=
  aTurn (fun b =>
    let b := (((ar [(3, 0x40000100), (5, 0), (6, 0x141)] b).reserve .da 0 5).show .da 0)
    let rows : Sparse Reg64 := [(24, 0x106), (25, 0x1000), (26, 0x400000004), (27, 4), (28, 0x300000003), (29, 16), (34, 0x1001000)]
    { b with acc := { b.acc with td := rows.foldl (fun t p => spPut 0 t p.1 p.2) b.acc.td } })

theorem meets_records_and_status :
    (∀ i ∈ [Instr.tdSet hd0 63 11 3, .tdGet hd0 2 0 3, .qbind hd0 2 7 true 5 5, .qbind hd0 63 0 false 5 5, .qend hd0 0, .astat hd0 (.a 3), .astatMiss hd0 (.b 7),
        .tlbinvAll hd0, .astatClr hd0 (.a 3) .da, .tlbinvPage hd0 (.reg (.a 3)), .tlbinvSeg hd0 .da, .segqState hd0 (.a 5) .da, .segqProbe hd0 (.a 5) (.reg (.a 3))], AReady i recTurn)
    ∧ recTurn.here.readyA [.a 3, .a 5, .b 7] = true ∧ (recTurn.here.tdReady 2 = true ∧ recTurn.here.tdReady 63 = true) ∧ recTurn.here.endable 0 = true
    ∧ recTurn.here.bound 7 = false ∧ recTurn.here.invalidating = false ∧ recTurn.here.grdOut = false ∧ (recTurn.here.takeA .da).isSome = true
    ∧ (let t (td : Nat) : List Reg64 := (upTo 12).map (fun j => spGet 0 recTurn.here.acc.td (12 * td + j))
       let org := originOf (recTurn.here.ax 5) (recTurn.here.ax 5)
       recFault (t 2) (some org) = none ∧ ¬((tdescOf (t 2)).fill = 3 ∧ (tdescOf (t 2)).reaches org = true) ∧ (recFault (t 63) (some org)).isSome = true) := by
  refine ⟨?_, ?_⟩
  · unfold AReady Ready; decide +kernel
  · decide +kernel

/-- A read and a store outstanding. -/
def readOut : State := outTurn (.ld (.reg (.a 5)) true) [⟨.pa 0, 8, none, 0⟩]
def storeOut : State := outTurn (.st [1]) [⟨.pa 0, 1, none, 0⟩]

theorem meets_fences :
    (∀ s ∈ [turn .A id, readOut, storeOut], (∀ i ∈ [Instr.fenceAcq hd0 .core, .fenceRel hd0 .core, .fenceAr hd0 .system, .fenceSc hd0 .launch, .fenceXp hd0], AReady i s)
      ∧ s.here.engs.A.walk ≤ s.here.engs.V.walk)
    ∧ (storeOut.here.readIds = [] ∧ storeOut.here.relIds ≠ []) ∧ readOut.here.readIds ≠ [] ∧ (turn .A id).here.relIds = [] ∧ (turn .A id).here.readIds = [] := by
  unfold AReady Ready
  decide +kernel

/-- A waits on the granule at 0x100, from a value that it found, with a timeout that has come. -/
def waitTurn : State :=
  let s := aTurn (ar [(3, 0x100), (5, 1), (6, 5)])
  { s with dtime := 7, mem := spPut 0 s.mem 0x100 5 }
def waiting : State :=
  let s := waitTurn.onHere (fun b => { b with acc := { b.acc with park := some (.waita 2 5 (.pa 0x100) (some 7)) } })
  { s with watches := [⟨⟨0, 0⟩, .pa 0x100⟩] }

theorem meets_address_waits :
    (AReady (.waita hd0 v3 true .core 5 6) waitTurn ∧ AReady (.waita hd0 v3 false .core 5 3) waitTurn)
    ∧ (waitTurn.here.readyA [.a 3, .a 5, .a 6] = true ∧ waitTurn.eaOf v3 % 8 = 0 ∧ ¬ waitTurn.held 0 (waitTurn.eaOf v3) 8 = true)
    ∧ (∃ u r, waitTurn.access waitTurn.cur.loc .watch .virt (waitTurn.eaOf v3) 8 false homesA = (u, .ok r)
        ∧ (inHost r = false ∧ (u.platCheck 0 0 .watch r).2 = none ∧ waitTurn.badRngs r = none ∧ ofLe (waitTurn.readRngs r) = 5))
    ∧ waitTurn.here.invalidating = false ∧ waitTurn.here.acc.out = [] ∧ waitTurn.here.acc.acqBar = []
    ∧ ((waiting.bank ⟨0, 0⟩).acc.park = some (.waita 2 5 (.pa 0x100) (some 7)) ∧ 7 ≤ waiting.dtime)
    ∧ ((⟨⟨0, 0⟩, .pa 0x100⟩ : Watch) ∈ waiting.watches ∧ ∀ w ∈ waiting.watches, w.l = ⟨0, 0⟩ → w.g = .pa 0x100) := by
  refine ⟨?_, by decide +kernel, ?_, by decide +kernel, by decide +kernel, by decide +kernel, by decide +kernel, by decide +kernel⟩
  · unfold AReady Ready; decide +kernel
  · obtain ⟨u, r, h, k⟩ := found_of (x := waitTurn.access waitTurn.cur.loc .watch .virt (waitTurn.eaOf v3) 8 false homesA)
      (fun u r => decide (inHost r = false ∧ (u.platCheck 0 0 .watch r).2 = none ∧ waitTurn.badRngs r = none ∧ ofLe (waitTurn.readRngs r) = 5)) (by decide +kernel)
    exact ⟨u, r, h, of_decide_eq_true k⟩

/-- A parcel of core 0 at its first and at its last byte, a shared one, one of core 9, and none. -/
theorem meets_parcels :
    (∀ va ∈ [0x100000, 0x101FFF], let s := aTurn (ar [(3, BitVec.ofNat 64 va), (5, 511)])
      (∀ i ∈ [Instr.convey hd0 v3 5, .platShare hd0 v3 5, .platQ hd0 v3 5, .platWait hd0 v3 5], AReady i s) ∧ s.here.readyA [.a 3, .a 5] = true
      ∧ s.here.quietA = true ∧ s.here.invalidating = false ∧ s.held s.here.ctx (s.eaOf v3) 1 = false ∧ s.enabled (s.here.ax 5).toNat = true
      ∧ (match s.access s.cur.loc .read .virt (s.eaOf v3) 1 false homesA with
        | (u, .ok _) => (match u.platLookup 0 s.here.ctx (s.eaOf v3) with | (_, .entry _ p0 p1) => decide (platMode p0 = 0 ∧ platOwner p1 = 0) | _ => false)
        | _ => false) = true)
    ∧ (∀ va ∈ [0x200000, 0x300000, 0x400000], let s := aTurn (ar [(3, BitVec.ofNat 64 va), (5, 1)])
      AReady (.platQ hd0 v3 5) s ∧ AReady (.platWait hd0 v3 5) s ∧ s.eaOf v3 < 2 ^ 57 ∧ (s.platLookup 0 0 (s.eaOf v3)).2 ≠ .bad ∧ s.platw.length < 256
      ∧ parcelReadable 0 (s.platLookup 0 0 (s.eaOf v3)).2 = decide (va ≠ 0x300000))
    ∧ (let s := (aTurn id).onHere (fun b => { b with acc := { b.acc with park := some (.plat 2 5 0x300000 (some 0)) } })
       (s.bank ⟨0, 0⟩).acc.park = some (.plat 2 5 0x300000 (some 0)) ∧ 0 ≤ s.dtime
      ∧ (s.platLookup 0 (s.bank ⟨0, 0⟩).ctx 0x300000).2 ≠ .bad
      ∧ (let t := s.writePa 0x60000028 (leBytes 8 (2 ^ 10 + 9))
         (t.platLookup 0 (t.bank ⟨0, 0⟩).ctx 0x300000).2 = .bad ∧ (t.bank ⟨0, 0⟩).flt = none ∧ (t.bank ⟨0, 0⟩).acc.park = some (.plat 2 5 0x300000 (some 0))))
    ∧ platMode (13 * 2 ^ 57 + 2 ^ 62) < 3 ∧ ((aTurn id).ctx 0).isSome = true := by
  unfold AReady Ready
  decide +kernel

/-- A record of the package's VIRT or SP0 memory: a matrix of 4 by 3 elements of four bytes with an image. -/
def recOf (td fmt va img : Nat) (t : Sparse Reg64) : Sparse Reg64 :=
  [(0, fmt + 0x100), (1, va), (2, 0x400000004), (3, 4), (4, 0x300000003), (5, 16), (10, img + 0x1000000)].foldl
    (fun t p => spPut 0 t (12 * td + p.1) (BitVec.ofNat 64 p.2)) t

/-- A ring of 4 KiB slots and one that rotates. -/
def ringC (prod cons : RingEnd) (base slots : Nat) (chan : Option (Nat × Nat)) : Ring :=
  ⟨0, false, prod, cons, 4096, base, slots, 0, 0, [], 0, 0, 0, List.replicate slots .empty, [], [], chan⟩
def ringR (prod cons : RingEnd) (b : List Nat) : Ring := ⟨0, true, prod, cons, 4096, 0, 0, 1, 1, b, 0, 0, 0, [], [], [], none⟩

/-- A with records 1 to 3 and rings 0 to 4, the stages of a rotating loop on or off. -/
def copyTurn (sten : BitVec 8) : State :=
  aTurn (fun b =>
    let b := ar [(3, 0), (4, 0), (5, 0x0001000000000001), (6, 3), (7, 0), (9, 0x100), (10, 0x140), (11, 64)] b
    { b with
      acc := { b.acc with td := recOf 3 7 0x300 0x3000 (recOf 2 6 0x200 0x2000 (recOf 1 6 0x100 0x1000 b.acc.td)) }
      car := { b.car with rings := [(0, ringC .copy .m 0x4000 4 none), (1, ringC .m .copy 0x8000 4 none), (2, ringC .copy .t 0xC000 2 (some (0, 7))),
        (3, ringR .copy .m [0x10000, 0x11000]), (4, ringR .m .copy [0x12000, 0x13000])] }
      engs := { b.engs with A := { b.engs.A with sten } } })

theorem meets_copies :
    (∀ kind ∈ [CpKind.toRec 2 7, .toRing 0 true 31, .toRing 2 false 0, .toRing 3 true 9, .toPeer 15 true 3 7, .drain 1 0, .drain 4 3],
      ∀ sten ∈ [0xFF, 0xFD], let s := copyTurn (BitVec.ofNat 8 sten); let k := s.here
      AReady (.cp hd0 1 7 kind 3 4) s ∧ AReady (.cpl hd0 1 7 kind 3 4 6 5) s
      ∧ k.copyReady ([3, 4, 6, 5] ++ (CpKind.far kind).1) (1 :: (CpKind.far kind).2) 7 = true)
    ∧ (∀ sten ∈ [0xFF, 0xFD], let s := copyTurn (BitVec.ofNat 8 sten); let k := s.here; let org := originOf (k.ax 3) (k.ax 4)
      (recFault (k.td 1) (some org) = none ∧ trapReach (k.td 1) org = false)
      ∧ (let od := halves (k.ax 7).toNat
         recFault (k.td 2) (some od) = none ∧ trapReach (k.td 2) od = false ∧ (tdescOf (k.td 1)).fmt = (tdescOf (k.td 2)).fmt
          ∧ (tdescOf (k.td 1)).count = (tdescOf (k.td 2)).count ∧ (tdescOf (k.td 1)).vx4 = false)
      ∧ (∀ r ∈ [ringC .copy .m 0x4000 4 none, ringC .m .copy 0x8000 4 none, ringC .copy .t 0xC000 2 (some (0, 7))], RingFits r (k.td 1) org ∧ k.idle .A r = false)
      ∧ (∀ r ∈ [ringR .copy .m [0x10000, 0x11000], ringR .m .copy [0x12000, 0x13000]], RingFits r (k.td 1) org ∧ (k.idle .A r = true ↔ sten = 0xFD))
      ∧ (k.ring 0 = some (ringC .copy .m 0x4000 4 none) ∧ k.ring 1 = some (ringC .m .copy 0x8000 4 none) ∧ k.ring 2 = some (ringC .copy .t 0xC000 2 (some (0, 7)))
        ∧ k.ring 3 = some (ringR .copy .m [0x10000, 0x11000]) ∧ k.ring 4 = some (ringR .m .copy [0x12000, 0x13000]))
      ∧ (s.placed k.launch ((k.ax 7).toNat % 2 ^ 10) = some s.cur.loc ∧ k.ring 15 = none)) := by
  unfold AReady Ready RingFits
  decide +kernel

/-- The same with a copy queued and begun, the write pointer of its channel at 640, a schedule and a rotating loop of two bases. -/
def chanTurn : State :=
  (copyTurn 0xFF).onHere (fun b =>
    let x := b.newCmd 8 hd0 (.toRec (b.td 1) (b.td 2) [0, 0, 0, 0] [0, 0, 0, 0]) false 1 none
    let b : Bank := { b with hdr := { b.hdr with rots := [(1, ⟨2, 0, 1⟩)] } }
    let b : Bank := { b with car := { b.car with sched := [⟨5, 0, b.td 1, some 4, 5, 3, [0, 0, 0, 0], [0, 0, 0, 0]⟩, ⟨5, 0, b.td 1, some 4, 0, 3, [0, 0, 0, 0], [0, 0, 0, 0]⟩] } }
    ((b.putChan 5 { b.chan 5 with cwp := 640, cmds := [{ x with off := 512 }, { x with id := 10 }] }).setAreg (.b 0) 0x10000).setAreg (.b 1) 0x3F000)

theorem meets_rings_and_channels :
    (let s := copyTurn 0xFF; let k := s.here
      (∀ i ∈ [Instr.tmov hd0 1 0 true 3 4, .siftEnc hd0 0 .virt .sp0 9 10 11 6, .siftDec hd0 0 (.plain .sp1 9) .sp0 10 11 6, .siftEnc hd0 0 .virt .sp0 9 10 11 7,
          .siftDec hd0 7 (.ring 0) .sp0 10 11 6, .accmov hd0 1023 0 true .virt 9, .accmov hd0 0 0 false .sp0 6], AReady i s)
      ∧ k.copyReady [9, 10, 11, 6, 7, 3, 4] [1] 0 = true ∧ k.copyReady [10, 11, 6] [] 7 = true
      ∧ recCheck (k.td 1) (some (originOf (k.ax 3) (k.ax 4))) k.hdr.spad = none ∧ trapReach (k.td 1) (originOf (k.ax 3) (k.ax 4)) = false
      ∧ ((k.ax 9).toNat % 64 = 0 ∧ (k.ax 10).toNat % 64 = 0 ∧ (k.ax 11).toNat % 64 = 0 ∧ (k.ax 6).toNat = 3 ∧ (k.ax 7).toNat = 0)
      ∧ k.ring 0 = some (ringC .copy .m 0x4000 4 none) ∧ k.idle .A (ringC .copy .m 0x4000 4 none) = false ∧ 512 * 3 ≤ (ringC .copy .m 0x4000 4 none).size)
    ∧ (let s := chanTurn; let k := s.here
      (∀ i ∈ [Instr.cpring hd0 15 (.c (.a 9) 63 64) .copy .m, .cpring hd0 15 (.r 3 1 64) .t .copy, .cpwpRd hd0 31 5, .cpwpWait hd0 11 5, .cpwpWait hd0 5 5, .cpwpDs hd0 5, .cpcan hd0 5,
          .cpcanAll hd0], AReady i s)
      ∧ (∀ mode ∈ [RingMode.c (.a 9) 63 63, .r 3 1 64], k.pending .A (k.cpringRegs mode) = false ∧ k.cpringReady s.cur.loc 15 (RingMode.isC mode) .m = true
          ∧ ∀ x ∈ (k.ringOf mode .copy .m).bases, x % 64 = 0 ∧ x + (k.ringOf mode .copy .m).size ≤ k.hdr.spad)
      ∧ (k.readyA [.a 31, .a 11, .a 5] = true ∧ (k.ax 11).toNat ≤ (k.chan 5).cwp.toNat ∧ (k.chan 5).cwp.toNat < (k.ax 5).toNat ∧ k.room .ds 1 = true)
      ∧ s.served ⟨0, 0⟩ = true ∧ (s.bank ⟨0, 0⟩).st ≠ .halting ∧ (s.bank ⟨0, 0⟩).nextSched.map (·.1) = some 1
      ∧ ∀ e ∈ (s.bank ⟨0, 0⟩).car.sched, recFault e.tdr (some e.org) = none) := by
  unfold AReady Ready
  decide +kernel

/-- A copy of 48 bytes from VIRT to VIRT, and its last step. -/
def pubTurn : State :=
  (copyTurn 0xFF).onHere (fun b => b.putChan 5 { b.chan 5 with cmds := [b.newCmd 8 hd0 (.toRec (b.td 1) (b.td 2) [0, 0, 0, 0] [0, 0, 0, 0]) false 1 none] })

theorem meets_chunks :
    (let s := pubTurn; let l : Loc := ⟨0, 0⟩
     ∀ x ∈ ((s.bank l).chan 5).cmds, ((s.bank l).chan 5).cmds = [x] ∧ s.chanLive l 5 = true ∧ x.after = [] ∧ x.finished = false ∧ s.copyHeld l x = false
      ∧ ({ x with iter := 1 } : Cmd).finished = true ∧ x.slot = none
      ∧ (let hi := min (x.len l) (x.off + (512 - (x.before + x.off) % 512))
         let its := sliceItems x.off hi 0 (x.items l)
         let b := s.takeBusy l 5 x (itemSegs its)
         hi = 48 ∧ itemsLen its = 48 ∧ s.segWait (s.bank l).ctx x (itemSegs its) = false
          ∧ (match b.1.moveItems l its (copyDetail 5 ((x.before + x.off) / 512)) with | .ok _ => true | _ => false) = true
          ∧ (match s.resolveAll l false (its.map (fun x => (x.src, x.len))) with
            | (u, .ok rs) => (match u.resolveAll l true (its.map (fun x => (x.dst, x.len))) with
              | (v, .ok ws) => decide ((v.platCheck l.core (s.bank l).ctx .read rs.flatten).2 = none ∧ (v.platCheck l.core (s.bank l).ctx .write ws.flatten).2 = none
                  ∧ v.tHolds (rs.flatten ++ ws.flatten) = false ∧ s.badRngs rs.flatten = none ∧ ws.flatten.Pairwise (fun x y => x.overlaps y = false)
                  ∧ ∀ x ∈ rs.flatten, ∀ y ∈ ws.flatten, x.overlaps y = false)
              | _ => false)
            | _ => false) = true)) := by
  decide +kernel

theorem meets_sift_lossless : (List.replicate 512 (0xA5 : Byte)).length = 512 := by
  decide +kernel

/-- A record whose window is all of a matrix of `d0` by `d1` elements of `es` bytes, its image at `img`. -/
def wholeRec (fmt img d0 d1 es : Nat) : List Reg64 :=
  [BitVec.ofNat 64 (fmt + 0x100), 0x100, BitVec.ofNat 64 (d0 + 2 ^ 32 * d0), BitVec.ofNat 64 es, BitVec.ofNat 64 (d1 + 2 ^ 32 * d1), BitVec.ofNat 64 (d0 * es), 0, 0, 0, 0,
    BitVec.ofNat 64 (img + 0x1000000), 0]

def fullRing (g : Nat) (prod cons : RingEnd) (base : Nat) (st : SlotSt) : Nat × Ring :=
  (g, ⟨0, false, prod, cons, 8192, base, 2, 0, 0, [], 0, 0, 2, [st, st], [], [], none⟩)

/-- M with rings 0 and 1 to consume, 2 to produce, 3 and 4 of mode R, each bound; the granted shape is 8 by 32 and A has come as far. -/
def mxTurn (fmt es d0 : Nat) : State :=
  turn .M (fun b =>
    let b : Bank := { b with
      car := { b.car with rings := [fullRing 0 .copy .m 0x4000 .full, fullRing 1 .copy .m 0x8000 .full, fullRing 2 .m .copy 0xC000 .empty,
        (3, ringR .copy .m [0x4000, 0x5000]), (4, ringR .m .copy [0x12000, 0x13000])] }
      mx := { b.mx with rows := 8, cols := 32, bind := [(0, ⟨wholeRec fmt 0x4000 d0 8 es, none⟩), (1, ⟨wholeRec fmt 0x8000 d0 32 es, none⟩),
        (2, ⟨wholeRec fmt 0xC000 8 4 es, none⟩), (3, ⟨wholeRec fmt 0x4000 d0 8 es, none⟩), (4, ⟨wholeRec fmt 0x12000 8 4 es, none⟩)] }
      acc := { b.acc with td := recOf 7 8 0x300 0x3000 b.acc.td } }
    b.setSem 3 5)

/-- A word waits in M's window. -/
def mxBusy (s : State) : State := s.onHere (fun b => { b with mx := { b.mx with win := [⟨.mxZero hd0 5, 0, 0, 0, none, none⟩] } })

theorem steady_of {k : Bank} (h : (k.mx.run.isSome || k.mx.win.head?.all (fun w => !w.instant)) = true) : Steady k := by
  intro hr w rest hw
  simpa [hr, hw] using h

theorem mready_of {i : Instr} {s : State} (h : Ready i s ∧ s.here.mx.win.length < 16 ∧ s.cur.eager = false
    ∧ (s.here.mx.run.isSome || s.here.mx.win.head?.all (fun w => !w.instant)) = true) : MReady i s :=
  ⟨h.1, h.2.1, h.2.2.1, steady_of h.2.2.2⟩

/-- The words of `meets_matrix_words`, with operands and without. -/
def mxWords : List Instr :=
  [.mxShape hd0 0 0 false false, .mxShape hd0 7 31 true true, .mxCseq hd0 0xFFFFFFFF, .mxMode hd0 true true true, .mxRing hd0 7 4, .mxFmt hd0 0 .i8, .mxFmt hd0 3 .i16,
    .mxScale hd0 2 (some 0x3F80), .mxScale hd0 0 none, .mxZero hd0 1023, .mxTrn hd0 0, .mxAccmov hd0 0 1023 true, .mxAccadd hd0 5 5 false true,
    .mxMma hd0 0 0 1 true false none none false, .mxMma hd0 0 3 1 true false (some ⟨3, 4⟩) (some ⟨3, 7⟩) true, .mxBatch hd0 1008 0 1 15 false false true,
    .mxLdacc hd0 0 0 false false false, .mxLdacc hd0 0 3 false false false, .mxStacc hd0 0 2 .rne .sat false, .mxStacc hd0 0 4 .rne .sat false, .mxPop hd0 0, .mxPop hd0 3,
    .mxStat hd0 true]

theorem meets_matrix_ready : ∀ s ∈ [mxTurn 8 1 4, mxBusy (mxTurn 8 1 4)], ∀ i ∈ mxWords, MReady i s := by
  intro s hs i hi
  refine mready_of ?_
  unfold Ready
  revert s i
  decide +kernel

/-- M is idle, and it is busy. -/
theorem meets_matrix_idle : MIdle (mxTurn 8 1 4).here ∧ MBusy (mxBusy (mxTurn 8 1 4)).here :=
  ⟨⟨by decide +kernel, by decide +kernel, calm_of (by decide +kernel)⟩, .inr (by decide +kernel)⟩

/-- Shapes at their ends: 1 by 1, the whole of a shape, one past its columns. A format of each family, and one of another. -/
theorem meets_matrix_words :
    (let s := mxTurn 8 1 4; let k := s.here
      (k.room .cq 1 = true ∧ k.room .ds 1 = true ∧ recFault (k.td 7) none = none)
      ∧ (∀ g ∈ [0, 1, 2, 3, 4], ∃ r ∈ (k.ring g).toList, NamesRing k g r ∧ (r.prod = .m ∨ r.cons = .m) ∧ (k.mbind g).isSome = true)
      ∧ (∀ p ∈ [(0, 0, 8, 32), (7, 31, 8, 32), (8, 15, 16, 16), (8, 16, 16, 32), (16, 15, 32, 16), (31, 31, 32, 32)],
          (p.2.2.1, p.2.2.2) ∈ [(8, 32), (16, 16), (16, 32), (32, 16), (32, 32)] ∧ p.1 < p.2.2.1 ∧ p.2.1 < p.2.2.2
          ∧ ∀ q ∈ [(8, 32), (16, 16), (16, 32), (32, 16), (32, 32)], p.1 < q.1 → p.2.1 < q.2 → p.2.2.1 * p.2.2.2 < q.1 * q.2 ∨ p.2.2.1 * p.2.2.2 = q.1 * q.2 ∧ p.2.2.1 ≤ q.1)
      ∧ ((tdescOf (wholeRec 8 0x4000 4 8 1)).fmt = 8 ∧ tfmtCode .i8 = 0 ∧ tfmtCode .i16 = 1)
      ∧ (4 + 1 ≤ k.semCeil 3 ∧ 4 + 1 ≤ k.semCount 3)
      ∧ (∀ ga ∈ [0, 3], ∀ ra ∈ (k.ring ga).toList, ∀ xa ∈ (k.mbind ga).toList, ∀ rb ∈ (k.ring 1).toList, ∀ xb ∈ (k.mbind 1).toList, ra.cons = .m ∧ rb.cons = .m
          ∧ k.passFault false (⟨ga, xa.tdr, xa.scale, k.opSrc .M ra⟩, ra) (⟨1, xb.tdr, xb.scale, k.opSrc .M rb⟩, rb) = none
          ∧ TileFits ⟨ga, xa.tdr, xa.scale, k.opSrc .M ra⟩ ra)
      ∧ (∀ g ∈ [2, 4], ∀ r ∈ (k.ring g).toList, ∀ x ∈ (k.mbind g).toList, r.prod = .m ∧ TileFits ⟨g, x.tdr, x.scale, k.opSrc .M r⟩ r ∧ (r.modeR = false → r.slotSt r.tail = .empty)))
    ∧ (let s := turn .M (fun b =>
          let r : List Reg64 := [0, 0x100, 0x800000008, 1, 0, 0, 0, 0, 0, 0, 0x4000, 0]
          let r' : List Reg64 := [0, 0x100, 0x2000000020, 1, 0, 0, 0, 0, 0, 0, 0x8000, 0]
          { b with car := { b.car with rings := [fullRing 0 .copy .m 0x4000 .full, fullRing 1 .copy .m 0x8000 .full] }, mx := { b.mx with rows := 8, cols := 32, bind := [(0, ⟨r, none⟩), (1, ⟨r', none⟩)] } })
       let k := s.here
       (Ready (.mxGer hd0 0 0 1 true false none none false) s ∧ s.here.mx.win.length < 16 ∧ s.cur.eager = false
        ∧ (s.here.mx.run.isSome || s.here.mx.win.head?.all (fun w => !w.instant)) = true)
      ∧ ∀ ra ∈ (k.ring 0).toList, ∀ xa ∈ (k.mbind 0).toList, ∀ rb ∈ (k.ring 1).toList, ∀ xb ∈ (k.mbind 1).toList, NamesRing k 0 ra ∧ NamesRing k 1 rb
          ∧ k.passFault true (⟨0, xa.tdr, xa.scale, k.opSrc .M ra⟩, ra) (⟨1, xb.tdr, xb.scale, k.opSrc .M rb⟩, rb) = none) := by
  unfold Ready NamesRing TileFits
  refine ⟨⟨?_, ?_, ?_, ?_, ?_, ?_, ?_⟩, ?_⟩
  all_goals decide +kernel

/-- A window with one word at its head. -/
def winTurn (fmt es d0 : Nat) (i : Instr) (oa ob : Option Opnd) : State :=
  (mxTurn fmt es d0).onHere (fun b => { b with mx := { b.mx with win := [⟨i, 0, 0, 0, oa, ob⟩] } })

theorem meets_slot_words :
    ∀ i ∈ [Instr.mxZero hd0 0, .mxTrn hd0 0, .mxAccmov hd0 0 1023 false, .mxAccmov hd0 0 1023 true, .mxAccadd hd0 0 1023 true true, .mxAccadd hd0 0 1023 false false],
      let s := winTurn 0 1 4 i none none
      (s.bank ⟨0, 0⟩).slotHeld 0 = false ∧ (s.bank ⟨0, 0⟩).slotHeld 1023 = false ∧ (s.bank ⟨0, 0⟩).mx.run = none ∧ (s.bank ⟨0, 0⟩).live = true ∧ (s.bank ⟨0, 0⟩).mx.win.map (·.instr) = [i] := by
  decide +kernel

def opA (fmt es d0 : Nat) (g : Fin 16) : Opnd := ⟨g, wholeRec fmt (if g = 1 then 0x8000 else 0x4000) d0 (if g = 1 then 32 else 8) es, none, .head⟩

/-- A word of M finds an operand at its base. -/
def found (b : Bank) (o : Opnd) (p : Nat) : Bool := b.opBase ⟨0, 0⟩ .M o 0 o.reads == some p && (b.badRuns (o.reads p)).isNone

theorem finds_of {b : Bank} {w : WinEnt} {o : Opnd} {p : Nat} (h : found b o p = true) (hw : w.walk = 0) : Finds b ⟨0, 0⟩ w o p := by
  unfold found at h
  unfold Finds
  rw [hw]
  simpa using h

/-- The operands of a pass are published, and one of an idle ring is found at 0; a batch whose pass is under way, at its last pass and before it. -/
theorem meets_integer_pass :
    (∀ i ∈ [Instr.mxMma hd0 1023 0 1 false true none none true, .mxGer hd0 0 0 1 false true none none false, .mxBatch hd0 0 0 1 0 false false false,
        .mxBatch hd0 0 0 1 15 false false false], let s := winTurn 0 1 4 i (some (opA 0 1 4 0)) (some (opA 0 1 4 1))
      let b := s.bank ⟨0, 0⟩
      b.live = true ∧ b.mx.run = none ∧ b.mx.win.map (fun w => (w.walk, w.done)) = [(0, 0)] ∧ b.mx.cseq = 0 ∧ b.mx.negp = false ∧ (tdescOf (opA 0 1 4 0).tdr).fmt = 0 ∧ (tdescOf (opA 0 1 4 1).tdr).fmt = 0
      ∧ b.slotHeld 0 = false ∧ b.slotHeld 1023 = false ∧ found b (opA 0 1 4 0) 0x4000 = true ∧ found b (opA 0 1 4 1) 0x8000 = true
      ∧ found b { opA 0 1 4 0 with src := .idle } 0 = true
      ∧ b.popsDue (some (opA 0 1 4 0)) 0 = false ∧ b.popsDue (some (opA 0 1 4 1)) 0 = false)
    ∧ (∀ n ∈ [0, 15], let w : WinEnt := ⟨.mxBatch hd0 0 0 1 15 false false false, 0, 0, n, some (opA 0 1 4 0), some (opA 0 1 4 1)⟩
      let s := (mxTurn 0 1 4).onHere (fun b => { b with mx := { b.mx with run := some w, mid := true } })
      let b := s.bank ⟨0, 0⟩
      b.flt = none ∧ (∀ e ∈ [Engine.S, .A, .M, .V, .T, .F], (b.eng e).rets = [] ∧ (b.eng e).pend = [])
      ∧ (b.popsOf false w.opA 0).all (fun q => q.2.slotSt q.2.head == .full) = true ∧ (b.popsOf false w.opB 0).all (fun q => q.2.slotSt q.2.head == .full) = true
      ∧ (let v := { b with mx := { b.mx with mid := false } }
        found v (opA 0 1 4 0) 0x4000 = true ∧ found v (opA 0 1 4 1) 0x8000 = true ∧ v.mx.owed = false ∧ v.live = true)) := by
  decide +kernel

theorem meets_float_pass :
    (∀ i ∈ [Instr.mxMma hd0 1023 0 1 false true none none true, .mxGer hd0 1023 0 1 false true none none false],
      let s := winTurn 4 2 4 i (some (opA 4 2 4 0)) (some (opA 4 2 4 1))
      let b := s.bank ⟨0, 0⟩
      b.live = true ∧ b.mx.run = none ∧ b.mx.win.length = 1 ∧ (tdescOf (opA 4 2 4 0).tdr).fmt ≠ 0 ∧ pairOf (tdescOf (opA 4 2 4 0).tdr).fmt (tdescOf (opA 4 2 4 1).tdr).fmt = some (8, 192)
      ∧ b.slotHeld 1023 = false ∧ found b (opA 4 2 4 0) 0x4000 = true ∧ found b (opA 4 2 4 1) 0x8000 = true ∧ found b { opA 4 2 4 1 with src := .idle } 0 = true) := by
  decide +kernel

/-- A tile of 4 by 8 to load, and a slot to store one of 32 by 32 to. -/
theorem meets_tile_words :
    (let o := opA 6 4 4 0
     let s := winTurn 6 4 4 (.mxLdacc hd0 0 0 false true true) (some o) none
     let b := s.bank ⟨0, 0⟩
     b.live = true ∧ b.mx.run = none ∧ b.mx.win.length = 1 ∧ b.slotHeld 0 = false ∧ dimOf (o.desc 0x4000).win 1 ≤ 32 ∧ (o.desc 0x4000).elems0 ≤ 32
      ∧ found b o 0x4000 = true ∧ found b { o with src := .idle } 0 = true)
    ∧ (let o : Opnd := ⟨2, wholeRec 3 0xC000 32 32 8, none, .buf 0xC000⟩
       let s := winTurn 3 8 4 (.mxStacc hd0 1023 2 .rtz .wrap true) (some o) none
       let b := s.bank ⟨0, 0⟩
       b.live = true ∧ b.mx.run = none ∧ b.mx.win.length = 1 ∧ b.slotHeld 1023 = false ∧ (o.reads 0xC000).any b.tHolds = false ∧ dimOf (o.desc 0xC000).win 1 = 32 ∧ (o.desc 0xC000).elems0 = 32)
    ∧ (let d := (⟨2, wholeRec 3 0xC000 2 2 8, none, .buf 0xC000⟩ : Opnd).desc 0xC000
       dimOf d.win 1 = 2 ∧ d.elems0 = 2 ∧ d.es = 8 ∧ ((List.range 32).map (fun n => d.imgByte (n / 8 % 2 + d.w 0 * (n / 16)) (n % 8))).Nodup) := by
  decide +kernel

/-- V behind A, with registers, a predicate, a scale register, two entries of `dv`, a read stream 0 that holds a vector and a write stream 1. -/
def vTurn (f : Bank → Bank) : State :=
  turn .V (fun b =>
    let t := wholeRec 6 0x4000 64 16 4
    let b := ((((b.setVreg 1 0x3F8000004049).setVreg 2 5).setKreg 1 0xF0F).setZreg 2 0x38).setVreg 31 (BitVec.allOnes 4096)
    let b := (((allAt 0 5 b).reserve .dv 0 0x3F80).reserve .dv 0 9).show .dv 0
    f { b with acc := { b.acc with q := [(0, ⟨1, 0, t, [0, 0, 0, 0], false, [⟨4, 7, []⟩], 1, 0, []⟩), (1, ⟨1, 0, t, [0, 0, 0, 0], true, [], 0, 0, []⟩)] } })

/-- A source is taken, a destination has room. -/
def taken (k : Bank) (a : VSrc) : Bool := match k.takeV a with | .ok _ _ => true | _ => false
def taken2 (k : Bank) (a b : VSrc) : Bool := match k.takeV a with | .ok _ c => taken c b | _ => false
def taken3 (k : Bank) (a b c : VSrc) : Bool := match k.takeV a with | .ok _ d => taken2 d b c | _ => false

theorem taken_of {k : Bank} {a : VSrc} (h : taken k a = true) : ∃ x c, k.takeV a = .ok x c := by
  unfold taken at h
  split at h
  · exact ⟨_, _, ‹_›⟩
  · simp at h

theorem meets_vector_operands :
    (vTurn id).here.peek .dv (vTurn id).here.engs.V.walk = some 0x3F80
    ∧ ((vTurn id).here.engs.V.walk ≤ (vTurn id).here.engs.A.walk ∧ ∃ b ∈ (assoc (vTurn id).here.acc.q 0).toList, b.walk < (vTurn id).here.engs.V.walk ∧ b.wr = false
      ∧ b.used < b.vectors ∧ b.held.length = 1) := by
  decide +kernel

/-- Sources from registers, from the stream and from `dv`; destinations in a register and in the stream; every element, or those of a predicate. -/
theorem meets_vector_arithmetic :
    (∀ ty ∈ [VTy.fp16, .bf16, .fp32, .fp64], ∀ d ∈ [VDst.v 31, .q 1], ∀ a ∈ [VSrc.v 1, .q 0], ∀ c ∈ [VSrc.v 31, .dv], ∀ i ∈ [Instr.vadd hd0 ⟨0, false⟩ ty .rne d a (.v 2),
        .vsub hd0 ⟨1, false⟩ ty .rup d a (.v 2), .vmul hd0 ⟨1, true⟩ ty .rtz d a (.v 2), .vfma hd0 ⟨1, false⟩ ty .rdn true true d a (.v 2) c], VReady i (vTurn id))
    ∧ (∀ ty ∈ [VTy.i16, .i32, .i64, .fp16, .bf16, .fp32, .fp64], ∀ d ∈ [VDst.v 0, .q 1], ∀ a ∈ [VSrc.v 1, .q 0], ∀ i ∈ [Instr.vabs hd0 ⟨0, false⟩ ty false d a,
        .vneg hd0 ⟨1, true⟩ ty false d a, .vmin hd0 ⟨1, false⟩ ty true d a (.v 2), .vmax hd0 ⟨1, false⟩ ty false d a .dv], VReady i (vTurn id))
    ∧ (∀ a ∈ [VSrc.v 1, .q 0, .dv], taken (vTurn id).here a = true) ∧ (∀ a ∈ [VSrc.v 1, .q 0], ∀ c ∈ [VSrc.v 31, .dv], taken3 (vTurn id).here a (.v 2) c = true)
    ∧ ∀ d ∈ [VDst.v 31, .q 1], (vTurn id).here.roomV d = .ok := by
  unfold VReady Ready
  decide +kernel

theorem meets_vector_integers :
    (∀ ty ∈ [VTy.i16, .i32, .i64], ∀ d ∈ [VDst.v 31, .q 1], ∀ b ∈ [VSrc.v 31, .dv], ∀ i ∈ [Instr.viadd hd0 ⟨0, false⟩ ty false true d (.q 0) b,
        .visub hd0 ⟨1, false⟩ ty true false d (.v 1) b, .vimul hd0 ⟨1, true⟩ ty false true false d (.v 1) b, .vimul hd0 ⟨1, true⟩ ty false false true d (.v 1) b,
        .vand hd0 ⟨1, true⟩ ty d (.v 1) b, .vor hd0 ⟨1, true⟩ ty d (.v 1) b, .vxor hd0 ⟨0, true⟩ ty d (.v 1) b, .vshl hd0 ⟨0, false⟩ ty d (.v 1) b,
        .vshr hd0 ⟨0, false⟩ ty false d (.v 1) b], VReady i (vTurn id))
    ∧ (∀ a ∈ [VSrc.v 1, .q 0], ∀ b ∈ [VSrc.v 31, .dv], taken2 (vTurn id).here a b = true) ∧ ∀ d ∈ [VDst.v 31, .q 1], (vTurn id).here.roomV d = .ok := by
  unfold VReady Ready
  decide +kernel

/-- `VSETL` of 0, of 256, and of a negative count. -/
theorem meets_vector_predicates :
    (∀ i ∈ [Instr.vcmp hd0 1 .fp16 false .lt 0 (.q 0) .dv, .vcmpq hd0 1 .i64 false true .ge 7 (.v 1) (.v 31), .vsel hd0 1 .i16 (.q 1) (.v 1) .dv, .vsetl hd0 0 7 0, .vsetl hd0 3 7 256,
        .vsetl hd0 3 1 0xFFFFFFFFFFFFFFFF, .vcnt hd0 .i16 true (.q 1) 1, .vcnt hd0 .fp64 false (.v 0) 0, .viota hd0 ⟨1, false⟩ .i16 true (.v 3), .viota hd0 ⟨1, true⟩ .i32 false (.q 1)],
        VReady i (vTurn id))
    ∧ (taken2 (vTurn id).here (.q 0) .dv = true ∧ taken2 (vTurn id).here (.v 1) .dv = true) ∧ (vTurn id).here.room .cq 1 = true ∧ (vTurn id).here.room .ds 1 = true
    ∧ ∀ d ∈ [VDst.v 0, .q 1], (vTurn id).here.roomV d = .ok := by
  unfold VReady Ready
  decide +kernel

theorem meets_vector_reductions :
    (∀ ty ∈ [VTy.i16, .i64, .fp16, .fp64], ∀ i ∈ [Instr.vrsum hd0 1 ty false .rne true true (.v 3) (.q 0), .vrmax hd0 0 ty false true (.q 1) .dv], VReady i (vTurn id))
    ∧ (∀ a ∈ [VSrc.q 0, .dv], taken (vTurn id).here a = true) ∧ (vTurn id).here.room .ds 1 = true ∧ (vTurn id).here.roomV (.q 1) = .ok
    ∧ (upTo VTy.i16.elems).filter (fun e => ((vTurn id).here.kreg 1).getLsbD e) ≠ [] := by
  unfold VReady Ready
  decide +kernel

/-- The first and the last lane; `VPOPQ` of no entry and of both. -/
theorem meets_vector_moves :
    (∀ i ∈ [Instr.vmov hd0 (.copy ⟨1, false⟩ .i16 (.q 1) (.q 0)), .vmov hd0 (.ds .dv 63), .vmov hd0 (.da (.v 1) 0), .vmov hd0 (.tz 7 (.q 0)), .vmov hd0 (.tk 0 (.v 1)),
        .vshuf hd0 ⟨0, false⟩ .i16 (.xswap 7) (.v 1) (.v 1), .vshuf hd0 ⟨1, false⟩ .fp64 .rev (.q 1) .dv, .vperm hd0 ⟨1, true⟩ .i32 (.v 1) (.v 1) (.q 0),
        .vshuf hd0 ⟨0, false⟩ .i16 (.slide .dv 31) (.v 1) (.v 1), .vmov hd0 (.fz (.q 1) 7), .vmov hd0 (.fk (.v 31) 0), .vbcast hd0 3 (.q 1) 5, .vpopq hd0 ⟨1, false⟩ 0 (.v 1),
        .vpopq hd0 ⟨1, false⟩ 2 (.q 1)], VReady i (vTurn id))
    ∧ (∀ a ∈ [VSrc.v 1, .q 0, .dv], taken (vTurn id).here a = true) ∧ (taken2 (vTurn id).here (.v 1) (.q 0) = true ∧ taken2 (vTurn id).here (.v 1) .dv = true)
    ∧ ((vTurn id).here.room .ds 1 = true ∧ (vTurn id).here.room .da 1 = true ∧ (vTurn id).here.roomV (.q 1) = .ok)
    ∧ (shufSrc (.xswap 7) = none ∧ shufSrc (.slide .dv 31) = some .dv) ∧ ∀ n ∈ [0, 2], ((vTurn id).here.takeDv n).isSome = true := by
  unfold VReady Ready
  decide +kernel

theorem meets_vector_conversions :
    (∀ i ∈ [Instr.vcvt hd0 ⟨1, false⟩ .e4m3 .fp32 false false .sat 3 (.sr .dv) (.v 1) (.q 0), .vcvt hd0 ⟨0, false⟩ .fp64 .bf16 false false .wrap 3 (.mode .rup) (.q 1) (.v 1),
        .vcvt hd0 ⟨1, true⟩ .i8 .i64 true true .sat 7 (.mode .rne) (.v 31) .dv, .vrcpe hd0 ⟨0, false⟩ .fp64 (.v 1) (.v 1), .vrsqe hd0 ⟨1, true⟩ .fp16 (.q 1) .dv,
        .vqmax hd0 .fp32 7 (.v 1) .dv, .vdq hd0 ⟨0, false⟩ .fp16 .rne 15 2 (.q 1) (.v 31) (.q 0), .vqcvt hd0 .bf16 (.sr (.v 2)) 15 2 (.v 1) (.v 31) .dv,
        .vqcvt hd0 .fp64 (.mode .rtz) 0 2 (.q 1) (.v 31) (.v 1)], VReady i (vTurn id))
    ∧ (taken2 (vTurn id).here (.q 0) .dv = true ∧ taken2 (vTurn id).here (.v 31) (.q 0) = true ∧ taken3 (vTurn id).here (.v 31) .dv (.v 2) = true)
    ∧ (taken (vTurn id).here .dv = true ∧ taken (vTurn id).here (.v 1) = true ∧ (vTurn id).here.roomV (.q 1) = .ok) := by
  unfold VReady Ready
  decide +kernel

/-- Buffers with one element, with a whole vector, and with one more; staging with one. -/
def bufTurn (n : Nat) : State :=
  vTurn (fun b => { b with vec := { b.vec with cb := if n = 0 then [] else [(3, ⟨.i64, List.replicate n 5⟩)], stage := [(1, ⟨.i64, [9]⟩)] } })

theorem meets_vector_buffers :
    (∀ n ∈ [0, 1, 64, 65], let s := bufTurn n; let k := s.here
      (∀ i ∈ [Instr.vpushc hd0 1 .i64 (.cb 3) (.q 0), .vpushc hd0 1 .i64 (.q 1 false) .dv, .vpushc hd0 0 .i64 (.q 1 true) (.v 1), .vpopc hd0 .i64 .full (.q 1) 3,
          .vpopc hd0 .i64 (.tail 7) (.v 31) 3, .vaccRd hd0 1023 (.q 1) 31 true 1 .i64 .rne .sat, .vaccWr hd0 0 .dv 0 false 7 .i32 .rne true, .vstat hd0 true], VReady i s)
      ∧ (∀ a ∈ [VSrc.v 1, .q 0, .dv], taken k a = true) ∧ (((assoc k.vec.cb 3).map (·.elems)).getD []).length = n
      ∧ ((assoc k.vec.cb 3).map (·.ty) = some .i64 ∨ n = 0) ∧ (assoc k.vec.stage 1).map (fun x => (x.ty, x.elems)) = some (.i64, [9])
      ∧ (match k.takeV .dv with | .ok _ c => decide (c.streamRoom 1 2 = .ok) | _ => false) = true ∧ k.engs.V.walk ≤ k.engs.A.walk ∧ k.roomV (.q 1) = .ok ∧ k.slotBusy 0 = false ∧ k.slotBusy 1023 = false ∧ k.room .ds 1 = true)
    ∧ (VTy.i64.elems = 64 ∧ ((upTo 64).filter (fun e => ((bufTurn 65).here.kreg 1).getLsbD e)).length = 8) := by
  unfold VReady Ready
  decide +kernel

/-- T with plans 0 (complex, of 6) and 1 (real, of 12), an image of record 1 and rings bound: 0 and 2 to read, 1 and 3 to write; 2 and 3 are of mode R. -/
def txTurn (sten : BitVec 8) (fi li fo lo : Nat) : State :=
  turn .T (fun b =>
    let r (fmt img l : Nat) : List Reg64 :=
      let es := esOf fmt
      [BitVec.ofNat 64 (fmt + 0x100), 0x100, BitVec.ofNat 64 (l + 2 ^ 32 * l), BitVec.ofNat 64 es, BitVec.ofNat 64 (2 + 2 ^ 32 * 2), BitVec.ofNat 64 (l * es), 0, 0, 0, 0,
        BitVec.ofNat 64 (img + 2 ^ 24 * ((l * es + 63) / 64)), 0]
    let put (td : Nat) (l : List Reg64) (t : Sparse Reg64) : Sparse Reg64 := (l.zip (upTo 12)).foldl (fun t p => spPut 0 t (12 * td + p.2) p.1) t
    let b := ((allAt 0 5 b).reserve .dt 0 17).show .dt 0
    { b with
      acc := { b.acc with td := put 1 (r fi 0x4000 li) b.acc.td }
      tx := { b.tx with plans := [(0, ⟨false, false, 6, [2, 3]⟩), (1, ⟨true, false, 12, [2, 3]⟩)]
                        bind := [(0, ⟨r fi 0x4000 li, none⟩), (1, ⟨r fo 0x8000 lo, none⟩), (2, ⟨r fi 0x4000 li, none⟩), (3, ⟨r fo 0x8000 lo, none⟩)] }
      car := { b.car with rings := [fullRing 0 .copy .t 0x4000 .full, fullRing 1 .t .m 0x8000 .empty, (2, ringR .copy .t [0x4000, 0x5000]), (3, ringR .t .m [0xA000, 0xB000])] }
      engs := { b.engs with T := { b.engs.T with sten } } })

/-- The same in an eager turn. -/
def eagerT (s : State) : State := { s with cur := { s.cur with eager := true } }

/-- Images may start and have something to do; nothing else is in flight. -/
def startsAt (s : State) (imgs : List TImg) (r : TDone) : Bool :=
  !s.here.underWay s.cur.loc ((imgs.filter (fun t => !t.idle)).map (fun t => t.d.extent)) && (r.1.isEmpty == imgs.all (·.idle))
    && [Engine.S, .A, .M, .V, .T, .F].all (fun e => (s.here.eng e).rets.isEmpty && (s.here.eng e).pend.isEmpty)

set_option synthInstance.maxSize 1024 in
set_option synthInstance.maxHeartbeats 400000 in
theorem meets_transform_images :
    (∀ f ∈ [id, eagerT], let s := f (txTurn 0xFF 0x0C 6 0x0C 6)
     let t : TImg := ⟨tdescOf (s.here.td 1), false⟩
     startsAt s [t] (s.here.rowsInto t t (fun _ row => onePass 0 (revRow [2, 3] row, 0))) = true ∧ Fits (.txFwd hd0 0 1) s.here ∧
     (∀ i ∈ [Instr.txFwd hd0 0 1, .txInv hd0 0 1, .txStage hd0 0 (.image 1) 0 false, .txStage hd0 0 (.image 1) 1 true, .txDigrev hd0 0 1, .txFwd hd0 1 1], TReady i s)
      ∧ ImageOk s.here 1 [0x0C] 6 ∧ (assoc s.here.tx.plans 0).map (fun x => (x.real, x.cf, x.n, x.radix.length)) = some (false, 0x0C, 6, 2)
      ∧ (assoc s.here.tx.plans 1).map (·.real) = some true)
    ∧ (∀ f ∈ [id, eagerT], let s := f (txTurn 0xFF 0x0C 7 0x0C 7)
       let t : TImg := ⟨tdescOf (s.here.td 1), false⟩
       startsAt s [t] (s.here.rowsInto t t (fun _ row => onePass 0 (row, 0))) = true ∧ Fits (.txRfwd hd0 1 1) s.here ∧
       (∀ i ∈ [Instr.txRfwd hd0 1 1, .txRinv hd0 1 1], TReady i s) ∧ ImageOk s.here 1 [0x0C] (12 / 2 + 1)
        ∧ (assoc s.here.tx.plans 1).map (fun x => (x.real, x.cf, x.n)) = some (true, 0x0C, 12)) := by
  unfold TReady Ready ImageOk Fits
  decide +kernel

set_option synthInstance.maxSize 1024 in
set_option synthInstance.maxHeartbeats 400000 in
/-- A published slot and a buffer to read, a free slot and a buffer to write, the stages of a rotating loop on or off. -/
theorem meets_transform_rings :
    (∀ x ∈ [(0x0C, 6, 0x0C, 6), (6, 12, 0x0C, 7), (0x0C, 7, 6, 12)], ∀ sten ∈ [0xFF, 0xFD], ∀ f ∈ [id, eagerT], let s := f (txTurn (BitVec.ofNat 8 sten) x.1 x.2.1 x.2.2.1 x.2.2.2); let k := s.here
      (∀ i ∈ [Instr.txFwdRing hd0 0 0 1, .txInvRing hd0 0 2 3, .txStage hd0 0 (.ring 0 3) 1 false, .txDigrevRing hd0 0 2 1, .txRfwdRing hd0 1 0 1, .txRinvRing hd0 1 0 1,
          .txScale hd0 (.ring 0 1) (.pow2 0x8000) .rne, .txScale hd0 (.ring 2 3) .dt .rup], TReady i s)
      ∧ (∀ g ∈ [0, 2], ∀ c ∈ [k, k.drop .dt], ∃ r ∈ (c.ring g).toList, ∃ b ∈ (c.tbind g).toList, c.engs.T.walk ≤ c.engs.A.walk ∧ c.ringAt g c.engs.T.walk = some r ∧ r.cons = .t
          ∧ c.slotFits b.tdr r = true ∧ ((c.tSrc s.cur.loc g r b.tdr).map (fun t => (t.idle, c.imgBad t)) = some (r.modeR && sten == 0xFD, none))
          ∧ (tdescOf b.tdr).fmt = x.1 ∧ (tdescOf b.tdr).along = x.2.1 ∧ (tdescOf b.tdr).rows = 2)
      ∧ (∀ g ∈ [1, 3], ∀ c ∈ [k, k.drop .dt], ∃ r ∈ (c.ring g).toList, ∃ b ∈ (c.tbind g).toList, c.ringAt g c.engs.T.walk = some r ∧ r.prod = .t
          ∧ c.slotFits b.tdr r = true ∧ (c.tDst g r b.tdr).isSome = true ∧ (tdescOf b.tdr).fmt = x.2.2.1 ∧ (tdescOf b.tdr).along = x.2.2.2 ∧ (tdescOf b.tdr).rows = 2)
      ∧ (∀ g ∈ [(0, 1), (2, 3)], ∀ a ∈ (k.ring g.1).toList, ∀ b ∈ (k.ring g.2).toList, ∀ x ∈ (k.tbind g.1).toList, ∀ y ∈ (k.tbind g.2).toList,
          ∀ i ∈ (k.tSrc s.cur.loc g.1 a x.tdr).toList, ∀ o ∈ (k.tDst g.2 b y.tdr).toList,
          startsAt s [i, o.1] (k.rowsInto i o.1 (fun _ row => onePass 0 (row, 0))) = true)
      ∧ Fits (.txFwdRing hd0 0 0 1) k
      ∧ k.peek .dt k.engs.T.walk = some 17) := by
  unfold TReady Ready Fits
  decide +kernel

set_option synthInstance.maxSize 1024 in
set_option synthInstance.maxHeartbeats 400000 in
theorem meets_transform_pointwise :
    (∀ x ∈ [0x0C, 6], ∀ f ∈ [id, eagerT], let s := f (txTurn 0xFF x 6 x 6)
      let t : TImg := ⟨tdescOf (s.here.td 1), false⟩
      startsAt s [t] (s.here.rowsInto t t (fun _ row => onePass 0 (row, 0))) = true ∧ Fits (.txCplx hd0 1 0 true false false) s.here ∧ (∀ i ∈ [Instr.txScale hd0 (.image 1) (.pow2 0x7FFF) .rtz, .txScale hd0 (.image 1) .dt .rne], TReady i s) ∧ ImageOk s.here 1 [6, 7, 0x0C, 0x0D] 6
      ∧ (tdescOf (s.here.td 1)).along = 6 ∧ s.here.peek .dt s.here.engs.T.walk = some 17)
    ∧ (∀ sten ∈ [0xFF, 0xFD], ∀ f ∈ [id, eagerT], let s := f (txTurn (BitVec.ofNat 8 sten) 0x0C 6 0x0C 6); let k := s.here
      (∀ g ∈ [0, 2], TReady (.txCplx hd0 1 g true false false) s) ∧ ImageOk k 1 [0x0C, 0x0D] 6
      ∧ ∀ g ∈ [0, 2], ∃ r ∈ (k.ring g).toList, ∃ b ∈ (k.tbind g).toList, r.cons = .t ∧ k.slotFits b.tdr r = true ∧ (k.tSrc s.cur.loc g r b.tdr).isSome = true
          ∧ (tdescOf b.tdr).fmt = 0x0C ∧ (tdescOf b.tdr).count = (tdescOf (k.td 1)).count)
    ∧ (let s := txTurn 0xFF 0x0C 6 0x0C 6
       let b := ((s.here.tbind 0).map (fun x => (tdescOf x.tdr).along)).getD 0
       b = (tdescOf (s.here.td 1)).along ∧ TReady (.txCplx hd0 1 0 false true true) s) := by
  unfold TReady Ready ImageOk Fits
  decide +kernel

/-- Plans of 1, of 2 to the 20th, of a real 12, and from the entry of `dt`; tables of one root and of 2 to the 20th. -/
theorem meets_transform_tables :
    (let s := txTurn 0xFF 0x0C 6 0x0C 6; let k := s.here
      s.cur.eager = false ∧ (∀ i ∈ [Instr.txPlan hd0 7 ⟨true, false, true, 1⟩, .txPlan hd0 7 ⟨true, true, false, 12⟩, .txPlan hd0 0 ⟨false, false, true, 6⟩, .txTwid hd0 (.image 1) true true 1,
          .txTwid hd0 (.ring 1) false false 0x100000, .txRing hd0 1 3, .txStat hd0 true], TReady i s)
      ∧ (planOf ⟨true, false, true, 1⟩ (some (autoRadix 1))).isSome = true ∧ (planOf ⟨true, true, false, 12⟩ (some (autoRadix 6))).isSome = true
      ∧ (planOf ⟨true, false, false, 0x100000⟩ (some (autoRadix 0x100000))).isSome = true
      ∧ (k.peek .dt k.engs.T.walk = some 17 ∧ (planOf ⟨false, false, true, 6⟩ (readRadix 17)).isSome = true)
      ∧ recCheck (k.td 1) none k.hdr.spad = none ∧ recFault (k.td 1) none = none ∧ (tdescOf (k.td 1)).fmt = 0x0C
      ∧ (∃ r ∈ (k.ring 1).toList, ∃ b ∈ (k.tbind 1).toList, r.prod = .t ∧ k.slotFits b.tdr r = true ∧ (k.tDst 1 r b.tdr).isSome = true ∧ (tdescOf b.tdr).fmt = 0x0C)
      ∧ (let t : TImg := ⟨tdescOf (k.td 1), false⟩
        startsAt s [t] (t.fillSteps (fun _ => (0, 0)), 0) = true ∧ startsAt (eagerT s) [t] (t.fillSteps (fun _ => (0, 0)), 0) = true ∧ Fits (.txTwid hd0 (.image 1) true true 1) k
          ∧ TReady (.txTwid hd0 (.image 1) true true 1) (eagerT s))
      ∧ (k.ringAt 3 k.engs.T.walk).isSome = true ∧ k.room .ds 1 = true)
    ∧ (∀ f ∈ [id, eagerT], let s := f (txTurn 0xFF 6 6 6 6); let k := s.here
       TReady (.txLeg hd0 1 1 4095 8191) s ∧ ImageOk k 1 [6, 7] 6
        ∧ ∃ b ∈ (k.tbind 1).toList, (tdescOf b.tdr).fmt = 6 ∧ dimOf (tdescOf b.tdr).win 0 = 6 ∧ dimOf (tdescOf b.tdr).win 2 = 1 ∧ dimOf (tdescOf b.tdr).win 3 = 1) := by
  unfold TReady Ready ImageOk Fits
  decide +kernel

/-- Two images that lie apart. -/
theorem meets_rows_computed :
    (let s := txTurn 0xFF 0x0C 2 0x0C 2
     let d (img : Nat) : TDesc := { tdescOf (s.here.td 1) with spbase := img }
     (⟨d 0x8000, false⟩ : TImg).idle = false ∧ (d 0x8000).fmt ∈ [6, 7, 0x0C, 0x0D] ∧ 0 < (d 0).w 0 ∧ 0 < (d 0).w 1
      ∧ (∀ e ∈ upTo (d 0).count, ∀ e' ∈ upTo (d 0).count, ∀ k ∈ upTo (d 0).es, ∀ k' ∈ upTo (d 0).es, (d 0x8000).imgByte e k = (d 0x8000).imgByte e' k' → e = e' ∧ k = k')
      ∧ (∀ r ∈ upTo (d 0).rows, ∀ n ∈ upTo (d 0).along, ∀ k ∈ upTo (d 0).es, ∀ e' ∈ upTo (d 0).count, ∀ k' ∈ upTo (d 0).es,
          (d 0x4000).imgByte ((d 0x4000).rowUnit r n) k ≠ (d 0x8000).imgByte e' k')
      ∧ ∀ r ∈ upTo (d 0).rows, let x := onePass 0 (s.here.rowRead ⟨d 0x4000, false⟩ r, 0)
          (x.last []).length = (d 0x8000).along ∧ ∀ y ∈ x.1, y.2.length ≤ (d 0x8000).along) := by
  decide +kernel

/-- A word of T stands before its first step of two: its bank runs, and is halted. -/
theorem meets_progress : ∀ st ∈ [BankSt.run, .saving],
    let w : TWork := ⟨5, [(0x4000, 96)], 0, 0, [⟨0, 6, [(0x4000, [1])]⟩, ⟨1, 6, [(0x4008, [2])]⟩]⟩
    let b : Bank := { (txTurn 0xFF 0x0C 6 0x0C 6).here with st }
    let b : Bank := { b with tx := { b.tx with work := some w } }
    b.tx.work = some w ∧ w.steps.length = 2 ∧ b.live = (st == .run) := by
  decide +kernel

theorem meets_plans_and_digits : (∀ r ∈ [8, 2, 7, 5, 3, 4], 0 < r) ∧ 6719 < [8, 2, 7, 5, 3, 4].prod := by
  decide

/-! ## Fabric, collectives (12, 14) -/

/-- A record in VIRT memory with an image: `d0` by `d1` elements. -/
def recN (td fmt va img d0 d1 : Nat) (t : Sparse Reg64) : Sparse Reg64 :=
  let es := esOf fmt
  [(0, fmt + 0x100), (1, va), (2, d0 + 2 ^ 32 * d0), (3, es), (4, d1 + 2 ^ 32 * d1), (5, d0 * es), (10, img + 2 ^ 24 * ((d0 * d1 * es + 63) / 64))].foldl
    (fun t p => spPut 0 t (12 * td + p.1) (BitVec.ofNat 64 p.2)) t

/-- A launch on cores 0, 1 and 40; core 0 with a matrix, an integer and a grain cell at home, a matrix at a remote home, and an aperture of two members. -/
def fabTurn (e : Engine) (f : Bank → Bank) : State :=
  let s := aTurn (fun b =>
    let b := ar [(3, 0), (4, 0), (5, 7), (7, 0x1C0), (9, 0x4000000001)] b
    f { b with acc := { b.acc with td := recN 5 6 0x80000000 0x1000 2 3 (recN 3 0x0E 0x240 0x3000 1 1 (recN 2 2 0x200 0x2000 1 1 (recN 1 6 0x100 0x1000 2 3 b.acc.td))) } })
  let s := s.writePa 0x52000010 (leBytes 8 (8 * 2 ^ 48 + 7))
  let s := s.writePa 0x61000000 (leBytes 8 2 ++ leBytes 8 0x0801 ++ leBytes 8 0x0C02)
  let s := s.modLaunch 0 (fun x => { x with cores := [⟨0, 0⟩, ⟨1, 0⟩, ⟨40, 0⟩] })
  let b : Bank := { (s.bank ⟨0, 0⟩) with fab := {} }
  let s := (s.setBank ⟨1, 0⟩ b).setBank ⟨40, 0⟩ b
  { s with dtime := 1000, cur := ⟨⟨0, 0⟩, e, false⟩ }

/-- The head fields of a word of F. -/
def fh : FabHead := ⟨.launch, .bulk, 0, 3, 4, none⟩

/-- What A finds for a window. -/
def formed (s : State) (f : Form) : Bool :=
  let k := s.here
  let t := k.td f.td
  let org := originOf (k.ax f.h.oa) (k.ax f.h.ob)
  let d := tdescOf t
  let parts := homeParts d org f.store
  k.readyA ((f.h.oa :: f.h.ob :: f.regs).map AReg.a) && k.tdReady f.td && (s.formFault f t org).isNone
    && (f.ap.isSome || (parts.all (fun p => !s.held k.ctx p.2.1 p.2.2) && (match s.formParts s.cur.loc d.asp f.store (sortOn (·.2.1) parts) with
      | (_, .ok _, elems) => !f.noHost || !inHost (elems.flatMap (·.2))
      | _ => false)))

/-- A forms a word of F. -/
def AForms (s : State) : Prop := s.cur.eng = .A ∧ s.here.live = true ∧ s.here.acc.park = none ∧ s.cur.eager = false ∧ s.here.fab.targets.length < 16

theorem meets_fabric_targets :
    (let s := fabTurn .A id;
      AForms s
      ∧ (∀ ds ∈ [true, false], formed s { td := 2, h := fh, image := !ds, store := false, shape := fun d => !ds || (oneElem d && d.es ≤ 8 && !d.vx4) } = true)
      ∧ (∀ td ∈ [1, 5], formed s { td := Fin.ofNat 64 td, h := fh, image := true, store := true } = true)
      ∧ (∀ no ∈ [true, false], formed s { td := 2, h := fh, regs := [5, 6], ra := 5, rb := 6, image := false, store := true, single := true, noHost := no
                                          shape := fun d => oneElem d && (d.fmt == 2 || d.fmt == 3) } = true)
      ∧ formed s { td := 3, h := fh, regs := [6], ra := 6, image := false, store := true, single := true, noHost := true, shape := fun d => oneElem d && d.fmt == 0x0E } = true
      ∧ formed s { td := 1, h := fh, image := true, store := true, ap := some 0 } = true
      ∧ (∀ x ∈ [(3, true), (1, false)], formed s { td := Fin.ofNat 64 x.1, h := fh, image := true, store := false, ap := some 0
                                                   shape := fun d => if x.2 then d.fmt == 0x0E else [2, 3, 6, 7].contains d.fmt } = true)
      ∧ (s.here.readyA [.a 9] = true ∧ s.here.tdReady 1 = true ∧ recCheck (s.here.td 1) none s.here.hdr.spad = none)
      ∧ (s.here.readyA [.a 7, .a 5] = true ∧ (s.here.ax 7).toNat % 64 = 0 ∧ (s.here.ax 5).toNat % 64 ≠ 0)) := by
  unfold AForms
  decide +kernel

/-- A target of the record, of its elements at home or of its offsets in an aperture. -/
def tgtOf (s : State) (td : Fin 64) (ap : Bool) : Target :=
  ⟨0, 0, s.here.td td, [0, 0, 0, 0], s.here.ax 5, s.here.ax 6, if ap then [] else [(0, [⟨.pa 0x1000, 4, some 0x1000, 4096⟩])], if ap then [(0, 0x100, 4)] else [], if ap then [1, 2] else []⟩

/-- F takes a target from its queue. -/
def fTurn (td : Fin 64) (ap : Bool) : State :=
  let s := fabTurn .F id
  s.onHere (fun b => { b with fab := { b.fab with targets := [tgtOf s td ap] } })

/-- A request of F. -/
def fReq (op : FOp) (elems : List (Nat × List Rng)) (offs : List (Nat × Nat × Nat)) : FReq :=
  { id := 77, walk := 0, pc := 0, op, scope := .launch, cls := .bulk, elems, offs, members := offs.map (fun _ => 1), slotAt := none, gone := false, sentAt := none, rest := 0, via := [], rel := true, win := none
    after := [], before := [], near := (nearParts elems).isEmpty, got := [], ans := none }

/-- The state that a request leaves. -/
def issued (s : State) (op : FOp) (rel acq : Bool) (ds : Nat) (h : FabHead) : State :=
  let k := s.here
  let t := (k.fab.targets.head?).getD (tgtOf s 0 false)
  let fab : FabSt := if rel then k.fab.behind h.scope (s.windowed h.scope) else k.fab
  let rel' : Bool := rel || (op.writes && fab.fenced && decide (h.scope = .panel ∨ h.scope = .fabric))
  let q : FReq := { id := 2 * s.nextId, walk := k.engs.F.walk, pc := k.engs.F.pc, op, scope := h.scope, cls := h.cls, elems := t.elems, offs := t.offs
                    members := t.members, slotAt := h.slot.map (fun n => s.slotTime k n.toNat), gone := false, sentAt := none, rest := 0, via := []
                    rel := rel', win := none, after := if op.writes || rel then fab.relBar else [], before := if rel' then fab.fenceIds else []
                    near := (nearParts t.elems).isEmpty, got := [], ans := none }
  let b := k.reserveN .ds k.engs.F.walk ds
  (s.newId.2.setBank s.cur.loc { b with fab := { fab with
    targets := k.fab.targets.drop 1, acqBar := if acq then k.fab.readIds ++ [q.id] else [] } }).addReq q

/-- The hypotheses of a request. -/
def RequestMet (i : Instr) (s : State) (op : FOp) (rel acq : Bool) (ds : Nat) (src : List Nat) (img : Option (Nat × Nat)) : Prop :=
  FReady i s ∧ s.here.headTarget.isSome = true ∧ s.here.room .ds ds = true
    ∧ (rel = true → s.relReady fh.scope = true) ∧ (∀ x ∈ img.toList, ∀ r ∈ s.here.fab.reqs, r.image.any (meets x) = false)
    ∧ src.all (fun a => !s.here.acc.bad.contains a) = true ∧ (issued s op rel acq ds fh).here.flt = none ∧ (issued s op rel acq ds fh).here.engs = s.here.engs

set_option synthInstance.maxSize 1024 in
set_option synthInstance.maxHeartbeats 400000 in
theorem meets_fabric_requests :
    (let s := fTurn 1 false; let t := tgtOf s 1 false
      (∀ ds ∈ [true, false], ∀ acq ∈ [true, false], RequestMet (.fbLd hd0 1 fh ds true acq) s (.ld t.tdr t.org ds true) false acq (if ds then 1 else 0) [] none)
      ∧ (∀ rel ∈ [true, false], RequestMet (.fbSt hd0 1 fh rel) s (.st (s.here.storeData t (t.elems.map (·.1)))) rel false 0 (t.srcBytes (t.elems.map (·.1))) (some t.image)
          ∧ RequestMet (.fbGadd hd0 1 fh .fp64 rel 6) s (.gadd .fp64 t.ra) rel false 0 [] none)
      ∧ (∀ nr ∈ [true, false], ∀ ord ∈ [Ord.rlx, .acq, .rel, .ar], RequestMet (.fbAmo hd0 1 fh nr true ord .cas 5 6) s
          (.amo .cas ((tdescOf t.tdr).fmt == 3) nr true t.ra t.rb) ord.releases ord.acquires (if nr then 0 else 1) [] none))
    ∧ (let s := fTurn 1 true; let t := tgtOf s 1 true
      (∀ ack ∈ [true, false], RequestMet (.fbMcst hd0 1 fh ack true 0) s (.mcst (s.here.storeData t (t.offs.map (·.1))) ack) true false (if ack then 1 else 0)
          (t.srcBytes (t.offs.map (·.1))) (some t.image))
      ∧ (∀ q ∈ [true, false], RequestMet (.fbMcld hd0 1 fh .min q true 0) s (.mcld t.tdr t.org .min q true) false false (if q then 1 else 0) [] none))
    ∧ (let s := fabTurn .F id; let l := s.cur.loc
      (∀ q ∈ [fReq (.st [(0, [1, 2, 3, 4])]) [(0, [⟨.pa 0x1000, 4, none, 0⟩])] [], fReq (.st []) [] []],
        s.farPackets l q = [] ∧ s.here.req q.id = none ∧ q.slotAt = none ∧ q.gone = false ∧ q.after = [] ∧ ∀ r ∈ s.here.fab.reqs, r.cls = q.cls → r.gone = true)
      ∧ (let q := fReq (.mcst [(0, [1, 2, 3])] true) [] [(0, 0x100, 3)]; let ps := s.farPackets l q
         ps ≠ [] ∧ ∀ p ∈ ps, p.kind = .mcwrite)) := by
  unfold RequestMet FReady Ready
  decide +kernel

/-- A store to another package: it is one packet, and it goes if the tables route to that package (whether they do is free, log entry 12). -/
theorem meets_unicast :
    let s := fabTurn .F id
    let q := fReq (.st [(0, [1, 2, 3, 4])]) [(0, [⟨.pa (8 * 2 ^ 48 + 8 * 2 ^ 36 + 0x1000), 4, none, 0⟩])] []
    (s.farPackets s.cur.loc q).map (fun p => (p.kind, p.dst.pkgNum)) = [(.write, 8)] ∧ s.here.req q.id = none ∧ s.here.fab.reqs = [] := by
  decide +kernel

/-- F with a counter at 3, records of its flags, and an earlier store. -/
def ctrTurn : State :=
  fabTurn .F (fun b => { textAt 0 0xA0320001 b with fab := { b.fab with fc := [(0, 3), (15, 65535)], flags := 5, late := true, fmc := 9 } })

/-- F with a subscription to core 1 and one of core 40 to it, with pending granules. -/
def subTurn (st : SubSt) : State :=
  let s := fabTurn .F (fun b => { b with fab := { b.fab with
    subs := [(2, ⟨.active, ⟨1, 0⟩, 0x40, 0x8000, 128, .none, 9⟩), (4, ⟨st, ⟨1, 0⟩, 0x80, 0x9000, 128, .none, 9⟩)]
    fan := [⟨⟨40, 0⟩, 1, 0x1000, 0x9000, 128, .none, [⟨1, 0xF⟩, ⟨0, 2 ^ 64 - 1⟩], []⟩] } })
  let s := s.onBank ⟨40, 0⟩ (fun b => { b with fab := { b.fab with subs := [(1, ⟨.active, ⟨0, 0⟩, 0x1000, 0x9000, 128, .none, 9⟩)] } })
  { s with transit := [⟨⟨1, 0⟩, ⟨0, 0⟩, 0, 2, 0x40, 0x8000, 1, 0xF0, List.replicate 64 0xAA⟩, ⟨⟨1, 0⟩, ⟨0, 0⟩, 0, 4, 0x80, 0x9000, 0, 3, List.replicate 64 0xBB⟩] }

/-- F with the target of a subscription to a core. -/
def toSub (pub : Nat) : State :=
  let s := fabTurn .F id
  s.onHere (fun b => { b with fab := { b.fab with targets := [⟨0, 0, b.td 1, [0, 0, 0, 0], BitVec.ofNat 64 (2 ^ 38 + pub), 0, [], [], []⟩] } })

set_option synthInstance.maxSize 1024 in
set_option synthInstance.maxHeartbeats 400000 in
theorem meets_fabric_words :
    (let s := ctrTurn; let k := s.here
      (∀ i ∈ [Instr.fbFenceAcq hd0 .panel, .fbFenceRel hd0 .launch, .fbFenceAr hd0 .system, .fbFenceSc hd0 .fabric, .fbCwait hd0 0 3, .fbCwait hd0 15 16383, .fbCwait hd0 1 0,
          .fbTimeNow hd0, .fbTimeWin hd0, .fbTimeUntil hd0 1, .fbStat hd0 true, .fbStat hd0 false, .fbUnsub hd0 3, .fbSflush hd0],
        FReady i s) ∧ k.fab.readIds = [] ∧ k.fab.reqs = []
      ∧ (∀ sc ∈ [Scope.panel, .launch, .system, .fabric], s.relReady sc = true)
      ∧ (3 ≤ (spGet 0 k.fab.fc 0).toNat ∧ 16383 ≤ (spGet 0 k.fab.fc 15).toNat) ∧ k.room .ds 1 = true ∧ s.slotTime k 1 ≤ s.dtime ∧ k.mcldOut = false
      ∧ k.meet .F = .own (.fbTimeUntil hd0 1) ∧ k.slipOk .F = true ∧ s.flushes s.cur.loc = true ∧ (s.flushFan s.cur.loc).here.engs = k.engs)
    ∧ (let s := { subTurn .active with transit := [] }; let k := s.here; let u : Sub := ⟨.active, ⟨1, 0⟩, 0x40, 0x8000, 128, .none, 9⟩
      FReady (.fbUnsub hd0 2) s ∧ FReady (.fbSflush hd0) s ∧ assoc k.fab.subs 2 = some u ∧ k.launch = some 0
      ∧ (let v := s.flushSub s.cur.loc 2 u 0
        (∀ t ∈ v.transit, ¬(t.pub = u.pub ∧ t.sub = s.cur.loc ∧ t.slot = 2)) ∧ (v.endSub s.cur.loc 2 u 0).here.engs = k.engs)
      ∧ assoc k.fab.subs 3 = none ∧ s.flushes s.cur.loc = true ∧ (s.flushFan s.cur.loc).here.engs = k.engs)
    ∧ (∀ pub ∈ [1, 40], let s := toSub pub; let k := s.here
      FReady (.fbSub hd0 1 3 .package 9) s ∧ ∃ t ∈ k.headTarget.toList, ∃ x ∈ (k.launch.bind s.launch).toList,
        bits t.ra.toNat 9 0 = pub ∧ x.cores.find? (fun q => q.core == pub) = some ⟨pub, 0⟩ ∧ s.subFault s.cur.loc x 3 t .package = none)
    ∧ (∀ pub ∈ [0, 7], let s := toSub pub; let k := s.here
      FReady (.fbSub hd0 1 3 .none 9) s ∧ ∃ t ∈ k.headTarget.toList, ∃ x ∈ (k.launch.bind s.launch).toList,
        bits t.ra.toNat 9 0 = pub ∧ (pub = 0 ∨ ∀ p ∈ x.cores, p.core ≠ pub)) := by
  unfold FReady Ready
  decide +kernel

/-- Core 0 with a request outstanding, and bytes at its home. -/
def reqTurn (q : FReq) : State :=
  (fabTurn .F (fun b => { (b.reserveN .ds 0 1) with fab := { b.fab with reqs := [q], fmc := 3 } })).writePa 0x1000 [1, 2, 3, 4, 5, 6, 7, 8]

/-- Eight bytes at the home of their page, in two parts. -/
def twoParts : List (Nat × List Rng) := [(0, [⟨.pa 0x1004, 4, none, 0⟩, ⟨.pa 0x1000, 4, none, 0⟩])]

/-- A part of a launch that runs in its bank. -/
def residentB (s : State) (l : Loc) (id : Nat) : Bool :=
  decide ((s.bank l).launch = some id) && (match s.launch id with | some x => decide (assoc x.saved l.core = none) | none => false)

theorem resident_of {s : State} {l : Loc} {id : Nat} (h : residentB s l id = true) : Resident s l id := by
  unfold residentB at h
  rcases hx : s.launch id with _ | x <;> rw [hx] at h <;> simp only [Bool.and_eq_true, decide_eq_true_eq, Bool.and_false] at h
  · exact absurd h (by simp)
  · exact ⟨h.1, x, hx, h.2⟩

/-- The request at home: the hypotheses of its arrival. -/
def AtHome (s : State) (l : Loc) (q : FReq) : Prop :=
  (s.bank l).req 77 = some q ∧ q.gone = true ∧ s.nearTime (s.bank l) q = true ∧ q.near = false ∧ q.ans = none ∧ q.after = [] ∧ q.got = [] ∧ (s.bank l).fabEarlier q = false ∧ q.elems.length = 1
    ∧ q.offs = [] ∧ q.members = [] ∧ nearParts q.elems = q.elems ∧ s.movingRngs (q.elems.flatMap (·.2)) = false ∧ s.badRngs (q.elems.flatMap (·.2)) = none

set_option synthInstance.maxSize 1024 in
set_option synthInstance.maxHeartbeats 400000 in
theorem meets_fabric_replies :
    (∀ op ∈ [FOp.st [(0, [1, 1, 2, 2, 3, 3, 4, 4])], .amo (.amo .add) true false false 5 6, .amo .cas true false false 7 0x0403020108070605, .amo .cas true false false 7 8,
        .ld [] [] true false], let q := { fReq op twoParts [] with gone := true, sentAt := some 3 }
      AtHome (reqTurn q) ⟨0, 0⟩ q ∧ residentB (reqTurn q) ⟨0, 0⟩ 0 = true
        ∧ ∀ d ∈ (FOp.puts op 0 ((reqTurn q).readRngs (twoParts.flatMap (·.2)))).toList, d.length = 8)
    ∧ (let q := { fReq (.st []) twoParts [] with slotAt := some 900 }; let s := reqTurn q
       (s.bank ⟨0, 0⟩).req 77 = some q ∧ q.gone = false ∧ q.after = [] ∧ s.slotDue q = true ∧ (s.bank ⟨0, 0⟩).goesAfter q = false ∧ s.farPackets ⟨0, 0⟩ q = [])
    ∧ (∀ x ∈ [(FOp.st [], FAns.fail 7), (.ld (List.replicate 12 6) [0, 0, 0, 0] false true, .ok [(0, [1, 2, 3, 4])]), (.ld (List.replicate 12 6) [0, 0, 0, 0] true true, .ok [(0, [1, 2, 3, 4])]),
        (.amo .cas true false true 1 2, .ok [(0, [1, 2, 3, 4, 5, 6, 7, 8])]), (.amo (.amo .smin) false true true 1 2, .ok [(0, [])]), (.mcst [] true, .members [some [], none]),
        (.mcst [] false, .members [none, none])],
        let q := { fReq x.1 twoParts [] with sentAt := some 3, ans := some x.2 }; let s := reqTurn q
        (s.bank ⟨0, 0⟩).req 77 = some q ∧ residentB s ⟨0, 0⟩ 0 = true ∧ (s.bank ⟨0, 0⟩).mayReply q = true ∧ (s.bank ⟨0, 0⟩).flt = none)
    ∧ (let q := { fReq (.st []) twoParts [] with gone := true, sentAt := some 3 }; let s := { (reqTurn q) with dtime := 2 ^ 40 }
       (s.bank ⟨0, 0⟩).req 77 = some q ∧ 3 + 1000 * s.regs.frto < s.dtime ∧ s.routeBusy q = false ∧ (s.bank ⟨0, 0⟩).mayReply q = true ∧ residentB s ⟨0, 0⟩ 0 = true ∧ (s.bank ⟨0, 0⟩).flt = none) := by
  unfold AtHome
  decide +kernel

/-- Core 0 waits for core 1 to install an entry beside `n` others. -/
def pending (n off len : Nat) : State :=
  let s := fabTurn .F (fun b => { b with fab := { b.fab with subs := [(2, ⟨.pending, ⟨1, 0⟩, off, 0x8000, len, .none, 9⟩)] } })
  s.onBank ⟨1, 0⟩ (fun b => { b with fab := { b.fab with fan := List.replicate n ⟨⟨40, 0⟩, 1, 0, 0x9000, 64, .none, [], []⟩ } })

theorem meets_subscriptions :
    (∀ x ∈ [(31, 0x40, 64, true), (0, 0x3FFC0, 64, true), (32, 0x40, 64, false), (0, 0x41, 64, false), (0, 0x3FFC0, 128, false)],
      let s := pending x.1 x.2.1 x.2.2.1; let p := s.bank ⟨1, 0⟩
      residentB s ⟨0, 0⟩ 0 = true ∧ residentB s ⟨1, 0⟩ 0 = true ∧ (s.bank ⟨0, 0⟩).finishes = true ∧ (s.bank ⟨0, 0⟩).flt = none
        ∧ (x.2.2.2 = true ↔ x.2.1 % 64 = 0 ∧ x.2.1 + x.2.2.1 ≤ p.hdr.spad ∧ p.fab.fan.length < 32))
    ∧ (let s := subTurn .parked; let b := s.bank ⟨0, 0⟩
       (b.launch = some 0 ∧ b.fab.fan = [⟨⟨40, 0⟩, 1, 0x1000, 0x9000, 128, .none, [⟨1, 0xF⟩, ⟨0, 2 ^ 64 - 1⟩], []⟩])
       ∧ (∀ i ∈ [0, 1], ∃ g ∈ s.transit[i]?.toList, (∀ x ∈ s.transit.take i, ¬(x.pub = g.pub ∧ x.sub = g.sub ∧ x.slot = g.slot)) ∧ residentB s g.sub g.launch = true
          ∧ s.granHeld g = false ∧ g.data.length = 64 ∧ ∃ u ∈ (assoc (s.bank g.sub).fab.subs g.slot.val).toList, u.st = (if i = 0 then SubSt.active else .parked)
          ∧ (s.bank g.sub).fab.drift.length < 3276)) := by
  decide +kernel

/-- A block in the share with its two members inline. -/
def blkBytes (op cid sd dd perm : Nat) (ms : List Nat) : List Byte :=
  leBytes 1 op ++ leBytes 1 1 ++ leBytes 2 ms.length ++ leBytes 4 cid ++ leBytes 1 1 ++ leBytes 1 2 ++ leBytes 1 sd ++ leBytes 1 dd ++ leBytes 1 perm ++ leBytes 19 0
    ++ ms.flatMap (leBytes 4) ++ leBytes (224 - 4 * ms.length) 0

/-- Cores 0 and 1 with a block, its source of 4 by 2 elements, and its destination. -/
def collCores (b0 b1 : List Byte) (d0 d1 : Nat) : State :=
  let s := fabTurn .F id
  let prep (blk : List Byte) (d : Nat) (b : Bank) : Bank :=
    { b with acc := { b.acc with td := recN 2 6 0 0x6000 d (8 / d) (recN 1 6 0 0x4000 d (8 / d) []), sp0 := spPutN 0 b.acc.sp0 0x1C0 blk }
             fab := { b.fab with targets := [⟨0, 0, [], [0, 0, 0, 0], 0x1C0, 0, [], [], []⟩] } }
  (s.onBank ⟨0, 0⟩ (prep b0 d0)).onBank ⟨1, 0⟩ (prep b1 d1)

/-- The two members, `FB.COLL` at a core, and the state it leaves. -/
def both : List Nat := [2 ^ 31, 2 ^ 31 + 1]
def coll : Instr := .fbColl hd0 3 .launch 0 5 none
def goColl (s : State) (c : Nat) : State :=
  match execFbColl hd0 3 .launch 0 5 none { s with cur := ⟨⟨c, 0⟩, .F, false⟩ } with
  | .next t => t
  | _ => s

/-- Both have posted. -/
def posted (b0 b1 : List Byte) (d1 : Nat) : State := goColl (goColl (collCores b0 b1 4 d1) 0) 1
def agreed : State := posted (blkBytes 1 77 0 0 0 both) (blkBytes 1 77 0 0 0 both) 4
def started : State := agreed.modInst ((agreed.trav.insts.map (·.id)).headD 0) (fun i => { i with started := true })
def finished : State := started.modInst ((agreed.trav.insts.map (·.id)).headD 0) (fun i => { i with done := [(0, 0, 0), (0, 1, 0), (1, 0, 0), (1, 1, 0)] })

/-- What `FB.COLL` finds in its block. -/
def blockOk (s : State) : Bool :=
  let k := s.here
  match k.headTarget, k.launch.bind s.launch with
  | some t, some x => match s.checkBlock s.cur.loc x .launch (k.sp0Read t.ra.toNat 256) with
    | (u, .ok blk) => 
      let at' : Option Nat := none
      let p : Post := { who := s.whoOf s.cur.loc.core, pid := 2 * u.nextId, blk, own := true, launch := x.id, fc := 3, sp := hd0.sp, sn := hd0.sn, pc := k.engs.F.pc
                        scope := .launch, slotAt := at', told := false }
      let v := u.newId.2.setBank s.cur.loc { u.here with fab := { u.here.fab with targets := u.here.fab.targets.drop 1 } }
      let v := v.addPost p x.pkt.cairnTo
      let w := (v.instOf p.pid true).elim v (fun i => v.tellPosts i.id)
      decide (u.endedFor (s.whoOf s.cur.loc.core) blk = none) && decide (w.here.engs = k.engs)
        && (k.fab.reqs.all (fun r => !r.op.writes && !r.image.any (meets (t.ra.toNat, 256)))) && (natsFrom t.ra.toNat 256).all (fun a => !k.acc.bad.contains a)
        && decide (s.postCount (· == s.cur.loc.core) < 16 ∧ s.postCount (fun c => dieOf c == dieOf s.cur.loc.core) < 128)
        && u.trav.insts.all (fun i => i.posts.all (fun q => q.pid != 2 * u.nextId)) && decide (t.ra.toNat + 256 ≤ k.hdr.spad)
    | _ => false
  | _, _ => false

/-- An instance whose members disagree in what `ok` compares. -/
def agree (s : State) (ok : CollBlock → CollBlock → Bool) : Bool :=
  s.trav.insts.all (fun x => x.posts.all (fun p => (x.disagree p.blk.members ok).isNone) && !x.started && x.full)

set_option synthInstance.maxSize 1024 in
set_option synthInstance.maxHeartbeats 400000 in
theorem meets_collectives :
    (∀ s ∈ [collCores (blkBytes 1 77 0 0 0 both) [] 4 4, { (goColl (collCores (blkBytes 1 77 0 0 0 both) (blkBytes 1 77 0 0 0 both) 4 4) 0) with cur := ⟨⟨1, 0⟩, .F, false⟩ }],
      FReady coll s ∧ blockOk s = true)
    ∧ ((∀ x ∈ agreed.trav.insts, agreed.tellPosts x.id = agreed ∧ agreed.inst x.id = some x) ∧ agreed.trav.insts.length = 1 ∧ agree agreed collSame = true ∧ agree agreed shapesMeet = true)
    ∧ (let s := posted (blkBytes 1 77 0 0 0 both) (blkBytes 1 77 0 0 0 [2 ^ 31 + 1, 2 ^ 31]) 4; s.trav.insts.length = 1 ∧ (∀ x ∈ s.trav.insts, s.tellPosts x.id = s) ∧ agree s collSame = false)
    ∧ (let s := posted (blkBytes 0 77 0 0 0xE4 both) (blkBytes 0 77 0 0 0xE4 both) 2; s.trav.insts.length = 1 ∧ (∀ x ∈ s.trav.insts, s.tellPosts x.id = s) ∧ agree s collSame = true ∧ agree s shapesMeet = false)
    ∧ (let s := goColl (collCores (blkBytes 1 77 0 0 0 both) [] 4 4) 0; ∃ x ∈ s.trav.insts, s.inst x.id = some x ∧ x.started = false ∧ x.full = false
      ∧ (let u := s.modInst x.id (fun y => { y with age := y.limit }); ∃ y ∈ u.trav.insts, u.inst y.id = some y ∧ y.started = false ∧ y.full = false ∧ y.limit ≤ y.age)
      ∧ (x.posts.map (·.who)).Nodup ∧ ∀ p ∈ x.posts, p.own = true ∧ p.launch = 0 ∧ s.launchOver 0 = false ∧ (s.modLaunch 0 (fun y => { y with st := .ending })).launchOver 0 = true)
    ∧ (let s := started; ∃ x ∈ s.trav.insts, s.inst x.id = some x ∧ x.started = true ∧ ∃ p ∈ x.posts.head?.toList, ∀ i ∈ [0, 1], ∀ j ∈ [0, 1],
        ∃ src ∈ (x.post (p.blk.members.getD i 0)).toList, ∃ dst ∈ (x.post (p.blk.members.getD j 0)).toList, s.postLoc src = some ⟨i, 0⟩ ∧ s.postLoc dst = some ⟨j, 0⟩
          ∧ src.own = true ∧ dst.own = true ∧ pairChunks src.blk = 1 ∧ (s.bank ⟨i, 0⟩).chunkBad src.blk j 0 = none ∧ dieOf (dst.who % 1024) = 0 ∧ src.blk.op = .all2all ∧ x.done = [] ∧ x.sent = []
          ∧ s.postDue src = true ∧ (s.bank ⟨i, 0⟩).unitsHeld (tdescOf src.blk.src) ((chunkOf src.blk 0).map (srcUnit src.blk j)) = false ∧ s.mayLand src dst i 0 = true)
    ∧ (let s := finished; ∃ x ∈ s.trav.insts, x.started = true ∧ x.allDone = true ∧ x.posts.map (fun p => (p.own, s.placeOf p.launch (p.who % 1024))) = [(true, some ⟨0, 0⟩), (true, some ⟨1, 0⟩)]
        ∧ residentB s ⟨0, 0⟩ 0 = true ∧ residentB s ⟨1, 0⟩ 0 = true) := by
  unfold FReady Ready
  decide +kernel

/-! ## Launches (05) -/

/-- Numbers of given widths. -/
def blockOf (l : List (Nat × Nat)) : List Byte := l.flatMap (fun p => leBytes p.1 p.2)

/-- A packet of context 0 on cores of die 0 (05 R137): its type, flags, deadline, cores, and the save area. -/
def packetBytes (typ flags ctx deadline image ncores crec : Nat) : List Byte :=
  blockOf [(1, typ), (1, flags), (2, ctx), (4, 0x11223344), (8, deadline), (8, image), (8, crec), (8, 0), (2, 1), (2, ncores)]

/-- A graph packet: steps and nodes (05 R176). -/
def graphBytes (image steps nodes : Nat) : List Byte := blockOf [(1, 1), (1, 4), (2, 0), (4, 7), (8, 0), (8, image), (8, 0x40000), (24, 0), (4, steps), (2, nodes)]

/-- An image's header (05 R139): a text of one word at 256, a record at 512, its stages. -/
def headerBytes (stages : Nat) : List Byte :=
  blockOf [(4, 0x5A4C4B31), (2, 1), (2, 256), (4, 1), (4, 256), (1, 8), (7, 0), (2, 1), (1, 1), (1, stages), (1, 1), (1, 0), (2, 16), (4, 4096), (4, 1), (2, 4095), (62, 0), (8, 0x321),
    (16, 0x821), (4, 512), (4, 1024)]

/-- A queue at package address 0x70000 with one packet not read, and an image and a node table in VIRT memory. -/
def queueTurn (pkt : List Byte) (stages : Nat) : State :=
  let s := virt (turn .S id)
  let s := ((s.writePa 0x70000 pkt).writePa 0x10000 (headerBytes stages)).writePa 0x10100 (leBytes 4 0x00040000)
  let s := (s.writePa 0x20000 (packetBytes 0 0 0 0 0x10000 1 0)).writePa 0x20100 (blockOf [(2, 0), (2, 1), (4, 768)])
  let s := (s.writePa 0x20180 (packetBytes 0 0 0 0 0x10000 1 0)).writePa 0x20280 (blockOf [(2, 1)])
  let s := s.writePa 0x20300 [1]
  { s with queues := [(3, { base := 0x70000, en := true, widx := 1 })], nextId := 9 }

/-- The packet of the queue, as a launch at its head. -/
def headLaunch (pkt : List Byte) : Launch := newLaunch 16 3 0 0 (parsePacket pkt) 0 none
def atHead (pkt : List Byte) (stages : Nat) (f : Launch → Launch) : State :=
  let s := queueTurn pkt stages
  { s with launches := s.launches ++ [f (headLaunch pkt)], dtime := 5000 }

def plainPacket : List Byte := packetBytes 0 0 0 0 0x10000 2 0x40000

/-- A read by the launch machinery. -/
def readOf (s : State) (va n : Nat) : Option (List Byte) := match s.mread 0 va n with | (_, .ok d) => some d | _ => none
def pageOf (s : State) (va n : Nat) : Option Nat := match s.mread 0 va n with | (_, .page a) => some a | _ => none

/-- The launch placed on a core, its bank loading. -/
def loadTurn : State :=
  let h := (parseHeader (headerBytes 1) 0x10000).getD {}
  let s := atHead plainPacket 1 (fun x => { x with st := .dispatch, hdr := some h, cores := [⟨5, 1⟩] })
  s.setBank ⟨5, 1⟩ { ({} : Bank) with st := .loading, launch := some 16, hdr := h }

/-- A graph of two nodes, the first of which has run its only step. -/
def twoNodes : Graph :=
  let n : GNode := ⟨{ placedPacket with typ := 0, image := 0x10000, dies := 1 }, [], 0, []⟩
  ⟨33, 3, 0, 0, 7, 0, 0x40000, true, 1, 1000, [{ n with succs := [1] }, { n with npred := 1 }], [1, 0], [1, 0], none, false, 5⟩
def graphTurn (g : Graph) : State := { (queueTurn [] 1) with graphs := [g] }

set_option synthInstance.maxSize 1024 in
set_option synthInstance.maxHeartbeats 400000 in
theorem meets_dispatch_doorbell :
    (∀ w ∈ [0, 16, 17, 0xFFFFFFFF], let s := { (turn .S id) with queues := [(3, { base := 0x70000, en := true, widx := 1 })] }
      s.regsOpen 0 = true ∧ (s.queue 3).en = true ∧ (2 ^ (s.queue 3).lg < (w + 2 ^ 32 - (s.queue 3).cidx) % 2 ^ 32 ↔ 16 < w)) := by
  decide +kernel

set_option synthInstance.maxSize 1024 in
set_option synthInstance.maxHeartbeats 400000 in
theorem meets_dispatch_packet :
    (∀ x ∈ [(plainPacket, false), (packetBytes 2 0 0 0 0x10000 1 0, true), (packetBytes 0 0 9 0 0x10000 1 0, true), (graphBytes 0x20000 1 2, false)], let s := queueTurn x.1 1; let k := s.queue 3
      s.regs.ready = .ready ∧ k.en = true ∧ s.headOf 3 = none ∧ k.ridx ≠ k.widx ∧ k.done = [] ∧ k.cidx = k.ridx ∧ s.hostWrites (k.slotAt k.ridx) 256 = false ∧ homesOk [0, 1] (k.slotAt k.ridx) 256 = true
        ∧ s.firstBad (.pa (k.slotAt k.ridx)) 256 = none ∧ s.launch 18 = none ∧ s.packetBad (parsePacket (s.readPa (k.slotAt k.ridx) 256)) 0 = x.2) := by
  decide +kernel

set_option synthInstance.maxSize 1024 in
set_option synthInstance.maxHeartbeats 400000 in
theorem meets_dispatch_bad_slot :
    (let s := { (queueTurn plainPacket 1) with bad := [0x70010] }; (s.firstBad (.pa 0x70000) 256).isSome = true) := by
  decide +kernel

set_option synthInstance.maxSize 1024 in
set_option synthInstance.maxHeartbeats 400000 in
/-- ControlRegisters: a legal header, one that a launch keeps, and a queue of at most sixteen. -/
theorem meets_control_headers :
    (parseHeader (headerBytes 1) 0x10000).isSome = true ∧ (placedLaunch 7).hdr = some placedHeader
    ∧ sTurn.here.queues.cq.length ≤ 16 := by
  decide +kernel

theorem meets_dispatch_header :
    (∀ x ∈ [(2, plainPacket, true), (3, plainPacket, false)], let s := atHead x.2.1 x.1 id; ∃ y ∈ (s.headOf 3).toList,
        s.launch 16 = some y ∧ y.id = 16 ∧ y.hdr = none ∧ y.pf = none ∧ y.pkt.typ = 0 ∧ ∃ d ∈ (readOf s y.pkt.image 256).toList, ∃ h ∈ (parseHeader d y.pkt.image).toList,
          (h.stages ≤ s.coreCount y.pkt ↔ x.2.2 = true)) := by
  decide +kernel

set_option synthInstance.maxSize 1024 in
set_option synthInstance.maxHeartbeats 400000 in
theorem meets_dispatch_no_header :
    (let s := atHead (packetBytes 0 0 0 0 0x20000 1 0) 1 id; ∃ y ∈ (s.headOf 3).toList, ∃ d ∈ (readOf s y.pkt.image 256).toList, parseHeader d y.pkt.image = none) := by
  decide +kernel

set_option synthInstance.maxSize 1024 in
set_option synthInstance.maxHeartbeats 400000 in
theorem meets_dispatch_header_page :
    (let s := atHead (packetBytes 0 0 0 0 0xC0000000 1 0) 1 id; ∃ y ∈ (s.headOf 3).toList, pageOf s y.pkt.image 256 = some 0xC0000000) := by
  decide +kernel

set_option synthInstance.maxSize 1024 in
set_option synthInstance.maxHeartbeats 400000 in
theorem meets_dispatch_arbiter :
    (∀ x ∈ [(plainPacket, false), (packetBytes 0 2 0 4000 0x10000 1 0, true)], let f (y : Launch) : Launch := { y with hdr := parseHeader (headerBytes 1) 0x10000 }; let s := atHead x.1 1 f
      s.candidates = [f (headLaunch x.1)] ∧ (s.late (headLaunch x.1) && (headLaunch x.1).pkt.miss) = x.2 ∧ s.launch 16 = some (f (headLaunch x.1))
        ∧ ∃ cores ∈ (s.fit (f (headLaunch x.1)) []).toList, cores.Nodup) := by
  decide +kernel

set_option synthInstance.maxSize 1024 in
set_option synthInstance.maxHeartbeats 400000 in
theorem meets_dispatch_load :
    (let s := loadTurn; let b := s.bank ⟨5, 1⟩; ∃ x ∈ (b.launch.bind s.launch).toList, b.st = .loading ∧ x.st = .dispatch ∧ x.pf = none ∧ x.saved = []
        ∧ (readOf s (x.pkt.image + b.hdr.textoff) (4 * b.hdr.textlen)).isSome = true ∧ (readOf s (x.pkt.image + b.hdr.tdoff) (96 * b.hdr.ntd)).isSome = true
        ∧ readOf s x.pkt.sched (32 * x.pkt.nsched) = some []) := by
  decide +kernel

set_option synthInstance.maxSize 1024 in
set_option synthInstance.maxHeartbeats 400000 in
/-- The part of a core is read back from its save area, with one entry in the drift log. -/
theorem meets_dispatch_restore :
    (let k : Bank := { ({} : Bank) with hdr := (parseHeader (headerBytes 1) 0x10000).getD {}, fab := { ({} : FabSt) with drift := [⟨1, 2, 0, List.replicate 64 7⟩] } }
     let s := loadTurn.modLaunch 16 (fun x => { x with saved := [(5, k)] }); let b := s.bank ⟨5, 1⟩; ∃ x ∈ (b.launch.bind s.launch).toList,
      let a := saveBase x.pkt k.hdr 5 + saveRegs
      b.st = .loading ∧ x.st = .dispatch ∧ x.pf = none ∧ assoc x.saved 5 = some k ∧ k.seq.kept = false ∧ (readOf s a k.hdr.spad).isSome = true
        ∧ (readOf s (a + k.hdr.spad) (10240 * k.hdr.acc)).isSome = true ∧ (readOf s (a + k.hdr.spad + 10240 * k.hdr.acc) (80 * k.fab.drift.length)).isSome = true)
    ∧ (let k : Bank := { ({} : Bank) with seq := { ({} : SeqSt) with kept := true, wbase := 7 } }
       let s := loadTurn.modLaunch 16 (fun x => { x with saved := [(5, k)] }); let b := s.bank ⟨5, 1⟩; ∃ x ∈ (b.launch.bind s.launch).toList,
      b.st = .loading ∧ x.st = .dispatch ∧ x.pf = none ∧ assoc x.saved 5 = some k ∧ k.seq.kept = true) := by
  decide +kernel

set_option synthInstance.maxSize 1024 in
set_option synthInstance.maxHeartbeats 400000 in
theorem meets_dispatch_graph :
    (let s := atHead (graphBytes 0x20000 1 2) 1 id; ∃ x ∈ (s.headOf 3).toList, x.pkt.typ = 1 ∧ (s.queue 3).en = true ∧ s.graphNext x = true ∧ x.pkt.counts.getD 1 0 = 2
        ∧ ∃ d ∈ (readOf s x.pkt.image 768).toList, let ents := (chunksOf 384 3 d).map nodeOf; ents.all (·.isSome) = true
          ∧ ∃ nodes ∈ (match s.readSuccs 0 0x20000 (ents.filterMap id) with | (_, .ok l) => [l] | _ => []), nodes.length = 2 ∧ graphBad nodes = false) := by
  decide +kernel

set_option synthInstance.maxSize 1024 in
set_option synthInstance.maxHeartbeats 400000 in
theorem meets_dispatch_node :
    (let s := graphTurn twoNodes; s.graph 33 = some twoNodes ∧ (∀ x ∈ s.launches, ¬(x.node = some (33, 1) ∧ x.st = .queued ∧ x.hdr = none)) ∧ twoNodes.ready 1 = true ∧ s.launch 18 = none
        ∧ ∃ nd ∈ twoNodes.nodes[1]?.toList, s.packetBad (nd.packet 0 1000) 0 = false ∧ ((readOf s 0x10000 256).bind (parseHeader · 0x10000)).isSome = true
          ∧ 1 ≤ s.coreCount (nd.packet 0 1000)) := by
  decide +kernel

set_option synthInstance.maxSize 1024 in
set_option synthInstance.maxHeartbeats 400000 in
theorem meets_dispatch_graph_end :
    (∀ g ∈ [{ twoNodes with fin := [1, 1] }, { twoNodes with stop := some (0, 0, 1) }, { twoNodes with cancel := true }], let s := graphTurn g
        s.graph 33 = some g ∧ s.nodeRuns 33 = false ∧ (g.stop.isSome = true ∨ g.cancel = true ∨ ∀ k ∈ g.fin, k = g.steps) ∧ s.hasRecord g.ctx g.fn g.crec = true
          ∧ (match s.walkAll g.ctx g.crec 64 true [0, 1] with | (_, .ok [⟨.pa _, 64, _, _⟩]) => true | _ => false) = true) := by
  decide +kernel

/-- The launch of core 0 after a change, its bank in a state, the core's other bank empty. -/
def launchTurn (st : BankSt) (f : Launch → Launch) (g : Bank → Bank) : State :=
  let s := virt (turn .S (fun b => g { b with st }))
  s.modLaunch 0 f

theorem meets_launch_ends_halted :
    (∀ preq ∈ [true, false], ∀ run ∈ [some 0, none], let s0 := launchTurn .halting (fun x => { x with preq }) (fun b => { b with evict := preq }); let s := s0.setCore 0 { (s0.core 0) with run }
      let b := s.bank ⟨0, 0⟩
      ∃ x ∈ (s.launch 0).toList, b.launch = some 0 ∧ x.st = .running ∧ b.st = .halting ∧ b.flt = none ∧ b.acc.out = [] ∧ b.acc.pf = none ∧ (∀ e ∈ [Engine.S, .A, .M, .V, .T, .F], (b.eng e).rets = [] ∧ (b.eng e).pend = [])
        ∧ b.mx.mid = false ∧ b.fab.reqs = [] ∧ b.fab.fan = [] ∧ s.transit = [] ∧ (∀ p ∈ b.fab.subs, p.2.st ≠ .pending) ∧ b.atSlots = true
        ∧ (s.bank ⟨0, 1⟩).launch = none ∧ (s.bank ⟨0, 1⟩).st ≠ .halting
        ∧ x.preq = preq ∧ x.live = [⟨0, 0⟩]) := by
  decide +kernel

theorem meets_launch_ends_saved :
    (let s := launchTurn .saving (fun x => { x with st := .preempted, pkt := { x.pkt with save := 0x100000 } }) id; let b := s.bank ⟨0, 0⟩
       ∃ x ∈ (b.launch.bind s.launch).toList, b.st = .saving ∧ x.st = .preempted ∧ b.acc.out = [] ∧ b.fab.reqs = [] ∧ s.trav.insts = []) := by
  decide +kernel

theorem meets_launch_ends_barrier :
    (let s := { heldTurn with launches := heldTurn.launches.map (fun x => { x with cores := x.cores ++ [⟨2, 0⟩], bars := [⟨.cluster, 0, 0, some (10 ^ 9), 1000⟩] }) }; let x := theLaunch s
       s.launch x.id = some x ∧ x.st = .running ∧ (x.bar .cluster 0).age = some (10 ^ 9) ∧ x.pkt.cairnTo ≤ 10 ^ 9
        ∧ (x.members .cluster 0).find? (fun l => (s.bank l).seq.cairn == some .cluster) = some ⟨0, 0⟩ ∧ (s.bank ⟨0, 0⟩).flt = none
        ∧ ∃ p ∈ x.members .cluster 0, p.core = 2 ∧ (s.bank p).arrivals .cluster ≤ (x.bar .cluster 0).gen) := by
  decide +kernel

theorem meets_launch_ends_watchdog :
    (∀ n ∈ [1048575, 1048576], let s := launchTurn .run id (fun b => { b with seq := { b.seq with wdog := n } }); (s.core 0).run = some 0 ∧ (s.bank ⟨0, 0⟩).seq.wdog = n ∧ (s.bank ⟨0, 0⟩).st = .run
        ∧ (s.bank ⟨0, 0⟩).flt = none) := by
  decide +kernel

theorem meets_launch_ends_ended :
    (let s := launchTurn .ready (fun x => { x with st := .ending }) id; ∃ x ∈ (s.launch 0).toList, x.st = .ending ∧ (let here := x.live.filter (fun l => s.resident 0 l)
        let u := here.foldl (fun s l => s.wind l) ((s.stopInsts 0).stopLaunch 0)
        here = [⟨0, 0⟩] ∧ here.all u.wound = true ∧ ∀ l ∈ here, u.resident 0 l = true)) := by
  decide +kernel

theorem meets_launch_ends_recorded :
    (∀ notify ∈ [true, false], let s := { (launchTurn .ready (fun x => { x with st := .ending, ended := [0], queue := 3, pkt := { x.pkt with crec := 0x40000, notify } }) id) with
          queues := [(3, { base := 0x70000, en := true, widx := 1 })] }
       ∃ x ∈ (s.launch 0).toList, x.st = .ending ∧ x.live = [] ∧ x.node = none ∧ x.queue < 64 ∧ s.hasRecord x.pkt.ctx x.fn x.pkt.crec = true
        ∧ (match s.walkAll x.pkt.ctx x.pkt.crec 64 true [0, 1] with | (_, .ok [⟨.pa _, 64, _, _⟩]) => true | _ => false) = true) := by
  decide +kernel

theorem meets_launch_ends_cancelled :
    (∀ st ∈ [LaunchSt.queued, .running, .dispatch, .preempted], let s := launchTurn .run (fun x => { x with st, queue := 3 }) id
       s.regsOpen 0 = true ∧ ∃ x ∈ (s.launches.find? (fun x : Launch => x.queue == 3 && x.slot == 0 && x.st != .done)).toList, x.id = 0 ∧ x.st = st ∧ s.launch 0 = some x) := by
  decide +kernel

/-! ## Streams, pages and migration (05 R169, 06, 09) -/

/-- A stream of 6 by 2 fp32 elements on `q2` of core 0. -/
def streamOf (wr : Bool) (held : List HeldVec) : Stream :=
  ⟨0, 0, (List.range 12).map (fun i => spGet 0 (recN 0 6 0x100 0x1000 6 2 []) i), [0, 0, 0, 0], wr, held, 0, 0, []⟩
def streamTurn (q : Stream) : State := (aTurn (fun b => { b with acc := { b.acc with q := [(2, q)] } })).writePa 0x100 [1, 2, 3, 4]

/-- What a stream finds for its next vector. -/
def streamOk (s : State) (q : Stream) : Bool :=
  let b := s.bank ⟨0, 0⟩
  let d := tdescOf q.tdr
  let hs := q.homed q.done
  !s.heldAny b.ctx d.asp hs && hs.length == 12 && (match s.gather ⟨0, 0⟩ d.asp q.wr homesA (hs.map (fun x => (x.2, x.1.len))) with
    | (u, .ok rs) => !u.tHolds rs.flatten && (u.platCheck 0 b.ctx (if q.wr then .write else .read) rs.flatten).2.isNone && ((u.platCheck 0 b.ctx (if q.wr then .write else .read) rs.flatten).1.badRngs rs.flatten).isNone
        && decide (rs.flatten.Pairwise (fun x y => x.overlaps y = false)) && (hs.zip rs).all (fun x => x.1.1.len == (x.2.map (·.len)).sum)
    | _ => false)

theorem meets_streams :
    (let q := streamOf false []; let s := streamTurn q
     assoc (s.bank ⟨0, 0⟩).acc.q 2 = some q ∧ (s.bank ⟨0, 0⟩).live = true ∧ q.held.length < 4 ∧ q.done < q.vectors ∧ q.after = [] ∧ streamOk s q = true)
    ∧ (let q := streamOf true [⟨5, 0x0102030405060708, []⟩]; let s := streamTurn q
     assoc (s.bank ⟨0, 0⟩).acc.q 2 = some q ∧ (s.bank ⟨0, 0⟩).live = true ∧ streamOk s q = true) := by
  decide +kernel

/-- Core 0 has met a page fault of A, with room in its function's fault queue or without it; channel 3 has met its own. -/
def pageTurn (en drained : Bool) : State :=
  let s := aTurn (fun b =>
    let x := b.newCmd 8 hd0 (.toRec [] [] [] []) false 1 none
    { (b.putChan 3 { b.chan 3 with cmds := [x], pf := some ⟨0x5000, true, 4, true, false⟩ }) with acc := { b.acc with pf := some ⟨0x4000, false, 0, drained, false⟩ } })
  s.setFn 0 { s.fn 0 with fqbase := 0x80000, fqen := en }

theorem meets_pages :
    (∀ en ∈ [true, false], let s := pageTurn en false; let b := s.bank ⟨0, 0⟩
      b.acc.pf = some ⟨0x4000, false, 0, false, false⟩ ∧ b.acc.out = [] ∧ b.flt = none ∧ (∀ e ∈ [Engine.S, .A, .M, .V, .T, .F], (b.eng e).rets = [] ∧ (b.eng e).pend = [])
        ∧ b.mx.mid = false ∧ b.fab.fan = [] ∧ s.transit = [] ∧ (s.fn (s.ctxFn b.ctx)).fqRoom = en
        ∧ (∃ c ∈ (assoc b.car.ch 3).toList, c.pf = some ⟨0x5000, true, 4, true, false⟩))
    ∧ (let x : Cmd := { ((turn .A id).here.newCmd 8 hd0 (.siftDec (.at .virt 0x1000) .virt 0x2000 0x3000 4) true 1 none) with spill := [(1, List.replicate 512 7), (2, [])] }
       let s := aTurn (fun b => b.putChan 3 { b.chan 3 with cmds := [x] })
       ((s.bank ⟨0, 0⟩).chan 3).cmds = [x] ∧ s.chanLive ⟨0, 0⟩ 3 = true ∧ s.copyHeld ⟨0, 0⟩ x = false
        ∧ (match s.moveItems ⟨0, 0⟩ [⟨512, .bytes (List.replicate 512 7), .addr .virt 0x1200⟩] (copyDetail 3 1) with | .ok _ => true | _ => false) = true) := by
  decide +kernel

/-- A context with one page of a GiB in its first segment, and a migration of that page. -/
def migTurn (done : Nat) : State :=
  let w (s : State) (a v : Nat) : State := s.writePa a (leBytes 8 v)
  let s := w (w (w State.reset 0x50000000 0x51000003) 0x51000008 0x52000001) 0x52000010 0x40000007
  { s with ctxs := [(0, ⟨0x50000000, 0, 0, 0, 0, 0, 0, 0, 0⟩)], migs := [⟨0, 0, 0, [(0x40000000, 0x80000000, 2 ^ 30)], done⟩] }

theorem meets_migration :
    (let s := migTurn 0; s.migs = [⟨0, 0, 0, [(0x40000000, 0x80000000, 2 ^ 30)], 0⟩] ∧ spGet 0 s.busy 0 = 0 ∧ s.segUsed 0 0 = false)
    ∧ (let s := migTurn 1; ∃ x ∈ (s.ctx 0).toList, let ents := (s.segEntries x 0).map (fun e => movedPa [(0x40000000, 0x80000000, 2 ^ 30)] e.1)
        ents.length = 3 ∧ ents.Pairwise (fun e f => e + 8 ≤ f ∨ f + 8 ≤ e)) := by
  decide +kernel

/-! ## The host (15) -/

/-- A command of a function of a READY package: its arguments; a table of contexts at 0x90000 whose entries 1 and 2 are legal, the first of function 1. -/
def cmdTurn (fn : Fin 17) (args : List Nat) (f : State → State) : State :=
  let s := virt (turn .S id)
  let w (s : State) (a v : Nat) : State := s.writePa a (leBytes 8 v)
  let s := w (w (w (w (w (w s 0x90040 0x50000001) 0x90048 0x60000000) 0x90068 1) 0x90080 0x50000001) 0x90090 3) 0x900A0 0x61000000
  let s := { s with regs := { s.regs with ctxbase := 0x90000, vfen := true } }
  f (s.setFn fn.val { s.fn fn.val with harg := args })

/-- A core in FAULTWAIT, or a channel, whose page fault waits for an answer. -/
def replyTurn (agent code : Nat) : State :=
  cmdTurn 0 [7, code, 0, 0] (fun s =>
    let s := s.onBank ⟨0, 0⟩ (fun b => { (b.putChan 3 { b.chan 3 with pf := some ⟨0x5000, true, 4, true, true⟩ }) with
      st := if agent = 0 then .faultwait else .run, acc := { b.acc with pf := if agent = 0 then some ⟨0x4000, false, 0, true, true⟩ else none } })
    s.setFn 0 { s.fn 0 with fqhead := 8, fq := [⟨6, 0, 0, 0, false, 0, true, some 0, true⟩, ⟨7, 0x4000, 0, agent, false, 0, true, some 0, false⟩] })

set_option synthInstance.maxSize 1024 in
set_option synthInstance.maxHeartbeats 400000 in
theorem meets_host_commands_ready :
    (∀ fn ∈ [0, 1], Commands (cmdTurn fn [1, 0, 0, 0] id) fn) := by
  unfold Commands
  decide +kernel

set_option synthInstance.maxSize 1024 in
set_option synthInstance.maxHeartbeats 400000 in
theorem meets_host_commands_contexts :
    ((let s := cmdTurn 0 [1, 0, 0, 0] id; s.ctx 1 = none ∧ s.ctxOk 1 (upTo 8) = true ∧ s.ctx 0 ≠ none ∧ s.ctxBusy 0 = true ∧ s.ctxOk 3 (upTo 8) = false)
      ∧ (let s := cmdTurn 1 [2, 0, 0, 0] id; s.ctxOk 2 (upTo 8) = true ∧ (s.ctxOf 2).fn ≠ 1 ∧ s.ownErr 1 0 = 2 ∧ s.ownErr 1 5 = 4)) := by
  decide +kernel

set_option synthInstance.maxSize 1024 in
set_option synthInstance.maxHeartbeats 400000 in
theorem meets_host_commands_known :
    (let s := cmdTurn 0 [2, 0, 2, 0] (fun s => { s with ctxs := s.ctxs ++ [(2, s.ctxOf 2)] }); s.ownErr 0 2 = 0 ∧ s.ctxBusy 2 = false ∧ s.ctxOk 2 [0] = true ∧ s.ctxOk 2 [1, 2, 4] = true) := by
  decide +kernel

set_option synthInstance.maxSize 1024 in
set_option synthInstance.maxHeartbeats 400000 in
theorem meets_host_commands_reply :
    (∀ x ∈ [(0, 0), (0, 1), (4, 0), (4, 1)], let s := replyTurn x.1 x.2
      Commands s 0 ∧ s.harg 0 0 = 7 ∧ s.harg 0 1 = x.2 ∧ (s.fn 0).fq.find? (fun e => e.idx == 7 && !e.answered) = some ⟨7, 0x4000, 0, x.1, false, 0, true, some 0, false⟩
        ∧ s.placeOf 0 0 = some ⟨0, 0⟩ ∧ residentB s ⟨0, 0⟩ 0 = true ∧ (s.bank ⟨0, 0⟩).flt = none) := by
  unfold Commands
  decide +kernel

set_option synthInstance.maxSize 1024 in
set_option synthInstance.maxHeartbeats 400000 in
theorem meets_host_commands_no_entry :
    (let s := cmdTurn 0 [6, 0, 0, 0] (fun s => s.setFn 0 { s.fn 0 with fq := [⟨6, 0, 0, 0, false, 0, true, some 0, true⟩] }); Commands s 0 ∧ ∀ x ∈ (s.fn 0).fq, x.idx = 6 ∧ x.answered = true) := by
  unfold Commands
  decide +kernel

set_option synthInstance.maxSize 1024 in
set_option synthInstance.maxHeartbeats 400000 in
theorem meets_host_commands_memory :
    ((let s := cmdTurn 0 [0x90000, 256, 0, 0] id; homesOk [0, 1] 0x90000 256 = true ∧ homesOk [0, 1] 0x90000 1024 = true ∧ homesOk [0, 1] (2 ^ 51) 64 = false ∧ s.net.routing.loaded = false
        ∧ s.migs = [])
      ∧ (let s := cmdTurn 0 [0, 0, 0, 0] (fun s => { (s.setLink 0 4 { st := .up }) with net := { (s.setLink 0 4 { st := .up }).net with routing := { loaded := true } } })
        s.net.routing.loaded = true ∧ (s.link 0 4).st = .up)
      ∧ (let s := { (cmdTurn 0 [0, 0, 0, 0] id) with bad := [0x90010] }; (s.firstBad (.pa 0x90000) 64).isSome = true)) := by
  decide +kernel

set_option synthInstance.maxSize 1024 in
set_option synthInstance.maxHeartbeats 400000 in
theorem meets_host_commands_done :
    (∀ x ∈ [(1, 0), (3, 4), (5, 4), (8, 3)], let c : HCmd := ⟨0, x.1, [0, 0, 0, 0], some x.2⟩; let s := cmdTurn 0 [0, 0, 0, 0] (fun s => { s with regs := { s.regs with cmds := [c] } })
      s.regs.cmds = [c] ∧ s.net.routing.draining = false ∧ s.cmdDone c = true) := by
  decide +kernel

/-- A package with a queue at a base, enabled or not, of a size. -/
def queueAt (base : Nat) (en : Bool) : State := { (turn .S id) with queues := [(3, { base, en, widx := 5 })] }

/-- A package in a state of bring-up. -/
def bringUp (r : ReadySt) : State := { State.reset with regs := { State.reset.regs with ready := r } }

set_option synthInstance.maxSize 1024 in
set_option synthInstance.maxHeartbeats 400000 in
theorem meets_host_registers_queues :
    (∀ x ∈ [(0x70000, true, true), (0x70000, false, true), (8 * 2 ^ 48, false, false)], let s := queueAt x.1 x.2.1
      s.regsOpen 0 = true ∧ (s.queue 3).en = x.2.1 ∧ ((homeOf (s.queue 3).base = 0 ∨ homeOf (s.queue 3).base = 1) ↔ x.2.2 = true))
    ∧ (∀ v ∈ [4 + 2 ^ 8, 16 + 2 ^ 8 + 2 ^ 16 * 63, 4], 4 ≤ bits v 4 0 ∧ bits v 4 0 ≤ 16 ∧ bits v 22 16 < 64) ∧ ¬(bits 3 4 0 ≥ 4 ∧ bits (2 ^ 16 * 64 + 4) 22 16 < 64)
    ∧ (bringUp .hbmtrain).regsOpen 0 = false ∧ (bringUp .hbmtrain).regs.ready ≠ .ready ∧ (bringUp .hbmtrain).regs.ready ≠ .fail := by
  decide +kernel

set_option synthInstance.maxSize 1024 in
set_option synthInstance.maxHeartbeats 400000 in
theorem meets_host_registers_part :
    (let s := { (turn .S id) with regs := { (turn .S id).regs with plumb := { due := true, sel := [(1, 1), (2, 0x2040)] } } }; s.regs.plumb.due = true ∧ spWf 0 s.regs.plumb.sel = true)
    ∧ (let s := { (turn .S id) with regs := { (turn .S id).regs with plumb := { mode := 2, at' := 3 } }, dtime := 3 }; s.regs.plumb.mode = 2 ∧ s.regs.plumb.at' ≤ s.dtime)
    ∧ (let s := turn .S id; s.regsOpen 0 = true ∧ homesOk [0, 1] 0x1000 8 = true ∧ homesOk [0, 1] (48 * 2 ^ 30 * 16 - 1) 2 = false ∧ s.movingRngs [⟨.pa 0x1000, 8, none, 0⟩] = false ∧ homeDie 0x1000 = 0
        ∧ s.firstBad (.pa 0x1000) 8 = none)
    ∧ (let s := turn .S id; ∀ pa ∈ [0x1000001000, 0xF000000000], homeDie pa ≠ 0 ∧ homesOk [0, 1] pa 4096 = true ∧ s.net.routing.bank0 = [] ∧ s.net.routing.bank1 = [] ∧ s.net.pend = []
        ∧ (s.txTriple (s.myAddr 0).pkgNum .bulk).unack.length < 4096 ∧ s.endUp (ergKey 0 (homeDie pa)) = false ∧ s.endFailed (portKey 0 (xyPort 0 (homeDie pa))) = false)
    ∧ (∀ r ∈ [ReadySt.reset, .fwverify, .hbmtrain, .linktrain, .selftest, .ready, .fail], (bringUp r).regs.ready = r)
    ∧ (let up (down : List (Nat × Nat)) (d p : Nat) : Bool := hasLink d p && !down.contains (d, p) && (match meshTo d p with | some e => !down.contains (e, meshBack p) | none => true)
       16 ≤ (meshReach (up []) 16 [0]).length ∧ (meshReach (up ((upTo 4).map (fun p => (0, p)))) 16 [0]).length < 16) := by
  decide +kernel

/-! ## Links and packets (13) -/

/-- A packet of another package for a die of this one. -/
def pktOf (kind : PKind) (cls : PCls) (seq : Nat) (len : Nat) : Packet :=
  { kind, cls, rel := false, wm := true, sift := false, ver := false, scope := .panel, len, seq := BitVec.ofNat 32 seq, src := ⟨0, 1, 0⟩, dst := ⟨0, 0, 0⟩, window := 0, npath := 1, tag := 154
    off := 16, req := .none, data := List.replicate len 0xAB, badRes := false }

/-- A port in a state, with packets to send and credits. -/
def linkTurn (die port : Nat) (x : Link) : State :=
  let s := (turn .S id).setLink die port x
  { s with dtime := 20000 }
def upLink : Link :=
  { st := .up, greeted := true, heard := true
    out := [⟨pktOf .write .bulk 7 100, 0, 1, 0⟩, ⟨pktOf .write .urgent 8 8, 1, 0, 0⟩, ⟨pktOf .ack .critical 9 0, 2, 3, 0⟩]
    cred := [(1, 1), (4, 5), (14, 2)], rx := 1023, lseq := 1023 }

/-- A flit of a packet, in order or not. -/
def flitOf (lseq : Nat) (crcOk abort tail : Bool) (head : Option Packet) (cls : Fin 4) : Flit :=
  ⟨crcOk, BitVec.ofNat 10 lseq, some 5, abort, tail, head, 1, cls, 0⟩

set_option synthInstance.maxSize 1024 in
set_option synthInstance.maxHeartbeats 400000 in
/-- A mesh port and an Omuno port with a flit to send, one with no credit or a full retry buffer, one with a flit to replay, and one that is down or leads nowhere. -/
theorem meets_links_sending :
    (∀ x ∈ [upLink, { upLink with cred := [(4, 5)] }, { upLink with noBulk := 7 }, { upLink with noUrg := 15, turn := [(2, 3)] }], ∀ port ∈ [0, 4], let s := linkTurn 4 port x
      let k := portKey 4 port
      let u := s.topUp k
      s.endUp k = true ∧ hasLink 4 port = true ∧ (u.linkAt k).replay = [] ∧ (u.linkAt k).rbuf.length < 512 ∧ (u.choice k true).isSome = true)
    ∧ (∀ x ∈ [{ upLink with cred := [] }, { upLink with rbuf := List.replicate 512 (5, ⟨pktOf .write .bulk 7 100, 0, 1, 0⟩) }], let s := linkTurn 4 4 x
      let k := portKey 4 4
      let u := s.topUp k
      s.endUp k = true ∧ (u.linkAt k).replay = [] ∧ (512 ≤ (u.linkAt k).rbuf.length ∨ u.choice k true = none))
    ∧ (let s := linkTurn 4 4 { upLink with replay := [(3, ⟨pktOf .write .bulk 7 100, 0, 1, 1⟩)] }
      s.endUp (portKey 4 4) = true ∧ ((s.topUp (portKey 4 4)).linkAt (portKey 4 4)).replay.length = 1)
    ∧ ((linkTurn 4 4 { upLink with st := .retraining }).endUp (portKey 4 4) = false ∧ hasLink 0 0 = false)
    ∧ (let owes (x : Link) : Bool := x.owe.any (fun p => if p.1 = 14 then 2 ≤ p.2 else false)
      owes { upLink with owe := [(14, 2)] } = true ∧ owes upLink = false ∧ upLink.out.any (fun o => o.p.kind == .credit) = false ∧ ({ upLink with greeted := false } : Link).greeted = false)
    ∧ (let p := linkTurn 4 4 { upLink with noBulk := 6, noUrg := 14 }; let k := portKey 4 4
      (p.pick k 0).isSome = true ∧ (p.pick k 1).isSome = true ∧ (p.pick k 2).isSome = true) := by
  decide +kernel

set_option synthInstance.maxSize 1024 in
set_option synthInstance.maxHeartbeats 400000 in
/-- Flits from outside and over a mesh link: taken, refused, the sixteenth refusal; a port that is not up. -/
theorem meets_links_receiving :
    (let p := pktOf .write .bulk 7 100
     ∀ x ∈ [(flitOf 1023 true false false (some p) 0, false), (flitOf 1023 true false true none 0, false), (flitOf 1023 true true true none 0, false), (flitOf 1023 true false true (some p) 3, false),
        (flitOf 1023 false false true none 0, true), (flitOf 5 true false true none 0, true), (flitOf 1023 true true false none 0, true)],
      ((x.1.crcOk = false ∨ x.1.lseq.toNat ≠ upLink.rx ∨ (x.1.abort = true ∧ x.1.tail = false)) ↔ x.2 = true)
      ∧ (linkTurn 4 4 upLink).flitTo 4 4 x.1 = some (portKey 4 4)
      ∧ (let s := linkTurn 4 0 upLink
         let u := { s with net := { s.net with wire := [(portKey 4 0, x.1)] } }
         s.flitTo 4 0 x.1 = none ∧ u.flitTo 4 0 x.1 = some (portKey 4 0) ∧ u.endUp (portKey 4 0) = true ∧ peerOf (portKey 4 0) ≠ some (portKey 4 0)))
    ∧ (let x : Link := { upLink with asm := [(4, 19000, pktOf .write .bulk 7 100)], refused := 14 }; assoc x.asm 4 = some (19000, pktOf .write .bulk 7 100) ∧ x.refused < 15
        ∧ 15 ≤ ({ x with refused := 15 } : Link).refused)
    ∧ ((pktOf .write .bulk 7 100).legal = true ∧ (pktOf .write .critical 7 100).legal = false ∧ (linkTurn 4 4 { upLink with st := .training }).endUp (portKey 4 4) = false) := by
  decide +kernel

set_option synthInstance.maxSize 1024 in
set_option synthInstance.maxHeartbeats 400000 in
/-- A port that trains, at the last moment and past it; one that is up, and one that is down; credits and an ADVERT that came. -/
theorem meets_links_states :
    (∀ since ∈ [0, 1], ∀ st ∈ [LinkSt.training, .retraining], let x := (linkTurn 2 4 { upLink with st, since }).link 2 4
        (x.st = .training ∨ x.st = .retraining) ∧ 20000 ≤ x.since + 20000 ∧ (x.since + 20000 ≤ 20000 ↔ since = 0))
    ∧ ((linkTurn 2 4 upLink).link 2 4).st = .up ∧ ((linkTurn 2 4 { upLink with st := .down }).link 2 4).st = .down
    ∧ (let c := { pktOf .credit .critical 0 0 with req := .credit [1, 2] }; let v := { pktOf .advert .critical 0 0 with req := .advert true 4 [9, 9] }
       let s := linkTurn 2 4 upLink
       let s := { s with net := { s.net with arrived := [(c.cameBy 2 4 3 19000), (v.cameBy 2 4 3 19000)] } }
       Here s (c.cameBy 2 4 3 19000) .credit ∧ Here s (v.cameBy 2 4 3 19000) .advert ∧ (s.linkAt (Arrived.fromEnd (v.cameBy 2 4 3 19000))).heard = true
        ∧ ((s.setLink 2 4 { upLink with heard := false }).linkAt (Arrived.fromEnd (v.cameBy 2 4 3 19000))).heard = false) := by
  unfold Here
  decide +kernel

/-- A packet that has arrived by die 0's Omuno port, its link up. -/
def cameBy (p : Packet) : Arrived := p.cameBy 0 4 0 19000
def arrived (p : Packet) (f : State → State) : State :=
  let s := linkTurn 0 4 upLink
  f { s with net := { s.net with arrived := [cameBy p], rxt := [⟨1, .bulk, 7, [9], []⟩] } }

/-- A request held at its home: window 1 of the package open on VIRT from 0 for 64 KiB, writable or not. -/
def heldReq (kind : PKind) (req : PReq) (off seq q0 : Nat) : State :=
  let s := virt (arrived (pktOf .flush .critical 7 0) id)
  let p : Packet := { pktOf kind .bulk seq 8 with off := BitVec.ofNat 36 (2 ^ 32 + off), req, wm := false }
  { s with regs := { s.regs with expwin := [(2, q0), (3, 16 * 2 ^ 32)] }, net := { s.net with inc := [⟨50, 0, p, [], 0, none, 0⟩] } }

/-- The request that a state holds may go on. -/
def readyInc (s : State) : Bool := s.net.inc.all (fun q => PKind.asks q.p.kind && q.pf.isNone && s.inTurn q.p && s.timely q)

/-- A packet for this die of this package: new, recorded and held, and one that has performed. -/
theorem meets_packets_arriving :
    (∀ kind ∈ [PKind.write, .read, .resp, .amo, .gadd, .mcwrite, .mcread, .granule, .chunk], ∀ x ∈ [(7, true, false), (9, true, true), (10, true, false), (7 + 4096, false, false), (6, false, false)],
      let p := { pktOf kind .bulk x.1 8 with sent := true, req := if kind = .mcwrite then .mwrite [0] [x.1] [] else if kind = .mcread then .mread [0] [x.1] 8 else .none }
      let s := arrived p id
      let t := s.rxTriple p.src.pkgNum p.cls
      Here s (cameBy p) kind ∧ s.forDie (cameBy p) ∧ s.seqHere p = x.1 ∧ ((s.seqHere p + 2 ^ 32 - t.next) % 2 ^ 32 < 4096 ↔ x.2.1 = true) ∧ (s.seqHere p ∈ t.rec' ↔ x.2.2 = true)) := by
  unfold Here State.forDie
  decide +kernel

/-- A packet for another die, one for another package whose port is up or has failed. -/
theorem meets_packets_going :
    (let p := { pktOf .read .bulk 7 0 with dst := ⟨0, 0, 5⟩ }; let s := arrived p id; Here s (cameBy p) .read ∧ ¬ s.forDie (cameBy p) ∧ s.outs 0 p = [portKey 0 1])
    ∧ (let p := { pktOf .read .bulk 7 0 with dst := ⟨0, 2, 0⟩ }; let s := arrived p id; Here s (cameBy p) .read ∧ ¬ s.forDie (cameBy p) ∧ s.outs 0 p = [portKey 0 4]
        ∧ (s.setLink 0 4 { upLink with st := .failed }).outs 0 p = [])
    ∧ (let s := reqTurn { (fReq (.st []) twoParts []) with id := 154 }; let q := { pktOf .write .bulk 7 8 with src := ⟨0, 0, 0⟩, dst := ⟨0, 2, 0⟩ }
       s.isMine q = true ∧ PKind.asks q.kind = true ∧ (s.reqByTag q.tag.toNat).map (fun x => (x.1, x.2.1)) = some (0, ⟨0, 0⟩) ∧ s.placeOf 0 0 = some ⟨0, 0⟩
        ∧ residentB s ⟨0, 0⟩ 0 = true ∧ (s.bank ⟨0, 0⟩).flt = none) := by
  unfold Here State.forDie
  decide +kernel

/-- Held packets that go on by themselves, and none that may. -/
theorem meets_packets_held :
    (∀ kind ∈ [PKind.resp, .chunk, .granule], let p := { pktOf kind .bulk 7 8 with wm := false }; let s := arrived p (fun s => { s with net := { s.net with inc := [⟨50, 0, p, [], 0, none, 0⟩] } })
      (s.net.inc.find? s.goable).map (·.id) = some 50)
    ∧ (let s := arrived (pktOf .write .bulk 7 8) id; ∀ q ∈ s.net.inc, s.goable q = false) := by
  decide +kernel

set_option synthInstance.maxSize 1024 in
set_option synthInstance.maxHeartbeats 400000 in
/-- Requests that perform, and one for each cause that the window gives; one whose page is absent; one that is not next. -/
theorem meets_packets_requests :
    (∀ x ∈ [(PKind.write, PReq.write [1, 2], 0x100, 3, 2), (.read, .read 8, 0x100, 1, 2), (.amo, .amo (.amo .add) true 1 2, 0x100, 3, 2), (.gadd, .gadd .fp64 5, 0x200, 3, 2),
        (.write, .write [1], 0x100, 1, 0), (.read, .read 8, 0xFFFC, 3, 1), (.read, .read 8, 0x100, 0, 1)], let s := heldReq x.1 x.2.1 x.2.2.1 7 x.2.2.2.1
      readyInc s = true ∧ s.net.inc.length = 1 ∧ s.net.inc.all (fun q => !PReq.ofHost q.p.req && match s.checkRequest q.p with
        | (u, .ok r) => x.2.2.2.2 == 2 && !u.movingRngs r && !u.tHolds r
        | (_, .fail c) => x.2.2.2.2 == 1 - c
        | _ => false) = true)
    ∧ (let s := heldReq .read (.read 8) 0x100 7 (0xC0000000 + 1); readyInc s = true ∧ s.net.inc.all (fun q => match s.checkRequest q.p with | (_, .page _ _) => true | _ => false) = true)
    ∧ (let s := heldReq .read (.read 8) 0x100 8 1; readyInc s = false) := by
  decide +kernel

/-- An ACK and a NACK of a store, and the markers of a release that is held and of one that is not. -/
theorem meets_packets_acks :
    (∀ x ∈ [(PKind.ack, none), (.nack, some 3)], let p := { pktOf x.1 .critical 7 0 with req := .acked .bulk x.2 }
       let r := reqTurn { (fReq (.st []) twoParts []) with id := 154 }
       let s := { r with net := { r.net with arrived := [cameBy p], txt := [⟨1, .bulk, 8, [(7, 154, 16)]⟩] } }
       Here s (cameBy p) x.1 ∧ s.forDie (cameBy p) ∧ (s.txTriple 1 .bulk).unack.find? (fun u => u.1 == p.seq.toNat) = some (7, 154, 16) ∧ (s.reqByTag 154).isSome = true)
    ∧ (let p := { pktOf .ack .critical 7 0 with dst := ⟨0, 2, 0⟩ }; Here (arrived p id) (cameBy p) .ack ∧ ¬ (arrived p id).forDie (cameBy p))
    ∧ (let p := pktOf .flush .critical 7 0; let r := { pktOf .write .bulk 7 8 with rel := true }; let s := arrived p (fun s => { s with net := { s.net with inc := [⟨50, 0, r, [], 0, none, 0⟩] } })
       let waits (q : Incoming) : Bool := q.p.src.pkgNum == p.src.pkgNum && s.seqHere q.p == p.seq.toNat && q.p.tag == p.tag && q.p.rel
       s.net.inc.any waits = true ∧ (arrived p id).net.inc.any waits = false ∧ Here s (cameBy p) .flush ∧ s.led (cameBy p) = false ∧ s.staysNear p = true
        ∧ (arrived p id).staysNear { p with dst := ⟨0, 2, 0⟩ } = false
        ∧ ({ s with net := { s.net with arrived := [cameBy r, cameBy p] } }).led (cameBy p) = true) := by
  unfold Here State.forDie
  decide +kernel

/-- Windows of 500 ns: panel in windows or not, the present one past the last handled. -/
def meshTurn (panelW : Bool) (pend : List (Bool × Bool × Nat × Nat)) (clock : Clock) : State :=
  let s := linkTurn 0 4 upLink
  { s with net := { s.net with win := { s.net.win with panelW, cur := 7, pend }, clock } }

/-- A critical packet that came by die 0's Omuno port in windows. -/
def critTurn (kind : PKind) (req : PReq) : State :=
  let s := meshTurn true [] { chosen := true, port := 0 }
  { s with net := { s.net with arrived := [cameBy { pktOf kind .critical 0 0 with req }] } }
def crit (kind : PKind) (req : PReq) : Arrived := cameBy { pktOf kind .critical 0 0 with req }

set_option synthInstance.maxSize 1024 in
set_option synthInstance.maxHeartbeats 400000 in
/-- CLOSE, DRAIN, MODE, SYNC and TOKEN that came by an Omuno port; a SYNC at another port than the clock's. -/
theorem meets_link_layer :
    (∀ x ∈ [(PKind.close, PReq.none), (.drain, .none), (.mode, .mode false true 9 500), (.mode, .mode true false 9 1000), (.sync, .sync (.announce 0 3 [1, 2])), (.token, .token 3 0 0 false)],
      let s := critTurn x.1 x.2; let a := crit x.1 x.2
      Here s a x.1 ∧ s.led a = false ∧ a.port.val = 4 ∧ s.net.clock.chosen = true ∧ a.die.val = s.net.clock.port)
    ∧ (let s := critTurn .sync .none; ¬(({ s with net := { s.net with clock := { chosen := true, port := 2 } } }).net.clock.port = (crit .sync .none).die.val))
    ∧ (let s := critTurn .close .none; let a := crit .close .none; ({ s with net := { s.net with arrived := [cameBy (pktOf .write .bulk 7 8), a] } }).led a = true)
    ∧ (let s := meshTurn true [] {}; let s := { s with net := { s.net with win := { s.net.win with owed := [(0, 6)] } } }; s.net.win.owed = [(0, 6)] ∧ s.closeReady 0 6 = true)
    ∧ (let s := meshTurn true [] {}; let s := { s with net := { s.net with routing := { draining := true, loaded := true, due := [portKey 0 4, portKey 5 4] } } }; let r := s.net.routing
       r.draining = true ∧ r.wait = [] ∧ (∀ d < 16, s.oldAt d = false) ∧ ∀ k ∈ r.due, endDie k < 16) := by
  unfold Here
  decide +kernel

set_option synthInstance.maxSize 1024 in
set_option synthInstance.maxHeartbeats 400000 in
theorem meets_windows_and_clock :
    (∀ panelW ∈ [true, false], let s := meshTurn panelW [(false, true, 7, 500), (true, true, 9, 500)] {}; let win := s.net.win
      win.cur < s.windowOf s.dtime ∧ win.panelW = panelW ∧ win.fabricW = false ∧ win.closesAt win.cur = true
        ∧ win.pend.find? (fun p => p.1 == false) = some (false, true, 7, 500) ∧ win.pend.find? (fun p => p.1 == true) = some (true, true, 9, 500) ∧ 7 ≤ win.cur ∧ win.cur < 9)
    ∧ (let s := meshTurn false [] {}; s.net.win.cur < s.windowOf s.dtime ∧ s.net.win.closesAt s.net.win.cur = false)
    ∧ (let s := meshTurn true [] {}; s.net.win.pend.find? (fun p => p.1 == true) = none ∧ s.holdsClose 5 = false)
    ∧ (∀ st ∈ [ClockSt.free, .acquire, .locked, .holdover, .lost], let ck := (meshTurn true [] { st, chosen := true, port := 2, synced := true, offset := 40, asym := 11, good := 63, once := true }).net.clock
       ck.st = st ∧ ck.once = true ∧ ck.synced = true ∧ ck.syncAt + 122071 < 200000 ∧ 50 < min 0xFFFF (ck.offset + ck.asym + (20000 - ck.syncAt) / 10 ^ 7))
    ∧ (let ck : Clock := { chosen := true, master := some (3, [1, 2]), got := some (8, 900), delay := some 30, domain := 4 }
       ck.master = some (3, [1, 2]) ∧ ck.got = some (8, 900) ∧ ck.delay = some 30) := by
  decide +kernel

/-- Channel 3 with a token on its way to a die, or held by one; die 2 has flits for die 3. -/
def ergTurn (e : Erg) (x : Link) : State :=
  let s := ((turn .S id).setLink 2 ergTx { st := .up }).setLink 3 ergRx { st := .up }
  let s := s.setLinkAt (ergKey 2 3) x
  { s with net := { s.net with erg := [(3, e)] }, dtime := 20000 }

set_option synthInstance.maxSize 1024 in
set_option synthInstance.maxHeartbeats 400000 in
/-- A token that the reader, a die with flits and one without meet; a holder with a flit to send, at its last, after an urgent request, with nothing to send; a waiter
with an urgent packet; a token lost. -/
theorem meets_erg :
    (∀ die ∈ [3, 2, 5], let s := ergTurn { at' := die, epoch := 255, seq := 65535, seen := [(2, 255, 65534)] } upLink; let e := s.ergCh 3
       e.stale die 255 65535 = false ∧ e.holder = none ∧ e.at' = die ∧ s.ergPending 3 die false = (die == 2))
    ∧ (∀ e ∈ [({ holder := some 2 } : Erg), { holder := some 2, uw := true, used := 63 }, { holder := some 2, left := some 1 }], let s := ergTurn e upLink
       let k := ergKey 2 3
       let u := s.topUp k
       (s.ergCh 3).holder = some 2 ∧ (∀ c : Fin 16, c < 3 → (s.ergCh c.val).holder ≠ some 2) ∧ s.endUp k = true ∧ (u.linkAt k).rbuf.length < 512 ∧ (u.linkAt k).replay = []
        ∧ (u.choice k (!e.uw)).isSome = true)
    ∧ (let s := ergTurn { holder := some 2 } { upLink with cred := [] }; let k := ergKey 2 3; let u := s.topUp k
       s.endUp k = true ∧ (u.linkAt k).replay = [] ∧ u.choice k true = none)
    ∧ (let s := ergTurn { holder := some 2 } { upLink with replay := [(3, ⟨pktOf .write .bulk 7 100, 0, 1, 1⟩)] }; ((s.topUp (ergKey 2 3)).linkAt (ergKey 2 3)).replay ≠ [])
    ∧ (let s := ergTurn { holder := some 2 } upLink; (s.setLink 3 ergRx { st := .retraining }).endUp (ergKey 2 3) = false)
    ∧ (let s := ergTurn { holder := some 5 } upLink; let e := s.ergCh 3; e.holder = some 5 ∧ (s.pick (ergKey 2 3) 1).isSome = true)
    ∧ (let s := ergTurn {} upLink; s.regs.ready = .ready ∧ (s.ergCh 3).emitted + 2000 ≤ s.dtime) := by
  decide +kernel

/-! ## Whole machine -/

/-- DecodeEncode: a well-formed instruction of three words, and a word that is no extension word after it. -/
theorem meets_decode_encode : (Instr.li (headDep 0) 2 5 0xF8000000000007FF).wf = true ∧ (∀ w, [0x00640000].head? = some w → fld w 29 3 ≠ 6) := by
  simp [fld]; decide +kernel

/-- StepKeepsMemory: memory with bytes listed, and a step. -/
theorem meets_step_keeps_memory : Memory.wf ((atWord 0x00041083 id).writePa 8 [1, 2]).mem = true ∧ ((atWord 0x00041083 id).writePa 8 [1, 2]).mem ≠ []
    ∧ after ((atWord 0x00041083 id).writePa 8 [1, 2]) (fun _ => true) = some true := by decide +kernel

/-- What StepRunsDecoded starts from for an engine's turn, and a property of the bank. -/
abbrev Turned (s : State) (e : Engine) (p : Bank → Prop) : Prop :=
  s.agenda = [.engine 0 e true] ∧ (s.core 0).run = some 0 ∧ (s.bank ⟨0, 0⟩).live = true ∧ (e = .A → (s.bank ⟨0, 0⟩).acc.park = none) ∧ p (s.bank ⟨0, 0⟩)

/-- The decode of the word at an engine's index. -/
def readAt (k : Bank) (e : Engine) : Except DErr (Instr × List Nat) := decode (k.word (k.eng e).pc :: k.after (k.eng e).pc)

/-- The word at an engine's index is `i`, its target and its resources are as said. -/
abbrev Fetched (k : Bank) (e : Engine) (i : Instr) (target needs : Bool) : Prop :=
  (k.eng e).pc < k.hdr.textlen ∧ RunsWord e (k.word (k.eng e).pc) ∧ (readAt k e).map Prod.fst = .ok i ∧ k.targetOk (k.eng e).pc i = target
    ∧ (Instr.needs i).all (Need.ok k) = needs

/-- StepRunsDecoded: words past the text, words of tag 7, an extension word at index 0. -/
theorem meets_step_illegal : Turned (atWord 0 (allAt 65536 0)) .S (fun k => k.hdr.textlen ≤ (k.eng .S).pc)
    ∧ Turned (atWord 0xE0000000 id) .S (fun k => tagOf (k.word (k.eng .S).pc) = 7)
    ∧ Turned (atWord 0xC0000000 id) .S (fun k => tagOf (k.word (k.eng .S).pc) = 6 ∧ (k.eng .S).pc = 0) := by decide +kernel

/-- StepRunsDecoded: an ADD runs, one that is at the slip bound waits. -/
theorem meets_step_runs : Turned (atWord 0x00041083 id) .S (fun k => Fetched k .S (.add hd0 1 2 3) true true ∧ (k.eng .S).walk - k.wmin < k.seq.slipw)
    ∧ Turned (atWord 0x00041083 fun k => k.setEng .S { k.engs.S with walk := 65536 }) .S
      (fun k => Fetched k .S (.add hd0 1 2 3) true true ∧ ¬ (k.eng .S).walk - k.wmin < k.seq.slipw) := by decide +kernel

/-- StepRunsDecoded: a flow word on A, and a word of F that A forms. -/
theorem meets_step_other : Turned { atWord 0x005C0003 id with agenda := [.engine 0 .A true] } .A (fun k => Fetched k .A (.iter hd0 3) true true) := by decide +kernel

/-- StepRunsDecoded: a branch out of the text, an undeclared register, a reserved bit, an unassigned opcode. -/
theorem meets_step_refused : Turned (atWord 0x0033FFFE id) .S (fun k => Fetched k .S (.br hd0 0x3FFFE) false true)
    ∧ Turned (atWord 0x00041083 fun k => { k with hdr := { k.hdr with regs := [2, 0, 0, 0, 0, 0, 0, 0] } }) .S (fun k => Fetched k .S (.add hd0 1 2 3) true false)
    ∧ Turned (atWord 1 id) .S (fun k => RunsWord .S (k.word 0) ∧ (readAt k .S).map Prod.fst = .error .reserved)
    ∧ Turned (atWord 0x00700000 id) .S (fun k => RunsWord .S (k.word 0) ∧ (readAt k .S).map Prod.fst = .error .illegal) := by decide +kernel

/-- StepRunsDecoded: an extension word after the first, and a word of another engine; bring-up that has failed. -/
theorem meets_step_passed : Turned (atWord 0xC0000000 fun k => textAt 4 0xC0000000 (allAt 4 0 k)) .S
      (fun k => 4 < k.hdr.textlen ∧ tagOf (k.word (k.eng .S).pc) = 6 ∧ 0 < (k.eng .S).pc)
    ∧ Turned { atWord 0xA0000000 id with agenda := [.engine 0 .S true] } .S (fun k => ¬ RunsWord .S (k.word 0) ∧ tagOf (k.word 0) ≠ 7 ∧ tagOf (k.word 0) ≠ 6)
    ∧ (let s := { State.reset with regs := { State.reset.regs with ready := .fail } }; s.agenda = [] ∧ s.regs.ready = .fail) := by
  decide +kernel

/-- StepRunsDecoded: a turn of time, of a link, of T, and of what the links brought. -/
theorem meets_step_turns : ∀ t ∈ [Turn.event .plumbCapture, .elapse 1 1, .port 0 4, .transform ⟨0, 0⟩, .net (.mode true), .net (.trained 0 4), .net (.token 3)],
    after { turn .S id with agenda := [t] } (fun _ => true) = some true := by
  decide +kernel

end Sys2Proof.Tests
end

