-- ==== Sys2Proof/Proofs/Fields.lean ====
section
/-!
SUPPORT. Fields of assembled words. A word's operand bits are a sum of shifted fields; in Horner form every field of it is found by going down
from its lowest one, and each step asks for the width of one field only. Codes of enumerated operands, and the layouts that many words share.
-/

namespace Sys2Proof.Encoding

/-- A number of at most `n` bits. Kept folded, so that the width stays a numeral that `simp` can compare. -/
def Bits (n o : Nat) : Prop := o < 2 ^ n

namespace Bits

theorem mono {n k o : Nat} (h : o < 2 ^ k) (hk : k ≤ n) : Bits n o := h.trans_le (Nat.pow_le_pow_right (by decide) hk)

@[simp] theorem zero (n : Nat) : Bits n 0 := Nat.two_pow_pos n

@[simp] theorem one {n : Nat} (h : 1 ≤ n) : Bits n 1 := mono (k := 1) (by decide) h

@[simp] theorem two {n : Nat} (h : 2 ≤ n) : Bits n 2 := mono (k := 2) (by decide) h
@[simp] theorem three {n : Nat} (h : 2 ≤ n) : Bits n 3 := mono (k := 2) (by decide) h
@[simp] theorem four {n : Nat} (h : 3 ≤ n) : Bits n 4 := mono (k := 3) (by decide) h
@[simp] theorem five {n : Nat} (h : 3 ≤ n) : Bits n 5 := mono (k := 3) (by decide) h
@[simp] theorem six {n : Nat} (h : 3 ≤ n) : Bits n 6 := mono (k := 3) (by decide) h

@[simp] theorem toNat {n w : Nat} (x : BitVec w) (h : w ≤ n) : Bits n x.toNat := mono x.isLt h

@[simp] theorem fld_le {n k o lo : Nat} (h : k ≤ n) : Bits n (fld o lo k) := mono (Nat.mod_lt _ (Nat.two_pow_pos k)) h

@[simp] theorem fin4 {n : Nat} (x : Fin 4) (h : 2 ≤ n) : Bits n x.val := mono x.isLt h
@[simp] theorem fin7 {n : Nat} (x : Fin 7) (h : 3 ≤ n) : Bits n x.val := mono (x.isLt.trans (by decide)) h
@[simp] theorem fin8 {n : Nat} (x : Fin 8) (h : 3 ≤ n) : Bits n x.val := mono x.isLt h
@[simp] theorem fin12 {n : Nat} (x : Fin 12) (h : 4 ≤ n) : Bits n x.val := mono (x.isLt.trans (by decide)) h
@[simp] theorem fin16 {n : Nat} (x : Fin 16) (h : 4 ≤ n) : Bits n x.val := mono x.isLt h
@[simp] theorem fin32 {n : Nat} (x : Fin 32) (h : 5 ≤ n) : Bits n x.val := mono x.isLt h
@[simp] theorem fin64 {n : Nat} (x : Fin 64) (h : 6 ≤ n) : Bits n x.val := mono x.isLt h
@[simp] theorem fin1024 {n : Nat} (x : Fin 1024) (h : 10 ≤ n) : Bits n x.val := mono x.isLt h

end Bits

/-- Operand bits or a payload of at most `n` bits, built up field by field. Apart from `Bits`, so that `simp` asks for the width of single fields only. -/
def Within (n o : Nat) : Prop := o < 2 ^ n

namespace Within

@[simp] theorem of_bits {n o : Nat} (h : Bits n o) : Within n o := h

/-- A number above a field of `k` bits. -/
@[simp] theorem shift_add {n k a o : Nat} (hk : k ≤ n) (ho : Bits k o) : Within n (a * 2 ^ k + o) ↔ Within (n - k) a := by
  obtain ⟨c, rfl⟩ := Nat.exists_eq_add_of_le hk
  rw [Nat.add_sub_cancel_left]
  unfold Within Bits at *
  rw [Nat.pow_add, Nat.mul_comm (2 ^ k), ← Nat.div_lt_iff_lt_mul (Nat.two_pow_pos k), Nat.mul_comm, Nat.mul_add_div (Nat.two_pow_pos k),
    Nat.div_eq_of_lt ho, Nat.add_zero]

@[simp] theorem shift {n k a : Nat} (hk : k ≤ n) : Within n (a * 2 ^ k) ↔ Within (n - k) a := by
  simpa only [Nat.add_zero] using shift_add (a := a) hk (Bits.zero k)

@[simp] theorem double_add {n a o : Nat} (hn : 1 ≤ n) (ho : Bits 1 o) : Within n (a * 2 + o) ↔ Within (n - 1) a := shift_add (k := 1) hn ho

@[simp] theorem double {n a : Nat} (hn : 1 ≤ n) : Within n (a * 2) ↔ Within (n - 1) a := shift (k := 1) hn

@[simp] theorem pow_add {n k o : Nat} (hk : k < n) (ho : Bits k o) : Within n (2 ^ k + o) := by
  simpa only [Nat.one_mul] using (shift_add (a := 1) hk.le ho).2 (Nat.one_lt_two_pow (by omega))

@[simp] theorem pow {n k : Nat} (hk : k < n) : Within n (2 ^ k) := Nat.pow_lt_pow_right (by decide) hk

end Within

theorem Bits.join {n k a o : Nat} (hk : k ≤ n) (ha : Bits (n - k) a) (ho : Bits k o) : Bits n (a * 2 ^ k + o) := (Within.shift_add hk ho).2 ha

theorem Bits.join_double {n a o : Nat} (hk : 1 ≤ n) (ha : Bits (n - 1) a) (ho : Bits 1 o) : Bits n (a * 2 + o) := Bits.join hk ha ho

/-- Nothing stands above the bits of a number. -/
@[simp] theorem fld_above {o lo n : Nat} (h : Bits lo o) : fld o lo n = 0 := by
  unfold fld; rw [Nat.div_eq_of_lt h, Nat.zero_mod]

@[simp] theorem fld_whole {o n : Nat} (h : Bits n o) : fld o 0 n = o := fld_all o n h

/-! ### Fields of a word in Horner form: `(a * 2 ^ j + b) * 2 ^ k + c` -/

/-- A field inside the lowest one. -/
@[simp] theorem fld_shift_add_low {a k o lo n : Nat} (h : lo + n ≤ k) : fld (a * 2 ^ k + o) lo n = fld o lo n := fld_low a o lo n k h

/-- A field above the lowest one. -/
@[simp] theorem fld_shift_add_high {a k o lo n : Nat} (h : k ≤ lo) (ho : Bits k o) : fld (a * 2 ^ k + o) lo n = fld a (lo - k) n := by
  obtain ⟨c, rfl⟩ := Nat.exists_eq_add_of_le h
  unfold fld
  rw [Nat.add_sub_cancel_left, Nat.pow_add, ← Nat.div_div_eq_div_mul, Nat.mul_comm, Nat.mul_add_div (Nat.two_pow_pos k), Nat.div_eq_of_lt ho, Nat.add_zero]

@[simp] theorem fld_shift_low {a k lo n : Nat} (h : lo + n ≤ k) : fld (a * 2 ^ k) lo n = 0 := by
  simpa only [Nat.add_zero, fld_zero] using fld_low a 0 lo n k h

@[simp] theorem fld_shift_high {a k lo n : Nat} (h : k ≤ lo) : fld (a * 2 ^ k) lo n = fld a (lo - k) n := by
  simpa only [Nat.add_zero] using fld_shift_add_high (a := a) h (Bits.zero k)

@[simp] theorem fld_double_add_low {a o : Nat} (ho : Bits 1 o) : fld (a * 2 + o) 0 1 = o :=
  (fld_shift_add_low (k := 1) (by decide)).trans (fld_all _ _ ho)

@[simp] theorem fld_double_add_high {a o lo n : Nat} (h : 1 ≤ lo) (ho : Bits 1 o) : fld (a * 2 + o) lo n = fld a (lo - 1) n :=
  fld_shift_add_high (k := 1) h ho

@[simp] theorem fld_double_low {a : Nat} : fld (a * 2) 0 1 = 0 := fld_shift_low (k := 1) (by decide)

@[simp] theorem fld_double_high {a lo n : Nat} (h : 1 ≤ lo) : fld (a * 2) lo n = fld a (lo - 1) n := fld_shift_high (k := 1) h

@[simp] theorem fld_pow_add_low {k o lo n : Nat} (h : lo + n ≤ k) : fld (2 ^ k + o) lo n = fld o lo n := by
  simpa only [Nat.one_mul] using fld_low 1 o lo n k h

@[simp] theorem fld_pow_add_high {o k lo n : Nat} (h : k ≤ lo) (ho : Bits k o) : fld (2 ^ k + o) lo n = fld 1 (lo - k) n := by
  simpa only [Nat.one_mul] using fld_shift_add_high (a := 1) h ho

@[simp] theorem fld_pow_low {k lo n : Nat} (h : lo + n ≤ k) : fld (2 ^ k) lo n = 0 := by
  simpa only [Nat.one_mul] using fld_shift_low (a := 1) h

@[simp] theorem fld_pow_high {k lo n : Nat} (h : k ≤ lo) : fld (2 ^ k) lo n = fld 1 (lo - k) n := by
  simpa only [Nat.one_mul] using fld_shift_high (a := 1) h

/-- A field over the border of two. -/
@[simp] theorem fld_shift_add_across {a k o lo n : Nat} (hl : lo < k) (hn : k < lo + n) (ho : Bits k o) :
    fld (a * 2 ^ k + o) lo n = fld a 0 (lo + n - k) * 2 ^ (k - lo) + fld o lo (k - lo) := by
  obtain ⟨c, rfl⟩ := Nat.exists_eq_add_of_lt hl
  obtain ⟨d, hd⟩ := Nat.exists_eq_add_of_lt hn
  obtain rfl : n = c + 1 + (d + 1) := by omega
  have ho' : o / 2 ^ lo < 2 ^ (c + 1) := by
    rw [Nat.div_lt_iff_lt_mul (Nat.two_pow_pos lo), ← Nat.pow_add, Nat.add_comm]; exact ho
  have hdiv : (a * 2 ^ (lo + c + 1) + o) / 2 ^ lo = 2 ^ (c + 1) * a + o / 2 ^ lo := by
    rw [show a * 2 ^ (lo + c + 1) + o = 2 ^ lo * (2 ^ (c + 1) * a) + o by rw [Nat.add_assoc, Nat.pow_add]; ring, Nat.mul_add_div (Nat.two_pow_pos lo)]
  rw [show lo + (c + 1 + (d + 1)) - (lo + c + 1) = d + 1 by omega, show lo + c + 1 - lo = c + 1 by omega]
  unfold fld
  rw [hdiv, Nat.pow_add 2 (c + 1), Nat.mod_mul, Nat.mul_add_mod, Nat.mod_eq_of_lt ho', Nat.mul_add_div (Nat.two_pow_pos _), Nat.div_eq_of_lt ho']
  simp only [Nat.add_zero, Nat.pow_zero, Nat.div_one, Nat.mul_comm, Nat.add_comm]

@[simp] theorem fld_shift_across {a k lo n : Nat} (hl : lo < k) (hn : k < lo + n) :
    fld (a * 2 ^ k) lo n = fld a 0 (lo + n - k) * 2 ^ (k - lo) := by
  simpa only [Nat.add_zero, fld_zero] using fld_shift_add_across hl hn (Bits.zero k)

/-- Low fields put together again. -/
theorem fld_add_fld (v a b : Nat) : fld v 0 a + 2 ^ a * fld v a b = fld v 0 (a + b) := by
  simp only [fld, Nat.pow_zero, Nat.div_one, Nat.pow_add, Nat.mod_mul]

/-- Sums of shifted fields in Horner form. -/
theorem shift_add_shift {a b j k : Nat} (h : k ≤ j) : a * 2 ^ j + b * 2 ^ k = (a * 2 ^ (j - k) + b) * 2 ^ k := by
  rw [Nat.add_mul, Nat.mul_assoc, ← Nat.pow_add, Nat.sub_add_cancel h]

theorem shift_add_pow {a j k : Nat} (h : k ≤ j) : a * 2 ^ j + 2 ^ k = (a * 2 ^ (j - k) + 1) * 2 ^ k := by
  simpa only [Nat.one_mul] using shift_add_shift (a := a) (b := 1) h

theorem pow_add_shift {b j k : Nat} (h : k ≤ j) : 2 ^ j + b * 2 ^ k = (2 ^ (j - k) + b) * 2 ^ k := by
  simpa only [Nat.one_mul] using shift_add_shift (a := 1) (b := b) h

theorem shift_add_double {a b j : Nat} (h : 1 ≤ j) : a * 2 ^ j + b * 2 = (a * 2 ^ (j - 1) + b) * 2 := shift_add_shift (k := 1) h

theorem shift_add_shift_add {a b c j k : Nat} (h : k ≤ j) : a * 2 ^ j + (b * 2 ^ k + c) = (a * 2 ^ (j - k) + b) * 2 ^ k + c := by
  rw [← Nat.add_assoc, shift_add_shift h]

theorem shift_add_pow_add {a c j k : Nat} (h : k ≤ j) : a * 2 ^ j + (2 ^ k + c) = (a * 2 ^ (j - k) + 1) * 2 ^ k + c := by
  rw [← Nat.add_assoc, shift_add_pow h]

theorem shift_add_double_add {a b c j : Nat} (h : 1 ≤ j) : a * 2 ^ j + (b * 2 + c) = (a * 2 ^ (j - 1) + b) * 2 + c := shift_add_shift_add (k := 1) h

/-! ## Codes of enumerated operands -/

@[simp] theorem bits_aspCode {n : Nat} (c : Asp) (h : 2 ≤ n) : Bits n (aspCode c) := .mono (by cases c <;> decide) h
@[simp] theorem bits_scopeCode {n : Nat} (c : Scope) (h : 4 ≤ n) : Bits n (scopeCode c) := .mono (by cases c <;> decide) h
@[simp] theorem bits_rmCode {n : Nat} (c : RMode) (h : 3 ≤ n) : Bits n (rmCode c) := .mono (by cases c <;> decide) h
@[simp] theorem bits_condCode {n : Nat} (c : Cond) (h : 3 ≤ n) : Bits n (condCode c) := .mono (by cases c <;> decide) h
@[simp] theorem bits_levelCode {n : Nat} (c : Level) (h : 3 ≤ n) : Bits n (levelCode c) := .mono (by cases c <;> decide) h
@[simp] theorem bits_vtyCode {n : Nat} (c : VTy) (h : 3 ≤ n) : Bits n (vtyCode c) := .mono (by cases c <;> decide) h
@[simp] theorem bits_ctyCode {n : Nat} (c : CTy) (h : 4 ≤ n) : Bits n (ctyCode c) := .mono (by cases c <;> decide) h
@[simp] theorem bits_vcondCode {n : Nat} (c : VCond) (h : 3 ≤ n) : Bits n (vcondCode c) := .mono (by cases c <;> decide) h
@[simp] theorem bits_amoCode {n : Nat} (c : AmoOp) (h : 4 ≤ n) : Bits n (amoCode c) := .mono (by cases c <;> decide) h
@[simp] theorem bits_ordCode {n : Nat} (c : Ord) (h : 2 ≤ n) : Bits n (ordCode c) := .mono (by cases c <;> decide) h
@[simp] theorem bits_gfmtCode {n : Nat} (c : GFmt) (h : 2 ≤ n) : Bits n (gfmtCode c) := .mono (by cases c <;> decide) h
@[simp] theorem bits_tfmtCode {n : Nat} (c : TFmt) (h : 4 ≤ n) : Bits n (tfmtCode c) := .mono (by cases c <;> decide) h
@[simp] theorem bits_acctyCode {n : Nat} (c : AccTy) (h : 3 ≤ n) : Bits n (acctyCode c) := .mono (by cases c <;> decide) h
@[simp] theorem bits_ringEndCode {n : Nat} (c : RingEnd) (h : 2 ≤ n) : Bits n (ringEndCode c) := .mono (by cases c <;> decide) h
@[simp] theorem bits_fclsCode {n : Nat} (c : FCls) (h : 1 ≤ n) : Bits n (fclsCode c) := .mono (by cases c <;> decide) h
@[simp] theorem bits_redCode {n : Nat} (c : Red) (h : 2 ≤ n) : Bits n (redCode c) := .mono (by cases c <;> decide) h
@[simp] theorem bits_subLevelCode {n : Nat} (c : SubLevel) (h : 3 ≤ n) : Bits n (subLevelCode c) := .mono (by cases c <;> decide) h
@[simp] theorem bits_ovCode {n : Nat} (c : Ov) (h : 1 ≤ n) : Bits n (ovCode c) := .mono (by cases c <;> decide) h

@[simp] theorem aspOf_aspCode (c : Asp) : aspOf (aspCode c) = c := by cases c <;> rfl
@[simp] theorem scopeOf_scopeCode (c : Scope) : scopeOf (scopeCode c) = some c := by cases c <;> rfl
@[simp] theorem rmOf_rmCode (c : RMode) : rmOf (rmCode c) = some c := by cases c <;> rfl
@[simp] theorem condOf_condCode (c : Cond) : condOf (condCode c) = some c := by cases c <;> rfl
@[simp] theorem levelOf_levelCode (c : Level) : levelOf (levelCode c) = some c := by cases c <;> rfl
@[simp] theorem vtyOf_vtyCode (c : VTy) : vtyOf (vtyCode c) = some c := by cases c <;> rfl
@[simp] theorem ctyOf_ctyCode (c : CTy) : ctyOf (ctyCode c) = some c := by cases c <;> rfl
@[simp] theorem vcondOf_vcondCode (c : VCond) : vcondOf (vcondCode c) = some c := by cases c <;> rfl
@[simp] theorem amoOf_amoCode (c : AmoOp) : amoOf (amoCode c) = some c := by cases c <;> rfl
@[simp] theorem ordOf_ordCode (c : Ord) : ordOf (ordCode c) = c := by cases c <;> rfl
@[simp] theorem gfmtOf_gfmtCode (c : GFmt) : gfmtOf (gfmtCode c) = some c := by cases c <;> rfl
@[simp] theorem tfmtOf_tfmtCode (c : TFmt) : tfmtOf (tfmtCode c) = some c := by cases c <;> rfl
@[simp] theorem acctyOf_acctyCode (c : AccTy) : acctyOf (acctyCode c) = some c := by cases c <;> rfl
@[simp] theorem ringEndOf_ringEndCode (c : RingEnd) : ringEndOf (ringEndCode c) = some c := by cases c <;> rfl
@[simp] theorem fclsOf_fclsCode (c : FCls) : fclsOf (fclsCode c) = some c := by cases c <;> rfl
@[simp] theorem redOf_redCode (c : Red) : redOf (redCode c) = some c := by cases c <;> rfl
@[simp] theorem subLevelOf_subLevelCode (c : SubLevel) : subLevelOf (subLevelCode c) = some c := by cases c <;> rfl
@[simp] theorem ovOf_ovCode (c : Ov) : ovOf (ovCode c) = c := by cases c <;> rfl

@[simp] theorem bits_bit {n : Nat} (b : Bool) (h : 1 ≤ n) : Bits n (bit b) := .mono (by cases b <;> decide) h
@[simp] theorem bits_w8Code {n : Nat} (b : Bool) (h : 2 ≤ n) : Bits n (w8Code b) := .mono (by cases b <;> decide) h
@[simp] theorem bits_famoCode {n : Nat} (c : FAmoOp) (h : 4 ≤ n) : Bits n (famoCode c) :=
  .mono (by rcases c with c | _ <;> [cases c <;> decide; decide]) h
@[simp] theorem bits_aregCode {n : Nat} (r : AReg) (h : 6 ≤ n) : Bits n (aregCode r) := .mono (by cases r <;> simp only [aregCode] <;> omega) h
@[simp] theorem bits_asrcCode {n : Nat} (r : ASrc) (h : 6 ≤ n) : Bits n (asrcCode r) := by
  cases r with
  | reg r => exact bits_aregCode r h
  | da => exact .mono (by decide) h
@[simp] theorem bits_vdstCode {n : Nat} (r : VDst) (h : 6 ≤ n) : Bits n (vdstCode r) := .mono (by cases r <;> simp only [vdstCode] <;> omega) h
@[simp] theorem bits_vsrcCode {n : Nat} (r : VSrc) (h : 6 ≤ n) : Bits n (vsrcCode r) := .mono (by cases r <;> simp only [vsrcCode] <;> omega) h

@[simp] theorem flag_bit (b : Bool) : flag (bit b) = b := by cases b <;> rfl
@[simp] theorem flag_zero : flag 0 = false := rfl
@[simp] theorem bit_false : bit false = 0 := rfl
@[simp] theorem bit_true : bit true = 1 := rfl
@[simp] theorem bits_bit_double {n : Nat} (b : Bool) (h : 2 ≤ n) : Bits n (bit b * 2) := .mono (by cases b <;> decide) h
@[simp] theorem w8Of_w8Code (b : Bool) : w8Of (w8Code b) = some b := by cases b <;> rfl
@[simp] theorem famoOf_famoCode (c : FAmoOp) : famoOf (famoCode c) = some c := by
  rcases c with c | _ <;> [cases c <;> rfl; rfl]
@[simp] theorem a32Of_val (x : Fin 32) : a32Of x.val = some x := by simp [a32Of]
@[simp] theorem reg8Of_val (x : Fin 8) : reg8Of x.val = some x := by simp [reg8Of]
@[simp] theorem cbOf_val (x : Fin 4) : cbOf x.val = some x := by simp [cbOf]
@[simp] theorem aregOf_aregCode (r : AReg) : aregOf (aregCode r) = some r := by
  rcases r with x | x
  · simp [aregOf, aregCode]
  · have := x.isLt
    simp [aregOf, aregCode]; omega
@[simp] theorem asrcOf_asrcCode (r : ASrc) : asrcOf (asrcCode r) = some r := by
  rcases r with r | _
  · have : aregCode r ≠ 40 := by cases r <;> simp only [aregCode] <;> omega
    simp [asrcOf, asrcCode, this]
  · rfl
@[simp] theorem vdstOf_vdstCode (r : VDst) : vdstOf (vdstCode r) = some r := by
  rcases r with x | x
  · simp [vdstOf, vdstCode]
  · have := x.isLt
    simp [vdstOf, vdstCode]; omega
@[simp] theorem vsrcOf_vsrcCode (r : VSrc) : vsrcOf (vsrcCode r) = some r := by
  rcases r with x | x | _
  · simp [vsrcOf, vsrcCode]
  · have := x.isLt
    simp [vsrcOf, vsrcCode]; omega
  · rfl

@[simp] theorem rsv_zero {α : Type} (k : Except DErr α) : rsv 0 k = k := rfl
@[simp] theorem ill_some {α : Type} (a : α) : ill (some a) = .ok a := rfl
@[simp] theorem ok_bind {α β : Type} (a : α) (f : α → Except DErr β) : (Except.ok a >>= f) = f a := rfl
@[simp] theorem pure_eq_ok {α : Type} (a : α) : (pure a : Except DErr α) = .ok a := rfl

/-! ## Layouts in Horner form -/

@[simp] theorem rrr_eq (d a b : Nat) : rrr d a b = (d * 2 ^ 6 + a) * 2 ^ 6 + b := by rw [rrr, shift_add_shift (by decide)]

@[simp] theorem vpay_eq (k : Fin 8) (zm : Bool) (ty : Nat) (z : Bool) (rm c sub : Nat) :
    vpay k zm ty z rm c sub = (((((k.val * 2 + bit zm) * 2 ^ 3 + ty) * 2 + bit z) * 2 ^ 3 + rm) * 2 ^ 6 + c) * 2 ^ 8 + sub := by
  simp only [vpay, shift_add_shift, Nat.reduceLeDiff, Nat.reduceSub, Nat.pow_one]

@[simp] theorem ri_eq (d : Nat) (xc : Fin 4) (imm : BitVec 64) : ri d xc imm = (d * 2 ^ 2 + xc.val) * 2 ^ 10 + fld imm.toNat 0 10 := by
  rw [ri, shift_add_shift (by decide)]

@[simp] theorem tdBits_eq (td g ch mod : Nat) : tdBits td g ch mod = ((td * 2 ^ 4 + g) * 2 ^ 3 + ch) * 2 ^ 5 + mod := by
  rw [tdBits, shift_add_shift (by decide), shift_add_shift (by decide)]

@[simp] theorem origins_eq (oa ob : Fin 32) : origins oa ob = (oa.val * 2 ^ 5 + ob.val) * 2 ^ 15 := by
  rw [origins, shift_add_shift (by decide)]

end Sys2Proof.Encoding
end

