-- ==== Sys2Proof/Proofs/Words.lean ====
section
/-!
SUPPORT. What there is to show of an instruction so that its words decode to it: the bits of its operands and payloads, and that its operand decoder
reads them back. One lemma for each shape that the extension words take (02 R48).
-/

namespace Sys2Proof.Encoding

def RoundTrips (i : Instr) : Prop := ∀ rest : List Nat, i.wf = true → (∀ w, rest.head? = some w → fld w 29 3 ≠ 6) →
  decode (encode i ++ rest) = .ok (i, rest) ∧ (encode i).length = 1 + (Instr.hd i).ext ∧ ∀ w ∈ encode i, w < 2 ^ 32

section
variable {i : Instr} {e : Engine} {m : Dep} {op o : Nat}

theorem engine_tag_lt (e : Engine) : e.tag < 6 := by cases e <;> decide

/-- The words of a head and payloads, each in its bits. -/
theorem assemble_words_lt {tag : Nat} {ps : List Nat} (ht : tag < 8) (hop : op < 2 ^ 7) (ho : Within 18 o) (hps : ∀ p ∈ ps, Within 25 p) :
    ∀ w ∈ assemble tag op m o ps, w < 2 ^ 32 := by
  intro w hw
  rw [assemble_eq, List.mem_cons, List.mem_map] at hw
  rcases hw with rfl | ⟨⟨p, d⟩, hp, rfl⟩
  · exact headWord_lt _ _ _ _ ht hop ho
  · exact extWord_lt _ _ (hps p (List.of_mem_zip hp).1)

/-- A head word whose operand bits are `o`: the operand decoders see nothing else of it. -/
structure OperandBits (h o : Nat) : Prop where
  fld_eq {lo n : Nat} : lo + n ≤ 18 → fld h lo n = fld o lo n

theorem operandBits_headWord (tag op o : Nat) (d : BitVec 4) : OperandBits (headWord tag op d o) o := ⟨fld_headWord tag op o _ _ d⟩

/-- What there is to show of a word with operand bits `o` and payloads `ps`: its decoder reads it back. -/
def Reads (i : Instr) (e : Engine) (m : Dep) (op o : Nat) (ps : List Nat) : Prop :=
  Within 18 o ∧ (∀ p ∈ ps, Within 25 p) 
    ∧ ∀ h, OperandBits h o → extCount e.tag op h = some ps.length ∧ decodeOperands e.tag op h (ps.getD 0 0) (ps.getD 1 0) (ps.getD 2 0) m = .ok i

theorem decode_of_reads {ps : List Nat} (hw : i.wf = true) (hh : i.head = some ⟨e, m, ps.length⟩) (h3 : ps.length ≤ 3) (hop : op < 2 ^ 7)
    (h : Reads i e m op o ps) {rest : List Nat} (hr : ∀ w, rest.head? = some w → fld w 29 3 ≠ 6) :
    decode (assemble e.tag op m o ps ++ rest) = .ok (i, rest) := by
  obtain ⟨ho, hps, h⟩ := h
  obtain ⟨hext, hread⟩ := h _ (operandBits_headWord e.tag op o m.h)
  have ht := engine_tag_lt e
  rw [← decoded_ok i rest hw, ← hread]
  match ps, h3 with
  | [], _ =>
    obtain ⟨h1, h2, h3⟩ := wf_dep0 hw hh
    exact decode_assemble0 _ _ _ _ _ ht hop ho hext h1 h2 h3 hr
  | [p], _ =>
    obtain ⟨h2, h3⟩ := wf_dep1 hw hh
    exact decode_assemble1 _ _ _ _ _ _ ht hop ho (hps p (by simp)) hext h2 h3 hr
  | [p, q], _ => exact decode_assemble2 _ _ _ _ _ _ _ ht hop ho (hps p (by simp)) (hps q (by simp)) hext (wf_dep2 hw hh) hr
  | [p, q, r], _ => exact decode_assemble3 _ _ _ _ _ _ _ _ ht hop ho (hps p (by simp)) (hps q (by simp)) (hps r (by simp)) hext hr

theorem roundTrips_of_reads {ps : List Nat} (hh : i.head = some ⟨e, m, ps.length⟩) (henc : encode i = assemble e.tag op m o ps)
    (h3 : ps.length ≤ 3) (hop : op < 2 ^ 7) (h : i.operandsOk = true → Reads i e m op o ps) : RoundTrips i := by
  intro rest hw hr
  have hread := h (wf_parts hw hh).2
  rw [henc]
  exact ⟨decode_of_reads hw hh h3 hop hread hr, by rw [Laws.assemble_length _ _ _ _ _ _ rfl h3, Instr.hd, hh]; rfl,
    assemble_words_lt ((engine_tag_lt e).trans (by decide)) hop hread.1 hread.2.1⟩

/-- An event has no words. -/
theorem roundTrips_of_event (h : i.head = none) : RoundTrips i := by
  intro rest hw
  simp [Instr.wf, h] at hw

end

@[simp] theorem decodeOperands_S (op h p1 p2 p3 : Nat) (m : Dep) : decodeOperands Engine.S.tag op h p1 p2 p3 m = decodeS op h p1 p2 p3 m := (rfl)
@[simp] theorem decodeOperands_A (op h p1 p2 p3 : Nat) (m : Dep) : decodeOperands Engine.A.tag op h p1 p2 p3 m = decodeA op h p1 p2 p3 m := (rfl)
@[simp] theorem decodeOperands_M (op h p1 p2 p3 : Nat) (m : Dep) : decodeOperands Engine.M.tag op h p1 p2 p3 m = decodeM op h p1 m := (rfl)
@[simp] theorem decodeOperands_V (op h p1 p2 p3 : Nat) (m : Dep) : decodeOperands Engine.V.tag op h p1 p2 p3 m = decodeV op h p1 p2 p3 m := (rfl)
@[simp] theorem decodeOperands_T (op h p1 p2 p3 : Nat) (m : Dep) : decodeOperands Engine.T.tag op h p1 p2 p3 m = decodeT op h p1 m := (rfl)
@[simp] theorem decodeOperands_F (op h p1 p2 p3 : Nat) (m : Dep) : decodeOperands Engine.F.tag op h p1 p2 p3 m = decodeF op h p1 p2 p3 m := (rfl)

section
variable {i : Instr} {e : Engine} {m : Dep} {op o p q r : Nat}

/-- A word without extension words. -/
theorem roundTrips_word (hh : i.head = some ⟨e, m, 0⟩) (henc : encode i = assemble e.tag op m o [])
    (hread : i.operandsOk = true → ∀ h, OperandBits h o → decodeOperands e.tag op h 0 0 0 m = .ok i)
    (ho : Within 18 o := by simp [shift_add_shift, shift_add_double, shift_add_pow, pow_add_shift, shift_add_shift_add, shift_add_double_add, shift_add_pow_add, -Nat.reducePow])
    (hop : op < 2 ^ 7 := by decide) (hext : ∀ h, OperandBits h o → extCount e.tag op h = some 0 := by exact fun _ _ => rfl) : RoundTrips i :=
  roundTrips_of_reads hh henc (by decide) hop fun hw => ⟨ho, by simp, fun h hf => ⟨hext h hf, hread hw h hf⟩⟩

/-- A word with one extension word, whatever its operand bits. -/
theorem roundTrips_word1 (hh : i.head = some ⟨e, m, 1⟩) (henc : encode i = assemble e.tag op m o [p])
    (hread : i.operandsOk = true → ∀ h, OperandBits h o → decodeOperands e.tag op h p 0 0 m = .ok i)
    (ho : Within 18 o := by simp [shift_add_shift, shift_add_double, shift_add_pow, pow_add_shift, shift_add_shift_add, shift_add_double_add, shift_add_pow_add, -Nat.reducePow])
    (hp : Within 25 p := by simp [shift_add_shift, shift_add_double, shift_add_pow, pow_add_shift, shift_add_shift_add, shift_add_double_add, shift_add_pow_add, -Nat.reducePow])
    (hop : op < 2 ^ 7 := by decide) (hext : ∀ h, OperandBits h o → extCount e.tag op h = some 1 := by exact fun _ _ => rfl) : RoundTrips i :=
  roundTrips_of_reads hh henc (by simp) hop fun hw => ⟨ho, by simpa using hp, fun h hf => ⟨hext h hf, hread hw h hf⟩⟩

/-- A word that says itself how many extension words it has. -/
theorem roundTrips_wordOf {xc : Fin 4} (hh : i.head = some ⟨e, m, xc.val⟩) (henc : encode i = assemble e.tag op m o ([p, q, r].take xc.val))
    (hop : op < 2 ^ 7) (ho : Within 18 o) (hp : Within 25 p) (hq : Within 25 q) (hr : Within 25 r)
    (hext : ∀ h, OperandBits h o → extCount e.tag op h = some xc.val)
    (hread : i.operandsOk = true → ∀ h, OperandBits h o → decodeOperands e.tag op h (if 1 ≤ xc.val then p else 0) (if 2 ≤ xc.val then q else 0)
      (if 3 ≤ xc.val then r else 0) m = .ok i) : RoundTrips i := by
  have hlen : ([p, q, r].take xc.val).length = xc.val := by simp; omega
  refine roundTrips_of_reads (hlen.symm ▸ hh) henc (by omega) hop fun hw => ⟨ho, ?_, fun h hf => ⟨hlen.symm ▸ hext h hf, ?_⟩⟩
  · intro x hx
    have := List.mem_of_mem_take hx
    simp only [List.mem_cons, List.not_mem_nil, or_false] at this
    rcases this with rfl | rfl | rfl <;> assumption
  · rw [← hread hw h hf]
    fin_cases xc <;> rfl

end
/-- The immediate of an RI word is read back from its low bits and its payloads (02 R68). -/
theorem immOf_immPayloads {xc : Fin 4} {imm : BitVec 64} (h : immFits xc imm = true) :
    immOf xc.val (fld imm.toNat 0 10) (if 1 ≤ xc.val then fld imm.toNat 10 25 else 0) (if 2 ≤ xc.val then fld imm.toNat 35 25 else 0)
      (if 3 ≤ xc.val then fld imm.toNat 60 4 else 0) = imm := by
  have trunc (w : Nat) (h : (imm.truncate w).signExtend 64 = imm) : (BitVec.ofNat w (fld imm.toNat 0 w)).signExtend 64 = imm := by
    rw [show BitVec.ofNat w (fld imm.toNat 0 w) = imm.truncate w from BitVec.eq_of_toNat_eq (by simp [fld])]; exact h
  match xc with
  | 0 => exact trunc 10 (by simpa [immFits] using h)
  | 1 =>
    show (BitVec.ofNat 35 (fld imm.toNat 0 10 + 2 ^ 10 * fld imm.toNat 10 25)).signExtend 64 = imm
    rw [fld_add_fld]
    exact trunc 35 (by simpa [immFits] using h)
  | 2 =>
    show (BitVec.ofNat 60 (fld imm.toNat 0 10 + 2 ^ 10 * fld imm.toNat 10 25 + 2 ^ 35 * fld imm.toNat 35 25)).signExtend 64 = imm
    rw [fld_add_fld, fld_add_fld]
    exact trunc 60 (by simpa [immFits] using h)
  | 3 =>
    show BitVec.ofNat 64 (fld imm.toNat 0 10 + 2 ^ 10 * fld imm.toNat 10 25 + 2 ^ 35 * fld imm.toNat 35 25 + 2 ^ 60 * fld (fld imm.toNat 60 4) 0 4) = imm
    rw [fld_add_fld, fld_add_fld, fld_whole (o := fld imm.toNat 60 4) (by simp), fld_add_fld, fld_whole (by simp), BitVec.ofNat_toNat, BitVec.setWidth_eq]

/-- A word of format RI (02 R65, R68). -/
theorem roundTrips_ri {i : Instr} {e : Engine} {m : Dep} {op d : Nat} {xc : Fin 4} {imm : BitVec 64} (hd : Bits 6 d)
    (hh : i.head = some ⟨e, m, xc.val⟩) (henc : encode i = assemble e.tag op m (ri d xc imm) (immPayloads xc imm)) (hop : op < 2 ^ 7)
    (hext : ∀ h, extCount e.tag op h = some (fld h 10 2)) (hfit : i.operandsOk = true → immFits xc imm = true)
    (hread : ∀ h p1 p2 p3, fld h 12 6 = d → fld h 10 2 = xc.val → fld p3 4 21 = 0 → immOf (fld h 10 2) (fld h 0 10) p1 p2 p3 = imm →
      decodeOperands e.tag op h p1 p2 p3 m = .ok i) : RoundTrips i := by
  refine roundTrips_wordOf hh henc hop (by simp [hd, -Nat.reducePow]) (by simp) (by simp) (by simp)
    (fun h hf => by rw [hext]; simp [hf.fld_eq, -Nat.reducePow]) fun hw h hf => hread h _ _ _ ?_ ?_ ?_ ?_
  · simp [hf.fld_eq, hd, -Nat.reducePow]
  · simp [hf.fld_eq, -Nat.reducePow]
  · split <;> simp
  · simpa [hf.fld_eq, -Nat.reducePow] using immOf_immPayloads (hfit hw)

end Sys2Proof.Encoding
end

