-- ==== Sys2Proof/Proofs/WordsS.lean ====
section
/-!
SUPPORT. The words of the sequencer decode to what they encode (04).
-/

namespace Sys2Proof.Encoding

-- The proofs share the decoder's equation lemmas; side by side each would hold a thread while it waits for them.
set_option Elab.async false

section

variable {m : Dep} {op : Nat} (hop : op < 2 ^ 7) (hext : ∀ h, extCount Engine.S.tag op h = some 0)
include hop hext

/-- A word of S over three registers (04 R105). -/
theorem roundTrips_reg3 {i : SReg → SReg → SReg → Instr} {d a b : SReg} (hh : (i d a b).head = some ⟨.S, m, 0⟩)
    (henc : encode (i d a b) = assemble Engine.S.tag op m (rrr d.val a.val b.val) [])
    (hdec : ∀ h, decodeS op h 0 0 0 m = .ok (i (Fin.ofNat 64 (fld h 12 6)) (Fin.ofNat 64 (fld h 6 6)) (Fin.ofNat 64 (fld h 0 6)))) :
    RoundTrips (i d a b) :=
  roundTrips_word hh henc (hop := hop) (hext := fun h _ => hext h) fun _ h hf => by simp [hdec, hf.fld_eq, -Nat.reducePow]

/-- A word of S without operands. -/
theorem roundTrips_bare {i : Instr} (hh : i.head = some ⟨.S, m, 0⟩) (henc : encode i = assemble Engine.S.tag op m 0 [])
    (hdec : ∀ h, decodeS op h 0 0 0 m = rsv (fld h 0 18) (.ok i)) : RoundTrips i :=
  roundTrips_word hh henc (hop := hop) (hext := fun h _ => hext h) fun _ h hf => by simp [hdec, hf.fld_eq, -Nat.reducePow]

/-- A word of S that names a place in the text (04 R109). -/
theorem roundTrips_target {i : BitVec 18 → Instr} {off : BitVec 18} (hh : (i off).head = some ⟨.S, m, 0⟩)
    (henc : encode (i off) = assemble Engine.S.tag op m off.toNat [])
    (hdec : ∀ h, decodeS op h 0 0 0 m = .ok (i (BitVec.ofNat 18 (fld h 0 18)))) : RoundTrips (i off) :=
  roundTrips_word hh henc (hop := hop) (hext := fun h _ => hext h) fun _ h hf => by simp [hdec, hf.fld_eq, -Nat.reducePow]

end

theorem roundTrips_mov (m d a) : RoundTrips (.mov m d a) :=
  roundTrips_word rfl rfl fun _ h hf => by simp [decodeS, hf.fld_eq, -Nat.reducePow]

theorem roundTrips_movFromDs (m d) : RoundTrips (.movFromDs m d) :=
  roundTrips_word rfl rfl fun _ h hf => by simp [decodeS, hf.fld_eq, -Nat.reducePow]

theorem roundTrips_movToDa (m a) : RoundTrips (.movToDa m a) :=
  roundTrips_word rfl rfl fun _ h hf => by simp [decodeS, hf.fld_eq, -Nat.reducePow]

theorem roundTrips_movToDv (m a) : RoundTrips (.movToDv m a) :=
  roundTrips_word rfl rfl fun _ h hf => by simp [decodeS, hf.fld_eq, -Nat.reducePow]

theorem roundTrips_movToDt (m a) : RoundTrips (.movToDt m a) :=
  roundTrips_word rfl rfl fun _ h hf => by simp [decodeS, hf.fld_eq, -Nat.reducePow]

theorem roundTrips_li (m xc d imm) : RoundTrips (.li m xc d imm) :=
  roundTrips_ri (d := d.val) (by simp) rfl rfl (by decide) (fun _ => rfl) id fun h p1 p2 p3 hd hx hp hi => by simp [decodeS, hd, hx, hp, ← hi]

theorem roundTrips_cmp (m cc nq d a b) : RoundTrips (.cmp m cc nq d a b) :=
  roundTrips_word1 rfl rfl fun _ h hf => by simp [decodeS, hf.fld_eq, -Nat.reducePow]

theorem roundTrips_loopImm (m lc n off) : RoundTrips (.loop m lc (.imm n) off) :=
  roundTrips_word1 rfl rfl fun _ h hf => by simp [decodeS, hf.fld_eq, -Nat.reducePow]

theorem roundTrips_loopReg (m lc r off) : RoundTrips (.loop m lc (.reg r) off) :=
  roundTrips_word1 rfl rfl fun _ h hf => by simp [decodeS, hf.fld_eq, shift_add_pow, -Nat.reducePow]

theorem roundTrips_endl (m lc rot) : RoundTrips (.endl m lc rot) :=
  roundTrips_word rfl rfl fun _ h hf => by simp [decodeS, hf.fld_eq, shift_add_shift, -Nat.reducePow]

theorem roundTrips_lexit (m c off) : RoundTrips (.lexit m c off) :=
  roundTrips_word rfl rfl fun _ h hf => by simp [decodeS, hf.fld_eq, -Nat.reducePow]

theorem roundTrips_semSigImm (m s v) : RoundTrips (.semSigImm m s v) :=
  roundTrips_word rfl rfl fun _ h hf => by simp [decodeS, hf.fld_eq, -Nat.reducePow]

theorem roundTrips_semSigReg (m s r) : RoundTrips (.semSigReg m s r) :=
  roundTrips_word rfl rfl fun _ h hf => by simp [decodeS, hf.fld_eq, shift_add_pow, -Nat.reducePow]

theorem roundTrips_semWaitImm (m s v) : RoundTrips (.semWaitImm m s v) :=
  roundTrips_word rfl rfl fun _ h hf => by simp [decodeS, hf.fld_eq, -Nat.reducePow]

theorem roundTrips_semWaitReg (m s r) : RoundTrips (.semWaitReg m s r) :=
  roundTrips_word rfl rfl fun _ h hf => by simp [decodeS, hf.fld_eq, shift_add_pow, -Nat.reducePow]

theorem roundTrips_cairn (m l) : RoundTrips (.cairn m l) :=
  roundTrips_word rfl rfl fun _ h hf => by simp [decodeS, hf.fld_eq, -Nat.reducePow]

theorem roundTrips_trap (m c) : RoundTrips (.trap m c) :=
  roundTrips_word rfl rfl fun _ h hf => by simp [decodeS, hf.fld_eq, -Nat.reducePow]

theorem roundTrips_csrRd (m r c) : RoundTrips (.csrRd m r c) :=
  roundTrips_word rfl rfl fun _ h hf => by simp [decodeS, hf.fld_eq, -Nat.reducePow]

theorem roundTrips_csrWr (m r c) : RoundTrips (.csrWr m r c) :=
  roundTrips_word rfl rfl fun _ h hf => by simp [decodeS, hf.fld_eq, shift_add_pow, -Nat.reducePow]

theorem roundTrips_loop (m lc cnt off) : RoundTrips (.loop m lc cnt off) := by
  cases cnt with
  | imm n => exact roundTrips_loopImm m lc n off
  | reg r => exact roundTrips_loopReg m lc r off

end Sys2Proof.Encoding
end

