-- ==== Sys2Proof/Proofs/WordsA.lean ====
section
/-!
SUPPORT. The words of the access, ordering and copy classes decode to what they encode (06, 07, 09).
-/

namespace Sys2Proof.Encoding

-- The proofs share the decoder's equation lemmas; side by side each would hold a thread while it waits for them.
set_option Elab.async false

theorem roundTrips_lia (m xc d imm) : RoundTrips (.lia m xc d imm) :=
  roundTrips_ri (d := aregCode d) (by simp) rfl rfl (by decide) (fun _ => rfl) id fun h p1 p2 p3 hd hx hp hi => by simp [decodeA, hd, hx, hp, ← hi]

theorem roundTrips_adda (m d a b) : RoundTrips (.adda m d a b) :=
  roundTrips_word rfl rfl fun _ h hf => by simp [decodeA, hf.fld_eq, -Nat.reducePow]

theorem roundTrips_mova (m d a) : RoundTrips (.mova m d a) :=
  roundTrips_word rfl rfl fun _ h hf => by simp [decodeA, hf.fld_eq, -Nat.reducePow]

theorem roundTrips_movaToDs (m a) : RoundTrips (.movaToDs m a) :=
  roundTrips_word rfl rfl fun _ h hf => by simp [decodeA, hf.fld_eq, -Nat.reducePow]

theorem roundTrips_movaToDv (m a) : RoundTrips (.movaToDv m a) :=
  roundTrips_word rfl rfl fun _ h hf => by simp [decodeA, hf.fld_eq, -Nat.reducePow]

theorem roundTrips_movaToDt (m a) : RoundTrips (.movaToDt m a) :=
  roundTrips_word rfl rfl fun _ h hf => by simp [decodeA, hf.fld_eq, -Nat.reducePow]

theorem roundTrips_qbind (m td q wr oa ob) : RoundTrips (.qbind m td q wr oa ob) :=
  roundTrips_word1 rfl rfl fun _ h hf => by simp [decodeA, hf.fld_eq, -Nat.reducePow]

theorem roundTrips_qend (m q) : RoundTrips (.qend m q) :=
  roundTrips_word rfl rfl fun _ h hf => by simp [decodeA, hf.fld_eq, -Nat.reducePow]

theorem roundTrips_tdSet (m td i r) : RoundTrips (.tdSet m td i r) :=
  roundTrips_word1 rfl rfl fun _ h hf => by simp [decodeA, hf.fld_eq, shift_add_shift, -Nat.reducePow]

theorem roundTrips_tdGet (m td i r) : RoundTrips (.tdGet m td i r) :=
  roundTrips_word1 rfl rfl fun _ h hf => by simp [decodeA, hf.fld_eq, shift_add_shift, -Nat.reducePow]

theorem roundTrips_tmov (m td ch st oa ob) : RoundTrips (.tmov m td ch st oa ob) :=
  roundTrips_word1 rfl rfl fun _ h hf => by simp [decodeA, hf.fld_eq, -Nat.reducePow]

theorem roundTrips_cpringCopy (m g base ns lines p c) : RoundTrips (.cpring m g (.c base ns lines) p c) :=
  roundTrips_word1 rfl rfl fun _ h hf => by simp [decodeA, hf.fld_eq, shift_add_shift, shift_add_shift_add, -Nat.reducePow]

theorem roundTrips_cpringRepeat (m g j lc lines p c) : RoundTrips (.cpring m g (.r j lc lines) p c) :=
  roundTrips_word1 rfl rfl fun _ h hf => by simp [decodeA, hf.fld_eq, shift_add_shift, shift_add_shift_add, pow_add_shift, shift_add_pow_add, -Nat.reducePow]

theorem roundTrips_cpwpRd (m a ch) : RoundTrips (.cpwpRd m a ch) :=
  roundTrips_word rfl rfl fun _ h hf => by simp [decodeA, hf.fld_eq, -Nat.reducePow]

theorem roundTrips_cpwpWait (m a ch) : RoundTrips (.cpwpWait m a ch) :=
  roundTrips_word rfl rfl fun _ h hf => by simp [decodeA, hf.fld_eq, -Nat.reducePow]

theorem roundTrips_cpwpDs (m ch) : RoundTrips (.cpwpDs m ch) :=
  roundTrips_word rfl rfl fun _ h hf => by simp [decodeA, hf.fld_eq, -Nat.reducePow]

theorem roundTrips_cpcan (m ch) : RoundTrips (.cpcan m ch) :=
  roundTrips_word rfl rfl fun _ h hf => by simp [decodeA, hf.fld_eq, -Nat.reducePow]

theorem roundTrips_cpcanAll (m) : RoundTrips (.cpcanAll m) :=
  roundTrips_word rfl rfl fun _ h hf => by simp [decodeA, hf.fld_eq, -Nat.reducePow]

theorem roundTrips_accmov (m acc ch st asp base) : RoundTrips (.accmov m acc ch st asp base) :=
  roundTrips_word1 rfl rfl fun _ h hf => by simp [decodeA, hf.fld_eq, shift_add_shift, -Nat.reducePow]

theorem roundTrips_fenceAcq (m s) : RoundTrips (.fenceAcq m s) :=
  roundTrips_word rfl rfl fun _ h hf => by simp [decodeA, hf.fld_eq, -Nat.reducePow]

theorem roundTrips_fenceRel (m s) : RoundTrips (.fenceRel m s) :=
  roundTrips_word rfl rfl fun _ h hf => by simp [decodeA, hf.fld_eq, pow_add_shift, -Nat.reducePow]

theorem roundTrips_fenceAr (m s) : RoundTrips (.fenceAr m s) :=
  roundTrips_word rfl rfl fun _ h hf => by simp [decodeA, hf.fld_eq, shift_add_shift, -Nat.reducePow]

theorem roundTrips_fenceSc (m s) : RoundTrips (.fenceSc m s) :=
  roundTrips_word rfl rfl fun _ h hf => by simp [decodeA, hf.fld_eq, shift_add_shift, -Nat.reducePow]

theorem roundTrips_fenceXp (m) : RoundTrips (.fenceXp m) :=
  roundTrips_word rfl rfl fun _ h hf => by simp [decodeA, hf.fld_eq, -Nat.reducePow]

theorem roundTrips_segqState (m d a) : RoundTrips (.segqState m d a) :=
  roundTrips_word rfl rfl fun _ h hf => by simp [decodeA, hf.fld_eq, -Nat.reducePow]

theorem roundTrips_segqProbe (m d a) : RoundTrips (.segqProbe m d a) :=
  roundTrips_word rfl rfl fun _ h hf => by simp [decodeA, hf.fld_eq, -Nat.reducePow]

theorem roundTrips_tlbinvAll (m) : RoundTrips (.tlbinvAll m) :=
  roundTrips_word rfl rfl fun _ h hf => by simp [decodeA, hf.fld_eq, -Nat.reducePow]

theorem roundTrips_tlbinvPage (m a) : RoundTrips (.tlbinvPage m a) :=
  roundTrips_word rfl rfl fun _ h hf => by simp [decodeA, hf.fld_eq, -Nat.reducePow]

theorem roundTrips_tlbinvSeg (m a) : RoundTrips (.tlbinvSeg m a) :=
  roundTrips_word rfl rfl fun _ h hf => by simp [decodeA, hf.fld_eq, -Nat.reducePow]

theorem roundTrips_astat (m d) : RoundTrips (.astat m d) :=
  roundTrips_word rfl rfl fun _ h hf => by simp [decodeA, hf.fld_eq, -Nat.reducePow]

theorem roundTrips_astatClr (m d a) : RoundTrips (.astatClr m d a) :=
  roundTrips_word rfl rfl fun _ h hf => by simp [decodeA, hf.fld_eq, -Nat.reducePow]

theorem roundTrips_astatMiss (m d) : RoundTrips (.astatMiss m d) :=
  roundTrips_word rfl rfl fun _ h hf => by simp [decodeA, hf.fld_eq, -Nat.reducePow]

theorem roundTrips_siftEnc (m ch pasp sasp rp rmap rsec rn) : RoundTrips (.siftEnc m ch pasp sasp rp rmap rsec rn) :=
  roundTrips_word1 rfl rfl fun _ h hf => by simp [decodeA, hf.fld_eq, shift_add_shift, shift_add_double, -Nat.reducePow]

theorem roundTrips_siftDecPlain (m ch pasp rp sasp rmap rsec rn) : RoundTrips (.siftDec m ch (.plain pasp rp) sasp rmap rsec rn) :=
  roundTrips_word1 rfl rfl fun _ h hf => by simp [decodeA, hf.fld_eq, shift_add_shift, shift_add_double, -Nat.reducePow]

theorem roundTrips_siftDecRing (m ch g sasp rmap rsec rn) : RoundTrips (.siftDec m ch (.ring g) sasp rmap rsec rn) :=
  roundTrips_word1 rfl rfl fun _ h hf => by simp [decodeA, hf.fld_eq, shift_add_shift, shift_add_double, pow_add_shift, -Nat.reducePow]

/-! ## Copies (09 R311) -/

/-- The first payload of a copy has its kind's fields (09 R311). -/
theorem within_cpPay (oa ob : Fin 32) (k : CpKind) : Within 25 (cpPay oa ob k) := by
  cases k <;> simp [cpPay, cpCode, shift_add_shift, shift_add_shift_add, -Nat.reducePow]

theorem within_cpBits (td : Fin 64) (ch : Fin 8) (k : CpKind) : Within 18 (cpBits td ch k) := by
  cases k <;> simp [cpBits, cpCode, shift_add_pow, shift_add_shift, -Nat.reducePow]

/-- The kind of a copy and its operands are read back from its head and its first payload (09 R311). -/
theorem decodeCopy_cpBits {long : Bool} {h p2 : Nat} {m : Dep} {td : Fin 64} {ch : Fin 8} {k : CpKind} {oa ob : Fin 32}
    (hf : OperandBits h (cpBits td ch k)) (hp : (if long then fld p2 0 15 else 0) = 0) :
    decodeCopy long h (cpPay oa ob k) p2 m =
      .ok (if long then .cpl m td ch k oa ob (Fin.ofNat 32 (fld p2 20 5)) (Fin.ofNat 32 (fld p2 15 5)) else .cp m td ch k oa ob) := by
  cases k <;> simp [decodeCopy, hp, hf.fld_eq, cpBits, cpPay, cpCode, shift_add_shift, shift_add_pow, shift_add_shift_add, -Nat.reducePow]

theorem roundTrips_cp (m td ch k oa ob) : RoundTrips (.cp m td ch k oa ob) :=
  roundTrips_word1 rfl rfl (fun _ h hf => by simpa [decodeA] using decodeCopy_cpBits (long := false) hf rfl) (within_cpBits ..) (within_cpPay ..)

theorem roundTrips_cpl (m td ch k oa ob rc rs) : RoundTrips (.cpl m td ch k oa ob rc rs) :=
  roundTrips_of_reads (e := .A) (op := 0x0B) (ps := [cpPay oa ob k, origins rc rs]) rfl rfl (by simp) (by decide) fun _ =>
    ⟨within_cpBits .., by simp [within_cpPay, -Nat.reducePow], fun h hf => ⟨rfl, by
      have hrsv : (if true then fld (origins rc rs) 0 15 else 0) = 0 := by simp [-Nat.reducePow]
      refine (decodeCopy_cpBits hf hrsv).trans ?_
      simp [-Nat.reducePow]⟩⟩

/-! ## Words with an address (02 R65) -/

/-- The operand bits of a MEM word (02 R65). -/
theorem memBits_eq (d : Nat) (ma : MemAddr) (sz : Nat) :
    d * 2 ^ 12 + memBits ma sz = (((d * 2 ^ 2 + aspCode ma.asp) * 2 ^ 5 + ma.base.val) * 2 ^ 3 + sz) * 2 ^ 2 + ma.xc.val := by
  simp only [memBits, ← Nat.add_assoc, shift_add_shift, Nat.reduceLeDiff, Nat.reduceSub]

/-- What the operand decoders read of a MEM word and its first payload. -/
structure MemFields (h p1 d sz : Nat) (ma : MemAddr) : Prop where
  opnd : fld h 12 6 = d
  size : fld h 2 3 = sz
  addr : memOf h p1 = ma

theorem memFields_of_operandBits {h d sz : Nat} {ma : MemAddr} (hd : Bits 6 d) (hsz : Bits 3 sz) (hw : ma.wf = true)
    (hf : OperandBits h (d * 2 ^ 12 + memBits ma sz)) : MemFields h (if 1 ≤ ma.xc.val then ma.off.toNat else 0) d sz ma := by
  rw [memBits_eq] at hf
  have hoff : BitVec.ofNat 25 (if 1 ≤ ma.xc.val then ma.off.toNat else 0) = ma.off := by
    by_cases hx : ma.xc = 0
    · have h0 : ma.off = 0 := by simpa [MemAddr.wf, hx] using hw
      simp [hx, h0]
    · have : 1 ≤ ma.xc.val := by omega
      simp [this]
  constructor
  · simp [hf.fld_eq, hd, hsz, -Nat.reducePow]
  · simp [hf.fld_eq, hsz, -Nat.reducePow]
  · rw [memOf, hoff]
    simp [hf.fld_eq, hsz, -Nat.reducePow]

theorem wf_of_wfAtomic {ma : MemAddr} (h : ma.wfAtomic = true) : ma.wf = true := by
  have : ma.xc ≠ 0 := by rintro e; simp [MemAddr.wfAtomic, e] at h
  simp [MemAddr.wf, this]

section
variable {i : Instr} {m : Dep} {op d sz q : Nat} {ma : MemAddr}

/-- A MEM word: its decoder sees its address, its operand and its size (02 R65, 06 R197). -/
theorem roundTrips_mem (hd : Bits 6 d) (hsz : Bits 3 sz) (hq : Within 25 q) (hh : i.head = some ⟨.A, m, ma.xc.val⟩)
    (henc : encode i = assemble Engine.A.tag op m (d * 2 ^ 12 + memBits ma sz) (memPayloads ma q)) (hwf : i.operandsOk = true → ma.wf = true)
    (hread : i.operandsOk = true → ∀ h p1, MemFields h p1 d sz ma → decodeA op h p1 (if 2 ≤ ma.xc.val then q else 0) 0 m = .ok i)
    (hop : op < 2 ^ 7 := by decide) (hext : ∀ h, extCount Engine.A.tag op h = some (fld h 0 2) := by exact fun _ => rfl) : RoundTrips i := by
  refine roundTrips_wordOf (r := 0) hh henc hop ?_ (by simp) hq (by simp) (fun h hf => ?_) fun hw h hf => ?_
  · rw [memBits_eq]; simp [hd, hsz, -Nat.reducePow]
  · rw [memBits_eq] at hf
    rw [hext]; simp [hf.fld_eq, -Nat.reducePow]
  · rw [decodeOperands_A, ite_self]
    exact hread hw h _ (memFields_of_operandBits hd hsz (hwf hw) hf)

/-- An atomic or parcel word: it has its second payload (07 R233). -/
theorem roundTrips_atomic (hd : Bits 6 d) (hsz : Bits 3 sz) (hq : Within 25 q) (hh : i.head = some ⟨.A, m, ma.xc.val⟩)
    (henc : encode i = assemble Engine.A.tag op m (d * 2 ^ 12 + memBits ma sz) (memPayloads ma q)) (hwf : i.operandsOk = true → ma.wfAtomic = true)
    (hread : i.operandsOk = true → ∀ h p1, MemFields h p1 d sz ma → decodeA op h p1 q 0 m = .ok i)
    (hop : op < 2 ^ 7 := by decide) (hext : ∀ h, extCount Engine.A.tag op h = some (fld h 0 2) := by exact fun _ => rfl) : RoundTrips i :=
  roundTrips_mem hd hsz hq hh henc (fun hw => wf_of_wfAtomic (hwf hw)) (fun hw h p1 hm => by
    have h2 : 2 ≤ ma.xc.val := by simpa [MemAddr.wfAtomic] using hwf hw
    rw [if_pos h2]; exact hread hw h p1 hm) hop hext

end

@[simp] theorem atomicPay_eq (ra op ord scope : Nat) (z nr : Bool) (rm : Nat) : atomicPay ra op ord scope z nr rm =
    ((((((ra * 2 ^ 4 + op) * 2 ^ 2 + ord) * 2 ^ 4 + scope) * 2 + bit z) * 2 + bit nr) * 2 ^ 3 + rm) * 2 ^ 5 := by
  simp only [atomicPay, shift_add_shift, Nat.reduceLeDiff, Nat.reduceSub, Nat.pow_one]

theorem roundTrips_amo (m ma w8 op ord sc z nr d ra) : RoundTrips (.amo m ma w8 op ord sc z nr d ra) :=
  roundTrips_atomic (d := d.val) (by simp) (by simp) (by simp [-Nat.reducePow]) rfl rfl (fun hw => (Bool.and_eq_true_iff.1 hw).1) fun hw h p1 hm => by
    have hnr : (if bit nr = 1 then d.val else 0) = 0 := by
      have : nr = false ∨ d = 0 := by simpa using (Bool.and_eq_true_iff.1 hw).2
      rcases this with rfl | rfl <;> simp
    simp [decodeA, decodeAtomic, hm.opnd, hm.size, hm.addr, hnr, -Nat.reducePow]

theorem roundTrips_cas (m ma w8 ord sc z d ra) : RoundTrips (.cas m ma w8 ord sc z d ra) :=
  roundTrips_atomic (d := d.val) (by simp) (by simp) (by simp [-Nat.reducePow]) rfl rfl id fun hw h p1 hm => by
    simp [decodeA, decodeAtomic, hm.opnd, hm.size, hm.addr, -Nat.reducePow]

theorem roundTrips_gadd (m ma f ord sc d) : RoundTrips (.gadd m ma f ord sc d) :=
  roundTrips_atomic (d := d.val) (by simp) (by simp) (by simp [-Nat.reducePow]) rfl rfl (fun hw => (Bool.and_eq_true_iff.1 hw).1) fun hw h p1 hm => by
    simp [decodeA, decodeAtomic, hm.opnd, hm.size, hm.addr, -Nat.reducePow]

theorem roundTrips_grd (m ma f rm ord sc d ra) : RoundTrips (.grd m ma f rm ord sc d ra) :=
  roundTrips_atomic (d := d.val) (by simp) (by simp) (by simp [-Nat.reducePow]) rfl rfl
    (fun hw => (Bool.and_eq_true_iff.1 (Bool.and_eq_true_iff.1 hw).1).1) fun hw h p1 hm => by
    simp [decodeA, decodeAtomic, hm.opnd, hm.size, hm.addr, -Nat.reducePow]

theorem roundTrips_gclr (m ma ord sc d) : RoundTrips (.gclr m ma ord sc d) :=
  roundTrips_atomic (d := d.val) (by simp) (by simp) (by simp [-Nat.reducePow]) rfl rfl (fun hw => (Bool.and_eq_true_iff.1 hw).1) fun hw h p1 hm => by
    simp [decodeA, decodeAtomic, hm.opnd, hm.size, hm.addr, -Nat.reducePow]

theorem roundTrips_waita (m ma w8 sc d ra) : RoundTrips (.waita m ma w8 sc d ra) :=
  roundTrips_atomic (d := d.val) (by simp) (by simp) (by simp [-Nat.reducePow]) rfl rfl id fun hw h p1 hm => by
    simp [decodeA, decodeAtomic, hm.opnd, hm.size, hm.addr, -Nat.reducePow]

theorem roundTrips_wakea (m ma sc d) : RoundTrips (.wakea m ma sc d) :=
  roundTrips_atomic (d := d.val) (by simp) (by simp) (by simp [-Nat.reducePow]) rfl rfl id fun hw h p1 hm => by
    simp [decodeA, decodeAtomic, hm.opnd, hm.size, hm.addr, -Nat.reducePow]

theorem roundTrips_platQ (m ma d) : RoundTrips (.platQ m ma d) :=
  roundTrips_atomic (d := d.val) (by simp) (by simp) (by simp [-Nat.reducePow]) rfl rfl (fun hw => (Bool.and_eq_true_iff.1 hw).1) fun hw h p1 hm => by
    simp [decodeA, decodeAtomic, hm.opnd, hm.size, hm.addr, -Nat.reducePow]

theorem roundTrips_platWait (m ma d) : RoundTrips (.platWait m ma d) :=
  roundTrips_atomic (d := d.val) (by simp) (by simp) (by simp [-Nat.reducePow]) rfl rfl (fun hw => (Bool.and_eq_true_iff.1 hw).1) fun hw h p1 hm => by
    simp [decodeA, decodeAtomic, hm.opnd, hm.size, hm.addr, -Nat.reducePow]

theorem roundTrips_platShare (m ma d) : RoundTrips (.platShare m ma d) :=
  roundTrips_atomic (d := d.val) (by simp) (by simp) (by simp [-Nat.reducePow]) rfl rfl (fun hw => (Bool.and_eq_true_iff.1 hw).1) fun hw h p1 hm => by
    simp [decodeA, decodeAtomic, hm.opnd, hm.size, hm.addr, -Nat.reducePow]

theorem roundTrips_convey (m ma d) : RoundTrips (.convey m ma d) :=
  roundTrips_mem (d := d.val) (by simp) (by simp) (by simp) rfl rfl (fun hw => (Bool.and_eq_true_iff.1 hw).1) fun hw h p1 hm => by
    simp [decodeA, hm.opnd, hm.size, hm.addr]

theorem not_seven_le (sz : Fin 7) : ¬ 7 ≤ sz.val := by omega

theorem roundTrips_st (m ma sz src) : RoundTrips (.st m ma sz src) :=
  roundTrips_mem (d := asrcCode src) (by simp) (by simp) (by simp) rfl rfl (fun hw => (Bool.and_eq_true_iff.1 hw).1) fun hw h p1 hm => by
    simp [decodeA, hm.opnd, hm.size, hm.addr, not_seven_le]

theorem roundTrips_ldReg (m ma sz z r) : RoundTrips (.ld m ma sz z (.reg r)) :=
  roundTrips_mem (d := aregCode r) (by simp) (by simp) (by simp [-Nat.reducePow]) rfl rfl
    (fun hw => (Bool.and_eq_true_iff.1 (Bool.and_eq_true_iff.1 hw).1).1) fun hw h p1 hm => by
    by_cases hx : 2 ≤ ma.xc.val
    · simp [decodeA, hm.opnd, hm.size, hm.addr, not_seven_le, hx, -Nat.reducePow]
    · have hz : (decide (2 ≤ ma.xc.val) || (!z && true)) = true := (Bool.and_eq_true_iff.1 hw).2
      have hz : z = false := by simpa [hx] using hz
      simp [decodeA, hm.opnd, hm.size, hm.addr, not_seven_le, hx, hz]

/-- A load into a queue has its second payload (06 R198). -/
theorem two_le_xc_of_ld {m ma sz z dst} (h : (Instr.ld m ma sz z dst).operandsOk = true) (hd : ∀ r, dst ≠ .reg r) : 2 ≤ ma.xc.val := by
  have of_queue (h : (decide (2 ≤ ma.xc.val) || (!z && false)) = true) : 2 ≤ ma.xc.val := by simpa using h
  cases dst with
  | reg r => exact absurd rfl (hd r)
  | ds | dv | dt => exact of_queue (Bool.and_eq_true_iff.1 h).2

theorem wf_of_ld {m ma sz z dst} (h : (Instr.ld m ma sz z dst).operandsOk = true) : ma.wf = true :=
  (Bool.and_eq_true_iff.1 (Bool.and_eq_true_iff.1 h).1).1

/-- A load into a queue: its second payload holds the queue's code (06 R197). -/
theorem roundTrips_ldQueue {m : Dep} {ma : MemAddr} {sz : Fin 7} {z : Bool} {dst : LdDst} {c : Nat} (hc : Bits 2 c) (hd : ∀ r, dst ≠ .reg r)
    (henc : encode (.ld m ma sz z dst) = assemble Engine.A.tag 0x00 m (memBits ma sz.val) (memPayloads ma (c * 2 ^ 6 + bit z * 2 ^ 5)))
    (hread : ∀ h p1 p2, MemFields h p1 0 sz.val ma → fld p2 6 2 = c → fld p2 5 1 = bit z → fld p2 8 17 = 0 → fld p2 0 5 = 0 →
      decodeA 0x00 h p1 p2 0 m = .ok (.ld m ma sz z dst)) : RoundTrips (.ld m ma sz z dst) :=
  roundTrips_mem (d := 0) (sz := sz.val) (q := c * 2 ^ 6 + bit z * 2 ^ 5) (by simp) (by simp)
    (by simp [shift_add_shift, Bits.mono hc (by decide : 2 ≤ 19), -Nat.reducePow]) rfl
    (by rw [Nat.zero_mul, Nat.zero_add]; exact henc) wf_of_ld fun hw h p1 hm => by
    rw [if_pos (two_le_xc_of_ld hw hd)]
    refine hread h p1 _ hm ?_ ?_ ?_ ?_ <;> simp [shift_add_shift, hc, -Nat.reducePow]

theorem roundTrips_ldDs (m ma sz z) : RoundTrips (.ld m ma sz z .ds) :=
  roundTrips_ldQueue (c := 1) (by simp) (fun _ => nofun) rfl fun h p1 p2 hm hc hz h0 h1 => by
    simp [decodeA, hm.opnd, hm.size, hm.addr, not_seven_le, hc, hz, h0, h1]

theorem roundTrips_ldDv (m ma sz z) : RoundTrips (.ld m ma sz z .dv) :=
  roundTrips_ldQueue (c := 2) (by simp) (fun _ => nofun) rfl fun h p1 p2 hm hc hz h0 h1 => by
    simp [decodeA, hm.opnd, hm.size, hm.addr, not_seven_le, hc, hz, h0, h1]

theorem roundTrips_ldDt (m ma sz z) : RoundTrips (.ld m ma sz z .dt) :=
  roundTrips_ldQueue (c := 3) (by simp) (fun _ => nofun) rfl fun h p1 p2 hm hc hz h0 h1 => by
    simp [decodeA, hm.opnd, hm.size, hm.addr, not_seven_le, hc, hz, h0, h1]

theorem roundTrips_ld (m ma sz z dst) : RoundTrips (.ld m ma sz z dst) := by
  cases dst with
  | reg r => exact roundTrips_ldReg m ma sz z r
  | ds => exact roundTrips_ldDs m ma sz z
  | dv => exact roundTrips_ldDv m ma sz z
  | dt => exact roundTrips_ldDt m ma sz z

theorem roundTrips_cpring (m g mode p c) : RoundTrips (.cpring m g mode p c) := by
  cases mode with
  | c base ns lines => exact roundTrips_cpringCopy m g base ns lines p c
  | r j lc lines => exact roundTrips_cpringRepeat m g j lc lines p c

theorem roundTrips_siftDec (m ch dst sasp rmap rsec rn) : RoundTrips (.siftDec m ch dst sasp rmap rsec rn) := by
  cases dst with
  | plain pasp rp => exact roundTrips_siftDecPlain m ch pasp rp sasp rmap rsec rn
  | ring g => exact roundTrips_siftDecRing m ch g sasp rmap rsec rn

end Sys2Proof.Encoding
end

