-- ==== Sys2Proof/Proofs/WordsM.lean ====
section
/-!
SUPPORT. The words of the matrix engine decode to what they encode (10).
-/

namespace Sys2Proof.Encoding

-- The proofs share the decoder's equation lemmas; side by side each would hold a thread while it waits for them.
set_option Elab.async false

/-- The semaphore fields of a pass, each none or in its bits (10 R352). -/
theorem within_semUse (ka kb set : Bool) (w : Option (SemUse 16)) (s : Option (SemUse 8)) :
    Within 25 (bit ka * 2 ^ 24 + bit kb * 2 ^ 23 + semUseBits w s + bit set * 2 ^ 3) := by
  cases w <;> cases s <;>
    simp [semUseBits, ← Nat.add_assoc, shift_add_shift, shift_add_double, shift_add_pow, pow_add_shift, -Nat.reducePow]

structure PassFields (p : Nat) (ka kb set : Bool) (w : Option (SemUse 16)) (s : Option (SemUse 8)) : Prop where
  keepA : fld p 24 1 = bit ka
  keepB : fld p 23 1 = bit kb
  first : fld p 3 1 = bit set
  wait : semUse 16 (fld p 22 1) (fld p 17 5) (fld p 13 4) = w
  signal : semUse 8 (fld p 12 1) (fld p 7 5) (fld p 4 3) = s
  reserved : fld p 0 3 + (if fld p 22 1 = 0 then fld p 13 9 else 0) + (if fld p 12 1 = 0 then fld p 4 8 else 0) = 0

theorem passFields (ka kb set : Bool) (w : Option (SemUse 16)) (s : Option (SemUse 8)) :
    PassFields (bit ka * 2 ^ 24 + bit kb * 2 ^ 23 + semUseBits w s + bit set * 2 ^ 3) ka kb set w s := by
  cases w <;> cases s <;> constructor <;>
    simp [semUse, semUseBits, ← Nat.add_assoc, shift_add_shift, shift_add_double, shift_add_pow, pow_add_shift, -Nat.reducePow]

theorem roundTrips_mxMma (m acc ga gb ka kb w s set) : RoundTrips (.mxMma m acc ga gb ka kb w s set) :=
  roundTrips_word1 rfl rfl (hp := within_semUse ka kb set w s) fun _ h hf => by
    have hp := passFields ka kb set w s
    generalize bit ka * 2 ^ 24 + bit kb * 2 ^ 23 + semUseBits w s + bit set * 2 ^ 3 = p at hp ⊢
    simp [decodeM, hf.fld_eq, hp.keepA, hp.keepB, hp.first, hp.wait, hp.signal, hp.reserved, shift_add_shift, -Nat.reducePow]

theorem roundTrips_mxGer (m acc ga gb ka kb w s set) : RoundTrips (.mxGer m acc ga gb ka kb w s set) :=
  roundTrips_word1 rfl rfl (hp := within_semUse ka kb set w s) fun _ h hf => by
    have hp := passFields ka kb set w s
    generalize bit ka * 2 ^ 24 + bit kb * 2 ^ 23 + semUseBits w s + bit set * 2 ^ 3 = p at hp ⊢
    simp [decodeM, hf.fld_eq, hp.keepA, hp.keepB, hp.first, hp.wait, hp.signal, hp.reserved, shift_add_shift, -Nat.reducePow]

theorem roundTrips_mxShape (m r c nq nd) : RoundTrips (.mxShape m r c nq nd) :=
  roundTrips_word rfl rfl fun _ h hf => by simp [decodeM, hf.fld_eq, shift_add_shift, -Nat.reducePow]

theorem roundTrips_mxBatch (m acc ga gb n ka kb set) : RoundTrips (.mxBatch m acc ga gb n ka kb set) :=
  roundTrips_word1 rfl rfl fun _ h hf => by simp [decodeM, hf.fld_eq, shift_add_shift, -Nat.reducePow]

theorem roundTrips_mxZero (m acc) : RoundTrips (.mxZero m acc) :=
  roundTrips_word rfl rfl fun _ h hf => by simp [decodeM, hf.fld_eq, -Nat.reducePow]

theorem roundTrips_mxLdacc (m acc g kp add z) : RoundTrips (.mxLdacc m acc g kp add z) :=
  roundTrips_word1 rfl rfl fun _ h hf => by simp [decodeM, hf.fld_eq, shift_add_shift, -Nat.reducePow]

theorem roundTrips_mxStacc (m acc g rm ov z) : RoundTrips (.mxStacc m acc g rm ov z) :=
  roundTrips_word1 rfl rfl fun _ h hf => by simp [decodeM, hf.fld_eq, shift_add_shift, -Nat.reducePow]

theorem roundTrips_mxAccadd (m d s int neg) : RoundTrips (.mxAccadd m d s int neg) :=
  roundTrips_word1 rfl rfl fun _ h hf => by simp [decodeM, hf.fld_eq, shift_add_shift, -Nat.reducePow]

theorem roundTrips_mxAccmov (m d s swap) : RoundTrips (.mxAccmov m d s swap) :=
  roundTrips_word1 rfl rfl fun _ h hf => by simp [decodeM, hf.fld_eq, shift_add_shift, -Nat.reducePow]

theorem roundTrips_mxCseq (m imm) : RoundTrips (.mxCseq m imm) :=
  roundTrips_word1 rfl rfl fun _ h hf => by
    have himm : fld imm.toNat 0 16 + 2 ^ 16 * fld imm.toNat 16 16 = imm.toNat := by
      rw [fld_add_fld, fld_whole (by simp)]
    simp [decodeM, hf.fld_eq, himm, -Nat.reducePow]

theorem roundTrips_mxRing (m td g) : RoundTrips (.mxRing m td g) :=
  roundTrips_word rfl rfl fun _ h hf => by simp [decodeM, hf.fld_eq, -Nat.reducePow]

theorem roundTrips_mxPop (m g) : RoundTrips (.mxPop m g) :=
  roundTrips_word rfl rfl fun _ h hf => by simp [decodeM, hf.fld_eq, -Nat.reducePow]

theorem roundTrips_mxFmt (m g f) : RoundTrips (.mxFmt m g f) :=
  roundTrips_word rfl rfl fun _ h hf => by simp [decodeM, hf.fld_eq, -Nat.reducePow]

theorem roundTrips_mxScaleSome (m g v) : RoundTrips (.mxScale m g (some v)) :=
  roundTrips_word1 rfl rfl fun _ h hf => by simp [decodeM, hf.fld_eq, -Nat.reducePow]

theorem roundTrips_mxScaleNone (m g) : RoundTrips (.mxScale m g none) :=
  roundTrips_word1 rfl rfl fun _ h hf => by simp [decodeM, hf.fld_eq, -Nat.reducePow]

theorem roundTrips_mxTrn (m acc) : RoundTrips (.mxTrn m acc) :=
  roundTrips_word rfl rfl fun _ h hf => by simp [decodeM, hf.fld_eq, -Nat.reducePow]

theorem roundTrips_mxMode (m n za zb) : RoundTrips (.mxMode m n za zb) :=
  roundTrips_word rfl rfl fun _ h hf => by simp [decodeM, hf.fld_eq, shift_add_shift, -Nat.reducePow]

theorem roundTrips_mxSemWait (m s v) : RoundTrips (.mxSemWait m s v) :=
  roundTrips_word rfl rfl fun _ h hf => by simp [decodeM, hf.fld_eq, -Nat.reducePow]

theorem roundTrips_mxSemSig (m s v) : RoundTrips (.mxSemSig m s v) :=
  roundTrips_word rfl rfl fun _ h hf => by simp [decodeM, hf.fld_eq, shift_add_pow, -Nat.reducePow]

theorem roundTrips_mxStat (m c) : RoundTrips (.mxStat m c) :=
  roundTrips_word rfl rfl fun _ h hf => by simp [decodeM, hf.fld_eq, -Nat.reducePow]

theorem roundTrips_mxScale (m g val) : RoundTrips (.mxScale m g val) := by
  cases val with
  | some v => exact roundTrips_mxScaleSome m g v
  | none => exact roundTrips_mxScaleNone m g

end Sys2Proof.Encoding
end

