-- ==== Sys2Proof/Proofs/WordsV.lean ====
section
/-!
SUPPORT. The words of the vector engine decode to what they encode (08).
-/

namespace Sys2Proof.Encoding

-- The proofs share the decoder's equation lemmas; side by side each would hold a thread while it waits for them.
set_option Elab.async false

@[simp] theorem vtyCode_float (t : VTy) : (3 ≤ vtyCode t ∧ vtyCode t ≤ 6) ↔ t.isFloat = true := by cases t <;> decide

/-- `z` is reserved with a float type (08 R266). -/
theorem rsv_sign (ty : VTy) (z : Bool) (h : (!z || !ty.isFloat) = true) : (if ty.isFloat = true then bit z else 0) = 0 := by
  have : z = false ∨ ty.isFloat = false := by simpa using h
  rcases this with h | h <;> simp [h]
@[simp] theorem exceptSr_zero : exceptSr 0 = some () := rfl
@[simp] theorem notSr_zero : notSr 0 = 0 := rfl

@[simp] theorem vtyCode_int (t : VTy) : vtyCode t ≤ 2 ↔ t.isFloat = false := by cases t <;> decide

section
variable {m : Dep} {op : Nat} {ctl : VCtl} {ty : VTy} {d : VDst} {a b : VSrc}

/-- Float arithmetic on two vectors (08 R271). -/
theorem roundTrips_vfloat {i : VCtl → VTy → RMode → VDst → VSrc → VSrc → Instr} {rm : RMode} (hop : op < 2 ^ 7)
    (hext : ∀ h, extCount Engine.V.tag op h = some 1) (hh : (i ctl ty rm d a b).head = some ⟨.V, m, 1⟩)
    (henc : encode (i ctl ty rm d a b) = assemble Engine.V.tag op m (rrr (vdstCode d) (vsrcCode a) (vsrcCode b))
      [vpay ctl.k ctl.zm (vtyCode ty) false (rmCode rm) 0 0])
    (hdec : ∀ h p, decodeV op h p 0 0 m = rsv (fld p 17 1 + fld p 8 6 + fld p 0 8)
      (do return i ⟨Fin.ofNat 8 (fld p 22 3), flag (fld p 21 1)⟩ (← ill (vtyOf (fld p 18 3))) (← ill (rmOf (fld p 14 3)))
            (← ill (vdstOf (fld h 12 6))) (← ill (vsrcOf (fld h 6 6))) (← ill (vsrcOf (fld h 0 6))))) : RoundTrips (i ctl ty rm d a b) :=
  roundTrips_word1 hh henc (hop := hop) (hext := fun h _ => hext h) fun _ h hf => by simp [hdec, hf.fld_eq, -Nat.reducePow]

/-- A word over two vectors that has no rounding and no sign (08 R273, R280, R284). -/
theorem roundTrips_vpair {i : VCtl → VTy → VDst → VSrc → VSrc → Instr} (hop : op < 2 ^ 7)
    (hext : ∀ h, extCount Engine.V.tag op h = some 1) (hh : (i ctl ty d a b).head = some ⟨.V, m, 1⟩)
    (henc : encode (i ctl ty d a b) = assemble Engine.V.tag op m (rrr (vdstCode d) (vsrcCode a) (vsrcCode b))
      [vpay ctl.k ctl.zm (vtyCode ty) false 0 0 0])
    (hdec : ∀ h p, decodeV op h p 0 0 m = rsv (fld p 17 1 + fld p 14 3 + fld p 8 6 + fld p 0 8)
      (do return i ⟨Fin.ofNat 8 (fld p 22 3), flag (fld p 21 1)⟩ (← ill (vtyOf (fld p 18 3)))
            (← ill (vdstOf (fld h 12 6))) (← ill (vsrcOf (fld h 6 6))) (← ill (vsrcOf (fld h 0 6))))) : RoundTrips (i ctl ty d a b) :=
  roundTrips_word1 hh henc (hop := hop) (hext := fun h _ => hext h) fun _ h hf => by simp [hdec, hf.fld_eq, -Nat.reducePow]

end

theorem roundTrips_vbcast (m xc d imm) : RoundTrips (.vbcast m xc d imm) :=
  roundTrips_ri (d := vdstCode d) (by simp) rfl rfl (by decide) (fun _ => rfl) id fun h p1 p2 p3 hd hx hp hi => by simp [decodeV, hd, hx, hp, ← hi]

theorem roundTrips_vsetl (m xc kd imm) : RoundTrips (.vsetl m xc kd imm) :=
  roundTrips_ri (d := kd.val) (by simp) rfl rfl (by decide) (fun _ => rfl) id fun h p1 p2 p3 hd hx hp hi => by simp [decodeV, hd, hx, hp, ← hi]

theorem roundTrips_vfma (m ctl ty rm np nc d a b c) : RoundTrips (.vfma m ctl ty rm np nc d a b c) :=
  roundTrips_word1 rfl rfl fun _ h hf => by simp [decodeV, hf.fld_eq, shift_add_double_add, -Nat.reducePow]

theorem roundTrips_vmin (m ctl ty z d a b) : RoundTrips (.vmin m ctl ty z d a b) :=
  roundTrips_word1 rfl rfl fun hw h hf => by
    have hz := rsv_sign ty z hw
    simp [decodeV, hf.fld_eq, hz, -Nat.reducePow]

theorem roundTrips_vmax (m ctl ty z d a b) : RoundTrips (.vmax m ctl ty z d a b) :=
  roundTrips_word1 rfl rfl fun hw h hf => by
    have hz := rsv_sign ty z hw
    simp [decodeV, hf.fld_eq, hz, -Nat.reducePow]

theorem roundTrips_vabs (m ctl ty z d a) : RoundTrips (.vabs m ctl ty z d a) :=
  roundTrips_word1 rfl rfl fun hw h hf => by
    have hz := rsv_sign ty z hw
    simp [decodeV, hf.fld_eq, hz, -Nat.reducePow]

theorem roundTrips_vneg (m ctl ty z d a) : RoundTrips (.vneg m ctl ty z d a) :=
  roundTrips_word1 rfl rfl fun hw h hf => by
    have hz := rsv_sign ty z hw
    simp [decodeV, hf.fld_eq, hz, -Nat.reducePow]

theorem roundTrips_viadd (m ctl ty z sat d a b) : RoundTrips (.viadd m ctl ty z sat d a b) :=
  roundTrips_word1 rfl rfl fun hw h hf => by
    have hw' : ty.isFloat = false := by simpa using show (!ty.isFloat) = true from hw
    simp [decodeV, hf.fld_eq, hw', -Nat.reducePow]

theorem roundTrips_visub (m ctl ty z sat d a b) : RoundTrips (.visub m ctl ty z sat d a b) :=
  roundTrips_word1 rfl rfl fun hw h hf => by
    have hw' : ty.isFloat = false := by simpa using show (!ty.isFloat) = true from hw
    simp [decodeV, hf.fld_eq, hw', -Nat.reducePow]

theorem roundTrips_vimul (m ctl ty z sat hi d a b) : RoundTrips (.vimul m ctl ty z sat hi d a b) :=
  roundTrips_word1 rfl rfl fun hw h hf => by
    have hw' : ty.isFloat = false := by simpa using (Bool.and_eq_true_iff.1 hw).1
    simp [decodeV, hf.fld_eq, hw', shift_add_double_add, -Nat.reducePow]

theorem roundTrips_vshr (m ctl ty z d a b) : RoundTrips (.vshr m ctl ty z d a b) :=
  roundTrips_word1 rfl rfl fun hw h hf => by
    have hw' : ty.isFloat = false := by simpa using show (!ty.isFloat) = true from hw
    simp [decodeV, hf.fld_eq, hw', -Nat.reducePow]

theorem roundTrips_vcmp (m k ty z cc kd a b) : RoundTrips (.vcmp m k ty z cc kd a b) :=
  roundTrips_word1 rfl rfl fun hw h hf => by
    have hz := rsv_sign ty z (Bool.and_eq_true_iff.1 hw).1
    simp [decodeV, hf.fld_eq, hz, -Nat.reducePow]

theorem roundTrips_vcmpq (m k ty z all cc kd a b) : RoundTrips (.vcmpq m k ty z all cc kd a b) :=
  roundTrips_word1 rfl rfl fun hw h hf => by
    have hz := rsv_sign ty z (Bool.and_eq_true_iff.1 hw).1
    simp [decodeV, hf.fld_eq, hz, shift_add_shift_add, -Nat.reducePow]

theorem roundTrips_vsel (m k ty d a b) : RoundTrips (.vsel m k ty d a b) :=
  roundTrips_word1 rfl rfl fun _ h hf => by simp [decodeV, hf.fld_eq, -Nat.reducePow]

theorem roundTrips_vrmax (m k ty z q d a) : RoundTrips (.vrmax m k ty z q d a) :=
  roundTrips_word1 rfl rfl fun hw h hf => by
    have hz := rsv_sign ty z hw
    simp [decodeV, hf.fld_eq, hz, -Nat.reducePow]

theorem roundTrips_vqmax (m ty zd a b) : RoundTrips (.vqmax m ty zd a b) :=
  roundTrips_word1 rfl rfl fun _ h hf => by simp [decodeV, hf.fld_eq, -Nat.reducePow]

theorem roundTrips_vdq (m ctl ty rm part zs d a b) : RoundTrips (.vdq m ctl ty rm part zs d a b) :=
  roundTrips_word1 rfl rfl fun _ h hf => by simp [decodeV, hf.fld_eq, shift_add_shift_add, -Nat.reducePow]

theorem roundTrips_vrcpe (m ctl ty d a) : RoundTrips (.vrcpe m ctl ty d a) :=
  roundTrips_word1 rfl rfl fun _ h hf => by simp [decodeV, hf.fld_eq, -Nat.reducePow]

theorem roundTrips_vrsqe (m ctl ty d a) : RoundTrips (.vrsqe m ctl ty d a) :=
  roundTrips_word1 rfl rfl fun _ h hf => by simp [decodeV, hf.fld_eq, -Nat.reducePow]

theorem roundTrips_vaccRd (m acc d line col h vt rm ov) : RoundTrips (.vaccRd m acc d line col h vt rm ov) :=
  roundTrips_word1 rfl rfl fun _ h hf => by simp [decodeV, hf.fld_eq, shift_add_shift, -Nat.reducePow]

theorem roundTrips_vaccWr (m acc a line col h vt rm add) : RoundTrips (.vaccWr m acc a line col h vt rm add) :=
  roundTrips_word1 rfl rfl fun _ h hf => by simp [decodeV, hf.fld_eq, shift_add_shift, -Nat.reducePow]

theorem roundTrips_vcnt (m ty q d ka) : RoundTrips (.vcnt m ty q d ka) :=
  roundTrips_word1 rfl rfl fun _ h hf => by simp [decodeV, hf.fld_eq, -Nat.reducePow]

theorem roundTrips_vpopq (m ctl n d) : RoundTrips (.vpopq m ctl n d) :=
  roundTrips_word1 rfl rfl fun _ h hf => by simp [decodeV, hf.fld_eq, -Nat.reducePow]

theorem roundTrips_vstat (m c) : RoundTrips (.vstat m c) :=
  roundTrips_word rfl rfl fun _ h hf => by simp [decodeV, hf.fld_eq, -Nat.reducePow]

theorem roundTrips_vpushcBuffer (m k ty n a) : RoundTrips (.vpushc m k ty (.cb n) a) :=
  roundTrips_word1 rfl rfl fun _ h hf => by simp [decodeV, hf.fld_eq, -Nat.reducePow]

theorem roundTrips_vpushcQueue (m k ty n fl a) : RoundTrips (.vpushc m k ty (.q n fl) a) :=
  have hq : Bits 6 (32 + n.val) := bits_vdstCode (.q n) (by decide)
  roundTrips_word1 rfl rfl (ho := by simp [hq, -Nat.reducePow]) fun _ h hf => by
    have h4 : ¬ 32 + n.val < 4 := by omega
    have h40 : 32 + n.val < 40 := by omega
    simp [decodeV, hf.fld_eq, hq, h4, h40, -Nat.reducePow]

theorem roundTrips_vpopcFull (m ty d cb) : RoundTrips (.vpopc m ty .full d cb) :=
  roundTrips_word1 rfl rfl fun _ h hf => by simp [decodeV, hf.fld_eq, -Nat.reducePow]

theorem roundTrips_vpopcTail (m ty kE d cb) : RoundTrips (.vpopc m ty (.tail kE) d cb) :=
  roundTrips_word1 rfl rfl fun _ h hf => by simp [decodeV, hf.fld_eq, -Nat.reducePow]

theorem roundTrips_viota (m ctl ty pfx d) : RoundTrips (.viota m ctl ty pfx d) :=
  roundTrips_word1 rfl rfl fun hw h hf => by
    have hz : (if bit pfx = 1 then bit ctl.zm else 0) = 0 := by
      have : pfx = false ∨ ctl.zm = false := by simpa using (Bool.and_eq_true_iff.1 hw).2
      rcases this with h | h <;> simp [h]
    simp [decodeV, hf.fld_eq, hz, -Nat.reducePow]

theorem roundTrips_vrsum (m k ty z rm q sat d a) : RoundTrips (.vrsum m k ty z rm q sat d a) :=
  roundTrips_word1 rfl rfl fun hw h hf => by
    have hw' := (Bool.and_eq_true_iff.1 hw).2
    have hrsv : (if ty.isFloat = true then bit z else 0) + (if ty.isFloat = false then rmCode rm else bit sat) = 0 := by
      cases hty : ty.isFloat <;> simp [hty] at hw'
      · subst hw'; rfl
      · simp [hw']
    simp [decodeV, hf.fld_eq, hrsv, shift_add_double_add, -Nat.reducePow]

theorem roundTrips_vmovCopy (m ctl ty d a) : RoundTrips (.vmov m (.copy ctl ty d a)) :=
  roundTrips_word1 rfl rfl fun _ h hf => by simp [decodeV, decodeVmov, hf.fld_eq, -Nat.reducePow]

theorem roundTrips_vmovDs (m a lane) : RoundTrips (.vmov m (.ds a lane)) :=
  roundTrips_word1 rfl rfl fun _ h hf => by simp [decodeV, decodeVmov, hf.fld_eq, -Nat.reducePow]

theorem roundTrips_vmovDa (m a lane) : RoundTrips (.vmov m (.da a lane)) :=
  roundTrips_word1 rfl rfl fun _ h hf => by simp [decodeV, decodeVmov, hf.fld_eq, -Nat.reducePow]

theorem roundTrips_vmovFz (m d z) : RoundTrips (.vmov m (.fz d z)) :=
  roundTrips_word1 rfl rfl fun _ h hf => by simp [decodeV, decodeVmov, hf.fld_eq, -Nat.reducePow]

theorem roundTrips_vmovTz (m z a) : RoundTrips (.vmov m (.tz z a)) :=
  roundTrips_word1 rfl rfl fun _ h hf => by simp [decodeV, decodeVmov, hf.fld_eq, -Nat.reducePow]

theorem roundTrips_vmovFk (m d k) : RoundTrips (.vmov m (.fk d k)) :=
  roundTrips_word1 rfl rfl fun _ h hf => by simp [decodeV, decodeVmov, hf.fld_eq, -Nat.reducePow]

theorem roundTrips_vmovTk (m k a) : RoundTrips (.vmov m (.tk k a)) :=
  roundTrips_word1 rfl rfl fun _ h hf => by simp [decodeV, decodeVmov, hf.fld_eq, -Nat.reducePow]

@[simp] theorem bits_vrndCode {n : Nat} (r : VRnd) (h : 3 ≤ n) : Bits n (vrndCode r) := by
  cases r <;> simp [vrndCode, h]

@[simp] theorem bits_vrndSrc {n : Nat} (r : VRnd) (h : 6 ≤ n) : Bits n (vrndSrc r) := by
  cases r <;> simp [vrndSrc, h]

theorem rmCode_lt_four {rm : RMode} (h : rm.direct = true) : rmCode rm < 4 := by cases rm <;> simp [RMode.direct, rmCode] at h ⊢

/-- The rounding of a conversion is read back from its code and its random source (08 R286, R288). -/
theorem vrndOf_vrndCode {r : VRnd} (h : r.wf = true) : vrndOf (vrndCode r) (vrndSrc r) = some r := by
  cases r with
  | mode rm => 
    have := rmCode_lt_four h
    simp [vrndOf, vrndCode]; omega
  | sr r => simp [vrndOf, vrndCode, vrndSrc]

/-- A conversion with an explicit rounding mode has no random source. -/
theorem vrndSrc_reserved (r : VRnd) : (if vrndCode r < 4 then vrndSrc r else 0) = 0 := by
  cases r with
  | mode rm => exact ite_self 0
  | sr r => rfl

theorem roundTrips_vqcvt (m ty rnd part zs d a b) : RoundTrips (.vqcvt m ty rnd part zs d a b) :=
  roundTrips_word1 rfl rfl fun hw h hf => by
    have hr := vrndOf_vrndCode (Bool.and_eq_true_iff.1 (Bool.and_eq_true_iff.1 hw).1).2
    simp [decodeV, hf.fld_eq, hr, vrndSrc_reserved, shift_add_shift_add, -Nat.reducePow]

theorem roundTrips_vcvt (m ctl dst src sz dz ov part rnd d a) : RoundTrips (.vcvt m ctl dst src sz dz ov part rnd d a) :=
  roundTrips_word1 rfl rfl fun hw h hf => by
    have hr := vrndOf_vrndCode (Bool.and_eq_true_iff.1 hw).2
    simp [decodeV, hf.fld_eq, hr, vrndSrc_reserved, shift_add_shift, shift_add_shift_add, shift_add_double, shift_add_double_add, -Nat.reducePow]

/-- What the decoder reads of the b operand and the sub field of a `VSHUF` (08 R285). -/
structure ShufFields (kind : ShufKind) (b sub : Nat) : Prop where
  opndBits : Bits 6 b
  subBits : Bits 8 sub
  reserved : (if fld sub 5 3 ≤ 3 ∨ fld sub 5 3 = 5 then fld sub 0 5 else 0) + (if fld sub 5 3 = 4 ∨ fld sub 5 3 = 5 then b else 0) = 0
  kindOf : shufOf (fld sub 5 3) (fld sub 0 5) b = some kind

theorem shufFields (kind : ShufKind) : ShufFields kind (shufCode kind).1 (shufCode kind).2 := by
  cases kind with
  | xswap t =>
    constructor <;> simp [shufCode, shufOf, Bits.join, -Nat.reducePow]
  | slide b t =>
    constructor <;> simp [shufCode, shufOf, Bits.join, -Nat.reducePow]
  | rev => constructor <;> simp [shufCode, shufOf, fld, Bits]
  | ilvlo b | ilvhi b | even b | odd b => refine ⟨bits_vsrcCode b le_rfl, ?_, ?_, ?_⟩ <;> simp [shufCode, shufOf, fld, Bits]

theorem roundTrips_vshuf (m ctl ty kind d a) : RoundTrips (.vshuf m ctl ty kind d a) :=
  have hk := shufFields kind
  roundTrips_word1 rfl rfl (ho := by simp [hk.opndBits, -Nat.reducePow]) (hp := by simp [hk.subBits, -Nat.reducePow]) fun hw h hf => by
    simp [decodeV, hf.fld_eq, hk.opndBits, hk.subBits, hk.reserved, hk.kindOf, -Nat.reducePow]

theorem roundTrips_vpushc (m k ty d a) : RoundTrips (.vpushc m k ty d a) := by
  cases d with
  | cb n => exact roundTrips_vpushcBuffer m k ty n a
  | q n fl => exact roundTrips_vpushcQueue m k ty n fl a

theorem roundTrips_vpopc (m ty form d cb) : RoundTrips (.vpopc m ty form d cb) := by
  cases form with
  | full => exact roundTrips_vpopcFull m ty d cb
  | tail kE => exact roundTrips_vpopcTail m ty kE d cb

theorem roundTrips_vmov (m form) : RoundTrips (.vmov m form) := by
  cases form with
  | copy ctl ty d a => exact roundTrips_vmovCopy m ctl ty d a
  | ds a lane => exact roundTrips_vmovDs m a lane
  | da a lane => exact roundTrips_vmovDa m a lane
  | fz d z => exact roundTrips_vmovFz m d z
  | tz z a => exact roundTrips_vmovTz m z a
  | fk d k => exact roundTrips_vmovFk m d k
  | tk k a => exact roundTrips_vmovTk m k a

end Sys2Proof.Encoding
end

