-- ==== Sys2Proof/Proofs/WordsT.lean ====
section
/-!
SUPPORT. The words of the transform engine decode to what they encode (11).
-/

namespace Sys2Proof.Encoding

-- The proofs share the decoder's equation lemmas; side by side each would hold a thread while it waits for them.
set_option Elab.async false

@[simp] theorem tformBits_image (p : Nat) (td : Fin 64) : tformBits p (.image td) = (td.val * 2 ^ 7 + p) * 2 ^ 5 := by
  rw [tformBits, shift_add_shift (by decide)]

@[simp] theorem tformBits_ring (p : Nat) (gi go : Fin 16) : tformBits p (.ring gi go) = ((gi.val * 2 ^ 3 + p) * 2 + 1) * 2 ^ 4 + go.val := by
  rw [tformBits, shift_add_shift (by decide), shift_add_pow (by decide), Nat.pow_one]

section
variable {m : Dep} {op : Nat} {p : Fin 8}

/-- A transform of an image and one between rings, under one opcode (11 R379). -/
theorem roundTrips_transform {img : Fin 8 → Fin 64 → Instr} {rng : Fin 8 → Fin 16 → Fin 16 → Instr} (hop : op < 2 ^ 7) (hext : ∀ h, extCount Engine.T.tag op h = some 0)
    (hdec : ∀ h, decodeT op h 0 m = rsv (tformRsv h) (.ok (if fld h 4 1 = 1 then rng (Fin.ofNat 8 (fld h 5 3)) (Fin.ofNat 16 (fld h 8 4)) (Fin.ofNat 16 (fld h 0 4))
      else img (Fin.ofNat 8 (fld h 5 3)) (Fin.ofNat 64 (fld h 12 6))))) :
    (∀ td, (img p td).head = some ⟨.T, m, 0⟩ → encode (img p td) = assemble Engine.T.tag op m (tformBits p.val (.image td)) [] → RoundTrips (img p td))
    ∧ ∀ gi go, (rng p gi go).head = some ⟨.T, m, 0⟩ → encode (rng p gi go) = assemble Engine.T.tag op m (tformBits p.val (.ring gi go)) [] → RoundTrips (rng p gi go) :=
  ⟨fun td hh henc => roundTrips_word hh henc (hop := hop) (hext := fun h _ => hext h) fun _ h hf => by
      simp [hdec, tformRsv, hf.fld_eq, -Nat.reducePow],
    fun gi go hh henc => roundTrips_word hh henc (hop := hop) (hext := fun h _ => hext h) fun _ h hf => by
      simp [hdec, tformRsv, hf.fld_eq, -Nat.reducePow]⟩
end

theorem within_tformBits (p : Fin 8) (f : TForm) : Within 18 (tformBits p.val f) := by
  cases f <;> simp [-Nat.reducePow]

theorem tform_read {h : Nat} {p : Fin 8} {f : TForm} (hf : OperandBits h (tformBits p.val f)) : tformRsv h = 0 ∧ tformOf h = f ∧ fld h 5 3 = p.val := by
  cases f <;> simp [tformRsv, tformOf, hf.fld_eq, -Nat.reducePow]

theorem roundTrips_txStage (m p f st inv) : RoundTrips (.txStage m p f st inv) :=
  roundTrips_word1 rfl rfl (ho := within_tformBits p f) fun _ h hf => by
    obtain ⟨h0, hform, hp⟩ := tform_read hf
    simp [decodeT, h0, hform, hp, shift_add_shift, -Nat.reducePow]

theorem roundTrips_txScalePow2 (m f ex rm) : RoundTrips (.txScale m f (.pow2 ex) rm) :=
  roundTrips_word1 rfl rfl (ho := within_tformBits 0 f) fun _ h hf => by
    obtain ⟨h0, hform, hp⟩ := tform_read (p := 0) hf
    simp [decodeT, h0, hform, hp, -Nat.reducePow]

theorem roundTrips_txScaleDt (m f rm) : RoundTrips (.txScale m f .dt rm) :=
  roundTrips_word1 rfl rfl (ho := within_tformBits 0 f) fun _ h hf => by
    obtain ⟨h0, hform, hp⟩ := tform_read (p := 0) hf
    simp [decodeT, h0, hform, hp, pow_add_shift, -Nat.reducePow]

theorem roundTrips_txPlan (m p s) : RoundTrips (.txPlan m p s) :=
  roundTrips_word1 rfl rfl fun _ h hf => by simp [decodeT, hf.fld_eq, shift_add_shift, -Nat.reducePow]

theorem roundTrips_txTwidImage (m td o pos q) : RoundTrips (.txTwid m (.image td) o pos q) :=
  roundTrips_word1 rfl rfl fun _ h hf => by simp [decodeT, hf.fld_eq, shift_add_shift, -Nat.reducePow]

theorem roundTrips_txTwidRing (m g o pos q) : RoundTrips (.txTwid m (.ring g) o pos q) :=
  roundTrips_word1 rfl rfl fun _ h hf => by simp [decodeT, hf.fld_eq, shift_add_shift, shift_add_pow, -Nat.reducePow]

theorem roundTrips_txLeg (m td g o d0) : RoundTrips (.txLeg m td g o d0) :=
  roundTrips_word1 rfl rfl fun _ h hf => by simp [decodeT, hf.fld_eq, -Nat.reducePow]

theorem roundTrips_txRing (m td g) : RoundTrips (.txRing m td g) :=
  roundTrips_word rfl rfl fun _ h hf => by simp [decodeT, hf.fld_eq, -Nat.reducePow]

theorem roundTrips_txSemWait (m s v) : RoundTrips (.txSemWait m s v) :=
  roundTrips_word rfl rfl fun _ h hf => by simp [decodeT, hf.fld_eq, -Nat.reducePow]

theorem roundTrips_txSemSig (m s v) : RoundTrips (.txSemSig m s v) :=
  roundTrips_word rfl rfl fun _ h hf => by simp [decodeT, hf.fld_eq, shift_add_pow, -Nat.reducePow]

theorem roundTrips_txStat (m c) : RoundTrips (.txStat m c) :=
  roundTrips_word rfl rfl fun _ h hf => by simp [decodeT, hf.fld_eq, -Nat.reducePow]

theorem roundTrips_txCplx (m td g conj kp bc) : RoundTrips (.txCplx m td g conj kp bc) :=
  roundTrips_word rfl rfl fun _ h hf => by
    simp [decodeT, hf.fld_eq, shift_add_shift, shift_add_double_add, -Nat.reducePow]

theorem roundTrips_txTwid (m dst o pos q) : RoundTrips (.txTwid m dst o pos q) := by
  cases dst with
  | image td => exact roundTrips_txTwidImage m td o pos q
  | ring g => exact roundTrips_txTwidRing m g o pos q

theorem roundTrips_txScale (m f c rm) : RoundTrips (.txScale m f c rm) := by
  cases c with
  | pow2 e => exact roundTrips_txScalePow2 m f e rm
  | dt => exact roundTrips_txScaleDt m f rm

end Sys2Proof.Encoding
end

