-- ==== Sys2Proof/Proofs/WordsF.lean ====
section
/-!
SUPPORT. The words of the fabric engine decode to what they encode (12).
-/

namespace Sys2Proof.Encoding

-- The proofs share the decoder's equation lemmas; side by side each would hold a thread while it waits for them.
set_option Elab.async false

/-- Operand bits of a FAB word in Horner form (02 R65, 12 R401). -/
theorem fabBits_eq (opnd : Nat) (hd : FabHead) (mod : Nat) :
    fabBits opnd hd mod = (((opnd * 2 ^ 4 + scopeCode hd.scope) * 2 ^ 2 + fclsCode hd.cls) * 2 ^ 4 + mod) * 2 ^ 2 + hd.xc.val := by
  simp only [fabBits, shift_add_shift, Nat.reduceLeDiff, Nat.reduceSub]

/-- The first payload of a FAB word: origin registers and slot (12 R401). -/
theorem slot_read (oa ob : Fin 32) (slot : Option (BitVec 8)) :
    let p := origins oa ob + slotBits slot
    Within 25 p ∧ fld p 20 5 = oa.val ∧ fld p 15 5 = ob.val ∧ slotOf p = slot ∧ slotRsv p = 0 := by
  cases slot <;>
    simp [slotBits, slotOf, slotRsv, pow_add_shift, shift_add_shift, shift_add_pow_add, -Nat.reducePow]

/-- What the operand decoders read of a FAB word's head and first payload. -/
structure FabFields (h p1 opnd mod : Nat) (hd : FabHead) : Prop where
  opnd : fld h 12 6 = opnd
  mode : ∀ {lo n : Nat}, 2 ≤ lo → lo + n ≤ 6 → fld h lo n = fld mod (lo - 2) n
  head : fabOf h p1 = some hd
  reserved : slotRsv p1 = 0

theorem fabFields_of_operandBits {h opnd mod : Nat} {hd : FabHead} (ho : Bits 6 opnd) (hm : Bits 4 mod) (hf : OperandBits h (fabBits opnd hd mod)) :
    FabFields h (origins hd.oa hd.ob + slotBits hd.slot) opnd mod hd := by
  obtain ⟨-, hoa, hob, hslot, hrsv⟩ := slot_read hd.oa hd.ob hd.slot
  generalize origins hd.oa hd.ob + slotBits hd.slot = p1 at *
  rw [fabBits_eq] at hf
  constructor
  · simp [hf.fld_eq, ho, hm, -Nat.reducePow]
  · intro lo n h2 h6
    rw [hf.fld_eq (by omega), fld_shift_add_high h2 (by simp), fld_shift_add_low (by omega)]
  · simp [fabOf, hoa, hob, hslot, hf.fld_eq, hm, -Nat.reducePow]
  · exact hrsv

section
variable {i : Instr} {m : Dep} {op opnd mod q : Nat} {hd : FabHead}

/-- A FAB word with a target: its decoder sees its operand, its mode bits and its target (02 R65, 12 R401). -/
theorem roundTrips_fab (ho : Bits 6 opnd) (hm : Bits 4 mod) (hq : Within 25 q) (hh : i.head = some ⟨.F, m, hd.xc.val⟩)
    (henc : encode i = assemble Engine.F.tag op m (fabBits opnd hd mod) (fabPayloads hd q)) (hxc : i.operandsOk = true → 1 ≤ hd.xc.val)
    (hread : i.operandsOk = true → ∀ h p1, FabFields h p1 opnd mod hd → decodeF op h p1 (if 2 ≤ hd.xc.val then q else 0) 0 m = .ok i)
    (hop : op < 2 ^ 7 := by decide) (hext : ∀ h, extCount Engine.F.tag op h = some (fld h 0 2) := by exact fun _ => rfl) : RoundTrips i := by
  refine roundTrips_wordOf (r := 0) hh henc hop ?_ (slot_read ..).1 hq (by simp) (fun h hf => ?_) fun hw h hf => ?_
  · rw [fabBits_eq]; simp [ho, hm, -Nat.reducePow]
  · rw [fabBits_eq] at hf
    rw [hext]; simp [hf.fld_eq, -Nat.reducePow]
  · rw [decodeOperands_F, ite_self, if_pos (hxc hw)]
    exact hread hw h _ (fabFields_of_operandBits ho hm hf)

/-- A FAB word that has its second payload. -/
theorem roundTrips_fab2 (ho : Bits 6 opnd) (hm : Bits 4 mod) (hq : Within 25 q) (hh : i.head = some ⟨.F, m, hd.xc.val⟩)
    (henc : encode i = assemble Engine.F.tag op m (fabBits opnd hd mod) (fabPayloads hd q)) (hxc : i.operandsOk = true → 2 ≤ hd.xc.val)
    (hread : ∀ h p1, FabFields h p1 opnd mod hd → decodeF op h p1 q 0 m = .ok i)
    (hop : op < 2 ^ 7 := by decide) (hext : ∀ h, extCount Engine.F.tag op h = some (fld h 0 2) := by exact fun _ => rfl) : RoundTrips i :=
  roundTrips_fab ho hm hq hh henc (fun hw => le_trans (by decide) (hxc hw)) (fun hw h p1 hf => by rw [if_pos (hxc hw)]; exact hread h p1 hf) hop hext

end

@[simp] theorem relOf_bit (b : Bool) : relOf (bit b * 2) = some b := by cases b <;> rfl

theorem roundTrips_fbLd (m td hd ds z acq) : RoundTrips (.fbLd m td hd ds z acq) :=
  have hm : Bits 4 (bit ds * 2 ^ 3 + bit z * 2 ^ 2 + bit acq) := by
    rw [shift_add_shift (by decide)]; exact .join (by decide) (.join (by decide) (by simp) (by simp)) (by simp)
  roundTrips_fab (opnd := td.val) (by simp) hm (by simp) rfl rfl of_decide_eq_true fun _ h p1 hf => by
    cases acq <;> simp [decodeF, hf.opnd, hf.mode, hf.head, hf.reserved, shift_add_shift, -Nat.reducePow]

theorem roundTrips_fbSt (m td hd rel) : RoundTrips (.fbSt m td hd rel) :=
  roundTrips_fab (opnd := td.val) (by simp) (by simp) (by simp) rfl rfl of_decide_eq_true fun _ h p1 hf => by
    simp [decodeF, hf.opnd, hf.mode, hf.head, hf.reserved]

theorem roundTrips_fbAmo (m td hd nr z ord op ra rb) : RoundTrips (.fbAmo m td hd nr z ord op ra rb) :=
  have hm : Bits 4 (bit nr * 2 ^ 3 + bit z * 2 ^ 2 + ordCode ord) := by
    rw [shift_add_shift (by decide)]; exact .join (by decide) (.join (by decide) (by simp) (by simp)) (by simp)
  roundTrips_fab2 (opnd := td.val) (by simp) hm (by simp [shift_add_shift, -Nat.reducePow]) rfl rfl of_decide_eq_true fun h p1 hf => by
    simp [decodeF, hf.opnd, hf.mode, hf.head, hf.reserved, shift_add_shift, -Nat.reducePow]

theorem roundTrips_fbGadd (m td hd f rel ra) : RoundTrips (.fbGadd m td hd f rel ra) :=
  roundTrips_fab2 (opnd := td.val) (by simp) (.join (by decide) (by simp) (by simp)) (by simp [-Nat.reducePow]) rfl rfl of_decide_eq_true fun h p1 hf => by
    simp [decodeF, hf.opnd, hf.mode, hf.head, hf.reserved, -Nat.reducePow]

theorem roundTrips_fbMcst (m td hd ack rel ap) : RoundTrips (.fbMcst m td hd ack rel ap) :=
  roundTrips_fab2 (opnd := td.val) (by simp) (.join (by decide) (by simp) (by simp)) (by simp [-Nat.reducePow]) rfl rfl of_decide_eq_true fun h p1 hf => by
    simp [decodeF, hf.opnd, hf.mode, hf.head, hf.reserved, -Nat.reducePow]

theorem roundTrips_fbMcld (m td hd red q z ap) : RoundTrips (.fbMcld m td hd red q z ap) :=
  have hm : Bits 4 (redCode red * 2 ^ 2 + bit q * 2 + bit z) := by
    rw [Nat.add_assoc]; exact .join (by decide) (by simp) (.join_double (by decide) (by simp) (by simp))
  roundTrips_fab2 (opnd := td.val) (by simp) hm (by simp [-Nat.reducePow]) rfl rfl of_decide_eq_true fun h p1 hf => by
    simp [decodeF, hf.opnd, hf.mode, hf.head, hf.reserved, shift_add_double, -Nat.reducePow]

theorem roundTrips_fbColl (m fc s xc oa slot) : RoundTrips (.fbColl m fc s xc oa slot) := by
  obtain ⟨hp, hoa, hob, hslot, hrsv⟩ := slot_read oa 0 slot
  refine roundTrips_wordOf (e := .F) (op := 0x0A) (q := 0) (r := 0) rfl rfl (by decide) (by simp [shift_add_shift, -Nat.reducePow]) hp (by simp) (by simp)
    (fun h hf => ?_) fun hw h hf => ?_
  · simp [extCount, Engine.tag, hf.fld_eq, shift_add_shift, -Nat.reducePow]
  · rw [if_pos (of_decide_eq_true hw)]
    generalize origins oa 0 + slotBits slot = p1 at *
    simp [decodeF, hf.fld_eq, hoa, hob, hslot, hrsv, shift_add_shift, -Nat.reducePow]

/-- An FB.FENCE word: its mode bits say which (12 R401). -/
theorem roundTrips_fbFence {i : Instr} {m : Dep} {s : Scope} {c : Nat} (hc : Bits 4 c) (hh : i.head = some ⟨.F, m, 0⟩)
    (henc : encode i = assemble Engine.F.tag 0x04 m (scopeCode s * 2 ^ 8 + c * 2 ^ 2) [])
    (hread : ∀ h, fld h 12 6 = 0 → fld h 6 2 = 0 → fld h 0 2 = 0 → fld h 8 4 = scopeCode s → fld h 2 4 = c → decodeF 0x04 h 0 0 0 m = .ok i) : RoundTrips i :=
  have hc' := Bits.mono hc (by decide : 4 ≤ 6)
  roundTrips_word hh henc (hext := fun h hf => by simp [extCount, Engine.tag, hf.fld_eq, shift_add_shift, -Nat.reducePow])
    (ho := by simp [shift_add_shift, hc', -Nat.reducePow]) fun _ h hf => by
    rw [decodeOperands_F]
    apply hread <;> simp [hf.fld_eq, shift_add_shift, hc, hc', -Nat.reducePow]

theorem roundTrips_fbFenceAcq (m s) : RoundTrips (.fbFenceAcq m s) :=
  roundTrips_fbFence (c := 0) (by simp) rfl rfl fun h h0 h1 h2 h3 h4 => by simp [decodeF, h0, h1, h2, h3, h4]

theorem roundTrips_fbFenceRel (m s) : RoundTrips (.fbFenceRel m s) :=
  roundTrips_fbFence (c := 1) (by simp) rfl rfl fun h h0 h1 h2 h3 h4 => by simp [decodeF, h0, h1, h2, h3, h4]

theorem roundTrips_fbFenceAr (m s) : RoundTrips (.fbFenceAr m s) :=
  roundTrips_fbFence (c := 2) (by simp) rfl rfl fun h h0 h1 h2 h3 h4 => by simp [decodeF, h0, h1, h2, h3, h4]

theorem roundTrips_fbFenceSc (m s) : RoundTrips (.fbFenceSc m s) :=
  roundTrips_fbFence (c := 3) (by simp) rfl rfl fun h h0 h1 h2 h3 h4 => by simp [decodeF, h0, h1, h2, h3, h4]

theorem roundTrips_fbSub (m td n l rp) : RoundTrips (.fbSub m td n l rp) :=
  roundTrips_word1 rfl rfl fun _ h hf => by simp [decodeF, hf.fld_eq, -Nat.reducePow]

theorem roundTrips_fbUnsub (m n) : RoundTrips (.fbUnsub m n) :=
  roundTrips_word rfl rfl fun _ h hf => by simp [decodeF, hf.fld_eq, -Nat.reducePow]

theorem roundTrips_fbSflush (m) : RoundTrips (.fbSflush m) :=
  roundTrips_word rfl rfl fun _ h hf => by simp [decodeF, hf.fld_eq, -Nat.reducePow]

theorem roundTrips_fbCwait (m fc v) : RoundTrips (.fbCwait m fc v) :=
  roundTrips_word rfl rfl fun _ h hf => by simp [decodeF, hf.fld_eq, -Nat.reducePow]

theorem roundTrips_fbTimeNow (m) : RoundTrips (.fbTimeNow m) :=
  roundTrips_word rfl rfl fun _ h hf => by simp [decodeF, hf.fld_eq, -Nat.reducePow]

theorem roundTrips_fbTimeWin (m) : RoundTrips (.fbTimeWin m) :=
  roundTrips_word rfl rfl fun _ h hf => by simp [decodeF, hf.fld_eq, -Nat.reducePow]

theorem roundTrips_fbTimeUntil (m n) : RoundTrips (.fbTimeUntil m n) :=
  roundTrips_word rfl rfl fun _ h hf => by simp [decodeF, hf.fld_eq, -Nat.reducePow]

theorem roundTrips_fbStat (m c) : RoundTrips (.fbStat m c) :=
  roundTrips_word rfl rfl fun _ h hf => by simp [decodeF, hf.fld_eq, -Nat.reducePow]

end Sys2Proof.Encoding
end

