-- ==== Sys2Proof/Proofs/DecodeEncode.lean ====
section
/-!
Decoding undoes encoding, from the words of each engine.
-/

namespace Sys2Proof.Encoding

/-- Every instruction is read back from its words (02 R37, R48, R65 to R70). -/
theorem roundTrips (i : Instr) : RoundTrips i := by
  cases i with
  | nop m => exact roundTrips_bare (by decide) (fun _ => rfl) rfl rfl fun _ => rfl
  | add m d a b => exact roundTrips_reg3 (i := .add m) (by decide) (fun _ => rfl) rfl rfl fun _ => rfl
  | sub m d a b => exact roundTrips_reg3 (i := .sub m) (by decide) (fun _ => rfl) rfl rfl fun _ => rfl
  | mul m d a b => exact roundTrips_reg3 (i := .mul m) (by decide) (fun _ => rfl) rfl rfl fun _ => rfl
  | and m d a b => exact roundTrips_reg3 (i := .and m) (by decide) (fun _ => rfl) rfl rfl fun _ => rfl
  | or m d a b => exact roundTrips_reg3 (i := .or m) (by decide) (fun _ => rfl) rfl rfl fun _ => rfl
  | xor m d a b => exact roundTrips_reg3 (i := .xor m) (by decide) (fun _ => rfl) rfl rfl fun _ => rfl
  | shl m d a b => exact roundTrips_reg3 (i := .shl m) (by decide) (fun _ => rfl) rfl rfl fun _ => rfl
  | shr m d a b => exact roundTrips_reg3 (i := .shr m) (by decide) (fun _ => rfl) rfl rfl fun _ => rfl
  | li m xc d imm => exact roundTrips_li m xc d imm
  | mov m d a => exact roundTrips_mov m d a
  | movFromDs m d => exact roundTrips_movFromDs m d
  | movToDa m a => exact roundTrips_movToDa m a
  | movToDv m a => exact roundTrips_movToDv m a
  | movToDt m a => exact roundTrips_movToDt m a
  | cmp m cc nq d a b => exact roundTrips_cmp m cc nq d a b
  | br m off => exact roundTrips_target (i := .br m) (by decide) (fun _ => rfl) rfl rfl fun _ => rfl
  | brc m off => exact roundTrips_target (i := .brc m) (by decide) (fun _ => rfl) rfl rfl fun _ => rfl
  | call m off => exact roundTrips_target (i := .call m) (by decide) (fun _ => rfl) rfl rfl fun _ => rfl
  | ret m => exact roundTrips_bare (by decide) (fun _ => rfl) rfl rfl fun _ => rfl
  | loop m lc cnt off => exact roundTrips_loop m lc cnt off
  | endl m lc rot => exact roundTrips_endl m lc rot
  | lexit m cancel off => exact roundTrips_lexit m cancel off
  | semSigImm m sem val => exact roundTrips_semSigImm m sem val
  | semSigReg m sem r => exact roundTrips_semSigReg m sem r
  | semWaitImm m sem val => exact roundTrips_semWaitImm m sem val
  | semWaitReg m sem r => exact roundTrips_semWaitReg m sem r
  | drain m => exact roundTrips_bare (by decide) (fun _ => rfl) rfl rfl fun _ => rfl
  | cairn m lvl => exact roundTrips_cairn m lvl
  | iter m off => exact roundTrips_target (i := .iter m) (by decide) (fun _ => rfl) rfl rfl fun _ => rfl
  | stagep m => exact roundTrips_bare (by decide) (fun _ => rfl) rfl rfl fun _ => rfl
  | exit m => exact roundTrips_bare (by decide) (fun _ => rfl) rfl rfl fun _ => rfl
  | trap m code => exact roundTrips_trap m code
  | csrRd m r csr => exact roundTrips_csrRd m r csr
  | csrWr m r csr => exact roundTrips_csrWr m r csr
  | ld m ma sz z dst => exact roundTrips_ld m ma sz z dst
  | st m ma sz src => exact roundTrips_st m ma sz src
  | adda m d a b => exact roundTrips_adda m d a b
  | lia m xc d imm => exact roundTrips_lia m xc d imm
  | mova m d a => exact roundTrips_mova m d a
  | movaToDs m a => exact roundTrips_movaToDs m a
  | movaToDv m a => exact roundTrips_movaToDv m a
  | movaToDt m a => exact roundTrips_movaToDt m a
  | tdSet m td i r => exact roundTrips_tdSet m td i r
  | tdGet m td i r => exact roundTrips_tdGet m td i r
  | tmov m td ch st oa ob => exact roundTrips_tmov m td ch st oa ob
  | qbind m td q wr oa ob => exact roundTrips_qbind m td q wr oa ob
  | qend m q => exact roundTrips_qend m q
  | segqState m d a => exact roundTrips_segqState m d a
  | segqProbe m d a => exact roundTrips_segqProbe m d a
  | tlbinvAll m => exact roundTrips_tlbinvAll m
  | tlbinvPage m a => exact roundTrips_tlbinvPage m a
  | tlbinvSeg m a => exact roundTrips_tlbinvSeg m a
  | astat m d => exact roundTrips_astat m d
  | astatClr m d a => exact roundTrips_astatClr m d a
  | astatMiss m d => exact roundTrips_astatMiss m d
  | fenceAcq m scope => exact roundTrips_fenceAcq m scope
  | fenceRel m scope => exact roundTrips_fenceRel m scope
  | fenceAr m scope => exact roundTrips_fenceAr m scope
  | fenceSc m scope => exact roundTrips_fenceSc m scope
  | fenceXp m => exact roundTrips_fenceXp m
  | amo m ma w8 op ord scope z nr d ra => exact roundTrips_amo m ma w8 op ord scope z nr d ra
  | cas m ma w8 ord scope z d ra => exact roundTrips_cas m ma w8 ord scope z d ra
  | gadd m ma fmt ord scope d => exact roundTrips_gadd m ma fmt ord scope d
  | grd m ma fmt rm ord scope d ra => exact roundTrips_grd m ma fmt rm ord scope d ra
  | gclr m ma ord scope d => exact roundTrips_gclr m ma ord scope d
  | waita m ma w8 scope d ra => exact roundTrips_waita m ma w8 scope d ra
  | wakea m ma scope d => exact roundTrips_wakea m ma scope d
  | convey m ma d => exact roundTrips_convey m ma d
  | platQ m ma d => exact roundTrips_platQ m ma d
  | platWait m ma d => exact roundTrips_platWait m ma d
  | platShare m ma d => exact roundTrips_platShare m ma d
  | cp m td ch kind oa ob => exact roundTrips_cp m td ch kind oa ob
  | cpl m td ch kind oa ob rc rs => exact roundTrips_cpl m td ch kind oa ob rc rs
  | cpring m g mode prod cons => exact roundTrips_cpring m g mode prod cons
  | cpwpRd m a ch => exact roundTrips_cpwpRd m a ch
  | cpwpWait m a ch => exact roundTrips_cpwpWait m a ch
  | cpwpDs m ch => exact roundTrips_cpwpDs m ch
  | cpcan m ch => exact roundTrips_cpcan m ch
  | cpcanAll m => exact roundTrips_cpcanAll m
  | siftEnc m ch pasp sasp rp rmap rsec rn => exact roundTrips_siftEnc m ch pasp sasp rp rmap rsec rn
  | siftDec m ch dst sasp rmap rsec rn => exact roundTrips_siftDec m ch dst sasp rmap rsec rn
  | accmov m acc ch st asp base => exact roundTrips_accmov m acc ch st asp base
  | mxShape m rm1 cm1 nq nd => exact roundTrips_mxShape m rm1 cm1 nq nd
  | mxMma m acc ga gb ka kb w s set => exact roundTrips_mxMma m acc ga gb ka kb w s set
  | mxGer m acc ga gb ka kb w s set => exact roundTrips_mxGer m acc ga gb ka kb w s set
  | mxBatch m acc ga gb nm1 ka kb set => exact roundTrips_mxBatch m acc ga gb nm1 ka kb set
  | mxZero m acc => exact roundTrips_mxZero m acc
  | mxLdacc m acc g kp add z => exact roundTrips_mxLdacc m acc g kp add z
  | mxStacc m acc g rm ov z => exact roundTrips_mxStacc m acc g rm ov z
  | mxAccadd m d s int neg => exact roundTrips_mxAccadd m d s int neg
  | mxAccmov m d s swap => exact roundTrips_mxAccmov m d s swap
  | mxCseq m imm => exact roundTrips_mxCseq m imm
  | mxRing m td g => exact roundTrips_mxRing m td g
  | mxPop m g => exact roundTrips_mxPop m g
  | mxFmt m g fmt => exact roundTrips_mxFmt m g fmt
  | mxScale m g val => exact roundTrips_mxScale m g val
  | mxTrn m acc => exact roundTrips_mxTrn m acc
  | mxMode m negp za zb => exact roundTrips_mxMode m negp za zb
  | mxSemWait m sem val => exact roundTrips_mxSemWait m sem val
  | mxSemSig m sem val => exact roundTrips_mxSemSig m sem val
  | mxStat m clr => exact roundTrips_mxStat m clr
  | vadd m ctl ty rm d a b => exact roundTrips_vfloat (i := .vadd m) (by decide) (fun _ => rfl) rfl rfl fun _ _ => rfl
  | vsub m ctl ty rm d a b => exact roundTrips_vfloat (i := .vsub m) (by decide) (fun _ => rfl) rfl rfl fun _ _ => rfl
  | vmul m ctl ty rm d a b => exact roundTrips_vfloat (i := .vmul m) (by decide) (fun _ => rfl) rfl rfl fun _ _ => rfl
  | vfma m ctl ty rm np nc d a b c => exact roundTrips_vfma m ctl ty rm np nc d a b c
  | vmin m ctl ty z d a b => exact roundTrips_vmin m ctl ty z d a b
  | vmax m ctl ty z d a b => exact roundTrips_vmax m ctl ty z d a b
  | vabs m ctl ty z d a => exact roundTrips_vabs m ctl ty z d a
  | vneg m ctl ty z d a => exact roundTrips_vneg m ctl ty z d a
  | viadd m ctl ty z sat d a b => exact roundTrips_viadd m ctl ty z sat d a b
  | visub m ctl ty z sat d a b => exact roundTrips_visub m ctl ty z sat d a b
  | vimul m ctl ty z sat hi d a b => exact roundTrips_vimul m ctl ty z sat hi d a b
  | vand m ctl ty d a b => exact roundTrips_vpair (i := .vand m) (by decide) (fun _ => rfl) rfl rfl fun _ _ => rfl
  | vor m ctl ty d a b => exact roundTrips_vpair (i := .vor m) (by decide) (fun _ => rfl) rfl rfl fun _ _ => rfl
  | vxor m ctl ty d a b => exact roundTrips_vpair (i := .vxor m) (by decide) (fun _ => rfl) rfl rfl fun _ _ => rfl
  | vshl m ctl ty d a b => exact roundTrips_vpair (i := .vshl m) (by decide) (fun _ => rfl) rfl rfl fun _ _ => rfl
  | vshr m ctl ty z d a b => exact roundTrips_vshr m ctl ty z d a b
  | vcmp m k ty z cc kd a b => exact roundTrips_vcmp m k ty z cc kd a b
  | vcmpq m k ty z all cc kd a b => exact roundTrips_vcmpq m k ty z all cc kd a b
  | vsel m k ty d a b => exact roundTrips_vsel m k ty d a b
  | vrsum m k ty z rm q sat d a => exact roundTrips_vrsum m k ty z rm q sat d a
  | vrmax m k ty z q d a => exact roundTrips_vrmax m k ty z q d a
  | vcvt m ctl dst src sz dz ov part rnd d a => exact roundTrips_vcvt m ctl dst src sz dz ov part rnd d a
  | vqmax m ty zd a b => exact roundTrips_vqmax m ty zd a b
  | vqcvt m ty rnd part zs d a b => exact roundTrips_vqcvt m ty rnd part zs d a b
  | vdq m ctl ty rm part zs d a b => exact roundTrips_vdq m ctl ty rm part zs d a b
  | vperm m ctl ty d a b => exact roundTrips_vpair (i := .vperm m) (by decide) (fun _ => rfl) rfl rfl fun _ _ => rfl
  | vshuf m ctl ty kind d a => exact roundTrips_vshuf m ctl ty kind d a
  | vrcpe m ctl ty d a => exact roundTrips_vrcpe m ctl ty d a
  | vrsqe m ctl ty d a => exact roundTrips_vrsqe m ctl ty d a
  | vpushc m k ty d a => exact roundTrips_vpushc m k ty d a
  | vpopc m ty form d cb => exact roundTrips_vpopc m ty form d cb
  | vmov m form => exact roundTrips_vmov m form
  | vbcast m xc d imm => exact roundTrips_vbcast m xc d imm
  | vsetl m xc kd imm => exact roundTrips_vsetl m xc kd imm
  | vaccRd m acc d line col h vt rm ov => exact roundTrips_vaccRd m acc d line col h vt rm ov
  | vaccWr m acc a line col h vt rm add => exact roundTrips_vaccWr m acc a line col h vt rm add
  | viota m ctl ty pfx d => exact roundTrips_viota m ctl ty pfx d
  | vcnt m ty q d ka => exact roundTrips_vcnt m ty q d ka
  | vpopq m ctl count d => exact roundTrips_vpopq m ctl count d
  | vstat m clr => exact roundTrips_vstat m clr
  | txPlan m p spec => exact roundTrips_txPlan m p spec
  | txFwd m p td => exact (roundTrips_transform (img := .txFwd m) (rng := .txFwdRing m) (by decide) (fun _ => rfl) fun _ => rfl).1 td rfl rfl
  | txFwdRing m p gi go => exact (roundTrips_transform (img := .txFwd m) (rng := .txFwdRing m) (by decide) (fun _ => rfl) fun _ => rfl).2 gi go rfl rfl
  | txInv m p td => exact (roundTrips_transform (img := .txInv m) (rng := .txInvRing m) (by decide) (fun _ => rfl) fun _ => rfl).1 td rfl rfl
  | txInvRing m p gi go => exact (roundTrips_transform (img := .txInv m) (rng := .txInvRing m) (by decide) (fun _ => rfl) fun _ => rfl).2 gi go rfl rfl
  | txStage m p form st inv => exact roundTrips_txStage m p form st inv
  | txTwid m dst outer pos q => exact roundTrips_txTwid m dst outer pos q
  | txRfwd m p td => exact (roundTrips_transform (img := .txRfwd m) (rng := .txRfwdRing m) (by decide) (fun _ => rfl) fun _ => rfl).1 td rfl rfl
  | txRfwdRing m p gi go => exact (roundTrips_transform (img := .txRfwd m) (rng := .txRfwdRing m) (by decide) (fun _ => rfl) fun _ => rfl).2 gi go rfl rfl
  | txRinv m p td => exact (roundTrips_transform (img := .txRinv m) (rng := .txRinvRing m) (by decide) (fun _ => rfl) fun _ => rfl).1 td rfl rfl
  | txRinvRing m p gi go => exact (roundTrips_transform (img := .txRinv m) (rng := .txRinvRing m) (by decide) (fun _ => rfl) fun _ => rfl).2 gi go rfl rfl
  | txLeg m td g order d0 => exact roundTrips_txLeg m td g order d0
  | txScale m form c rm => exact roundTrips_txScale m form c rm
  | txDigrev m p td => exact (roundTrips_transform (img := .txDigrev m) (rng := .txDigrevRing m) (by decide) (fun _ => rfl) fun _ => rfl).1 td rfl rfl
  | txDigrevRing m p gi go => exact (roundTrips_transform (img := .txDigrev m) (rng := .txDigrevRing m) (by decide) (fun _ => rfl) fun _ => rfl).2 gi go rfl rfl
  | txRing m td g => exact roundTrips_txRing m td g
  | txSemWait m sem val => exact roundTrips_txSemWait m sem val
  | txSemSig m sem val => exact roundTrips_txSemSig m sem val
  | txStat m clr => exact roundTrips_txStat m clr
  | txCplx m td g conj kp bc => exact roundTrips_txCplx m td g conj kp bc
  | fbLd m td h ds z acq => exact roundTrips_fbLd m td h ds z acq
  | fbSt m td h rel => exact roundTrips_fbSt m td h rel
  | fbAmo m td h nr z ord op ra rb => exact roundTrips_fbAmo m td h nr z ord op ra rb
  | fbGadd m td h fmt rel ra => exact roundTrips_fbGadd m td h fmt rel ra
  | fbFenceAcq m scope => exact roundTrips_fbFenceAcq m scope
  | fbFenceRel m scope => exact roundTrips_fbFenceRel m scope
  | fbFenceAr m scope => exact roundTrips_fbFenceAr m scope
  | fbFenceSc m scope => exact roundTrips_fbFenceSc m scope
  | fbMcst m td h ack rel ap => exact roundTrips_fbMcst m td h ack rel ap
  | fbMcld m td h red q z ap => exact roundTrips_fbMcld m td h red q z ap
  | fbSub m td n lvl rp => exact roundTrips_fbSub m td n lvl rp
  | fbUnsub m n => exact roundTrips_fbUnsub m n
  | fbSflush m => exact roundTrips_fbSflush m
  | fbColl m fc scope xc oa slot => exact roundTrips_fbColl m fc scope xc oa slot
  | fbCwait m fc v => exact roundTrips_fbCwait m fc v
  | fbTimeNow m => exact roundTrips_fbTimeNow m
  | fbTimeWin m => exact roundTrips_fbTimeWin m
  | fbTimeUntil m n => exact roundTrips_fbTimeUntil m n
  | fbStat m clr => exact roundTrips_fbStat m clr
  | _ => exact roundTrips_of_event rfl

/-- Settles O56: the words of each instruction are read back, constructor by constructor. -/
theorem decodeEncode : Obligations.DecodeEncode := fun i rest => roundTrips i rest

end Sys2Proof.Encoding
end

