-- ==== Sys2Proof/Proofs/Steps.lean ====
section
/-!
SUPPORT. How an engine's turn ends, by the word it meets (02 R51, R63), and what the other turns do.
-/

namespace Sys2Proof.Encoding
open Sys2Proof.Machine

/-! ## The word an engine meets -/

section
variable {k : Bank} {e : Engine} {pc : Nat} {i : Instr} {rest : List Nat}

/-- The fault of what decode refuses (02 R63). -/
def refusalOf : DErr → FCode
  | .illegal => .illegal
  | .reserved => .reserved

/-- The checks of decode agree with `decode` on what it refuses (02 R63). -/
theorem checked_of_decode_error {err : DErr} (h : decode (k.word pc :: k.after pc) = .error err) : k.checked pc = .error (refusalOf err) := by
  unfold decode at h
  unfold Bank.checked
  cases hd : decodeHead (k.word pc) (k.after pc) with
  | ok p => simp [hd] at h
  | error err' =>
    obtain rfl : err' = err := by simpa [hd] using h
    cases err' <;> rfl

/-- Once the words decode, the checks of target and resources remain (02 R63). -/
theorem checked_of_decode_ok (h : decode (k.word pc :: k.after pc) = .ok (i, rest)) :
    k.checked pc = if !k.targetOk pc i then .error .illegal else if !(Instr.needs i).all (Need.ok k) then .error .resource else .ok i := by
  simp only [decode, Bank.checked] at h ⊢
  cases hd : decodeHead (k.word pc) (k.after pc) with
  | error err => simp [hd] at h
  | ok p =>
    simp only [hd, Except.ok.injEq, Prod.mk.injEq] at h
    obtain ⟨rfl, -⟩ := h
    rfl

/-- An engine's own tag is none of the two that no engine has. -/
theorem tag_lt_six (e : Engine) : e.tag < 6 := by cases e <;> decide

theorem tagOf_lt_six_of_runsWord {w : Nat} (h : RunsWord e w) : tagOf w < 6 := by
  rcases h with h | ⟨h, -⟩ | ⟨-, h, -⟩
  · exact h ▸ tag_lt_six e
  · omega
  · omega

/-- Whether a word is met as one to run. -/
def MetAs (i : Instr) (m : Meet) : Prop := m = .flow i ∨ m = .own i ∨ m = .target i

/-- A word that the engine runs is met as the checks of decode find it (02 R51, R56). -/
theorem meet_of_runsWord (hpc : (k.eng e).pc < k.hdr.textlen) (hw : RunsWord e (k.word (k.eng e).pc)) :
    (∀ i, k.checked (k.eng e).pc = .ok i → MetAs i (k.meet e)) ∧ (∀ c, k.checked (k.eng e).pc = .error c → k.meet e = .fault c) := by
  have ht := tagOf_lt_six_of_runsWord hw
  have h1 : ¬ (k.hdr.textlen ≤ (k.eng e).pc ∨ tagOf (k.word (k.eng e).pc) = 7) := by omega
  have h2 : ¬ tagOf (k.word (k.eng e).pc) = 6 := by omega
  simp only [Bank.meet, if_neg h1, if_neg h2]
  by_cases hflow : tagOf (k.word (k.eng e).pc) = 0 ∧ flowOp (opOf (k.word (k.eng e).pc)) = true
  · simp only [if_pos hflow]
    exact ⟨fun i h => by rw [h]; exact .inl rfl, fun c h => by rw [h]⟩
  by_cases hown : tagOf (k.word (k.eng e).pc) = e.tag
  · simp only [if_neg hflow, if_pos hown]
    exact ⟨fun i h => by rw [h]; exact .inr (.inl rfl), fun c h => by rw [h]⟩
  · have htarget := (hw.resolve_left hown).resolve_left hflow
    simp only [if_neg hflow, if_neg hown, if_pos htarget]
    exact ⟨fun i h => by rw [h]; exact .inr (.inr rfl), fun c h => by rw [h]⟩

/-- No word of the text stands there: past its end, of tag 7, or an extension word at index 0. -/
theorem meet_of_no_word (h : k.hdr.textlen ≤ (k.eng e).pc ∨ tagOf (k.word (k.eng e).pc) = 7 ∨ (tagOf (k.word (k.eng e).pc) = 6 ∧ (k.eng e).pc = 0)) :
    k.meet e = .fault .illegal := by
  by_cases h1 : k.hdr.textlen ≤ (k.eng e).pc ∨ tagOf (k.word (k.eng e).pc) = 7
  · simp only [Bank.meet, if_pos h1]
  · obtain ⟨h6, h0⟩ : tagOf (k.word (k.eng e).pc) = 6 ∧ (k.eng e).pc = 0 := by tauto
    simp only [Bank.meet, if_neg h1, if_pos h6, if_pos h0]

/-- An extension word after the first, or a word of another engine, is skipped (02 R51). -/
theorem meet_of_passed (hpc : (k.eng e).pc < k.hdr.textlen)
    (h : (tagOf (k.word (k.eng e).pc) = 6 ∧ 0 < (k.eng e).pc)
      ∨ (¬ RunsWord e (k.word (k.eng e).pc) ∧ tagOf (k.word (k.eng e).pc) ≠ 7 ∧ tagOf (k.word (k.eng e).pc) ≠ 6)) : k.meet e = .skip := by
  have h1 : ¬ (k.hdr.textlen ≤ (k.eng e).pc ∨ tagOf (k.word (k.eng e).pc) = 7) := by omega
  rcases h with ⟨h6, h0⟩ | ⟨hw, -, h6⟩
  · simp only [Bank.meet, if_neg h1, if_pos h6, if_neg h0.ne']
  · obtain ⟨hown, hflow, htarget⟩ : tagOf _ ≠ e.tag ∧ ¬ (tagOf _ = 0 ∧ _) ∧ ¬ (e = .A ∧ _ ∧ _) := by simpa only [RunsWord, not_or] using hw
    simp only [Bank.meet, if_neg h1, if_neg h6, if_neg hown, if_neg hflow, if_neg htarget]

end

/-! ## The turn of an engine -/

/-- A step takes the first turn of the agenda. -/
theorem step_eq_stepTurn {s : State} {t : Turn} {r : List Turn} (h : s.agenda = t :: r) : step s = stepTurn t { s with agenda := r } := by
  simp [step, State.takeTurn, h]

section
variable {s : State} {r : List Turn} {core : Nat} {b : Fin 2} {e : Engine} {eager : Bool}

/-- The turn of an engine of a core that runs a bank. -/
theorem step_eq_stepEngine (ha : s.agenda = .engine core e eager :: r) (hr : (s.core core).run = some b) :
    step s = stepEngine (s.turnOf r core b e eager) := by
  have hpoint : State.pointAt { s with agenda := r } core e eager = some (s.turnOf r core b e eager) := by
    have hr' : (State.core { s with agenda := r } core).run = some b := hr
    simp [State.pointAt, State.turnOf, hr']
  rw [step_eq_stepTurn ha, stepTurn, hpoint]

end

section
variable {u : State} {i : Instr} (hl : u.here.live = true) (hp : u.cur.eng = .A → u.here.acc.park = none)
include hl hp

/-- An engine that may go on does what the word it meets says (02 R51). -/
theorem fetch_eq_of_live :
    u.fetch = match u.here.meet u.cur.eng with
      | .fault c => .done (u.faultAt u.cur.loc c (u.here.eng u.cur.eng).pc 0)
      | .skip => .done (if u.here.slipOk u.cur.eng then u.setBank u.cur.loc (u.here.skip u.cur.eng) else u)
      | .flow i | .own i | .target i => if u.here.slipOk u.cur.eng then .run i u else .done u := by
  have hw : (!u.here.live || (u.cur.eng == .A && u.here.acc.park.isSome)) = false := by
    rw [hl, Bool.not_true, Bool.false_or, Bool.and_eq_false_imp]
    intro hA
    rw [hp (by simpa using hA)]
    rfl
  simp only [State.fetch, hw]
  cases u.here.meet u.cur.eng <;> rfl

theorem stepEngine_of_fault {c : FCode} (h : u.here.meet u.cur.eng = .fault c) :
    stepEngine u = .next (u.faultAt u.cur.loc c (u.here.eng u.cur.eng).pc 0) := by
  rw [stepEngine, fetch_eq_of_live hl hp, h]

theorem stepEngine_of_skip (h : u.here.meet u.cur.eng = .skip) :
    stepEngine u = .next (if u.here.slipOk u.cur.eng then u.setBank u.cur.loc (u.here.skip u.cur.eng) else u) := by
  rw [stepEngine, fetch_eq_of_live hl hp, h]

/-- A word to run waits for the slip bound (02 R52). -/
theorem stepEngine_of_metAs (h : MetAs i (u.here.meet u.cur.eng)) : stepEngine u = if u.here.slipOk u.cur.eng then exec i u else .next u := by
  have hf : u.fetch = if u.here.slipOk u.cur.eng then .run i u else .done u := by
    rw [fetch_eq_of_live hl hp]
    rcases h with h | h | h <;> rw [h]
  rw [stepEngine, hf]
  cases u.here.slipOk u.cur.eng <;> rfl

end

/-! ## Time -/

/-- The watchdog's count changes banks only. -/
structure OnlyBanks (s t : State) : Prop where
  mem : t.mem = s.mem
  dtime : t.dtime = s.dtime
  cycle : t.cycle = s.cycle

theorem count_onlyBanks (s : State) (run : Instr → State → Out) (cycles core : Nat) : OnlyBanks s (s.count run cycles core) := by
  unfold State.count
  split
  · exact ⟨rfl, rfl, rfl⟩
  · dsimp only
    split <;> exact ⟨rfl, rfl, rfl⟩

theorem counts_onlyBanks (run : Instr → State → Out) (cycles : Nat) (cs : List Nat) (s : State) :
    OnlyBanks s (cs.foldl (fun s c => s.count run cycles c) s) := by
  induction cs generalizing s with
  | nil => exact ⟨rfl, rfl, rfl⟩
  | cons c cs ih =>
    have hc := count_onlyBanks s run cycles c
    have hr := ih (s.count run cycles c)
    exact ⟨hr.mem.trans hc.mem, hr.dtime.trans hc.dtime, hr.cycle.trans hc.cycle⟩

/-- Time adds to the clocks and leaves memory. -/
theorem elapse_clocks (s : State) (run : Instr → State → Out) (cycles ns : Nat) : (s.elapse run cycles ns).mem = s.mem
    ∧ (s.elapse run cycles ns).dtime = (s.dtime + ns) % 2 ^ 64 ∧ (s.elapse run cycles ns).cycle = s.cycle + cycles := by
  obtain ⟨hm, hd, hc⟩ := counts_onlyBanks run cycles (s.cores.map (·.1)) s
  exact ⟨hm, congrArg (fun d => (d + ns) % 2 ^ 64) hd, congrArg (· + cycles) hc⟩

/-! ## The statement -/

theorem slipOk_iff {k : Bank} {e : Engine} : k.slipOk e = true ↔ (k.eng e).walk - k.wmin < k.seq.slipw := decide_eq_true_iff

section
variable {s : State} {r : List Turn} {core : Nat} {b : Fin 2} {e : Engine} {eager : Bool} {i : Instr}
  (ha : s.agenda = .engine core e eager :: r) (hr : (s.core core).run = some b) (hl : (s.bank ⟨core, b⟩).live = true)
  (hp : e = .A → (s.bank ⟨core, b⟩).acc.park = none)
include ha hr hl hp

/-- A word that a check of decode refuses (02 R63). -/
theorem step_of_meet_fault {c : FCode} (h : (s.bank ⟨core, b⟩).meet e = .fault c) :
    step s = .next ((s.turnOf r core b e eager).faultAt ⟨core, b⟩ c ((s.bank ⟨core, b⟩).eng e).pc 0) :=
  (step_eq_stepEngine ha hr).trans (stepEngine_of_fault (u := s.turnOf r core b e eager) hl hp h)

/-- A word that is run. -/
theorem step_of_metAs (h : MetAs i ((s.bank ⟨core, b⟩).meet e)) :
    step s = if ((s.bank ⟨core, b⟩).eng e).walk - (s.bank ⟨core, b⟩).wmin < (s.bank ⟨core, b⟩).seq.slipw
      then exec i (s.turnOf r core b e eager) else .next (s.turnOf r core b e eager) := by
  rw [step_eq_stepEngine ha hr, stepEngine_of_metAs (u := s.turnOf r core b e eager) hl hp h]
  exact if_congr slipOk_iff rfl rfl

/-- A word that is passed. -/
theorem step_of_meet_skip (h : (s.bank ⟨core, b⟩).meet e = .skip) :
    step s = .next (if ((s.bank ⟨core, b⟩).eng e).walk - (s.bank ⟨core, b⟩).wmin < (s.bank ⟨core, b⟩).seq.slipw
      then (s.turnOf r core b e eager).setBank ⟨core, b⟩ ((s.bank ⟨core, b⟩).skip e) else s.turnOf r core b e eager) := by
  rw [step_eq_stepEngine ha hr, stepEngine_of_skip (u := s.turnOf r core b e eager) hl hp h]
  exact congrArg _ (if_congr slipOk_iff rfl rfl)

end

/-- Settles O59: the turn of an engine by what it meets, the others by what `step` gives them to. -/
theorem stepRunsDecoded : Obligations.StepRunsDecoded := by
  refine ⟨?_, ?_, ?_, ?_, ?_, ?_, ?_⟩
  · intro s r core b e eager ha hr k u pc w hl hp
    have hfault {c : FCode} : k.meet e = .fault c → step s = .next (u.faultAt ⟨core, b⟩ c pc 0) := step_of_meet_fault ha hr hl hp
    refine ⟨fun h => hfault (meet_of_no_word h), fun hpc hw => ?_, fun hpc h => step_of_meet_skip ha hr hl hp (meet_of_passed hpc h)⟩
    obtain ⟨hok, herr⟩ := meet_of_runsWord hpc hw
    refine ⟨fun i rest hd ht hn => step_of_metAs ha hr hl hp (hok i ?_), fun i rest hd ht => hfault (herr _ ?_),
      fun i rest hd ht hn => hfault (herr _ ?_), fun err hd => ?_⟩
    · rw [checked_of_decode_ok hd, ht, hn]; rfl
    · rw [checked_of_decode_ok hd, ht]; rfl
    · rw [checked_of_decode_ok hd, ht, hn]; rfl
    · have hf := hfault (herr _ (checked_of_decode_error hd))
      cases err <;> exact hf
  · intro s r i ha
    rw [step_eq_stepTurn ha, stepTurn]
  · intro s r cycles ns ha
    exact ⟨_, step_eq_stepTurn ha, elapse_clocks _ exec cycles ns⟩
  · intro s r die port ha
    rw [step_eq_stepTurn ha]; rfl
  · intro s r l ha
    rw [step_eq_stepTurn ha, stepTurn]
  · intro s r n ha
    rw [step_eq_stepTurn ha]
    cases n <;> rfl
  · intro s ha hf
    simp [step, ha, hf]

end Sys2Proof.Encoding
end

