-- ==== Sys2Proof/Proofs/DecodedWords.lean ====
section
/-!
SUPPORT. The words that the spec's tables write out (02 R71 and the listings of the other chapters).
-/

namespace Sys2Proof.Encoding

/-- Settles O60: each listed word is decoded by evaluation. -/
theorem decodedWords : Obligations.DecodedWords := by
  unfold Obligations.DecodedWords
  refine ⟨?_, ?_, ?_, ?_, ?_, ?_, ?_, ?_, ?_, ?_, ?_, ?_, ?_, ?_, ?_⟩ <;> decide +kernel

end Sys2Proof.Encoding
end

