-- ==== Sys2Proof/Proofs/Branches.lean ====
section
/-!
SUPPORT. Flow words that change the walk of the engine that meets them, and the faults of flow words (02 R56 to R59; 04 R109).
-/

namespace Sys2Proof.Encoding
open Sys2Proof.Machine

theorem calm_setEng {b : Bank} (hc : b.calm) {e : Engine} {y : EngSt} (hr : y.rets = (b.eng e).rets) (hp : y.pend = (b.eng e).pend) :
    (b.setEng e y).calm := by
  intro f
  by_cases hf : f = e
  · subst hf
    rw [Bank.eng_setEng_same, hr, hp]
    exact hc f
  · rw [Bank.eng_setEng_ne b y hf]
    exact hc f

/-- A flow word of one word that changes no more than the walk of the engine that meets it, S or another. -/
theorem flows_setEng {i : Instr} {s : State} {f : Engine → Bank → Res Bank} {g : Engine → EngSt} (y : EngSt) (jump : Option Nat)
    (hx : exec i s = flowWord i s f) (hm : Meets i s) (hS : (Instr.hd i).eng = .S) (hext : (Instr.hd i).ext = 0)
    (hf : f s.cur.eng s.here = .ok (s.here.setEng s.cur.eng y) { jump })
    (hr : y.rets = (s.here.eng s.cur.eng).rets) (hp : y.pend = (s.here.eng s.cur.eng).pend)
    (hself : (y.pass 0 jump).sameWalk (g s.cur.eng)) (hoth : ∀ e, e ≠ s.cur.eng → g e = s.here.eng e) : Flows i s [] g (fun _ => True) := by
  have hself' : (((s.here.setEng s.cur.eng y).eng s.cur.eng).pass (Instr.hd i).ext jump).sameWalk (g s.cur.eng) := by
    rw [Bank.eng_setEng_same, hext]; exact hself
  have hoth' : ∀ e, e ≠ s.cur.eng → ((s.here.setEng s.cur.eng y).eng e).sameWalk (g e) := fun e he => by
    rw [Bank.eng_setEng_ne _ _ he, hoth e he]; exact EngSt.sameWalk_refl _
  have hpart : ∀ q, q ∉ [] → BankPart.same (s.here.setEng s.cur.eng y) s.here q := fun q _ => Bank.setEng_part ..
  by_cases he : s.cur.eng = .S
  · rw [he] at hf
    rw [he, ← hS] at hself' hoth'
    refine flows_issue i s [] g _ (s.here.setEng .S y) { jump } (hx.trans (flowWord_S i s f _ _ he hm hf)) rfl ?_ ?_
      (fun hc => calm_setEng hc (he ▸ hr) (he ▸ hp)) (he ▸ hpart) rfl (fun _ _ _ => trivial)
    · rw [hS] at hself' ⊢; exact hself'
    · rw [hS] at hoth' ⊢; exact hoth'
  · exact flows_observe i s f [] g _ _ _ hx he hm hf rfl hself' hoth' hpart (fun _ _ _ => trivial)

/-- What a fault leaves that the bank which has the turn takes: the fault, and the engines as they were. -/
theorem here_takeFault {s : State} (c : FCode) (pc d : Nat) (h : s.here.flt = none) :
    ((s.setBank s.cur.loc (s.here.takeFault c pc d)).noteFault s.cur.loc).here.flt = some ⟨c, pc, d⟩
      ∧ ((s.setBank s.cur.loc (s.here.takeFault c pc d)).noteFault s.cur.loc).here.engs = s.here.engs := by
  have hb : ∀ {α : Type} (f : Bank → α), (∀ b x, f { b with st := x } = f b) →
      f ((s.setBank s.cur.loc (s.here.takeFault c pc d)).noteFault s.cur.loc).here = f (s.here.takeFault c pc d) := fun f hf => by
    rw [State.here, noteFault_cur, setBank_cur, bank_noteFault_of f hf, bank_setBank_same]
  have ht : s.here.takeFault c pc d = { s.here with flt := some ⟨c, pc, d⟩ } := by
    unfold Bank.takeFault; rw [h]
  rw [hb (·.flt) fun _ _ => rfl, hb (·.engs) fun _ _ => rfl, ht]
  exact ⟨rfl, rfl⟩

theorem flt_of_live {b : Bank} (h : b.live = true) : b.flt = none := by
  simp only [Bank.live, Bool.and_eq_true, Option.isNone_iff_eq_none] at h
  exact h.1.2

/-- A flow word that faults on the engine that meets it: the bank takes the fault and no engine moves. -/
theorem flowWord_fault {i : Instr} {s : State} {f : Engine → Bank → Res Bank} {c : FCode} {d : Nat} (hm : Meets i s) (hS : (Instr.hd i).eng = .S)
    (hf : f s.cur.eng s.here = .fault c d) :
    ∃ t, flowWord i s f = .next t ∧ t.here.flt = some ⟨c, (s.here.eng s.cur.eng).pc, d⟩ ∧ t.here.engs = s.here.engs := by
  suffices h : s.here.live = true ∧ flowWord i s f
      = .next ((s.setBank s.cur.loc (s.here.takeFault c (s.here.eng s.cur.eng).pc d)).noteFault s.cur.loc) from
    ⟨_, h.2, here_takeFault c _ d (flt_of_live h.1)⟩
  by_cases he : s.cur.eng = .S
  · obtain ⟨hl, ht⟩ : Ready i s := by simpa only [Meets, if_pos he] using hm
    refine ⟨hl, ?_⟩
    rw [he] at hf
    simp only [flowWord, bankWord, Bank.tryIssue, hl, ht, Bool.and_self, if_true, hf, hS, he]
  · obtain ⟨hl, hp⟩ : s.here.live = true ∧ (s.cur.eng = .A → s.here.acc.park = none) := by simpa only [Meets, if_neg he] using hm
    refine ⟨hl, ?_⟩
    have hpark : (s.cur.eng == .A && s.here.acc.park.isSome) = false := by
      rw [Bool.and_eq_false_imp]
      intro hA
      rw [hp (by simpa using hA)]
      rfl
    simp only [flowWord, if_neg he, Bank.tryObserve, hl, hpark, Bool.not_false, Bool.and_self, if_true, hf]

/-! ## The branches (04 R109) -/

theorem exec_br (m : Dep) (off : BitVec 18) (s : State) : exec (.br m off) s = execBr m off s := by rfl
theorem exec_brc (m : Dep) (off : BitVec 18) (s : State) : exec (.brc m off) s = execBrc m off s := by rfl
theorem exec_call (m : Dep) (off : BitVec 18) (s : State) : exec (.call m off) s = execCall m off s := by rfl
theorem exec_ret (m : Dep) (s : State) : exec (.ret m) s = execRet m s := by rfl

/-- Where an engine goes at a word that jumps under a condition. -/
theorem pass_ite (x : EngSt) (c : Prop) [Decidable c] (there : Nat) :
    x.pass 0 (if c then some there else none) = { x with pc := if c then there else x.pc + 1, walk := x.walk + 1 } := by
  unfold EngSt.pass
  split <;> rfl

section
variable {s : State} {m : Dep} {off : BitVec 18} {g : Engine → EngSt} (hoth : ∀ e, e ≠ s.cur.eng → g e = s.here.eng e)
include hoth

theorem flows_br (hm : Meets (.br m off) s) (hself : g s.cur.eng = { s.here.eng s.cur.eng with
      pc := (offTo (s.here.eng s.cur.eng).pc off).toNat, walk := (s.here.eng s.cur.eng).walk + 1 }) :
    Flows (.br m off) s [] g (fun _ => True) := by
  refine flows_setEng (s.here.eng s.cur.eng) (some (s.here.target s.cur.eng off)) (exec_br m off s) hm rfl rfl ?_ rfl rfl ?_ hoth
  · rw [Bank.setEng_self]
  · rw [hself]; exact EngSt.sameWalk_refl _

theorem flows_call (hm : Meets (.call m off) s) (hs : (s.here.eng s.cur.eng).stack.length < 16)
    (hself : g s.cur.eng = { s.here.eng s.cur.eng with
      pc := (offTo (s.here.eng s.cur.eng).pc off).toNat, walk := (s.here.eng s.cur.eng).walk + 1
      stack := ((s.here.eng s.cur.eng).pc + 1) :: (s.here.eng s.cur.eng).stack }) : Flows (.call m off) s [] g (fun _ => True) := by
  refine flows_setEng { s.here.eng s.cur.eng with stack := ((s.here.eng s.cur.eng).pc + 1) :: (s.here.eng s.cur.eng).stack }
    (some (s.here.target s.cur.eng off)) (exec_call m off s) hm rfl rfl (if_neg (by omega)) rfl rfl ?_ hoth
  rw [hself]; exact EngSt.sameWalk_refl _

theorem flows_ret {a : Nat} {rest : List Nat} (hm : Meets (.ret m) s) (hs : (s.here.eng s.cur.eng).stack = a :: rest)
    (hself : g s.cur.eng = { s.here.eng s.cur.eng with pc := a, walk := (s.here.eng s.cur.eng).walk + 1, stack := rest }) :
    Flows (.ret m) s [] g (fun _ => True) := by
  refine flows_setEng { s.here.eng s.cur.eng with stack := rest } (some a) (exec_ret m s) hm rfl rfl ?_ rfl rfl ?_ hoth
  · simp only [hs]
  · rw [hself]; exact EngSt.sameWalk_refl _

/-- An engine other than S goes by its own copy of the outcome (02 R57). -/
theorem flows_brc_observe {o : BoqEnt} {rest : List BoqEnt} (he : s.cur.eng ≠ .S) (hm : Meets (.brc m off) s)
    (hb : (s.here.eng s.cur.eng).boq = o :: rest)
    (hself : g s.cur.eng = { s.here.eng s.cur.eng with
      pc := if o.val = 1 then (offTo (s.here.eng s.cur.eng).pc off).toNat else (s.here.eng s.cur.eng).pc + 1
      walk := (s.here.eng s.cur.eng).walk + 1, boq := rest }) : Flows (.brc m off) s [] g (fun _ => True) := by
  refine flows_setEng { s.here.eng s.cur.eng with boq := rest }
    (if o.val = 1 then some (offTo (s.here.eng s.cur.eng).pc off).toNat else none) (exec_brc m off s) hm rfl rfl ?_ rfl rfl ?_ hoth
  · simp only [Bank.outcome, if_neg he, Bank.boqPop, hb, Bank.target, Bank.eng_setEng_same, beq_iff_eq]
  · rw [hself, pass_ite]; exact EngSt.sameWalk_refl _

end

/-- S goes by the head of `CQ` and publishes it to the five other engines (02 R57). -/
theorem flows_brc_issue {s : State} {m : Dep} {off : BitVec 18} {v : Reg64} {g : Engine → EngSt} (he : s.cur.eng = .S) (hm : Meets (.brc m off) s)
    (hv : s.here.peek .cq s.here.engs.S.walk = some v) (hroom : s.here.boqRoom = true)
    (hself : g .S = { s.here.eng .S with
      pc := if v = 1 then (offTo (s.here.eng .S).pc off).toNat else (s.here.eng .S).pc + 1, walk := (s.here.eng .S).walk + 1 })
    (hoth : ∀ e, e ≠ .S → g e = { s.here.eng e with boq := (s.here.eng e).boq ++ [⟨v, []⟩] }) :
    Flows (.brc m off) s [.cq] g (fun t => t.here.entries .cq = (s.here.entries .cq).drop 1) := by
  have hpart : ∀ q, q ≠ .cq → BankPart.same ((s.here.drop .cq).boqPush v []) s.here q := fun q hq =>
    BankPart.same_trans (Bank.boqPush_part _ v [] q) (drop_part s.here .cq q hq)
  have hx : exec (.brc m off) s = .next ((s.setBank s.cur.loc ((s.here.drop .cq).boqPush v [])).issue (.brc m off)
      { jump := if v = 1 then some (offTo (s.here.eng .S).pc off).toNat else none }) := by
    rw [exec_brc]
    refine flowWord_S (.brc m off) s _ _ _ he hm ?_
    simp only [Bank.outcome, if_true, hv, hroom, beq_iff_eq, Bank.target, Bank.boqPush_eng, Bank.drop_eng]
  refine flows_issue (.brc m off) s [.cq] g _ _ _ hx (Bank.boqPush_st (s.here.drop .cq) v []) ?_ (fun e h => ?_)
    (fun hc => Bank.boqPush_calm _ v [] hc) (fun q hq => hpart q (by simpa using hq)) rfl (fun t _ ht => ?_)
  · have hS : (Instr.hd (.brc m off)).eng = .S := rfl
    have hext : (Instr.hd (.brc m off)).ext = 0 := rfl
    rw [hS, hext, hself, Bank.boqPush_eng, if_pos rfl, Bank.drop_eng, pass_ite]
    exact EngSt.sameWalk_refl _
  · have heS : e ≠ .S := h
    rw [Bank.boqPush_eng, hoth e heS, if_neg heS, ite_self]
    exact EngSt.sameWalk_refl _
  · rw [entries_of_part (q := .cq) (ht .cq ?_), entries_of_part (q := .cq) (Bank.boqPush_part _ v [] .cq), Bank.entries_drop]
    rfl

/-- Settles O4: each word by the change it makes to the engine that meets it; S publishes the outcome of `BRC`. -/
theorem branches : Obligations.Branches := by
  unfold Obligations.Branches
  refine ⟨fun s m off => ⟨fun hm => ?_, fun hm hs => ?_, fun a rest hm hs => ?_⟩,
    fun s m off => ⟨fun v he hm hv hroom => ?_, fun o rest he hm hb => ?_, fun hm hs => ?_, fun hm hs => ?_⟩⟩
  · exact flows_br (fun f hf => if_neg hf) hm (if_pos rfl)
  · exact flows_call (fun f hf => if_neg hf) hm hs (if_pos rfl)
  · exact flows_ret (fun f hf => if_neg hf) hm hs (if_pos rfl)
  · rw [he] at hv ⊢
    exact flows_brc_issue he hm hv hroom (if_pos rfl) (fun f hf => if_neg hf)
  · exact flows_brc_observe (fun f hf => if_neg hf) he hm hb (if_pos rfl)
  · rw [exec_call]
    exact flowWord_fault hm rfl (if_pos hs)
  · rw [exec_ret]
    exact flowWord_fault hm rfl (by simp only [hs])

end Sys2Proof.Encoding
end

