-- ==== Sys2Proof/Proofs/ControlRegisters.lean ====
section
/-!
SUPPORT. Control registers: what each number reads, what a write sets, and the slip window that a placed bank begins with (02 R53, R62; 04 R132, R133).
-/

namespace Sys2Proof.Encoding
open Sys2Proof.Machine

/-! ## Fields laid side by side -/

theorem fields_lt (w : Nat) (l : List Nat) : fields w l < 2 ^ (w * l.length) := by
  induction l with
  | nil => exact Nat.one_pos
  | cons x t ih =>
    rw [List.length_cons, Nat.mul_succ, Nat.add_comm (w * t.length), Nat.pow_add]
    calc fields w (x :: t) = x % 2 ^ w + 2 ^ w * fields w t := rfl
      _ < 2 ^ w + 2 ^ w * fields w t := by have := Nat.mod_lt x (Nat.two_pow_pos w); omega
      _ = 2 ^ w * (fields w t + 1) := by ring
      _ ≤ 2 ^ w * 2 ^ (w * t.length) := Nat.mul_le_mul_left _ ih

/-- Field `i` holds the low bits of number `i`. -/
theorem fields_field (w : Nat) (l : List Nat) (i : Nat) : fields w l / 2 ^ (w * i) % 2 ^ w = l.getD i 0 % 2 ^ w := by
  induction l generalizing i with
  | nil => simp [fields]
  | cons x t ih =>
    cases i with
    | zero => simp [fields]
    | succ i =>
      rw [Nat.mul_succ, Nat.add_comm, Nat.pow_add, ← Nat.div_div_eq_div_mul, fields, Nat.add_mul_div_left _ _ (Nat.two_pow_pos w),
        Nat.div_eq_of_lt (Nat.mod_lt x (Nat.two_pow_pos w)), Nat.zero_add, ih]
      rfl

/-- A number below the width of a register is read as it is. -/
theorem csrVal_toNat {s : State} {l : Loc} {n v : Nat} (h : s.csrNum l n = v) (hv : v < 2 ^ 64) : (s.csrVal l n).toNat = v := by
  rw [State.csrVal, h, BitVec.toNat_ofNat, Nat.mod_eq_of_lt hv]

/-- The occupancies of the branch outcome queues, each in its field (02 R62). -/
theorem boqocc_field (b : Bank) (i : Nat) : b.boqocc / 2 ^ (7 * i) % 2 ^ 7 = (boqEngines.map (fun e => (b.eng e).boq.length)).getD i 0 % 2 ^ 7 :=
  fields_field 7 _ i

theorem boqocc_lt (b : Bank) : b.boqocc < 2 ^ 35 := fields_lt 7 _

/-- The visible entries at the head of `CQ`. -/
def visible (b : Bank) : List QEnt := b.queues.cq.takeWhile (·.vis)

theorem visible_length_le (b : Bank) : (visible b).length ≤ b.queues.cq.length := (List.takeWhile_prefix _).length_le

/-- The bits of the visible entries in their fields (04 R103). -/
def visibleBits (b : Bank) : Nat := fields 1 ((visible b).map (fun x => x.val.toNat))

theorem cqocc_eq (b : Bank) : b.cqocc = visibleBits b + 2 ^ 16 * (visible b).length := rfl

section
variable {b : Bank} (h : b.queues.cq.length ≤ 16)
include h

theorem visibleBits_lt : visibleBits b < 2 ^ 16 := by
  refine (fields_lt 1 _).trans_le (Nat.pow_le_pow_right (by decide) ?_)
  rw [List.length_map, Nat.one_mul]
  exact (visible_length_le b).trans h

theorem cqocc_lt : b.cqocc < 2 ^ 64 := by
  have := visibleBits_lt h
  have := (visible_length_le b).trans h
  rw [cqocc_eq]
  omega

theorem cqocc_count : b.cqocc / 2 ^ 16 = (visible b).length := by
  rw [cqocc_eq, Nat.add_mul_div_left _ _ (by decide), Nat.div_eq_of_lt (visibleBits_lt h), Nat.zero_add]

end

theorem cqocc_bit (b : Bank) {i : Nat} (hi : i < 16) :
    b.cqocc / 2 ^ i % 2 = (((visible b).drop i).head?.map (fun x => x.val.toNat % 2)).getD 0 := by
  obtain ⟨c, hc⟩ := Nat.exists_eq_add_of_lt hi
  have hpow : 2 ^ 16 * (visible b).length = 2 ^ i * (2 * (2 ^ c * (visible b).length)) := by
    rw [show (2 : Nat) ^ 16 = 2 ^ (i + c + 1) by rw [← hc], Nat.pow_succ, Nat.pow_add]; ring
  have hfield := fields_field 1 ((visible b).map (fun x => x.val.toNat)) i
  rw [Nat.one_mul, Nat.pow_one] at hfield
  rw [cqocc_eq, hpow, Nat.add_mul_div_left _ _ (Nat.two_pow_pos i), Nat.add_mul_mod_self_left, visibleBits, hfield, List.head?_drop, List.getD_eq_getElem?_getD,
    List.getElem?_map]
  cases (visible b)[i]? <;> rfl

/-! ## The words (04 R132) -/

theorem exec_csrRd (m : Dep) (r : SReg) (csr : BitVec 11) (s : State) : exec (.csrRd m r csr) s = execCsrRd m r csr s := by rfl
theorem exec_csrWr (m : Dep) (r : SReg) (csr : BitVec 11) (s : State) : exec (.csrWr m r csr) s = execCsrWr m r csr s := by rfl

section
variable {s : State} {m : Dep} {r : SReg} {csr : BitVec 11} (hc : s.here.csrPending = false) (hf : SFree s [r])
include hc hf

/-- `CSR.rd` (04 R132). -/
theorem setsS_csrRd (hr : Ready (.csrRd m r csr) s) : SetsS (.csrRd m r csr) s [] r (s.csrVal s.cur.loc csr.toNat) (fun _ => True) := by
  have hp : s.here.pending .S [r.val] = false := hf
  have hx := (exec_csrRd m r csr s).trans (bankWord_ok _ s _ s.here (writesS r (s.csrVal s.cur.loc csr.toNat)) hr (by simp [hc, hp]))
  exact setsS_of _ s [] _ r _ s.here _ [] hx rfl rfl rfl rfl (by simp) rfl (fun _ => rfl) (BankPart.same_refl ..) (fun _ _ => BankPart.same_refl ..)
    (fun _ _ _ => trivial)

end

/-- What a write to a register of the bank leaves (04 R132). -/
def csrWritten (b : Bank) (n : Nat) (v : Reg64) : Bank := if csrWritable n then b.csrSet n v else b

/-- The effects of `CSR.wr`. -/
def csrEffs (n : Nat) (v : Reg64) : List Eff := if csrWritable n then [.csr n v] else []

theorem applyAll_csrEffs (b : Bank) (pc n : Nat) (v : Reg64) : b.applyAll pc (csrEffs n v) = csrWritten b n v := by
  unfold csrEffs csrWritten
  split
  · simp only [Bank.applyAll, ite_self]; rfl
  · rfl

theorem canPop_csrEffs (b : Bank) (n : Nat) (v : Reg64) : b.canPop (csrEffs n v) = true := by
  unfold csrEffs
  split <;> rfl

theorem csrWritten_part (b : Bank) (n : Nat) (v : Reg64) {q : BankPart} (h : q ≠ .ctl) : BankPart.same (csrWritten b n v) b q := by
  unfold csrWritten
  split
  · exact b.apply_part 0 (.csr n v) q (by simpa [Eff.parts] using h)
  · exact BankPart.same_refl b q

/-- A write reaches `SLIPW` and `CSCHED`, and nothing else (02 R53, 09 R320). -/
theorem csrWritten_ctl (b : Bank) (n : Nat) (v : Reg64) :
    (csrWritten b n v).seq.slipw = (if n = 0x010 then max 16 (min 4096 (v.toNat % 2 ^ 13)) else b.seq.slipw)
    ∧ (csrWritten b n v).car.csched = (if n = 0x189 then BitVec.ofNat 32 (max b.car.csched.toNat (v.toNat % 2 ^ 32)) else b.car.csched)
    ∧ (csrWritten b n v).mx.shown = b.mx.shown := by
  by_cases h1 : n = 0x010
  · subst h1; exact ⟨rfl, rfl, rfl⟩
  by_cases h2 : n = 0x189
  · subst h2; exact ⟨rfl, rfl, rfl⟩
  · have hw : csrWritable n = false := by simp [csrWritable, h1, h2]
    simp [csrWritten, hw, h1, h2]

section
variable {s : State} {m : Dep} {r : SReg} {csr : BitVec 11} (hc : s.here.csrPending = false) (hf : SFree s [r])
include hc hf

/-- `CSR.wr` (04 R132). -/
theorem does_csrWr (hr : Ready (.csrWr m r csr) s) (hcalm : s.here.calm) (hfit : Fits (.csrWr m r csr) s.here) :
    Does (.csrWr m r csr) s [.ctl] (fun t =>
      t.here.seq.slipw = (if csr.toNat = 0x010 then max 16 (min 4096 ((s.here.sreg r).toNat % 2 ^ 13)) else s.here.seq.slipw)
      ∧ t.here.car.csched = (if csr.toNat = 0x189 then BitVec.ofNat 32 (max s.here.car.csched.toNat ((s.here.sreg r).toNat % 2 ^ 32)) else s.here.car.csched)
      ∧ t.here.mx.shown = s.here.mx.shown) := by
  have hp : s.here.pending .S [r.val] = false := hf
  have hx : exec (.csrWr m r csr) s = .next ((s.setBank s.cur.loc s.here).issue (.csrWr m r csr) { effs := csrEffs csr.toNat (s.here.sreg r) }) :=
    (exec_csrWr m r csr s).trans (bankWord_ok _ s _ s.here _ hr (by simp [hc, hp, csrEffs]))
  refine does_calm _ s [.ctl] _ s.here _ hx rfl rfl (fun _ => rfl) hcalm rfl rfl (canPop_csrEffs ..) hfit (fun q hq => ?_) (fun t _ ht => ?_)
  · rw [applyAll_csrEffs]
    exact csrWritten_part _ _ _ (by simpa using hq)
  · rw [applyAll_csrEffs] at ht
    obtain ⟨hslipw, hshown, hcsched⟩ := ht .ctl
    rw [hslipw, hcsched, hshown]
    exact csrWritten_ctl ..

end

/-! ## What the numbers read (04 R133)

A number within a bank of registers falls past every range below that bank, and into its own. -/

section
variable (s : State) (l : Loc)

theorem csrVal_lc (n : Fin 4) : s.csrVal l (0x020 + n.val) = spGet 0 (s.bank l).engs.S.lc n.val := by
  simp (disch := omega) only [State.csrVal, State.csrNum, if_neg, if_pos]
  simp

theorem csrVal_sem (n : Fin 32) : s.csrVal l (0x040 + n.val) = BitVec.ofNat 64 ((s.bank l).semCount n + 2 ^ 16 * (s.bank l).semCeil n
    + 2 ^ 28 * (if bitAt (s.bank l).hdr.semmask n.val then 1 else 0)) := by
  simp (disch := omega) only [State.csrVal, State.csrNum, if_neg, if_pos]
  simp [Bank.semv, bit]

theorem csrVal_cwp (n : Fin 8) : s.csrVal l (0x180 + n.val) = ((s.bank l).chan n.val).cwp := by
  simp (disch := omega) only [State.csrVal, State.csrNum, if_neg, if_pos]
  simp

theorem csrVal_fc (n : Fin 16) : s.csrVal l (0x510 + n.val) = BitVec.ofNat 64 (spGet 0 (s.bank l).fab.fc n.val).toNat := by
  simp (disch := omega) only [State.csrVal, State.csrNum, if_neg, if_pos]
  simp

end

/-! ## The header's slip window (02 R53, 05 R139) -/

/-- A header that passes its checks has a slip window in range. -/
theorem parseHeader_slipw {d : List Byte} {image : Nat} {h : Header} (hp : parseHeader d image = some h) :
    (h.slipw = if blkNum d 0x1E 2 = 0 then 1024 else blkNum d 0x1E 2) ∧ 16 ≤ h.slipw ∧ h.slipw ≤ 4096 := by
  simp only [parseHeader, Option.ite_none_right_eq_some, Option.some.injEq] at hp
  obtain ⟨hok, rfl⟩ := hp
  simp only [Bool.and_eq_true, decide_eq_true_eq] at hok
  refine ⟨rfl, ?_, ?_⟩ <;> tauto

theorem slipw_placeAt {s : State} {x : Launch} {h : Header} {l : Loc} {place : Nat} (hx : x.hdr = some h) :
    ((s.placeAt x l place).bank l).seq.slipw = h.slipw := by
  rw [State.placeAt, bank_setBank_same, hx]
  rfl

/-- Settles O3: the two words by their issue, each number by the entry of the table that it falls in, the slip window by the header's checks. -/
theorem controlRegisters : Obligations.ControlRegisters := by
  refine ⟨fun s m r csr hc hf => ⟨setsS_csrRd hc hf, does_csrWr hc hf⟩, fun s l => ?_, fun d image h => parseHeader_slipw,
    fun s x h l place => slipw_placeAt⟩
  have hboq : s.csrNum l 0x012 = (s.bank l).boqocc := rfl
  have hcq : s.csrNum l 0x013 = (s.bank l).cqocc := rfl
  refine ⟨rfl, rfl, rfl, rfl, ?_, fun h => ?_, csrVal_lc s l, csrVal_sem s l, rfl, csrVal_cwp s l, rfl, rfl, ?_, rfl, rfl, rfl, ?_, rfl, csrVal_fc s l⟩
  · rw [csrVal_toNat hboq ((boqocc_lt _).trans (by decide))]
    refine ⟨boqocc_lt _, ?_⟩
    simp only [List.forall_mem_cons]
    exact ⟨boqocc_field _ 0, boqocc_field _ 1, boqocc_field _ 2, boqocc_field _ 3, boqocc_field _ 4, List.forall_mem_nil _⟩
  · rw [csrVal_toNat hcq (cqocc_lt h)]
    exact ⟨cqocc_count h, fun i hi => cqocc_bit _ hi⟩
  · exact BitVec.ofNat_toNat ..
  · exact BitVec.ofNat_toNat ..

end Sys2Proof.Encoding
end

/-!
SUPPORT. Vector results (08 R265 to R268): elements of a packed register, the flags of several elements, and the issue of a word of V that takes its
sources, writes one thing as it retires and raises flags then.
-/

namespace Sys2Proof.Formats
open Sys2Proof.Machine

/-! ## Lists of the first numbers -/

theorem natsFrom_eq_range' (a n : Nat) : natsFrom a n = List.range' a n := by
  induction n generalizing a with
  | zero => rfl
  | succ n ih => rw [natsFrom, ih, List.range'_succ]

theorem upTo_eq_range (n : Nat) : upTo n = List.range n := by
  rw [upTo, natsFrom_eq_range', List.range_eq_range']

@[simp] theorem length_upTo (n : Nat) : (upTo n).length = n := by rw [upTo_eq_range, List.length_range]

theorem getD_map_upTo {α : Type} (f : Nat → α) (x : α) {n i : Nat} (h : i < n) : ((upTo n).map f).getD i x = f i := by
  rw [upTo_eq_range, List.getD_eq_getElem _ _ (by simpa using h), List.getElem_map, List.getElem_range]

/-! ## Elements of a register (08 R265) -/

theorem packElems_eq_fields (w : Nat) (l : List Nat) : packElems w l = Machine.fields w l := by
  induction l with
  | nil => rfl
  | cons x t ih => rw [packElems, ih, Machine.fields]

theorem packElems_lt (w : Nat) (l : List Nat) : packElems w l < 2 ^ (w * l.length) := packElems_eq_fields w l ▸ Encoding.fields_lt w l

theorem toNat_ofNat_packElems {w n : Nat} {l : List Nat} (h : w * l.length ≤ n) : (BitVec.ofNat n (packElems w l)).toNat = packElems w l := by
  rw [BitVec.toNat_ofNat, Nat.mod_eq_of_lt ((packElems_lt w l).trans_le (Nat.pow_le_pow_right Nat.two_pos h))]

theorem packElems_field (w : Nat) (l : List Nat) (i : Nat) : packElems w l / 2 ^ (w * i) % 2 ^ w = l.getD i 0 % 2 ^ w :=
  packElems_eq_fields w l ▸ Encoding.fields_field w l i

/-- A register of at most 4,096 bits of elements has each of them in its lane. -/
theorem elemOf_vecOf {w : Nat} {l : List Nat} (h : w * l.length ≤ 4096) (e : Nat) : elemOf (vecOf w l) w e = l.getD e 0 % 2 ^ w := by
  rw [elemOf, vecOf, toNat_ofNat_packElems h, packElems_field]

/-- A whole register made element by element. -/
theorem elemOf_vecOf_upTo (w : Nat) (f : Nat → Nat) {e : Nat} (he : e < 4096 / w) :
    elemOf (vecOf w ((upTo (4096 / w)).map f)) w e = f e % 2 ^ w := by
  rw [elemOf_vecOf (by rw [List.length_map, length_upTo]; exact Nat.mul_div_le ..), getD_map_upTo f 0 he]

theorem elemOf_lt (x : VecReg) (w e : Nat) : elemOf x w e < 2 ^ w := Nat.mod_lt _ (Nat.two_pow_pos w)

/-! ## Flags of several elements (08 R270) -/

theorem allFlags_map_upTo (n : Nat) (f : Nat → Nat × FlagBits) : allFlags ((upTo n).map f) = orFlags n (fun e => (f e).2) := by
  rw [allFlags, List.foldl_map, orFlags]

/-! ## Taking operands (08 R267) -/

/-- Operands taken from a bank, or results given a place in a queue, leave its engines and its state. -/
def Taken (b k : Bank) : Prop := k.engs = b.engs ∧ k.st = b.st

theorem Taken.refl (b : Bank) : Taken b b := ⟨rfl, rfl⟩

theorem Taken.trans {a b c : Bank} (h : Taken a b) (g : Taken b c) : Taken a c := ⟨g.1.trans h.1, g.2.trans h.2⟩

theorem taken_takeV {b k : Bank} {a : VSrc} {x : VecReg} (h : b.takeV a = .ok x k) : Taken b k := by
  cases a with
  | v n =>
    injection h with _ hk
    exact hk ▸ Taken.refl b
  | q n =>
    simp only [Bank.takeV, Bank.popStream] at h
    split_ifs at h
    split at h
    · exact VTake.noConfusion h
    · split_ifs at h
      split at h
      · exact VTake.noConfusion h
      · injection h with _ hk
        exact hk ▸ ⟨rfl, rfl⟩
  | dv =>
    simp only [Bank.takeV] at h
    split at h
    · injection h with _ hk
      exact hk ▸ ⟨rfl, rfl⟩
    · exact VTake.noConfusion h

theorem taken_reserve (b : Bank) (q : QName) (w : Nat) (v : Reg64) : Taken b (b.reserve q w v) := ⟨rfl, rfl⟩

theorem taken_takeDst (b : Bank) (d : VDst) : Taken b (b.takeDst d) := by
  cases d with
  | v n => exact Taken.refl b
  | q n =>
    rw [Bank.takeDst, Bank.spend]
    split <;> exact ⟨rfl, rfl⟩

theorem withV_ok {b k : Bank} {a : VSrc} {x : VecReg} (h : b.takeV a = .ok x k) (f : VecReg → Bank → Res Bank) : withV b a f = f x k := by
  rw [withV, h]

/-! ## The issue of a word of V (08 R268, R269) -/

/-- A word completes with any bank that agrees with the one it completes with. -/
theorem gives_congr {i : Instr} {s u : State} {b c : Bank} (h : AllSame b c) (hg : Gives i s u b) : Gives i s u c := by
  obtain ⟨t, hx, hk, hp, hm, hl⟩ := hg
  exact ⟨t, hx, hk, fun p hq => BankPart.same_trans (hp p hq) (h p), hm, hl⟩

theorem isVis_silent {y : Eff} (h : y.isVis = true) : y.parts = [] ∧ y.isSem = false := by
  cases y <;> simp [Eff.isVis, Eff.parts, Eff.isSem] at h ⊢

theorem applyAll_singleton (pc : Nat) (x : Eff) (b : Bank) : Bank.applyAll pc [x] b = b.apply pc x := by
  simp only [Bank.applyAll, ite_self]

section
variable {l : List Eff} (pc : Nat) (h : ∀ y ∈ l, y.isSem = false)
include h

theorem applyAll_append (l' : List Eff) (b : Bank) : Bank.applyAll pc (l ++ l') b = Bank.applyAll pc l' (Bank.applyAll pc l b) := by
  induction l generalizing b with
  | nil => rfl
  | cons y t ih =>
    simp only [List.cons_append, Bank.applyAll, b.apply_flt pc y (h y (List.mem_cons_self ..)), if_true]
    exact ih (fun z hz => h z (List.mem_cons_of_mem _ hz)) _

theorem applyAll_flt (b : Bank) : (Bank.applyAll pc l b).flt = b.flt := by
  induction l generalizing b with
  | nil => rfl
  | cons y t ih =>
    have hy := b.apply_flt pc y (h y (List.mem_cons_self ..))
    simp only [Bank.applyAll, hy, if_true]
    rw [ih (fun z hz => h z (List.mem_cons_of_mem _ hz)), hy]

end

/-- An effect of a word of V as it retires, entries of queues that become visible then, and flags that it raises. -/
theorem applyAll_laterV (c : Bank) (pc : Nat) {x : Eff} {l : List Eff} (f : FlagBits) (hx : x.isSem = false) (hl : ∀ y ∈ l, y.isVis = true) :
    AllSame (c.applyAll pc ([x] ++ l ++ [.flags .V f])) ((c.apply pc x).raiseV f) := by
  have hsem : ∀ y ∈ l, y.isSem = false := fun y hy => (isVis_silent (hl y hy)).2
  have hshow : AllSame (Bank.applyAll pc l (c.apply pc x)) (c.apply pc x) := fun q =>
    Bank.applyAll_part pc l q (fun y hy => by simp [(isVis_silent (hl y hy)).1]) _
  rw [List.append_assoc, applyAll_append pc (by simpa using hx), applyAll_singleton, applyAll_append pc hsem, applyAll_singleton]
  exact (AllSame.apply hshow (applyAll_flt pc hsem _) pc (.flags .V f)).1

/-- A word that waits for nothing, goes on to the next word and, beside its own effects, shows entries of queues. -/
def ShowsOnly (p : Plain) : Prop := p.waits = [] ∧ p.async = false ∧ p.jump = none ∧ ∀ y ∈ p.effs, y.isVis = true

theorem showsOnly_nothing : ShowsOnly {} := ⟨rfl, rfl, rfl, fun _ h => absurd h List.not_mem_nil⟩

theorem showsOnly_vis (q : QName) (w : Nat) : ShowsOnly { effs := [.vis q w] } :=
  ⟨rfl, rfl, rfl, fun _ h => List.mem_singleton.1 h ▸ rfl⟩

/-- A word of V issues once no earlier word has still to write what it names. -/
theorem vecWord_ok {i : Instr} {s : State} {f : Bank → Res Bank} {c : Bank} {p : Plain} (hr : VReady i s) (hf : f s.here = .ok c p) :
    vecWord i s f = .next ((s.setBank s.cur.loc c).issue i p) :=
  bankWord_ok i s _ c p hr.1 (by rw [hr.2, hf]; rfl)

/-- No effect of a word of V pops a ring. -/
theorem canPop_laterV (c : Bank) {x : Eff} {l : List Eff} (f : FlagBits) (hpop : ∀ g w, x ≠ .ringPop g w) (hl : ∀ y ∈ l, y.isVis = true) :
    c.canPop ([x] ++ l ++ [.flags .V f]) = true := by
  rw [Bank.canPop, List.all_eq_true]
  intro y hy
  split
  · next g w =>
    simp only [List.mem_append, List.mem_singleton] at hy
    rcases hy with (hy | hy) | hy
    · exact absurd hy.symm (hpop g w)
    · exact absurd (hl _ hy) (by simp [Eff.isVis])
    · exact Eff.noConfusion hy
  · rfl

section
variable {i : Instr} {s : State} {f : Bank → Res Bank} {fl : FlagBits} {p : Plain} (hx : exec i s = vecWord i s f) (hV : (Instr.hd i).eng = .V)
  (hr : VReady i s) (hp : ShowsOnly p)
include hx hV hr hp

/-- A word of V that writes one thing as it retires. -/
theorem gives_laterV {c : Bank} {x : Eff} {codes : List Nat} (hc : Taken s.here c) (hf : f s.here = .ok c (laterV [x] fl codes p))
    (hsem : x.isSem = false) (hpop : ∀ g w, x ≠ .ringPop g w) : Gives i s s ((c.apply c.engs.V.pc x).raiseV fl) := by
  obtain ⟨hw, ha, hj, hvis⟩ := hp
  have hpc : (s.here.eng (Instr.hd i).eng).pc = c.engs.V.pc := by rw [hV, hc.1]; rfl
  have hg := gives_effs i s s c _ (hx.trans (vecWord_ok hr hf)) hj hc.2 (fun e => by rw [Bank.eng, hc.1]; rfl) hw ha
    (canPop_laterV c fl hpop hvis)
  rw [hpc] at hg
  exact gives_congr (applyAll_laterV c _ fl hsem hvis) hg

/-- A word of V that writes a destination with room for it. -/
theorem gives_intoV {k : Bank} {d : VDst} {v : VecReg} (hk : Taken s.here k) (hf : f s.here = intoV k d v fl p) (hroom : k.roomV d = .ok) :
    Gives i s s ((k.putV d v).raiseV fl) := by
  have hd := taken_takeDst k d
  have hpc : k.engs.V.pc = (k.takeDst d).engs.V.pc := by rw [hd.1]
  rw [Bank.putV, hpc]
  rw [intoV, hroom] at hf
  refine gives_laterV hx hV hr hp (hk.trans hd) hf ?_ ?_
  · cases d <;> rfl
  · cases d <;> exact fun _ _ => Eff.noConfusion

/-- A word of V whose result is made element by element. -/
theorem writes_intoV {k : Bank} {w : Nat} {d : VDst} {v : VecReg} {el : Nat → Nat} (hk : Taken s.here k) (hf : f s.here = intoV k d v fl p)
    (hv : ∀ e, e < 4096 / w → elemOf v w e = el e % 2 ^ w) : Writes i s w d k el fl :=
  fun hroom => ⟨v, hv, gives_intoV hx hV hr hp hk hf hroom⟩

end

/-- A result with its flags that is made lane by lane. -/
def intoLanes (k : Bank) (d : VDst) (w : Nat) (f : Nat → Nat × FlagBits) : Res Bank :=
  intoV k d (vecOfF w ((upTo (4096 / w)).map f)) (allFlags ((upTo (4096 / w)).map f)) {}

/-- A word of V whose result and flags are made lane by lane. -/
theorem writes_intoLanes {i : Instr} {s : State} {f : Bank → Res Bank} {k : Bank} {w : Nat} {d : VDst} {el : Nat → Nat × FlagBits}
    (hx : exec i s = vecWord i s f) (hV : (Instr.hd i).eng = .V) (hr : VReady i s) (hk : Taken s.here k) (hf : f s.here = intoLanes k d w el) :
    Writes i s w d k (fun e => (el e).1) (orFlags (4096 / w) (fun e => (el e).2)) := by
  rw [intoLanes, allFlags_map_upTo, vecOfF, List.map_map] at hf
  exact writes_intoV hx hV hr showsOnly_nothing hk hf (fun e he => elemOf_vecOf_upTo w _ he)

/-! ## Element-wise words (08 R268) -/

/-- What the body of an element-wise word does with one element. -/
def bodyElem (ctl : VCtl) (w : Nat) (d : VDst) (k : Bank) (f : Nat → Nat × FlagBits) (e : Nat) : Nat × FlagBits :=
  if (k.kreg ctl.k).getLsbD e then f e else if ctl.zm then (0, 0) else (elemOf (k.oldV d) w e, 0)

theorem vBody_eq (ctl : VCtl) (w : Nat) (d : VDst) (k : Bank) (f : Nat → Nat × FlagBits) : vBody ctl w d k f = intoLanes k d w (bodyElem ctl w d k f) :=
  rfl

theorem elementwise_vBody {i : Instr} {s : State} {f : Bank → Res Bank} {ctl : VCtl} {w : Nat} {d : VDst} {k : Bank} {el : Nat → Nat × FlagBits}
    (hx : exec i s = vecWord i s f) (hV : (Instr.hd i).eng = .V) (hr : VReady i s) (hk : Taken s.here k) (hf : f s.here = vBody ctl w d k el) :
    Elementwise i s ctl w d k el := by
  have h := writes_intoLanes hx hV hr hk (hf.trans (vBody_eq ctl w d k el))
  have h1 : (fun e => (bodyElem ctl w d k el e).1) = fun e => if (k.kreg ctl.k).getLsbD e then (el e).1 else if ctl.zm then 0 else elemOf (k.oldV d) w e := by
    funext e; unfold bodyElem; split_ifs <;> rfl
  have h2 : (fun e => (bodyElem ctl w d k el e).2) = fun e => if (k.kreg ctl.k).getLsbD e then (el e).2 else 0 := by
    funext e; unfold bodyElem; split_ifs <;> rfl
  rw [h1, h2] at h
  exact h

section
variable {i : Instr} {s : State} {ctl : VCtl} {w : Nat} {d : VDst} {a b : VSrc} {x y : VecReg} {k1 k2 : Bank} (ha : s.here.takeV a = .ok x k1)
include ha

theorem elementwise_vec1 {f : Nat → Nat × FlagBits} (hx : exec i s = vecWord i s (vec1 ctl w d a f)) (hV : (Instr.hd i).eng = .V) (hr : VReady i s) :
    Elementwise i s ctl w d k1 (fun e => f (elemOf x w e)) :=
  elementwise_vBody hx hV hr (taken_takeV ha) (withV_ok ha _)

theorem elementwise_vec2 {f : Nat → Nat → Nat × FlagBits} (hb : k1.takeV b = .ok y k2) (hx : exec i s = vecWord i s (vec2 ctl w d a b f))
    (hV : (Instr.hd i).eng = .V) (hr : VReady i s) : Elementwise i s ctl w d k2 (fun e => f (elemOf x w e) (elemOf y w e)) :=
  elementwise_vBody hx hV hr ((taken_takeV ha).trans (taken_takeV hb)) ((withV_ok ha _).trans (withV_ok hb _))

end

end Sys2Proof.Formats

/-!
SUPPORT. The floating-point element words (08 R270 to R272): each is an element-wise word of its own function of an element.
-/

namespace Sys2Proof.Formats
open Sys2Proof.Machine

section
variable (m : Dep) (ctl : VCtl) (ty : VTy) (rm : RMode) (z np nc : Bool) (d : VDst) (a b c : VSrc) (s : State)

theorem exec_vabs : exec (.vabs m ctl ty z d a) s = execVabs m ctl ty z d a s := by rfl
theorem exec_vneg : exec (.vneg m ctl ty z d a) s = execVneg m ctl ty z d a s := by rfl
theorem exec_vadd : exec (.vadd m ctl ty rm d a b) s = execVadd m ctl ty rm d a b s := by rfl
theorem exec_vsub : exec (.vsub m ctl ty rm d a b) s = execVsub m ctl ty rm d a b s := by rfl
theorem exec_vmul : exec (.vmul m ctl ty rm d a b) s = execVmul m ctl ty rm d a b s := by rfl
theorem exec_vmin : exec (.vmin m ctl ty z d a b) s = execVmin m ctl ty z d a b s := by rfl
theorem exec_vmax : exec (.vmax m ctl ty z d a b) s = execVmax m ctl ty z d a b s := by rfl
theorem exec_vfma : exec (.vfma m ctl ty rm np nc d a b c) s = execVfma m ctl ty rm np nc d a b c s := by rfl

end

/-- `VFMA` (08 R271). -/
theorem elementwise_vfma {m : Dep} {ctl : VCtl} {ty : VTy} {rm : RMode} {np nc : Bool} {d : VDst} {a b c : VSrc} {s : State} {x y v : VecReg} {k1 k2 k3 : Bank}
    (ha : s.here.takeV a = .ok x k1) (hb : k1.takeV b = .ok y k2) (hc : k2.takeV c = .ok v k3) (hr : VReady (.vfma m ctl ty rm np nc d a b c) s) :
    Elementwise (.vfma m ctl ty rm np nc d a b c) s ctl ty.width d k3 (fun e =>
      fmaElem ty rm np nc (elemOf x ty.width e) (elemOf y ty.width e) (elemOf v ty.width e)) :=
  elementwise_vBody (exec_vfma ..) rfl hr (((taken_takeV ha).trans (taken_takeV hb)).trans (taken_takeV hc))
    ((withV_ok ha _).trans ((withV_ok hb _).trans (withV_ok hc _)))

/-- Settles O29: each word is the element-wise word of its function; the two sources are taken in order, the third by `VFMA` alone. -/
theorem vectorArithmetic : Obligations.VectorArithmetic := by
  unfold Obligations.VectorArithmetic
  intro s m ctl ty rm z np nc d a b c x y v k1 k2 k3 w read once ha
  refine ⟨elementwise_vec1 ha (exec_vabs ..) rfl, elementwise_vec1 ha (exec_vneg ..) rfl, fun hb => ⟨?_, ?_, ?_, ?_, ?_, fun hc => ?_⟩⟩
  · exact elementwise_vec2 ha hb (exec_vadd ..) rfl
  · exact elementwise_vec2 ha hb (exec_vsub ..) rfl
  · exact elementwise_vec2 ha hb (exec_vmul ..) rfl
  · exact elementwise_vec2 ha hb (exec_vmin ..) rfl
  · exact elementwise_vec2 ha hb (exec_vmax ..) rfl
  · exact elementwise_vfma ha hb hc

end Sys2Proof.Formats

/-!
SUPPORT. Reductions (08 R280, 03 R98): the tree joins its elements two by two, so what it leaves has every property of lists that joining two neighbours
keeps.
-/

namespace Sys2Proof.Formats
open Sys2Proof.Machine

/-! ## The tree -/

/-- The active elements among the lanes of a level. -/
def present (l : List (Option Nat)) : List Nat := l.filterMap id

/-- A property of the active elements that stays as two neighbours are joined. -/
def JoinKeeps (op : Nat → Nat → Nat × FlagBits) (P : List Nat → Prop) : Prop := ∀ pre p q t, P (pre ++ p :: q :: t) → P (pre ++ (op p q).1 :: t)

section
variable {op : Nat → Nat → Nat × FlagBits} {P : List Nat → Prop}

theorem length_reduceLevel (l : List (Option Nat)) : (reduceLevel op l).1.length = (l.length + 1) / 2 := by
  induction l using reduceLevel.induct op with
  | case1 t p q ih => simp only [reduceLevel, List.length_cons, ih]; omega
  | case2 t y ih => simp only [reduceLevel, List.length_cons, ih]; omega
  | case3 t x hx ih =>
    cases x with
    | none => exact absurd rfl hx
    | some p => simp only [reduceLevel, List.length_cons, ih]; omega
  | case4 x => simp [reduceLevel]
  | case5 => rfl

theorem reduceLevel_keeps (hop : JoinKeeps op P) (l : List (Option Nat)) (pre : List Nat) (h : P (pre ++ present l)) :
    P (pre ++ present (reduceLevel op l).1) := by
  induction l using reduceLevel.induct op generalizing pre with
  | case1 t p q ih =>
    have hj : P ((pre ++ [(op p q).1]) ++ present t) := by
      rw [List.append_assoc]
      exact hop pre p q _ h
    simpa [reduceLevel, present] using ih _ hj
  | case2 t y ih =>
    cases y with
    | none => exact ih pre h
    | some q => simpa [reduceLevel, present] using ih (pre ++ [q]) (by simpa [present] using h)
  | case3 t x hx ih =>
    cases x with
    | none => exact absurd rfl hx
    | some p => simpa [reduceLevel, present] using ih (pre ++ [p]) (by simpa [present] using h)
  | case4 x => cases x <;> exact h
  | case5 => exact h

theorem reduceTree_keeps (hop : JoinKeeps op P) (n : Nat) (l : List (Option Nat)) (h : P (present l)) : P (present (reduceTree op n l).1) := by
  induction n generalizing l with
  | zero => exact h
  | succ n ih => exact ih _ (reduceLevel_keeps hop l [] h)

/-- Enough levels leave one lane. -/
theorem length_reduceTree (n : Nat) (l : List (Option Nat)) (h0 : 0 < l.length) (h : l.length ≤ 2 ^ n) : (reduceTree op n l).1.length = 1 := by
  induction n generalizing l with
  | zero => exact Nat.le_antisymm h h0
  | succ n ih =>
    have hl := length_reduceLevel (op := op) l
    rw [Nat.pow_succ] at h
    exact ih _ (by omega) (by omega)

theorem present_map (g : Nat → Nat) (on : Nat → Bool) (l : List Nat) :
    present (l.map (fun i => if on i then some (g i) else none)) = (l.filter on).map g := by
  induction l with
  | nil => rfl
  | cons i t ih =>
    simp only [present, List.filterMap_map, Function.id_comp] at ih ⊢
    cases h : on i <;> simp [h, ih]

theorem elems_le_pow_log2 (t : VTy) : 0 < t.elems ∧ t.elems ≤ 2 ^ log2 t.elems := by cases t <;> decide

/-- What the reduction of a register leaves: one element or, where none is active, the identity. -/
theorem reduceVec_keeps (hop : JoinKeeps op P) (t : VTy) (k : Reg256) (x : VecReg) (ident : Nat)
    (h : P (((upTo t.elems).filter (fun e => k.getLsbD e)).map (elemOf x t.width))) :
    ∃ o : Option Nat, P o.toList ∧ (reduceVec t k x ident op).1 = o.getD ident := by
  obtain ⟨h0, h1⟩ := elems_le_pow_log2 t
  rw [← present_map] at h
  have hP := reduceTree_keeps hop (log2 t.elems) _ h
  obtain ⟨o, ho⟩ := List.length_eq_one_iff.1 (length_reduceTree (op := op) (log2 t.elems)
    ((upTo t.elems).map (fun i => if k.getLsbD i then some (elemOf x t.width i) else none)) (by simpa using h0) (by simpa using h1))
  refine ⟨o, ?_, ?_⟩
  · rw [ho] at hP
    cases o <;> exact hP
  · simp only [reduceVec, ho, List.head?_cons, Option.getD_some]

end

/-! ## Integer sums and maxima -/

theorem intOf_emod (z : Bool) (w x : Nat) : intOf z w x % (2 ^ w : Nat) = (x % 2 ^ w : Nat) := by
  have hpos := Nat.two_pow_pos w
  cases z with
  | true => simp [intOf]
  | false =>
    simp only [intOf, signedOf, Bool.false_eq_true, if_false]
    split_ifs with h0
    · subst h0; simp [Nat.mod_one]
    · rw [← Int.natCast_emod, Nat.mod_mod]
    · rw [Int.sub_emod_right, ← Int.natCast_emod, Nat.mod_mod]

/-- An integer sum that wraps is the sum of the elements modulo 2^w (03 R98). -/
theorem intop2_add_wrap (t : VTy) (z : Bool) (p q : Nat) : (intop2 t z false (· + ·) p q).1 = (p + q) % 2 ^ t.width := by
  have h : (intOf z t.width p + intOf z t.width q) % (2 ^ t.width : Nat) = ((p + q) % 2 ^ t.width : Nat) := by
    rw [Int.add_emod, intOf_emod, intOf_emod]
    norm_cast
    rw [← Nat.add_mod]
  show ((intOf z t.width p + intOf z t.width q) % (2 ^ t.width : Nat)).toNat = _
  rw [h, Int.toNat_natCast]

/-- Elements of a type, with their sum modulo 2^w. -/
def SumsTo (w s : Nat) (l : List Nat) : Prop := l.sum % 2 ^ w = s ∧ ∀ x ∈ l, x < 2 ^ w

theorem joinKeeps_sum (t : VTy) (z : Bool) (s : Nat) : JoinKeeps (intop2 t z false (· + ·)) (SumsTo t.width s) := by
  rintro pre p q l ⟨hs, hlt⟩
  refine ⟨?_, fun x hx => ?_⟩
  · rw [← hs, intop2_add_wrap]
    simp only [List.sum_append, List.sum_cons]
    rw [← Nat.add_assoc p q, Nat.add_mod, Nat.add_mod ((p + q) % _), Nat.mod_mod, ← Nat.add_mod (p + q), ← Nat.add_mod]
  · simp only [List.mem_append, List.mem_cons] at hx hlt
    rcases hx with hx | rfl | hx
    · exact hlt x (.inl hx)
    · rw [intop2_add_wrap]; exact Nat.mod_lt _ (Nat.two_pow_pos _)
    · exact hlt x (.inr (.inr (.inr hx)))

theorem reduceVec_sum (t : VTy) (z : Bool) (k : Reg256) (x : VecReg) :
    (reduceVec t k x 0 (intop2 t z false (· + ·))).1 = (((upTo t.elems).filter (fun e => k.getLsbD e)).map (elemOf x t.width)).sum % 2 ^ t.width := by
  have hlt : ∀ y ∈ ((upTo t.elems).filter (fun e => k.getLsbD e)).map (elemOf x t.width), y < 2 ^ t.width := by
    rintro y hy
    obtain ⟨e, -, rfl⟩ := List.mem_map.1 hy
    exact elemOf_lt ..
  obtain ⟨o, ⟨hs, ho⟩, hr⟩ := reduceVec_keeps (joinKeeps_sum t z _) t k x 0 ⟨rfl, hlt⟩
  rw [hr, ← hs]
  cases o with
  | none => simp
  | some v => simpa using (Nat.mod_eq_of_lt (ho v (by simp))).symm

/-- Some of the elements of `l`, none of which is greater than all of them. -/
def Tops (f : Nat → Int) (l r : List Nat) : Prop := (∀ v ∈ r, v ∈ l) ∧ ∀ v ∈ l, ∃ u ∈ r, f v ≤ f u

/-- The greater of two integer elements is one of them. -/
theorem pickElem_max {t : VTy} (ht : t.isFloat = false) (z : Bool) (p q : Nat) :
    ((pickElem t z false p q).1 = p ∨ (pickElem t z false p q).1 = q)
      ∧ intOf z t.width p ≤ intOf z t.width (pickElem t z false p q).1 ∧ intOf z t.width q ≤ intOf z t.width (pickElem t z false p q).1 := by
  simp only [pickElem, ht, Bool.false_eq_true, if_false]
  split_ifs with h
  · exact ⟨.inr rfl, h.le, le_rfl⟩
  · exact ⟨.inl rfl, le_rfl, not_lt.1 h⟩

theorem joinKeeps_max {t : VTy} (ht : t.isFloat = false) (z : Bool) (l : List Nat) : JoinKeeps (pickElem t z false) (Tops (intOf z t.width) l) := by
  rintro pre p q r ⟨hsub, htop⟩
  obtain ⟨hone, hp, hq⟩ := pickElem_max ht z p q
  generalize (pickElem t z false p q).1 = g at hone hp hq ⊢
  simp only [List.mem_append, List.mem_cons] at hsub htop
  constructor
  · simp only [List.mem_append, List.mem_cons]
    rintro v (hv | rfl | hv)
    · exact hsub v (.inl hv)
    · exact hone.elim (fun h => hsub v (.inr (.inl h))) (fun h => hsub v (.inr (.inr (.inl h))))
    · exact hsub v (.inr (.inr (.inr hv)))
  · intro v hv
    simp only [List.mem_append, List.mem_cons]
    obtain ⟨u, hu | rfl | rfl | hu, hle⟩ := htop v hv
    · exact ⟨u, .inl hu, hle⟩
    · exact ⟨g, .inr (.inl rfl), hle.trans hp⟩
    · exact ⟨g, .inr (.inl rfl), hle.trans hq⟩
    · exact ⟨u, .inr (.inr hu), hle⟩

theorem reduceVec_max {t : VTy} (ht : t.isFloat = false) (z : Bool) (k : Reg256) (x : VecReg) (ident : Nat)
    (hne : (upTo t.elems).filter (fun e => k.getLsbD e) ≠ []) :
    (∃ e ∈ (upTo t.elems).filter (fun e => k.getLsbD e), (reduceVec t k x ident (pickElem t z false)).1 = elemOf x t.width e)
      ∧ ∀ e ∈ (upTo t.elems).filter (fun e => k.getLsbD e),
        intOf z t.width (elemOf x t.width e) ≤ intOf z t.width (reduceVec t k x ident (pickElem t z false)).1 := by
  obtain ⟨o, ⟨hsub, htop⟩, hr⟩ := reduceVec_keeps (joinKeeps_max ht z _) t k x ident ⟨fun _ h => h, fun v hv => ⟨v, hv, le_rfl⟩⟩
  obtain ⟨e0, he0⟩ := List.exists_mem_of_ne_nil _ hne
  cases o with
  | none =>
    obtain ⟨u, hu, -⟩ := htop _ (List.mem_map_of_mem he0)
    exact absurd hu List.not_mem_nil
  | some v =>
    rw [hr, Option.getD_some]
    obtain ⟨e, he, hv⟩ := List.mem_map.1 (hsub v (by simp))
    refine ⟨⟨e, he, hv.symm⟩, fun e' he' => ?_⟩
    obtain ⟨u, hu, hle⟩ := htop _ (List.mem_map_of_mem he')
    rwa [Option.mem_some_iff.1 (Option.mem_toList.1 hu)]

/-! ## The words (08 R280) -/

theorem exec_vrsum (m : Dep) (k : Fin 8) (ty : VTy) (z : Bool) (rm : RMode) (q sat : Bool) (d : VDst) (a : VSrc) (s : State) :
    exec (.vrsum m k ty z rm q sat d a) s = execVrsum m k ty z rm q sat d a s := by rfl
theorem exec_vrmax (m : Dep) (k : Fin 8) (ty : VTy) (z q : Bool) (d : VDst) (a : VSrc) (s : State) :
    exec (.vrmax m k ty z q d a) s = execVrmax m k ty z q d a s := by rfl

theorem intRange_le (z : Bool) (n : Nat) : (intRange z n).1 ≤ (intRange z n).2 := by
  have h1 : 0 < 2 ^ n := Nat.two_pow_pos n
  have h2 : 0 < 2 ^ (n - 1) := Nat.two_pow_pos (n - 1)
  cases z <;> simp only [intRange, Bool.false_eq_true, if_false, if_true] <;> omega

/-- An integer result clamped or wrapped (08 R273, 03 R79). -/
theorem narrow_eq_intoBits (z sat : Bool) (n : Nat) (x : Int) : narrow (if sat then .sat else .wrap) z n x = intoBits z sat n x := by
  have hlo : (if z then (0 : Int) else -(2 ^ (n - 1) : Nat)) = (intRange z n).1 := by cases z <;> rfl
  have hhi : (if z then ((2 ^ n : Nat) - 1 : Int) else (2 ^ (n - 1) : Nat) - 1) = (intRange z n).2 := by cases z <;> rfl
  have hle := intRange_le z n
  cases sat with
  | false => simp [narrow, intoBits, wrapTo]
  | true =>
    simp only [narrow, intoBits, satTo, if_true, hlo, hhi, true_and]
    generalize (intRange z n).1 = lo at hle ⊢
    generalize (intRange z n).2 = hi at hle ⊢
    by_cases h1 : x < lo
    · rw [if_pos h1, show max lo (min hi x) = lo by omega, if_pos (by omega)]; rfl
    by_cases h2 : hi < x
    · rw [if_neg h1, if_pos h2, show max lo (min hi x) = hi by omega, if_pos (by omega)]; rfl
    · rw [if_neg h1, if_neg h2, show max lo (min hi x) = x by omega, if_neg (not_not_intro rfl)]; rfl

theorem elemOf_vecOf_singleton (w v e : Nat) (hw : w ≤ 4096) : elemOf (vecOf w [v]) w e = (if e = 0 then v else 0) % 2 ^ w := by
  rw [elemOf_vecOf (by simpa using hw)]
  cases e <;> simp

theorem width_le (t : VTy) : t.width ≤ 4096 := by cases t <;> decide

/-- The value of a reduction as it goes into `ds` (08 R280). -/
def reducedDs (t : VTy) (z : Bool) (r : Nat) : Reg64 :=
  if t.isFloat ∨ z = true then BitVec.ofNat 64 (r % 2 ^ t.width) else BitVec.ofInt 64 (signedOf t.width r)

/-- A reduction writes its result into element 0 and, with `.q`, into `ds`. -/
theorem writes_reduceInto {i : Instr} {s : State} {f : Bank → Res Bank} {k : Bank} {t : VTy} {z q : Bool} {d : VDst} {r : Nat × FlagBits}
    (hx : exec i s = vecWord i s f) (hV : (Instr.hd i).eng = .V) (hr : VReady i s) (hk : Taken s.here k) (hf : f s.here = reduceInto t z q d r k)
    (hroom : q = true → k.room .ds 1 = true) :
    Writes i s t.width d (if q then k.reserve .ds s.here.engs.V.walk (reducedDs t z r.1) else k) (fun e => if e = 0 then r.1 else 0) r.2 := by
  have hv : (if t.isFloat || z then zext64 t.width r.1 else sext64 t.width r.1) = reducedDs t z r.1 := by
    simp only [Bool.or_eq_true]; rfl
  have hel : ∀ e, e < 4096 / t.width → elemOf (vecOf t.width [r.1]) t.width e = (if e = 0 then r.1 else 0) % 2 ^ t.width :=
    fun e _ => elemOf_vecOf_singleton t.width r.1 e (width_le t)
  rw [reduceInto, hv] at hf
  cases q with
  | false => exact writes_intoV hx hV hr showsOnly_nothing hk hf hel
  | true =>
    rw [pushDs, hroom rfl, hk.1] at hf
    exact writes_intoV hx hV hr (showsOnly_vis ..) (hk.trans (taken_reserve ..)) hf hel

/-- Settles O32: the words by the place of their result; integer sums and maxima by what a join of two elements keeps. -/
theorem vectorReductions : Obligations.VectorReductions := by
  unfold Obligations.VectorReductions
  intro s m k ty z q sat rm d a x k1 w on act into ha hroom
  refine ⟨fun hr => ?_, fun hr => ?_, fun _ => reduceVec_sum ty z _ x, fun ht hne => reduceVec_max ht z _ x _ hne⟩
  · have hnode : sumNode ty z rm sat = if ty.isFloat then flop2 ty rm (Fl.add rm) else fun p r => intoBits z sat w (intOf z w p + intOf z w r) := by
      unfold sumNode intop2
      simp only [narrow_eq_intoBits]
      rfl
    rw [← hnode]
    exact writes_reduceInto (exec_vrsum ..) rfl hr (taken_takeV ha) (withV_ok ha _) hroom
  · exact writes_reduceInto (exec_vrmax ..) rfl hr (taken_takeV ha) (withV_ok ha _) hroom

end Sys2Proof.Formats

/-!
SUPPORT. Conversions, reciprocal seeds and the VX4 words (08 R286 to R289; 03 R87 to R92): each lane by the function of its element.
-/

namespace Sys2Proof.Formats
open Sys2Proof.Machine

section
variable (m : Dep) (ctl : VCtl) (ty : VTy) (rm : RMode) (d : VDst) (a b : VSrc) (zs : Fin 8) (part : Fin 16) (rnd : VRnd) (s : State)

theorem exec_vcvt (dst src : CTy) (sz dz : Bool) (ov : Ov) (part : Fin 8) :
    exec (.vcvt m ctl dst src sz dz ov part rnd d a) s = execVcvt m ctl dst src sz dz ov part rnd d a s := by rfl
theorem exec_vrcpe : exec (.vrcpe m ctl ty d a) s = execVrcpe m ctl ty d a s := by rfl
theorem exec_vrsqe : exec (.vrsqe m ctl ty d a) s = execVrsqe m ctl ty d a s := by rfl
theorem exec_vqmax : exec (.vqmax m ty zs a b) s = execVqmax m ty zs a b s := by rfl
theorem exec_vqcvt : exec (.vqcvt m ty rnd part zs d a b) s = execVqcvt m ty rnd part zs d a b s := by rfl
theorem exec_vdq : exec (.vdq m ctl ty rm part zs d a b) s = execVdq m ctl ty rm part zs d a b s := by rfl

end

/-! ## Random sources (03 R87) -/

/-- A word that rounds by `rnd` has the random bits `r`, taken from `b`: none, or a source. -/
def RndTaken (b : Bank) (rnd : VRnd) (r : VecReg) (k : Bank) : Prop :=
  match rnd with
  | .mode _ => r = 0 ∧ k = b
  | .sr c => b.takeV c = .ok r k

section
variable {b k : Bank} {rnd : VRnd} {r : VecReg} (h : RndTaken b rnd r k)
include h

theorem withRnd_ok (f : VecReg → Bank → Res Bank) : withRnd b rnd f = f r k := by
  cases rnd with
  | mode rm =>
    obtain ⟨rfl, rfl⟩ := h
    rfl
  | sr c => exact withV_ok h f

theorem RndTaken.taken : Taken b k := by
  cases rnd with
  | mode rm =>
    obtain ⟨-, rfl⟩ := h
    exact Taken.refl _
  | sr c => exact taken_takeV h

end

/-- A lane of a part: an active one is computed, another of the part is zeroed or kept, and one outside it is kept (08 R286). -/
theorem ite_in_part {α : Type} (p q c z : Prop) [Decidable p] [Decidable q] [Decidable c] [Decidable z] (new zero old : α) :
    (if p ∧ q then if c then new else if z then zero else old else old)
      = if p ∧ q ∧ c then new else if p ∧ q ∧ z then zero else old := by
  by_cases hp : p <;> by_cases hq : q <;> simp only [hp, hq, true_and, false_and, and_false, if_true, if_false]

/-! ## Scales of VX4 (08 R289) -/

/-- The bytes of a scale register made one by one. -/
theorem scaleBytes (n : Nat) (f : Nat → Nat × FlagBits) (hn : n ≤ 32) (g : Nat) :
    (BitVec.ofNat 256 (packElems 8 (((upTo n).map f).map (·.1)))).toNat / 2 ^ (8 * g) % 2 ^ 8 = if g < n then (f g).1 % 2 ^ 8 else 0 := by
  rw [toNat_ofNat_packElems (by simpa using Nat.mul_le_mul_left 8 hn), packElems_field, List.map_map]
  split_ifs with hg
  · rw [getD_map_upTo _ 0 hg]; rfl
  · rw [List.getD_eq_default _ _ (by simpa using hg), Nat.zero_mod]

theorem blocks_le (t : VTy) : t.elems / 8 ≤ 32 := by cases t <;> decide

section
variable {m : Dep} {ctl : VCtl} {ty : VTy} {rm : RMode} {d : VDst} {a b : VSrc} {zs : Fin 8} {s : State} {x y : VecReg} {k1 k2 : Bank}
  (ha : s.here.takeV a = .ok x k1)
include ha

/-- `VCVT` (08 R286): the narrower type's elements go to, or come from, a part of the wider type's register. -/
theorem writes_vcvt {dst src : CTy} {sz dz : Bool} {ov : Ov} {part : Fin 8} {rnd : VRnd} {r : VecReg} {kr : Bank} (hrnd : RndTaken k1 rnd r kr)
    (hr : VReady (.vcvt m ctl dst src sz dz ov part rnd d a) s) {el : Nat → Nat × FlagBits}
    (hel : ∀ e, el e =
      let mm := min src.elems dst.elems
      let s0 := if dst.elems < src.elems then part.val * mm else 0
      let d0 := if src.elems < dst.elems then part.val * mm else 0
      if d0 ≤ e ∧ e < d0 + mm ∧ (kr.kreg ctl.k).getLsbD (e - d0) = true then
        convElem dst src sz dz ov rnd.mode' (rndField r e) (elemOf x src.width (s0 + (e - d0)))
      else if d0 ≤ e ∧ e < d0 + mm ∧ ctl.zm = true then (0, 0) else (elemOf (kr.oldV d) dst.width e, 0)) :
    Writes (.vcvt m ctl dst src sz dz ov part rnd d a) s dst.width d kr (fun e => (el e).1) (orFlags dst.elems (fun e => (el e).2)) := by
  refine writes_intoLanes (exec_vcvt ..) rfl hr ((taken_takeV ha).trans hrnd.taken) ((withV_ok ha _).trans ((withRnd_ok hrnd _).trans ?_))
  refine congrArg (intoLanes kr d dst.width) (funext fun e => ?_)
  simp only [hel, Bool.and_eq_true, decide_eq_true_eq]
  exact ite_in_part ..

/-- `VQMAX` (08 R289): a scale for each block of eight elements. -/
theorem gives_vqmax (hb : k1.takeV b = .ok y k2) (hr : VReady (.vqmax m ty zs a b) s) {q : Nat → Nat × FlagBits}
    (hq : ∀ g, q g = quantScale ((upTo 8).map (fun j => ty.ffmt.read (elemOf x ty.width (8 * g + j)))) (bandOf y)) :
    ∃ v : Reg256, (∀ g, g < 32 → v.toNat / 2 ^ (8 * g) % 2 ^ 8 = if g < ty.elems / 8 then (q g).1 % 2 ^ 8 else 0)
      ∧ Gives (.vqmax m ty zs a b) s s ((k2.setZreg zs v).raiseV (orFlags (ty.elems / 8) (fun g => (q g).2))) := by
  refine ⟨_, fun g _ => scaleBytes (ty.elems / 8) q (blocks_le ty) g, ?_⟩
  rw [← allFlags_map_upTo, funext hq]
  exact gives_laterV (exec_vqmax ..) rfl hr showsOnly_nothing ((taken_takeV ha).trans (taken_takeV hb)) ((withV_ok ha _).trans (withV_ok hb _)) rfl
    (fun _ _ => Eff.noConfusion)

/-- `VDQ` (08 R289): the value of each element of a part. -/
theorem elementwise_vdq (hb : k1.takeV b = .ok y k2) {part : Fin 16} (hr : VReady (.vdq m ctl ty rm part zs d a b) s) :
    Elementwise (.vdq m ctl ty rm part zs d a b) s ctl ty.width d k2 (fun e =>
      let p := (e2m1 (elemOf x 4 (part.val * ty.elems + e))).mul (e3m5F (scaleByte (k2.zreg zs) (e / 8)))
      let q := p.1.mul (bandOf y)
      ((ty.ffmt.round rm 0 q.1).1, p.2 ||| q.2 ||| (ty.ffmt.round rm 0 q.1).2)) :=
  elementwise_vBody (exec_vdq ..) rfl hr ((taken_takeV ha).trans (taken_takeV hb)) ((withV_ok ha _).trans (withV_ok hb _))

/-- `VQCVT` (08 R289): the elements go to a part of the register, whose other elements are kept. -/
theorem writes_vqcvt (hb : k1.takeV b = .ok y k2) {part : Fin 16} {rnd : VRnd} {r : VecReg} {kr : Bank} (hrnd : RndTaken k2 rnd r kr)
    (hr : VReady (.vqcvt m ty rnd part zs d a b) s) {el : Nat → Nat × FlagBits}
    (hel : ∀ e, el e =
      let lo := part.val * ty.elems
      if lo ≤ e ∧ e < lo + ty.elems then
        quantElem rnd.mode' (rndField r e) (scaleByte (kr.zreg zs) ((e - lo) / 8)) (bandOf y) (ty.ffmt.read (elemOf x ty.width (e - lo)))
      else (elemOf (kr.oldV d) 4 e, 0)) :
    Writes (.vqcvt m ty rnd part zs d a b) s 4 d kr (fun e => (el e).1) (orFlags 1024 (fun e => (el e).2)) := by
  refine writes_intoLanes (exec_vqcvt ..) rfl hr (((taken_takeV ha).trans (taken_takeV hb)).trans hrnd.taken)
    ((withV_ok ha _).trans ((withV_ok hb _).trans ((withRnd_ok hrnd _).trans ?_)))
  refine congrArg (intoLanes kr d 4) (funext fun e => ?_)
  simp only [hel, Bool.and_eq_true, decide_eq_true_eq]

end

/-- Settles O34: each word by its lanes, once its operands and its random source are taken in order. -/
theorem vectorConversions : Obligations.VectorConversions := by
  unfold Obligations.VectorConversions
  intro s m ctl ty rm d a b zs x y k1 k2 w n ha
  refine ⟨fun dst src sz dz ov part rnd r kr hrnd hr => ?_, elementwise_vec1 ha (exec_vrcpe ..) rfl, elementwise_vec1 ha (exec_vrsqe ..) rfl,
    fun hb => ⟨fun hr => gives_vqmax ha hb hr fun _ => rfl, fun part hr => elementwise_vdq ha hb hr, fun part rnd r kr hrnd hr => ?_⟩⟩
  · have hrnd' : RndTaken k1 rnd r kr := by cases rnd <;> exact hrnd
    exact writes_vcvt ha hrnd' hr fun _ => rfl
  · have hrnd' : RndTaken k2 rnd r kr := by cases rnd <;> exact hrnd
    exact writes_vqcvt ha hb hrnd' hr fun _ => rfl

end Sys2Proof.Formats

/-!
SUPPORT. M's runs (10 R342 to R344): the word at the head of the window takes effect in one move and is done with the next, and what a bank keeps of it.
-/

namespace Sys2Proof.Formats
open Sys2Proof.Machine

/-! ## What completion of a word's effect leaves -/

theorem onlyCeil_of_none {b : Bank} (h : b.flt = none) : b.onlyCeil := fun f hf => by simp [h] at hf

theorem settle_run (b : Bank) : b.settle.mx.run = b.mx.run := by
  have h := (Bank.settle_settles b).part .window rfl
  simp only [BankPart.same] at h
  exact h.2.1

theorem workDone_run (b : Bank) (e : Engine) (walk : Nat) (f : BitVec 6) : (b.workDone e walk f).mx.run = b.mx.run := by
  simp only [Bank.workDone, settle_run, Bank.setEng_mx]

theorem workDone_onlyCeil {b : Bank} {e : Engine} {walk : Nat} {f : BitVec 6} (h : b.onlyCeil) : (b.workDone e walk f).onlyCeil :=
  Bank.settle_onlyCeil _ (Bank.onlyCeil_of_flt h rfl)

theorem regs_run (w : WinEnt) (m : MatrixSt) : (w.regs m).run = m.run := by
  unfold WinEnt.regs
  split
  · rfl
  · rfl
  · rfl
  · split <;> rfl
  · split <;> rfl
  · split <;> rfl
  · rfl

/-- Words that leave the window start none. -/
theorem runRegs_run (n : Nat) (b : Bank) : (b.runRegs n).mx.run = b.mx.run := by
  induction n generalizing b with
  | zero => rfl
  | succ n ih =>
    unfold Bank.runRegs
    split
    · split
      · rw [ih, workDone_run]
        exact regs_run _ _
      · rfl
    · rfl

theorem runRegs_onlyCeil (n : Nat) {b : Bank} (h : b.onlyCeil) : (b.runRegs n).onlyCeil := by
  induction n generalizing b with
  | zero => exact h
  | succ n ih =>
    unfold Bank.runRegs
    split
    · split
      · exact ih (workDone_onlyCeil (Bank.onlyCeil_of_flt h rfl))
      · exact h
    · exact h

theorem endWord_run (b : Bank) (w : WinEnt) : (b.endWord w).mx.run = none := by
  rw [Bank.endWord, Bank.leadOff, runRegs_run, workDone_run]

theorem endWord_onlyCeil {b : Bank} (h : b.onlyCeil) (w : WinEnt) : (b.endWord w).onlyCeil :=
  runRegs_onlyCeil _ (workDone_onlyCeil (Bank.onlyCeil_of_flt h rfl))

/-! ## One move of M over the package -/

/-- A word of M that works on slots and has one pass. -/
def OnePass (i : Instr) : Prop := mxSlots i ≠ [] ∧ ∀ m acc ga gb nm1 ka kb set, i ≠ .mxBatch m acc ga gb nm1 ka kb set

theorem OnePass.not_instant {w : WinEnt} (h : OnePass w.instr) : w.instant = false := by
  rw [WinEnt.instant, List.isEmpty_eq_false_iff]
  exact h.1

/-- The bank of a word of M that has started, whose effect on slots and rings has left `c`. -/
def started (c : Bank) (w : WinEnt) (rest : List WinEnt) : Bank :=
  { c.setEng .M ((c.eng .M).holdSlots w) with mx := { c.mx with win := rest, run := some w, mid := true }, seq := { c.seq with wdog := 0 } }

theorem started_part (c : Bank) (w : WinEnt) (rest : List WinEnt) {q : BankPart} (hq : q ≠ .window) : BankPart.same (started c w rest) c q := by
  cases q <;> simp [BankPart.same, Bank.entries, started] at hq ⊢

theorem stepM_start {b c : Bank} {l : Loc} {w : WinEnt} {rest : List WinEnt} (hlive : b.live = true) (hrun : b.mx.run = none)
    (hwin : b.mx.win = w :: rest) (hw : w.instant = false) (hs : b.startEnt l w = .ok c) : b.stepM l = started c w rest := by
  have hstay : b.leadOff = b := Bank.runRegs_stay _ b (.inr (by simp [hwin, hw]))
  simp only [Bank.stepM, hrun, hstay, hwin, hlive, hw, Bool.not_false, Bool.and_self, if_true, Bank.startWord, hs]
  rfl

theorem endPass_eq (b : Bank) {w : WinEnt} (h : OnePass w.instr) : b.endPass w = ({ b with mx := { b.mx with mid := false } }).endWord w := by
  unfold Bank.endPass
  split
  · next hb => exact (h.2 _ _ _ _ _ _ _ _ hb).elim
  · rfl

theorem stepM_started {b : Bank} {l : Loc} {w : WinEnt} (hrun : b.mx.run = some w) (hmid : b.mx.mid = true) (h : OnePass w.instr) :
    b.stepM l = ({ b with mx := { b.mx with mid := false } }).endWord w := by
  simp only [Bank.stepM, hrun, hmid, if_true, endPass_eq b h]

theorem exec_matrixPassStart (l : Loc) (s : State) : exec (.matrixPassStart l) s = eccNote l s (.next (s.onBank l (fun b => b.stepM l))) := by rfl

/-- A move that makes the core take no fault but one of a semaphore's ceiling logs no memory error. -/
theorem exec_matrixPassStart_ok {l : Loc} {s : State} (h : ((s.bank l).stepM l).onlyCeil) :
    exec (.matrixPassStart l) s = .next (s.onBank l (fun b => b.stepM l)) := by
  have hb : ((s.onBank l (fun b => b.stepM l)).bank l).flt = ((s.bank l).stepM l).flt := by
    rw [State.onBank, bank_noteFault_of (fun b => b.flt) (fun _ _ => rfl), bank_setBank_same]
  rw [exec_matrixPassStart, eccNote]
  split
  · next f _ hf =>
    rw [h f (hb ▸ hf)]
    rfl
  · rfl

/-- M runs a word of one pass that may start: the bank it leaves at its start has what the word's effect left. -/
theorem runs_of_start {s : State} {l : Loc} {w : WinEnt} {c : Bank} {R : State → Prop} (hw : OnePass w.instr) (hs : (s.bank l).startEnt l w = .ok c)
    (hflt : c.flt = (s.bank l).flt)
    (hsame : ∀ q ∈ [BankPart.aregs, .vregs, .sregs, .mregs, .mbinds, .mflags], BankPart.same c (s.bank l) q)
    (hR : ∀ t rest, t.bank l = started c w rest → R t) : Runs s l w R := by
  intro rest hlive hrun hwin
  have hstep := stepM_start hlive hrun hwin hw.not_instant hs
  have hnone : (started c w rest).flt = none := by
    have := Encoding.flt_of_live hlive
    rw [← hflt] at this
    exact this
  have hceil : ((s.bank l).stepM l).onlyCeil := hstep ▸ onlyCeil_of_none hnone
  let t := s.setBank l (started c w rest)
  have ht : s.onBank l (fun b => b.stepM l) = t := by
    rw [State.onBank, hstep]
    exact noteFault_none _ _ (by rw [bank_setBank_same, hnone])
  have htl : t.bank l = started c w rest := bank_setBank_same ..
  have hstep2 : (t.bank l).stepM l = ({ t.bank l with mx := { (t.bank l).mx with mid := false } }).endWord w :=
    stepM_started (by rw [htl]; rfl) (by rw [htl]; rfl) hw
  have hceil2 : ((t.bank l).stepM l).onlyCeil :=
    hstep2 ▸ endWord_onlyCeil (onlyCeil_of_none (htl ▸ hnone)) w
  have hpart : ∀ q ∈ [BankPart.aregs, .vregs, .sregs, .mregs, .mbinds, .mflags], BankPart.same (t.bank l) (s.bank l) q := fun q hq =>
    BankPart.same_trans (htl ▸ started_part c w rest fun h => by simp [h] at hq) (hsame q hq)
  refine ⟨t, _, ht ▸ exec_matrixPassStart_ok hceil, exec_matrixPassStart_ok hceil2, hR t rest htl, by rw [htl]; rfl, by rw [htl]; rfl, rfl,
    fun m hm => ?_, hpart _ (by simp), hpart _ (by simp), hpart _ (by simp), hpart _ (by simp), hpart _ (by simp), hpart _ (by simp), ?_, ?_⟩
  · rw [bank_setBank_ne _ _ hm]
  · rw [State.onBank, bank_noteFault_of (fun b => b.mx) (fun _ _ => rfl), bank_setBank_same, hstep2]
    exact endWord_run ..
  · rw [State.onBank, noteFault_mem]
    rfl

end Sys2Proof.Formats

/-!
SUPPORT. Cells of accumulator slots (10 R340): what a change of some cells of a slot leaves in each, and what a floating-point pass does to its slot
(10 R346, R351, R353; 03 R96).
-/

namespace Sys2Proof.Formats
open Sys2Proof.Machine

/-! ## One cell -/

/-- Two banks that agree but for cells, saturation bits and the flags that M's started word raises. -/
def CellsOnly (b c : Bank) : Prop := ∃ acc sat raised, c = { b with mx := { b.mx with acc, sat, raised } }

theorem CellsOnly.refl (b : Bank) : CellsOnly b b := ⟨_, _, _, rfl⟩

theorem CellsOnly.trans {a b c : Bank} (h : CellsOnly a b) (g : CellsOnly b c) : CellsOnly a c := by
  obtain ⟨_, _, _, rfl⟩ := h
  obtain ⟨_, _, _, rfl⟩ := g
  exact ⟨_, _, _, rfl⟩

theorem CellsOnly.flt {b c : Bank} (h : CellsOnly b c) : c.flt = b.flt := by
  obtain ⟨_, _, _, rfl⟩ := h
  rfl

theorem CellsOnly.part {b c : Bank} (h : CellsOnly b c) {q : BankPart} (hc : q ≠ .cells) (hw : q ≠ .window) : BankPart.same c b q := by
  obtain ⟨_, _, _, rfl⟩ := h
  cases q <;> simp [BankPart.same, Bank.entries] at hc hw ⊢

theorem cell_setCell (b : Bank) (slot k n i : Nat) (v : AccCell) (hk : k < 1024) (hi : i < 1024) :
    (b.setCell slot k v).cell n i = if n = slot ∧ i = k then v else b.cell n i := by
  unfold Bank.setCell Bank.cell
  split_ifs with h
  · obtain ⟨rfl, rfl⟩ := h
    exact spGet_spPut_same ..
  · exact spGet_spPut_ne _ _ _ (by omega)

theorem cell_noteSat (b : Bank) (slot n i : Nat) (f : FlagBits) : (b.noteSat slot f).cell n i = b.cell n i := by
  unfold Bank.noteSat
  split <;> rfl

/-- A cell written with its flags. -/
theorem cell_putCell (b : Bank) (slot row col n i : Nat) (r : AccCell × FlagBits) (hk : 32 * row + col < 1024) (hi : i < 1024) :
    (b.putCell slot row col r).cell n i = if n = slot ∧ i = 32 * row + col then r.1 else b.cell n i := by
  rw [← cell_setCell b slot _ n i r.1 hk hi]
  exact cell_noteSat ..

theorem cellsOnly_putCell (b : Bank) (slot row col : Nat) (r : AccCell × FlagBits) : CellsOnly b (b.putCell slot row col r) := by
  unfold Bank.putCell Bank.noteSat
  split <;> exact ⟨_, _, _, rfl⟩

/-! ## Cells of a shape -/

/-- A cell of a slot changed by a function of its row, its column and what it holds. -/
def changeCell (slot : Nat) (f : Nat → Nat → AccCell → AccCell × FlagBits) (b : Bank) (p : Nat × Nat) : Bank :=
  b.putCell slot p.1 p.2 (f p.1 p.2 (b.cell slot (32 * p.1 + p.2)))

/-- The rows and columns of a shape within a slot. -/
def shapeCells (rows cols : Nat) : List (Nat × Nat) := List.range (min rows 32) ×ˢ List.range (min cols 32)

theorem mem_shapeCells {rows cols : Nat} {p : Nat × Nat} : p ∈ shapeCells rows cols ↔ (p.1 < rows ∧ p.1 < 32) ∧ p.2 < cols ∧ p.2 < 32 := by
  obtain ⟨i, j⟩ := p
  simp [shapeCells]

theorem nodup_shapeCells (rows cols : Nat) : (shapeCells rows cols).Nodup := List.nodup_range.product List.nodup_range

theorem mapCells_eq (b : Bank) (slot rows cols : Nat) (f : Nat → Nat → AccCell → AccCell × FlagBits) :
    b.mapCells slot rows cols f = (shapeCells rows cols).foldl (changeCell slot f) b := by
  simp only [Bank.mapCells, shapeCells, upTo_eq_range, SProd.sprod, List.product, List.foldl_flatMap, List.foldl_map]
  rfl

section
variable {slot : Nat} {f : Nat → Nat → AccCell → AccCell × FlagBits}

/-- Cells outside some rows and columns stay. -/
theorem cell_foldl_changeCell_out (l : List (Nat × Nat)) (hl : ∀ p ∈ l, p.1 < 32 ∧ p.2 < 32) (b : Bank) {n i : Nat} (hi : i < 1024)
    (h : ∀ p ∈ l, ¬ (n = slot ∧ i = 32 * p.1 + p.2)) : (l.foldl (changeCell slot f) b).cell n i = b.cell n i := by
  induction l generalizing b with
  | nil => rfl
  | cons p t ih =>
    have hp := hl p (List.mem_cons_self ..)
    rw [List.foldl_cons, ih (fun q hq => hl q (List.mem_cons_of_mem _ hq)) _ (fun q hq => h q (List.mem_cons_of_mem _ hq)), changeCell,
      cell_putCell _ _ _ _ _ _ _ (by omega) hi, if_neg (h p (List.mem_cons_self ..))]

/-- Each cell of some rows and columns, each named once, is changed from what it held. -/
theorem cell_foldl_changeCell_in (l : List (Nat × Nat)) (hl : ∀ p ∈ l, p.1 < 32 ∧ p.2 < 32) (hnd : l.Nodup) (b : Bank) {p : Nat × Nat} (hp : p ∈ l) :
    (l.foldl (changeCell slot f) b).cell slot (32 * p.1 + p.2) = (f p.1 p.2 (b.cell slot (32 * p.1 + p.2))).1 := by
  induction l generalizing b with
  | nil => exact absurd hp List.not_mem_nil
  | cons q t ih =>
    have hq := hl q (List.mem_cons_self ..)
    have hp' := hl p hp
    have ht : ∀ r ∈ t, r.1 < 32 ∧ r.2 < 32 := fun r hr => hl r (List.mem_cons_of_mem _ hr)
    obtain ⟨hqt, hnd⟩ := List.nodup_cons.1 hnd
    have hne : ∀ r ∈ t, r ≠ q := fun r hr h => hqt (h ▸ hr)
    rw [List.foldl_cons]
    rcases List.mem_cons.1 hp with rfl | hpt
    · rw [cell_foldl_changeCell_out t ht _ (by omega) fun r hr h => hne r hr (Prod.ext (by have := ht r hr; omega) (by have := ht r hr; omega)),
        changeCell, cell_putCell _ _ _ _ _ _ _ (by omega) (by omega), if_pos ⟨rfl, rfl⟩]
    · rw [ih ht hnd _ hpt, changeCell, cell_putCell _ _ _ _ _ _ _ (by omega) (by omega),
        if_neg fun h => hne p hpt (Prod.ext (by omega) (by omega))]

theorem cellsOnly_foldl_changeCell (l : List (Nat × Nat)) (b : Bank) : CellsOnly b (l.foldl (changeCell slot f) b) := by
  induction l generalizing b with
  | nil => exact CellsOnly.refl b
  | cons p t ih => exact (cellsOnly_putCell ..).trans (ih _)

end

section
variable (b : Bank) (slot rows cols : Nat) (f : Nat → Nat → AccCell → AccCell × FlagBits)

theorem shapeCells_lt : ∀ p ∈ shapeCells rows cols, p.1 < 32 ∧ p.2 < 32 := fun _ hp => ⟨(mem_shapeCells.1 hp).1.2, (mem_shapeCells.1 hp).2.2⟩

/-- A cell of the changed slot: within the shape it is changed from what it held. -/
theorem cell_mapCells {i j : Nat} (hi : i < 32) (hj : j < 32) : (b.mapCells slot rows cols f).cell slot (32 * i + j) =
    if i < rows ∧ j < cols then (f i j (b.cell slot (32 * i + j))).1 else b.cell slot (32 * i + j) := by
  have hlt := shapeCells_lt rows cols
  rw [mapCells_eq]
  split_ifs with h
  · exact cell_foldl_changeCell_in _ hlt (nodup_shapeCells rows cols) b (p := (i, j)) (mem_shapeCells.2 ⟨⟨h.1, hi⟩, h.2, hj⟩)
  · refine cell_foldl_changeCell_out _ hlt b (by omega) fun p hp he => h ?_
    have := hlt p hp
    obtain ⟨⟨hr, -⟩, hc, -⟩ := mem_shapeCells.1 hp
    exact ⟨by omega, by omega⟩

/-- A cell of another slot stays. -/
theorem cell_mapCells_ne {n k : Nat} (hn : n ≠ slot) (hk : k < 1024) : (b.mapCells slot rows cols f).cell n k = b.cell n k := by
  rw [mapCells_eq]
  exact cell_foldl_changeCell_out _ (shapeCells_lt rows cols) b hk fun _ _ h => hn h.1

theorem cellsOnly_mapCells : CellsOnly b (b.mapCells slot rows cols f) := by
  rw [mapCells_eq]
  exact cellsOnly_foldl_changeCell ..

end

/-! ## A floating-point pass (10 R353) -/

/-- What is missing of an operand counts as +0. -/
theorem cellF_zeros (cseq : BitVec 32) (negp : Bool) (g kc k : Nat) (set : Bool) (c : AccCell) :
    cellF cseq negp g kc k set ((upTo k).map fun _ => .fin false 0 1 0) ((upTo k).map fun _ => .fin false 0 1 0) c = cellF cseq negp g kc k set [] [] c := by
  have h : ∀ j, ((upTo k).map fun _ => Fl.fin false 0 1 0).getD j (.fin false 0 1 0) = ([] : List Fl).getD j (.fin false 0 1 0) := fun j => by
    rw [List.getD_eq_getElem?_getD, List.getElem?_map]
    cases (upTo k)[j]? <;> rfl
  simp only [cellF, h]

/-- The products of a cell in a pass: one in `MX.GER`, one for each element along dimension 0 in `MX.MMA`. -/
def passLen (ger : Bool) (oa : Opnd) : Nat := if ger then 1 else (tdescOf oa.tdr).elems0

/-- The elements that a pass forms of an operand, row by row or column by column, with the flags of forming them (10 R346, R354). -/
def formed (b : Bank) (ger : Bool) (o : Opnd) (p n rows : Nat) : List (List (Fl × FlagBits)) :=
  (upTo rows).map fun i => (upTo n).map fun k => b.opElem o p (if ger then (i, 0) else (k, i)).1 (if ger then (i, 0) else (k, i)).2

/-- The elements of one row or column of an operand. -/
def passElems (b : Bank) (ger : Bool) (o : Opnd) (p n i : Nat) : List Fl :=
  (upTo n).map fun k => if ger then (b.opElem o p i 0).1 else (b.opElem o p k i).1

theorem formed_getD (b : Bank) (ger : Bool) (o : Opnd) (p n : Nat) {rows i : Nat} (hi : i < rows) :
    ((formed b ger o p n rows).getD i []).map (·.1) = passElems b ger o p n i := by
  rw [formed, getD_map_upTo _ _ hi, List.map_map]
  cases ger <;> rfl

/-- Whether a ring of a pass is idle (04 R116). -/
def passIdle (oa ob : Opnd) : Bool := oa.src == .idle || ob.src == .idle

theorem passIdle_iff {oa ob : Opnd} : passIdle oa ob = true ↔ oa.src = .idle ∨ ob.src = .idle := by
  simp [passIdle]

/-- What a floating-point pass reads of an operand for one row or column: zeros where a ring is idle. -/
def passList (b : Bank) (ger idle : Bool) (o : Opnd) (p n i : Nat) : List Fl :=
  if idle then (upTo n).map fun _ => .fin false 0 1 0 else passElems b ger o p n i

section
variable (b : Bank) (ger set : Bool) (slot : Nat) {oa ob : Opnd} (pa pb : Nat) {gr kc : Nat} (hfmt : (tdescOf oa.tdr).fmt ≠ 0)
  (hpair : pairOf (tdescOf oa.tdr).fmt (tdescOf ob.tdr).fmt = some (gr, kc))
include hfmt hpair

/-- With an idle ring every product is +0 and no flag is raised (04 R116). -/
theorem pass_idle (h : passIdle oa ob = true) : b.pass ger set slot oa ob pa pb = b.mapCells slot b.mx.rows b.mx.cols
    (fun _ _ c => ((cellF b.mx.cseq false gr kc (passLen ger oa) set [] [] c).1, 0)) := by
  simp only [Bank.pass, hpair, if_pos (passIdle_iff.1 h), if_neg hfmt]
  rfl

/-- A pass without an idle ring raises the flags of forming its operands, and joins their elements into the cells of the granted shape. -/
theorem pass_formed (h : passIdle oa ob = false) :
    let x := formed b ger oa pa (passLen ger oa) b.mx.rows
    let y := formed b ger ob pb (passLen ger oa) b.mx.cols
    b.pass ger set slot oa ob pa pb = (b.raiseM (formFlags x ||| formFlags y)).mapCells slot b.mx.rows b.mx.cols (fun i j =>
      cellF b.mx.cseq b.mx.negp gr kc (passLen ger oa) set ((x.getD i []).map (·.1)) ((y.getD j []).map (·.1))) := by
  have hidle : ¬ (oa.src = .idle ∨ ob.src = .idle) := fun hi => by simp [passIdle_iff.2 hi] at h
  simp only [Bank.pass, hpair, if_neg hidle, if_neg hfmt]
  rfl

theorem cellsOnly_pass : CellsOnly b (b.pass ger set slot oa ob pa pb) := by
  cases h : passIdle oa ob with
  | true =>
    rw [pass_idle b ger set slot pa pb hfmt hpair h]
    exact cellsOnly_mapCells ..
  | false =>
    rw [pass_formed b ger set slot pa pb hfmt hpair h]
    exact CellsOnly.trans ⟨_, _, _, rfl⟩ (cellsOnly_mapCells (b.raiseM _) ..)

theorem cell_pass_ne {n k : Nat} (hn : n ≠ slot) (hk : k < 1024) : (b.pass ger set slot oa ob pa pb).cell n k = b.cell n k := by
  cases h : passIdle oa ob with
  | true => rw [pass_idle b ger set slot pa pb hfmt hpair h, cell_mapCells_ne _ _ _ _ _ hn hk]
  | false =>
    rw [pass_formed b ger set slot pa pb hfmt hpair h, cell_mapCells_ne _ _ _ _ _ hn hk]
    rfl

/-- A cell after a floating-point pass (10 R353). -/
theorem cell_pass {i j : Nat} (hi : i < 32) (hj : j < 32) : (b.pass ger set slot oa ob pa pb).cell slot (32 * i + j) =
    if i < b.mx.rows ∧ j < b.mx.cols then
      (cellF b.mx.cseq (!passIdle oa ob && b.mx.negp) gr kc (passLen ger oa) set (passList b ger (passIdle oa ob) oa pa (passLen ger oa) i)
        (passList b ger (passIdle oa ob) ob pb (passLen ger oa) j) (b.cell slot (32 * i + j))).1
    else b.cell slot (32 * i + j) := by
  cases h : passIdle oa ob with
  | true =>
    rw [pass_idle b ger set slot pa pb hfmt hpair h, cell_mapCells _ _ _ _ _ hi hj]
    simp only [passList, if_true, cellF_zeros, Bool.not_true, Bool.false_and]
  | false =>
    rw [pass_formed b ger set slot pa pb hfmt hpair h, cell_mapCells _ _ _ _ _ hi hj]
    refine if_ctx_congr Iff.rfl (fun hin => ?_) (fun _ => rfl)
    rw [formed_getD b ger oa pa _ hin.1, formed_getD b ger ob pb _ hin.2]
    rfl

end

/-! ## The words (10 R352 to R354) -/

/-- The pass of a word, once both its operands are found. -/
theorem startPass_ok {b : Bank} {l : Loc} {w : WinEnt} {ger set : Bool} {slot pa pb : Nat} {oa ob : Opnd} (ha : w.opA = some oa) (hb : w.opB = some ob)
    (hheld : b.slotHeld slot = false) (hpa : Finds b l w oa pa) (hpb : Finds b l w ob pb) :
    b.startPass l w ger set slot = .ok (b.pass ger set slot oa ob pa pb) := by
  simp only [Bank.startPass, ha, hb, hheld, hpa.1, hpb.1, hpa.2, hpb.2, Bool.false_eq_true, if_false]

/-- `MX.GER`, or `MX.MMA`. -/
def passWord (ger : Bool) (m : Dep) (acc : Fin 1024) (ga gb : Fin 16) (ka kb : Bool) (wt : Option (SemUse 16)) (sg : Option (SemUse 8)) (set : Bool) :
    Instr :=
  if ger then .mxGer m acc ga gb ka kb wt sg set else .mxMma m acc ga gb ka kb wt sg set

section
variable {ger : Bool} {m : Dep} {acc : Fin 1024} {ga gb : Fin 16} {ka kb : Bool} {wt : Option (SemUse 16)} {sg : Option (SemUse 8)} {set : Bool}

theorem onePass_passWord : OnePass (passWord ger m acc ga gb ka kb wt sg set) := by
  cases ger
  · exact ⟨List.cons_ne_nil _ _, fun _ _ _ _ _ _ _ _ => Instr.noConfusion⟩
  · exact ⟨List.cons_ne_nil _ _, fun _ _ _ _ _ _ _ _ => Instr.noConfusion⟩

theorem startEnt_passWord (b : Bank) (l : Loc) {w : WinEnt} (hw : w.instr = passWord ger m acc ga gb ka kb wt sg set) :
    b.startEnt l w = b.startPass l w ger set acc.val := by
  unfold Bank.startEnt
  cases ger <;> rw [hw] <;> rfl

end

/-- Settles O26: the word at the head of the window starts as its pass, which changes each cell of the granted shape. -/
theorem floatPass : Obligations.FloatPass := by
  unfold Obligations.FloatPass
  intro s l w m acc ga gb ka kb set ger wt sg oa ob pa pb gr kc b n idle zeros x y hw ha hb hfmt hpair hheld hpa hpb
  have hword : w.instr = passWord ger m acc ga gb ka kb wt sg set := hw
  have hc := cellsOnly_pass b ger set acc.val pa pb hfmt hpair
  refine runs_of_start (hword ▸ onePass_passWord) ((startEnt_passWord b l hword).trans (startPass_ok ha hb hheld hpa hpb)) hc.flt
    (fun q hq => hc.part (fun h => by simp [h] at hq) (fun h => by simp [h] at hq)) fun t rest ht => ?_
  · have hcell : ∀ n k, (t.bank l).cell n k = (b.pass ger set acc.val oa ob pa pb).cell n k := fun n k => by rw [ht]; rfl
    refine ⟨fun i j hi hj => ?_, fun n k hn hk => ?_⟩
    · rw [hcell]
      exact cell_pass b ger set acc.val pa pb hfmt hpair hi hj
    · rw [hcell]
      exact cell_pass_ne b ger set acc.val pa pb hfmt hpair hn hk

end Sys2Proof.Formats

/-!
SUPPORT. Words of S whose issue lets a word of V retire in the same turn (02 R42): what the model evaluates to in a state where V's word waits for nothing.
-/

namespace Sys2Proof.Sequencer
open Sys2Proof.Machine

/-- Whether an answer is a next state with a property. -/
def answers (o : Out) (p : State → Bool) : Bool :=
  match o with
  | .next t => p t
  | _ => false

theorem of_answers {o : Out} {p : State → Bool} {t : State} (h : answers o p = true) (ho : o = .next t) : p t = true := by
  subst ho
  exact h

/-- Core 0 runs with a bank, and S has the turn. -/
def running (b : Bank) : State := { State.reset with cores := [(0, { b0 := { b with st := .run } })] }

/-- `ds` holds an entry for S and, behind it, the one that a `VSTAT` reserved, whose word has issued and waits for nothing; V's status is 1. -/
def statWaits : State := running {
  engs := { V := { pc := 2, walk := 2, rets := [⟨1, 1, 0, 0, [], [.stat .V false 1], []⟩] } }
  queues := { ds := [⟨0, 7, true⟩, ⟨1, 0, false⟩] }
  vec := { flags := 1 } }

/-- With its turn at `MOV s1, ds`, S takes its entry, and V's word retires: the entry behind takes the status. -/
theorem statWaits_mov : answers (exec (.movFromDs {} 1) statWaits) (fun t => t.here.entries .ds == [(1, 1)]) = true := by decide +kernel

/-- Refutes O1: `MOV sd, ds` is said to leave the entries behind the head as they were, whatever is in flight; but the retirement that its issue brings fills an
entry that a word of V reserved. -/
theorem not_scalarWords : ¬ Obligations.ScalarWords := by
  unfold Obligations.ScalarWords
  rintro ⟨-, ⟨hmoves, -⟩, -⟩
  obtain ⟨-, -, -, hds, -⟩ := hmoves statWaits {} 1 1
  obtain ⟨t, hx, ⟨-, hentries⟩, -⟩ := hds 7 ⟨by decide, by decide⟩ (by unfold SFree; decide) (by decide)
  have hfilled : t.here.entries .ds = [(1, 1)] := by simpa using of_answers statWaits_mov hx
  rw [hfilled] at hentries
  exact absurd hentries (by decide)

/-- S is at an `ENDL.rot` of a loop with a rotation entry, and a word of V that writes `z0` has issued and waits for nothing. -/
def scaleWaits : State := running {
  hdr := { rots := [(0, ⟨2, 2, 1⟩)] }
  engs := { S := { lc := [(0, 1)] }, V := { pc := 1, walk := 1, rets := [⟨0, 0, 0, 0, [], [.zreg 0 1], [64]⟩] } } }

/-- With its turn at the `ENDL.rot`, S goes on, and V's word retires: `z0` takes its value. -/
theorem scaleWaits_endl : answers (exec (.endl {} 0 true) scaleWaits) (fun t => t.here.zreg 0 == 1) = true := by decide +kernel

/-- Refutes O5: an `ENDL.rot` of S is said to leave V's scale registers as they were, whatever is in flight; but the retirement that its issue brings writes the
result of a word of V. -/
theorem not_loops : ¬ Obligations.Loops := by
  unfold Obligations.Loops
  rintro ⟨-, hends⟩
  obtain ⟨-, -, hrot⟩ := hends scaleWaits {} 0
  obtain ⟨t, hx, ⟨-, hz⟩, -⟩ := hrot ⟨2, 2, 1⟩ ⟨by decide, by decide⟩ (by decide) (by decide) (by decide) (by decide) (by decide) (by decide)
  have hwritten : t.here.zreg 0 = 1 := by simpa using of_answers scaleWaits_endl hx
  have hkept : t.here.zreg 0 = 0 := hz 0
  rw [hwritten] at hkept
  exact absurd hkept (by decide)

end Sys2Proof.Sequencer

/-!
SUPPORT. Semaphores (04 R118; 10 R361, 11 R389): a wait takes its value off the count at issue, a signal adds its value as its word retires. A word of M that
works on no slot and is alone in the window leaves it in the turn that issues it, and so is as good as one that waits for nothing (10 R342).
-/

namespace Sys2Proof.Sequencer
open Sys2Proof.Machine

/-! ## Counts -/

theorem semCount_setSem (b : Bank) (n k : Fin 32) (v : Nat) : (b.setSem n v).semCount k = if k = n then v else b.semCount k := by
  unfold Bank.setSem Bank.semCount
  split_ifs with h
  · subst h; exact spGet_spPut_same ..
  · exact spGet_spPut_ne _ _ _ (fun e => h (Fin.ext e))

theorem setSem_part (b : Bank) (n : Fin 32) (v : Nat) (q : BankPart) (h : q ≠ .sems) : BankPart.same (b.setSem n v) b q := by
  cases q <;> simp [BankPart.same, Bank.entries, Bank.setSem] at h ⊢

theorem semCount_of_part {t b : Bank} (h : BankPart.same t b .sems) (k : Fin 32) : t.semCount k = b.semCount k := by
  unfold Bank.semCount; rw [show t.seq.sem = b.seq.sem from h]

theorem semWait_ok {b : Bank} {n : Fin 32} {v : Nat} (hc : v ≤ b.semCeil n) (hv : v ≤ b.semCount n) :
    semWait n v b = .ok (b.setSem n (b.semCount n - v)) {} := by
  unfold semWait; rw [if_neg (Nat.not_lt.2 hc), if_neg (Nat.not_lt.2 hv)]

theorem pending_of_calm {b : Bank} (hc : b.calm) (e : Engine) (regs : List Nat) : b.pending e regs = false := by
  unfold Bank.pending; rw [(hc e).1]; rfl

theorem apply_sem {b : Bank} {n : Fin 32} {v : Nat} (pc : Nat) (h : b.semCount n + v ≤ b.semCeil n) :
    b.apply pc (.sem n v) = b.setSem n (b.semCount n + v) := if_neg (Nat.not_lt.2 h)

/-! ## The word that issues with nothing else in flight -/

/-- The bank in which a word has joined the words in flight and its engine has gone on. -/
def awaiting (b : Bank) (h : Head) (p : Plain) : Bank :=
  { b.setEng h.eng ((((b.eng h.eng).popTokens h.dep).await h p).pass h.ext p.jump) with seq := { b.seq with wdog := 0 } }

theorem issued_eq_settle (b : Bank) (h : Head) (p : Plain) : b.issued h p = (awaiting b h p).settle := rfl

theorem awaiting_self (b : Bank) (h : Head) (p : Plain) :
    (awaiting b h p).eng h.eng = (((b.eng h.eng).popTokens h.dep).await h p).pass h.ext p.jump := Bank.eng_setEng_same ..

theorem awaiting_other (b : Bank) (h : Head) (p : Plain) {e : Engine} (he : e ≠ h.eng) : (awaiting b h p).eng e = b.eng e := Bank.eng_setEng_ne b _ he

theorem before_ne (e : Engine) : e.before ≠ e := by cases e <;> decide

theorem after_ne (e : Engine) : e.after ≠ e := by cases e <;> decide

/-- A fault that a word's effects take as it retires is the bank's. -/
theorem issued_flt (b : Bank) (h : Head) (p : Plain) (hc : b.calm) (hw : p.waits = []) (ha : p.async = false) (hp : b.canPop p.effs = true)
    (h1 : b.roomBefore h.eng h.dep.sp = true) (h2 : b.roomAfter h.eng h.dep.sn = true) :
    (b.issued h p).flt = (b.applyAll (b.eng h.eng).pc p.effs).flt := by
  have hr : ((awaiting b h p).eng h.eng).rets = [⟨(b.eng h.eng).walk, (b.eng h.eng).pc, h.dep.sp, h.dep.sn, [], p.effs, p.writes⟩] := by
    rw [awaiting_self]
    simp [EngSt.pass, EngSt.await, EngSt.popTokens, (hc h.eng).1, hw, ha]
  have k1 : (awaiting b h p).roomBefore h.eng h.dep.sp = true := by
    unfold Bank.roomBefore at *; rw [awaiting_other _ _ _ (before_ne _)]; exact h1
  have k2 : (awaiting b h p).roomAfter h.eng h.dep.sn = true := by
    unfold Bank.roomAfter at *; rw [awaiting_other _ _ _ (after_ne _)]; exact h2
  have k3 : (awaiting b h p).canPop p.effs = true := hp
  have hsame : AllSame ((awaiting b h p).setEng h.eng { (awaiting b h p).eng h.eng with rets := [] }) b := fun q => by
    cases q <;> simp [BankPart.same, Bank.entries, awaiting]
  rw [Bank.issued_calm b h p hc, show ({ b.setEng h.eng _ with seq := _ } : Bank) = awaiting b h p from rfl, Bank.retireEng_one _ _ _ hr]
  simp only [List.isEmpty_nil, k1, k2, k3, Bool.and_self, if_true]
  rw [← (AllSame.applyAll (b.eng h.eng).pc p.effs hsame rfl).2]
  split_ifs <;> rfl

/-! ## A word that completes with a changed count -/

/-- Raising no flag of M changes nothing. -/
theorem applyAll_noFlags (pc : Nat) (b : Bank) : b.applyAll pc [.flags .M 0] = b := by
  simp [Bank.applyAll, Bank.apply, Bank.setStatus, Bank.status]

/-- A word that issues with nothing else in flight, waits for nothing and whose effects change nothing leaves every piece, whether or not it retires. -/
theorem issued_same {b : Bank} (hc : b.calm) (h : Head) {p : Plain} (hw : p.waits = []) (ha : p.async = false)
    (he : ∀ c : Bank, c.applyAll (b.eng h.eng).pc p.effs = c) : AllSame (b.issued h p) b := by
  have hr : ((awaiting b h p).eng h.eng).rets = [⟨(b.eng h.eng).walk, (b.eng h.eng).pc, h.dep.sp, h.dep.sn, [], p.effs, p.writes⟩] := by
    rw [awaiting_self]
    simp [EngSt.pass, EngSt.await, EngSt.popTokens, (hc h.eng).1, hw, ha]
  rw [Bank.issued_calm b h p hc, show ({ b.setEng h.eng _ with seq := _ } : Bank) = awaiting b h p from rfl, Bank.retireEng_one _ _ _ hr]
  intro q
  dsimp only
  rw [he]
  split_ifs
  all_goals cases q <;> simp [BankPart.same, Bank.entries, awaiting, Bank.pushBefore, Bank.pushAfter]

/-- A word that issues with nothing else in flight completes with the pieces of the bank it leaves. -/
theorem does_allSame {i : Instr} {s : State} {ex : List BankPart} {R : State → Prop} {b c : Bank} {p : Plain}
    (hx : exec i s = .next ((s.setBank s.cur.loc b).issue i p)) (hj : p.jump = none) (hst : b.st = s.here.st)
    (hw : ∀ e, b.eng e = s.here.eng e) (hall : AllSame (b.issued (Instr.hd i) p) c) (hp : ∀ q, q ∉ ex → BankPart.same c s.here q)
    (hR : ∀ t, t.cur = s.cur → AllSame t.here c → R t) : Does i s ex R := by
  obtain ⟨t, hxt, ht, hk, hm, hl⟩ := does_issue i s allParts (fun t => t = (s.setBank s.cur.loc b).issue i p) b p hx hj hst
    (fun e => hw e ▸ EngSt.sameWalk_refl _) (fun h e => hw e ▸ h e) (fun q hq => absurd (mem_allParts q) hq) (fun _ _ q _ => mem_allParts q)
    (fun _ h _ _ => h)
  have hts : AllSame t.here c := fun q => by
    rw [ht, issue_setBank]
    refine here_noteFault_part (s.setBank s.cur.loc _) _ q ?_
    rw [show (s.setBank s.cur.loc (b.issued (Instr.hd i) p)).here = b.issued (Instr.hd i) p from here_setBank s _]
    exact hall q
  exact ⟨t, hxt, hR t (by rw [ht, issue_setBank, noteFault_cur, setBank_cur]) hts, ⟨hk.1, fun q hq _ => BankPart.same_trans (hts q) (hp q hq)⟩, hm, hl⟩

/-- A word that issues over its bank with the count lowered, and as it retires changes nothing. -/
theorem does_lowers {i : Instr} {s : State} {n : Fin 32} {v : Nat} {b : Bank} {p : Plain} {ex : List BankPart}
    (hx : exec i s = .next ((s.setBank s.cur.loc b).issue i p)) (hj : p.jump = none) (hst : b.st = s.here.st)
    (hw : ∀ e, b.eng e = s.here.eng e) (hb : ∀ q, q ∉ ex → BankPart.same b (s.here.setSem n v) q) (hs : BankPart.sems ∉ ex)
    (hall : AllSame (b.issued (Instr.hd i) p) b) :
    Does i s (.sems :: ex) (fun t => ∀ k, t.here.semCount k = if k = n then v else s.here.semCount k) := by
  refine does_allSame hx hj hst hw hall (fun q hq => ?_) (fun t _ ht k => ?_)
  · rw [List.mem_cons, not_or] at hq
    exact BankPart.same_trans (hb q hq.2) (setSem_part _ _ _ q hq.1)
  · rw [semCount_of_part (ht .sems), semCount_of_part (hb .sems hs), semCount_setSem]

/-- A word that waits for nothing, signals a semaphore as it retires, and beside it changes nothing then. -/
theorem does_raises {i : Instr} {s : State} {n : Fin 32} {v : Nat} {l : List Eff} (hx : exec i s = .next ((s.setBank s.cur.loc s.here).issue i { effs := .sem n v :: l }))
    (hc : s.here.calm) (hfit : Fits i s.here) (hv : s.here.semCount n + v ≤ s.here.semCeil n) (hpop : s.here.canPop (.sem n v :: l) = true)
    (hl : ∀ b : Bank, AllSame (b.applyAll (s.here.eng (Instr.hd i).eng).pc l) b) :
    Does i s [.sems] (fun t => ∀ k, t.here.semCount k = if k = n then s.here.semCount n + v else s.here.semCount k) := by
  have hall : AllSame (s.here.applyAll (s.here.eng (Instr.hd i).eng).pc (.sem n v :: l)) (s.here.setSem n (s.here.semCount n + v)) := by
    simp only [Bank.applyAll, apply_sem _ hv, Bank.setSem_flt, if_true]
    exact hl _
  refine does_calm i s _ _ s.here _ hx rfl rfl (fun _ => rfl) hc rfl rfl hpop hfit (fun q hq => ?_) (fun t _ ht k => ?_)
  · exact BankPart.same_trans (hall q) (setSem_part _ _ _ q (by simpa using hq))
  · rw [semCount_of_part ((AllSame.trans ht hall) .sems), semCount_setSem]

/-! ## The words of S (04 R118) -/

section
variable (m : Dep) (n : Fin 32) (r : SReg) (s : State)

theorem exec_semWaitImm (val : BitVec 12) : exec (.semWaitImm m n val) s = execSemWaitImm m n val s := by rfl
theorem exec_semWaitReg : exec (.semWaitReg m n r) s = execSemWaitReg m n r s := by rfl
theorem exec_semSigImm (val : BitVec 12) : exec (.semSigImm m n val) s = execSemSigImm m n val s := by rfl
theorem exec_semSigReg : exec (.semSigReg m n r) s = execSemSigReg m n r s := by rfl

end

section
variable {i : Instr} {s : State} {f : Bank → Res Bank} {n : Fin 32} {v : Nat} (hx : exec i s = bankWord i s f)
include hx

theorem waits_bankWord (hf : s.here.calm → f s.here = semWait n v s.here) : Waits i s [] n v := fun hr hc hceil hv =>
  have hx' := hx.trans (bankWord_ok i s f _ _ hr ((hf hc).trans (semWait_ok hceil hv)))
  have hcalm : (s.here.setSem n (s.here.semCount n - v)).calm := hc
  does_lowers (ex := []) hx' rfl rfl (fun _ => rfl) (fun q _ => BankPart.same_refl _ q) (by simp)
    (issued_same (p := {}) hcalm (Instr.hd i) rfl rfl fun _ => rfl)

theorem signals_bankWord (hf : s.here.calm → f s.here = semSig n v s.here) : Signals i s n v := fun hr hc hfit hv =>
  does_raises (l := []) (hx.trans (bankWord_ok i s f _ _ hr (hf hc))) hc hfit hv rfl AllSame.refl

/-- A wait past the ceiling faults at once (04 R118). -/
theorem wait_high (hf : f s.here = semWait n v s.here) (hS : (Instr.hd i).eng = .S) (hr : Ready i s) (hv : s.here.semCeil n < v) : ∃ t, exec i s = .next t
    ∧ t.here.flt = some ⟨.semCeil, s.here.engs.S.pc, 0⟩ ∧ t.here.seq.sem = s.here.seq.sem ∧ t.here.engs = s.here.engs := by
  have hw : f s.here = .fault .semCeil 0 := hf.trans (if_pos hv)
  obtain ⟨hflt, hengs⟩ := Encoding.here_takeFault (s := s) .semCeil (s.here.eng .S).pc 0 hr.flt
  refine ⟨_, ?_, hflt, here_noteFault_part (s.setBank s.cur.loc _) s.here .sems ?_, hengs⟩
  · rw [hx, bankWord, Bank.tryIssue, hr.1, hr.2, hw, hS]
    rfl
  · rw [show (s.setBank s.cur.loc _).here = _ from here_setBank s _]
    exact AllSame.takeFault _ _ _ _ .sems

/-- A wait above the count does not issue. -/
theorem wait_low (hf : f s.here = semWait n v s.here) (hr : Ready i s) (hc : v ≤ s.here.semCeil n) (hv : s.here.semCount n < v) :
    ∃ t, exec i s = .next t ∧ t.here = s.here := by
  have hw : f s.here = .stall := hf.trans ((if_neg (Nat.not_lt.2 hc)).trans (if_pos hv))
  have hb : exec i s = .next ((s.setBank s.cur.loc s.here).noteFault s.cur.loc) := by
    rw [hx, bankWord, Bank.tryIssue, hr.1, hr.2, hw]
    rfl
  rw [noteFault_none _ _ (by rw [bank_setBank_same]; exact hr.flt)] at hb
  exact ⟨_, hb, here_setBank s _⟩

/-- A signal past the ceiling faults as its word retires, and the count stays. -/
theorem signal_past (hf : f s.here = semSig n v s.here) (hS : (Instr.hd i).eng = .S) (hr : Ready i s) (hc : s.here.calm) (hfit : Fits i s.here)
    (hv : s.here.semCeil n < s.here.semCount n + v) :
    ∃ t, exec i s = .next t ∧ t.here.flt = some ⟨.semCeil, s.here.engs.S.pc, 0⟩ ∧ t.here.seq.sem = s.here.seq.sem := by
  have hp : s.here.applyAll s.here.engs.S.pc [.sem n v] = s.here.takeFault .semCeil s.here.engs.S.pc 0 := by
    simp only [Bank.applyAll, ite_self, Bank.apply, Bank.semSignal, if_pos hv]
  have hh : (s.setBank s.cur.loc (s.here.issued (Instr.hd i) { effs := [.sem n v] })).here = s.here.issued (Instr.hd i) { effs := [.sem n v] } := here_setBank s _
  have hpc : (s.here.eng (Instr.hd i).eng).pc = s.here.engs.S.pc := by rw [hS]; rfl
  refine ⟨(s.setBank s.cur.loc (s.here.issued (Instr.hd i) { effs := [.sem n v] })).noteFault s.cur.loc,
    (hx.trans (bankWord_ok i s f _ _ hr hf)).trans (by rw [issue_setBank]), ?_, here_noteFault_part (s.setBank s.cur.loc _) s.here .sems ?_⟩
  · rw [State.here, noteFault_cur, setBank_cur, bank_noteFault_of (fun b => b.flt) (fun _ _ => rfl), bank_setBank_same,
      issued_flt _ _ _ hc rfl rfl rfl hfit.1 hfit.2, hpc, hp, Bank.takeFault, hr.flt]
  · have hall := Bank.issued_effs s.here (Instr.hd i) { effs := [.sem n v] } hc rfl rfl rfl hfit.1 hfit.2 .sems
    rw [hpc, hp] at hall
    rw [hh]
    exact BankPart.same_trans hall (AllSame.takeFault _ _ _ _ .sems)

end

/-! ## Words of M without an operand (10 R341, R342) -/

/-- A word that has something to wait for does not retire as it issues. -/
theorem issued_eq_awaiting {b : Bank} (hc : b.calm) (h : Head) {p : Plain} (hw : p.waits ≠ []) : b.issued h p = awaiting b h p := by
  have hr : ((awaiting b h p).eng h.eng).rets = [⟨(b.eng h.eng).walk, (b.eng h.eng).pc, if p.async then 0 else h.dep.sp,
      if p.async then 0 else h.dep.sn, p.waits, p.effs, p.writes⟩] := by
    rw [awaiting_self]
    simp [EngSt.pass, EngSt.await, EngSt.popTokens, (hc h.eng).1]
  have hwaits : p.waits.isEmpty = false := List.isEmpty_eq_false_iff.2 hw
  rw [Bank.issued_calm b h p hc, show ({ b.setEng h.eng _ with seq := _ } : Bank) = awaiting b h p from rfl, Bank.retireEng_one _ _ _ hr]
  simp only [hwaits, Bool.false_and, Bool.false_eq_true, if_false]

/-- A word of M that issues with nothing in flight, and what then leaves the window, in a turn that only issues. -/
theorem matrixWord_calm {i : Instr} {s : State} {f : Bank → Res Bank} {b k : Bank} {p : Plain} (hr : Ready i s) (he : s.cur.eager = false)
    (hf : f s.here = .ok b p) (hflt : b.flt = none) (hc : b.calm) (hw : p.waits ≠ []) (hk : (awaiting b (Instr.hd i) p).leadOff = k) (hceil : k.onlyCeil) :
    matrixWord i s f = .next ((s.setBank s.cur.loc k).noteFault s.cur.loc) := by
  have hissue : bankWord i s f = .next (s.setBank s.cur.loc (awaiting b (Instr.hd i) p)) := by
    rw [bankWord_ok i s f b p hr hf, issue_setBank, issued_eq_awaiting hc _ hw, noteFault_none]
    rw [bank_setBank_same]
    exact hflt
  have hleave : leaveWin (bankWord i s f) = .next ((s.setBank s.cur.loc k).noteFault s.cur.loc) := by
    simp only [hissue, leaveWin, State.onBank, setBank_cur, bank_setBank_same, setBank_setBank, hk]
  have hbank : (((s.setBank s.cur.loc k).noteFault s.cur.loc).bank s.cur.loc).flt = k.flt := by
    rw [bank_noteFault_of (fun b => b.flt) (fun _ _ => rfl), bank_setBank_same]
  rw [matrixWord, hleave]
  simp only [eagerly, noteFault_cur, setBank_cur, he, Bool.false_eq_true, if_false, eccNote]
  split
  · next g _ hg =>
    rw [hceil g (hbank ▸ hg)]
    rfl
  · rfl

/-- A word of M without an operand that works on no slot and changes none of M's registers. -/
def Quick (i : Instr) : Prop := (Instr.hd i).eng = .M ∧ mxSlots i = [] ∧ ∀ (w : WinEnt) (m : MatrixSt), w.instr = i → w.regs m = m

/-- A word alone in the window that touches no slot leaves it, and its effect is complete. -/
theorem leadOff_single {c : Bank} {w : WinEnt} (hwin : c.mx.win = [w]) (hrun : c.mx.run = none) (hlive : c.live = true) (hw : w.instant = true) :
    c.leadOff = ({ c with mx := { w.regs c.mx with win := [] } } : Bank).workDone .M w.walk 0 := by
  rw [Bank.leadOff, hwin, List.length_singleton, Bank.runRegs]
  split
  · next _ _ _ h =>
    obtain ⟨rfl, rfl⟩ := List.cons.inj (hwin.symm.trans h)
    rw [hlive, hw, Bool.and_self, if_pos rfl]
    rfl
  · next h => exact (h w [] hrun hwin).elim

/-- A word of M whose effect is complete has nothing left to wait for. -/
theorem effectDone_await {x : EngSt} (hx : x.rets = []) (h : Head) (effs : List Eff) (f : BitVec 6) :
    (((x.popTokens h.dep).await h { waits := [x.walk], effs }).pass h.ext none).effectDone .M x.walk f
      = ((x.popTokens h.dep).await h { effs := effs ++ [.flags .M f] }).pass h.ext none := by
  simp [EngSt.effectDone, EngSt.finish, EngSt.pass, EngSt.await, EngSt.popTokens, hx, without]

/-- Alone in the window, such a word leaves it at once, and is done with it. -/
theorem leadOff_awaiting {i : Instr} {b : Bank} (hi : Quick i) (hc : b.calm) (hwin : b.mx.win = []) (hrun : b.mx.run = none) (hlive : b.live = true)
    (effs : List Eff) :
    (awaiting (b.enterWin i none none) (Instr.hd i) (b.winPlain effs)).leadOff = b.issued (Instr.hd i) { effs := effs ++ [.flags .M 0] } := by
  obtain ⟨hM, hslots, hregs⟩ := hi
  let w : WinEnt := { instr := i, walk := b.engs.M.walk, pc := b.engs.M.pc, done := 0, opA := none, opB := none }
  let c := awaiting (b.enterWin i none none) (Instr.hd i) (b.winPlain effs)
  have hcwin : c.mx.win = [w] := congrArg (· ++ [w]) hwin
  have hmx : ({ c.mx with win := [] } : MatrixSt) = b.mx := by
    rw [← hwin]
    rfl
  have heng : c.eng .M = (((b.eng .M).popTokens (Instr.hd i).dep).await (Instr.hd i) (b.winPlain effs)).pass (Instr.hd i).ext none := by
    rw [← hM]
    exact awaiting_self ..
  have hdone : (c.eng .M).effectDone .M w.walk 0
      = (((b.eng .M).popTokens (Instr.hd i).dep).await (Instr.hd i) { effs := effs ++ [.flags .M 0] }).pass (Instr.hd i).ext none := by
    rw [heng]
    exact effectDone_await (hc .M).1 (Instr.hd i) effs 0
  rw [leadOff_single hcwin hrun hlive (by rw [WinEnt.instant, hslots]; rfl), hregs w c.mx rfl, hmx, issued_eq_settle, Bank.workDone,
    show ({ c with mx := b.mx } : Bank).eng .M = c.eng .M from rfl, hdone]
  congr 1
  simp only [awaiting, hM, Bank.setEng, c, Engs.set, Bank.enterWin]

/-- Such a word, alone in the window, issues as if it waited for nothing, and raises no flag. -/
theorem matrixWord_alone {i : Instr} {s : State} {f : Bank → Res Bank} {b : Bank} {effs : List Eff} (hi : Quick i) (hr : Ready i s) (he : s.cur.eager = false)
    (hf : f s.here = .ok (b.enterWin i none none) (b.winPlain effs)) (hc : b.calm) (hwin : b.mx.win = []) (hrun : b.mx.run = none) (hlive : b.live = true) :
    matrixWord i s f = .next ((s.setBank s.cur.loc b).issue i { effs := effs ++ [.flags .M 0] }) := by
  rw [issue_setBank]
  exact matrixWord_calm hr he hf (Encoding.flt_of_live hlive) hc (List.cons_ne_nil _ _) (leadOff_awaiting hi hc hwin hrun hlive effs)
    (Bank.issued_onlyCeil _ _ _ (Encoding.flt_of_live hlive))

/-- With a word under way, a word of M joins the window and stays there. -/
theorem matrixWord_behind {i : Instr} {s : State} {f : Bank → Res Bank} {b : Bank} {effs : List Eff} (hr : Ready i s) (he : s.cur.eager = false)
    (hf : f s.here = .ok (b.enterWin i none none) (b.winPlain effs)) (hc : b.calm) (hrun : b.mx.run.isSome = true) (hlive : b.live = true) :
    matrixWord i s f = .next ((s.setBank s.cur.loc (b.enterWin i none none)).issue i (b.winPlain effs)) := by
  have hcw : (b.enterWin i none none).calm := hc
  have hw : (b.winPlain effs).waits ≠ [] := List.cons_ne_nil _ _
  have hflt : (b.enterWin i none none).flt = none := Encoding.flt_of_live hlive
  rw [issue_setBank, issued_eq_awaiting hcw _ hw]
  exact matrixWord_calm hr he hf hflt hcw hw (Bank.runRegs_stay _ _ (.inl hrun)) (Formats.onlyCeil_of_none hflt)

section
variable (m : Dep) (n : Fin 32) (val : BitVec 11) {s : State}

theorem exec_mxSemWait : exec (.mxSemWait m n val) s = execMxSemWait m n val s := by rfl
theorem exec_mxSemSig : exec (.mxSemSig m n val) s = execMxSemSig m n val s := by rfl
theorem exec_txSemWait : exec (.txSemWait m n val) s = execTxSemWait m n val s := by rfl
theorem exec_txSemSig : exec (.txSemSig m n val) s = execTxSemSig m n val s := by rfl

theorem quick_mxSemWait : Quick (.mxSemWait m n val) := ⟨rfl, rfl, fun w m h => by rw [WinEnt.regs, h]⟩
theorem quick_mxSemSig : Quick (.mxSemSig m n val) := ⟨rfl, rfl, fun w m h => by rw [WinEnt.regs, h]⟩

/-- What a wait of M leaves at issue. -/
theorem mxSemWait_ok {b : Bank} (hroom : b.mx.win.length < 16) (hceil : val.toNat ≤ b.semCeil n) (hv : val.toNat ≤ b.semCount n) :
    (if !b.winRoom then .stall
      else match b.semTake (some (n, val.toNat)) with
        | .error r => r
        | .ok b => winWord (.mxSemWait m n val) [] b)
    = .ok ((b.setSem n (b.semCount n - val.toNat)).enterWin (.mxSemWait m n val) none none) ((b.setSem n (b.semCount n - val.toNat)).winPlain []) := by
  have hr : b.winRoom = true := decide_eq_true hroom
  simp only [hr, Bank.semTake, if_neg (Nat.not_lt.2 hceil), if_neg (Nat.not_lt.2 hv), Bool.not_true, Bool.false_eq_true, if_false]
  rw [winWord, show (b.setSem n (b.semCount n - val.toNat)).winRoom = true from hr]
  rfl

theorem enterWin_part (b : Bank) (i : Instr) (o p : Option Opnd) {q : BankPart} (hq : q ≠ .window) : BankPart.same (b.enterWin i o p) b q := by
  cases q <;> simp [BankPart.same, Bank.entries, Bank.enterWin] at hq ⊢

end


/-! ## The words of M and T -/

section
variable {m : Dep} {n : Fin 32} {val : BitVec 11} {s : State} (he : s.cur.eager = false)
include he

theorem waits_mxSemWait_behind (hlen : s.here.mx.win.length < 16) (hrun : s.here.mx.run.isSome = true) :
    Waits (.mxSemWait m n val) s [.window] n val.toNat := by
  intro hr hc hceil hv
  let b := s.here.setSem n (s.here.semCount n - val.toNat)
  have hx : exec (.mxSemWait m n val) s = .next ((s.setBank s.cur.loc (b.enterWin (.mxSemWait m n val) none none)).issue _ (b.winPlain [])) :=
    (exec_mxSemWait m n val).trans (matrixWord_behind hr he (mxSemWait_ok m n val hlen hceil hv) hc hrun hr.1)
  exact does_lowers hx rfl rfl (fun _ => rfl) (fun q hq => enterWin_part _ _ _ _ (by simpa using hq)) (by simp)
    (Bank.issued_wait _ _ _ hc (List.cons_ne_nil _ _))

section
variable (hwin : s.here.mx.win = []) (hrun : s.here.mx.run = none)
include hwin hrun

theorem waits_mxSemWait_alone : Waits (.mxSemWait m n val) s [] n val.toNat := by
  intro hr hc hceil hv
  have hlen : s.here.mx.win.length < 16 := by simp [hwin]
  have hcalm : (s.here.setSem n (s.here.semCount n - val.toNat)).calm := hc
  have hx := (exec_mxSemWait m n val).trans (matrixWord_alone (quick_mxSemWait ..) hr he (mxSemWait_ok m n val hlen hceil hv) hcalm hwin hrun hr.1)
  exact does_lowers (ex := []) hx rfl rfl (fun _ => rfl) (fun q _ => BankPart.same_refl _ q) (by simp)
    (issued_same (p := { effs := [.flags .M 0] }) hcalm (Instr.hd _) rfl rfl fun c => applyAll_noFlags _ c)

theorem signals_mxSemSig : Signals (.mxSemSig m n val) s n val.toNat := by
  intro hr hc hfit hv
  have hf : winWord (.mxSemSig m n val) [.sem n val.toNat] s.here
      = .ok (s.here.enterWin (.mxSemSig m n val) none none) (s.here.winPlain [.sem n val.toNat]) := by
    simp [winWord, Bank.winRoom, hwin]
  have hx := (exec_mxSemSig m n val).trans (matrixWord_alone (quick_mxSemSig ..) hr he hf hc hwin hrun hr.1)
  exact does_raises (l := [.flags .M 0]) hx hc hfit hv rfl fun b => (applyAll_noFlags _ b).symm ▸ AllSame.refl b

end

theorem waits_txSemWait : Waits (.txSemWait m n val) s [] n val.toNat := by
  intro hr hc hceil hv
  let b := s.here.setSem n (s.here.semCount n - val.toNat)
  have hcalm : b.calm := hc
  have hx : exec (.txSemWait m n val) s = .next ((s.setBank s.cur.loc b).issue _ {}) :=
    (exec_txSemWait m n val).trans (txWord_ok _ s _ _ _ hr he (hc .T).1 nofun (semWait_ok hceil hv) hr.flt)
  exact does_lowers (ex := []) hx rfl rfl (fun _ => rfl) (fun q _ => BankPart.same_refl _ q) (by simp)
    (issued_same (p := {}) hcalm (Instr.hd _) rfl rfl fun _ => rfl)

theorem signals_txSemSig : Signals (.txSemSig m n val) s n val.toNat := by
  intro hr hc hfit hv
  have hx : exec (.txSemSig m n val) s = .next ((s.setBank s.cur.loc s.here).issue _ { effs := [.sem n val.toNat] }) :=
    (exec_txSemSig m n val).trans (txWord_ok _ s _ _ _ hr he (hc .T).1 nofun rfl hr.flt)
  exact does_raises (l := []) hx hc hfit hv rfl AllSame.refl

end

/-! ## Their encodings -/

/-- The decoder on one word of S. -/
theorem decode_S (h : BitVec 4) {op o : Nat} (hop : op < 2 ^ 7) (ho : o < 2 ^ 18) (hext : ∀ w, extCount 0 op w = some 0) :
    decode [2 ^ 25 * h.toNat + 2 ^ 18 * op + o] = decoded (decodeS op (headWord 0 op h o) 0 0 0 (headDep h)) [] := by
  have := decode_assemble0 0 op o (headDep h) [] (by decide) hop ho (hext _) rfl rfl rfl (by simp)
  rw [show assemble 0 op (headDep h) o [] ++ [] = [2 ^ 25 * h.toNat + 2 ^ 18 * op + o] by simp [assemble, headDep, Nat.mul_comm]] at this
  exact this

section
variable (h : BitVec 4) (n : Fin 32)

/-- A semaphore word whose value is an immediate. -/
theorem decode_semImm (val : BitVec 12) {op : Nat} {i : Instr} (hop : op < 2 ^ 7) (hext : ∀ w, extCount 0 op w = some 0) (hwf : i.wf = true)
    (hread : ∀ w, fld w 12 1 = 0 → fld w 13 5 = n.val → fld w 0 12 = val.toNat → decodeS op w 0 0 0 (headDep h) = .ok i) :
    decode [2 ^ 25 * h.toNat + 2 ^ 18 * op + 2 ^ 13 * n.val + val.toNat] = .ok (i, []) := by
  have hv := val.isLt
  have hn := n.isLt
  have ho : 2 ^ 13 * n.val + val.toNat < 2 ^ 18 := by omega
  have hf := Encoding.operandBits_headWord 0 op (2 ^ 13 * n.val + val.toNat) h
  rw [Nat.add_assoc _ (2 ^ 13 * n.val), decode_S h hop ho hext, hread _ _ _ _, decoded_ok _ _ hwf]
  · rw [hf.fld_eq (by decide), fld]; omega
  · rw [hf.fld_eq (by decide), fld]; omega
  · rw [hf.fld_eq (by decide), fld]; omega

/-- A semaphore word whose value is a register: the bits between must be 0. -/
theorem decode_semReg (u r : Fin 64) {op : Nat} {i : Instr} (hop : op < 2 ^ 7) (hext : ∀ w, extCount 0 op w = some 0) (hwf : i.wf = true)
    (hread : ∀ w, fld w 12 1 = 1 → fld w 13 5 = n.val → fld w 0 6 = r.val → decodeS op w 0 0 0 (headDep h) = rsv (fld w 6 6) (.ok i)) :
    decode [2 ^ 25 * h.toNat + 2 ^ 18 * op + 2 ^ 13 * n.val + 2 ^ 12 + 2 ^ 6 * u.val + r.val] = if u = 0 then .ok (i, []) else .error .reserved := by
  have hu := u.isLt
  have hr := r.isLt
  have hn := n.isLt
  have ho : 2 ^ 13 * n.val + 2 ^ 12 + 2 ^ 6 * u.val + r.val < 2 ^ 18 := by omega
  have hf := Encoding.operandBits_headWord 0 op (2 ^ 13 * n.val + 2 ^ 12 + 2 ^ 6 * u.val + r.val) h
  have hmid : fld (headWord 0 op h (2 ^ 13 * n.val + 2 ^ 12 + 2 ^ 6 * u.val + r.val)) 6 6 = u.val := by
    rw [hf.fld_eq (by decide), fld]; omega
  rw [show 2 ^ 25 * h.toNat + 2 ^ 18 * op + 2 ^ 13 * n.val + 2 ^ 12 + 2 ^ 6 * u.val + r.val
      = 2 ^ 25 * h.toNat + 2 ^ 18 * op + (2 ^ 13 * n.val + 2 ^ 12 + 2 ^ 6 * u.val + r.val) by omega, decode_S h hop ho hext, hread _ _ _ _, hmid, rsv]
  · by_cases hz : u = 0
    · subst hz
      exact decoded_ok _ _ hwf
    · have hne : u.val ≠ 0 := fun e => hz (Fin.ext e)
      rw [if_neg hz, if_neg hne]
      rfl
  · rw [hf.fld_eq (by decide), fld]; omega
  · rw [hf.fld_eq (by decide), fld]; omega
  · rw [hf.fld_eq (by decide), fld]; omega

/-- The words of `SEM.SIG` and `SEM.WAIT` (04 R118). -/
theorem decode_sems (val : BitVec 12) (u r : Fin 64) :
    let w (op : Nat) : Nat := 2 ^ 25 * h.toNat + 2 ^ 18 * op + 2 ^ 13 * n.val
    let m := headDep h
    decode [w 0x13 + val.toNat] = .ok (.semSigImm m n val, []) ∧ decode [w 0x14 + val.toNat] = .ok (.semWaitImm m n val, [])
    ∧ (decode [w 0x13 + 2 ^ 12 + 2 ^ 6 * u.val + r.val] = if u = 0 then .ok (.semSigReg m n r, []) else .error .reserved)
    ∧ (decode [w 0x14 + 2 ^ 12 + 2 ^ 6 * u.val + r.val] = if u = 0 then .ok (.semWaitReg m n r, []) else .error .reserved) := by
  refine ⟨decode_semImm h n val (by decide) (fun _ => rfl) rfl fun w h1 h2 h3 => ?_, decode_semImm h n val (by decide) (fun _ => rfl) rfl fun w h1 h2 h3 => ?_,
    decode_semReg h n u r (by decide) (fun _ => rfl) rfl fun w h1 h2 h3 => ?_, decode_semReg h n u r (by decide) (fun _ => rfl) rfl fun w h1 h2 h3 => ?_⟩
  all_goals simp [decodeS, h1, h2, h3]

end

/-! ## The statement -/

/-- Settles O2. -/
theorem semaphores : Obligations.Semaphores := by
  unfold Obligations.Semaphores
  refine ⟨fun s m n => ⟨fun val => ⟨?_, ?_⟩, fun r => ⟨?_, ?_⟩, fun val he => ⟨?_, fun hwin hrun => ?_⟩, fun val he => ?_⟩, fun s m n hc => ⟨fun val => ?_, fun r => ?_⟩,
    fun h n val u r => decode_sems h n val u r⟩
  · exact waits_bankWord (exec_semWaitImm ..) fun _ => rfl
  · exact signals_bankWord (exec_semSigImm ..) fun _ => rfl
  · exact waits_bankWord (exec_semWaitReg ..) fun hc => by simp [pending_of_calm hc]
  · exact signals_bankWord (exec_semSigReg ..) fun hc => by simp [pending_of_calm hc]
  · exact waits_mxSemWait_behind he
  · exact ⟨waits_mxSemWait_alone he hwin hrun, signals_mxSemSig he hwin hrun⟩
  · exact ⟨waits_txSemWait he, signals_txSemSig he⟩
  · have hw := exec_semWaitImm m n s val
    have hs := exec_semSigImm m n s val
    exact ⟨wait_high hw rfl rfl, wait_low hw rfl, fun hr hfit => signal_past hs rfl rfl hr hc hfit⟩
  · have hw := exec_semWaitReg m n r s
    have hs := exec_semSigReg m n r s
    have hp := pending_of_calm hc .S [r.val]
    exact ⟨wait_high hw (by simp [hp]) rfl, wait_low hw (by simp [hp]), fun hr hfit => signal_past hs (by simp [hp]) rfl hr hc hfit⟩

end Sys2Proof.Sequencer

/-!
SUPPORT. Stopping words (04 R121 to R125; 05 R149 to R151): a launch looked up after a change of one, and the word that all six engines pass.
-/

namespace Sys2Proof.Sequencer
open Sys2Proof.Machine

/-! ## A launch by its identifier -/

section
variable {s : State} {id k : Nat} {x : Launch} {f : Launch → Launch}

theorem launch_id (h : s.launch id = some x) : x.id = id := by
  have := List.find?_some h
  simpa using this

theorem launch_modLaunch_same (h : s.launch id = some x) (hf : (f x).id = id) : (s.modLaunch id f).launch id = some (f x) := by
  have hx := launch_id h
  unfold State.launch State.modLaunch at *
  rw [List.find?_map]
  obtain ⟨hp, as, bs, hl, has⟩ := List.find?_eq_some_iff_append.1 h
  refine (Option.map_eq_some_iff.2 ⟨x, List.find?_eq_some_iff_append.2 ⟨?_, as, bs, hl, fun a ha => ?_⟩, if_pos hx⟩)
  · simp [hx, hf]
  · have := has a ha
    simp only [Bool.not_eq_true', beq_eq_false_iff_ne] at this
    simp [this]

theorem launch_modLaunch_ne (hk : k ≠ id) (hf : ∀ y, y.id = id → (f y).id = id) : (s.modLaunch id f).launch k = s.launch k := by
  unfold State.launch State.modLaunch
  induction s.launches with
  | nil => rfl
  | cons y t ih =>
    have hy : ((if y.id = id then f y else y).id == k) = (y.id == k) := by
      split
      · next h => rw [hf y h, h]
      · rfl
    simp only [List.map_cons, List.find?_cons, hy, ih]
    split
    · next h => rw [if_neg fun e => hk ((beq_iff_eq.1 h).symm.trans e)]
    · rfl

/-- The launch of a bank is in the package under its own identifier. -/
theorem launch_of_bind {b : Bank} (h : b.launch.bind s.launch = some x) : b.launch = some x.id ∧ s.launch x.id = some x := by
  obtain ⟨id, hb, hx⟩ := Option.bind_eq_some_iff.1 h
  obtain rfl := launch_id hx
  exact ⟨hb, hx⟩

end

/-- Where no request waits, none is answered. -/
theorem serveAll_none {s : State} {id : Nat} {x : Launch} (h : s.launch id = some x) (hq : x.iterQ = []) : s.serveAll id = s := by
  rw [State.serveAll, h]
  simp only [hq, State.serve]

/-! ## The word that every engine passes -/

/-- A word of S issues over a changed bank of a changed package, and every engine goes as `g` says. -/
theorem passes_issue {i : Instr} {s u : State} {b c : Bank} {p : Plain} {g : Engine → EngSt} (hx : exec i s = .next ((u.setBank u.cur.loc c).issue i p))
    (hst : c.st = u.here.st) (hb : ∀ q : BankPart, q.late = false → BankPart.same c b q)
    (hl : s.here.calm → Fits i s.here → ∀ q : BankPart, q.late = true → BankPart.same (c.issued (Instr.hd i) p) b q)
    (hself : ((c.eng (Instr.hd i).eng).pass (Instr.hd i).ext p.jump).sameWalk (g (Instr.hd i).eng))
    (hoth : ∀ e, e ≠ (Instr.hd i).eng → (c.eng e).sameWalk (g e)) : Passes i s u b g := by
  rw [issue_setBank] at hx
  have hh : (u.setBank u.cur.loc (c.issued (Instr.hd i) p)).here = c.issued (Instr.hd i) p := here_setBank u _
  refine ⟨_, hx, kept_setBank u _ ((Bank.issued_st ..).trans hst), fun q hq => here_noteFault_part (u.setBank u.cur.loc _) b q ?_, fun e => ?_⟩
  · rw [hh]
    by_cases hlate : q.late = true
    · exact hl (hq hlate).1 (hq hlate).2 q hlate
    · have hlate : q.late = false := by simpa using hlate
      exact BankPart.same_trans (Bank.issued_part c _ p q hlate) (hb q hlate)
  · have he := here_noteFault_eng (u.setBank u.cur.loc (c.issued (Instr.hd i) p)) e
    rw [hh] at he
    rw [show ((u.setBank u.cur.loc (c.issued (Instr.hd i) p)).noteFault u.cur.loc).here.eng e = _ from he]
    by_cases hS : e = (Instr.hd i).eng
    · subst hS
      exact EngSt.sameWalk_trans (Bank.issued_self c _ p) hself
    · exact EngSt.sameWalk_trans (Bank.issued_other c _ p e hS) (hoth e hS)

/-- A ready word over the package issues as its meaning says. -/
theorem packageWord_ok {i : Instr} {s s' : State} {f : State → Res State} {p : Plain} (hr : Ready i s) (hf : f s = .ok s' p) (hcur : s'.cur = s.cur) :
    packageWord i s f = .next (s'.issue i p) := by
  simp only [packageWord, hr.1, hr.2, Bool.and_self, if_true, hf, State.issue, hcur]

/-- A ready word over the package that faults. -/
theorem packageWord_fault {i : Instr} {s : State} {f : State → Res State} {c : FCode} {d : Nat} (hr : Ready i s) (hf : f s = .fault c d) :
    packageWord i s f = .next (s.faultAt s.cur.loc c (s.here.eng (Instr.hd i).eng).pc d) := by
  simp only [packageWord, hr.1, hr.2, Bool.and_self, if_true, hf]

/-! ## A quiet core -/

theorem calm_of_quiet {b : Bank} (h : b.quiet = true) : b.calm := by
  simp only [Bank.quiet, Bool.and_eq_true, List.all_eq_true] at h
  intro e
  have he := h.1.1.1.1.1.1.1 e (by cases e <;> decide)
  exact ⟨List.isEmpty_iff.1 he.1.2, List.isEmpty_iff.1 he.2⟩

theorem passOthers_eng (b : Bank) (e : Engine) : b.passOthers.eng e = if e = .S then b.eng .S else (b.eng e).pass 0 none := by cases e <;> rfl

theorem passOthers_same (b : Bank) : AllSame b.passOthers b := fun q => by
  cases q <;> simp [BankPart.same, Bank.entries, Bank.passOthers, boqEngines]

theorem passOthers_calm {b : Bank} (h : b.calm) : b.passOthers.calm := fun e => by
  rw [passOthers_eng]
  split
  · exact h .S
  · exact h e

/-- A stopping word without extension words that all six engines of a quiet core pass, over a changed bank of a changed package. -/
theorem passes_stop {i : Instr} {s u : State} {c : Bank} (hx : exec i s = .next ((u.setBank u.cur.loc c.passOthers).issue i {})) (hq : s.here.quiet = true)
    (hS : (Instr.hd i).eng = .S) (hext : (Instr.hd i).ext = 0) (hst : c.st = u.here.st) (hw : ∀ e, c.eng e = s.here.eng e) : Passes i s u c s.allPast := by
  have hcalm : c.calm := fun e => hw e ▸ calm_of_quiet hq e
  refine passes_issue hx hst (fun q _ => passOthers_same c q) (fun _ _ q _ => ?_) ?_ fun e he => ?_
  · exact BankPart.same_trans (issued_same (p := {}) (passOthers_calm hcalm) (Instr.hd i) rfl rfl (fun _ => rfl) q) (passOthers_same c q)
  · rw [hS, hext, passOthers_eng, if_pos rfl, hw]
    exact EngSt.sameWalk_refl _
  · rw [passOthers_eng, if_neg (hS ▸ he), hw]
    exact EngSt.sameWalk_refl _

theorem exec_drain (m : Dep) (s : State) : exec (.drain m) s = execDrain m s := by rfl
theorem exec_stagep (m : Dep) (s : State) : exec (.stagep m) s = execStagep m s := by rfl

/-- `DRAIN` (04 R122). -/
theorem passes_drain {m : Dep} {s : State} (h : Quiet (.drain m) s) : Passes (.drain m) s s s.here s.allPast := by
  obtain ⟨hS, hr, hq, hp⟩ := h
  refine passes_stop ?_ hq rfl rfl rfl fun _ => rfl
  rw [exec_drain, execDrain, stopWord, if_pos hS]
  exact packageWord_ok hr (by simp [hq, hp, State.onHere]) rfl

/-! ## `STAGEP` (04 R125, 05 R149 to R151) -/

section
variable {m : Dep} {s : State} (h : Quiet (.stagep m) s)
include h

/-- With no iteration it faults. -/
theorem stagep_fault (hi : s.here.seq.iterno = none) :
    ∃ t, exec (.stagep m) s = .next t ∧ t.here.flt = some ⟨.stage, s.here.engs.S.pc, 0⟩ ∧ t.here.engs = s.here.engs := by
  obtain ⟨hS, hr, hq, hp⟩ := h
  refine ⟨_, ?_, Encoding.here_takeFault .stage s.here.engs.S.pc 0 hr.flt⟩
  rw [exec_stagep, execStagep, stopWord, if_pos hS]
  exact packageWord_fault hr (by simp [hq, hp, hi])

variable {n : Nat} {x : Launch} (hi : s.here.seq.iterno = some n) (hx : s.here.launch.bind s.launch = some x)
include hi hx

/-- In the last stage the iteration is complete. -/
theorem stagep_last (hk : x.hdr.elim 1 (·.stages) ≤ s.here.seq.stage + 1) :
    Passes (.stagep m) s (s.modLaunch x.id (fun y => { y with iters := y.iters + 1 })) { s.here with seq := { s.here.seq with iterno := none } } s.allPast := by
  obtain ⟨hS, hr, hq, hp⟩ := h
  refine passes_stop ?_ hq rfl rfl rfl fun _ => rfl
  rw [exec_stagep, execStagep, stopWord, if_pos hS]
  refine (packageWord_ok hr ?_ ?_).trans rfl
  · simp only [hq, hp, hi, hx, if_pos hk]
    rfl
  · rfl

/-- In an earlier stage it goes to the next one, if there is room. -/
theorem stagep_next (hq : x.iterQ = []) (hk : s.here.seq.stage + 1 < x.hdr.elim 1 (·.stages))
    (hroom : (x.handed (s.here.seq.stage + 1)).length < x.cores.length) :
    Passes (.stagep m) s (s.modLaunch x.id (fun y => y.handOver (s.here.seq.stage + 1) n)) { s.here with seq := { s.here.seq with iterno := none } }
      s.allPast := by
  obtain ⟨hS, hr, hquiet, hp⟩ := h
  refine passes_stop ?_ hquiet rfl rfl rfl fun _ => rfl
  rw [exec_stagep, execStagep, stopWord, if_pos hS]
  refine (packageWord_ok hr ?_ ?_).trans rfl
  · have hl : (s.onHere (fun b => ({ b with seq := { b.seq with iterno := none } }).passOthers)).launch x.id = some x := (launch_of_bind hx).2
    simp only [hquiet, hp, hi, hx, if_neg (Nat.not_le.2 hk), if_neg (Nat.not_le.2 hroom)]
    rw [serveAll_none (launch_modLaunch_same hl rfl) hq]
    rfl
  · rfl

end

/-- Settles O6. -/
theorem drainAndStage : Obligations.DrainAndStage := by
  unfold Obligations.DrainAndStage
  refine fun s m => ⟨passes_drain, fun n x h hi hx hq => ⟨?_, ?_⟩, stagep_fault⟩
  · exact stagep_last h hi hx
  · exact stagep_next h hi hx hq

end Sys2Proof.Sequencer

/-!
SUPPORT. `ITER` (04 R126; 05 R146 to R148): a request that is answered at once, its issue, and the other engines that observe it.
-/

namespace Sys2Proof.Sequencer
open Sys2Proof.Machine

theorem exec_iter (m : Dep) (off : BitVec 18) (s : State) : exec (.iter m off) s = execIter m off s := by rfl

/-! ## Launches changed twice -/

theorem modLaunch_modLaunch (s : State) (id : Nat) {f : Launch → Launch} (g : Launch → Launch) (hf : ∀ y, y.id = id → (f y).id = id) :
    (s.modLaunch id f).modLaunch id g = s.modLaunch id (g ∘ f) := by
  unfold State.modLaunch
  simp only [List.map_map]
  congr 1
  refine List.map_congr_left fun y _ => ?_
  by_cases h : y.id = id
  · simp [h, hf y h]
  · simp [h]

/-! ## The request (05 R147) -/

/-- The answer that the cores of stage 0 get. -/
def nextIndex (l : Launch) : Option Nat := if l.walker < totalIters l.pkt.nest then some l.walker else none

/-- The launch after it. -/
def drawn (l : Launch) : Launch := if l.walker < totalIters l.pkt.nest then { l with walker := l.walker + 1 } else l

theorem answer_first (s : State) (l : Launch) : s.answer l 0 = some (nextIndex l, drawn l) := by
  rw [State.answer, if_pos rfl, nextIndex, drawn]
  split_ifs <;> rfl

theorem drawn_queue (l : Launch) (q : List Loc) : drawn { l with iterQ := q } = { drawn l with iterQ := q } := by
  unfold drawn
  split_ifs <;> rfl

theorem drawn_id (l : Launch) : (drawn l).id = l.id := by
  unfold drawn
  split_ifs <;> rfl

theorem drawn_iterQ (l : Launch) : (drawn l).iterQ = l.iterQ := by
  unfold drawn
  split_ifs <;> rfl

/-- The bank that holds an answer. -/
def answered (b : Bank) (ans : Option (Nat × List Nat)) : Bank := { b with seq := { b.seq with iterReq := false, iterAns := some ans } }

theorem serveAll_some {s : State} {id : Nat} {x : Launch} (h : s.launch id = some x) : s.serveAll id = s.serve id x.iterQ := by
  simp only [State.serveAll, h]

/-- A request that can be answered is. -/
theorem serve_cons {s : State} {id : Nat} {k : Loc} {t : List Loc} {x y : Launch} {a : Option Nat} (hx : s.launch id = some x)
    (ha : s.answer x (s.bank k).seq.stage = some (a, y)) :
    s.serve id (k :: t) = ((s.modLaunch id (fun _ => { y with iterQ := y.iterQ.filter (· != k) })).setBank k
      (answered (s.bank k) (a.map (fun n => (n, unrank x.pkt.nest n))))).serve id t := by
  simp only [State.serve, hx, ha]
  rfl

/-- A core of stage 0 is answered at once where no other request waits. -/
theorem requestIter_first {s : State} {l : Launch} (hl : s.launch l.id = some l) (hstage : s.here.seq.stage = 0) (hq : l.iterQ = []) :
    s.requestIter l.id = (s.modLaunch l.id (fun _ => drawn l)).setBank s.cur.loc
      (answered s.here ((nextIndex l).map (fun n => (n, unrank l.pkt.nest n)))) := by
  let waits : Bank := { s.here with seq := { s.here.seq with iterReq := true } }
  let u := (s.setBank s.cur.loc waits).modLaunch l.id (fun x => { x with iterQ := x.iterQ ++ [s.cur.loc] })
  have hu : u.launch l.id = some { l with iterQ := [s.cur.loc] } := by
    rw [launch_modLaunch_same (show (s.setBank s.cur.loc waits).launch l.id = some l from hl) rfl, hq]
    rfl
  have hb : u.bank s.cur.loc = waits := bank_setBank_same ..
  have hans : u.answer { l with iterQ := [s.cur.loc] } (u.bank s.cur.loc).seq.stage = some (nextIndex l, { drawn l with iterQ := [s.cur.loc] }) := by
    rw [hb, show waits.seq.stage = 0 from hstage, answer_first, drawn_queue]
    rfl
  have hdrawn : ({ drawn l with iterQ := [] } : Launch) = drawn l := by
    rw [← hq, ← drawn_iterQ]
  have hfilter : [s.cur.loc].filter (· != s.cur.loc) = [] := by simp
  rw [State.requestIter, show State.serveAll _ l.id = u.serveAll l.id from rfl, serveAll_some hu, serve_cons hu hans, State.serve]
  simp only [hfilter, hdrawn, hb]
  rw [show u.modLaunch l.id (fun _ => drawn l) = (s.modLaunch l.id (fun _ => drawn l)).setBank s.cur.loc waits from ?_, setBank_setBank]
  · rfl
  · rw [modLaunch_modLaunch]
    · rfl
    · exact fun y h => h

/-! ## The issue (04 R126; 05 R148, R151) -/

/-- The iteration under way is counted. -/
def counted (p : Bool) (l : Launch) : Launch := { l with iters := l.iters + if p then 1 else 0 }

theorem setBank_counted (s : State) (y : Launch) (p : Bool) (k : Loc) (b c : Bank) :
    (if p then ((s.modLaunch y.id (fun _ => y)).setBank k b).modLaunch y.id (fun x => { x with iters := x.iters + 1 })
      else (s.modLaunch y.id (fun _ => y)).setBank k b).setBank k c = (s.modLaunch y.id (fun _ => counted p y)).setBank k c := by
  cases p
  · exact setBank_setBank ..
  · rw [if_pos rfl, show State.modLaunch (State.setBank _ k b) y.id _ = ((s.modLaunch y.id (fun _ => y)).modLaunch y.id _).setBank k b from rfl,
      setBank_setBank, modLaunch_modLaunch s y.id _ (fun _ _ => rfl)]
    rfl

/-- The bank whose S has taken its answer. -/
def taken (b : Bank) (n : Option Nat) : Bank := { b with seq := { b.seq with iterAns := none, iterno := n } }

theorem taken_boqPush (b : Bank) (n : Option Nat) (v : Reg64) (idx : List Reg64) : taken (b.boqPush v idx) n = (taken b n).boqPush v idx := rfl

theorem target_boqPush {n : Nat} (b : Bank) (v : Reg64) (idx : List Reg64) (off : BitVec n) : (b.boqPush v idx).target .S off = b.target .S off := by
  rw [Bank.target, Bank.boqPush_eng, if_pos rfl, Bank.target]

theorem taken_answered {b : Bank} (hreq : b.seq.iterReq = false) (hans : b.seq.iterAns = none) (a : Option (Nat × List Nat)) (n : Option Nat) :
    taken (answered b a) n = { b with seq := { b.seq with iterno := n } } := by
  simp [taken, answered, ← hreq, ← hans]

section
variable {s : State} (off : BitVec 18) (x : Launch) (hroom : s.here.boqRoom = true) (hfree : s.here.pending .S (idxCodes 56) = false)
  {p : Bool} (hp : s.here.seq.iterno.isSome = p)
include hroom hfree hp

theorem iterIssue_none (h : s.here.seq.iterAns = some none) : iterIssue off x true s
    = .ok ((if p then s.modLaunch x.id (fun x => { x with iters := x.iters + 1 }) else s).setBank s.cur.loc
        (taken (s.here.boqPush 1 []) none)) { jump := some ((s.here.boqPush 1 []).target .S off) } := by
  simp only [iterIssue, h, hp]
  rw [if_neg (by simp [hroom, hfree])]
  cases p <;> simp [taken]

theorem iterIssue_some {n : Nat} {idx : List Nat} (h : s.here.seq.iterAns = some (some (n, idx))) : iterIssue off x true s
    = .ok ((if p then s.modLaunch x.id (fun x => { x with iters := x.iters + 1 }) else s).setBank s.cur.loc
        (taken (s.here.boqPush 0 (idxRegs idx)) (some n))) { effs := idxEffs (idxRegs idx), writes := idxCodes 56 } := by
  simp only [iterIssue, h, hp]
  rw [if_neg (by simp [hroom, hfree])]
  cases p <;> simp [taken]

end

section
variable {m : Dep} {off : BitVec 18} {s : State} {l : Launch} (hi : Iterates m off s l) (hstage : s.here.seq.stage = 0) (hreq : s.here.seq.iterReq = false)
  (hans : s.here.seq.iterAns = none) (hq : l.iterQ = []) (hlast : l.hdr.elim 1 (·.stages) ≤ 1)
include hi hstage hreq hans hq hlast

theorem exec_iter_first : exec (.iter m off) s = packageWord (.iter m off) ((s.modLaunch l.id (fun _ => drawn l)).setBank s.cur.loc
    (answered s.here ((nextIndex l).map (fun n => (n, unrank l.pkt.nest n))))) (iterIssue off l true) := by
  obtain ⟨hS, ⟨hlive, htok⟩, hx, hroom, hfree⟩ := hi
  have hd : decide (l.hdr.elim 1 (·.stages) ≤ s.here.seq.stage + 1) = true := by simpa [hstage] using hlast
  rw [exec_iter, execIter, if_pos hS]
  simp only [hx, hd, hlive, htok, hreq, hans]
  rw [if_pos (by simp), requestIter_first (launch_of_bind hx).2 hstage hq]

/-- With none left every engine jumps. -/
theorem exec_iter_end (hn : totalIters l.pkt.nest ≤ l.walker) : exec (.iter m off) s
    = .next (((s.modLaunch l.id (fun _ => counted s.here.seq.iterno.isSome l)).setBank s.cur.loc
      (({ s.here with seq := { s.here.seq with iterno := none } } : Bank).boqPush 1 [])).issue (.iter m off) { jump := some (s.here.target .S off) }) := by
  rw [exec_iter_first hi hstage hreq hans hq hlast, show nextIndex l = none from if_neg (Nat.not_lt.2 hn), show drawn l = l from if_neg (Nat.not_lt.2 hn),
    Option.map_none]
  obtain ⟨hS, hr, hx, hroom, hfree⟩ := hi
  let v := (s.modLaunch l.id (fun _ => l)).setBank s.cur.loc (answered s.here none)
  have hh : v.here = answered s.here none := here_setBank (s.modLaunch l.id (fun _ => l)) _
  refine packageWord_ok (by rw [Ready, hh]; exact hr) ((iterIssue_none off l (s := v) ?_ ?_ (p := s.here.seq.iterno.isSome) ?_ ?_).trans ?_) rfl
  · rw [hh]; exact hroom
  · rw [hh]; exact hfree
  · rw [hh]; rfl
  · rw [hh]; rfl
  · rw [hh, target_boqPush, taken_boqPush, taken_answered hreq hans, ← setBank_counted s l s.here.seq.iterno.isSome s.cur.loc (answered s.here none)]
    rfl

/-- The next iteration is loaded and published. -/
theorem exec_iter_some (hn : l.walker < totalIters l.pkt.nest) : exec (.iter m off) s
    = .next (((s.modLaunch l.id (fun _ => counted s.here.seq.iterno.isSome { l with walker := l.walker + 1 })).setBank s.cur.loc
      (({ s.here with seq := { s.here.seq with iterno := some l.walker } } : Bank).boqPush 0 (idxRegs (unrank l.pkt.nest l.walker)))).issue (.iter m off)
        { effs := idxEffs (idxRegs (unrank l.pkt.nest l.walker)), writes := idxCodes 56 }) := by
  rw [exec_iter_first hi hstage hreq hans hq hlast, show nextIndex l = some l.walker from if_pos hn, show drawn l = { l with walker := l.walker + 1 } from if_pos hn,
    Option.map_some]
  obtain ⟨hS, hr, hx, hroom, hfree⟩ := hi
  let y : Launch := { l with walker := l.walker + 1 }
  let a := some (l.walker, unrank l.pkt.nest l.walker)
  let v := (s.modLaunch y.id (fun _ => y)).setBank s.cur.loc (answered s.here a)
  have hh : v.here = answered s.here a := here_setBank (s.modLaunch y.id (fun _ => y)) _
  refine packageWord_ok (by rw [Ready, hh]; exact hr) ((iterIssue_some off l (s := v) ?_ ?_ (p := s.here.seq.iterno.isSome) ?_ (n := l.walker) (idx := unrank l.pkt.nest l.walker) ?_).trans ?_) rfl
  · rw [hh]; exact hroom
  · rw [hh]; exact hfree
  · rw [hh]; rfl
  · rw [hh]; rfl
  · rw [hh, taken_boqPush, taken_answered hreq hans, ← setBank_counted s y s.here.seq.iterno.isSome s.cur.loc (answered s.here a)]
    rfl

end

/-! ## What S leaves -/

theorem applyAll_sregs (pc : Nat) (f : Nat → SReg) (g : Nat → Reg64) (l : List Nat) (b : Bank) :
    b.applyAll pc (l.map (fun j => .sreg (f j) (g j))) = l.foldl (fun b j => b.setSreg (f j) (g j)) b := by
  induction l generalizing b with
  | nil => rfl
  | cons j t ih => 
    rw [List.map_cons, Bank.applyAll, ih, List.foldl_cons]
    exact if_pos (Bank.setSreg_flt ..)

theorem applyAll_idxEffs (pc : Nat) (idx : List Reg64) (b : Bank) : b.applyAll pc (idxEffs idx) = b.loadS idx := applyAll_sregs ..

theorem loadS_part (idx : List Reg64) (b : Bank) {q : BankPart} (h : q.late = false) : BankPart.same (b.loadS idx) b q := by
  rw [← applyAll_idxEffs 0]
  exact (Settles.applyAll 0 _ b).part q h

theorem canPop_idxEffs (b : Bank) (idx : List Reg64) : b.canPop (idxEffs idx) = true := by
  simp [Bank.canPop, idxEffs]

theorem boqPush_tokens (b : Bank) (v : Reg64) (idx : List Reg64) (e : Engine) :
    ((b.boqPush v idx).eng e).tokNext = (b.eng e).tokNext ∧ ((b.boqPush v idx).eng e).tokPrev = (b.eng e).tokPrev := by
  rw [Bank.boqPush_eng]
  split
  · next h => exact h ▸ ⟨rfl, rfl⟩
  · exact ⟨rfl, rfl⟩

theorem fits_boqPush {b : Bank} {i : Instr} (h : Fits i b) (v : Reg64) (idx : List Reg64) : Fits i (b.boqPush v idx) := by
  unfold Fits Bank.roomBefore Bank.roomAfter at *
  rw [(boqPush_tokens ..).1, (boqPush_tokens ..).2]
  exact h

section
variable {m : Dep} {off : BitVec 18} {s : State} {l : Launch} (hi : Iterates m off s l) (hstage : s.here.seq.stage = 0) (hreq : s.here.seq.iterReq = false)
  (hans : s.here.seq.iterAns = none) (hq : l.iterQ = []) (hlast : l.hdr.elim 1 (·.stages) ≤ 1)
include hi hstage hreq hans hq hlast

theorem passes_iter_end (hn : totalIters l.pkt.nest ≤ l.walker) :
    Passes (.iter m off) s (s.modLaunch l.id (fun _ => counted s.here.seq.iterno.isSome l)) { s.here with seq := { s.here.seq with iterno := none } }
      (fun f => if f = .S then (s.here.eng .S).pass 0 (some (s.here.target .S off)) else { s.here.eng f with boq := (s.here.eng f).boq ++ [⟨1, []⟩] }) := by
  have hx := exec_iter_end hi hstage hreq hans hq hlast hn
  have hS : (Instr.hd (.iter m off)).eng = .S := rfl
  have hext : (Instr.hd (.iter m off)).ext = 0 := rfl
  generalize hb : ({ s.here with seq := { s.here.seq with iterno := none } } : Bank) = b at hx ⊢
  have he : ∀ e, b.eng e = s.here.eng e := fun e => by rw [← hb]; rfl
  have hst : b.st = s.here.st := by rw [← hb]
  refine passes_issue hx ((Bank.boqPush_st ..).trans hst) (fun q _ => Bank.boqPush_part _ _ _ q) (fun hc _ q _ => ?_) ?_ fun e h => ?_
  · have hcalm : (b.boqPush 1 []).calm := Bank.boqPush_calm _ _ _ fun e => he e ▸ hc e
    exact BankPart.same_trans (issued_same hcalm (Instr.hd _) rfl rfl (fun _ => rfl) q) (Bank.boqPush_part _ _ _ q)
  · rw [hS, hext, Bank.boqPush_eng, if_pos rfl, if_pos rfl, he]
    exact EngSt.sameWalk_refl _
  · rw [hS] at h
    rw [Bank.boqPush_eng, if_neg h, if_neg h, ite_self, he]
    exact EngSt.sameWalk_refl _

theorem passes_iter_some (hn : l.walker < totalIters l.pkt.nest) :
    Passes (.iter m off) s (s.modLaunch l.id (fun _ => counted s.here.seq.iterno.isSome { l with walker := l.walker + 1 }))
      (({ s.here with seq := { s.here.seq with iterno := some l.walker } } : Bank).loadS (idxRegs (unrank l.pkt.nest l.walker)))
      (fun f => if f = .S then (s.here.eng .S).pass 0 none
        else { s.here.eng f with boq := (s.here.eng f).boq ++ [⟨0, if f = .A then idxRegs (unrank l.pkt.nest l.walker) else []⟩] }) := by
  have hx := exec_iter_some hi hstage hreq hans hq hlast hn
  have hS : (Instr.hd (.iter m off)).eng = .S := rfl
  have hext : (Instr.hd (.iter m off)).ext = 0 := rfl
  generalize idxRegs (unrank l.pkt.nest l.walker) = idx at hx ⊢
  generalize hb : ({ s.here with seq := { s.here.seq with iterno := some l.walker } } : Bank) = b at hx ⊢
  have he : ∀ e, b.eng e = s.here.eng e := fun e => by rw [← hb]; rfl
  have hst : b.st = s.here.st := by rw [← hb]
  refine passes_issue hx ((Bank.boqPush_st ..).trans hst) (fun q h => ?_) (fun hc hfit q _ => ?_) ?_ fun e h => ?_
  · exact BankPart.same_trans (Bank.boqPush_part b _ _ q) (BankPart.same_symm (loadS_part idx b h))
  · have hcalm : (b.boqPush 0 idx).calm := Bank.boqPush_calm _ _ _ fun e => he e ▸ hc e
    have hfit' : Fits (.iter m off) (b.boqPush 0 idx) := fits_boqPush (by rw [← hb]; exact hfit) 0 idx
    have hall := Bank.issued_effs _ _ { effs := idxEffs idx, writes := idxCodes 56 } hcalm rfl rfl (canPop_idxEffs ..) hfit'.1 hfit'.2
    have hpush := (AllSame.applyAll (((b.boqPush 0 idx).eng (Instr.hd (.iter m off)).eng).pc) (idxEffs idx) (Bank.boqPush_part b 0 idx) rfl).1
    rw [applyAll_idxEffs _ _ b] at hpush
    exact BankPart.same_trans (hall q) (hpush q)
  · rw [hS, hext, Bank.boqPush_eng, if_pos rfl, if_pos rfl, he]
    exact EngSt.sameWalk_refl _
  · rw [hS] at h
    rw [Bank.boqPush_eng, if_neg h, if_neg h, he]
    exact EngSt.sameWalk_refl _

end

/-! ## The engines that observe it -/

theorem loadA_setEng (b : Bank) (idx : List Reg64) (e : Engine) (y : EngSt) : (b.setEng e y).loadA idx = (b.loadA idx).setEng e y := rfl
theorem loadA_eng (b : Bank) (idx : List Reg64) (e : Engine) : (b.loadA idx).eng e = b.eng e := rfl
theorem loadA_st (b : Bank) (idx : List Reg64) : (b.loadA idx).st = b.st := rfl

/-- What the outcome of an `ITER` leaves of a bank beside the engine that takes it. -/
def observed (e : Engine) (o : BoqEnt) (b : Bank) : Bank := if e = .A ∧ o.val ≠ 1 then b.loadA o.idx else b

theorem observed_eng (e : Engine) (o : BoqEnt) (b : Bank) (f : Engine) : (observed e o b).eng f = b.eng f := by
  unfold observed
  split_ifs
  · exact loadA_eng ..
  · rfl

theorem observed_setEng (e : Engine) (o : BoqEnt) (b : Bank) (f : Engine) (y : EngSt) : observed e o (b.setEng f y) = (observed e o b).setEng f y := by
  unfold observed
  split_ifs
  · exact loadA_setEng ..
  · rfl

theorem observed_st (e : Engine) (o : BoqEnt) (b : Bank) : (observed e o b).st = b.st := by
  unfold observed
  split_ifs
  · exact loadA_st ..
  · rfl

section
variable {off : BitVec 18} {e : Engine} {b : Bank} {o : BoqEnt} {rest : List BoqEnt} (ho : (b.eng e).boq = o :: rest)
  (hfree : e = .A → b.pending .A (natsFrom 26 6) = false)
include ho hfree

theorem iterObserve_ok : iterObserve off e b
    = .ok (observed e o (b.setEng e { b.eng e with boq := rest })) { jump := if o.val = 1 then some (b.target e off) else none } := by
  have hpop : b.boqPop e = some (o, b.setEng e { b.eng e with boq := rest }) := by rw [Bank.boqPop, ho]
  have htarget : (b.setEng e { b.eng e with boq := rest }).target e off = b.target e off := by
    rw [Bank.target, Bank.eng_setEng_same]
    rfl
  have hgo : ¬(e = .A ∧ b.pending .A (idxCodes 26) = true) := fun h => by simpa [idxCodes, hfree h.1] using h.2
  simp only [iterObserve, if_neg hgo, hpop, observed]
  by_cases hv : o.val = 1
  · rw [if_pos hv, if_pos hv, if_neg fun h => h.2 hv, htarget]
  · rw [if_neg hv, if_neg hv]
    by_cases hA : e = .A
    · rw [if_pos hA, if_pos ⟨hA, hv⟩]
    · rw [if_neg hA, if_neg fun h => hA h.1]

end

/-- Where the engine goes that takes its outcome, and the others. -/
def observedAt (off : BitVec 18) (e : Engine) (o : BoqEnt) (rest : List BoqEnt) (b : Bank) (f : Engine) : EngSt :=
  if f = e then { b.eng e with boq := rest, pc := if o.val = 1 then b.target e off else (b.eng e).pc + 1, walk := (b.eng e).walk + 1 } else b.eng f

/-- Another engine takes its outcome, and A its indices. -/
theorem passes_iter_observe {m : Dep} {off : BitVec 18} {s : State} {o : BoqEnt} {rest : List BoqEnt} (he : s.cur.eng ≠ .S) (hm : Meets (.iter m off) s)
    (ho : (s.here.eng s.cur.eng).boq = o :: rest) (hfree : s.cur.eng = .A → s.here.pending .A (natsFrom 26 6) = false) :
    Passes (.iter m off) s s (observed s.cur.eng o s.here) (observedAt off s.cur.eng o rest s.here) := by
  let b := observed s.cur.eng o (s.here.setEng s.cur.eng { s.here.eng s.cur.eng with boq := rest })
  have hx : exec (.iter m off) s = flowWord (.iter m off) s (iterObserve off) := by rw [exec_iter, execIter, if_neg he]
  have hself : b.eng s.cur.eng = { s.here.eng s.cur.eng with boq := rest } := (observed_eng ..).trans (Bank.eng_setEng_same ..)
  have hoth : ∀ f, f ≠ s.cur.eng → b.eng f = s.here.eng f := fun f h => (observed_eng ..).trans (Bank.eng_setEng_ne _ _ h)
  let jump := if o.val = 1 then some (s.here.target s.cur.eng off) else none
  have hpass : ((b.eng s.cur.eng).pass 0 jump).sameWalk (observedAt off s.cur.eng o rest s.here s.cur.eng) := by
    rw [hself, Encoding.pass_ite, observedAt, if_pos rfl]
    exact EngSt.sameWalk_refl _
  have hstay : ∀ f, f ≠ s.cur.eng → (b.eng f).sameWalk (observedAt off s.cur.eng o rest s.here f) := fun f h => by
    rw [hoth f h, observedAt, if_neg h]
    exact EngSt.sameWalk_refl _
  obtain ⟨t, hxt, hall, ⟨hkept, -⟩, hwalk⟩ := flows_observe (.iter m off) s (iterObserve off) allParts _ (fun t => AllSame t.here b) b { jump } hx he hm
    (iterObserve_ok ho hfree) (observed_st ..) hpass hstay (fun q hq => absurd (mem_allParts q) hq) (fun _ _ h => h)
  refine ⟨t, hxt, hkept, fun q _ => BankPart.same_trans (hall q) ?_, hwalk⟩
  rw [show b = (observed s.cur.eng o s.here).setEng s.cur.eng _ from observed_setEng ..]
  exact Bank.setEng_part ..

/-- Settles O7. -/
theorem iterations : Obligations.Iterations := by
  unfold Obligations.Iterations
  refine fun s m off => ⟨fun l hi hstage hreq hans hq hlast => ⟨fun hn => ?_, fun hn => ?_⟩, fun o rest he hm ho hfree => passes_iter_observe he hm ho hfree⟩
  · rw [hi.1]
    exact passes_iter_some hi hstage hreq hans hq hlast hn
  · rw [hi.1]
    exact passes_iter_end hi hstage hreq hans hq hlast hn

end Sys2Proof.Sequencer

/-!
SUPPORT. The end of a core's part (04 R124, R127; 05 R153, R171, R172): a fatal fault of a running launch, and what ending a part does to its launch.
-/

namespace Sys2Proof.Sequencer
open Sys2Proof.Machine

theorem exec_trap (m : Dep) (code : BitVec 16) (s : State) : exec (.trap m code) s = execTrap m code s := by rfl
theorem exec_exit (m : Dep) (s : State) : exec (.exit m) s = execExit m s := by rfl

/-! ## A fault of a running launch (05 R171, R172) -/

theorem takeFault_pcs (b : Bank) (c : FCode) (pc d : Nat) : (b.takeFault c pc d).pcs = b.pcs := by
  unfold Bank.takeFault
  split <;> rfl

theorem takeFault_st (b : Bank) (c : FCode) (pc d : Nat) : (b.takeFault c pc d).st = b.st := by
  unfold Bank.takeFault
  split <;> rfl

theorem takeFault_launch (b : Bank) (c : FCode) (pc d : Nat) : (b.takeFault c pc d).launch = b.launch := by
  unfold Bank.takeFault
  split <;> rfl

theorem takeFault_flt {b : Bank} (h : b.flt = none) (c : FCode) (pc d : Nat) : (b.takeFault c pc d).flt = some ⟨c, pc, d⟩ := by
  unfold Bank.takeFault
  rw [h]

theorem record_id (x : Launch) (f : FaultRec) : (x.record f).id = x.id := by
  unfold Launch.record
  split
  · rfl
  · split_ifs <;> rfl

/-- The first fault of a running launch is named, and it ends. -/
theorem record_first {x : Launch} (hst : x.st = .running) (hf : x.fault = none) (f : FaultRec) :
    x.record f = { x with fault := some f, nfault := x.nfault.filter (· != f.core), status := 1 } := by
  unfold Launch.record
  rw [hf]
  simp [hst]

theorem stopLaunch_launch (s : State) (k id : Nat) : (s.stopLaunch k).launch id = s.launch id := rfl

theorem stopRun_st (b : Bank) (id : Nat) : (b.stopRun id).st = if b.launch = some id ∧ b.st = .run then .halting else b.st := by
  unfold Bank.stopRun
  split_ifs <;> rfl

/-- What a launch that is not PREEMPTED becomes when a bank of it has taken a fault. -/
def faulted (s : State) (l : Loc) (f : Flt) (x : Launch) : Launch :=
  let y := if (s.bank l).counts x.st then x.record ⟨f.code, l.core, f.pc, f.detail, (assoc x.held l.core).getD s.dtime, (s.bank l).pcs⟩ else x
  if y.st = .done then y else { y with st := .ending }


theorem faulted_id (s : State) (l : Loc) (f : Flt) (x : Launch) : (faulted s l f x).id = x.id := by
  unfold faulted
  dsimp only
  split_ifs
  exacts [record_id .., record_id .., rfl, rfl]

theorem noteFault_running {s : State} {l : Loc} {f : Flt} {x : Launch} (hf : (s.bank l).flt = some f) (hl : (s.bank l).launch = some x.id)
    (hx : s.launch x.id = some x) (hst : x.st = .running) : s.noteFault l = (s.modLaunch x.id (faulted s l f)).stopLaunch x.id := by
  unfold State.noteFault
  rw [hf, hl]
  dsimp only
  rw [hx, if_neg (by simp [hst])]
  rfl

section
variable {s : State} {m : Dep} {code : BitVec 16} {x : Launch} (hr : Ready (.trap m code) s) (hl : s.here.launch = some x.id) (hx : s.launch x.id = some x)
  (hst : x.st = .running) (hf : x.fault = none)
include hr hl hx hst hf

/-- `TRAP` (04 R127). -/
theorem trap_ends : ∃ t, exec (.trap m code) s = .next t
    ∧ t.here.flt = some ⟨.trap, s.here.engs.S.pc, code.toNat⟩ ∧ t.here.engs = s.here.engs ∧ t.mem = s.mem
    ∧ (∃ y, t.launch x.id = some y ∧ y.st = .ending ∧ y.status = 1
        ∧ y.fault = some ⟨.trap, s.cur.loc.core, s.here.engs.S.pc, code.toNat, (assoc x.held s.cur.loc.core).getD s.dtime, s.here.pcs⟩)
    ∧ (∀ id, id ≠ x.id → t.launch id = s.launch id)
    ∧ (∀ l, (t.bank l).st = if (s.bank l).launch = some x.id ∧ (s.bank l).st = .run then .halting else (s.bank l).st)
    ∧ ∀ p, BankPart.same t.here s.here p := by
  let f : Flt := ⟨.trap, s.here.engs.S.pc, code.toNat⟩
  let b := s.here.takeFault .trap s.here.engs.S.pc code.toNat
  let u := s.setBank s.cur.loc b
  have hub : u.bank s.cur.loc = b := bank_setBank_same ..
  have hexec : exec (.trap m code) s = .next (u.noteFault s.cur.loc) := by
    rw [exec_trap, execTrap, bankWord, Bank.tryIssue, hr.1, hr.2]
    rfl
  have hnote : u.noteFault s.cur.loc = (u.modLaunch x.id (faulted u s.cur.loc f)).stopLaunch x.id :=
    noteFault_running (by rw [hub]; exact takeFault_flt hr.flt ..) (by rw [hub]; exact (takeFault_launch ..).trans hl) hx hst
  obtain ⟨hflt, hengs⟩ := Encoding.here_takeFault .trap s.here.engs.S.pc code.toNat hr.flt
  have hfaulted : faulted u s.cur.loc f x = { x with fault := some ⟨.trap, s.cur.loc.core, s.here.engs.S.pc, code.toNat,
      (assoc x.held s.cur.loc.core).getD s.dtime, s.here.pcs⟩, nfault := x.nfault.filter (· != s.cur.loc.core), status := 1, st := .ending } := by
    have hc : (u.bank s.cur.loc).counts x.st = true := by simp [Bank.counts, hst]
    have hpcs : (u.bank s.cur.loc).pcs = s.here.pcs := by rw [hub]; exact takeFault_pcs ..
    unfold faulted
    rw [if_pos hc, record_first hst hf, hpcs]
    exact if_neg (by simp [hst])
  refine ⟨_, hexec, hflt, hengs, noteFault_mem .., ⟨faulted u s.cur.loc f x, ?_, ?_⟩, fun id hid => ?_, fun l => ?_, fun p => ?_⟩
  · rw [hnote, stopLaunch_launch]
    exact launch_modLaunch_same (s := u) hx (faulted_id ..)
  · rw [hfaulted]
    exact ⟨rfl, rfl, rfl⟩
  · rw [hnote, stopLaunch_launch]
    exact launch_modLaunch_ne (s := u) hid fun y hy => (faulted_id ..).trans hy
  · rw [hnote, bank_stopLaunch, stopRun_st, show (u.modLaunch x.id (faulted u s.cur.loc f)).bank l = u.bank l from rfl]
    by_cases h : l = s.cur.loc
    · subst h
      rw [hub, takeFault_launch, takeFault_st]
      rfl
    · rw [bank_setBank_ne _ _ h]
  · exact here_noteFault_part u s.here p (by rw [show u.here = b from here_setBank s b]; exact AllSame.takeFault _ _ _ _ p)

end

/-! ## What a launch keeps while granules perform (12 R415 to R419) -/

/-- Every launch is there still, with no more than its saved banks changed. -/
def Resaved (s t : State) : Prop := ∀ id x, s.launch id = some x → ∃ sv, t.launch id = some { x with saved := sv }

theorem Resaved.of_launches {s t : State} (h : t.launches = s.launches) : Resaved s t := fun id x hx => ⟨x.saved, by rw [State.launch, h]; exact hx⟩

theorem Resaved.trans {s t u : State} (h : Resaved s t) (k : Resaved t u) : Resaved s u := fun id x hx => by
  obtain ⟨sv, ht⟩ := h id x hx
  obtain ⟨sv', hu⟩ := k id { x with saved := sv } ht
  exact ⟨sv', hu⟩

theorem Resaved.refl (s : State) : Resaved s s := .of_launches rfl

/-- A fold of changes of which each keeps the launches does. -/
theorem Resaved.foldl {α : Type} (f : State → α → State) (h : ∀ s a, Resaved s (f s a)) (l : List α) : ∀ s, Resaved s (l.foldl f s) := by
  induction l with
  | nil => exact Resaved.refl
  | cons a t ih => exact fun s => (h s a).trans (ih _)

theorem resaved_modPart (s : State) (id : Nat) (l : Loc) (f : Bank → Bank) : Resaved s (s.modPart id l f) := by
  unfold State.modPart
  split
  · exact .refl s
  · split_ifs
    · intro k y hy
      by_cases hk : k = id
      · subst hk
        have hid := launch_id hy
        exact ⟨_, launch_modLaunch_same hy (by exact hid)⟩
      · refine ⟨y.saved, Eq.trans (launch_modLaunch_ne hk ?_) hy⟩
        exact fun _ h => h
    · exact .of_launches rfl
    · exact .refl s

theorem walkFor_launches (s : State) (ctx va : Nat) (w : Bool) : (s.walkFor ctx va w).1.launches = s.launches := by
  unfold State.walkFor
  split_ifs
  · rfl
  · split
    · rfl
    · dsimp only
      split
      · rfl
      · rfl
      · split_ifs <;> rfl

theorem walkParts_launches (ctx : Nat) (w : Bool) (homes : List Nat) (l : List (Nat × Nat)) : ∀ s : State, (s.walkParts ctx w homes l).1.launches = s.launches := by
  induction l with
  | nil => intro s; rfl
  | cons p t ih =>
    intro s
    obtain ⟨va, n⟩ := p
    have hw := walkFor_launches s ctx va w
    rw [State.walkParts]
    rcases hf : s.walkFor ctx va w with ⟨s', r⟩
    rw [hf] at hw
    have hp := ih s'
    rcases hq : s'.walkParts ctx w homes t with ⟨s'', r'⟩
    rw [hq] at hp
    cases r with
    | fault c => exact hw
    | page v =>
      dsimp only
      rw [hq]
      cases r' <;> exact hp.trans hw
    | ok pa =>
      dsimp only
      split_ifs
      · exact hw
      · rw [hq]
        cases r' <;> exact hp.trans hw

theorem writePl_launches (s : State) (p : Place) (d : List Byte) : (s.writePl p d).launches = s.launches := by
  cases p with
  | sp0 l o => rfl
  | pa a => exact writePa_launches ..

theorem writeRngs_launches (r : List Rng) : ∀ (s : State) (d : List Byte), (s.writeRngs r d).launches = s.launches := by
  induction r with
  | nil => exact fun _ _ => rfl
  | cons x t ih => exact fun s d => (ih _ _).trans (writePl_launches ..)

theorem mwrite_launches (s : State) (ctx va : Nat) (d : List Byte) : (s.mwrite ctx va d).launches = s.launches := by
  have hw : (s.walkAll ctx va d.length true [0, 1]).1.launches = s.launches := by
    unfold State.walkAll
    split_ifs
    · rfl
    · exact walkParts_launches ..
  unfold State.mwrite
  split
  · next h => exact (writeRngs_launches ..).trans (by rw [← hw, h])
  · next h => rw [← hw, h]

theorem resaved_deliver (s : State) (i : Nat) : Resaved s (s.deliver i) := by
  unfold State.deliver
  split
  · exact .refl s
  · next t ht =>
    have harrive := resaved_modPart { s with transit := s.transit.eraseIdx i } t.launch t.sub (fun b => b.arrive t)
    have hs : Resaved s { s with transit := s.transit.eraseIdx i } := .of_launches rfl
    dsimp only
    split_ifs
    · refine (hs.trans harrive).trans ?_
      unfold State.logDrift
      split
      · exact .refl _
      · exact .of_launches (mwrite_launches ..)
    · exact hs.trans harrive

theorem resaved_deliverFrom (p : Transit → Bool) (n : Nat) : ∀ s : State, Resaved s (s.deliverFrom p n) := by
  induction n with
  | zero => exact Resaved.refl
  | succ n ih =>
    intro s
    unfold State.deliverFrom
    split
    · exact (resaved_deliver _ _).trans (ih _)
    · exact .refl s

theorem resaved_sendGran (s : State) (l : Loc) (i : Nat) : Resaved s (s.sendGran l i) := by
  unfold State.sendGran
  dsimp only
  split
  · split
    · exact .refl s
    · exact .of_launches rfl
  · exact .refl s

theorem resaved_sendEntry (l : Loc) (i n : Nat) : ∀ s : State, Resaved s (s.sendEntry l i n) := by
  induction n with
  | zero => exact Resaved.refl
  | succ n ih => exact fun s => (resaved_sendGran _ _ _).trans (ih _)

theorem resaved_flushFan (s : State) (l : Loc) : Resaved s (s.flushFan l) :=
  (Resaved.foldl _ (fun s i => resaved_sendEntry l i _ s) _ s).trans (resaved_deliverFrom _ _ _)

theorem resaved_endFeeds (s : State) (id : Nat) (l : Loc) : Resaved s (s.endFeeds id l) :=
  Resaved.foldl _ (fun _ _ => resaved_modPart _ _ _ _) _ s

theorem resaved_dropFeeds (s : State) (id : Nat) (l : Loc) : Resaved s (s.dropFeeds id l) := by
  unfold State.dropFeeds
  split
  · exact .refl s
  · exact (Resaved.foldl _ (fun _ _ => resaved_modPart _ _ _ _) _ s).trans (.of_launches rfl)

/-! ## Without granules nothing performs -/

theorem sendAll_none {s : State} {l : Loc} (h : (s.bank l).fab.fan = []) : s.sendAll l = s := by
  rw [State.sendAll, h]
  rfl

theorem deliverable_mem {s : State} {i : Nat} {t : Transit} (h : s.deliverable i = some t) : t ∈ s.transit := by
  obtain ⟨hh, -⟩ := Option.filter_eq_some_iff.1 h
  exact List.mem_of_mem_drop (List.mem_of_mem_head? hh)

theorem deliverFrom_none {s : State} {p : Transit → Bool} (h : ∀ t ∈ s.transit, p t = false) (n : Nat) : s.deliverFrom p n = s := by
  cases n with
  | zero => rfl
  | succ n =>
    unfold State.deliverFrom
    split
    · next i hi =>
      have hp := List.find?_some hi
      cases hd : s.deliverable i with
      | none => simp [hd] at hp
      | some t => simp [hd, h t (deliverable_mem hd)] at hp
    · rfl

/-- A core that publishes to no subscriber has nothing to flush (12 R416). -/
theorem flushFan_none {s : State} (h : NoGranules s) : s.flushFan s.cur.loc = s := by
  obtain ⟨hfan, htransit⟩ := h
  rw [State.flushFan, sendAll_none hfan]
  exact deliverFrom_none (fun t ht => by simpa using htransit t ht) _

/-! ## The end of a core's part (04 R124, 05 R153) -/

theorem modPart_mem (s : State) (id : Nat) (l : Loc) (f : Bank → Bank) : (s.modPart id l f).mem = s.mem := by
  unfold State.modPart
  split
  · rfl
  · split_ifs <;> rfl

theorem endFeeds_mem (s : State) (id : Nat) (l : Loc) : (s.endFeeds id l).mem = s.mem :=
  List.foldlRecOn (motive := fun t : State => t.mem = s.mem) _ _ rfl fun _ h _ _ => (modPart_mem ..).trans h

theorem dropFeeds_mem (s : State) (id : Nat) (l : Loc) : (s.dropFeeds id l).mem = s.mem := by
  unfold State.dropFeeds
  split
  · rfl
  · exact List.foldlRecOn (motive := fun t : State => t.mem = s.mem) _ _ rfl fun _ h _ _ => (modPart_mem ..).trans h

theorem clearPart_bank (s : State) (l : Loc) : (s.clearPart l).bank l = {} := by
  rw [State.clearPart, State.bank, core_setCore_same]
  unfold Core.bank Core.setBank
  split_ifs <;> rfl

section
variable {s : State} {m : Dep} {x : Launch}

/-- A's part of `EXIT`. -/
theorem exit_A (hA : s.cur.eng = .A) (hlive : s.here.live = true) :
    exec (.exit m) s = .next (s.setBank s.cur.loc (s.here.stopCopies true (·.long))) := by
  rw [exec_exit, execExit, hlive, if_neg (by decide), if_pos hA]

/-- S ends its core's part of a launch. -/
theorem exit_S (h : Quiet (.exit m) s) (hstop : s.here.stopped = true) (hflush : s.flushes s.cur.loc = true) {id : Nat} (hl : s.here.launch = some id) :
    exec (.exit m) s = .next ((((s.endPart s.cur.loc id).serveAll id).selectBank s.cur.loc.core).arbiter) := by
  obtain ⟨hS, ⟨hlive, htok⟩, hq, hp⟩ := h
  rw [exec_exit, execExit, hlive, if_neg (by decide), if_neg (by simp [hS]), if_neg (by simp [hS, htok]), hl]
  dsimp only
  rw [hq, hstop, hp, hflush]
  rfl

theorem endPart_bank (l : Loc) (id : Nat) : (s.endPart l id).bank l = {} := clearPart_bank ..

theorem endPart_mem (h : NoGranules s) (id : Nat) : (s.endPart s.cur.loc id).mem = s.mem := by
  have hclear : ∀ t : State, (t.clearPart s.cur.loc).mem = t.mem := fun _ => rfl
  rw [State.endPart, flushFan_none h, modLaunch_mem, hclear, dropFeeds_mem, endFeeds_mem]

theorem endPart_launch {l : Loc} (hx : s.launch x.id = some x) (hst : x.st = .running) :
    ∃ y, (s.endPart l x.id).launch x.id = some y ∧ y.ended = l.core :: x.ended
      ∧ y.st = if x.cores.all (fun l => y.ended.contains l.core) then .ending else .running := by
  have hkept : Resaved s ((((s.flushFan l).endFeeds x.id l).dropFeeds x.id l).clearPart l) :=
    (((resaved_flushFan s l).trans (resaved_endFeeds _ _ _)).trans (resaved_dropFeeds _ _ _)).trans (.of_launches rfl)
  obtain ⟨sv, hsv⟩ := hkept _ x hx
  exact ⟨_, launch_modLaunch_same hsv rfl, rfl, by simp [hst]⟩

end

/-- Settles O8. -/
theorem ends : Obligations.Ends := by
  unfold Obligations.Ends
  refine ⟨fun s m code x hr hl hx hst hf => trap_ends hr hl hx hst hf, fun s m => ⟨exit_A, fun x h hstop hflush hl hx hst => ?_⟩⟩
  exact ⟨exit_S h hstop hflush hl, endPart_bank .., fun hn => endPart_mem hn _, endPart_launch hx hst⟩

end Sys2Proof.Sequencer

/-!
SUPPORT. Barriers (04 R123; 05 R154 to R158): the arrival of a core and the release of the members that wait.
-/

namespace Sys2Proof.Sequencer
open Sys2Proof.Machine

theorem exec_cairn (m : Dep) (lvl : Level) (s : State) : exec (.cairn m lvl) s = execCairn m lvl s := by rfl
theorem exec_barrierRelease (id : Nat) (lvl : Level) (place : Nat) (s : State) : exec (.barrierRelease id lvl place) s = .next (s.release id lvl place) := by rfl

/-! ## The barriers of a launch -/

theorem bar_lvl_place (x : Launch) (lvl : Level) (place : Nat) : (x.bar lvl place).lvl = lvl ∧ (x.bar lvl place).place = place := by
  unfold Launch.bar
  cases h : x.bars.find? (fun b => b.lvl == lvl && b.place == place) with
  | none => exact ⟨rfl, rfl⟩
  | some b => simpa using List.find?_some h

/-- A barrier that was put is there. -/
theorem bar_setBar (x : Launch) (b : Barrier) : (x.setBar b).bar b.lvl b.place = b := by
  simp [Launch.bar, Launch.setBar]

/-! ## Arrival (05 R155) -/

section
variable {s : State} {m : Dep} {lvl : Level} {x : Launch}

theorem flushes_none (h : NoGranules s) : s.flushes s.cur.loc = true := by
  rw [State.flushes, flushFan_none h]
  simpa using h.2

theorem cairn_arrives (h : Quiet (.cairn m lvl) s) (hl : s.here.launch = some x.id) (hc : s.here.seq.cairn = none) (he : s.cur.eager = false)
    (hn : NoGranules s) : exec (.cairn m lvl) s = .next (s.arriveAt s.cur.loc x.id lvl) := by
  obtain ⟨hS, ⟨hlive, htok⟩, hq, hp⟩ := h
  have hcur : (s.arriveAt s.cur.loc x.id lvl).cur = s.cur := by
    rw [State.arriveAt, flushFan_none hn]
    rfl
  rw [exec_cairn, execCairn, if_pos ⟨hS, hlive, htok⟩, hl]
  dsimp only
  rw [if_pos ⟨hc, hq, by simp [hp], flushes_none hn⟩, hcur, he, if_neg (by decide)]

theorem arriveAt_none (hn : NoGranules s) (hx : s.launch x.id = some x) : ∃ t, s.arriveAt s.cur.loc x.id lvl = t
    ∧ t.here = { s.here with seq := { s.here.seq with
        arrive := spPut 0 s.here.seq.arrive (Level.num lvl) (s.here.arrivals lvl + 1), cairn := some lvl, wdog := 0 } }
    ∧ (∃ y, t.launch x.id = some y ∧ (y.bar lvl (barPlace lvl s.cur.loc.core)).last = s.dtime
        ∧ (y.bar lvl (barPlace lvl s.cur.loc.core)).gen = (x.bar lvl (barPlace lvl s.cur.loc.core)).gen
        ∧ (y.bar lvl (barPlace lvl s.cur.loc.core)).age = some ((x.bar lvl (barPlace lvl s.cur.loc.core)).age.getD 0))
    ∧ t.mem = s.mem := by
  let place := barPlace lvl s.cur.loc.core
  let r : Barrier := { x.bar lvl place with age := some ((x.bar lvl place).age.getD 0), last := s.dtime }
  obtain ⟨hlvl, hplace⟩ := bar_lvl_place x lvl place
  have hbar : (x.setBar r).bar lvl place = r := by
    have := bar_setBar x r
    rwa [show r.lvl = lvl from hlvl, show r.place = place from hplace] at this
  refine ⟨_, rfl, ?_, ⟨x.setBar r, ?_, ?_⟩, ?_⟩
  · rw [State.arriveAt, flushFan_none hn]
    exact here_setBank ..
  · rw [State.arriveAt, flushFan_none hn]
    exact launch_modLaunch_same (s := s.setBank s.cur.loc _) hx rfl
  · rw [hbar]
    exact ⟨rfl, rfl, rfl⟩
  · rw [State.arriveAt, flushFan_none hn]
    rfl

end

/-! ## Passing -/

/-- A word whose effects are none makes its core take no fault. -/
theorem issued_flt_of_none {b : Bank} (hc : b.calm) (h : Head) : (b.issued h {}).flt = b.flt := by
  have hr : ((awaiting b h {}).eng h.eng).rets = [⟨(b.eng h.eng).walk, (b.eng h.eng).pc, h.dep.sp, h.dep.sn, [], [], []⟩] := by
    rw [awaiting_self]
    simp [EngSt.pass, EngSt.await, EngSt.popTokens, (hc h.eng).1]
  rw [Bank.issued_calm b h {} hc, show ({ b.setEng h.eng _ with seq := _ } : Bank) = awaiting b h {} from rfl, Bank.retireEng_one _ _ _ hr]
  simp only [Bank.applyAll, Bank.setEng_flt, if_true]
  split_ifs <;> rfl

/-- A bank whose S has left a Cairn. -/
def leaving (b : Bank) (t0 : Nat) : Bank := { b with seq := { b.seq with cairn := none, t0 } }

theorem leaving_eng (b : Bank) (t0 : Nat) (e : Engine) : (leaving b t0).eng e = b.eng e := rfl
theorem leaving_flt (b : Bank) (t0 : Nat) : (leaving b t0).flt = b.flt := rfl

theorem passOthers_flt (b : Bank) : b.passOthers.flt = b.flt := rfl

section
variable {b : Bank} {mm : Dep} {lvl : Level} (hchk : b.checked b.engs.S.pc = .ok (.cairn mm lvl)) (t0 : Nat)
include hchk

theorem passCairn_eq : b.passCairn t0 = leaving (b.passOthers.issued (Instr.hd (.cairn mm lvl)) {}) t0 := by
  rw [Bank.passCairn, hchk]
  rfl

theorem passCairn_flt (hc : b.calm) : (b.passCairn t0).flt = b.flt := by
  rw [passCairn_eq hchk, leaving_flt, issued_flt_of_none (passOthers_calm hc), passOthers_flt]

theorem passCairn_eng (e : Engine) : ((b.passCairn t0).eng e).pc = (b.eng e).pc + 1 ∧ ((b.passCairn t0).eng e).walk = (b.eng e).walk + 1 := by
  rw [passCairn_eq hchk, leaving_eng]
  have hS : (Instr.hd (.cairn mm lvl)).eng = .S := rfl
  by_cases he : e = .S
  · subst he
    obtain ⟨hpc, hwalk, -⟩ := Bank.issued_self b.passOthers (Instr.hd (.cairn mm lvl)) {}
    rw [hS, passOthers_eng, if_pos rfl] at hpc hwalk
    exact ⟨hpc, hwalk⟩
  · obtain ⟨hpc, hwalk, -⟩ := Bank.issued_other b.passOthers (Instr.hd (.cairn mm lvl)) {} e (hS ▸ he)
    rw [passOthers_eng, if_neg he] at hpc hwalk
    exact ⟨hpc, hwalk⟩

end

/-! ## Release (05 R155, R157) -/

/-- Banks that pass one after another, none of which takes a fault: each passes, and the rest stays. -/
theorem foldl_onBank (f : Bank → Bank) (l : List Loc) : ∀ s : State, l.Nodup → (∀ k ∈ l, (f (s.bank k)).flt = none) →
    (∀ k, (l.foldl (fun s k => s.onBank k f) s).bank k = if k ∈ l then f (s.bank k) else s.bank k)
      ∧ (l.foldl (fun s k => s.onBank k f) s).launches = s.launches ∧ (l.foldl (fun s k => s.onBank k f) s).mem = s.mem := by
  induction l with
  | nil => exact fun s _ _ => ⟨fun k => by simp, rfl, rfl⟩
  | cons a t ih =>
    intro s hd hf
    obtain ⟨ha, ht⟩ := List.nodup_cons.1 hd
    have hon : s.onBank a f = s.setBank a (f (s.bank a)) := noteFault_none _ _ (by rw [bank_setBank_same]; exact hf a (List.mem_cons_self ..))
    have hne : ∀ k ∈ t, k ≠ a := fun k hk e => ha (e ▸ hk)
    obtain ⟨hb, hl, hm⟩ := ih (s.setBank a (f (s.bank a))) ht fun k hk => by
      rw [bank_setBank_ne _ _ (hne k hk)]
      exact hf k (List.mem_cons_of_mem _ hk)
    rw [List.foldl_cons, hon]
    refine ⟨fun k => ?_, hl, hm⟩
    rw [hb]
    by_cases hk : k = a
    · subst hk
      simp [ha, bank_setBank_same]
    · simp [hk, bank_setBank_ne _ _ hk]

section
variable {s : State} {lvl : Level} {place : Nat} {x : Launch}

/-- The members that wait. -/
def waitingAt (s : State) (x : Launch) (lvl : Level) (place : Nat) : List Loc := (x.members lvl place).filter (fun l => (s.bank l).seq.cairn == some lvl)

theorem mem_waitingAt (l : Loc) : l ∈ waitingAt s x lvl place ↔ l ∈ x.members lvl place ∧ (s.bank l).seq.cairn = some lvl := by
  simp [waitingAt]

theorem waitingAt_nodup (h : x.cores.Nodup) : (waitingAt s x lvl place).Nodup := (h.filter _).filter _

theorem release_eq (hx : s.launch x.id = some x) (hst : x.st = .running) (hready : s.barReady x lvl place = true) : s.release x.id lvl place
    = ((waitingAt s x lvl place).foldl (fun s l => s.onBank l (fun b => b.passCairn (slotOrigin (x.bar lvl place).last x.pkt.slotlen))) s).modLaunch x.id
        (fun y => y.setBar { x.bar lvl place with gen := (x.bar lvl place).gen + 1, age := none }) := by
  rw [State.release, hx]
  dsimp only
  rw [if_neg (by simp [hst, hready])]
  rfl

end

/-- Settles O9. -/
theorem barriers : Obligations.Barriers := by
  unfold Obligations.Barriers
  refine fun s m lvl x => ⟨fun h hl hx hc he hn => ?_, fun place hx hst hready hnd hw => ?_⟩
  · obtain ⟨t, rfl, ht⟩ := arriveAt_none hn hx
    exact ⟨_, cairn_arrives h hl hc he hn, ht⟩
  · let t0 := slotOrigin (x.bar lvl place).last x.pkt.slotlen
    let u := (waitingAt s x lvl place).foldl (fun s l => s.onBank l (fun b => b.passCairn t0)) s
    obtain ⟨hbank, hlaunches, hmem⟩ := foldl_onBank (fun b => b.passCairn t0) (waitingAt s x lvl place) s (waitingAt_nodup hnd) fun k hk => by
      obtain ⟨hc, hflt, mm, hchk⟩ := hw k ((mem_waitingAt k).1 hk)
      exact (passCairn_flt hchk t0 hc).trans hflt
    refine ⟨_, (exec_barrierRelease ..).trans (congrArg _ (release_eq hx hst hready)), fun l hl => ?_, fun l hl => ?_, ⟨_, launch_modLaunch_same
      (s := u) ?_ rfl, ?_⟩, hmem⟩
    · obtain ⟨hc, hflt, mm, hchk⟩ := hw l hl
      rw [show State.bank (State.modLaunch _ _ _) l = u.bank l from rfl, hbank, if_pos ((mem_waitingAt l).2 hl)]
      refine ⟨?_, ?_, passCairn_eng hchk t0⟩
      · rw [passCairn_eq hchk]
        rfl
      · rw [passCairn_eq hchk]
        rfl
    · rw [show State.bank (State.modLaunch _ _ _) l = u.bank l from rfl, hbank, if_neg fun h => hl ((mem_waitingAt l).1 h)]
    · rw [State.launch, hlaunches]
      exact hx
    · obtain ⟨hlvl, hplace⟩ := bar_lvl_place x lvl place
      have hbar := bar_setBar x { x.bar lvl place with gen := (x.bar lvl place).gen + 1, age := none }
      rw [hlvl, hplace] at hbar
      rw [hbar]
      exact ⟨rfl, rfl⟩

end Sys2Proof.Sequencer

/-!
SUPPORT. INT8 passes (10 R347, R351, R353, R354): a cell joined with its products under code 00, the passes of `MX.BATCH`, and the pops behind each.
-/

namespace Sys2Proof.Sequencer
open Sys2Proof.Machine Sys2Proof.Formats

/-! ## One cell -/

theorem ofNat_wrapTo (x : Int) : BitVec.ofNat 80 (wrapTo 80 x) = BitVec.ofInt 80 x := by
  apply BitVec.eq_of_toNat_eq
  rw [BitVec.toNat_ofNat, BitVec.toNat_ofInt, wrapTo]
  omega

/-- Saturation to 80 bits (03 R97). -/
theorem sat80_eq (x : Int) : (sat80 x).1 = BitVec.ofInt 80 (max (-(2 ^ 79)) (min (2 ^ 79 - 1) x)) := by
  have hr : intRange false 80 = (-(2 ^ 79), 2 ^ 79 - 1) := by decide
  simp only [sat80, satTo, hr]
  split_ifs with h1 h2
  · rw [ofNat_wrapTo]
    congr 1
    omega
  · rw [ofNat_wrapTo]
    congr 1
    omega
  · rw [ofNat_wrapTo]
    congr 1
    omega

theorem signedOf_toNat (c : AccCell) : signedOf 80 c.toNat = c.toInt := by
  have hc := c.isLt
  rw [BitVec.toInt_eq_toNat_cond, signedOf, Nat.mod_eq_of_lt hc, if_neg (by decide)]
  split_ifs <;> omega

theorem foldl_add_sum (f : Nat → Int) (l : List Nat) (a : Int) : l.foldl (fun r j => r + f j) a = a + (l.map f).sum := by
  induction l generalizing a with
  | nil => simp
  | cons j t ih => rw [List.foldl_cons, ih, List.map_cons, List.sum_cons]; ring

/-- A cell under code 00: the exact sum of the products joins it, saturated once. -/
theorem cellI_sum (kc n : Nat) (set : Bool) (x y : List Int) (c : AccCell) : (cellI 0 false kc n set x y c).1
    = BitVec.ofInt 80 (max (-(2 ^ 79)) (min (2 ^ 79 - 1) ((if set then 0 else c.toInt) + ((upTo n).map (fun k => x.getD k 0 * y.getD k 0)).sum))) := by
  have hcode : ∀ c, codeOf 0 c = 0 := fun c => by simp [codeOf, bits]
  simp only [cellI, hcode, joinI, prodI, initI]
  rw [sat80_eq, signedOf_toNat]
  simp only [foldl_add_sum, if_true, if_false, Nat.zero_lt_two, Bool.false_eq_true]

/-! ## A pass -/

/-- An element of a row or column of an operand of a pass. -/
def passInt (b : Bank) (ger : Bool) (o : Opnd) (z : Bool) (p i k : Nat) : Int := if ger then b.opInt o z p i 0 else b.opInt o z p k i

/-- The elements that a pass takes of an operand, row by row or column by column. -/
def formedInts (b : Bank) (ger : Bool) (o : Opnd) (z : Bool) (p n rows : Nat) : List (List Int) :=
  (upTo rows).map fun i => (upTo n).map fun k => b.opInt o z p (if ger then (i, 0) else (k, i)).1 (if ger then (i, 0) else (k, i)).2

theorem formedInts_getD (b : Bank) (ger : Bool) (o : Opnd) (z : Bool) (p : Nat) {n rows i k : Nat} (hi : i < rows) (hk : k < n) :
    ((formedInts b ger o z p n rows).getD i []).getD k 0 = passInt b ger o z p i k := by
  rw [formedInts, getD_map_upTo _ _ hi, getD_map_upTo _ _ hk]
  cases ger <;> rfl

/-- The products of a cell. -/
def passProd (b : Bank) (ger : Bool) (oa ob : Opnd) (pa pb i j k : Nat) : Int :=
  if oa.src = .idle ∨ ob.src = .idle then 0 else passInt b ger oa b.mx.za pa i k * passInt b ger ob b.mx.zb pb j k

/-- What a cell becomes. -/
def joined (set : Bool) (n : Nat) (p : Nat → Int) (c : AccCell) : AccCell :=
  BitVec.ofInt 80 (max (-(2 ^ 79)) (min (2 ^ 79 - 1) ((if set then 0 else c.toInt) + ((upTo n).map p).sum)))

/-- Only the products within the pass count. -/
theorem joined_congr (set : Bool) {n : Nat} {p q : Nat → Int} (h : ∀ k, k < n → p k = q k) (c : AccCell) : joined set n p c = joined set n q c := by
  rw [joined, joined, List.map_congr_left fun k hk => h k (by simpa [upTo_eq_range] using hk)]

section
variable {b : Bank} {oa ob : Opnd} (hcseq : b.mx.cseq = 0) (hneg : b.mx.negp = false) (hfa : (tdescOf oa.tdr).fmt = 0) (hfb : (tdescOf ob.tdr).fmt = 0)
  (ger set : Bool) (slot pa pb : Nat)
include hcseq hneg hfa hfb

/-- An INT8 pass changes the cells of the granted shape. -/
theorem pass_int : ∃ f, b.pass ger set slot oa ob pa pb = b.mapCells slot b.mx.rows b.mx.cols f
    ∧ ∀ i j c, i < b.mx.rows → j < b.mx.cols → (f i j c).1 = joined set (passLen ger oa) (passProd b ger oa ob pa pb i j) c := by
  have hpair : pairOf (tdescOf oa.tdr).fmt (tdescOf ob.tdr).fmt = some (16, 384) := by rw [hfa, hfb]; rfl
  by_cases hidle : oa.src = .idle ∨ ob.src = .idle
  · refine ⟨fun _ _ c => ((cellI b.mx.cseq false 384 (passLen ger oa) set [] [] c).1, 0), ?_, fun i j c _ _ => ?_⟩
    · simp only [Bank.pass, hpair, if_pos hidle, if_pos hfa]
      rfl
    · rw [hcseq]
      refine (cellI_sum ..).trans (joined_congr set (fun k _ => ?_) c)
      rw [passProd, if_pos hidle]
      simp
  · refine ⟨fun i j => cellI b.mx.cseq b.mx.negp 384 (passLen ger oa) set ((formedInts b ger oa b.mx.za pa (passLen ger oa) b.mx.rows).getD i [])
      ((formedInts b ger ob b.mx.zb pb (passLen ger oa) b.mx.cols).getD j []), ?_, fun i j c hi hj => ?_⟩
    · simp only [Bank.pass, hpair, if_neg hidle, if_pos hfa]
      rfl
    · rw [hcseq, hneg]
      refine (cellI_sum ..).trans (joined_congr set (fun k hk => ?_) c)
      rw [formedInts_getD _ _ _ _ _ hi hk, formedInts_getD _ _ _ _ _ hj hk, passProd, if_neg hidle]

theorem cellsOnly_pass_int : CellsOnly b (b.pass ger set slot oa ob pa pb) := by
  obtain ⟨f, hf, -⟩ := pass_int hcseq hneg hfa hfb ger set slot pa pb
  rw [hf]
  exact cellsOnly_mapCells ..

/-- The cells after an INT8 pass. -/
theorem cells_pass_int {s t : State} {l : Loc} (hs : s.bank l = b) (ht : ∀ n k, (t.bank l).cell n k = (b.pass ger set slot oa ob pa pb).cell n k) :
    Cells s t l slot (fun i j => if i < b.mx.rows ∧ j < b.mx.cols then joined set (passLen ger oa) (passProd b ger oa ob pa pb i j) (b.cell slot (32 * i + j))
      else b.cell slot (32 * i + j)) := by
  obtain ⟨f, hf, hcell⟩ := pass_int hcseq hneg hfa hfb ger set slot pa pb
  rw [hf] at ht
  refine ⟨fun i j hi hj => ?_, fun n k hn hk => ?_⟩
  · rw [ht, cell_mapCells _ _ _ _ _ hi hj]
    exact if_ctx_congr Iff.rfl (fun h => hcell _ _ _ h.1 h.2) fun _ => rfl
  · rw [ht, cell_mapCells_ne _ _ _ _ _ hn hk, hs]

end

/-! ## The passes of `MX.BATCH` (10 R354) -/

section
variable {s : State} {l : Loc} {w : WinEnt} {m : Dep} {acc : Fin 1024} {ga gb nm1 : Fin 16} {ka kb set : Bool} (hw : w.instr = .mxBatch m acc ga gb nm1 ka kb set)
include hw

theorem startEnt_batch {b : Bank} (ha : b.popsDue w.opA w.walk = false) (hb : b.popsDue w.opB w.walk = false) :
    b.startEnt l w = b.startPass l w false set (acc.val + w.done) := by
  simp only [Bank.startEnt, hw, ha, hb, Bool.or_self, Bool.false_eq_true, if_false]

theorem batch_not_instant : w.instant = false := by
  rw [WinEnt.instant, hw]
  rfl

/-- A batch starts its next pass, the first as it leaves the window. -/
theorem stepM_batch {b c : Bank} (hlive : b.live = true) (hs : b.startEnt l w = .ok c)
    (hrun : b.mx.run = none ∧ b.mx.win.head? = some w ∨ b.mx.run = some w ∧ b.mx.mid = false ∧ b.mx.owed = false) :
    ∃ rest, b.stepM l = started c w rest := by
  rcases hrun with ⟨hrun, hwin⟩ | ⟨hrun, hmid, howed⟩
  · obtain ⟨rest, hrest⟩ := List.head?_eq_some_iff.1 hwin
    exact ⟨rest, stepM_start hlive hrun hrest (batch_not_instant hw) hs⟩
  · refine ⟨b.mx.win, ?_⟩
    simp only [Bank.stepM, hrun, hmid, howed, hlive, Bool.false_eq_true, if_false, if_true, Bank.startWord, hs]
    rfl

end

/-- A move of M after which the bank has taken no fault. -/
theorem exec_matrixPassStart_bank {s : State} {l : Loc} (h : ((s.bank l).stepM l).flt = none) :
    exec (.matrixPassStart l) s = .next (s.setBank l ((s.bank l).stepM l)) := by
  rw [exec_matrixPassStart_ok (onlyCeil_of_none h), State.onBank, noteFault_none]
  rw [bank_setBank_same, h]

/-! ## The pops behind a pass (09 R306) -/

/-- M's marks of a pass under way and of slots still to pop. -/
def marks (m : MatrixSt) : Bool × Bool := (m.mid, m.owed)

theorem marks_regs (w : WinEnt) (m : MatrixSt) : marks (w.regs m) = marks m := by
  unfold WinEnt.regs
  split
  · rfl
  · rfl
  · rfl
  · split <;> rfl
  · split <;> rfl
  · split <;> rfl
  · rfl

theorem marks_settle (b : Bank) : marks b.settle.mx = marks b.mx := by
  obtain ⟨-, -, hmid, howed, -⟩ := (Bank.settle_settles b).part .window rfl
  rw [marks, hmid, howed]
  rfl

theorem marks_workDone (b : Bank) (e : Engine) (walk : Nat) (f : BitVec 6) : marks (b.workDone e walk f).mx = marks b.mx := by
  rw [Bank.workDone, marks_settle]
  rfl

theorem marks_runRegs (n : Nat) (b : Bank) : marks (b.runRegs n).mx = marks b.mx := by
  induction n generalizing b with
  | zero => rfl
  | succ n ih =>
    unfold Bank.runRegs
    split
    · split
      · rw [ih, marks_workDone]
        exact marks_regs _ _
      · rfl
    · rfl

theorem marks_endWord (b : Bank) (w : WinEnt) : marks (b.endWord w).mx = marks b.mx := by
  rw [Bank.endWord, Bank.leadOff, marks_runRegs, marks_workDone]
  rfl

/-- The slots that a pass of a batch consumed, popped. -/
def popped (b : Bank) (ka kb : Bool) (w : WinEnt) : Bank := (b.popNow ka w.opA w.walk).popNow kb w.opB w.walk

/-- A bank with M's registers replaced. -/
def withMx (b : Bank) (x : MatrixSt) : Bank := { b with mx := x }

theorem withMx_engs (b : Bank) (x : MatrixSt) : (withMx b x).engs = b.engs := rfl
theorem withMx_flt (b : Bank) (x : MatrixSt) : (withMx b x).flt = b.flt := rfl
theorem withMx_ring (b : Bank) (x : MatrixSt) (g : Fin 16) : (withMx b x).ring g = b.ring g := rfl

theorem popNow_withMx (b : Bank) (x : MatrixSt) (keep : Bool) (o : Option Opnd) (w : Nat) : (withMx b x).popNow keep o w = withMx (b.popNow keep o w) x := by
  have h : (withMx b x).popsOf keep o w = b.popsOf keep o w := rfl
  unfold Bank.popNow
  rw [h]
  split <;> rfl

theorem popped_withMx (b : Bank) (x : MatrixSt) (ka kb : Bool) (w : WinEnt) : popped (withMx b x) ka kb w = withMx (popped b ka kb w) x := by
  rw [popped, popNow_withMx, popNow_withMx, popped]

theorem popNow_rest (b : Bank) (keep : Bool) (o : Option Opnd) (w : Nat) : (b.popNow keep o w).engs = b.engs ∧ (b.popNow keep o w).flt = b.flt := by
  unfold Bank.popNow
  split <;> exact ⟨rfl, rfl⟩

theorem popped_engs (b : Bank) (ka kb : Bool) (w : WinEnt) : (popped b ka kb w).engs = b.engs := by
  rw [popped, (popNow_rest ..).1, (popNow_rest ..).1]

theorem popped_flt (b : Bank) (ka kb : Bool) (w : WinEnt) : (popped b ka kb w).flt = b.flt := by
  rw [popped, (popNow_rest ..).2, (popNow_rest ..).2]

/-- A bank whose batch has its next pass to start. -/
def nextPass (b : Bank) (w : WinEnt) : Bank := { b with mx := { b.mx with owed := false, run := some { w with done := w.done + 1 } } }

theorem nextPass_marks (b : Bank) (w : WinEnt) : marks (nextPass b w).mx = ((marks b.mx).1, false) := rfl
theorem nextPass_flt (b : Bank) (w : WinEnt) : (nextPass b w).flt = b.flt := rfl
theorem nextPass_ring (b : Bank) (w : WinEnt) (g : Fin 16) : (nextPass b w).ring g = b.ring g := rfl

/-- Once what a batch's pass consumed is FULL it is popped, and the word ends with its last pass. -/
theorem batchPop_full {b : Bank} {w : WinEnt} {m : Dep} {acc : Fin 1024} {ga gb nm1 : Fin 16} {ka kb set : Bool}
    (hw : w.instr = .mxBatch m acc ga gb nm1 ka kb set)
    (hfull : ∀ q, b.popsOf ka w.opA w.walk = some q ∨ b.popsOf kb w.opB w.walk = some q → q.2.slotSt q.2.head = .full) :
    b.batchPop w = if w.done = nm1.val then (nextPass (popped b ka kb w).settle w).endWord w else nextPass (popped b ka kb w).settle w := by
  have hall : ∀ {k : Bool} {o : Option Opnd}, (∀ q, b.popsOf k o w.walk = some q → q.2.slotSt q.2.head = .full) →
      (b.popsOf k o w.walk).all (fun p => p.2.slotSt p.2.head == .full) = true := fun {k o} h => by
    cases hq : b.popsOf k o w.walk with
    | none => rfl
    | some q => simp [h q hq]
  unfold Bank.batchPop
  split
  · next heq =>
    cases hw.symm.trans heq
    have hboth : ((b.popsOf ka w.opA w.walk).all (fun p => p.2.slotSt p.2.head == .full)
        && (b.popsOf kb w.opB w.walk).all (fun p => p.2.slotSt p.2.head == .full)) = true := by
      rw [hall fun q hq => hfull q (.inl hq), hall fun q hq => hfull q (.inr hq), Bool.and_self]
    rw [if_pos hboth]
    unfold popped nextPass
    by_cases hd : w.done = nm1.val
    · rw [if_pos hd, if_pos (beq_iff_eq.2 hd)]
    · rw [if_neg hd, if_neg fun h => hd (beq_iff_eq.1 h)]
  · next h => exact (h _ _ _ _ _ _ _ _ hw).elim

/-- M's registers behind a pass whose slots are still to pop. -/
def owing (x : MatrixSt) : MatrixSt := { x with mid := false, owed := true }

theorem endPass_batch (b : Bank) {w : WinEnt} {m : Dep} {acc : Fin 1024} {ga gb nm1 : Fin 16} {ka kb set : Bool}
    (hw : w.instr = .mxBatch m acc ga gb nm1 ka kb set) : b.endPass w = (withMx b (owing b.mx)).batchPop w := by
  unfold Bank.endPass
  split
  · rfl
  · next h => exact (h _ _ _ _ _ _ _ _ hw).elim

/-- The bank behind the pops of a batch's pass. -/
def behindPass (b : Bank) (ka kb : Bool) (w : WinEnt) : Bank := nextPass (withMx (popped b ka kb w) (owing b.mx)).settle w

theorem settle_calm {b : Bank} (h : b.calm) : b.settle = b := Bank.settle_foldl_nil _ _ fun e _ => h e

section
variable {b : Bank} {ka kb : Bool} {w : WinEnt}

theorem behindPass_marks : marks (behindPass b ka kb w).mx = (false, false) := by
  rw [behindPass, nextPass_marks, marks_settle]
  rfl

theorem behindPass_onlyCeil (h : b.flt = none) : (behindPass b ka kb w).onlyCeil :=
  Bank.onlyCeil_of_flt (Bank.settle_onlyCeil _ (onlyCeil_of_none (by rw [withMx_flt, popped_flt, h]))) (nextPass_flt ..)

theorem behindPass_ring (h : b.calm) (g : Fin 16) : (behindPass b ka kb w).ring g = (popped b ka kb w).ring g := by
  have hc : (withMx (popped b ka kb w) (owing b.mx)).calm := fun e => by
    rw [Bank.eng, withMx_engs, popped_engs]
    exact h e
  rw [behindPass, nextPass_ring, settle_calm hc, withMx_ring]

theorem behindPass_run : (behindPass b ka kb w).mx.run = some { w with done := w.done + 1 } := rfl

variable {l : Loc} {m : Dep} {acc : Fin 1024} {ga gb nm1 : Fin 16} {set : Bool} (hw : w.instr = .mxBatch m acc ga gb nm1 ka kb set)
  (hrun : b.mx.run = some w) (hmid : b.mx.mid = true)
  (hfull : ∀ q, b.popsOf ka w.opA w.walk = some q ∨ b.popsOf kb w.opB w.walk = some q → q.2.slotSt q.2.head = .full)
include hw hrun hmid hfull

/-- A finished pass of a batch pops its slots, and the word ends with its last pass. -/
theorem stepM_batch_end : b.stepM l = if w.done = nm1.val then (behindPass b ka kb w).endWord w else behindPass b ka kb w := by
  have hstep : b.stepM l = b.endPass w := by
    simp only [Bank.stepM, hrun, hmid, if_true]
  rw [hstep, endPass_batch b hw, batchPop_full (b := withMx b (owing b.mx)) hw hfull, popped_withMx]
  rfl

end

/-- A finished pass of a batch, over the package. -/
theorem batch_end {s : State} {l : Loc} {w : WinEnt} {m : Dep} {acc : Fin 1024} {ga gb nm1 : Fin 16} {ka kb set : Bool}
    (hw : w.instr = .mxBatch m acc ga gb nm1 ka kb set) (hrun : (s.bank l).mx.run = some w) (hmid : (s.bank l).mx.mid = true) (hflt : (s.bank l).flt = none)
    (hfull : ∀ q, (s.bank l).popsOf ka w.opA w.walk = some q ∨ (s.bank l).popsOf kb w.opB w.walk = some q → q.2.slotSt q.2.head = .full) :
    ∃ t, exec (.matrixPassStart l) s = .next t ∧ (t.bank l).mx.mid = false ∧ (t.bank l).mx.owed = false
      ∧ (t.bank l).mx.run = (if w.done = nm1.val then none else some { w with done := w.done + 1 })
      ∧ ((s.bank l).calm → w.done ≠ nm1.val → ∀ g, (t.bank l).ring g = (popped (s.bank l) ka kb w).ring g) := by
  have hstep := stepM_batch_end (l := l) hw hrun hmid hfull
  have hceil : ((s.bank l).stepM l).onlyCeil := by
    rw [hstep]
    split_ifs
    · exact endWord_onlyCeil (behindPass_onlyCeil hflt) w
    · exact behindPass_onlyCeil hflt
  have hbank : ∀ {α : Type} (f : Bank → α), (∀ b x, f { b with st := x } = f b) → f ((s.onBank l (fun b => b.stepM l)).bank l) = f ((s.bank l).stepM l) :=
    fun f hf => by rw [State.onBank, bank_noteFault_of f hf, bank_setBank_same]
  have hmarks : marks ((s.onBank l (fun b => b.stepM l)).bank l).mx = (false, false) := by
    rw [hbank (fun b => marks b.mx) fun _ _ => rfl, hstep]
    split_ifs
    · rw [marks_endWord, behindPass_marks]
    · exact behindPass_marks
  refine ⟨_, exec_matrixPassStart_ok hceil, congrArg Prod.fst hmarks, congrArg Prod.snd hmarks, ?_, fun hc hd g => ?_⟩
  · rw [hbank (fun b => b.mx.run) fun _ _ => rfl, hstep]
    split_ifs
    · exact endWord_run ..
    · exact behindPass_run
  · rw [hbank (fun b => b.ring g) fun _ _ => rfl, hstep, if_neg hd, behindPass_ring hc]

/-- Settles O25. -/
theorem integerPass : Obligations.IntegerPass := by
  unfold Obligations.IntegerPass
  intro s l w m acc ga gb nm1 ka kb set ger wt sg oa ob pa pb slot b n x y p new ha hb
  refine ⟨fun hcseq hneg hfa hfb hheld hpa hpb => ⟨fun hw hslot => ?_, fun hw hger hslot hda hdb hlive hrun => ?_⟩, batch_end⟩
  · subst hslot
    have hword : w.instr = passWord ger m acc ga gb ka kb wt sg set := hw
    have hc := cellsOnly_pass_int hcseq hneg hfa hfb ger set acc.val pa pb
    refine runs_of_start (hword ▸ onePass_passWord) ((startEnt_passWord b l hword).trans (startPass_ok ha hb hheld hpa hpb)) hc.flt
      (fun q hq => hc.part (fun h => by simp [h] at hq) (fun h => by simp [h] at hq)) fun t rest ht => ?_
    exact cells_pass_int hcseq hneg hfa hfb ger set acc.val pa pb rfl fun n k => by rw [ht]; rfl
  · subst hger
    obtain ⟨rest, hstep⟩ := stepM_batch hw hlive ((startEnt_batch hw hda hdb).trans (startPass_ok ha hb (hslot ▸ hheld) hpa hpb)) hrun
    have hnone : ((s.bank l).stepM l).flt = none := by
      rw [hstep]
      exact (cellsOnly_pass_int hcseq hneg hfa hfb false set _ pa pb).flt.trans (Encoding.flt_of_live hlive)
    have ht : (s.setBank l ((s.bank l).stepM l)).bank l = started _ w rest := (bank_setBank_same ..).trans hstep
    refine ⟨_, exec_matrixPassStart_bank hnone, ?_, by rw [ht]; rfl, by rw [ht]; rfl⟩
    subst hslot
    exact cells_pass_int hcseq hneg hfa hfb false set _ pa pb rfl fun n k => by rw [ht]; rfl

end Sys2Proof.Sequencer

/-!
SUPPORT. `MX.STACC` beside a watch of its own core (10 R359; 07 R242, R243): what the model evaluates to where A is parked on a `WAITA` of the slot's granule.
-/

namespace Sys2Proof.Sequencer
open Sys2Proof.Machine

/-- The word: one cell to the slot at the start of the share, as one byte. -/
def watchedStore : WinEnt :=
  { instr := .mxStacc {} 0 0 .rne .wrap false, walk := 0, pc := 0, done := 0, opA := some ⟨0, [0, 0, 0x100000000], none, .buf 0⟩, opB := none }

/-- The word is at the head of the window, and A is parked on the granule that it stores to; `a5` is to take the code. -/
def watched : State := running {
  mx := { win := [watchedStore] }
  acc := { park := some (.waita 0 5 (.sp0 ⟨0, 0⟩ 0) none) } }

/-- The store ends the watch: `a5` takes code 1. -/
theorem watched_stores : answers (exec (.matrixPassStart ⟨0, 0⟩) watched) (fun t => (t.bank ⟨0, 0⟩).areg (.a 5) == 1) = true := by decide +kernel

/-- Refutes O27: `MX.STACC` is said to leave A's registers as they were; but where A is parked on a `WAITA` of a granule that the word stores to, the store ends
the wait and its code goes to a register of A. -/
theorem not_tileWords : ¬ Obligations.TileWords := by
  unfold Obligations.TileWords
  intro h
  obtain ⟨-, hstore, -⟩ := h watched ⟨0, 0⟩ watchedStore {} 0 0 ⟨0, [0, 0, 0x100000000], none, .buf 0⟩ 0 rfl (by decide) (by decide) (by decide)
  obtain ⟨t, -, hx, -, -, -, -, -, -, haregs, -⟩ := hstore .rne .wrap false rfl rfl (by decide) [] (by decide) rfl rfl
  have hcode : (t.bank ⟨0, 0⟩).areg (.a 5) = 1 := by simpa using of_answers watched_stores hx
  have hkept : (t.bank ⟨0, 0⟩).areg (.a 5) = 0 := by
    rw [Bank.areg, show (t.bank ⟨0, 0⟩).acc.a = _ from haregs]
    rfl
  rw [hcode] at hkept
  exact absurd hkept (by decide)

end Sys2Proof.Sequencer

/-!
SUPPORT. Copies (09 R301, R308, R311 to R314): a copy word issues over a bank whose channel has one command more, or over its own bank where its ring is
idle (04 R116). Issue of the two words, use of a ring, and the command queued are lemmas of their own.
-/

namespace Sys2Proof.Sequencer
open Sys2Proof.Machine

/-! ## Issue of a copy word -/

theorem exec_cp (m : Dep) (td : Fin 64) (ch : Fin 8) (kind : CpKind) (oa ob : Fin 32) (s : State) :
    exec (.cp m td ch kind oa ob) s = execCp m td ch kind oa ob s := by rfl

theorem exec_cpl (m : Dep) (td : Fin 64) (ch : Fin 8) (kind : CpKind) (oa ob rc rs : Fin 32) (s : State) :
    exec (.cpl m td ch kind oa ob rc rs) s = execCpl m td ch kind oa ob rc rs s := by rfl

/-- A copy word of a turn that only issues, whose meaning answers a package of the same turn. -/
theorem copyWord_ok {i : Instr} {ch : Fin 8} {s u : State} {f : State → Res State} {p : Plain} (hr : AReady i s) (hf : f s = .ok u p) (hu : u.cur = s.cur) :
    copyWord i ch s f = .next (u.issue i p) := by
  obtain ⟨hready, hpark, heager⟩ := hr
  have hcur : (u.issue i p).cur.eager = false := by rw [State.issue, noteFault_cur, setBank_cur, hu]; exact heager
  unfold copyWord
  rw [hpark, packageWord_ok hready hf hu]
  simp only [Option.isSome_none, Bool.false_eq_true, if_false, eagerly, hcur]

/-- The word, its offsets' registers, its step and its count: what `CP` and `CPL` differ in. -/
def IsCopy (i : Instr) (k : Bank) (m : Dep) (td : Fin 64) (ch : Fin 8) (kind : CpKind) (oa ob rc rs : Fin 32) (regs : List (Fin 32)) (step : List Int)
    (long : Bool) (count : Nat) : Prop :=
  (i = .cp m td ch kind oa ob ∧ regs = [oa, ob] ∧ step = [0, 0, 0, 0] ∧ long = false ∧ count = 1)
    ∨ (i = .cpl m td ch kind oa ob rc rs ∧ regs = [oa, ob, rc, rs] ∧ step = halves (k.ax rs).toNat ∧ long = true ∧ count = (k.ax rc).toNat)

section
variable {s : State} {m : Dep} {td : Fin 64} {ch : Fin 8} {kind : CpKind} {oa ob rc rs : Fin 32} {i : Instr} {regs : List (Fin 32)} {step : List Int}
  {long : Bool} {count : Nat} {u : State} {p : Plain}

theorem IsCopy.hd (hi : IsCopy i s.here m td ch kind oa ob rc rs regs step long count) : (Instr.hd i).eng = .A := by
  rcases hi with ⟨rfl, _⟩ | ⟨rfl, _⟩ <;> rfl

/-- Both copy words issue as `cpIssue` answers. -/
theorem IsCopy.exec (hi : IsCopy i s.here m td ch kind oa ob rc rs regs step long count) (hr : AReady i s)
    (hc : s.here.copyReady (regs ++ (CpKind.far kind).1) (td :: (CpKind.far kind).2) ch = true)
    (hf : cpIssue m td ch kind (originOf (s.here.ax oa) (s.here.ax ob)) step long count s = .ok u p) (hu : u.cur = s.cur) :
    Machine.exec i s = .next (u.issue i p) := by
  rcases hi with ⟨rfl, rfl, rfl, rfl, rfl⟩ | ⟨rfl, rfl, rfl, rfl, rfl⟩
  · rw [exec_cp]
    exact copyWord_ok hr (by simp only [hc, Bool.not_true, Bool.false_eq_true, if_false, hf]) hu
  · rw [exec_cpl]
    exact copyWord_ok hr (by simp only [hc, Bool.not_true, Bool.false_eq_true, if_false, hf]) hu

end

/-! ## The command queued -/

/-- A command queued over a bank put is one put of the bank with its channel one command longer. -/
theorem queueCmd_setBank (s : State) (c : Bank) (m : Dep) (ch : Fin 8) (kind : CmdKind) (long : Bool) (count : Nat) (buf : Option Nat) :
    queueCmd (s.setBank s.cur.loc c) m ch kind long count buf
      = .ok (s.newId.2.setBank s.newId.2.cur.loc (c.enqueue ch.val (c.newCmd (2 * s.nextId) m kind long count buf))) { async := true } := by
  have hn : (s.setBank s.cur.loc c).newId = (2 * s.nextId, s.newId.2.setBank s.newId.2.cur.loc c) := rfl
  unfold queueCmd
  rw [hn]
  dsimp only
  rw [State.onHere, setBank_cur, here_setBank, setBank_setBank]

/-- A command queued is one put of the bank with its channel one command longer. -/
theorem queueCmd_eq (s : State) (m : Dep) (ch : Fin 8) (kind : CmdKind) (long : Bool) (count : Nat) (buf : Option Nat) :
    queueCmd s m ch kind long count buf
      = .ok (s.newId.2.setBank s.newId.2.cur.loc (s.here.enqueue ch.val (s.here.newCmd (2 * s.nextId) m kind long count buf))) { async := true } := rfl

/-- A word that issues over a channel with one command more queues that command. -/
theorem queues_of_exec {i : Instr} {s : State} {m : Dep} {ch : Fin 8} {kind : CmdKind} {long : Bool} {count : Nat} {buf : Option Nat} {c : Bank}
    (hst : c.st = s.here.st) (heng : c.engs = s.here.engs) (hcmd : ∀ n, c.newCmd n m kind long count buf = s.here.newCmd n m kind long count buf)
    (hx : Machine.exec i s = .next ((s.newId.2.setBank s.newId.2.cur.loc (c.enqueue ch.val (c.newCmd (2 * s.nextId) m kind long count buf))).issue i { async := true })) :
    Queues' i s m ch kind long count buf s.here c := by
  rw [hcmd] at hx
  exact gives_vis i s s.newId.2 _ _ hx rfl hst (fun e => by cases e <;> simp only [Bank.eng, Bank.enqueue, Bank.putChan, heng]) (fun x hx => absurd hx List.not_mem_nil)

/-! ## Rings -/

/-- A ring whose slots and image may hold a window passes the checks of 09 R312. -/
theorem fits_of_ringFits {r : Ring} {t : List Reg64} {org : List Int} (h : RingFits r t org) : r.fits t org = none := by
  obtain ⟨hsize, hbase⟩ := h
  have hany : r.bases.any (fun x => x % 64 != 0 || ((tdescOf t).ilv != 0 && x % 2048 != 0)) = false := by
    rw [List.any_eq_false]
    intro x hx
    obtain ⟨h64, h2048⟩ := hbase x hx
    simpa [h64] using h2048
  simp only [Ring.fits, Nat.not_lt.2 hsize, if_false, hany, Bool.false_eq_true]

/-- The bank that a copy into a ring leaves. -/
def filled (k : Bank) (core : Nat) (ch : Fin 8) (g : Fin 16) (r : Ring) : Bank :=
  if r.modeR then k.noteSent g r (k.bufBase .A r) else k.setRing g { r with chan := some (core, ch.val) }

section
variable {b : Bank} {core : Nat} {ch : Fin 8} {g : Fin 16} {fill long : Bool} {t : List Reg64} {org : List Int} {r : Ring}

/-- A channel that a mode C ring does not know yet, or knows as its own, may fill it. -/
theorem ownChan (h : r.modeR = false → r.chan = none ∨ r.chan = some (core, ch.val)) :
    (!r.modeR && r.chan.any (fun c => c != (core, ch.val))) = false := by
  cases hm : r.modeR with
  | true => rfl
  | false => rcases h hm with h | h <;> simp [h]

theorem useRing_idle (hg : b.ring g = some r) (hend : (if fill then r.prod else r.cons) = .copy)
    (hown : (fill && (!r.modeR && r.chan.any (fun c => c != (core, ch.val)))) = false) (hl : long = false) (hi : b.idle .A r = true) :
    b.useRing core ch g fill long t org = .idle := by
  rw [← Bool.and_assoc] at hown
  simp only [Bank.useRing, hg, hend, ne_eq, not_true_eq_false, if_false, hown, hl, hi, Bool.not_false, Bool.and_self, if_true, Bool.false_eq_true]

theorem useRing_ok (hg : b.ring g = some r) (hend : (if fill then r.prod else r.cons) = .copy)
    (hown : (fill && (!r.modeR && r.chan.any (fun c => c != (core, ch.val)))) = false) (hl : long = true → r.modeR = false) (hi : b.idle .A r = false)
    (hfit : RingFits r t org) :
    b.useRing core ch g fill long t org = .ok (if r.modeR then some (b.bufBase .A r) else none) (if fill then filled b core ch g r else b) := by
  rw [← Bool.and_assoc] at hown
  simp only [Bank.useRing, hg, hend, ne_eq, not_true_eq_false, if_false, hown, hi, Bool.and_false, Bool.false_eq_true, fits_of_ringFits hfit]
  cases hm : r.modeR with
  | false => simp [filled, hm]
  | true =>
    have : long = false := by
      cases long with
      | false => rfl
      | true => rw [hl rfl] at hm; exact hm.symm
    simp [filled, hm, this]

end

/-- A ring that copies do not fill is never idle for a core's own copy, and answers no buffer. -/
theorem notCopied {k : Bank} {g : Fin 16} (h : ∀ r, k.ring g = some r → r.prod ≠ .copy) : k.idleOwn g = false ∧ k.ownBuf g = (none, k) := by
  unfold Bank.idleOwn Bank.ownBuf
  cases hr : k.ring g with
  | none => exact ⟨rfl, rfl⟩
  | some r => simp [beq_eq_false_iff_ne.2 (h r hr)]

/-- A core's own copy into a ring that copies fill. -/
theorem idleOwn_of_copy {k : Bank} {g : Fin 16} {r : Ring} (hg : k.ring g = some r) (hp : r.prod = .copy) : k.idleOwn g = k.idle .A r := by
  simp [Bank.idleOwn, hg, hp]

theorem ownBuf_of_copy {k : Bank} {g : Fin 16} {r : Ring} (hg : k.ring g = some r) (hp : r.prod = .copy) :
    k.ownBuf g = (if r.modeR then some (k.bufBase .A r) else none, if r.modeR then k.noteSent g r (k.bufBase .A r) else k) := by
  cases hm : r.modeR <;> simp [Bank.ownBuf, hg, hp, hm]

theorem filled_st (k : Bank) (core : Nat) (ch : Fin 8) (g : Fin 16) (r : Ring) : (filled k core ch g r).st = k.st := by
  unfold filled; split <;> rfl

theorem filled_engs (k : Bank) (core : Nat) (ch : Fin 8) (g : Fin 16) (r : Ring) : (filled k core ch g r).engs = k.engs := by
  unfold filled; split <;> rfl

theorem filled_newCmd (k : Bank) (core : Nat) (ch : Fin 8) (g : Fin 16) (r : Ring) (m : Dep) (kind : CmdKind) (long : Bool) (count : Nat)
    (buf : Option Nat) (n : Nat) : (filled k core ch g r).newCmd n m kind long count buf = k.newCmd n m kind long count buf := by
  unfold filled; split <;> rfl

/-! ## How the copy words complete -/

theorem applyAll_singleton (pc : Nat) (x : Eff) (b : Bank) : b.applyAll pc [x] = b.apply pc x := by
  simp only [Bank.applyAll]
  split <;> rfl

section
variable {s : State} {m : Dep} {td : Fin 64} {ch : Fin 8} {kind : CpKind} {oa ob rc rs : Fin 32} {i : Instr} {regs : List (Fin 32)} {step : List Int}
  {long : Bool} {count : Nat}

/-- A copy word whose answer is an idle copy changes nothing but the count it signals. -/
theorem gives_idle (hi : IsCopy i s.here m td ch kind oa ob rc rs regs step long count) (hr : AReady i s)
    (hc : s.here.copyReady (regs ++ (CpKind.far kind).1) (td :: (CpKind.far kind).2) ch = true) (se : Bool) (sem : Fin 32)
    (hf : cpIssue m td ch kind (originOf (s.here.ax oa) (s.here.ax ob)) step long count s = idleCopy s (if se then some sem else none)) :
    Gives i s s (if se then s.here.semSignal sem 1 s.here.engs.A.pc else s.here) := by
  have hpc : (s.here.eng (Instr.hd i).eng).pc = s.here.engs.A.pc := by rw [hi.hd]; rfl
  cases se with
  | false =>
    have hx : Machine.exec i s = .next ((s.setBank s.cur.loc s.here).issue i { effs := [] }) := by
      rw [issue_setBank]; exact hi.exec hr hc hf rfl
    exact gives_effs i s s s.here { effs := [] } hx rfl rfl (fun _ => rfl) rfl rfl rfl
  | true =>
    have hx : Machine.exec i s = .next ((s.setBank s.cur.loc s.here).issue i { effs := [.sem sem 1] }) := by
      rw [issue_setBank]; exact hi.exec hr hc hf rfl
    have hg := gives_effs i s s s.here { effs := [.sem sem 1] } hx rfl rfl (fun _ => rfl) rfl rfl rfl
    rw [hpc] at hg
    rwa [applyAll_singleton] at hg

/-- A copy word whose answer is a command queued over a bank put. -/
theorem queues_setBank (hi : IsCopy i s.here m td ch kind oa ob rc rs regs step long count) (hr : AReady i s)
    (hc : s.here.copyReady (regs ++ (CpKind.far kind).1) (td :: (CpKind.far kind).2) ch = true) {cmd : CmdKind} {buf : Option Nat} {c : Bank}
    (hst : c.st = s.here.st) (heng : c.engs = s.here.engs) (hcmd : ∀ n, c.newCmd n m cmd long count buf = s.here.newCmd n m cmd long count buf)
    (hf : cpIssue m td ch kind (originOf (s.here.ax oa) (s.here.ax ob)) step long count s = queueCmd (s.setBank s.cur.loc c) m ch cmd long count buf) :
    Queues' i s m ch cmd long count buf s.here c := by
  rw [queueCmd_setBank] at hf
  exact queues_of_exec hst heng hcmd (hi.exec hr hc hf rfl)

/-- A copy word whose answer is a command queued. -/
theorem queues_here (hi : IsCopy i s.here m td ch kind oa ob rc rs regs step long count) (hr : AReady i s)
    (hc : s.here.copyReady (regs ++ (CpKind.far kind).1) (td :: (CpKind.far kind).2) ch = true) {cmd : CmdKind} {buf : Option Nat}
    (hf : cpIssue m td ch kind (originOf (s.here.ax oa) (s.here.ax ob)) step long count s = queueCmd s m ch cmd long count buf) :
    Queues' i s m ch cmd long count buf s.here s.here := by
  rw [queueCmd_eq] at hf
  exact queues_of_exec rfl rfl (fun _ => rfl) (hi.exec hr hc hf rfl)

end

/-! ## What `cpIssue` answers -/

section
variable {s : State} {m : Dep} {td : Fin 64} {ch : Fin 8} {org step : List Int} {long : Bool} {count : Nat}
  (hrec : recFault (s.here.td td) (some org) = none) (htrap : trapReach (s.here.td td) org = false)
include hrec htrap

theorem cpIssue_toRec {tdd : Fin 64} {rx : Fin 32} (hrecd : recFault (s.here.td tdd) (some (halves (s.here.ax rx).toNat)) = none)
    (htrapd : trapReach (s.here.td tdd) (halves (s.here.ax rx).toNat) = false) (hfmt : (tdescOf (s.here.td td)).fmt = (tdescOf (s.here.td tdd)).fmt)
    (hcount : (tdescOf (s.here.td td)).count = (tdescOf (s.here.td tdd)).count)
    (hvx : (tdescOf (s.here.td td)).vx4 = true → (tdescOf (s.here.td td)).w 0 = (tdescOf (s.here.td tdd)).w 0) :
    cpIssue m td ch (.toRec tdd rx) org step long count s
      = queueCmd s m ch (.toRec (s.here.td td) (s.here.td tdd) org (halves (s.here.ax rx).toNat)) long count none := by
  have hw : ¬ ((tdescOf (s.here.td td)).vx4 = true ∧ (tdescOf (s.here.td td)).w 0 ≠ (tdescOf (s.here.td tdd)).w 0) := fun h => h.2 (hvx h.1)
  simp only [cpIssue, hrec, hrecd, hfmt, hcount, ne_eq, not_true_eq_false, or_self, if_false, trapOr, htrap, htrapd, Bool.false_eq_true]
  rw [if_neg hw]

omit htrap in
theorem cpIssue_toRing_idle {g : Fin 16} {se : Bool} {sem : Fin 32} (hu : s.here.useRing s.cur.loc.core ch g true long (s.here.td td) org = .idle) :
    cpIssue m td ch (.toRing g se sem) org step long count s = idleCopy s (if se then some sem else none) := by
  simp only [cpIssue, hrec, hu]

theorem cpIssue_toRing_ok {g : Fin 16} {se : Bool} {sem : Fin 32} {buf : Option Nat} {c : Bank}
    (hu : s.here.useRing s.cur.loc.core ch g true long (s.here.td td) org = .ok buf c) :
    cpIssue m td ch (.toRing g se sem) org step long count s
      = queueCmd (s.setBank s.cur.loc c) m ch (.toRing (s.here.td td) org step g none (if se then some sem else none)) long count buf := by
  simp only [cpIssue, hrec, hu, trapOr, htrap, Bool.false_eq_true, if_false]

omit htrap in
theorem cpIssue_drain_idle {g : Fin 16} {x : Fin 32} (hu : s.here.useRing s.cur.loc.core ch g false long (s.here.td td) org = .idle) :
    cpIssue m td ch (.drain g x) org step long count s = idleCopy s none := by
  simp only [cpIssue, hrec, hu]

theorem cpIssue_drain_ok {g : Fin 16} {x : Fin 32} {buf : Option Nat} {c : Bank}
    (hu : s.here.useRing s.cur.loc.core ch g false long (s.here.td td) org = .ok buf c) :
    cpIssue m td ch (.drain g x) org step long count s = queueCmd (s.setBank s.cur.loc c) m ch (.drain (s.here.td td) org step g) long count buf := by
  simp only [cpIssue, hrec, hu, trapOr, htrap, Bool.false_eq_true, if_false]

/-- A `.peer` copy to another core, or of several moves, or into a ring that copies do not fill. -/
theorem cpIssue_toPeer_far {g : Fin 16} {se : Bool} {sem rx : Fin 32} {q : Loc} (hq : s.placed s.here.launch ((s.here.ax rx).toNat % 2 ^ 10) = some q)
    (h : q ≠ s.cur.loc ∨ long = true ∨ ∀ r, s.here.ring g = some r → r.prod ≠ .copy) :
    cpIssue m td ch (.toPeer g se sem rx) org step long count s
      = queueCmd (s.setBank s.cur.loc s.here) m ch (.toRing (s.here.td td) org step g (some q) (if se then some sem else none)) long count none := by
  have hown : ¬ (q = s.cur.loc ∧ (!long) = true) ∨ ∀ r, s.here.ring g = some r → r.prod ≠ .copy := by
    rcases h with h | h | h
    · exact .inl fun hq => h hq.1
    · exact .inl fun hq => by simp [h] at hq
    · exact .inr h
  rcases hown with hfar | hprod
  · have hidle : ¬ (q = s.cur.loc ∧ (!long) = true ∧ s.here.idleOwn g = true) := fun h => hfar ⟨h.1, h.2.1⟩
    simp only [cpIssue, hrec, hq, if_neg hidle, if_neg hfar, trapOr, htrap, Bool.false_eq_true, if_false]
  · obtain ⟨hio, hob⟩ := notCopied hprod
    simp only [cpIssue, hrec, hq, hio, hob, Bool.false_eq_true, and_false, if_false, ite_self, trapOr, htrap]

omit htrap in
theorem cpIssue_toPeer_idle {g : Fin 16} {se : Bool} {sem rx : Fin 32} (hq : s.placed s.here.launch ((s.here.ax rx).toNat % 2 ^ 10) = some s.cur.loc)
    (hl : long = false) (hi : s.here.idleOwn g = true) :
    cpIssue m td ch (.toPeer g se sem rx) org step long count s = idleCopy s (if se then some sem else none) := by
  simp only [cpIssue, hrec, hq, hl, hi, Bool.not_false, and_self, if_true]

/-- A `.peer` copy of one move of a core into its own ring, whose stage is on. -/
theorem cpIssue_toPeer_own {g : Fin 16} {se : Bool} {sem rx : Fin 32} (hq : s.placed s.here.launch ((s.here.ax rx).toNat % 2 ^ 10) = some s.cur.loc)
    (hl : long = false) (hi : s.here.idleOwn g = false) :
    cpIssue m td ch (.toPeer g se sem rx) org step long count s
      = queueCmd (s.setBank s.cur.loc (s.here.ownBuf g).2) m ch (.toRing (s.here.td td) org step g (some s.cur.loc) (if se then some sem else none)) long
          count (s.here.ownBuf g).1 := by
  simp only [cpIssue, hrec, hq, hl, hi, Bool.not_false, Bool.false_eq_true, and_false, and_self, if_true, if_false, trapOr, htrap]

end

/-! ## The obligation -/

/-- Settles O19: `CP` and `CPL` queue their moves, and where the ring's stage is off only signal. -/
theorem copies : Obligations.Copies := by
  unfold Obligations.Copies
  intro s m td ch kind oa ob rc rs i regs step long count k t org core hi hr hc hrec htrap
  have hi : IsCopy i s.here m td ch kind oa ob rc rs regs step long count := hi
  cases kind with
  | toRec tdd rx => exact fun hrecd htrapd hfmt hcount hvx => queues_here hi hr hc (cpIssue_toRec hrec htrap hrecd htrapd hfmt hcount hvx)
  | toRing g se sem =>
    intro r hg hprod hchan hlong
    exact ⟨fun hl hidle => gives_idle hi hr hc se sem (cpIssue_toRing_idle hrec (useRing_idle hg hprod (ownChan hchan) hl hidle)),
      fun hidle hfit => queues_setBank hi hr hc (filled_st ..) (filled_engs ..) (fun n => filled_newCmd k core ch g r m _ long count _ n)
        (cpIssue_toRing_ok hrec htrap (useRing_ok hg hprod (ownChan hchan) hlong hidle hfit))⟩
  | toPeer g se sem rx =>
    intro p hp
    refine ⟨fun hfar => queues_setBank hi hr hc rfl rfl (fun _ => rfl) (cpIssue_toPeer_far hrec htrap hp hfar), fun r hpe hl hg hprod => ?_⟩
    subst hpe
    have hio := idleOwn_of_copy hg hprod
    refine ⟨fun hidle => gives_idle hi hr hc se sem (cpIssue_toPeer_idle hrec hp hl (hio.trans hidle)), fun hidle => ?_⟩
    have hf := cpIssue_toPeer_own (m := m) (ch := ch) (step := step) (count := count) (se := se) (sem := sem) hrec htrap hp hl (hio.trans hidle)
    rw [ownBuf_of_copy hg hprod] at hf
    cases hm : r.modeR <;> rw [hm] at hf
    · exact queues_setBank hi hr hc rfl rfl (fun _ => rfl) hf
    · exact queues_setBank hi hr hc rfl rfl (fun _ => rfl) hf
  | drain g sem =>
    intro r hg hcons hlong
    exact ⟨fun hl hidle => gives_idle hi hr hc false 0 (cpIssue_drain_idle hrec (useRing_idle hg hcons rfl hl hidle)),
      fun hidle hfit => queues_setBank hi hr hc rfl rfl (fun _ => rfl) (cpIssue_drain_ok hrec htrap (useRing_ok hg hcons rfl hlong hidle hfit))⟩

end Sys2Proof.Sequencer

/-!
SUPPORT. No launch goes while what was issued goes on: accesses perform (06 R182), vectors drain (06 R215), requests leave (12 R400), page faults are
reported (05 R169), collectives stop (14 R472) and cores halt (05 R166). Each of these leaves the launches as they are, or changes a launch under its
identifier.
-/

namespace Sys2Proof.Sequencer
open Sys2Proof.Machine

/-! ## Launches that stay -/

/-- Every launch that is there is there still. -/
structure Stay (s t : State) : Prop where
  launch : ∀ {id x}, s.launch id = some x → ∃ y, t.launch id = some y

theorem Resaved.stay {s t : State} (h : Resaved s t) : Stay s t where
  launch hx := by
    obtain ⟨sv, ht⟩ := h _ _ hx
    exact ⟨_, ht⟩

theorem Stay.of_launches {s t : State} (h : t.launches = s.launches) : Stay s t := (Resaved.of_launches h).stay

theorem Stay.refl (s : State) : Stay s s := .of_launches rfl

theorem Stay.trans {s t u : State} (h : Stay s t) (k : Stay t u) : Stay s u where
  launch hx := by
    obtain ⟨y, hy⟩ := h.launch hx
    exact k.launch hy

/-- A fold of changes after each of which the launches stay. -/
theorem Stay.foldl {α : Type} (f : State → α → State) (h : ∀ s a, Stay s (f s a)) (l : List α) : ∀ s, Stay s (l.foldl f s) := by
  induction l with
  | nil => exact Stay.refl
  | cons a t ih => exact fun s => (h s a).trans (ih _)

theorem stay_modLaunch (s : State) (id : Nat) {f : Launch → Launch} (hf : ∀ x, (f x).id = x.id) : Stay s (s.modLaunch id f) where
  launch {k x} hx := by
    by_cases hk : k = id
    · subst hk
      exact ⟨_, launch_modLaunch_same hx ((hf x).trans (launch_id hx))⟩
    · exact ⟨x, (launch_modLaunch_ne hk fun y hy => (hf y).trans hy).trans hx⟩

theorem hold_id (x : Launch) (core now : Nat) : (x.hold core now).id = x.id := by
  unfold Launch.hold
  split_ifs <;> rfl

theorem stay_setBank (s : State) (l : Loc) (b : Bank) : Stay s (s.setBank l b) := .of_launches rfl

theorem stay_noteFault (s : State) (l : Loc) : Stay s (s.noteFault l) := by
  unfold State.noteFault
  split
  · split_ifs
    · exact stay_modLaunch s _ fun x => hold_id ..
    · refine (stay_modLaunch s _ fun x => ?_).trans (.of_launches (stopLaunch_launches ..))
      dsimp only
      split_ifs <;> simp [record_id]
  · exact .of_launches rfl

theorem stay_faultAt (s : State) (l : Loc) (c : FCode) (pc d : Nat) : Stay s (s.faultAt l c pc d) :=
  (stay_setBank s l _).trans (stay_noteFault _ l)

theorem stay_onBank (s : State) (l : Loc) (f : Bank → Bank) : Stay s (s.onBank l f) := (stay_setBank s l _).trans (stay_noteFault _ l)

theorem stay_notePart (s : State) (id : Nat) (l : Loc) : Stay s (s.notePart id l) := by
  unfold State.notePart
  split_ifs
  · exact stay_noteFault s l
  · exact stay_modLaunch s _ fun _ => hold_id ..
  · exact .of_launches rfl

theorem stay_partFault (s : State) (id core : Nat) (c : FCode) (pc d : Nat) : Stay s (s.partFault id core c pc d) := by
  unfold State.partFault
  split
  · exact .of_launches rfl
  · exact (Resaved.stay (resaved_modPart _ _ _ _)).trans (stay_notePart ..)

/-! ## Translation and the Plat (06 R190, 07 R225) -/

theorem translate_launches (s : State) (l : Loc) (ctx va : Nat) (w : Bool) : (s.translate l ctx va w).1.launches = s.launches := by
  unfold State.translate
  split_ifs with hva
  · rfl
  · split
    · rfl
    · dsimp only
      split
      · split_ifs <;> rfl
      · split
        · split_ifs <;> rfl
        · split_ifs <;> rfl
        · split_ifs <;> rfl

theorem platLookup_launches (s : State) (core ctx va : Nat) : (s.platLookup core ctx va).1.launches = s.launches := by
  unfold State.platLookup
  split
  · rfl
  · split
    · rfl
    · dsimp only
      split <;> rfl

theorem platParts_launches (core ctx : Nat) (k : PKindAcc) (l : List (Nat × Nat)) : ∀ s : State, (s.platParts core ctx k l).1.launches = s.launches := by
  induction l with
  | nil => exact fun _ => rfl
  | cons p t ih =>
    intro s
    have hl := platLookup_launches s core ctx p.1
    unfold State.platParts
    dsimp only
    split
    · exact hl
    · exact (ih _).trans hl
    · split
      · exact hl
      · exact (ih _).trans hl

theorem platCheck_launches (s : State) (core ctx : Nat) (k : PKindAcc) (r : List Rng) : (s.platCheck core ctx k r).1.launches = s.launches :=
  platParts_launches ..

theorem translateParts_launches (l : Loc) (ctx : Nat) (k : PKindAcc) (w : Bool) (homes : List Nat) (ps : List (Nat × Nat)) :
    ∀ s : State, (s.translateParts l ctx k w homes ps).1.launches = s.launches := by
  induction ps with
  | nil => exact fun _ => rfl
  | cons p t ih =>
    intro s
    have ht := translate_launches s l ctx p.1 w
    unfold State.translateParts
    rcases hs : s.translate l ctx p.1 w with ⟨s', r⟩
    rw [hs] at ht
    have hi := (ih s').trans ht
    rcases hr : s'.translateParts l ctx k w homes t with ⟨u, q⟩
    rw [hr] at hi
    have hp (ps : List (Nat × Nat)) := (platParts_launches l.core ctx k ps u).trans hi
    cases r with
    | fault c => exact ht
    | page v =>
      dsimp only
      rw [hr]
      cases q with
      | fault c => exact hi
      | page v => exact hi
      | ok rs =>
        have := hp t
        dsimp only
        split <;> next h => rw [h] at this; exact this
    | ok pa =>
      dsimp only
      split_ifs
      · exact ht
      · rw [hr]
        have := hp [(p.1, p.2)]
        cases q with
        | ok rs => exact hi
        | fault c =>
          dsimp only
          split <;> next h => rw [h] at this; exact this
        | page v =>
          dsimp only
          split <;> next h => rw [h] at this; exact this

theorem access_launches (s : State) (l : Loc) (k : PKindAcc) (asp : Asp) (ea n : Nat) (w : Bool) (homes : List Nat) :
    (s.access l k asp ea n w homes).1.launches = s.launches := by
  cases asp with
  | virt =>
    show (s.virt l k ea n w homes).1.launches = _
    unfold State.virt
    split_ifs
    · rfl
    · exact translateParts_launches ..
  | sp0 => rfl
  | sp1 => rfl
  | sp2 => rfl

theorem gather_launches (l : Loc) (asp : Asp) (w : Bool) (homes : List Nat) (ps : List (Nat × Nat)) :
    ∀ s : State, (s.gather l asp w homes ps).1.launches = s.launches := by
  induction ps with
  | nil => exact fun _ => rfl
  | cons p t ih =>
    intro s
    have ha := access_launches s l (if w then .write else .read) asp p.1 p.2 w homes
    unfold State.gather
    rcases hs : s.access l (if w then .write else .read) asp p.1 p.2 w homes with ⟨s', r⟩
    rw [hs] at ha
    have hi := (ih s').trans ha
    rcases hr : s'.gather l asp w homes t with ⟨u, q⟩
    rw [hr] at hi
    cases r with
    | ok r =>
      dsimp only
      rw [hr]
      cases q <;> exact hi
    | fault c => exact ha
    | page v => exact ha

/-! ## Accesses perform (06 R182, 07 R235) -/

theorem pickSome_launches {α : Type} (n : Nat) : ∀ (s : State) (l : List α), (s.pickSome n l).2.launches = s.launches := by
  induction n with
  | zero => exact fun _ _ => rfl
  | succ n ih =>
    intro s l
    unfold State.pickSome
    split_ifs
    · rfl
    · exact ih _ _

theorem wakeGran_launches (s : State) (g n : Nat) : (s.wakeGran g n).launches = s.launches := by
  have hfold (l : List Watch) : ∀ s : State, (l.foldl (fun s w => s.setBank w.l ((s.bank w.l).endPark 1)) s).launches = s.launches := by
    induction l with
    | nil => exact fun _ => rfl
    | cons w t ih => exact fun s => ih _
  exact (hfold _ _).trans (pickSome_launches ..)

theorem accWrite_launches (s : State) (a : Acc) (old : List Byte) : (s.accWrite a old).launches = s.launches := by
  unfold State.accWrite
  dsimp only
  split
  · rfl
  · rfl
  · exact writeRngs_launches ..
  · exact writeRngs_launches ..
  · split_ifs
    · exact writeRngs_launches ..
    · rfl
  · exact writeRngs_launches ..
  · exact writeRngs_launches ..
  · split
    · exact wakeGran_launches ..
    · rfl

theorem stay_dropAcc (s : State) (l : Loc) (id : Nat) : Stay s (s.dropAcc l id) := .of_launches rfl

theorem stay_performNow (s : State) (l : Loc) (a : Acc) : Stay s (s.performNow l a) := by
  have hp := platCheck_launches s l.core (s.bank l).ctx a.op.kind a.rngs
  unfold State.performNow
  rcases hs : s.platCheck l.core (s.bank l).ctx a.op.kind a.rngs with ⟨u, v⟩
  rw [hs] at hp
  have hu : Stay s u := .of_launches hp
  dsimp only
  split
  · exact hu.trans ((stay_dropAcc u l a.id).trans (stay_faultAt ..))
  · split
    · next addr _ =>
      have hlog : Stay u (u.logEvent .eccUncorr (dieOf l.core) 0 addr) := .of_launches (logEvent_launches ..)
      exact (hu.trans hlog).trans ((stay_dropAcc _ l a.id).trans (stay_faultAt ..))
    · exact hu.trans (.of_launches (accWrite_launches ..))

theorem stay_performAcc (s : State) (l : Loc) (id : Nat) : Stay s (s.performAcc l id) := by
  unfold State.performAcc
  split
  · exact .of_launches rfl
  · split_ifs
    · exact .of_launches rfl
    · exact .of_launches rfl
    · exact stay_performNow ..

theorem stay_performAll (s : State) (l : Loc) : Stay s (s.performAll l) :=
  Stay.foldl _ (fun s id => (stay_performAcc s l id).trans (stay_performAcc _ l id)) _ s

/-! ## Vectors of a write stream drain (06 R212, R215) -/

theorem stay_streamStop (s : State) (l : Loc) (pc : Nat) (w : Bool) (r : ARes) : Stay s (s.streamStop l pc w r) := by
  cases r with
  | fault c => exact stay_faultAt ..
  | page va => exact .of_launches rfl
  | ok r => exact .of_launches rfl

theorem storePieces_launches (data : List Byte) (lo es : Nat) (l : List ((Piece × Nat) × List Rng)) :
    ∀ s : State, (s.storePieces data lo es l).launches = s.launches := by
  induction l with
  | nil => exact fun _ => rfl
  | cons p t ih => exact fun s => (ih _).trans (writeRngs_launches ..)

theorem stay_drainVec (s : State) (l : Loc) (n : Fin 8) : Stay s (s.drainVec l n) := by
  unfold State.drainVec
  dsimp only
  split
  · exact .of_launches rfl
  · next q _ =>
    split
    · exact .of_launches rfl
    · split_ifs
      · exact .of_launches rfl
      · have hg := gather_launches l (tdescOf q.tdr).asp true homesA ((q.homed q.done).map (fun x => (x.2, x.1.len))) s
        split
        · next u r h =>
          rw [h] at hg
          exact (Stay.of_launches hg).trans (stay_streamStop ..)
        · next u rs h =>
          rw [h] at hg
          split_ifs
          · exact .of_launches hg
          · have hp := platCheck_launches u l.core (s.bank l).ctx .write rs.flatten
            split
            · next v f h =>
              rw [h] at hp
              exact (Stay.of_launches (hp.trans hg)).trans (stay_faultAt ..)
            · next v h =>
              rw [h] at hp
              exact (Stay.of_launches ((storePieces_launches ..).trans (hp.trans hg))).trans (stay_onBank ..)

theorem stay_drainHeld (l : Loc) (n : Fin 8) (k : Nat) : ∀ s : State, Stay s (s.drainHeld l n k) := by
  induction k with
  | zero => exact Stay.refl
  | succ k ih => exact fun s => (stay_drainVec s l n).trans (ih _)

/-! ## A page fault is reported (05 R169, 15 R494) -/

theorem appendFault_launches (s : State) (f : Nat) (e : FqEnt) : (s.appendFault f e).launches = s.launches := writePa_launches ..

theorem reportPage_launches (s : State) (l : Loc) : (s.reportPage l).launches = s.launches := by
  unfold State.reportPage
  dsimp only
  split
  · split_ifs
    · exact appendFault_launches ..
    · rfl
  · rfl

theorem stay_drainPage (s : State) (l : Loc) : Stay s (s.drainPage l) := by
  unfold State.drainPage
  split
  · have hflush := (stay_performAll s l).trans (Resaved.stay (resaved_flushFan _ l))
    split_ifs
    · exact .of_launches rfl
    · dsimp only
      split
      · exact hflush.trans (.of_launches (reportPage_launches ..))
      · exact hflush
  · exact .of_launches rfl

/-! ## Packets leave (13 R435, R439) -/

theorem hop_launches (s : State) (die : Nat) (p : Packet) : (s.hop die p).2.launches = s.launches := by
  unfold State.hop
  split
  · rfl
  · split <;> rfl

theorem stay_failPacket (s : State) (p : Packet) : Stay s (s.failPacket p) := by
  unfold State.failPacket
  split_ifs
  · exact .of_launches rfl
  · split
    · exact stay_partFault ..
    · unfold State.hostWrote
      split_ifs <;> exact .of_launches rfl
  · split
    · split
      · exact stay_partFault ..
      · exact .of_launches rfl
    · exact .of_launches rfl

theorem stay_forward (s : State) (die : Nat) (p : Packet) (vc : Fin 4) : Stay s (s.forward die p vc) := by
  have hh := hop_launches s die p
  unfold State.forward
  split_ifs
  · exact .of_launches rfl
  · split
    · next k u h =>
      rw [h] at hh
      exact .of_launches ((queueAt_launches ..).trans hh)
    · next u h =>
      rw [h] at hh
      exact (Stay.of_launches hh).trans (stay_failPacket ..)

theorem number_launches (p : Packet) (l : List Nat) : ∀ s : State, (s.number p l).1.launches = s.launches := by
  induction l with
  | nil => exact fun _ => rfl
  | cons d t ih => exact fun s => ih _

theorem stay_sendSeq (s : State) (die : Nat) (p : Packet) (vc : Fin 4) : Stay s (s.sendSeq die p vc) := by
  unfold State.sendSeq
  split_ifs
  · exact (Stay.of_launches (number_launches ..)).trans (stay_forward ..)
  · exact .of_launches rfl

theorem useSlot_launches (s : State) (slot : Option Nat) : (s.useSlot slot).launches = s.launches := by
  unfold State.useSlot
  split
  · split_ifs <;> rfl
  · rfl

theorem stay_sendReq (s : State) (l : Loc) (id : Nat) : Stay s (s.sendReq l id) := by
  unfold State.sendReq
  split
  · exact .of_launches rfl
  · next q _ =>
    have hu : Stay s (s.useSlot q.slotAt) := .of_launches (useSlot_launches ..)
    dsimp only
    generalize (if (q.rel && s.windowed q.scope) = true then some (s.windowOf s.dtime) else none) = win
    split_ifs
    · exact .of_launches rfl
    · exact hu.trans (.of_launches rfl)
    · exact hu.trans (.of_launches rfl)
    · refine hu.trans (Stay.trans (.of_launches ?_) (Stay.foldl _ (fun s p => stay_sendSeq s _ p 0) _ _))
      rfl

/-! ## Cores halt (05 R165, R166) -/

theorem stay_settlePreempt (s : State) (id : Nat) : Stay s (s.settlePreempt id) := by
  unfold State.settlePreempt
  split
  · exact .of_launches rfl
  · split_ifs
    · exact .of_launches rfl
    · refine Stay.trans ?_ (Stay.foldl _ (fun s l => ?_) _ _)
      · exact stay_modLaunch s id fun _ => rfl
      · split_ifs <;> exact .of_launches rfl

theorem stay_halting (s : State) (l : Loc) : Stay s (s.halting l) := by
  unfold State.halting
  split_ifs
  · exact .of_launches rfl
  · exact ((((stay_performAll s l).trans (Resaved.stay (resaved_flushFan _ l))).trans (stay_drainPage _ l)).trans
      (Stay.foldl _ (fun s q => stay_sendReq ..) _ _)).trans (stay_onBank ..)

theorem stay_haltAt (s : State) (l : Loc) : Stay s (s.haltAt l) := by
  have hh := stay_halting s l
  unfold State.haltAt
  have hstop (b : Bank) : Stay s (((s.halting l).setBank l b).leave l) := hh.trans (.of_launches rfl)
  dsimp only
  split
  · exact hh
  · split
    · exact (hstop _).trans (stay_settlePreempt ..)
    · split
      · exact hstop _
      · split
        · exact hh.trans (stay_settlePreempt ..)
        · exact hh

theorem stay_wind (s : State) (l : Loc) : Stay s (s.wind l) := by
  refine Stay.trans ?_ ((stay_performAll _ l).trans (stay_haltAt _ l))
  exact (stay_setBank s l _).trans (Stay.foldl _ (fun _ _ => stay_drainHeld ..) _ _)

/-! ## Collectives stop (14 R472, R507) -/

theorem stay_endPosts (s : State) (ps : List Post) (code : FCode) (pos : Post → Nat) : Stay s (s.endPosts ps code pos) :=
  Stay.foldl _ (fun s p => by
    split
    · exact stay_partFault ..
    · exact .refl s) ps s

theorem stay_dropInst (s : State) (id : Nat) : Stay s (s.dropInst id) := .of_launches rfl

theorem stay_keepEnded (s : State) (i : Inst) (code : FCode) (names : List Nat) : Stay s (s.keepEnded i code names) := .of_launches rfl

theorem stay_stopInst (s : State) (i : Inst) (names : List Nat) : Stay s (s.stopInst i names) := by
  refine Stay.trans ?_ ((stay_keepEnded ..).trans (stay_endPosts ..))
  exact (stay_dropInst s i.id).trans (Stay.foldl _ (fun s p => stay_sendSeq s 0 _ 0) _ _)

theorem stay_peerStop (s : State) (id : Nat) : Stay s (s.peerStop id) := by
  unfold State.peerStop
  split
  · exact .of_launches rfl
  · dsimp only
    split_ifs
    · exact .of_launches rfl
    · exact stay_stopInst ..

theorem stay_stopInsts (s : State) (id : Nat) : Stay s (s.stopInsts id) := Stay.foldl _ (fun _ _ => stay_peerStop ..) _ s

end Sys2Proof.Sequencer

/-!
SUPPORT. A core halts (05 R165, R166) with nothing left to perform, and a launch that is told to stop is pre-empted once each of its cores has; a bank goes to
its save area (05 R168) once every reply has come.
-/

namespace Sys2Proof.Sequencer
open Sys2Proof.Machine

theorem exec_coreHalted (core : Nat) (s : State) : exec (.coreHalted core) s = execCoreHalted core s := by rfl
theorem exec_evictionSaved (l : Loc) (s : State) : exec (.evictionSaved l) s = execEvictionSaved l s := by rfl

/-! ## Nothing left to perform -/

theorem performAll_none {s : State} {l : Loc} (h : (s.bank l).acc.out = []) : s.performAll l = s := by
  rw [State.performAll, h]
  rfl

theorem drainPage_none {s : State} {l : Loc} (h : (s.bank l).acc.pf = none) : s.drainPage l = s := by
  rw [State.drainPage, h]

/-- A core that publishes to no subscriber, and of which no granule is in transit, has nothing to flush (12 R416). -/
theorem flushFan_at {s : State} {l : Loc} (hfan : (s.bank l).fab.fan = []) (ht : ∀ t ∈ s.transit, t.pub ≠ l) : s.flushFan l = s := by
  rw [State.flushFan, sendAll_none hfan]
  exact deliverFrom_none (fun t h => by simpa using ht t h) _

/-- With no word of S that has still to retire, no signal is left. -/
theorem signalNow_calm {b : Bank} (h : b.calm) : b.signalNow = b := by
  have hr : (b.eng .S).rets = [] := (h .S).1
  unfold Bank.signalNow
  simp only [hr, List.map_nil, List.foldl_nil]
  rw [show b.setEng .S _ = b.setEng .S { b.eng .S with rets := (b.eng .S).rets } by rw [hr]]
  rfl

/-- A bank that has nothing issued that goes on, in a halting core (05 R166; 04 R129; 12 R397). -/
structure Halts (s : State) (l : Loc) : Prop where
  st : (s.bank l).st = .halting
  flt : (s.bank l).flt = none
  out : (s.bank l).acc.out = []
  pf : (s.bank l).acc.pf = none
  calm : (s.bank l).calm
  mid : (s.bank l).mx.mid = false
  reqs : (s.bank l).fab.reqs = []
  fan : (s.bank l).fab.fan = []
  transit : ∀ t ∈ s.transit, t.pub ≠ l
  subs : ∀ p ∈ (s.bank l).fab.subs, p.2.st ≠ .pending
  slots : (s.bank l).atSlots = true

/-! ## A core that no longer runs a bank -/

theorem leave_bank (s : State) (l k : Loc) : (s.leave l).bank k = s.bank k := by
  unfold State.leave State.bank
  by_cases h : k.core = l.core
  · rw [h, core_setCore_same]
    rfl
  · rw [core_setCore_ne _ _ h]

theorem leave_run (s : State) (l : Loc) : ((s.leave l).core l.core).run = if (s.core l.core).run = some l.bank then none else (s.core l.core).run := by
  unfold State.leave
  rw [core_setCore_same]

/-- The package in which a bank with nothing left to perform has halted. -/
def halted (s : State) (l : Loc) (st : BankSt) : State := (((s.setBank l (s.bank l))).setBank l { s.bank l with st }).leave l

section
variable (s : State) (l : Loc) (st : BankSt)

theorem halted_self : (halted s l st).bank l = { s.bank l with st } := by rw [halted, leave_bank, bank_setBank_same]

theorem halted_other {k : Loc} (h : k ≠ l) : (halted s l st).bank k = s.bank k := by
  rw [halted, leave_bank, bank_setBank_ne _ _ h, bank_setBank_ne _ _ h]

theorem halted_run : ((halted s l st).core l.core).run = if (s.core l.core).run = some l.bank then none else (s.core l.core).run := by
  rw [halted, leave_run, (core_setBank_rest ..).1, (core_setBank_rest ..).1]

theorem halted_mem : (halted s l st).mem = s.mem := rfl

end

/-! ## A launch whose cores have halted -/

/-- Every resident bank of some goes to its save area if it is to. -/
def allSaving (id : Nat) (ls : List Loc) (s : State) : State :=
  ls.foldl (fun s l => if s.resident id l then s.setBank l (s.bank l).toSaving else s) s

section
variable (id : Nat) (ls : List Loc) (s : State)

theorem allSaving_launch (k : Nat) : (allSaving id ls s).launch k = s.launch k :=
  List.foldlRecOn (motive := fun t : State => t.launch k = s.launch k) _ _ rfl fun _ h _ _ => by
    split_ifs <;> exact h

theorem allSaving_mem : (allSaving id ls s).mem = s.mem :=
  List.foldlRecOn (motive := fun t : State => t.mem = s.mem) _ _ rfl fun _ h _ _ => by
    split_ifs <;> exact h

theorem allSaving_run (c : Nat) : ((allSaving id ls s).core c).run = (s.core c).run :=
  List.foldlRecOn (motive := fun t : State => (t.core c).run = (s.core c).run) _ _ rfl fun _ h _ _ => by
    split_ifs
    · exact (core_setBank_rest ..).1.trans h
    · exact h

/-- A bank that is not to be saved stays, and so does one of another launch. -/
theorem allSaving_bank {k : Loc} (hk : (s.bank k).toSaving = s.bank k ∨ (s.bank k).launch ≠ some id) : (allSaving id ls s).bank k = s.bank k := by
  refine List.foldlRecOn (motive := fun t : State => t.bank k = s.bank k) _ _ rfl fun t h l _ => ?_
  split_ifs with hr
  · by_cases hl : k = l
    · subst hl
      rw [bank_setBank_same, h]
      refine hk.resolve_right fun hne => hne ?_
      simp only [State.resident, Bool.and_eq_true, beq_iff_eq] at hr
      rw [← h]
      exact hr.1
    · rw [bank_setBank_ne _ _ hl, h]
  · exact h

end

section
variable {s : State} {id : Nat} {x : Launch}

/-- Whether some core of a launch has still to halt. -/
def stillRuns (s : State) (x : Launch) (id : Nat) : Bool := x.live.any (fun l => s.resident id l && ((s.bank l).st == .run || (s.bank l).st == .halting))

theorem settlePreempt_stays (hx : s.launch id = some x) (h : x.preq = false ∨ x.st ≠ .running ∨ stillRuns s x id = true) : s.settlePreempt id = s := by
  have hc : (!x.preq || x.st != .running || stillRuns s x id) = true := by
    rcases h with h | h | h <;> simp [h]
  unfold State.settlePreempt
  rw [hx]
  exact if_pos hc

theorem settlePreempt_ends (hx : s.launch id = some x) (hp : x.preq = true) (hst : x.st = .running) (h : stillRuns s x id = false) :
    s.settlePreempt id = allSaving id x.live (s.modLaunch id (fun x => { x with st := .preempted, preq := false })) := by
  have hc : ¬ (!x.preq || x.st != .running || stillRuns s x id) = true := by simp [hp, hst, h]
  unfold State.settlePreempt
  rw [hx]
  exact if_neg hc

/-- Pre-emption stores nothing, and moves no core; a bank that is not to be saved stays, and so does one of another launch. -/
theorem settlePreempt_rest (hx : s.launch id = some x) : (s.settlePreempt id).mem = s.mem ∧ (∀ c, ((s.settlePreempt id).core c).run = (s.core c).run)
    ∧ ∀ k, (s.bank k).toSaving = s.bank k ∨ (s.bank k).launch ≠ some id → (s.settlePreempt id).bank k = s.bank k := by
  by_cases h : x.preq = false ∨ x.st ≠ .running ∨ stillRuns s x id = true
  · rw [settlePreempt_stays hx h]
    exact ⟨rfl, fun _ => rfl, fun _ _ => rfl⟩
  · push Not at h
    obtain ⟨hp, hst, hr⟩ := h
    rw [settlePreempt_ends hx (by simpa using hp) hst (by simpa using hr)]
    exact ⟨allSaving_mem .., fun c => allSaving_run .., fun k hk => allSaving_bank _ _ (s.modLaunch id _) hk⟩

end

/-! ## `CORE_HALTED` -/

section
variable {s : State} {l : Loc} {x : Launch}

theorem halting_quiet (h : Halts s l) : s.halting l = s.setBank l (s.bank l) := by
  unfold State.halting
  rw [h.st, if_neg (by decide), performAll_none h.out, flushFan_at h.fan h.transit, drainPage_none h.pf]
  simp only [h.reqs, List.foldl_nil]
  rw [State.onBank, signalNow_calm h.calm]
  exact noteFault_none _ _ (by rw [bank_setBank_same]; exact h.flt)

theorem issuedDone_quiet (h : Halts s l) : (s.setBank l (s.bank l)).issuedDone l = true := by
  have hsubs : (s.bank l).fab.subs.all (fun p => p.2.st != .pending) = true := by simpa using h.subs
  unfold State.issuedDone
  rw [bank_setBank_same]
  simp [h.out, h.mid, hsubs]

/-- A bank with nothing left to perform halts. -/
theorem haltAt_quiet (h : Halts s l) (hl : (s.bank l).launch = some x.id) (hx : s.launch x.id = some x) (hst : x.st = .running) :
    s.haltAt l = (halted s l (if x.preq ∧ (s.bank l).evict then .saving else .ready)).settlePreempt x.id := by
  have hbind : (s.bank l).launch.bind (s.setBank l (s.bank l)).launch = some x := by rw [hl]; exact hx
  unfold State.haltAt
  rw [halting_quiet h]
  dsimp only
  rw [bank_setBank_same, hbind]
  dsimp only
  rw [if_pos ⟨h.st, hst, issuedDone_quiet h, h.slots⟩]
  rfl

/-- A bank of no launch that is not halting stays as it is. -/
theorem haltAt_idle (hst : (s.bank l).st ≠ .halting) (hl : (s.bank l).launch = none) : s.haltAt l = s := by
  have hh : s.halting l = s := by unfold State.halting; exact if_pos hst
  unfold State.haltAt
  rw [hh]
  dsimp only
  rw [hl]
  rfl

/-- The other bank of a core. -/
def mate (l : Loc) : Loc := ⟨l.core, if l.bank = 0 then 1 else 0⟩

theorem mate_ne (l : Loc) : mate l ≠ l := by
  obtain ⟨c, k⟩ := l
  fin_cases k <;> simp [mate]

/-- Both banks of a core halt, of which one holds no launch. -/
theorem haltBoth (ho : (s.bank (mate l)).launch = none) (hos : (s.bank (mate l)).st ≠ .halting) (hu : (s.haltAt l).bank (mate l) = s.bank (mate l)) :
    (s.haltAt ⟨l.core, 0⟩).haltAt ⟨l.core, 1⟩ = s.haltAt l := by
  obtain ⟨c, k⟩ := l
  have hs := haltAt_idle hos ho
  have ht := haltAt_idle (s := s.haltAt ⟨c, k⟩) (l := mate ⟨c, k⟩) (by rw [hu]; exact hos) (by rw [hu]; exact ho)
  fin_cases k
  · exact ht
  · exact congrArg (fun t : State => t.haltAt ⟨c, 1⟩) hs

/-- A core of which one bank halts and the other holds no launch. -/
theorem coreHalted_quiet (h : Halts s l) (hl : (s.bank l).launch = some x.id) (hx : s.launch x.id = some x) (hst : x.st = .running)
    (ho : (s.bank (mate l)).launch = none) (hos : (s.bank (mate l)).st ≠ .halting) :
    let u := (halted s l (if x.preq ∧ (s.bank l).evict then .saving else .ready)).settlePreempt x.id
    exec (.coreHalted l.core) s = .next (u.selectBank l.core).arbiter ∧ u.mem = s.mem
      ∧ (u.core l.core).run = if (s.core l.core).run = some l.bank then none else (s.core l.core).run := by
  intro u
  have hat : s.haltAt l = u := haltAt_quiet h hl hx hst
  obtain ⟨hmem, hrun, hbank⟩ := settlePreempt_rest (s := halted s l (if x.preq ∧ (s.bank l).evict then .saving else .ready)) hx
  have hmate : u.bank (mate l) = s.bank (mate l) := by
    have hb := halted_other s l (if x.preq ∧ (s.bank l).evict then .saving else .ready) (mate_ne l)
    exact (hbank (mate l) (.inr (by rw [hb, ho]; simp))).trans hb
  refine ⟨?_, hmem.trans (halted_mem ..), (hrun _).trans (halted_run ..)⟩
  rw [exec_coreHalted, execCoreHalted, haltBoth ho hos (by rw [hat]; exact hmate), hat]

/-- A launch that is not to stop goes on with the bank that has halted, which may be selected again. -/
theorem halted_running (hx : s.launch x.id = some x) (hp : x.preq = false) :
    let u := (halted s l (if x.preq ∧ (s.bank l).evict then .saving else .ready)).settlePreempt x.id
    u.launch x.id = some x ∧ (u.bank l).st = .ready := by
  intro u
  rw [show u = _ from settlePreempt_stays (s := halted s l _) hx (.inl hp), halted_self]
  exact ⟨hx, by simp [hp]⟩

/-- Once its last core has halted a launch that is to stop is pre-empted, and the bank waits or is saved. -/
theorem halted_preempted (hx : s.launch x.id = some x) (hst : x.st = .running) (hp : x.preq = true)
    (hothers : ∀ p ∈ x.live, p ≠ l → s.resident x.id p = true → (s.bank p).st ≠ .run ∧ (s.bank p).st ≠ .halting) :
    let u := (halted s l (if x.preq ∧ (s.bank l).evict then .saving else .ready)).settlePreempt x.id
    u.launch x.id = some { x with st := .preempted, preq := false } ∧ (u.bank l).st = if (s.bank l).evict then .saving else .ready := by
  intro u
  have hself := halted_self s l (if x.preq ∧ (s.bank l).evict then .saving else .ready)
  have hsaved : ((halted s l (if x.preq ∧ (s.bank l).evict then .saving else .ready)).bank l).toSaving
      = (halted s l (if x.preq ∧ (s.bank l).evict then .saving else .ready)).bank l := by
    rw [hself]
    cases he : (s.bank l).evict <;> simp [Bank.toSaving, hp, he]
  have hstill : stillRuns (halted s l (if x.preq ∧ (s.bank l).evict then .saving else .ready)) x x.id = false := by
    simp only [stillRuns, List.any_eq_false, Bool.and_eq_true, Bool.or_eq_true, beq_iff_eq, not_and, not_or]
    intro p hpl hr
    by_cases hpe : p = l
    · subst hpe
      rw [hself]
      cases (s.bank p).evict <;> simp [hp]
    · have hb := halted_other s l (if x.preq ∧ (s.bank l).evict then .saving else .ready) hpe
      rw [hb]
      exact hothers p hpl hpe (by simpa only [State.resident, hb] using hr)
  refine ⟨?_, ?_⟩
  · rw [show u = _ from settlePreempt_ends (s := halted s l _) hx hp hst hstill, allSaving_launch]
    exact launch_modLaunch_same (s := halted s l _) hx rfl
  · rw [show u.bank l = _ from (settlePreempt_rest (s := halted s l _) hx).2.2 l (.inl hsaved), hself]
    simp [hp]

end

/-! ## `EVICTION_SAVED` -/

theorem freeBytes_launches (n : Nat) : ∀ s : State, (s.freeBytes n).2.launches = s.launches := by
  induction n with
  | zero => exact fun _ => rfl
  | succ n ih => exact fun s => ih (s.fresh.2)

theorem packed_walk (b : Bank) (kept : Bool) (e : Engine) : ((b.packed kept).eng e).walk = (b.eng e).walk - b.wmin := by
  cases e <;> rfl

/-- A bank of a pre-empted launch that awaits no reply, and stands in no collective that has started, may go to its save area. -/
structure Saves (s : State) (l : Loc) (x : Launch) : Prop where
  launch : (s.bank l).launch.bind s.launch = some x
  st : (s.bank l).st = .saving
  preempted : x.st = .preempted
  out : (s.bank l).acc.out = []
  reqs : (s.bank l).fab.reqs = []
  insts : ∀ i ∈ s.trav.insts, i.started = true → ∀ p ∈ i.posts, ¬(p.own = true ∧ p.launch = x.id ∧ p.who % 1024 = l.core)

theorem assoc_assocPut {α : Type} (l : List (Nat × α)) (k : Nat) (x : α) : assoc (assocPut l k x) k = some x := by simp [assoc, assocPut]

/-- The package in which a bank has gone to the save area of its launch. -/
def savedAs (s : State) (l : Loc) (id : Nat) (k : Bank) : State :=
  (s.modLaunch id (fun x => { x with saved := assocPut x.saved l.core k })).setBank l {}

theorem saveBank_saves {s : State} {l : Loc} {x : Launch} (h : Saves s l x) :
    ∃ (v : State) (kept : Bool), s.saveBank l = (savedAs v l x.id ((s.bank l).packed kept)).arbiter ∧ v.launches = s.launches := by
  have hstarted : s.trav.insts.any (fun i => i.started && i.posts.any (fun p => p.own && p.launch == x.id && p.who % 1024 == l.core)) = false := by
    simp only [List.any_eq_false, Bool.and_eq_true, List.any_eq_true, beq_iff_eq, not_and, not_exists]
    exact fun i hi hs p hp hown hwho => h.insts i hi hs p hp ⟨hown.1, hown.2, hwho⟩
  have hno : ¬ ((s.bank l).st ≠ .saving ∨ x.st ≠ .preempted ∨ (!(s.bank l).acc.out.isEmpty) = true ∨ (!(s.bank l).fab.reqs.isEmpty) = true
      ∨ s.trav.insts.any (fun i => i.started && i.posts.any (fun p => p.own && p.launch == x.id && p.who % 1024 == l.core)) = true) := by
    rw [hstarted]
    simp [h.st, h.preempted, h.out, h.reqs]
  have hfree := freeBytes_launches saveRegs s
  unfold State.saveBank
  generalize s.freeBytes saveRegs = free at *
  obtain ⟨r, v⟩ := free
  dsimp only
  rw [h.launch]
  dsimp only
  rw [if_neg hno]
  exact ⟨_, _, rfl, (mwrite_launches ..).trans hfree⟩

theorem evictionSaved_saves {s : State} {l : Loc} {x : Launch} (h : Saves s l x) :
    ∃ u y kept, exec (.evictionSaved l) s = .next (State.arbiter u) ∧ u.bank l = {} ∧ u.launch x.id = some y
      ∧ assoc y.saved l.core = some ((s.bank l).packed kept) := by
  obtain ⟨-, hx⟩ := launch_of_bind h.launch
  obtain ⟨v, kept, hs, hv⟩ := saveBank_saves h
  have hvx : v.launch x.id = some x := by rw [State.launch, hv]; exact hx
  refine ⟨savedAs v l x.id ((s.bank l).packed kept), _, kept, ?_, bank_setBank_same .., launch_modLaunch_same hvx rfl, assoc_assocPut ..⟩
  rw [exec_evictionSaved, execEvictionSaved, performAll_none h.out, hs]

end Sys2Proof.Sequencer

/-!
SUPPORT. The end of a launch (05 R156, R171 to R175; 04 R131; 15 R487, R488): a barrier or a watchdog that expires, the banks that an ending launch leaves, its
record, and a cancelled one.
-/

namespace Sys2Proof.Sequencer
open Sys2Proof.Machine

theorem exec_barrierTimeout (id : Nat) (lvl : Level) (place : Nat) (s : State) : exec (.barrierTimeout id lvl place) s = execBarrierTimeout id lvl place s := by rfl
theorem exec_watchdogExpiry (core : Nat) (s : State) : exec (.watchdogExpiry core) s = execWatchdogExpiry core s := by rfl
theorem exec_launchEnd (id : Nat) (s : State) : exec (.launchEnd id) s = execLaunchEnd id s := by rfl
theorem exec_completionRecord (id : Nat) (s : State) : exec (.completionRecord id) s = execCompletionRecord id s := by rfl
theorem exec_qcancel (fn : Fin 17) (q : Fin 64) (v : BitVec 64) (s : State) : exec (.qcancel fn q v) s = execQcancel fn q v s := by rfl

/-! ## A fault of a bank -/

theorem faultAt_flt {s : State} {l : Loc} (h : (s.bank l).flt = none) (c : FCode) (pc d : Nat) : ((s.faultAt l c pc d).bank l).flt = some ⟨c, pc, d⟩ := by
  have hn : ((s.faultAt l c pc d).bank l).flt = ((s.setBank l ((s.bank l).takeFault c pc d)).bank l).flt := bank_noteFault_of (·.flt) (fun _ _ => rfl) _ l l
  rw [hn, bank_setBank_same, takeFault_flt h]

theorem faultAt_mem (s : State) (l : Loc) (c : FCode) (pc d : Nat) : (s.faultAt l c pc d).mem = s.mem := noteFault_mem ..

/-- The least of some numbers, of which there is one. -/
theorem min?_getD_spec {l : List Nat} {n : Nat} (h : n ∈ l) : l.min?.getD 0 ≤ n ∧ l.min?.getD 0 ∈ l := by
  cases hm : l.min? with
  | none => rw [List.min?_eq_none_iff.1 hm] at h; simp at h
  | some a =>
    obtain ⟨ha, hle⟩ := List.min?_eq_some_iff.1 hm
    exact ⟨hle n h, ha⟩

/-- A barrier expires on the waiting member of least index, and names the least member that has not arrived (05 R156). -/
theorem barrierTimeout_faults {s : State} {x : Launch} {lvl : Level} {place a : Nat} {l : Loc} (hx : s.launch x.id = some x) (hst : x.st = .running)
    (ha : (x.bar lvl place).age = some a) (hto : x.pkt.cairnTo ≤ a)
    (hl : (x.members lvl place).find? (fun l => (s.bank l).seq.cairn == some lvl) = some l) :
    exec (.barrierTimeout x.id lvl place) s = .next (s.faultAt l .barrier (s.bank l).engs.S.pc
      ((((x.members lvl place).filter (fun l => (s.bank l).arrivals lvl ≤ (x.bar lvl place).gen)).map (·.core)).min?.getD 0)) := by
  have hno : ¬ (x.st ≠ .running ∨ a < x.pkt.cairnTo) := by simp [hst, hto]
  rw [exec_barrierTimeout, execBarrierTimeout, hx]
  dsimp only
  rw [ha]
  dsimp only
  rw [if_neg hno, hl]

/-- The engine that a watchdog names is the one that has gone least far (04 R131). -/
theorem laggard_least (b : Bank) (f : Engine) : (b.eng b.laggard).walk ≤ (b.eng f).walk := by
  have hle : b.wmin ≤ (b.eng f).walk := by
    cases f <;> simp only [Bank.wmin, Bank.eng, Engs.get] <;> omega
  refine le_of_eq_of_le ?_ hle
  unfold Bank.laggard
  cases hf : allEngines.find? (fun e => (b.eng e).walk == b.wmin) with
  | some e => simpa using List.find?_some hf
  | none =>
    have hne (e : Engine) : (b.eng e).walk ≠ b.wmin := by
      have := List.find?_eq_none.1 hf e (by cases e <;> decide)
      simpa using this
    have hS := hne .S; have hA := hne .A; have hM := hne .M; have hV := hne .V; have hT := hne .T; have hF := hne .F
    simp only [Bank.wmin, Bank.eng, Engs.get] at hS hA hM hV hT hF
    omega

theorem watchdogExpiry_eq {s : State} {core : Nat} {k : Fin 2} (h : (s.core core).run = some k) :
    exec (.watchdogExpiry core) s = .next (if (s.bank ⟨core, k⟩).st = .run ∧ 2 ^ 20 ≤ (s.bank ⟨core, k⟩).seq.wdog then
      s.faultAt ⟨core, k⟩ .deadlock ((s.bank ⟨core, k⟩).eng (s.bank ⟨core, k⟩).laggard).pc 0 else s) := by
  rw [exec_watchdogExpiry, execWatchdogExpiry, h]

/-! ## The banks that an ending launch leaves (05 R171 steps 1 to 4) -/

theorem clearPart_bank_ne (s : State) {l k : Loc} (h : k ≠ l) : (s.clearPart l).bank k = s.bank k := by
  unfold State.clearPart State.bank
  by_cases hc : k.core = l.core
  · have hb : k.bank ≠ l.bank := fun hb => h (by cases l; cases k; simp_all)
    rw [hc, core_setCore_same]
    exact Core.bank_setBank_ne _ _ hb
  · rw [core_setCore_ne _ _ hc]
    exact congrArg (fun c : Core => c.bank k.bank) (core_setCore_ne _ _ hc)

/-- The segments' counts of the package changed. -/
def withBusy (s : State) (m : Sparse Nat) : State := { s with busy := m }

theorem dropBusy_eq (ctx : Nat) (x : Cmd) (s : State) : ∃ m, s.dropBusy ctx x = withBusy s m :=
  List.foldlRecOn (motive := fun t : State => ∃ m, t = withBusy s m) _ _ ⟨s.busy, rfl⟩ fun t h g _ => by
    obtain ⟨m, rfl⟩ := h
    exact ⟨_, rfl⟩

theorem dropBusies_eq (ctx : Nat) (cs : List Cmd) (s : State) : ∃ m, cs.foldl (fun s x => s.dropBusy ctx x) s = withBusy s m :=
  List.foldlRecOn (motive := fun t : State => ∃ m, t = withBusy s m) _ _ ⟨s.busy, rfl⟩ fun t h x _ => by
    obtain ⟨m, rfl⟩ := h
    exact dropBusy_eq ctx x _

theorem dropCounts_eq (ctx : Nat) (ch : List (Nat × Chan)) (s : State) :
    ∃ m, ch.foldl (fun s p => p.2.cmds.foldl (fun s x => s.dropBusy ctx x) s) s = withBusy s m :=
  List.foldlRecOn (motive := fun t : State => ∃ m, t = withBusy s m) _ _ ⟨s.busy, rfl⟩ fun t h p _ => by
    obtain ⟨m, rfl⟩ := h
    exact dropBusies_eq ctx p.2.cmds _

/-- A package without a bank's watches. -/
def unwatched (s : State) (l : Loc) (m : Sparse Nat) : State :=
  { s with busy := m, watches := s.watches.filter (fun w => w.l != l), platw := s.platw.filter (fun w => w.l != l) }

theorem dropPart_resident {s : State} {id : Nat} {l : Loc} (h : s.resident id l = true) : ∃ m, s.dropPart id l = (unwatched s l m).clearPart l := by
  obtain ⟨m, hm⟩ := dropCounts_eq (s.bank l).ctx (s.bank l).car.ch s
  refine ⟨m, ?_⟩
  unfold State.dropPart
  rw [h]
  simp only [Bool.not_true, Bool.false_eq_true, if_false, hm]
  rfl

theorem dropPart_absent {s : State} {id : Nat} {l : Loc} (h : s.resident id l = false) : s.dropPart id l = s := by
  simp [State.dropPart, h]

/-- A bank that goes leaves memory, launches and time as they are. -/
theorem dropPart_rest (s : State) (id : Nat) (l : Loc) :
    (s.dropPart id l).mem = s.mem ∧ (s.dropPart id l).launches = s.launches ∧ (s.dropPart id l).dtime = s.dtime := by
  cases h : s.resident id l with
  | true =>
    obtain ⟨m, hm⟩ := dropPart_resident h
    rw [hm]
    exact ⟨rfl, rfl, rfl⟩
  | false =>
    rw [dropPart_absent h]
    exact ⟨rfl, rfl, rfl⟩

theorem dropPart_bank {s : State} {id : Nat} {l : Loc} (k : Loc) :
    (s.dropPart id l).bank k = if k = l ∧ s.resident id l = true then {} else s.bank k := by
  cases h : s.resident id l with
  | true =>
    obtain ⟨m, hm⟩ := dropPart_resident h
    rw [hm]
    by_cases hk : k = l
    · subst hk
      rw [if_pos ⟨rfl, rfl⟩, clearPart_bank]
    · rw [if_neg fun e => hk e.1, clearPart_bank_ne _ hk]
      rfl
  | false => rw [dropPart_absent h, if_neg fun e => absurd e.2 (by simp)]

/-- Every bank that goes is EMPTY then, and one that was stays so. -/
theorem dropParts_bank (id : Nat) (ls : List Loc) : ∀ s : State, (∀ l ∈ ls, s.resident id l = true ∨ s.bank l = {}) →
    (∀ l ∈ ls, (ls.foldl (fun s l => s.dropPart id l) s).bank l = {})
      ∧ ∀ k, s.bank k = {} → (ls.foldl (fun s l => s.dropPart id l) s).bank k = {} := by
  induction ls with
  | nil => exact fun s _ => ⟨fun _ h => absurd h List.not_mem_nil, fun _ h => h⟩
  | cons a t ih =>
    intro s h
    have hempty (k : Loc) (hk : s.bank k = {}) : (s.dropPart id a).bank k = {} := by
      rw [dropPart_bank]
      split_ifs
      · rfl
      · exact hk
    have hhead : (s.dropPart id a).bank a = {} := by
      rcases h a List.mem_cons_self with hr | he
      · rw [dropPart_bank, if_pos ⟨rfl, hr⟩]
      · exact hempty a he
    have htail : ∀ l ∈ t, (s.dropPart id a).resident id l = true ∨ (s.dropPart id a).bank l = {} := fun l hl => by
      by_cases hla : l = a
      · exact .inr (hla ▸ hhead)
      · have hb : (s.dropPart id a).bank l = s.bank l := by rw [dropPart_bank, if_neg fun e => hla e.1]
        refine (h l (List.mem_cons_of_mem _ hl)).imp (fun hr => ?_) fun he => hb.trans he
        simpa only [State.resident, hb] using hr
    obtain ⟨hin, hstay⟩ := ih _ htail
    refine ⟨fun l hl => ?_, fun k hk => hstay k (hempty k hk)⟩
    rcases List.mem_cons.1 hl with rfl | hl
    · exact hstay l hhead
    · exact hin l hl

theorem dropParts_rest (id : Nat) (ls : List Loc) (s : State) : (ls.foldl (fun s l => s.dropPart id l) s).mem = s.mem
    ∧ (ls.foldl (fun s l => s.dropPart id l) s).launches = s.launches ∧ (ls.foldl (fun s l => s.dropPart id l) s).dtime = s.dtime :=
  List.foldlRecOn (motive := fun t : State => t.mem = s.mem ∧ t.launches = s.launches ∧ t.dtime = s.dtime) _ _ ⟨rfl, rfl, rfl⟩ fun t h l _ => by
    obtain ⟨hm, hl, hd⟩ := h
    obtain ⟨h1, h2, h3⟩ := dropPart_rest t id l
    exact ⟨h1.trans hm, h2.trans hl, h3.trans hd⟩

/-- A launch that has ended on each of its cores, at a time. -/
def overAt (x : Launch) (now : Nat) : Launch := { x with ended := x.cores.map (fun l : Loc => l.core), saved := [], iterQ := [], tend := now }

theorem overAt_live (x : Launch) (now : Nat) : (overAt x now).live = [] := by
  simp only [Launch.live, overAt, List.filter_eq_nil_iff, Bool.not_eq_true', Bool.not_eq_false, List.contains_iff_mem]
  exact fun l hl => List.mem_map_of_mem hl

/-- The package of which an ending launch's banks have gone. -/
def ended (u : State) (id : Nat) (here : List Loc) : State :=
  let s := here.foldl (fun s l => s.dropPart id l) u
  { s with transit := s.transit.filter (fun t => t.launch != id) }.modLaunch id (fun x => overAt x s.dtime)

theorem endLaunch_wound {s : State} {id : Nat} {x : Launch} (hx : s.launch id = some x) (hst : x.st = .ending) {here : List Loc} {u : State}
    (hh : here = x.live.filter (fun l => s.resident id l)) (hu : u = here.foldl (fun s l => s.wind l) ((s.stopInsts id).stopLaunch id))
    (hw : here.all u.wound = true) : s.endLaunch id = ended u id here := by
  subst hh hu
  unfold State.endLaunch
  rw [hx]
  dsimp only
  rw [if_neg (by simp [hst]), hw]
  rfl

theorem stay_wound (s : State) (id : Nat) (here : List Loc) : Stay s (here.foldl (fun s l => s.wind l) ((s.stopInsts id).stopLaunch id)) :=
  (stay_stopInsts s id).trans (Stay.trans (.of_launches (stopLaunch_launches ..)) (Stay.foldl _ (fun _ _ => stay_wind ..) _ _))

/-- What is left of an ending launch whose banks have gone. -/
theorem ended_spec {u : State} {id : Nat} {here : List Loc} {z : Launch} (hz : u.launch id = some z) (hr : ∀ l ∈ here, u.resident id l = true) :
    (ended u id here).mem = u.mem ∧ (∀ l ∈ here, (ended u id here).bank l = {}) ∧ (∀ g ∈ (ended u id here).transit, g.launch ≠ id)
      ∧ (ended u id here).launch id = some (overAt z u.dtime) := by
  obtain ⟨hmem, hls, hd⟩ := dropParts_rest id here u
  refine ⟨hmem, fun l hl => (dropParts_bank id here u fun l hl => .inl (hr l hl)).1 l hl, fun g hg => ?_, ?_⟩
  · simpa using (List.mem_filter.1 hg).2
  · rw [← hd]
    refine launch_modLaunch_same (x := z) ?_ (show z.id = id from launch_id hz)
    rw [State.launch, hls]
    exact hz

end Sys2Proof.Sequencer

/-!
SUPPORT. A launch is DONE (05 R171 step 5, R173; 15 R487, R488): its record is stored, its queue's completion index moves, its interrupt is sent. What each
of the three leaves unchanged is said once.
-/

namespace Sys2Proof.Sequencer
open Sys2Proof.Machine

/-! ## What a store of the launch machinery leaves (05 R506) -/

/-- The queues, the registers and the launches of the package are as they were. -/
def SameHost (s t : State) : Prop := t.queues = s.queues ∧ t.regs = s.regs ∧ t.launches = s.launches ∧ t.graphs = s.graphs

theorem SameHost.trans {s t u : State} (h : SameHost s t) (k : SameHost t u) : SameHost s u := by
  obtain ⟨h1, h2, h3, h4⟩ := h
  obtain ⟨k1, k2, k3, k4⟩ := k
  exact ⟨k1.trans h1, k2.trans h2, k3.trans h3, k4.trans h4⟩

theorem SameHost.refl (s : State) : SameHost s s := ⟨rfl, rfl, rfl, rfl⟩

theorem sameHost_walkFor (s : State) (ctx va : Nat) (w : Bool) : SameHost s (s.walkFor ctx va w).1 := by
  unfold State.walkFor
  split_ifs
  · exact .refl s
  · split
    · exact .refl s
    · dsimp only
      split
      · exact ⟨rfl, rfl, rfl, rfl⟩
      · exact ⟨rfl, rfl, rfl, rfl⟩
      · split_ifs <;> exact ⟨rfl, rfl, rfl, rfl⟩

theorem sameHost_walkParts (ctx : Nat) (w : Bool) (homes : List Nat) (l : List (Nat × Nat)) : ∀ s : State, SameHost s (s.walkParts ctx w homes l).1 := by
  induction l with
  | nil => exact SameHost.refl
  | cons p t ih =>
    intro s
    have hw := sameHost_walkFor s ctx p.1 w
    unfold State.walkParts
    rcases hf : s.walkFor ctx p.1 w with ⟨s', r⟩
    rw [hf] at hw
    have hp := ih s'
    rcases hq : s'.walkParts ctx w homes t with ⟨s'', r'⟩
    rw [hq] at hp
    cases r with
    | fault c => exact hw
    | page v =>
      dsimp only
      rw [hq]
      cases r' <;> exact hw.trans hp
    | ok pa =>
      dsimp only
      split_ifs
      · exact hw
      · rw [hq]
        cases r' <;> exact hw.trans hp

theorem sameHost_writePa (s : State) (a : Nat) (d : List Byte) : SameHost s (s.writePa a d) := by
  obtain ⟨c, w, h⟩ := endWatches_rest { s with mem := spPutN 0 s.mem a d, bad := clearBad (unitOf a) s.bad a d.length } a d.length
  rw [State.writePa, h]
  exact ⟨rfl, rfl, rfl, rfl⟩

theorem sameHost_writeRngs (r : List Rng) : ∀ (s : State) (d : List Byte), SameHost s (s.writeRngs r d) := by
  induction r with
  | nil => exact fun s _ => .refl s
  | cons x t ih =>
    intro s d
    refine SameHost.trans ?_ (ih _ _)
    cases x.pl with
    | sp0 l o => exact ⟨rfl, rfl, rfl, rfl⟩
    | pa a => exact sameHost_writePa ..

theorem sameHost_mwrite (s : State) (ctx va : Nat) (d : List Byte) : SameHost s (s.mwrite ctx va d) := by
  have hw : SameHost s (s.walkAll ctx va d.length true [0, 1]).1 := by
    unfold State.walkAll
    split_ifs
    · exact .refl s
    · exact sameHost_walkParts ..
  unfold State.mwrite
  split
  · next h => rw [h] at hw; exact hw.trans (sameHost_writeRngs ..)
  · next h => rw [h] at hw; exact hw

/-- What the launch machinery stores at one range stands there. -/
theorem readPa_mwrite {s v : State} {ctx va a : Nat} {d : List Byte} {w : Option Nat} {pg : Nat}
    (h : s.walkAll ctx va d.length true [0, 1] = (v, .ok [⟨.pa a, d.length, w, pg⟩])) : (s.mwrite ctx va d).readPa a d.length = d := by
  unfold State.mwrite
  rw [h]
  simp only [State.writeRngs, State.writePl, List.take_length]
  exact readPa_writePa ..

/-! ## The record (15 R488) -/

theorem length_leBytes (n : Nat) : ∀ x, (leBytes n x).length = n := by
  induction n with
  | zero => exact fun _ => rfl
  | succ n ih => exact fun x => congrArg (· + 1) (ih _)

/-- A record is its packet's tag, its status, and 59 bytes more. -/
theorem recordBytes_eq (tag status fault fcore fword nfault : Nat) (pcs : List Nat) (iters tdisp tend detail step node : Nat) :
    ∃ l : List Byte, l.length = 59 ∧ recordBytes tag status fault fcore fword nfault pcs iters tdisp tend detail step node = leBytes 4 tag ++ leBytes 1 status ++ l := by
  refine ⟨leBytes 1 fault ++ leBytes 2 fcore ++ leBytes 2 fword ++ leBytes 2 nfault ++ (upTo 6).flatMap (fun i => leBytes 2 (pcs.getD i 0)) ++ leBytes 8 iters
    ++ leBytes 8 tdisp ++ leBytes 8 tend ++ leBytes 8 detail ++ leBytes 4 step ++ leBytes 2 node ++ leBytes 2 0, ?_, ?_⟩
  · have hp : ((upTo 6).flatMap (fun i => leBytes 2 (pcs.getD i 0))).length = 12 := by simp [length_leBytes, upTo, natsFrom]
    simp only [List.length_append, length_leBytes, hp]
  · simp only [recordBytes, List.append_assoc]

theorem launchRecord_eq (s : State) (x : Launch) : ∃ l : List Byte, l.length = 59 ∧ s.launchRecord x = leBytes 4 x.pkt.tag ++ leBytes 1 (s.statusOf x) ++ l := by
  unfold State.launchRecord
  exact recordBytes_eq ..

theorem launchRecord_spec (s : State) (x : Launch) : (s.launchRecord x).length = 64
    ∧ (∀ k : Fin 4, (s.launchRecord x).getD k.val 0 = BitVec.ofNat 8 (x.pkt.tag / 256 ^ k.val))
    ∧ (s.launchRecord x).getD 4 0 = BitVec.ofNat 8 (x.status + (if x.pkt.deadline < s.dtime then 128 else 0)) := by
  obtain ⟨l, hl, hr⟩ := launchRecord_eq s x
  rw [hr]
  refine ⟨by simp [length_leBytes, hl], fun k => ?_, ?_⟩
  · fin_cases k <;> simp [leBytes, Nat.div_div_eq_div_mul]
  · have hstatus : s.statusOf x = x.status + (if x.pkt.deadline < s.dtime then 128 else 0) := by
      unfold State.statusOf bit
      split_ifs <;> simp_all
    simp [leBytes, hstatus]

/-! ## A queue whose packet completes (05 R135) -/

theorem advance_fn_vec (n : Nat) : ∀ q : Queue, (advance n q).fn = q.fn ∧ (advance n q).vec = q.vec := by
  induction n with
  | zero => exact fun _ => ⟨rfl, rfl⟩
  | succ n ih =>
    intro q
    unfold advance
    split_ifs
    · exact ih _
    · exact ⟨rfl, rfl⟩

theorem complete_fn_vec (q : Queue) (slot : Nat) : (q.complete slot).fn = q.fn ∧ (q.complete slot).vec = q.vec := by
  unfold Queue.complete
  split_ifs
  · exact advance_fn_vec _ _
  · exact ⟨rfl, rfl⟩

theorem queue_setQueue_same (s : State) (q : Nat) (x : Queue) : (s.setQueue q x).queue q = x := spGet_spPut_same ..

/-! ## A launch that is DONE -/

/-- A launch with its time of end. -/
def timed (s : State) (x : Launch) : Launch := if x.tend = 0 then { x with tend := s.dtime } else x

/-- Its record stored, where it may be. -/
def recorded (s : State) (x : Launch) : State := if s.hasRecord x.pkt.ctx x.fn x.pkt.crec then s.mwrite x.pkt.ctx x.pkt.crec (s.launchRecord x) else s

/-- Its packet complete in its queue. -/
def indexed (s : State) (x : Launch) : State := if x.queue < 64 then s.setQueue x.queue ((s.queue x.queue).complete x.slot) else s

/-- The queue whose vector its interrupt has. -/
def vectorOf (s : State) (x : Launch) : Nat :=
  match x.node with
  | some (g, _) => ((s.graphs.find? (fun y : Graph => y.id == g)).map (·.queue)).getD x.queue
  | none => x.queue

/-- Its interrupt sent. -/
def notified (s : State) (x : Launch) (q : Nat) : State := if x.pkt.notify then s.msix (s.queue q).fn (s.queue q).vec else s

/-- Its node counted in its graph, if it is one. -/
def noted (s : State) (x : Launch) : State :=
  match x.node with
  | some (g, n) => { s with graphs := s.graphs.map (fun y : Graph => if y.id = g then y.nodeDone n x.step (s.statusOf x) else y) }
  | none => s

/-- All of it. -/
def closed (s : State) (x : Launch) : State := noted (notified (indexed (recorded s x) x) x (vectorOf (recorded s x) x)) x

section
variable (s : State) (x : Launch)

theorem timed_eq : timed s x = { x with tend := if x.tend = 0 then s.dtime else x.tend } := by
  unfold timed
  split <;> rfl

theorem finish_eq {id : Nat} (hx : s.launch id = some x) :
    s.finish id = (closed s (timed s x)).modLaunch id (fun _ => { timed s x with st := .done }) := by
  unfold State.finish
  rw [hx]
  rfl

theorem sameHost_recorded : SameHost s (recorded s x) := by
  unfold recorded
  split
  · exact sameHost_mwrite ..
  · exact .refl s

theorem indexed_rest : (indexed s x).regs = s.regs ∧ (indexed s x).launches = s.launches ∧ (indexed s x).mem = s.mem := by
  unfold indexed
  split
  · exact ⟨setQueue_regs .., setQueue_launches .., setQueue_mem ..⟩
  · exact ⟨rfl, rfl, rfl⟩

theorem indexed_queue (h : x.queue < 64) : (indexed s x).queue x.queue = (s.queue x.queue).complete x.slot := by
  unfold indexed
  rw [if_pos h, queue_setQueue_same]

theorem indexed_fn_vec : ((indexed s x).queue x.queue).fn = (s.queue x.queue).fn ∧ ((indexed s x).queue x.queue).vec = (s.queue x.queue).vec := by
  by_cases h : x.queue < 64
  · rw [indexed_queue s x h]
    exact complete_fn_vec ..
  · rw [indexed, if_neg h]
    exact ⟨rfl, rfl⟩

theorem notified_rest (q : Nat) : (notified s x q).queues = s.queues ∧ (notified s x q).launches = s.launches ∧ (notified s x q).mem = s.mem := by
  unfold notified
  split <;> exact ⟨rfl, rfl, rfl⟩

theorem notified_msix (q : Nat) :
    (notified s x q).regs.msix = s.regs.msix ++ (if x.pkt.notify then [((s.queue q).fn, (s.queue q).vec)] else []) := by
  unfold notified
  split
  · rfl
  · simp

theorem noted_rest : (noted s x).queues = s.queues ∧ (noted s x).launches = s.launches ∧ (noted s x).mem = s.mem ∧ (noted s x).regs = s.regs := by
  unfold noted
  split <;> exact ⟨rfl, rfl, rfl, rfl⟩

theorem queue_of_queues {s t : State} (h : t.queues = s.queues) (q : Nat) : t.queue q = s.queue q := by rw [State.queue, h]; rfl

theorem closed_launches : (closed s x).launches = s.launches := by
  obtain ⟨-, -, hr, -⟩ := sameHost_recorded s x
  exact ((noted_rest ..).2.1.trans (notified_rest ..).2.1).trans ((indexed_rest ..).2.1.trans hr)

theorem closed_mem : (closed s x).mem = (recorded s x).mem := ((noted_rest ..).2.2.1.trans (notified_rest ..).2.2).trans (indexed_rest ..).2.2

theorem closed_queue (h : x.queue < 64) : (closed s x).queue x.queue = (s.queue x.queue).complete x.slot := by
  obtain ⟨hr, -⟩ := sameHost_recorded s x
  rw [closed, queue_of_queues ((noted_rest ..).1.trans (notified_rest ..).1), indexed_queue _ _ h, queue_of_queues hr]

theorem closed_msix (h : x.node = none) :
    (closed s x).regs.msix = s.regs.msix ++ (if x.pkt.notify then [((s.queue x.queue).fn, (s.queue x.queue).vec)] else []) := by
  obtain ⟨hq, hr, -⟩ := sameHost_recorded s x
  obtain ⟨hfn, hvec⟩ := indexed_fn_vec (recorded s x) x
  rw [closed, (noted_rest ..).2.2.2, show vectorOf (recorded s x) x = x.queue by rw [vectorOf, h], notified_msix, hfn, hvec, (indexed_rest ..).1, hr,
    queue_of_queues hq]

end

section
variable {s : State} {x : Launch} {id : Nat}

theorem finish_launch (hx : s.launch id = some x) : (s.finish id).launch id = some { timed s x with st := .done } := by
  have hid : (timed s x).id = id := Eq.trans (b := x.id) (by rw [timed_eq]) (launch_id hx)
  rw [finish_eq s x hx]
  refine launch_modLaunch_same (x := x) ?_ hid
  rw [State.launch, closed_launches]
  exact hx

theorem finish_queue (hx : s.launch id = some x) (hq : x.queue < 64) : (s.finish id).queue x.queue = (s.queue x.queue).complete x.slot := by
  have hc := closed_queue s (timed s x) (by rw [timed_eq]; exact hq)
  rw [finish_eq s x hx]
  rwa [timed_eq] at hc ⊢

theorem finish_msix (hx : s.launch id = some x) (hnode : x.node = none) :
    (s.finish id).regs.msix = s.regs.msix ++ (if x.pkt.notify then [((s.queue x.queue).fn, (s.queue x.queue).vec)] else []) := by
  have hc := closed_msix s (timed s x) (by rw [timed_eq]; exact hnode)
  rw [finish_eq s x hx]
  rwa [timed_eq] at hc ⊢

theorem finish_record (hx : s.launch id = some x) (hrec : s.hasRecord x.pkt.ctx x.fn x.pkt.crec = true) {v : State} {a pg : Nat} {w : Option Nat}
    (hw : s.walkAll x.pkt.ctx x.pkt.crec 64 true [0, 1] = (v, .ok [⟨.pa a, 64, w, pg⟩])) :
    (s.finish id).readPa a 64 = s.launchRecord (timed s x) := by
  have hlen := (launchRecord_spec s (timed s x)).1
  have hpkt : (timed s x).pkt = x.pkt := by rw [timed_eq]
  have hfn : (timed s x).fn = x.fn := by rw [timed_eq]
  have hr : recorded s (timed s x) = s.mwrite x.pkt.ctx x.pkt.crec (s.launchRecord (timed s x)) := by
    rw [recorded, hpkt, hfn, if_pos hrec]
  rw [← hlen] at hw
  rw [finish_eq s x hx, State.readPa, modLaunch_mem, closed_mem, hr, ← hlen]
  exact readPa_mwrite hw

end

/-! ## A cancelled launch (15 R487, R493) -/

theorem cancel_queued {s : State} {x : Launch} (hx : s.launch x.id = some x) (hst : x.st = .queued) : DoneWith (s.cancelLaunch x) x.id 5 := by
  have hh : (s.takeHead x).launch x.id = some x := by
    unfold State.takeHead
    split <;> exact hx
  have hm : ((s.takeHead x).modLaunch x.id (fun y => { y with status := 5, tend := s.dtime })).launch x.id = some { x with status := 5, tend := s.dtime } :=
    launch_modLaunch_same hh rfl
  have hc : s.cancelLaunch x = ((s.takeHead x).modLaunch x.id (fun y => { y with status := 5, tend := s.dtime })).finish x.id := by
    unfold State.cancelLaunch
    rw [hst]
    dsimp only
    rw [State.completeNow, hx]
  rw [hc]
  exact ⟨_, finish_launch hm, rfl, by rw [timed_eq]⟩

theorem cancel_under_way {s : State} {x : Launch} (hx : s.launch x.id = some x) (hst : x.st = .running ∨ x.st = .dispatch ∨ x.st = .preempted) :
    (∃ y, (s.cancelLaunch x).launch x.id = some y ∧ y.st = .ending ∧ y.status = 5)
      ∧ ∀ l, (s.bank l).launch = some x.id → ((s.cancelLaunch x).bank l).st ≠ .run := by
  have hc : s.cancelLaunch x = (s.modLaunch x.id (fun x => { x with st := .ending, status := 5, preq := false })).stopLaunch x.id := by
    unfold State.cancelLaunch
    rcases hst with h | h | h <;> rw [h]
  rw [hc]
  refine ⟨⟨_, launch_modLaunch_same hx rfl, rfl, rfl⟩, fun l hl => ?_⟩
  rw [bank_stopLaunch, stopRun_st]
  split_ifs with h
  · decide
  · exact fun e => h ⟨hl, e⟩

end Sys2Proof.Sequencer

/-!
SUPPORT. The statement about halts, saves, ends and records (05 R166, R168, R171 to R175; 15 R487, R488), from the lemmas about each event.
-/

namespace Sys2Proof.Sequencer
open Sys2Proof.Machine

theorem recordLaunch_eq {s : State} {id : Nat} {x : Launch} (hx : s.launch id = some x) (hst : x.st = .ending) (hlive : x.live = []) :
    exec (.completionRecord id) s = .next ((s.finish id).sweepEnded).arbiter := by
  rw [exec_completionRecord, execCompletionRecord, State.recordLaunch, hx]
  dsimp only
  rw [if_pos ⟨hst, by rw [hlive]; rfl⟩]

/-- A write of `QCANCEL` by a function that may, of a packet that has not completed. -/
theorem qcancel_eq {s : State} {fn : Fin 17} {q : Fin 64} {v : BitVec 64} {x : Launch} (hopen : s.regsOpen fn = true)
    (hfn : fn = 0 ∨ fn.val = (s.queue q.val).fn)
    (hx : s.launches.find? (fun x => x.queue == q.val && x.slot == v.toNat % 2 ^ 32 && x.st != .done) = some x) :
    exec (.qcancel fn q v) s = .next (s.cancelLaunch x).arbiter := by
  have hno : ¬ (!s.regsOpen fn || (fn != 0 && fn.val != (s.queue q.val).fn)) = true := by
    rw [hopen]
    rcases hfn with h | h <;> simp [h]
  rw [exec_qcancel, execQcancel]
  dsimp only
  rw [if_neg hno, State.cancel]
  dsimp only
  rw [hx]

/-- Settles O49: each event of a launch's end, by what it says of the launch, its banks and its queue. -/
theorem launchEnds : Obligations.LaunchEnds := by
  unfold Obligations.LaunchEnds
  refine ⟨?halts, ?saves, ?barrier, ?watchdog, ?ends, ?records, ?cancels⟩
  case halts =>
    intro s l x b other hl hx hst hbst hflt hout hpf hcalm hmid hreqs hfan htransit hsubs hslots ho hos
    have hq : Halts s l := ⟨hbst, hflt, hout, hpf, hcalm, hmid, hreqs, hfan, htransit, hsubs, hslots⟩
    obtain ⟨hexec, hmem, hrun⟩ := coreHalted_quiet hq hl hx hst ho hos
    exact ⟨_, hexec, hmem, hrun, fun hp => halted_running hx hp, fun hp _ hothers => halted_preempted hx hst hp hothers⟩
  case saves =>
    intro s l x b hl hst hxst hout hreqs hinsts
    obtain ⟨u, y, kept, hexec, hbank, hy, hsaved⟩ := evictionSaved_saves ⟨hl, hst, hxst, hout, hreqs, hinsts⟩
    exact ⟨u, y, kept, hexec, hbank, hy, hsaved, fun e => packed_walk b kept e⟩
  case barrier =>
    intro s x lvl place l a hx hst ha hto hl hflt
    refine ⟨_, _, barrierTimeout_faults hx hst ha hto hl, faultAt_mem .., faultAt_flt hflt .., fun p hp harr => ?_⟩
    have hlate : p.core ∈ ((x.members lvl place).filter (fun l => (s.bank l).arrivals lvl ≤ (x.bar lvl place).gen)).map (·.core) :=
      List.mem_map_of_mem (List.mem_filter.2 ⟨hp, decide_eq_true harr⟩)
    obtain ⟨hle, hin⟩ := min?_getD_spec hlate
    obtain ⟨r, hr, hcore⟩ := List.mem_map.1 hin
    obtain ⟨hmem, hle'⟩ := List.mem_filter.1 hr
    exact ⟨hle, r, hmem, hcore, of_decide_eq_true hle'⟩
  case watchdog =>
    intro s core k hrun l b
    refine ⟨fun hw => ?_, fun hw hst hflt => ⟨_, b.laggard, (watchdogExpiry_eq hrun).trans (by rw [if_pos ⟨hst, hw⟩]), faultAt_mem .., faultAt_flt hflt ..,
      fun f => laggard_least b f⟩⟩
    rw [watchdogExpiry_eq hrun, if_neg fun h => Nat.not_lt.2 h.2 hw]
  case ends =>
    intro s id x hx hst here u hw hr
    obtain ⟨z, hz⟩ := (stay_wound s id here).launch hx
    obtain ⟨hmem, hbank, htransit, hlaunch⟩ := ended_spec hz hr
    refine ⟨ended u id here, overAt z u.dtime, ?_, hmem, hbank, htransit, hlaunch, overAt_live .., rfl, rfl⟩
    rw [exec_launchEnd, execLaunchEnd, endLaunch_wound hx hst rfl rfl hw]
  case records =>
    intro s id x hx hst hlive r
    obtain ⟨hlen, htag, hstatus⟩ := launchRecord_spec s { x with tend := if x.tend = 0 then s.dtime else x.tend }
    refine ⟨_, recordLaunch_eq hx hst hlive, ⟨_, finish_launch hx, rfl⟩, finish_queue hx, finish_msix hx, fun v a va pg hrec hw => ?_, hlen, htag, hstatus⟩
    exact (finish_record hx hrec hw).trans (by rw [timed_eq])
  case cancels =>
    intro s fn q v x hopen hfn hfind hx
    exact ⟨_, qcancel_eq hopen hfn hfind, cancel_queued hx, cancel_under_way hx⟩

end Sys2Proof.Sequencer

/-!
SUPPORT. The events of a launch's start (05), and a launch that completes before it has run (05 R138, R140, R161): what that leaves of the queues and of the other
launches.
-/

namespace Sys2Proof.Sequencer
open Sys2Proof.Machine

/-! ## The events -/

theorem exec_qwidxWrite (fn : Fin 17) (q : Fin 64) (v : BitVec 64) (s : State) : exec (.qwidxWrite fn q v) s = execQwidxWrite fn q v s := by rfl
theorem exec_packetCheck (q : Fin 64) (s : State) : exec (.packetCheck q) s = .next (s.checkPacket q.val) := by rfl
theorem exec_headerCheck (q : Fin 64) (s : State) : exec (.headerCheck q) s = execHeaderCheck q s := by rfl
theorem exec_deadlineReached (s : State) : exec .deadlineReached s = .next s.arbiter := by rfl
theorem exec_bankLoaded (l : Loc) (s : State) : exec (.bankLoaded l) s = .next (s.loadBank l) := by rfl
theorem exec_meridianGraphStart (q : Fin 64) (s : State) : exec (.meridianGraphStart q) s = execMeridianGraphStart q s := by rfl
theorem exec_meridianNodeReady (g n : Nat) (s : State) : exec (.meridianNodeReady g n) s = .next (s.submitNode g n) := by rfl
theorem exec_meridianGraphStop (g : Nat) (s : State) : exec (.meridianGraphStop g) s = .next (s.stopGraph g) := by rfl

/-! ## Queues (05 R135, R136) -/

theorem queue_setQueue (s : State) (q p : Nat) (x : Queue) : (s.setQueue q x).queue p = if p = q then x else s.queue p := by
  split
  · next h => rw [h, queue_setQueue_same]
  · next h => exact spGet_spPut_ne _ _ _ h

theorem advance_ridx_en (n : Nat) : ∀ q : Queue, (advance n q).ridx = q.ridx ∧ (advance n q).en = q.en := by
  induction n with
  | zero => exact fun _ => ⟨rfl, rfl⟩
  | succ n ih =>
    intro q
    unfold advance
    split_ifs
    · exact ih _
    · exact ⟨rfl, rfl⟩

theorem complete_ridx_en (q : Queue) (slot : Nat) : (q.complete slot).ridx = q.ridx ∧ (q.complete slot).en = q.en := by
  unfold Queue.complete
  split_ifs
  · exact advance_ridx_en _ _
  · exact ⟨rfl, rfl⟩

/-- A read index that stands on a packet that has not completed stays. -/
theorem skipDone_pending {q : Queue} (hdone : q.ridx ∉ q.done) (hahead : q.cidx = q.ridx ∨ 2 ^ q.lg < (q.cidx + 2 ^ 32 - q.ridx) % 2 ^ 32) (n : Nat) :
    skipDone n q = q := by
  cases n with
  | zero => rfl
  | succ n =>
    rw [skipDone, if_neg]
    simp only [Bool.or_eq_true, Bool.and_eq_true, List.contains_iff_mem, bne_iff_ne, decide_eq_true_eq, not_or, not_and, Nat.not_le]
    exact ⟨hdone, fun hne => hahead.resolve_left hne⟩

/-! ## A launch that is DONE: its queue and the other launches -/

theorem finish_launches {s : State} {id : Nat} {x : Launch} (hx : s.launch id = some x) :
    (s.finish id).launches = s.launches.map (fun y => if y.id = id then { timed s x with st := .done } else y) := by
  rw [finish_eq s x hx, State.modLaunch]
  simp only [closed_launches]

/-- The read index and the enable of every queue are as they were. -/
def SameHeads (s t : State) : Prop := ∀ q, (t.queue q).ridx = (s.queue q).ridx ∧ (t.queue q).en = (s.queue q).en

theorem SameHeads.of_queues {s t : State} (h : t.queues = s.queues) : SameHeads s t := fun q => by
  rw [queue_of_queues h]
  exact ⟨rfl, rfl⟩

theorem SameHeads.trans {s t u : State} (h : SameHeads s t) (k : SameHeads t u) : SameHeads s u := fun q =>
  ⟨(k q).1.trans (h q).1, (k q).2.trans (h q).2⟩

theorem sameHeads_indexed (s : State) (x : Launch) : SameHeads s (indexed s x) := fun q => by
  unfold indexed
  split
  · rw [queue_setQueue]
    split
    · next h => rw [h]; exact complete_ridx_en ..
    · exact ⟨rfl, rfl⟩
  · exact ⟨rfl, rfl⟩

theorem sameHeads_finish {s : State} {id : Nat} {x : Launch} (hx : s.launch id = some x) : SameHeads s (s.finish id) := by
  obtain ⟨hr, -⟩ := sameHost_recorded s (timed s x)
  have hq : (closed s (timed s x)).queues = (indexed (recorded s (timed s x)) (timed s x)).queues := (noted_rest ..).1.trans (notified_rest ..).1
  rw [finish_eq s x hx]
  exact (SameHeads.of_queues hr).trans (SameHeads.trans (sameHeads_indexed _ _) (.of_queues hq))

/-! ## A queued launch that completes at once (05 R138, R140, R161) -/

/-- The launch with its status and its end, its packet taken. -/
def closing (s : State) (x : Launch) (status : Nat) : State := (s.takeHead x).modLaunch x.id (fun y => { y with status, tend := s.dtime })

theorem takeHead_launches (s : State) (x : Launch) : (s.takeHead x).launches = s.launches := by
  unfold State.takeHead
  split <;> rfl

theorem takeHead_mem (s : State) (x : Launch) : (s.takeHead x).mem = s.mem := by
  unfold State.takeHead
  split <;> rfl

theorem takeHead_queue (s : State) (x : Launch) (q : Nat) : (s.takeHead x).queue q =
    if q = x.queue ∧ x.queue < 64 then { s.queue q with ridx := (x.slot + 1) % 2 ^ 32 } else s.queue q := by
  unfold State.takeHead
  split
  · next h => rw [queue_setQueue]; by_cases hq : q = x.queue <;> simp [hq, h]
  · next h => simp [h]

theorem takeHead_en (s : State) (x : Launch) (q : Nat) : ((s.takeHead x).queue q).en = (s.queue q).en := by
  rw [takeHead_queue]
  split <;> rfl

section
variable {s : State} {x : Launch} (status : Nat)

theorem completeNow_eq (hx : s.launch x.id = some x) : s.completeNow x.id status = (closing s x status).finish x.id := by
  rw [State.completeNow, hx]
  rfl

theorem closing_launch (hx : s.launch x.id = some x) : (closing s x status).launch x.id = some { x with status, tend := s.dtime } := by
  refine launch_modLaunch_same (x := x) ?_ rfl
  rw [State.launch, takeHead_launches]
  exact hx

theorem completeNow_done (hx : s.launch x.id = some x) : DoneWith (s.completeNow x.id status) x.id status := by
  rw [completeNow_eq status hx]
  exact ⟨_, finish_launch (closing_launch status hx), rfl, by rw [timed_eq]⟩

theorem completeNow_ridx (hx : s.launch x.id = some x) (hq : x.queue < 64) :
    ((s.completeNow x.id status).queue x.queue).ridx = (x.slot + 1) % 2 ^ 32 := by
  rw [completeNow_eq status hx, (sameHeads_finish (closing_launch status hx) _).1]
  change ((s.takeHead x).queue x.queue).ridx = _
  rw [takeHead_queue, if_pos ⟨rfl, hq⟩]

theorem completeNow_en (hx : s.launch x.id = some x) (q : Nat) : ((s.completeNow x.id status).queue q).en = (s.queue q).en := by
  rw [completeNow_eq status hx, (sameHeads_finish (closing_launch status hx) _).2]
  exact takeHead_en ..

/-- A launch that is there afterwards was there, or is the one that is DONE. -/
theorem completeNow_launches (hx : s.launch x.id = some x) {y : Launch} (hy : y ∈ (s.completeNow x.id status).launches) :
    (y.id ≠ x.id ∧ y ∈ s.launches) ∨ y.st = .done := by
  rw [completeNow_eq status hx, finish_launches (closing_launch status hx)] at hy
  obtain ⟨z, hz, rfl⟩ := List.mem_map.1 hy
  split
  · exact .inr rfl
  · next hne =>
    obtain ⟨w, hw, rfl⟩ := List.mem_map.1 (show z ∈ (s.takeHead x).launches.map _ from hz)
    rw [takeHead_launches] at hw
    by_cases hid : w.id = x.id
    · simp [hid] at hne
    · rw [if_neg hid] at hne ⊢
      exact .inl ⟨hne, hw⟩

end

end Sys2Proof.Sequencer

/-!
SUPPORT. From the doorbell to dispatch (05 R135 to R143, R161): the packet, the header, arbitration of one launch, and its placement.
-/

namespace Sys2Proof.Sequencer
open Sys2Proof.Machine

/-! ## The doorbell (05 R135; 15 R483, R487) -/

section
variable {s : State} {fn : Fin 17} {q : Fin 64} (v : BitVec 64)

/-- What a write of `QWIDX` does, by who writes and how far the index would go. -/
theorem qwidxWrite_eq : exec (.qwidxWrite fn q v) s = .next (
    if s.regsOpen fn = true ∧ (fn = 0 ∨ fn.val = (s.queue q.val).fn) then
      if 2 ^ (s.queue q.val).lg < (v.toNat % 2 ^ 32 + 2 ^ 32 - (s.queue q.val).cidx) % 2 ^ 32 then s.logEvent .queueOverrun 0 0 q.val
      else s.setQueue q.val { s.queue q.val with widx := v.toNat % 2 ^ 32 }
    else s) := by
  have hno : (!s.regsOpen fn || (fn != 0 && fn.val != (s.queue q.val).fn)) = true ↔ ¬ (s.regsOpen fn = true ∧ (fn = 0 ∨ fn.val = (s.queue q.val).fn)) := by
    cases s.regsOpen fn <;> simp
  rw [exec_qwidxWrite, execQwidxWrite]
  dsimp only
  by_cases h : s.regsOpen fn = true ∧ (fn = 0 ∨ fn.val = (s.queue q.val).fn)
  · rw [if_neg fun e => hno.1 e h, if_pos h]
  · rw [if_pos (hno.2 h), if_neg h]

end

/-! ## The packet (05 R136, R138) -/

/-- The launch of the packet that a queue's read index names. -/
def offer (s : State) (q : Nat) : Launch :=
  newLaunch (2 * s.nextId) q (s.queue q).ridx (s.queue q).fn (parsePacket (s.readPa ((s.queue q).slotAt (s.queue q).ridx) 256)) 0 none

/-- The package with the launch. -/
def offered (s : State) (q : Nat) : State := { (s.setQueue q (s.queue q)).newId.2 with launches := s.launches ++ [offer s q] }

theorem offered_queue (s : State) (q n : Nat) : (offered s q).queue n = s.queue n := by
  refine (queue_setQueue s q n (s.queue q)).trans ?_
  split
  · next h => rw [h]
  · rfl

/-- A launch that is new under its identifier is found behind the others. -/
theorem launch_append {s t : State} {x : Launch} (hl : t.launches = s.launches ++ [x]) (hnew : s.launch x.id = none) : t.launch x.id = some x := by
  rw [State.launch] at hnew ⊢
  rw [hl, List.find?_append, hnew]
  simp

/-- A packet waits at the head of a queue that is enabled, and no write of the host is on its way to it. -/
structure Offers (s : State) (q : Nat) : Prop where
  ready : s.regs.ready = .ready
  en : (s.queue q).en = true
  free : s.headOf q = none
  waits : (s.queue q).ridx ≠ (s.queue q).widx
  undone : (s.queue q).ridx ∉ (s.queue q).done
  ahead : (s.queue q).cidx = (s.queue q).ridx ∨ 2 ^ (s.queue q).lg < ((s.queue q).cidx + 2 ^ 32 - (s.queue q).ridx) % 2 ^ 32
  still : s.hostWrites ((s.queue q).slotAt (s.queue q).ridx) 256 = false

/-- A packet that can be read becomes a launch, which completes at once if it fails a check; one that cannot be read is passed over. -/
theorem checkPacket_head {s : State} {q : Nat} (h : Offers s q) : s.checkPacket q =
    if (!homesOk [0, 1] ((s.queue q).slotAt (s.queue q).ridx) 256 || (s.firstBad (.pa ((s.queue q).slotAt (s.queue q).ridx)) 256).isSome) = true then
      ((s.setQueue q (s.queue q)).logEvent .eccUncorr 0 0 ((s.queue q).slotAt (s.queue q).ridx)).setQueue q
        ({ s.queue q with ridx := ((s.queue q).ridx + 1) % 2 ^ 32 }.complete (s.queue q).ridx)
    else if s.packetBad (offer s q).pkt (s.queue q).fn = true then ((offered s q).completeNow (offer s q).id 3).arbiter
    else (offered s q).arbiter := by
  have hgo : ¬ (s.regs.ready ≠ .ready ∨ (!(s.queue q).en) = true ∨ (s.headOf q).isSome = true) := by simp [h.ready, h.en, h.free]
  have hstill : (s.setQueue q (s.queue q)).hostWrites ((s.queue q).slotAt (s.queue q).ridx) 256 ≠ true := by
    rw [show (s.setQueue q (s.queue q)).hostWrites _ 256 = s.hostWrites _ 256 from rfl, h.still]
    decide
  rw [State.checkPacket, skipDone_pending h.undone h.ahead]
  dsimp only
  rw [if_neg hgo, if_neg h.waits, if_neg hstill]
  rfl

/-! ## A read of the launch machinery (05 R506) -/

theorem sameHost_walkAll (s : State) (ctx va n : Nat) (w : Bool) (homes : List Nat) : SameHost s (s.walkAll ctx va n w homes).1 := by
  unfold State.walkAll
  split_ifs
  · exact .refl s
  · exact sameHost_walkParts ..

theorem sameHost_mread {s u : State} {ctx va n : Nat} {r : MRes} (h : s.mread ctx va n = (u, r)) (hr : ∀ a, r ≠ .bad a) : SameHost s u := by
  have hw := sameHost_walkAll s ctx va n false [0, 1]
  unfold State.mread at h
  split at h
  · next e => rw [e] at hw; cases h; exact hw
  · next e => rw [e] at hw; cases h; exact hw
  · next e =>
    rw [e] at hw
    split at h
    · cases h; exact absurd rfl (hr _)
    · cases h; exact hw

theorem sameHost_reads {s u : State} {ctx va n : Nat} {d : List Byte} (h : Reads s ctx va n u d) : SameHost s u :=
  sameHost_mread h fun _ e => MRes.noConfusion e

theorem SameHost.launch {s t : State} (h : SameHost s t) (id : Nat) : t.launch id = s.launch id := by
  obtain ⟨-, -, hl, -⟩ := h
  rw [State.launch, hl]
  rfl

/-! ## The header (05 R140, R141) -/

/-- A launch whose header is still to be read. -/
structure Unread (s : State) (x : Launch) : Prop where
  found : s.launch x.id = some x
  queued : x.st = .queued
  hdr : x.hdr = none
  pf : x.pf = none
  typ : x.pkt.typ = 0

theorem headOf_queued {s : State} {q : Nat} {x : Launch} (h : s.headOf q = some x) : x.st = .queued := by
  have hx := List.find?_some h
  simp only [Bool.and_eq_true, beq_iff_eq] at hx
  exact hx.1.2

/-- Its header is read. -/
theorem Unread.goes {s : State} {x : Launch} (h : Unread s x) : ¬ (x.st ≠ .queued ∨ x.hdr.isSome = true ∨ x.pf.isSome = true ∨ x.pkt.typ ≠ 0) := by
  simp [h.queued, h.hdr, h.pf, h.typ]

section
variable {s u : State} {x : Launch} (h : Unread s x)
include h

theorem checkHeader_kept {d : List Byte} {hd : Header} (hr : Reads s x.pkt.ctx x.pkt.image 256 u d) (hp : parseHeader d x.pkt.image = some hd)
    (hfit : hd.stages ≤ u.coreCount x.pkt) : s.checkHeader x.id = (u.modLaunch x.id (fun x => { x with hdr := some hd })).arbiter := by
  rw [State.checkHeader, h.found]
  dsimp only
  rw [if_neg h.goes, show s.mread _ _ _ = _ from hr]
  dsimp only
  rw [hp]
  exact if_neg (Nat.not_lt.2 hfit)

theorem checkHeader_bad {d : List Byte} (hr : Reads s x.pkt.ctx x.pkt.image 256 u d)
    (hp : ∀ hd, parseHeader d x.pkt.image = some hd → u.coreCount x.pkt < hd.stages) : s.checkHeader x.id = (u.completeNow x.id 4).arbiter := by
  rw [State.checkHeader, h.found]
  dsimp only
  rw [if_neg h.goes, show s.mread _ _ _ = _ from hr]
  dsimp only
  split
  · next hd e => rw [if_pos (hp hd e)]
  · rfl

theorem checkHeader_page {va : Nat} (hr : s.mread x.pkt.ctx x.pkt.image 256 = (u, .page va)) : s.checkHeader x.id = u.launchPage x.id va false := by
  rw [State.checkHeader, h.found]
  dsimp only
  rw [if_neg h.goes, hr]

end

/-- A launch that waits for a page names it, whether the fault is reported or waits for room in its function's queue. -/
theorem launchPage_launch {s : State} {x : Launch} (hx : s.launch x.id = some x) (va : Nat) (sched : Bool) :
    ∃ y p, (s.launchPage x.id va sched).launch x.id = some y ∧ y.pf = some p ∧ p.va = va := by
  have hm : (s.modLaunch x.id (fun x => { x with pf := some ⟨va, false, 11, true, false⟩, pfSched := sched })).launch x.id
      = some { x with pf := some ⟨va, false, 11, true, false⟩, pfSched := sched } := launch_modLaunch_same hx rfl
  rw [State.launchPage, State.reportLaunch, hm]
  dsimp only
  split
  · refine ⟨_, _, launch_modLaunch_same (x := { x with pf := some ⟨va, false, 11, true, false⟩, pfSched := sched }) ?_ rfl, rfl, rfl⟩
    rw [State.launch, appendFault_launches]
    exact hm
  · exact ⟨_, _, hm, rfl, rfl⟩

/-! ## Arbitration of one launch (05 R142, R161) -/

theorem mem_candidates {s : State} {y : Launch} : y ∈ s.candidates ↔ y ∈ s.launches ∧
    ((y.st = .queued ∧ y.hdr.isSome = true ∧ y.pkt.typ = 0 ∧ (64 ≤ y.queue ∨ (s.queue y.queue).en = true)) ∨ y.st = .preempted) := by
  simp [State.candidates, and_assoc]

/-- Once the one candidate is a candidate no more, none is left. -/
theorem candidates_nil {s t : State} {x : Launch} (hc : s.candidates = [x]) (hen : ∀ q, (t.queue q).en = (s.queue q).en)
    (hl : ∀ y ∈ t.launches, (y.id ≠ x.id ∧ y ∈ s.launches) ∨ y.st = .done ∨ y.st = .dispatch) : t.candidates = [] := by
  refine List.eq_nil_iff_forall_not_mem.2 fun y hy => ?_
  obtain ⟨hm, hst⟩ := mem_candidates.1 hy
  rcases hl y hm with ⟨hid, hold⟩ | h | h
  · have hs : y ∈ s.candidates := mem_candidates.2 ⟨hold, by rwa [hen] at hst⟩
    rw [hc, List.mem_singleton] at hs
    exact hid (congrArg Launch.id hs)
  · simp [h] at hst
  · simp [h] at hst

theorem arbitrate_nil {s : State} (h : s.candidates = []) (n : Nat) : arbitrate n s = s := by
  cases n with
  | zero => rfl
  | succ n => rw [arbitrate, h]; rfl

section
variable {s : State} {x : Launch} (hc : s.candidates = [x]) (hst : x.st = .queued)
include hc hst

theorem arbiter_missed (hm : s.late x = true ∧ x.pkt.miss = true) : s.arbiter = arbitrate s.launches.length (s.completeNow x.id 2) := by
  rw [State.arbiter, arbitrate, hc]
  simp only [State.firstOf]
  rw [if_pos ⟨hst, hm⟩]

theorem arbiter_dispatch {cores : List Nat} (hm : ¬ (s.late x = true ∧ x.pkt.miss = true)) (hf : s.fit x [] = some cores) :
    s.arbiter = arbitrate s.launches.length (s.dispatch x cores) := by
  rw [State.arbiter, arbitrate, hc]
  simp only [State.firstOf]
  rw [if_neg fun e => hm e.2, hf]
  dsimp only
  rw [if_neg (by rw [hst]; decide)]

end

/-! ## Placement (05 R142, R143) -/

/-- A bank as it is placed. -/
def placedBank (x : Launch) (place : Nat) : Bank :=
  { ({} : Bank) with
    st := .loading, launch := some x.id, ctx := x.pkt.ctx, hdr := x.hdr.getD {}
    seq := { ({} : SeqSt) with
      slipw := (x.hdr.getD {}).slipw, t0 := slotOrigin x.tdisp x.pkt.slotlen
      stage := if x.cores.length = 0 then 0 else place * (x.hdr.getD {}).stages / x.cores.length, place } }

theorem placeAt_eq (s : State) (x : Launch) (l : Loc) (place : Nat) : s.placeAt x l place = s.setBank l (placedBank x place) := rfl

/-- Every bank of a launch placed. -/
def placeAll (x : Launch) (ps : List (Loc × Nat)) (s : State) : State := ps.foldl (fun s p => s.placeAt x p.1 p.2) s

theorem placeAll_rest (x : Launch) (ps : List (Loc × Nat)) : ∀ s : State, (placeAll x ps s).launches = s.launches ∧ (placeAll x ps s).queues = s.queues := by
  induction ps with
  | nil => exact fun _ => ⟨rfl, rfl⟩
  | cons p t ih => exact fun s => ih _

theorem placeAll_bank_out (x : Launch) (ps : List (Loc × Nat)) {l : Loc} : ∀ s : State, l ∉ ps.map (·.1) → (placeAll x ps s).bank l = s.bank l := by
  induction ps with
  | nil => exact fun _ _ => rfl
  | cons p t ih =>
    intro s h
    obtain ⟨hp, ht⟩ := not_or.1 (List.mem_cons.not.1 h)
    exact (ih _ ht).trans (bank_setBank_ne _ _ hp)

theorem placeAll_bank (x : Launch) (ps : List (Loc × Nat)) {p : Loc × Nat} :
    ∀ s : State, (ps.map (·.1)).Nodup → p ∈ ps → (placeAll x ps s).bank p.1 = placedBank x p.2 := by
  induction ps with
  | nil => exact fun _ _ h => absurd h List.not_mem_nil
  | cons r t ih =>
    intro s hnd hp
    obtain ⟨hr, ht⟩ := List.nodup_cons.1 hnd
    rcases List.mem_cons.1 hp with rfl | hp
    · exact (placeAll_bank_out x t (s.placeAt x p.1 p.2) hr).trans (by rw [placeAt_eq, bank_setBank_same])
    · exact ih _ ht hp

/-- The banks that a launch gets on its cores. -/
def locsOn (s : State) (cores : List Nat) : List Loc := cores.map (fun c => ⟨c, s.freeBank c⟩)

theorem locsOn_cores (s : State) (cores : List Nat) : (locsOn s cores).map (·.core) = cores := by
  rw [locsOn, List.map_map]
  exact List.map_id _

theorem locsOn_nodup (s : State) {cores : List Nat} (h : cores.Nodup) : (locsOn s cores).Nodup :=
  List.Nodup.of_map (·.core) (by rwa [locsOn_cores])

/-- The launch as it is dispatched. -/
def dispatched (s : State) (x : Launch) (cores : List Nat) : Launch :=
  { x with st := .dispatch, cores := locsOn (s.takeHead x) cores, tdisp := s.dtime, key := s.rankOf x }

theorem takeHead_dtime (s : State) (x : Launch) : (s.takeHead x).dtime = s.dtime := by
  unfold State.takeHead
  split <;> rfl

theorem dispatch_eq (s : State) (x : Launch) (cores : List Nat) : s.dispatch x cores =
    placeAll (dispatched s x cores) ((locsOn (s.takeHead x) cores).zip (upTo (locsOn (s.takeHead x) cores).length))
      ((s.takeHead x).modLaunch x.id (fun _ => dispatched s x cores)) := by
  have ht := takeHead_dtime s x
  unfold State.dispatch dispatched
  dsimp only
  rw [ht]
  rfl

section
variable {s : State} {x : Launch} {cores : List Nat}

theorem dispatch_launch (hx : s.launch x.id = some x) : (s.dispatch x cores).launch x.id = some (dispatched s x cores) := by
  rw [dispatch_eq, State.launch, (placeAll_rest ..).1]
  refine launch_modLaunch_same (x := x) ?_ rfl
  rw [State.launch, takeHead_launches]
  exact hx

theorem dispatch_bank (hnd : cores.Nodup) {l : Loc} (hl : l ∈ (dispatched s x cores).cores) :
    ∃ place, (s.dispatch x cores).bank l = placedBank (dispatched s x cores) place := by
  have hzip : ((locsOn (s.takeHead x) cores).zip (upTo (locsOn (s.takeHead x) cores).length)).map (·.1) = locsOn (s.takeHead x) cores :=
    List.map_fst_zip (by simp)
  have hl' := hl
  rw [show (dispatched s x cores).cores = _ from hzip.symm] at hl'
  obtain ⟨p, hp, rfl⟩ := List.mem_map.1 hl'
  rw [dispatch_eq]
  exact ⟨p.2, placeAll_bank _ _ _ (by rw [hzip]; exact locsOn_nodup _ hnd) hp⟩

/-- Nothing is left to rank once the one candidate is dispatched. -/
theorem dispatch_candidates (hc : s.candidates = [x]) : (s.dispatch x cores).candidates = [] := by
  rw [dispatch_eq]
  refine candidates_nil hc (fun q => ?_) fun y hy => ?_
  · rw [queue_of_queues (placeAll_rest ..).2]
    exact takeHead_en ..
  · rw [(placeAll_rest ..).1] at hy
    obtain ⟨z, hz, rfl⟩ := List.mem_map.1 (show y ∈ (s.takeHead x).launches.map _ from hy)
    rw [takeHead_launches] at hz
    split
    · exact .inr (.inr rfl)
    · next hid => exact .inl ⟨hid, hz⟩

end

theorem completeNow_candidates {s : State} {x y : Launch} (hc : s.candidates = [x]) (hid : y.id = x.id) (hy : s.launch y.id = some y) (status : Nat) :
    (s.completeNow y.id status).candidates = [] := by
  refine candidates_nil hc (completeNow_en status hy) fun z hz => ?_
  rcases completeNow_launches status hy hz with h | h
  · exact .inl (hid ▸ h)
  · exact .inr (.inl h)

end Sys2Proof.Sequencer

/-!
SUPPORT. A placed bank gets its text, tables and schedule, or stands as it was saved (05 R143, R168), with what a restored bank keeps.
-/

namespace Sys2Proof.Sequencer
open Sys2Proof.Machine

/-! ## A bank gets its text, tables and schedule, or is restored (05 R143, R168) -/

/-- A bank that waits to be loaded, of a launch that is placed. -/
structure Loads (s : State) (l : Loc) (x : Launch) : Prop where
  launch : (s.bank l).launch.bind s.launch = some x
  loading : (s.bank l).st = .loading
  dispatch : x.st = .dispatch
  pf : x.pf = none

/-- It is loaded. -/
theorem Loads.goes {s : State} {l : Loc} {x : Launch} (h : Loads s l x) : ¬ ((s.bank l).st ≠ .loading ∨ x.st ≠ .dispatch ∨ x.pf.isSome = true) := by
  simp [h.loading, h.dispatch, h.pf]

section
variable {s : State} {l : Loc} {x : Launch} (h : Loads s l x)
include h

theorem loadBank_loaded {u v w : State} {text td sch : List Byte} (hs : assoc x.saved l.core = none)
    (ht : Reads s x.pkt.ctx (x.pkt.image + (s.bank l).hdr.textoff) (4 * (s.bank l).hdr.textlen) u text)
    (hd : Reads u x.pkt.ctx (x.pkt.image + (s.bank l).hdr.tdoff) (96 * (s.bank l).hdr.ntd) v td)
    (hc : Reads v x.pkt.ctx x.pkt.sched (32 * x.pkt.nsched) w sch)
    (hok : ((chunksOf 32 (x.pkt.nsched + 1) sch).map (schedOf (s.bank l).hdr (tableOf td))).all (·.isSome) = true) :
    s.loadBank l = ((w.setBank l ((s.bank l).loaded (sparseOf (numsOf 4 text)) (tableOf td)
      (((chunksOf 32 (x.pkt.nsched + 1) sch).map (schedOf (s.bank l).hdr (tableOf td))).filterMap id))).tryRun x.id).arbiter := by
  rw [State.loadBank, h.launch]
  dsimp only
  rw [if_neg h.goes, hs, show s.mread _ _ _ = _ from ht]
  dsimp only
  rw [show u.mread _ _ _ = _ from hd]
  dsimp only
  rw [show v.mread _ _ _ = _ from hc]
  dsimp only
  rw [if_pos hok]

theorem loadBank_restored {t : State} {k : Bank} {d : List Byte} (hs : assoc x.saved l.core = some k) (hr : s.restore l x k = (t, .ok d)) :
    s.loadBank l = (t.tryRun x.id).arbiter := by
  rw [State.loadBank, h.launch]
  dsimp only
  rw [if_neg h.goes, hs]
  dsimp only
  rw [hr]

end

/-- A bank stands in its place again, and its launch has it saved no more. -/
def backAt (s : State) (l : Loc) (x : Launch) (b : Bank) : State :=
  (s.setBank l { b with st := .ready, evict := false, seq := { b.seq with wdog := 0 } }).modLaunch x.id (fun x => { x with saved := assocDel x.saved l.core })

theorem backAt_bank (s : State) (l : Loc) (x : Launch) (b : Bank) :
    (backAt s l x b).bank l = { b with st := .ready, evict := false, seq := { b.seq with wdog := 0 } } := bank_setBank_same ..

theorem backAt_saved {s : State} {x : Launch} (hx : s.launch x.id = some x) (l : Loc) (b : Bank) :
    ∃ y, (backAt s l x b).launch x.id = some y ∧ assoc y.saved l.core = none := by
  refine ⟨{ x with saved := assocDel x.saved l.core }, launch_modLaunch_same (x := x) hx rfl, ?_⟩
  simp [assoc, assocDel, List.find?_filter]

section
variable {s u v w : State} {l : Loc} {x : Launch} {k : Bank}

theorem restore_kept (hk : k.seq.kept = true) : s.restore l x k = (backAt s l x k.unpacked, .ok []) := by
  rw [State.restore]
  dsimp only
  rw [if_pos hk]
  rfl

theorem restore_read {sp ac dr : List Byte} (hk : k.seq.kept = false) (hsp : Reads s x.pkt.ctx (saveBase x.pkt k.hdr l.core + saveRegs) k.hdr.spad u sp)
    (hac : Reads u x.pkt.ctx (saveBase x.pkt k.hdr l.core + saveRegs + k.hdr.spad) (10240 * k.hdr.acc) v ac)
    (hdr : Reads v x.pkt.ctx (saveBase x.pkt k.hdr l.core + saveRegs + k.hdr.spad + 10240 * k.hdr.acc) (80 * k.fab.drift.length) w dr) :
    s.restore l x k = (backAt w l x (k.unpacked.refilled sp ac dr), .ok []) := by
  rw [State.restore]
  dsimp only
  rw [if_neg (by rw [hk]; decide), show s.mread _ _ _ = _ from hsp]
  dsimp only
  rw [show u.mread _ _ _ = _ from hac]
  dsimp only
  rw [show v.mread _ _ _ = _ from hdr]
  rfl

end

/-! ## What a restored bank keeps -/

theorem unpacked_eng (b : Bank) (e : Engine) : (b.unpacked.eng e).pc = (b.eng e).pc ∧ (b.unpacked.eng e).walk = (b.eng e).walk + b.seq.wbase := by
  cases e <;> exact ⟨rfl, rfl⟩

theorem unpacked_part (b : Bank) {p : BankPart} (hp : p ≠ .own) : BankPart.same b.unpacked b p := by
  cases p <;> simp [BankPart.same, Bank.unpacked, Bank.entries] at hp ⊢

/-- A bank differs in the cells of its slots alone. -/
def OnlyCells (b c : Bank) : Prop := ∃ acc, c = { b with mx := { b.mx with acc } }

theorem onlyCells_accWrite (slot : Nat) (d : List Byte) : ∀ (off : Nat) (b : Bank), OnlyCells b (b.accWrite slot off d) := by
  induction d with
  | nil => exact fun _ b => ⟨b.mx.acc, rfl⟩
  | cons x t ih =>
    intro off b
    obtain ⟨acc, h⟩ := ih (off + 1) (b.setCell slot (off / 10) (cellByte (b.cell slot (off / 10)) (off % 10) x))
    exact ⟨acc, h⟩

theorem onlyCells_accWrites (l : List (Nat × List Byte)) : ∀ b : Bank, OnlyCells b (l.foldl (fun b p => b.accWrite p.1 0 p.2) b) := by
  induction l with
  | nil => exact fun b => ⟨b.mx.acc, rfl⟩
  | cons p t ih =>
    intro b
    obtain ⟨acc, h⟩ := onlyCells_accWrite p.1 p.2 0 b
    obtain ⟨acc', h'⟩ := ih (b.accWrite p.1 0 p.2)
    exact ⟨acc', by rw [List.foldl_cons, h', h]⟩

/-- A refilled bank has the share, the cells and the drift log of the save area, and the rest as it was. -/
theorem refilled_eq (b : Bank) (sp ac dr : List Byte) : ∃ acc drift,
    b.refilled sp ac dr = { b with acc := { b.acc with sp0 := spPutN 0 [] 0 sp }, mx := { b.mx with acc }, fab := { b.fab with drift } } := by
  obtain ⟨acc, h⟩ := onlyCells_accWrites ((upTo b.hdr.acc).zip (chunksOf 10240 (b.hdr.acc + 1) ac))
    { b with acc := { b.acc with sp0 := spPutN 0 [] 0 sp }, mx := { b.mx with acc := [] } }
  refine ⟨acc, (chunksOf 80 (b.fab.drift.length + 1) dr).map driftOf, ?_⟩
  rw [Bank.refilled]
  dsimp only
  rw [h]

theorem refilled_part (b : Bank) (sp ac dr : List Byte) {p : BankPart} (hp : p ∉ [BankPart.share, .cells, .fabric]) :
    BankPart.same (b.refilled sp ac dr) b p := by
  obtain ⟨acc, drift, h⟩ := refilled_eq b sp ac dr
  rw [h]
  cases p <;> simp [BankPart.same, Bank.entries] at hp ⊢

/-- What standing in its place again changes is the bank's own. -/
theorem back_part (b : Bank) {p : BankPart} (hp : p ≠ .own) :
    BankPart.same { b with st := .ready, evict := false, seq := { b.seq with wdog := 0 } } b p := by
  cases p <;> simp [BankPart.same, Bank.entries] at hp ⊢

end Sys2Proof.Sequencer

/-!
SUPPORT. Graphs (05 R176 to R179): one starts, a node is submitted, and one that is over leaves its record, its queue and its interrupt.
-/

namespace Sys2Proof.Sequencer
open Sys2Proof.Machine

/-! ## Meridian (05 R176 to R179) -/

theorem startGraph_starts {s u v : State} {x : Launch} {d : List Byte} {nodes : List GNode}
    (hr : Reads s x.pkt.ctx x.pkt.image (384 * x.pkt.counts.getD 1 0) u d)
    (hok : ((chunksOf 384 (x.pkt.counts.getD 1 0 + 1) d).map nodeOf).all (·.isSome) = true)
    (hsucc : u.readSuccs x.pkt.ctx x.pkt.image (((chunksOf 384 (x.pkt.counts.getD 1 0 + 1) d).map nodeOf).filterMap id) = (v, .ok nodes))
    (hgood : graphBad nodes = false) :
    ∃ g, s.startGraph x = { v.takeHead x with launches := v.launches.filter (fun y => y.id != x.id), graphs := v.graphs ++ [g] } ∧ g.nodes = nodes
      ∧ g.steps = x.pkt.counts.getD 0 0 ∧ g.stop = none ∧ g.fin = List.replicate (x.pkt.counts.getD 1 0) 0 := by
  have hl := takeHead_launches v x
  have hg : (v.takeHead x).graphs = v.graphs := by
    unfold State.takeHead
    split <;> rfl
  rw [State.startGraph]
  dsimp only
  rw [show s.mread _ _ _ = _ from hr]
  dsimp only
  rw [if_neg (by rw [hok]; decide), hsucc]
  dsimp only
  rw [if_neg (by rw [hgood]; decide), hl, hg]
  exact ⟨_, rfl, rfl, rfl, rfl, rfl⟩

/-- The launch of a node's next step. -/
def nodeLaunch (s : State) (g : Graph) (n : Nat) (nd : GNode) : Launch :=
  newLaunch (2 * s.nextId) 64 0 g.fn (nd.packet (g.subm.getD n 0) g.period) (g.subm.getD n 0) (some (g.id, n))

/-- The graph with the step submitted. -/
def submitted (g : Graph) (n : Nat) : Graph := { g with subm := listSet g.subm n (g.subm.getD n 0 + 1) }

/-- The package with the launch. -/
def withNode (s : State) (g : Graph) (n : Nat) (nd : GNode) : State :=
  { s.newId.2 with
    graphs := s.graphs.map (fun y : Graph => if y.id = g.id then { y with subm := listSet y.subm n (g.subm.getD n 0 + 1) } else y)
    launches := s.launches ++ [nodeLaunch s g n nd] }

section
variable {s : State} {gid n : Nat} {g : Graph}

theorem graph_id (h : s.graph gid = some g) : g.id = gid := by
  have := List.find?_some h
  simpa using this

theorem submitNode_new {nd : GNode} (hg : s.graph g.id = some g) (hnone : ∀ x ∈ s.launches, ¬ (x.node = some (g.id, n) ∧ x.st = .queued ∧ x.hdr = none))
    (hready : g.ready n = true) (hnd : g.nodes[n]? = some nd) (hgood : (withNode s g n nd).packetBad (nd.packet (g.subm.getD n 0) g.period) g.fn = false) :
    s.submitNode g.id n = (withNode s g n nd).checkHeader (nodeLaunch s g n nd).id := by
  have hfind : s.launches.find? (fun x => x.node == some (g.id, n) && x.st == .queued && x.hdr.isNone) = none :=
    List.find?_eq_none.2 fun x hx e => hnone x hx (by simpa [and_assoc] using e)
  rw [State.submitNode, hg]
  dsimp only
  rw [hfind]
  dsimp only
  rw [if_neg (by rw [hready]; decide), List.head?_drop, hnd]
  dsimp only
  exact if_neg (Bool.eq_false_iff.1 hgood)

theorem withNode_graph (hg : s.graph g.id = some g) (nd : GNode) : (withNode s g n nd).graph g.id = some (submitted g n) := by
  obtain ⟨hp, as, bs, hl, has⟩ := List.find?_eq_some_iff_append.1 (show s.graphs.find? _ = some g from hg)
  change (s.graphs.map _).find? _ = _
  rw [List.find?_map]
  refine Option.map_eq_some_iff.2 ⟨g, List.find?_eq_some_iff_append.2 ⟨by simp, as, bs, hl, fun a ha => ?_⟩, if_pos rfl⟩
  have hne := has a ha
  simp only [Bool.not_eq_true', beq_eq_false_iff_ne] at hne
  simp [hne]

end

/-! ## The end of a graph (05 R179) -/

/-- A graph's record stored, where it may be. -/
def graphRecorded (s : State) (g : Graph) : State := if s.hasRecord g.ctx g.fn g.crec then s.mwrite g.ctx g.crec (g.record s.dtime) else s

/-- Its packet complete in its queue. -/
def graphIndexed (s : State) (g : Graph) : State := s.setQueue g.queue ((s.queue g.queue).complete g.slot)

/-- Its interrupt sent. -/
def graphNotified (s : State) (g : Graph) : State := if g.notify then s.msix (s.queue g.queue).fn (s.queue g.queue).vec else s

/-- The package without it. -/
def graphEnded (s : State) (g : Graph) : State :=
  { graphNotified (graphIndexed (graphRecorded s g) g) g with
    graphs := (graphNotified (graphIndexed (graphRecorded s g) g) g).graphs.filter (fun y : Graph => y.id != g.id) }

theorem length_recordBytes (tag status fault fcore fword nfault : Nat) (pcs : List Nat) (iters tdisp tend detail step node : Nat) :
    (recordBytes tag status fault fcore fword nfault pcs iters tdisp tend detail step node).length = 64 := by
  obtain ⟨l, hl, h⟩ := recordBytes_eq tag status fault fcore fword nfault pcs iters tdisp tend detail step node
  rw [h]
  simp [length_leBytes, hl]

theorem length_graphRecord (g : Graph) (now : Nat) : (g.record now).length = 64 := by
  unfold Graph.record
  split <;> exact length_recordBytes ..

section
variable {s : State} {g : Graph}

theorem stopGraph_over (hg : s.graph g.id = some g) (hrun : s.nodeRuns g.id = false)
    (hover : g.stop.isSome = true ∨ g.cancel = true ∨ ∀ k ∈ g.fin, k = g.steps) : s.stopGraph g.id = (graphEnded s g).arbiter := by
  have hgo : ¬ (s.nodeRuns g.id || !(g.stop.isSome || g.cancel || g.fin.all (· == g.steps))) = true := by
    rw [hrun]
    rcases hover with h | h | h
    · simp [h]
    · simp [h]
    · simp [List.all_eq_true.2 fun k hk => beq_iff_eq.2 (h k hk)]
  rw [State.stopGraph, hg]
  dsimp only
  rw [if_neg hgo]
  rfl

theorem sameHost_graphRecorded : SameHost s (graphRecorded s g) := by
  unfold graphRecorded
  split
  · exact sameHost_mwrite ..
  · exact .refl s

theorem graphNotified_rest (s : State) (g : Graph) : (graphNotified s g).queues = s.queues ∧ (graphNotified s g).mem = s.mem
    ∧ (graphNotified s g).regs.msix = s.regs.msix ++ (if g.notify then [((s.queue g.queue).fn, (s.queue g.queue).vec)] else []) := by
  unfold graphNotified
  split
  · exact ⟨rfl, rfl, rfl⟩
  · exact ⟨rfl, rfl, (List.append_nil _).symm⟩

theorem graphEnded_graph : (graphEnded s g).graph g.id = none := by
  rw [State.graph, graphEnded]
  exact List.find?_eq_none.2 fun y hy e => by simp [beq_iff_eq.1 e] at hy

theorem graphEnded_queue : (graphEnded s g).queue g.queue = (s.queue g.queue).complete g.slot := by
  obtain ⟨hq, -⟩ := sameHost_graphRecorded (s := s) (g := g)
  have hn : (graphEnded s g).queues = (graphIndexed (graphRecorded s g) g).queues := (graphNotified_rest ..).1
  rw [queue_of_queues hn, graphIndexed, queue_setQueue_same, queue_of_queues hq]

theorem graphEnded_msix : (graphEnded s g).regs.msix = s.regs.msix ++ (if g.notify then [((s.queue g.queue).fn, (s.queue g.queue).vec)] else []) := by
  obtain ⟨hq, hr, -⟩ := sameHost_graphRecorded (s := s) (g := g)
  obtain ⟨-, -, hm⟩ := graphNotified_rest (graphIndexed (graphRecorded s g) g) g
  obtain ⟨hfn, hvec⟩ := complete_fn_vec (s.queue g.queue) g.slot
  rw [graphEnded, hm, graphIndexed, queue_setQueue_same, queue_of_queues hq, hfn, hvec, setQueue_regs, hr]

theorem graphEnded_record (hrec : s.hasRecord g.ctx g.fn g.crec = true) {v : State} {a pg : Nat} {w : Option Nat}
    (hw : s.walkAll g.ctx g.crec 64 true [0, 1] = (v, .ok [⟨.pa a, 64, w, pg⟩])) : (graphEnded s g).readPa a 64 = g.record s.dtime := by
  obtain ⟨-, hm, -⟩ := graphNotified_rest (graphIndexed (graphRecorded s g) g) g
  have hlen := length_graphRecord g s.dtime
  have hread := readPa_mwrite (d := g.record s.dtime) (hlen.symm ▸ hw)
  rw [hlen] at hread
  rw [State.readPa, graphEnded, hm, graphIndexed, setQueue_mem, graphRecorded, if_pos hrec]
  exact hread

end

end Sys2Proof.Sequencer

/-!
SUPPORT. The statement about doorbells, packets, headers, loading and graphs, from the lemmas about each event.
-/

namespace Sys2Proof.Sequencer
open Sys2Proof.Machine

/-- Settles O48: each event of a launch's start and of a graph, by what it says of the queue, the launch, the bank or the graph. -/
theorem dispatch : Obligations.Dispatch := by
  unfold Obligations.Dispatch
  refine ⟨?doorbell, ?packet, ?header, ?arbitrates, ?loads, ?restores, ?keeps, ?starts, ?submits, ?stops⟩
  case doorbell =>
    intro s fn q v k w allowed full
    refine ⟨fun h => (qwidxWrite_eq v).trans (by rw [if_neg h]), fun h hf => (qwidxWrite_eq v).trans (by rw [if_pos h, if_pos hf]), fun h hf => ?_⟩
    exact ⟨s.setQueue q.val { k with widx := w }, (qwidxWrite_eq v).trans (by rw [if_pos h, if_neg hf]), rfl, rfl, fun p => queue_setQueue ..⟩
  case packet =>
    intro s q k a p new hready hen hfree hwaits hdone hahead hstill
    have ho : Offers s q.val := ⟨hready, hen, hfree, hwaits, hdone, hahead, hstill⟩
    refine ⟨fun hhome hgood hnew => ?_, fun b hhome hbad => ?_⟩
    · have hclean : ¬ (!homesOk [0, 1] a 256 || (s.firstBad (.pa a) 256).isSome) = true := by simp [hhome, hgood]
      have hx : (offered s q.val).launch new.id = some new := launch_append rfl hnew
      refine ⟨fun (hb : s.packetBad (offer s q.val).pkt (s.queue q.val).fn = false) => ⟨offered s q.val, ?_, rfl, rfl, offered_queue s q.val⟩,
        fun (hb : s.packetBad (offer s q.val).pkt (s.queue q.val).fn = true) => ⟨(offered s q.val).completeNow new.id 3, ?_, completeNow_done 3 hx, ?_⟩⟩
      · rw [exec_packetCheck, checkPacket_head ho, if_neg hclean, if_neg (Bool.eq_false_iff.1 hb)]
      · rw [exec_packetCheck, checkPacket_head ho, if_neg hclean, if_pos hb]
        rfl
      · exact completeNow_ridx 3 hx q.isLt
    · have hdirty : (!homesOk [0, 1] a 256 || (s.firstBad (.pa a) 256).isSome) = true := by simp [hbad]
      refine ⟨_, by rw [exec_packetCheck, checkPacket_head ho, if_pos hdirty], ?_, ?_⟩
      · rw [setQueue_launches, logEvent_launches]
        rfl
      · rw [queue_setQueue_same, (complete_ridx_en ..).1]
  case header =>
    intro s u q x hhead hx hhdr hpf htyp
    have hu : Unread s x := ⟨hx, headOf_queued hhead, hhdr, hpf, htyp⟩
    have hexec : exec (.headerCheck q) s = .next (s.checkHeader x.id) := by rw [exec_headerCheck, execHeaderCheck, hhead]
    refine ⟨fun d h hr hp => ?_, fun d hr hp => ?_, fun va hr => ?_⟩
    · have hxu := (sameHost_reads hr).launch x.id |>.trans hx
      refine ⟨fun hfit => ⟨_, hexec.trans (congrArg _ (checkHeader_kept hu hr hp hfit)), launch_modLaunch_same hxu rfl, rfl⟩, fun hfew => ?_⟩
      have hmany : ∀ h', parseHeader d x.pkt.image = some h' → u.coreCount x.pkt < h'.stages := fun h' e => Option.some.inj (hp.symm.trans e) ▸ hfew
      exact ⟨_, hexec.trans (congrArg _ (checkHeader_bad hu hr hmany)), completeNow_done 4 hxu⟩
    · have hxu := (sameHost_reads hr).launch x.id |>.trans hx
      exact ⟨_, by rw [hexec, checkHeader_bad hu hr fun h e => nomatch hp.symm.trans e], completeNow_done 4 hxu⟩
    · have hxu := (sameHost_mread hr fun _ e => MRes.noConfusion e).launch x.id |>.trans hx
      obtain ⟨y, p, hy, hyp, hva⟩ := launchPage_launch hxu va false
      exact ⟨_, y, p, by rw [hexec, checkHeader_page hu hr], hy, hyp, hva⟩
  case arbitrates =>
    intro s
    refine ⟨fun hc => by rw [exec_deadlineReached, State.arbiter, arbitrate_nil hc], fun x hc hst => ⟨fun hlate hmiss => ?_, fun cores hm hx hfit hnd => ?_⟩⟩
    · have hin : x ∈ s.launches := (mem_candidates.1 (hc ▸ List.mem_singleton_self x)).1
      obtain ⟨y, hy⟩ := Option.isSome_iff_exists.1 (show (s.launch x.id).isSome = true from List.find?_isSome.2 ⟨x, hin, beq_self_eq_true x.id⟩)
      have hid : y.id = x.id := launch_id hy
      rw [← hid] at hy ⊢
      refine ⟨_, ?_, completeNow_done 2 hy⟩
      rw [exec_deadlineReached, arbiter_missed hc hst ⟨hlate, hmiss⟩, ← hid, arbitrate_nil (completeNow_candidates hc hid hy 2)]
    · refine ⟨s.dispatch x cores, dispatched s x cores, ?_, dispatch_launch hx, rfl, rfl, locsOn_cores _ _, fun l hl => ?_⟩
      · rw [exec_deadlineReached, arbiter_dispatch hc hst hm hfit, arbitrate_nil (dispatch_candidates hc)]
      · obtain ⟨place, hb⟩ := dispatch_bank hnd hl
        rw [hb]
        exact ⟨rfl, rfl, rfl, rfl⟩
  case loads =>
    intro s u v w l x text td sch b h ents hl hst hxst hpf hsaved ht hd hc hok
    exact ⟨_, (exec_bankLoaded l s).trans (congrArg _ (loadBank_loaded ⟨hl, hst, hxst, hpf⟩ hsaved ht hd hc hok)), rfl, bank_setBank_same ..⟩
  case restores =>
    intro s u v w l x k sp ac dr b a a2 hl hst hxst hpf hsaved hk hsp hac hdr
    have hx : w.launch x.id = some x := ((sameHost_reads hsp).trans ((sameHost_reads hac).trans (sameHost_reads hdr))).launch x.id |>.trans (launch_of_bind hl).2
    obtain ⟨acc, drift, hfill⟩ := refilled_eq k.unpacked sp ac dr
    refine ⟨backAt w l x (k.unpacked.refilled sp ac dr), ?_, rfl, ?_, ?_, fun e => ?_, fun p hp => ?_, backAt_saved hx l _⟩
    · rw [exec_bankLoaded, loadBank_restored ⟨hl, hst, hxst, hpf⟩ hsaved (restore_read hk hsp hac hdr)]
    · rw [backAt_bank]
    · rw [backAt_bank, hfill]
    · rw [backAt_bank, hfill]
      exact unpacked_eng k e
    · have hown : p ≠ .own := fun e => hp (by simp [e])
      rw [backAt_bank]
      exact BankPart.same_trans (back_part _ hown) (BankPart.same_trans (refilled_part _ _ _ _ fun e => hp (by simp_all)) (unpacked_part k hown))
  case keeps =>
    intro s l x k hl hst hxst hpf hsaved hk
    refine ⟨backAt s l x k.unpacked, ?_, rfl, ?_, fun e => ?_, fun p hp => ?_, backAt_saved (launch_of_bind hl).2 l _⟩
    · rw [exec_bankLoaded, loadBank_restored ⟨hl, hst, hxst, hpf⟩ hsaved (restore_kept hk)]
    · rw [backAt_bank]
    · rw [backAt_bank]
      exact unpacked_eng k e
    · rw [backAt_bank]
      exact BankPart.same_trans (back_part _ hp) (unpacked_part k hp)
  case starts =>
    intro s u v q x d nodes n ents hhead htyp hen hnext hr hok hsucc hgood
    obtain ⟨g, hstart, hnodes, hsteps, hstop, hfin⟩ := startGraph_starts hr hok hsucc hgood
    have hexec : exec (.meridianGraphStart q) s = .next (s.startGraph x) := by
      rw [exec_meridianGraphStart, execMeridianGraphStart, hhead]
      dsimp only
      rw [if_pos ⟨htyp, hen, hnext⟩]
    exact ⟨_, g, hexec.trans (congrArg _ hstart), rfl, hnodes, hsteps, hstop, hfin, rfl, takeHead_mem v x⟩
  case submits =>
    intro s w gid n g nd d h k p new u hg hnone hready hnd hnew hgood htyp hr hp hfit
    obtain rfl := graph_id hg
    have hx : u.launch new.id = some new := launch_append rfl hnew
    have hw := sameHost_reads hr
    have hu : Unread u new := ⟨hx, rfl, rfl, rfl, htyp⟩
    refine ⟨w.modLaunch new.id (fun x => { x with hdr := some h }), ?_, launch_modLaunch_same (hw.launch new.id |>.trans hx) rfl, ?_⟩
    · rw [exec_meridianNodeReady, submitNode_new hg hnone hready hnd hgood]
      exact congrArg _ (checkHeader_kept hu hr hp hfit)
    · obtain ⟨-, -, -, hgs⟩ := hw
      rw [State.graph, modLaunch_graphs, hgs]
      exact withNode_graph hg nd
  case stops =>
    intro s gid g hg hrun hover
    obtain rfl := graph_id hg
    exact ⟨graphEnded s g, by rw [exec_meridianGraphStop, stopGraph_over hg hrun hover], graphEnded_graph, graphEnded_queue, graphEnded_msix,
      fun v a va pg hrec hw => graphEnded_record hrec hw⟩

end Sys2Proof.Sequencer

/-!
SUPPORT. A drain of a write stream whose turn lets a word of V retire (02 R42; 06 R213): what the model evaluates to where V's word waits for nothing.
-/

namespace Sys2Proof.Sequencer
open Sys2Proof.Machine

/-- A write stream of one byte, at the start of the share of core 0: A holds its vector, whose byte 0 is 5. -/
def byteStream : Stream := ⟨0, 0, [0x400, 0, 0x100000001], [], true, [⟨3, 5, []⟩], 0, 0, []⟩

/-- A is to drain it as `q0`, and a word of V that pushes one vector more to `q0` has issued and waits for nothing. -/
def pushWaits : State := running {
  hdr := { spad := 64 }
  acc := { q := [(0, byteStream)] }
  engs := { V := { pc := 1, walk := 1, rets := [⟨0, 0, 0, 0, [], [.vector 0 5 6 []], []⟩] } } }

/-- The vector drains, and V's word retires: A holds the vector that it pushed. -/
theorem pushWaits_drain : answers (exec (.streamDrain ⟨0, 0⟩ 0) pushWaits)
    (fun t => ((assoc (t.bank ⟨0, 0⟩).acc.q (0 : Fin 8).val).map (fun y => y.held.map (·.x))) == some [6]) = true := by decide +kernel

/-- Refutes O50: the drain of a write stream's oldest vector is said to leave those behind it as they were, whatever is in flight; but the retirement that the
drain brings may push one more. -/
theorem not_streamsAndPages : ¬ Obligations.StreamsAndPages := by
  unfold Obligations.StreamsAndPages
  rintro ⟨hstreams, -⟩
  obtain ⟨-, hdrain⟩ := hstreams pushWaits pushWaits pushWaits ⟨0, 0⟩ 0 byteStream [[⟨.sp0 ⟨0, 0⟩ 0, 1, none, 0⟩]] rfl (by decide) (by decide)
  obtain ⟨t, y, hx, hy, hheld, -⟩ := hdrain ⟨3, 5, []⟩ [] rfl rfl rfl (by rfl) (by decide) (by rfl)
  have hpushed := of_answers pushWaits_drain hx
  rw [hy] at hpushed
  simp [hheld] at hpushed

end Sys2Proof.Sequencer
